-- ==== Sys2Proof/Word.lean ====
section
/-! DEFINITION. The word types of the part and their plainest arithmetic. -/

namespace Sys2Proof

/-- One byte of either link. -/
abbrev Byte := BitVec 8

/-- One 16-bit word: a control value, a tag, a field of a request or of a table record. -/
abbrev Word := BitVec 16

/-- A cycle number (R1). -/
abbrev Cycle := BitVec 32

/-- A set of tiers; bit k stands for tier k (R183). -/
abbrev TierSet := BitVec 8

end Sys2Proof
end

