-- ==== Sys2Proof/Syntax.lean ====
section
/-! DEFINITION. The commands of the part: one constructor for each row of spec/opcode_table.json. -/

namespace Sys2Proof

/-- The outcome of a delivery, as a writer is told it (1.6.1). -/
inductive Delivery where
  | ack
  | noAck
  | superseded
deriving DecidableEq, Repr

/-- The six bytes of an inbound cell (R179): node, channel kind code, value, the byte that
carries quality and echo, and the cell check. -/
structure InCell where
  node : Byte
  kind : Byte
  value : Word
  status : Byte
  check : Byte
deriving DecidableEq, Repr

/-- A command of the part. A request row carries its tag and its fields as the 16-bit words in
which R180 carries them, so that a field out of its range can be sent. -/
inductive Instr where
  | powerOnReset
  | softReset
  | cycleStart
  | cycleEnd
  | cellReceive (slot : Nat) (cell : InCell)
  | acfailInChange (asserted : Bool)
  | leakInChange (asserted : Bool)
  | admitTimerExpiry (branch : Nat)
  | stopTimerExpiry (branch : Nat)
  | spacingTimerExpiry
  | qualificationTimerExpiry
  | stableTimerExpiry
  | capacityPersistenceExpiry
  | evaluation
  | stepTimerExpiry
  | messageReceive (bytes : List Byte)
  | uplinkTransmitDone
  | responseAppend
  | nodePassComplete (outcome : Delivery)
  | readStatus (tag : Word)
  | writeTable (tag table start : Word) (words : List Word)
  | readTable (tag table start count : Word)
  | locateBranch (tag branch : Word)
  | branchRequest (tag branch action : Word)
  | branchClear (tag branch : Word)
  | sequenceStart (tag : Word)
  | sequenceSuspend (tag : Word)
  | sequenceResume (tag : Word)
  | sequenceAbort (tag : Word)
  | leakAck (tag zone : Word)
  | leakClear (tag zone : Word)
  | nodePass (tag node value : Word)
  | protect (tag table : Word) (banks : List Word)
  | unprotect (tag table : Word) (banks : List Word)
  | freezeProtection (tag : Word)
  | setFeature (tag feature value : Word)
  | getDetail (tag : Word)
  | reset (tag : Word)
  | resetInAsserted
deriving DecidableEq, Repr

end Sys2Proof
end

