-- ==== Sys2Proof/Config.lean ====
section
/-! DEFINITION. The free values: what the manual leaves open and the model does not choose. -/

namespace Sys2Proof

/-- R150: the hand-offs of one leak event to the BCU and to the SQE are not ordered between
themselves, and R134 gives the outcome of each order. For the n-th leak hand-off this says
whether the BCU is handed it first. DESIGN CHOICE: left free (log 8). -/
opaque Config.bcuHandedFirst : Nat → Bool

/-- R163 returns a feature's previous value even with a refused SET FEATURE, and states none for
an identifier that names no feature. The result bytes for such an identifier.
DESIGN CHOICE: left free (log 14). -/
opaque Config.unknownFeatureResult : Word → List Byte

end Sys2Proof
end

