-- ==== Sys2Proof/Machine/State.lean ====
section
/-! DEFINITION. The state of the part, as plain data, and its value after reset.
Each block of 2.1 (00_scope.md) is a structure that holds the state it owns. -/

namespace Sys2Proof.Machine

/-! ## Enumerations (names of the manual; codes stand in Machine/Codes.lean) -/

/-- Channel kinds (R9). -/
inductive ChannelKind where
  | rmInVolt | rmOutPower | rmStatus | rmTemp | bmEnergy | bmPower | bmStatus
  | brPower | brStatus | lkLevel | generic
deriving DecidableEq, Repr

/-- Quality of a sample (1.3.1). -/
inductive Quality where
  | good | invalid | sensorFault
deriving DecidableEq, Repr

/-- Class of a channel (R26). -/
inductive ChanClass where
  | unseen | normal | warnLow | warnHigh | tripLow | tripHigh | stale | unclassified
deriving DecidableEq, Repr

/-- Forward mode of a limit entry (R23): ALL, DELTA, CLASS, NONE. -/
inductive ForwardMode where
  | all | delta | onClass | never
deriving DecidableEq, Repr

/-- Trip action of a limit entry (R23). -/
inductive TripAction where
  | never | branchTrip | nodeStandby
deriving DecidableEq, Repr

/-- Derived rectifier state (R73). -/
inductive RectState where
  | absent | fault | standby | inputFail | ok
deriving DecidableEq, Repr

/-- Derived battery state (R76). -/
inductive BattState where
  | absent | fault | empty | stale | online
deriving DecidableEq, Repr

/-- Source state (4.4.1). -/
inductive SourceState where
  | unknown | onAc | onBattery | returnPending | depleted
deriving DecidableEq, Repr

/-- Redundancy setting (R77): N, N_PLUS_1. -/
inductive Redundancy where
  | plain | nPlusOne
deriving DecidableEq, Repr

/-- Branch state (R47). -/
inductive BranchState where
  | unknown | off | queued | admitting | on | stopping | fault
deriving DecidableEq, Repr

/-- Cause of a branch's entry into FAULT (R60). -/
inductive BranchCause where
  | admitTimeout | stopTimeout | noAck | switchFault | uncommandedOn | uncommandedOff
deriving DecidableEq, Repr

/-- Kind of a sequence step (R116); `endRun` is END. -/
inductive StepKind where
  | enableGroup | disableGroup | waitGood | delay | checkpoint | endRun
deriving DecidableEq, Repr

/-- Policy of a sequence step (R116). -/
inductive Policy where
  | halt | skip
deriving DecidableEq, Repr

/-- Run state (R118). -/
inductive RunState where
  | idle | running | suspended | halted | done
deriving DecidableEq, Repr

/-- Phase of the current step (R118). -/
inductive StepPhase where
  | notBegun | active
deriving DecidableEq, Repr

/-- Cause of a failed step (R133). -/
inductive StepCause where
  | branchFault | timeout | stepInvalid
deriving DecidableEq, Repr

/-- State of a leak point (R138). -/
inductive PointState where
  | unseen | dry | wetPending | wet | dryPending | fault
deriving DecidableEq, Repr

/-- Cause of a leak point's entry into FAULT (R140). -/
inductive PointCause where
  | level | sensor | stale
deriving DecidableEq, Repr

/-- Latched state of a leak zone (R143). -/
inductive ZoneState where
  | clear | alert | confirmed | isolated
deriving DecidableEq, Repr

/-- State of a node (R12). -/
inductive NodeState where
  | unheard | live | silent
deriving DecidableEq, Repr

/-- A block that stages controls (1.6.1). -/
inductive Writer where
  | bcu | tlf | rlp
deriving DecidableEq, Repr

/-- The nine tables (R169). -/
inductive TableId where
  | slotMap | limit | rectifier | battery | branch | sequence | leakPoint | leakZone | profile
deriving DecidableEq, Repr

/-- Final status of a request (R158). -/
inductive Status where
  | done | clamped | busy | badRequest | range | conflict | isProtected | frozen | inUse
  | notAllowed | notDry | noRoute | owned | noAck | endOfTable | noDetail
deriving DecidableEq, Repr

/-- Kinds of event record, in the order of R184. -/
inductive EventKind where
  | nodeLive | nodeSilent | limitWarn | limitTrip | limitNormal | channelStale
  | standbyNoAck | rectState | batteryState | sourceQualified | acLoss | acReturn
  | restoreDone | depleted | shedTier | capacityDeficit | capacityReleased | deficit
  | holdupLow | branchFault | stepDone | stepFailed | checkpoint | runDone | runResumed
  | runHalted | runSuspended | leakPointFault | zoneDegraded | leakAlert | leakConfirmed
  | leakIsolated | leakCleared
deriving DecidableEq, Repr

/-- The side the uplink arbiter served last among responses and telemetry (R167). -/
inductive UplinkSide where
  | rsp | tel
deriving DecidableEq, Repr

/-- A timer counts milliseconds. Only the step timer is ever frozen (R118, R130). -/
inductive Timer where
  | stopped
  | running (left : Nat)
  | frozen (left : Nat)
deriving DecidableEq, Repr

/-! ## Shelf Link Controller -/

/-- A valid Slot Map entry (R3). -/
inductive SlotEntry where
  | input (node : Nat) (kind : ChannelKind) (limit : Option Nat)
  | output (node : Nat)
deriving DecidableEq, Repr

/-- A record of the Node Status List (R12). -/
structure NodeRecord where
  state : NodeState
  lastHeard : Option Cycle
deriving DecidableEq, Repr

/-- An Outbound Slot record (R15). `forBranch` is the branch a BCU value was staged for, which
R59 needs; `firstSent` says that the present sequence number was first sent in this cycle, which
R19 needs (DEDUCED, log 18). -/
structure OutRecord where
  staged : Option Word
  live : Option Word
  seq : BitVec 2
  awaiting : Bool
  cyclesSince : Nat
  retries : Nat
  lastWriter : Option Writer
  owed : Bool
  forBranch : Option Nat
  firstSent : Bool
deriving DecidableEq, Repr

/-- An outbound cell that the part sends in a slot of the present cycle (R17, R21, R179). -/
structure OutCell where
  slot : Nat
  node : Nat
  value : Word
  seq : BitVec 2
deriving DecidableEq, Repr

/-- State of the Shelf Link Controller. Slot k stands at place k of each 96-place list, node n at
place n − 1 of the Node Status List. -/
structure Slc where
  cycle : Cycle
  written : List (Option SlotEntry)
  active : List (Option SlotEntry)
  out : List (Option OutRecord)
  nodes : List NodeRecord
  satisfied : List Nat
  sending : List OutCell
  checkErrors : Nat
  misplaced : Nat
  retries : Nat
  noAcks : Nat
deriving DecidableEq, Repr

/-! ## Telemetry Filter -/

/-- A valid Limit Table entry (R23). -/
structure LimitEntry where
  lowTrip : Option Int
  lowWarn : Option Int
  highWarn : Option Int
  highTrip : Option Int
  hysteresis : Nat
  persistence : Nat
  staleLimit : Nat
  forward : ForwardMode
  deadband : Nat
  tripAction : TripAction
deriving DecidableEq, Repr

/-- A Channel State record (R26). -/
structure ChannelState where
  cls : ChanClass
  last : Option Int
  lastForwarded : Option Int
  candidate : Option ChanClass
  count : Nat
  miss : Nat
deriving DecidableEq, Repr

/-- A forwarded sample record (R41). -/
structure SampleRecord where
  node : Nat
  kind : ChannelKind
  value : Int
  cls : ChanClass
  cycle : Cycle
deriving DecidableEq, Repr

/-- State of the Telemetry Filter; the Channel State record of slot k stands at place k. -/
structure Tlf where
  limits : List (Option LimitEntry)
  channels : List (Option ChannelState)
  queue : List SampleRecord
  drops : Nat
deriving DecidableEq, Repr

/-! ## Branch Control Unit -/

/-- The demands of a branch (R48). -/
structure Demands where
  seq : Bool
  ctrl : Bool
deriving DecidableEq, Repr

/-- The holds of a branch (R49, R50). -/
structure Holds where
  leak : Bool
  trip : Bool
  shed : Bool
  forceOff : Bool
deriving DecidableEq, Repr

/-- The configured fields of a valid Branch Table entry (R45). -/
structure BranchCfg where
  node : Nat
  ratedW : Nat
  zone : Option Nat
  tier : Nat
  group : Nat
deriving DecidableEq, Repr

/-- A valid Branch Table entry with its live fields (R47). `moved` says that a change of the switch node
made the branch UNKNOWN, and no reset: R100 counts the two cases apart (DEDUCED, log 33). -/
structure Branch where
  cfg : BranchCfg
  state : BranchState
  demands : Demands
  holds : Holds
  reading : Option Nat
  fresh : Bool
  enrolling : Option Nat
  timer : Timer
  foundFaulted : Bool
  moved : Bool
deriving DecidableEq, Repr

/-- State of the Branch Control Unit. -/
structure Bcu where
  branches : List (Option Branch)
  queue : List Nat
  spacing : Timer
  headBlocked : Bool
deriving DecidableEq, Repr

/-! ## Source and Ride-Through Unit -/

/-- A valid Rectifier Table entry with its derived state (R72, R73). -/
structure Rectifier where
  node : Nat
  ratedW : Nat
  state : RectState
deriving DecidableEq, Repr

/-- A valid Battery Table entry with its derived state (R75, R76). -/
structure Battery where
  node : Nat
  state : BattState
deriving DecidableEq, Repr

/-- The Power Profile (R92). -/
structure Profile where
  nodeSilence : Nat
  ackWindow : Nat
  retryLimit : Nat
  admitTimeoutMs : Nat
  spacingMs : Nat
  readinessGate : Bool
  overheadW : Nat
  redundancy : Redundancy
  minRect : Nat
  qualMs : Nat
  acStableMs : Nat
  capPersistMs : Nat
  evalMs : Nat
  floor : Nat
  effPm : Nat
  tReqS : Nat
  marginPm : Nat
  warnS : Nat
  leakLineZone : Option Nat
deriving DecidableEq, Repr

/-- State of the Source and Ride-Through Unit. -/
structure Sru where
  rects : List (Option Rectifier)
  batts : List (Option Battery)
  profile : Profile
  capacity : Nat
  source : SourceState
  qualTimer : Timer
  stableTimer : Timer
  capTimer : Timer
  evalTimer : Timer
  tBatt : Nat
  tBattCounts : Bool
  depletedFlag : Bool
  battShed : TierSet
  capShed : TierSet
  capDeficitPosted : Bool
  u : Option Nat
  p : Option Nat
  tProj : Option Nat
  tNeed : Option Nat
  tGoal : Option Nat
  held : Bool
  evaluatedOnAc : Bool
  deficitPosted : Bool
  holdupPosted : Bool
deriving DecidableEq, Repr

/-! ## Sequence Engine -/

/-- A valid Sequence Table entry (R116). -/
structure SeqStep where
  kind : StepKind
  group : Nat
  timeMs : Nat
  policy : Policy
  code : Nat
deriving DecidableEq, Repr

/-- The suspend causes (R118). -/
structure Causes where
  ac : Bool
  request : Bool
  leak : Bool
deriving DecidableEq, Repr

/-- State of the Sequence Engine: the Sequence Table and the run record (R118). `faultedMembers`
names the members that the faulted count has counted (R123; DEDUCED, log 18). -/
structure Sqe where
  steps : List (Option SeqStep)
  run : RunState
  index : Nat
  phase : StepPhase
  causes : Causes
  timer : Timer
  enrolled : Nat
  alreadyOn : Nat
  startSkipped : Nat
  faulted : Nat
  faultedMembers : List Nat
deriving DecidableEq, Repr

/-! ## Leak Monitor -/

/-- The configured fields of a valid Leak Point entry (R136). -/
structure PointCfg where
  node : Nat
  slot : Nat
  zone : Nat
  wetLevel : Nat
  faultLevel : Nat
  debounce : Nat
deriving DecidableEq, Repr

/-- A valid Leak Point entry with its live fields (R138). -/
structure Point where
  cfg : PointCfg
  state : PointState
  count : Nat
deriving DecidableEq, Repr

/-- The configured fields of a valid Leak Zone entry (R141). -/
structure ZoneCfg where
  vote : Nat
  isolate : Bool
  valve : Bool
  suspend : Bool
deriving DecidableEq, Repr

/-- A leak zone: its entry and its latch (R142, R143). -/
structure Zone where
  cfg : Option ZoneCfg
  state : ZoneState
  acked : Bool
  degraded : Bool
deriving DecidableEq, Repr

/-- State of the Leak Monitor. `handOffs` is the model's own: the index at which the free order of
R150 is read (log 8). -/
structure Lkm where
  points : List (Option Point)
  zones : List Zone
  handOffs : Nat
deriving DecidableEq, Repr

/-! ## Rack Link Port -/

/-- A request as its body spells it (R180); `bad` is an unknown kind or a body that does not suit
its kind (R158), with the kind byte if the body has one. -/
inductive Request where
  | readStatus
  | writeTable (table start : Word) (words : List Word)
  | readTable (table start count : Word)
  | locateBranch (branch : Word)
  | branchRequest (branch action : Word)
  | branchClear (branch : Word)
  | sequenceStart
  | sequenceSuspend
  | sequenceResume
  | sequenceAbort
  | leakAck (zone : Word)
  | leakClear (zone : Word)
  | nodePass (node value : Word)
  | protect (table : Word) (banks : List Word)
  | unprotect (table : Word) (banks : List Word)
  | freezeProtection
  | setFeature (feature value : Word)
  | getDetail
  | reset
  | bad (kind : Option Byte)
deriving DecidableEq, Repr

/-- A member of the Request Queue (R155). -/
structure Queued where
  tag : Word
  req : Request
deriving DecidableEq, Repr

/-- A final response (R158). `resets` marks the DONE response of a RESET, whose transmission ends
in the soft reset (R164). -/
structure Response where
  tag : Word
  status : Status
  residual : Nat
  heldNote : Bool
  supersededNote : Bool
  result : List Byte
  resets : Bool
deriving DecidableEq, Repr

/-- An event record (R165). -/
structure EventRecord where
  kind : EventKind
  source : Option Nat
  value : Option Nat
  cycle : Cycle
deriving DecidableEq, Repr

/-- A message of the uplink (R153). -/
inductive Uplink where
  | response (r : Response)
  | data (tag : Word) (table : TableId) (first : Nat) (records : List (List Word))
  | batch (tag : Word) (records : List SampleRecord)
  | event (tag : Word) (record : EventRecord)
deriving DecidableEq, Repr

/-- What the head of the Request Queue is waiting for (R156): nothing yet (it has not begun), room
for its final response, room for the next DATA message of a read, the outcome of its control
delivery (R162), or the end of the transmission of its DONE response (R164). -/
inductive HeadPhase where
  | fresh
  | answering (r : Response)
  | reading (table : TableId) (next left block : Nat) (final : Response)
  | passing (node : Nat)
  | resetting
deriving DecidableEq, Repr

/-- The Fault Detail record (R159). -/
structure FaultDetail where
  kind : Option Byte
  tag : Word
  status : Status
  entry : Option Nat
  field : Option Nat
  residual : Nat
deriving DecidableEq, Repr

/-- The feature settings (R163); `clearTables` is SOFT_RESET_TABLES at CLEAR. -/
structure Features where
  readBlock : Nat
  clearTables : Bool
  forwarding : Bool
  wTel : Nat
  wRsp : Nat
deriving DecidableEq, Repr

/-- State of the Rack Link Port. -/
structure Rlp where
  requests : List Queued
  phase : HeadPhase
  responses : List Uplink
  events : List EventRecord
  detail : Option FaultDetail
  features : Features
  eventTag : Word
  batchTag : Word
  side : UplinkSide
  run : Nat
  tx : Option Uplink
  rxDiscards : Nat
  eventOverflow : Nat
  passOutcome : Option Delivery
deriving DecidableEq, Repr

/-- The bank protection flags, one for each of the 21 banks in the order of R169, and the freeze
flag (R176, R177). -/
structure Protection where
  flags : List Bool
  frozen : Bool
deriving DecidableEq, Repr

/-- The five discrete lines (R185); yes is asserted. -/
structure Lines where
  resetIn : Bool
  acfailIn : Bool
  leakIn : Bool
  valveOut : Bool
  alertOut : Bool
deriving DecidableEq, Repr

/-- A hand-off between blocks that the running command has still to deliver (log 9, log 20). -/
inductive Signal where
  /-- the BCU makes an admission attempt (R66) -/
  | attempt
  /-- the BCU hands branch changes to the SQE (R62) -/
  | branches
  /-- the SRU hands a new source state to the SQE (R87) -/
  | source (s : SourceState)
  /-- the LKM hands a change of a latch to the SQE (R150) -/
  | leak
  /-- the SLC tells a writer the outcome of its stage (R18, R19, R21) -/
  | outcome (w : Writer) (branch : Option Nat) (node : Nat) (o : Delivery)
deriving DecidableEq, Repr

/-- The whole part. -/
structure Part where
  slc : Slc
  tlf : Tlf
  bcu : Bcu
  sru : Sru
  sqe : Sqe
  lkm : Lkm
  rlp : Rlp
  prot : Protection
  lines : Lines
  agenda : List Signal
deriving DecidableEq, Repr

/-- The state: the part, and the commands that wait for it, first in first out. -/
structure State where
  part : Part
  pending : List Instr
deriving DecidableEq, Repr

/-- No command of the part ends in a machine fault: what the manual calls a fault is state (R60,
R139, R158), so there is no reason to name. Safe: the type has no member. -/
inductive Fault where
deriving DecidableEq, Repr

/-- Reasons to refuse a command. -/
inductive Refusal where
  /-- Raised by `exec` for a command that has no meaning yet; no arm raises it. Safe. -/
  | notModelled (mnemonic : String)
deriving DecidableEq, Repr

/-! ## Values after power-on reset -/

/-- The defaults of the Power Profile (R92). -/
def Profile.default : Profile where
  nodeSilence := 100
  ackWindow := 4
  retryLimit := 3
  admitTimeoutMs := 2000
  spacingMs := 50
  readinessGate := true
  overheadW := 300
  redundancy := .nPlusOne
  minRect := 1
  qualMs := 500
  acStableMs := 3000
  capPersistMs := 200
  evalMs := 20
  floor := 0
  effPm := 950
  tReqS := 120
  marginPm := 100
  warnS := 30
  leakLineZone := none

/-- The SLC after power-on reset (R1, R7, R12, R22). -/
def Slc.powerOn : Slc where
  cycle := 0
  written := List.replicate 96 none
  active := List.replicate 96 none
  out := List.replicate 96 none
  nodes := List.replicate 62 ⟨.unheard, none⟩
  satisfied := []
  sending := []
  checkErrors := 0
  misplaced := 0
  retries := 0
  noAcks := 0

/-- The TLF after power-on reset (R44). -/
def Tlf.powerOn : Tlf where
  limits := List.replicate 48 none
  channels := List.replicate 96 none
  queue := []
  drops := 0

/-- The BCU after power-on reset (R71). -/
def Bcu.powerOn : Bcu where
  branches := List.replicate 36 none
  queue := []
  spacing := .stopped
  headBlocked := false

/-- The SRU after power-on reset (R94, R96, R115). -/
def Sru.powerOn : Sru where
  rects := List.replicate 8 none
  batts := List.replicate 6 none
  profile := Profile.default
  capacity := 0
  source := .unknown
  qualTimer := .running Profile.default.qualMs
  stableTimer := .stopped
  capTimer := .stopped
  evalTimer := .stopped
  tBatt := 0
  tBattCounts := false
  depletedFlag := false
  battShed := 0
  capShed := 0
  capDeficitPosted := false
  u := none
  p := none
  tProj := none
  tNeed := none
  tGoal := none
  held := false
  evaluatedOnAc := false
  deficitPosted := false
  holdupPosted := false

/-- The SQE after power-on reset (R118, R135). -/
def Sqe.powerOn : Sqe where
  steps := List.replicate 64 none
  run := .idle
  index := 0
  phase := .notBegun
  causes := ⟨false, false, false⟩
  timer := .stopped
  enrolled := 0
  alreadyOn := 0
  startSkipped := 0
  faulted := 0
  faultedMembers := []

/-- The LKM after power-on reset (R152). -/
def Lkm.powerOn : Lkm where
  points := List.replicate 16 none
  zones := List.replicate 8 ⟨none, .clear, false, false⟩
  handOffs := 0

/-- The RLP after power-on reset (R168). -/
def Rlp.powerOn : Rlp where
  requests := []
  phase := .fresh
  responses := []
  events := []
  detail := none
  features := ⟨8, false, true, 4, 4⟩
  eventTag := 0
  batchTag := 0
  side := .rsp
  run := 0
  tx := none
  rxDiscards := 0
  eventOverflow := 0
  passOutcome := none

/-- The part after power-on reset with its two inputs at the given levels: VALVE_OUT deasserted,
ALERT_OUT asserted (R152), protection cleared (R178). -/
def Part.powerOn (acfailIn leakIn : Bool) : Part where
  slc := Slc.powerOn
  tlf := Tlf.powerOn
  bcu := Bcu.powerOn
  sru := Sru.powerOn
  sqe := Sqe.powerOn
  lkm := Lkm.powerOn
  rlp := Rlp.powerOn
  prot := ⟨List.replicate 21 false, false⟩
  lines := ⟨false, acfailIn, leakIn, false, true⟩
  agenda := []

/-- The machine right after power-on reset, no command waiting. The levels of ACFAIL_IN and
LEAK_IN are inputs that no rule gives; DESIGN CHOICE: deasserted (log 6). -/
def State.reset : State where
  part := Part.powerOn false false
  pending := []

end Sys2Proof.Machine
end

