-- ==== Sys2Proof/Machine/Codes.lean ====
section
/-! DEFINITION. Codes of the enumerations (R183, R184), the two checks (R153, R179) and the byte
layouts of cells, messages and records (R179 to R182). -/

namespace Sys2Proof.Machine

/-! ## Enumeration codes (R183) -/

/-- Channel kinds in code order. -/
def ChannelKind.list : List ChannelKind :=
  [.rmInVolt, .rmOutPower, .rmStatus, .rmTemp, .bmEnergy, .bmPower, .bmStatus, .brPower,
   .brStatus, .lkLevel, .generic]

/-- Code of a channel kind. -/
def ChannelKind.code : ChannelKind → Nat
  | .rmInVolt => 0
  | .rmOutPower => 1
  | .rmStatus => 2
  | .rmTemp => 3
  | .bmEnergy => 4
  | .bmPower => 5
  | .bmStatus => 6
  | .brPower => 7
  | .brStatus => 8
  | .lkLevel => 9
  | .generic => 10

/-- The channel kind of a code, if it is one. -/
def ChannelKind.ofCode (n : Nat) : Option ChannelKind := ChannelKind.list[n]?

/-- The quality of a code; code 3 names none (R179). -/
def Quality.ofCode (n : Nat) : Option Quality :=
  [Quality.good, .invalid, .sensorFault][n]?

/-- Code of a class. -/
def ChanClass.code : ChanClass → Nat
  | .unseen => 0
  | .normal => 1
  | .warnLow => 2
  | .warnHigh => 3
  | .tripLow => 4
  | .tripHigh => 5
  | .stale => 6
  | .unclassified => 7

/-- Code of a forward mode. -/
def ForwardMode.code : ForwardMode → Nat
  | .all => 0
  | .delta => 1
  | .onClass => 2
  | .never => 3

/-- The forward mode of a code. -/
def ForwardMode.ofCode (n : Nat) : Option ForwardMode :=
  [ForwardMode.all, .delta, .onClass, .never][n]?

/-- Code of a trip action. -/
def TripAction.code : TripAction → Nat
  | .never => 0
  | .branchTrip => 1
  | .nodeStandby => 2

/-- The trip action of a code. -/
def TripAction.ofCode (n : Nat) : Option TripAction :=
  [TripAction.never, .branchTrip, .nodeStandby][n]?

/-- Code of a rectifier state. -/
def RectState.code : RectState → Nat
  | .absent => 0
  | .fault => 1
  | .standby => 2
  | .inputFail => 3
  | .ok => 4

/-- Code of a battery state. -/
def BattState.code : BattState → Nat
  | .absent => 0
  | .fault => 1
  | .empty => 2
  | .stale => 3
  | .online => 4

/-- Code of a source state. -/
def SourceState.code : SourceState → Nat
  | .unknown => 0
  | .onAc => 1
  | .onBattery => 2
  | .returnPending => 3
  | .depleted => 4

/-- Code of a redundancy setting. -/
def Redundancy.code : Redundancy → Nat
  | .plain => 0
  | .nPlusOne => 1

/-- Code of a branch state. -/
def BranchState.code : BranchState → Nat
  | .unknown => 0
  | .off => 1
  | .queued => 2
  | .admitting => 3
  | .on => 4
  | .stopping => 5
  | .fault => 6

/-- Code of a branch fault cause. -/
def BranchCause.code : BranchCause → Nat
  | .admitTimeout => 0
  | .stopTimeout => 1
  | .noAck => 2
  | .switchFault => 3
  | .uncommandedOn => 4
  | .uncommandedOff => 5

/-- Code of a step kind. -/
def StepKind.code : StepKind → Nat
  | .enableGroup => 0
  | .disableGroup => 1
  | .waitGood => 2
  | .delay => 3
  | .checkpoint => 4
  | .endRun => 5

/-- The step kind of a code. -/
def StepKind.ofCode (n : Nat) : Option StepKind :=
  [StepKind.enableGroup, .disableGroup, .waitGood, .delay, .checkpoint, .endRun][n]?

/-- Code of a policy. -/
def Policy.code : Policy → Nat
  | .halt => 0
  | .skip => 1

/-- The policy of a code. -/
def Policy.ofCode (n : Nat) : Option Policy := [Policy.halt, .skip][n]?

/-- Code of a run state. -/
def RunState.code : RunState → Nat
  | .idle => 0
  | .running => 1
  | .suspended => 2
  | .halted => 3
  | .done => 4

/-- Code of a step failure cause or halt cause. -/
def StepCause.code : StepCause → Nat
  | .branchFault => 0
  | .timeout => 1
  | .stepInvalid => 2

/-- Code of a point fault cause. -/
def PointCause.code : PointCause → Nat
  | .level => 0
  | .sensor => 1
  | .stale => 2

/-- Code of a zone state. -/
def ZoneState.code : ZoneState → Nat
  | .clear => 0
  | .alert => 1
  | .confirmed => 2
  | .isolated => 3

/-- Code of a table. -/
def TableId.code : TableId → Nat
  | .slotMap => 0
  | .limit => 1
  | .rectifier => 2
  | .battery => 3
  | .branch => 4
  | .sequence => 5
  | .leakPoint => 6
  | .leakZone => 7
  | .profile => 8

/-- The table of a code, if it names one of the nine (R169). -/
def TableId.ofCode (n : Nat) : Option TableId :=
  [TableId.slotMap, .limit, .rectifier, .battery, .branch, .sequence, .leakPoint, .leakZone,
   .profile][n]?

/-- Code of a status. -/
def Status.code : Status → Nat
  | .done => 0
  | .clamped => 1
  | .busy => 2
  | .badRequest => 3
  | .range => 4
  | .conflict => 5
  | .isProtected => 6
  | .frozen => 7
  | .inUse => 8
  | .notAllowed => 9
  | .notDry => 10
  | .noRoute => 11
  | .owned => 12
  | .noAck => 13
  | .endOfTable => 14
  | .noDetail => 15

/-- Code of an event kind (R184). -/
def EventKind.code : EventKind → Nat
  | .nodeLive => 0
  | .nodeSilent => 1
  | .limitWarn => 2
  | .limitTrip => 3
  | .limitNormal => 4
  | .channelStale => 5
  | .standbyNoAck => 6
  | .rectState => 7
  | .batteryState => 8
  | .sourceQualified => 9
  | .acLoss => 10
  | .acReturn => 11
  | .restoreDone => 12
  | .depleted => 13
  | .shedTier => 14
  | .capacityDeficit => 15
  | .capacityReleased => 16
  | .deficit => 17
  | .holdupLow => 18
  | .branchFault => 19
  | .stepDone => 20
  | .stepFailed => 21
  | .checkpoint => 22
  | .runDone => 23
  | .runResumed => 24
  | .runHalted => 25
  | .runSuspended => 26
  | .leakPointFault => 27
  | .zoneDegraded => 28
  | .leakAlert => 29
  | .leakConfirmed => 30
  | .leakIsolated => 31
  | .leakCleared => 32

/-- A flag as a number: yes and ON are 1, no and OFF are 0 (R181). -/
def flag (b : Bool) : Nat := if b then 1 else 0

/-- A set of demands as its bits: SEQ, CTRL (R183). -/
def Demands.code (x : Demands) : Nat := flag x.seq + 2 * flag x.ctrl

/-- A set of holds as its bits: LEAK, TRIP, SHED, FORCE_OFF (R183). -/
def Holds.code (x : Holds) : Nat :=
  flag x.leak + 2 * flag x.trip + 4 * flag x.shed + 8 * flag x.forceOff

/-- A set of suspend causes as its bits: AC, REQUEST, LEAK (R183). -/
def Causes.code (x : Causes) : Nat := flag x.ac + 2 * flag x.request + 4 * flag x.leak

/-! ## Bytes and checks -/

/-- High byte of a word. -/
def hiByte (w : Word) : Byte := w.extractLsb' 8 8

/-- Low byte of a word. -/
def loByte (w : Word) : Byte := w.extractLsb' 0 8

/-- A word, most significant byte first. -/
def wordBytes (w : Word) : List Byte := [hiByte w, loByte w]

/-- The word of two bytes, the first the more significant. -/
def ofBytes (hi lo : Byte) : Word := hi ++ lo

/-- A number in one byte. -/
def byteOf (n : Nat) : Byte := BitVec.ofNat 8 n

/-- A number in two bytes, most significant first. -/
def twoBytes (n : Nat) : List Byte := wordBytes (BitVec.ofNat 16 n)

/-- A number in four bytes, most significant first. -/
def fourBytes (n : Nat) : List Byte := twoBytes (n / 65536) ++ twoBytes n

/-- A two-byte figure, 0xFFFF for ABSENT (R182). -/
def optTwoBytes (n : Option Nat) : List Byte := twoBytes (n.getD 0xFFFF)

/-- A four-byte figure, 0xFFFFFFFF for ABSENT (R182). -/
def optFourBytes (n : Option Nat) : List Byte := fourBytes (n.getD 0xFFFFFFFF)

/-- One bit of the CRC-8 with polynomial x⁸+x²+x+1 (R179). -/
def crc8Shift (c : Byte) : Byte := if c.msb then (c <<< 1) ^^^ 0x07#8 else c <<< 1

/-- One byte of the CRC-8. -/
def crc8Byte (c b : Byte) : Byte :=
  crc8Shift (crc8Shift (crc8Shift (crc8Shift
    (crc8Shift (crc8Shift (crc8Shift (crc8Shift (c ^^^ b))))))))

/-- The cell check: CRC-8, initial value 0, no reflection, no final inversion (R179). -/
def crc8 (bytes : List Byte) : Byte := bytes.foldl crc8Byte 0

/-- One bit of the CRC-16 with polynomial 0x1021 (R180). -/
def crc16Shift (c : Word) : Word := if c.msb then (c <<< 1) ^^^ 0x1021#16 else c <<< 1

/-- One byte of the CRC-16. -/
def crc16Byte (c : Word) (b : Byte) : Word :=
  crc16Shift (crc16Shift (crc16Shift (crc16Shift
    (crc16Shift (crc16Shift (crc16Shift (crc16Shift (c ^^^ ofBytes b 0))))))))

/-- The message check: CRC-16, initial value 0xFFFF, no reflection, no final inversion (R153,
R180). -/
def crc16 (bytes : List Byte) : Word := bytes.foldl crc16Byte 0xFFFF

/-! ## Cells (R179) -/

/-- The five bytes of an inbound cell that its check covers. -/
def cellCovered (c : InCell) : List Byte :=
  [c.node, c.kind, hiByte c.value, loByte c.value, c.status]

/-- The quality code in bits 7–6. -/
def cellQuality (c : InCell) : Nat := (c.status.extractLsb' 6 2).toNat

/-- The echo in bits 1–0. -/
def cellEcho (c : InCell) : BitVec 2 := c.status.extractLsb' 0 2

/-- The five bytes of an outbound cell. -/
def OutCell.bytes (c : OutCell) : List Byte :=
  let body := [byteOf c.node, hiByte c.value, loByte c.value, c.seq.setWidth 8]
  body ++ [crc8 body]

/-- Control values that the part stages: OFF 0, ON 1, STANDBY 2 (R179). -/
def ctlOff : Word := 0

/-- The control value ON. -/
def ctlOn : Word := 1

/-- The control value STANDBY. -/
def ctlStandby : Word := 2

/-! ## Uplink messages (R180, R182) -/

/-- A forwarded sample record: 9 bytes. -/
def SampleRecord.bytes (r : SampleRecord) : List Byte :=
  [byteOf r.node, byteOf r.kind.code] ++ wordBytes (BitVec.ofInt 16 r.value) ++
    [byteOf r.cls.code] ++ fourBytes r.cycle.toNat

/-- An event record: 10 bytes, 0xFF and 0xFFFFFFFF for ABSENT. -/
def EventRecord.bytes (e : EventRecord) : List Byte :=
  [byteOf e.kind.code, byteOf (e.source.getD 0xFF)] ++ optFourBytes e.value ++
    fourBytes e.cycle.toNat

/-- The body of a RESPONSE. -/
def Response.body (r : Response) : List Byte :=
  [byteOf r.status.code, byteOf (flag r.heldNote + 2 * flag r.supersededNote)] ++
    twoBytes r.residual ++ r.result

/-- Kind code of an uplink message. -/
def Uplink.kindCode : Uplink → Nat
  | .response _ => 1
  | .data _ _ _ _ => 2
  | .batch _ _ => 3
  | .event _ _ => 4

/-- Tag of an uplink message. -/
def Uplink.tag : Uplink → Word
  | .response r => r.tag
  | .data tag _ _ _ => tag
  | .batch tag _ => tag
  | .event tag _ => tag

/-- Body of an uplink message. -/
def Uplink.body : Uplink → List Byte
  | .response r => r.body
  | .data _ table first records =>
      [byteOf table.code, byteOf first, byteOf records.length] ++
        (records.flatMap fun ws => ws.flatMap wordBytes)
  | .batch _ records => byteOf records.length :: records.flatMap SampleRecord.bytes
  | .event _ record => record.bytes

/-- A message on the link: header, body, message check sent high byte first. Messages of the part
carry node 0. -/
def frame (kind : Nat) (tag : Word) (node : Byte) (body : List Byte) : List Byte :=
  let covered := [byteOf kind] ++ wordBytes tag ++ [node] ++ twoBytes body.length ++ body
  covered ++ wordBytes (crc16 covered)

/-- The bytes of an uplink message. -/
def Uplink.bytes (m : Uplink) : List Byte := frame m.kindCode m.tag 0 m.body

end Sys2Proof.Machine
end

