-- ==== Sys2Proof/Machine/Operands.lean ====
section
/-! DEFINITION. The operand forms: how the value of a cell is read (R9), how a downlink message is
checked and its body read as a request (R154, R158, R180), and how the words of a table record
are read and written (R181). -/

namespace Sys2Proof.Machine

/-! ## Cell values (R9) -/

/-- A sample as the SLC delivers it (R10): a GOOD sample carries its value, the others none. -/
inductive Sample where
  | good (value : Int)
  | invalid
  | sensorFault
deriving DecidableEq, Repr

/-- A status kind: RM_STATUS, BM_STATUS or BR_STATUS. -/
def ChannelKind.isStatus : ChannelKind → Bool
  | .rmStatus => true
  | .bmStatus => true
  | .brStatus => true
  | _ => false

/-- A rectifier or battery kind, the seven whose channels the SRU reads (R10, R35). -/
def ChannelKind.isModule : ChannelKind → Bool
  | .brPower => false
  | .brStatus => false
  | .lkLevel => false
  | .generic => false
  | _ => true

/-- A status code, if it is one of the `n` defined ones. -/
def statusCode (n : Nat) (w : Word) : Option Int :=
  if w.toNat < n then some w.toNat else none

/-- The value of a cell, read by its channel kind; `none` for an undefined status code. -/
def readValue (k : ChannelKind) (w : Word) : Option Int :=
  match k with
  | .rmInVolt => some w.toNat
  | .rmOutPower => some w.toNat
  | .rmStatus => statusCode 4 w
  | .rmTemp => some w.toInt
  | .bmEnergy => some w.toNat
  | .bmPower => some w.toInt
  | .bmStatus => statusCode 5 w
  | .brPower => some (max 0 w.toInt)
  | .brStatus => statusCode 4 w
  | .lkLevel => some (min 4095 w.toNat : Nat)
  | .generic => some w.toNat

/-- The sample of an accepted cell: a status cell of an undefined code is INVALID whatever quality
it arrived with (R9). -/
def sampleOf (k : ChannelKind) (q : Quality) (w : Word) : Sample :=
  match readValue k w, q with
  | none, _ => .invalid
  | some v, .good => .good v
  | some _, .invalid => .invalid
  | some _, .sensorFault => .sensorFault

/-! ## Requests (R180, R183) -/

/-- Bytes read as words, high byte first; an odd byte is left over in no word. -/
def wordsOf : List Byte → Option (List Word)
  | [] => some []
  | [_] => none
  | hi :: lo :: rest => (wordsOf rest).map (ofBytes hi lo :: ·)

/-- The request of a kind code and its field words. A body whose length does not suit the kind is
`bad` (R158). -/
def requestOf (k : Byte) (ws : List Word) : Request :=
  match k.toNat, ws with
  | 0, [] => .readStatus
  | 1, table :: start :: words => .writeTable table start words
  | 2, [table, start, count] => .readTable table start count
  | 3, [branch] => .locateBranch branch
  | 4, [branch, action] => .branchRequest branch action
  | 5, [branch] => .branchClear branch
  | 6, [] => .sequenceStart
  | 7, [] => .sequenceSuspend
  | 8, [] => .sequenceResume
  | 9, [] => .sequenceAbort
  | 10, [zone] => .leakAck zone
  | 11, [zone] => .leakClear zone
  | 12, [node, value] => .nodePass node value
  | 13, table :: banks => .protect table banks
  | 14, table :: banks => .unprotect table banks
  | 15, [] => .freezeProtection
  | 16, [feature, value] => .setFeature feature value
  | 17, [] => .getDetail
  | 18, [] => .reset
  | _, _ => .bad (some k)

/-- The request of a REQUEST body: byte 0 the kind, then the fields as words. A body of no byte
names no kind (log 15). -/
def parseBody : List Byte → Request
  | [] => .bad none
  | k :: rest => match wordsOf rest with
    | some ws => requestOf k ws
    | none => .bad (some k)

/-- The kind code of a request. -/
def Request.kind : Request → Option Byte
  | .readStatus => some 0
  | .writeTable _ _ _ => some 1
  | .readTable _ _ _ => some 2
  | .locateBranch _ => some 3
  | .branchRequest _ _ => some 4
  | .branchClear _ => some 5
  | .sequenceStart => some 6
  | .sequenceSuspend => some 7
  | .sequenceResume => some 8
  | .sequenceAbort => some 9
  | .leakAck _ => some 10
  | .leakClear _ => some 11
  | .nodePass _ _ => some 12
  | .protect _ _ => some 13
  | .unprotect _ _ => some 14
  | .freezeProtection => some 15
  | .setFeature _ _ => some 16
  | .getDetail => some 17
  | .reset => some 18
  | .bad k => k

/-- The field words of a request, in the order in which R180 carries them. -/
def Request.words : Request → List Word
  | .writeTable table start words => table :: start :: words
  | .readTable table start count => [table, start, count]
  | .locateBranch branch => [branch]
  | .branchRequest branch action => [branch, action]
  | .branchClear branch => [branch]
  | .leakAck zone => [zone]
  | .leakClear zone => [zone]
  | .nodePass node value => [node, value]
  | .protect table banks => table :: banks
  | .unprotect table banks => table :: banks
  | .setFeature feature value => [feature, value]
  | _ => []

/-- The body that carries a request. -/
def Request.body (r : Request) : List Byte :=
  r.kind.toList ++ r.words.flatMap wordBytes

/-- The REQUEST message that carries a request to node 0 (R180). -/
def Request.message (tag : Word) (r : Request) : List Byte := frame 0 tag 0 r.body

/-- The receive check (R154, R180) on the bytes that came between two idle gaps: `none` where the
message is discarded (fewer or more bytes than the body length asks for, a body length above 1024,
a failed message check, a kind other than REQUEST, a node other than 0). -/
def receive : List Byte → Option Queued
  | k :: t1 :: t0 :: node :: l1 :: l0 :: rest =>
    let len := (ofBytes l1 l0).toNat
    let body := rest.take len
    if len ≤ 1024 ∧ rest.length = len + 2 ∧
        rest.drop len = wordBytes (crc16 ([k, t1, t0, node, l1, l0] ++ body)) ∧
        k = 0 ∧ node = 0 then
      some ⟨ofBytes t1 t0, parseBody body⟩
    else none
  | _ => none

/-! ## Table records (R181) -/

/-- The marker ABSENT. -/
def absentWord : Word := 0xFFFF

/-- Word `i` of a record, as a number. -/
def word (ws : List Word) (i : Nat) : Nat := (ws[i]?.getD 0).toNat

/-- The valid flag: bit 0 of the valid word. -/
def validBit (ws : List Word) : Bool := (ws[0]?.getD 0).getLsbD 0

/-- Refuse field `i` unless the condition holds. -/
def need (i : Nat) (c : Bool) : Except Nat Unit := if c then .ok () else .error i

/-- The value of an enumerated field `i`, or a refusal of it. -/
def needSome {α : Type} (i : Nat) : Option α → Except Nat α
  | some x => .ok x
  | none => .error i

/-- A flag field: yes 1, no 0. -/
def flagOf (i : Nat) (n : Nat) : Except Nat Bool :=
  if n = 0 then .ok false else if n = 1 then .ok true else .error i

/-- A node address field. -/
def isNode (n : Nat) : Bool := 1 ≤ n ∧ n ≤ 62

/-- A record with valid = no leaves the entry empty, whatever its other fields hold. -/
def ifValid {α : Type} (ws : List Word) (e : Except Nat α) : Except Nat (Option α) :=
  if validBit ws then e.map some else .ok none

/-- A Slot Map record (R3, R4). -/
def parseSlot (ws : List Word) : Except Nat (Option SlotEntry) :=
  ifValid ws do
    need 1 (word ws 1 ≤ 1)
    need 2 (isNode (word ws 2))
    if word ws 1 = 0 then
      let kind ← needSome 3 (ChannelKind.ofCode (word ws 3))
      need 4 (word ws 4 = 0xFFFF ∨ word ws 4 < 48)
      return .input (word ws 2) kind (if word ws 4 = 0xFFFF then none else some (word ws 4))
    else
      need 3 (word ws 3 = 0xFFFF)
      need 4 (word ws 4 = 0xFFFF)
      return .output (word ws 2)

/-- A threshold word: present when its bit of the valid word is set. -/
def threshold (ws : List Word) (i : Nat) : Option Int :=
  if (ws[0]?.getD 0).getLsbD i then some (ws[i]?.getD 0).toInt else none

/-- The last of a list of thresholds that lies below an earlier present one, as a field index from
`i`; `top` is the greatest seen. -/
def lastOutOfOrder (i : Nat) (top : Option Int) : List (Option Int) → Option Nat
  | [] => none
  | none :: rest => lastOutOfOrder (i + 1) top rest
  | some t :: rest =>
    match top with
    | none => lastOutOfOrder (i + 1) (some t) rest
    | some m =>
      if t < m then (lastOutOfOrder (i + 1) (some m) rest).orElse fun _ => some i
      else lastOutOfOrder (i + 1) (some t) rest

/-- A Limit Table record (R23, R24). -/
def parseLimit (ws : List Word) : Except Nat (Option LimitEntry) :=
  ifValid ws do
    let ts := [threshold ws 1, threshold ws 2, threshold ws 3, threshold ws 4]
    match lastOutOfOrder 1 none ts with
    | some i => .error i
    | none => .ok ()
    need 5 (word ws 5 ≤ 32767)
    need 6 (1 ≤ word ws 6 ∧ word ws 6 ≤ 255)
    need 7 (1 ≤ word ws 7 ∧ word ws 7 ≤ 1000)
    let forward ← needSome 8 (ForwardMode.ofCode (word ws 8))
    need 9 (word ws 9 ≤ 32767)
    let trip ← needSome 10 (TripAction.ofCode (word ws 10))
    return ⟨threshold ws 1, threshold ws 2, threshold ws 3, threshold ws 4, word ws 5, word ws 6,
      word ws 7, forward, word ws 9, trip⟩

/-- A Rectifier Table record (R72): node and rated_w. -/
def parseRect (ws : List Word) : Except Nat (Option (Nat × Nat)) :=
  ifValid ws do
    need 1 (isNode (word ws 1))
    need 2 (500 ≤ word ws 2 ∧ word ws 2 ≤ 8000)
    return (word ws 1, word ws 2)

/-- A Battery Table record (R75): its node. -/
def parseBatt (ws : List Word) : Except Nat (Option Nat) :=
  ifValid ws do
    need 1 (isNode (word ws 1))
    return word ws 1

/-- Refuse field `i` of a Branch Table record unless the condition holds. R46 refuses any field outside
its range, whatever the valid flag; a field of an empty entry may also be ABSENT (R181); DEDUCED
(log 12). -/
def needBranch (ws : List Word) (i : Nat) (c : Bool) : Except Nat Unit :=
  need i (c || (!validBit ws && word ws i == 0xFFFF))

/-- The configured fields of a Branch Table record (R45); NONE codes as 8. -/
def branchFields (ws : List Word) : BranchCfg :=
  ⟨word ws 1, word ws 2, if word ws 3 = 8 then none else some (word ws 3), word ws 4, word ws 5⟩

/-- A Branch Table record (R45, R46). -/
def parseBranch (ws : List Word) : Except Nat (Option BranchCfg) := do
  needBranch ws 1 (isNode (word ws 1))
  needBranch ws 2 (word ws 2 ≤ 8000)
  needBranch ws 3 (word ws 3 ≤ 8)
  needBranch ws 4 (word ws 4 ≤ 7)
  needBranch ws 5 (word ws 5 ≤ 15)
  return if validBit ws then some (branchFields ws) else none

/-- The kinds whose step names a group (R116). -/
def StepKind.usesGroup : StepKind → Bool
  | .enableGroup => true
  | .disableGroup => true
  | .waitGood => true
  | _ => false

/-- A Sequence Table record (R116, R117). -/
def parseStep (ws : List Word) : Except Nat (Option SeqStep) :=
  ifValid ws do
    let kind ← needSome 1 (StepKind.ofCode (word ws 1))
    need 2 (word ws 2 ≤ 15 ∧ ¬ (kind.usesGroup = true ∧ word ws 2 = 0))
    let policy ← needSome 4 (Policy.ofCode (word ws 4))
    need 5 (word ws 5 ≤ 255)
    return ⟨kind, word ws 2, word ws 3, policy, word ws 5⟩

/-- A Leak Point Table record (R136, R137). -/
def parsePoint (ws : List Word) : Except Nat (Option PointCfg) :=
  ifValid ws do
    need 1 (isNode (word ws 1))
    need 2 (word ws 2 ≤ 95)
    need 3 (word ws 3 ≤ 7)
    need 4 (word ws 4 ≤ 4095)
    need 5 (1 ≤ word ws 5 ∧ word ws 5 ≤ 4095 ∧ word ws 4 < word ws 5)
    need 6 (1 ≤ word ws 6 ∧ word ws 6 ≤ 255)
    return ⟨word ws 1, word ws 2, word ws 3, word ws 4, word ws 5, word ws 6⟩

/-- A Leak Zone Table record (R141). -/
def parseZone (ws : List Word) : Except Nat (Option ZoneCfg) :=
  ifValid ws do
    need 1 (1 ≤ word ws 1 ∧ word ws 1 ≤ 4)
    let isolate ← flagOf 2 (word ws 2)
    let valve ← flagOf 3 (word ws 3)
    let suspend ← flagOf 4 (word ws 4)
    return ⟨word ws 1, isolate, valve, suspend⟩

/-- The ranges of the Power Profile's fields, word 1 first; an enumerated field by its codes (R92,
R181). -/
def profileRanges : List (Nat × Nat) :=
  [(2, 10000), (2, 16), (0, 15), (100, 30000), (0, 5000), (0, 1), (0, 5000), (0, 1), (1, 8),
   (50, 30000), (100, 60000), (10, 10000), (10, 1000), (0, 65535), (500, 1000), (1, 3600),
   (0, 500), (0, 3600), (0, 8)]

/-- The first field of a Power Profile record that lies outside its range (R173). -/
def firstClamped (ws : List Word) : Option Nat :=
  (List.range 19).findSome? fun i =>
    match profileRanges[i]? with
    | some (lo, hi) => if word ws (i + 1) < lo ∨ hi < word ws (i + 1) then some (i + 1) else none
    | none => none

/-- Word `i` clamped to a range. -/
def clampWord (ws : List Word) (i lo hi : Nat) : Nat := max lo (min hi (word ws i))

/-- A Power Profile record as R92 stores it, with the first field clamped or stored as its default.
A record with valid = no returns every field to its default, and that is no clamp (R173). -/
def parseProfile (ws : List Word) : Profile × Option Nat :=
  if validBit ws then
    ({ nodeSilence := clampWord ws 1 2 10000
       ackWindow := clampWord ws 2 2 16
       retryLimit := clampWord ws 3 0 15
       admitTimeoutMs := clampWord ws 4 100 30000
       spacingMs := clampWord ws 5 0 5000
       readinessGate := word ws 6 != 0
       overheadW := clampWord ws 7 0 5000
       redundancy := if word ws 8 = 0 then .plain else .nPlusOne
       minRect := clampWord ws 9 1 8
       qualMs := clampWord ws 10 50 30000
       acStableMs := clampWord ws 11 100 60000
       capPersistMs := clampWord ws 12 10 10000
       evalMs := clampWord ws 13 10 1000
       floor := word ws 14
       effPm := clampWord ws 15 500 1000
       tReqS := clampWord ws 16 1 3600
       marginPm := clampWord ws 17 0 500
       warnS := clampWord ws 18 0 3600
       leakLineZone := if word ws 19 < 8 then some (word ws 19) else none },
     firstClamped ws)
  else (Profile.default, none)

/-! ### Records as they are read back (R174, R181) -/

/-- A number as a word. -/
def natWord (n : Nat) : Word := BitVec.ofNat 16 n

/-- An optional number, 0xFFFF for ABSENT. -/
def optWord (n : Option Nat) : Word := (n.map natWord).getD absentWord

/-- The record of an empty entry of `n` words. -/
def emptyRecord (n : Nat) : List Word := 0 :: List.replicate (n - 1) absentWord

/-- A Slot Map entry as its record. -/
def slotWords : Option SlotEntry → List Word
  | none => emptyRecord 5
  | some (.input node kind limit) => [1, 0, natWord node, natWord kind.code, optWord limit]
  | some (.output node) => [1, 1, natWord node, absentWord, absentWord]

/-- A threshold as its word: 0 when ABSENT. -/
def thresholdWord (t : Option Int) : Word := (t.map (BitVec.ofInt 16)).getD 0

/-- A Limit Table entry as its record. -/
def limitWords : Option LimitEntry → List Word
  | none => emptyRecord 11
  | some e =>
    [natWord (1 + 2 * flag e.lowTrip.isSome + 4 * flag e.lowWarn.isSome +
        8 * flag e.highWarn.isSome + 16 * flag e.highTrip.isSome),
     thresholdWord e.lowTrip, thresholdWord e.lowWarn, thresholdWord e.highWarn,
     thresholdWord e.highTrip, natWord e.hysteresis, natWord e.persistence,
     natWord e.staleLimit, natWord e.forward.code, natWord e.deadband,
     natWord e.tripAction.code]

/-- A Rectifier Table entry as its record. -/
def rectWords : Option Rectifier → List Word
  | none => emptyRecord 3
  | some r => [1, natWord r.node, natWord r.ratedW]

/-- A Battery Table entry as its record. -/
def battWords : Option Battery → List Word
  | none => emptyRecord 2
  | some b => [1, natWord b.node]

/-- A Branch Table entry as its record; live fields are no part of it (R169). -/
def branchWords : Option Branch → List Word
  | none => emptyRecord 6
  | some b => [1, natWord b.cfg.node, natWord b.cfg.ratedW, natWord (b.cfg.zone.getD 8),
      natWord b.cfg.tier, natWord b.cfg.group]

/-- A Sequence Table entry as its record. -/
def stepWords : Option SeqStep → List Word
  | none => emptyRecord 6
  | some s => [1, natWord s.kind.code, natWord s.group, natWord s.timeMs, natWord s.policy.code,
      natWord s.code]

/-- A Leak Point Table entry as its record. -/
def pointWords : Option Point → List Word
  | none => emptyRecord 7
  | some p => [1, natWord p.cfg.node, natWord p.cfg.slot, natWord p.cfg.zone,
      natWord p.cfg.wetLevel, natWord p.cfg.faultLevel, natWord p.cfg.debounce]

/-- A Leak Zone Table entry as its record. -/
def zoneWords : Option ZoneCfg → List Word
  | none => emptyRecord 5
  | some z => [1, natWord z.vote, natWord (flag z.isolate), natWord (flag z.valve),
      natWord (flag z.suspend)]

/-- The Power Profile as its record; it is read back with valid = yes (R174). -/
def profileWords (p : Profile) : List Word :=
  [1, natWord p.nodeSilence, natWord p.ackWindow, natWord p.retryLimit,
   natWord p.admitTimeoutMs, natWord p.spacingMs, natWord (flag p.readinessGate),
   natWord p.overheadW, natWord p.redundancy.code, natWord p.minRect, natWord p.qualMs,
   natWord p.acStableMs, natWord p.capPersistMs, natWord p.evalMs, natWord p.floor,
   natWord p.effPm, natWord p.tReqS, natWord p.marginPm, natWord p.warnS,
   natWord (p.leakLineZone.getD 8)]

/-- Words of one record of a table (R181). -/
def recordLength : TableId → Nat
  | .slotMap => 5
  | .limit => 11
  | .rectifier => 3
  | .battery => 2
  | .branch => 6
  | .sequence => 6
  | .leakPoint => 7
  | .leakZone => 5
  | .profile => 20

/-- The words of a write cut into records of `n` words, as many as `fuel` allows. -/
def cutRecords (n : Nat) : Nat → List Word → List (List Word)
  | 0, _ => []
  | _ + 1, [] => []
  | fuel + 1, ws => ws.take n :: cutRecords n fuel (ws.drop n)

/-- The records of a WRITE TABLE body, when it carries 1 to 16 whole records of the table (R170). -/
def recordsOf (t : TableId) (ws : List Word) : Option (List (List Word)) :=
  let n := recordLength t
  if ws.length % n = 0 ∧ 1 ≤ ws.length / n ∧ ws.length / n ≤ 16 then
    some (cutRecords n 16 ws)
  else none

end Sys2Proof.Machine
end

