-- ==== Sys2Proof/Machine/Ops.lean ====
section
/-! DEFINITION. The shared operations: look-ups in the tables, the hand-off list, the Event Queue,
the uplink arbiter (R165 to R167), and staging (R16). -/

namespace Sys2Proof.Machine

/-- A counter that stops at 65535 (R22, R42, R165). -/
def satInc (n : Nat) : Nat := if n < 65535 then n + 1 else n

/-- Entry `i` of a table; an empty entry, or a place outside the table, is `none`. -/
def entry {α : Type} (l : List (Option α)) (i : Nat) : Option α := (l[i]?).join

/-! ## Look-ups -/

/-- Branch `b`, if its entry is valid. -/
def Part.branch (d : Part) (b : Nat) : Option Branch := entry d.bcu.branches b

/-- The slot of the first active entry that satisfies `f`. -/
def Part.findSlot (d : Part) (f : SlotEntry → Bool) : Option Nat :=
  d.slc.active.findIdx? fun e => match e with
    | some x => f x
    | none => false

/-- The slot of the active OUT entry of a node (R16). -/
def Part.outSlot (d : Part) (node : Nat) : Option Nat := d.findSlot (· == .output node)

/-- The slot of the active IN entry of a channel (R3). -/
def Part.inSlot (d : Part) (node : Nat) (kind : ChannelKind) : Option Nat :=
  d.findSlot fun e => match e with
    | .input n k _ => n == node && k == kind
    | .output _ => false

/-- The Channel State record of a channel of the active map. -/
def Part.channelOf (d : Part) (node : Nat) (kind : ChannelKind) : Option ChannelState :=
  (d.inSlot node kind).bind fun k => entry d.tlf.channels k

/-- The valid branch whose switch node is `node` (R46 admits one). -/
def Part.branchAt (d : Part) (node : Nat) : Option Nat :=
  d.bcu.branches.findIdx? fun e => match e with
    | some x => x.cfg.node == node
    | none => false

/-- Zone `z`; a number outside the table is an empty entry in CLEAR. -/
def Part.zone (d : Part) (z : Nat) : Zone := d.lkm.zones[z]?.getD ⟨none, .clear, false, false⟩

/-- The record of a node in the Node Status List. -/
def Part.nodeRecord (d : Part) (node : Nat) : NodeRecord :=
  if node = 0 then ⟨.unheard, none⟩ else d.slc.nodes[node - 1]?.getD ⟨.unheard, none⟩

/-! ## Hand-offs -/

/-- Add a hand-off to the list, behind those already there. -/
def signal (s : Signal) (d : Part) : Part := { d with agenda := d.agenda ++ [s] }

/-- Add a hand-off that carries nothing, unless it is already due. -/
def signalOnce (s : Signal) (d : Part) : Part := if s ∈ d.agenda then d else signal s d

/-! ## The uplink -/

/-- Case "Event Queue waits" of R167: take the head record, with the next event tag. -/
def serveEvent (e : EventRecord) (rest : List EventRecord) (d : Part) : Part :=
  { d with
    rlp.tx := some (.event d.rlp.eventTag e)
    rlp.events := rest
    rlp.eventTag := d.rlp.eventTag + 1 }

/-- Serve the head of the Response Queue. -/
def serveResponse (m : Uplink) (rest : List Uplink) (run : Nat) (d : Part) : Part :=
  { d with rlp.tx := some m, rlp.responses := rest, rlp.side := .rsp, rlp.run := run }

/-- Serve up to 16 records of the Telemetry Queue as one batch, with the next batch tag (R166). -/
def serveTelemetry (run : Nat) (d : Part) : Part :=
  { d with
    rlp.tx := some (.batch d.rlp.batchTag (d.tlf.queue.take 16))
    tlf.queue := d.tlf.queue.drop 16
    rlp.batchTag := d.rlp.batchTag + 1
    rlp.side := .tel
    rlp.run := run }

/-- An arbiter decision (R167), when the transmitter is idle and a source holds something. -/
def arbitrate (d : Part) : Part :=
  match d.rlp.tx with
  | some _ => d
  | none =>
    match d.rlp.events with
    | e :: rest => serveEvent e rest d
    | [] =>
      match d.rlp.responses, d.tlf.queue with
      | [], [] => d
      | m :: rest, [] => serveResponse m rest 0 d
      | [], _ :: _ => serveTelemetry 0 d
      | m :: rest, _ :: _ =>
        match d.rlp.side with
        | .rsp =>
          if d.rlp.run < d.rlp.features.wRsp then serveResponse m rest (d.rlp.run + 1) d
          else serveTelemetry 1 d
        | .tel =>
          if d.rlp.run < d.rlp.features.wTel then serveTelemetry (d.rlp.run + 1) d
          else serveResponse m rest 1 d

/-- Post an event record with the number of the cycle in progress; at 64 records the new record is
discarded and counted (R165). -/
def post (kind : EventKind) (source value : Option Nat) (d : Part) : Part :=
  if d.rlp.events.length < 64 then
    arbitrate { d with rlp.events := d.rlp.events ++ [⟨kind, source, value, d.slc.cycle⟩] }
  else { d with rlp.eventOverflow := satInc d.rlp.eventOverflow }

/-- Append a record to the Telemetry Queue; at 128 records the oldest is discarded and counted
(R42). -/
def forward (r : SampleRecord) (d : Part) : Part :=
  if d.tlf.queue.length < 128 then
    arbitrate { d with tlf.queue := d.tlf.queue ++ [r] }
  else
    arbitrate { d with
      tlf.queue := d.tlf.queue.drop 1 ++ [r]
      tlf.drops := satInc d.tlf.drops }

/-- Append a message to the Response Queue (R157). -/
def appendResponse (m : Uplink) (d : Part) : Part :=
  arbitrate { d with rlp.responses := d.rlp.responses ++ [m] }

/-! ## Staging -/

/-- A NODE PASS waiting at the head gets an outcome, if it has none yet (R162). -/
def completePass (o : Delivery) (d : Part) : Part :=
  match d.rlp.phase, d.rlp.passOutcome with
  | .passing _, none => { d with rlp.passOutcome := some o }
  | _, _ => d

/-- The outcome of the RLP's stage for `node` reaches the RLP: it is that of the NODE PASS waiting at the
head where this one staged for that node, for a stage anew would have taken the notice of an earlier one
away (R16, R162). The outcome of a stage for another node finds nobody waiting (log 2). -/
def noteOutcome (node : Nat) (o : Delivery) (d : Part) : Part :=
  if d.rlp.phase = .passing node then completePass o d else d

/-- A writer other than the last one stages for a node while its outcome is owed: the last writer is told
SUPERSEDED (R16). The BCU and the TLF do nothing on it (R38, R59). -/
def tellSuperseded (w : Writer) (node : Nat) (r : OutRecord) (d : Part) : Part :=
  if r.owed ∧ r.lastWriter = some .rlp ∧ w ≠ .rlp then noteOutcome node .superseded d else d

/-- A record whose value was staged for branch `n` is for no branch any more (R59). -/
def OutRecord.forget (n : Nat) (r : OutRecord) : OutRecord :=
  { r with forBranch := if r.forBranch = some n then none else r.forBranch }

/-- Stage a value for a node as writer `w`, for branch `b` where the BCU stages (R16). The flag says
that the stage was answered at once with NO_ACK, for want of an active OUT entry. -/
def stage (w : Writer) (b : Option Nat) (node : Nat) (v : Word) (d : Part) : Part × Bool :=
  match d.outSlot node with
  | none => (d, true)
  | some k =>
    match entry d.slc.out k with
    | none => (d, true)
    | some r =>
      let d' := tellSuperseded w node r d
      let r' := { r with staged := some v, lastWriter := some w, owed := true, forBranch := b }
      ({ d' with slc.out := d'.slc.out.set k (some r') }, false)

end Sys2Proof.Machine
end

