-- ==== Sys2Proof/Machine/Flags.lean ====
section
/-! DEFINITION. Figures and levels that are functions of the state: demands and holds taken
together (R53), committed load (R67), the readiness figure (R104), the shed tiers (R50), the LEAK
cause (R128) and the two output lines (R148, R149). -/

namespace Sys2Proof.Machine

/-- The branch holds at least one demand. -/
def Demands.any (x : Demands) : Bool := x.seq || x.ctrl

/-- The branch carries at least one hold. -/
def Holds.any (x : Holds) : Bool := x.leak || x.trip || x.shed || x.forceOff

/-- At least one demand and no hold: the condition under which ON may be staged (R53) and an OFF
branch is queued (R55). -/
def Branch.wanted (x : Branch) : Bool := x.demands.any && !x.holds.any

/-- The states that count in committed load (R67). -/
def BranchState.counts : BranchState → Bool
  | .admitting => true
  | .on => true
  | .fault => true
  | _ => false

/-- What an entry adds to committed load. -/
def committedOf : Option Branch → Nat
  | some x => if x.state.counts then x.cfg.ratedW else 0
  | none => 0

/-- Committed load: overhead_w and the rated_w of every branch in ADMITTING, ON or FAULT (R67). -/
def committedLoad (d : Part) : Nat :=
  d.sru.profile.overheadW + (d.bcu.branches.map committedOf).sum

/-- A quotient in seconds, saturated at 65535 (R102, R104). -/
def seconds (u p : Nat) : Nat := min 65535 (u * 360 / p)

/-- A need with the margin added, rounded up (R103, R104). -/
def withMargin (need marginPm : Nat) : Nat := (need * (1000 + marginPm) + 999) / 1000

/-- The readiness check of R68 for a head of rated power `x`; it fails while U or P is ABSENT. -/
def ready (d : Part) (x : Nat) : Bool :=
  if d.sru.profile.readinessGate ∧ d.sru.batts.any Option.isSome then
    match d.sru.u, d.sru.p with
    | some u, some p =>
      withMargin d.sru.profile.tReqS d.sru.profile.marginPm ≤ seconds u (p + x)
    | _, _ => false
  else true

/-- The tiers in either shed set (R50). -/
def Sru.shed (s : Sru) : TierSet := s.battShed ||| s.capShed

/-- Number of tiers in a set. -/
def tierCount (t : TierSet) : Nat := ((List.range 8).filter (t.getLsbD ·)).length

/-- The latched states, CONFIRMED and ISOLATED. -/
def ZoneState.latched : ZoneState → Bool
  | .confirmed => true
  | .isolated => true
  | _ => false

/-- A valid zone that is CONFIRMED or ISOLATED. -/
def Zone.latched (z : Zone) : Bool := z.cfg.isSome && z.state.latched

/-- The condition of the LEAK cause on one zone (R128). -/
def Zone.suspends (z : Zone) : Bool :=
  match z.cfg with
  | some c => c.suspend && z.state.latched && !z.acked
  | none => false

/-- The condition of the LEAK cause (R128). -/
def leakCause (d : Part) : Bool := d.lkm.zones.any Zone.suspends

/-- The condition of VALVE_OUT on one zone (R148). -/
def Zone.drivesValve (z : Zone) : Bool :=
  match z.cfg with
  | some c => c.valve && z.state.latched
  | none => false

/-- A branch that carries TRIP. -/
def carriesTrip : Option Branch → Bool
  | some x => x.holds.trip
  | none => false

/-- The level of VALVE_OUT (R148); deasserted while RESET_IN is asserted (R185). -/
def valveLevel (d : Part) : Bool := !d.lines.resetIn && d.lkm.zones.any Zone.drivesValve

/-- The level of ALERT_OUT (R149); asserted while RESET_IN is asserted (R185). -/
def alertLevel (d : Part) : Bool :=
  d.lines.resetIn || d.sru.source != .onAc || d.lkm.zones.any Zone.latched ||
    d.bcu.branches.any carriesTrip

/-- The two output lines follow their conditions. -/
def refreshLines (d : Part) : Part :=
  { d with lines.valveOut := valveLevel d, lines.alertOut := alertLevel d }

/-- A run is under way in RUNNING and SUSPENDED (R119). -/
def Sqe.underWay (s : Sqe) : Bool := s.run = .running ∨ s.run = .suspended

/-- The entry of the current step. -/
def Sqe.current (s : Sqe) : Option SeqStep := entry s.steps s.index

end Sys2Proof.Machine
end

