-- ==== Sys2Proof/Machine/Bcu.lean ====
section
/-! DEFINITION. The Branch Control Unit (03): the output rule (R53 to R55), entry into STOPPING and
FAULT, adoption and switch readings (R56, R57), the derived holds (R50), the release to the front
(R64) and admission (R66 to R69). -/

namespace Sys2Proof.Machine

/-- Store a valid entry of the Branch Table. -/
def putBranch (b : Nat) (x : Branch) (d : Part) : Part :=
  { d with bcu.branches := d.bcu.branches.set b (some x) }

/-- Change the Admission Queue. A change of the head makes HEAD_BLOCKED no and is an attempt event
(R66, R67). -/
def setQueue (q : List Nat) (d : Part) : Part :=
  if q.head? = d.bcu.queue.head? then { d with bcu.queue := q }
  else signalOnce .attempt { d with bcu.queue := q, bcu.headBlocked := false }

/-- Take a branch out of the Admission Queue; the members behind it move up (R65). -/
def leaveQueue (b : Nat) (d : Part) : Part := setQueue (d.bcu.queue.filter (· != b)) d

/-- A decrease of committed load from `before` is an attempt event (R66). -/
def noteLoad (before : Nat) (d : Part) : Part :=
  if committedLoad d < before then signalOnce .attempt d else d

/-- The SQE counts a member's first entry into FAULT during the current ENABLE_GROUP step (R123),
whether the run is RUNNING or SUSPENDED (R130). -/
def noteFaulted (b : Nat) (x : Branch) (d : Part) : Part :=
  match d.sqe.current with
  | some e =>
    if d.sqe.underWay ∧ d.sqe.phase = .active ∧ e.kind = .enableGroup ∧
        x.enrolling = some d.sqe.index ∧ b ∉ d.sqe.faultedMembers then
      { d with
        sqe.faulted := d.sqe.faulted + 1
        sqe.faultedMembers := d.sqe.faultedMembers ++ [b] }
    else d
  | none => d

/-- Entry into FAULT (R60): the branch leaves the queue, its timer stops, OFF is staged unless it
came from UNKNOWN, and BRANCH_FAULT is posted. An immediate NO_ACK of that OFF finds the branch in
FAULT and does nothing (R59). -/
def faultBranch (cause : BranchCause) (b : Nat) (d : Part) : Part :=
  match d.branch b with
  | none => d
  | some x =>
    let found := x.state = .unknown
    let d1 := putBranch b { x with state := .fault, timer := .stopped, foundFaulted := found } d
    let d2 := leaveQueue b d1
    let d3 := if found then d2 else (stage .bcu (some b) x.cfg.node ctlOff d2).1
    let d4 := noteFaulted b x d3
    signalOnce .branches (post .branchFault (some b) (some cause.code) d4)

/-- Stage a value for a branch as writer BCU; an immediate NO_ACK acts as any other (R59). -/
def stageBranch (b : Nat) (v : Word) (d : Part) : Part :=
  match d.branch b with
  | none => d
  | some x =>
    match stage .bcu (some b) x.cfg.node v d with
    | (d', true) => if x.state = .unknown ∨ x.state = .fault then d' else faultBranch .noAck b d'
    | (d', false) => d'

/-- Entry into STOPPING (R54, R56): OFF is staged and the stop timer starts (R58). -/
def stopBranch (b : Nat) (d : Part) : Part :=
  match d.branch b with
  | none => d
  | some x =>
    let d1 := putBranch b
      { x with state := .stopping, timer := .running d.sru.profile.admitTimeoutMs } d
    stageBranch b ctlOff (signalOnce .branches (noteLoad (committedLoad d) d1))

/-- A branch becomes QUEUED at the back of the Admission Queue (R55, R63). -/
def enqueueBack (b : Nat) (d : Part) : Part :=
  match d.branch b with
  | none => d
  | some x =>
    signalOnce .branches
      (setQueue (d.bcu.queue ++ [b]) (putBranch b { x with state := .queued } d))

/-- An OFF branch that holds a demand and no hold is queued at the back (R55). -/
def queueIfWanted (b : Nat) (d : Part) : Part :=
  match d.branch b with
  | none => d
  | some x => if x.state = .off ∧ x.wanted then enqueueBack b d else d

/-- A first hold arrives, or a branch without a hold loses its last demand (R54). -/
def loses (x y : Branch) : Bool :=
  (!x.holds.any && y.holds.any) || (!y.holds.any && x.demands.any && !y.demands.any)

/-- The output rule, acting once on a change of a branch from `x` to `y` (R54, R55). -/
def applyOutput (b : Nat) (x y : Branch) (d : Part) : Part :=
  if x = y then d
  else
    let d1 := signalOnce .branches (putBranch b y d)
    if loses x y then
      match y.state with
      | .queued => leaveQueue b (putBranch b { y with state := .off } d1)
      | .admitting => stopBranch b d1
      | .on => stopBranch b d1
      | _ => d1
    else queueIfWanted b d1

/-- Change a branch's demands and holds by `f` and let the output rule act once. -/
def changeBranch (b : Nat) (f : Branch → Branch) (d : Part) : Part :=
  match d.branch b with
  | none => d
  | some x => applyOutput b x (f x) d

/-- Clear SEQ; the enrolling step becomes ABSENT with it (R48). -/
def Branch.clearSeq (x : Branch) : Branch :=
  { x with demands := { x.demands with seq := false }, enrolling := none }

/-- Set or clear TRIP (R49). -/
def Branch.withTrip (v : Bool) (x : Branch) : Branch :=
  { x with holds := { x.holds with trip := v } }

/-- Do something for every branch number in ascending order. -/
def forBranches (f : Nat → Part → Part) (d : Part) : Part :=
  (List.range 36).foldl (fun d b => f b d) d

/-! ## Derived holds (R50) -/

/-- The LEAK hold that R50 gives a branch of a zone field. -/
def leakHold (d : Part) (zone : Option Nat) : Bool :=
  match zone with
  | some z => (d.zone z).cfg.isSome && (d.zone z).state == .isolated
  | none => false

/-- The SHED hold that R50 gives a tier. -/
def shedHold (d : Part) (tier : Nat) : Bool := d.sru.shed.getLsbD tier

/-- A branch with its derived holds as the zone latches and the shed sets stand. -/
def Branch.derived (d : Part) (x : Branch) : Branch :=
  { x with holds := { x.holds with
      leak := leakHold d x.cfg.zone, shed := shedHold d x.cfg.tier } }

/-- Derive the LEAK hold of every branch of a zone (R144). -/
def deriveLeak (z : Nat) (d : Part) : Part :=
  forBranches
    (fun b d => changeBranch b
      (fun x => if x.cfg.zone = some z then
          { x with holds := { x.holds with leak := leakHold d x.cfg.zone } }
        else x) d) d

/-- An accepted LEAK CLEAR (R147): as one change for each branch of the zone, LEAK goes and SEQ and
CTRL are cleared. -/
def clearZoneBranches (z : Nat) (d : Part) : Part :=
  forBranches
    (fun b => changeBranch b
      (fun x => if x.cfg.zone = some z then
          { x with
            holds := { x.holds with leak := false }
            demands := ⟨false, false⟩
            enrolling := none }
        else x)) d

/-- A branch with its SHED hold as the shed sets stand. -/
def Branch.withShed (d : Part) (x : Branch) : Branch :=
  { x with holds := { x.holds with shed := shedHold d x.cfg.tier } }

/-- Derive the SHED hold of every branch; a branch that the removal makes eligible is appended at
the back (R50, R55, R81). -/
def deriveShed (d : Part) : Part :=
  forBranches (fun b d => changeBranch b (Branch.withShed d) d) d

/-- The branches of a list in ascending tier and, within a tier, in the list's order (R64). -/
def byTier (d : Part) (bs : List Nat) : List Nat :=
  (List.range 8).flatMap fun t => bs.filter fun b => match d.branch b with
    | some x => x.cfg.tier == t
    | none => false

/-- The branches that the emptying of the shed sets leaves OFF with a demand and no hold, in
ascending branch number. -/
def freed (d : Part) : List Nat :=
  (List.range 36).filter fun b => match d.branch b with
    | some x => x.holds.shed && !shedHold d x.cfg.tier && x.state == .off &&
        (x.withShed d).wanted
    | none => false

/-- The removal of SHED as a release to the front of the Admission Queue (R64): the released branches
go ahead of every present member, together, as one change of the queue. -/
def releaseShed (d : Part) : Part :=
  let front := byTier d (freed d)
  let d1 := forBranches
    (fun b d => match d.branch b with
      | some x =>
        let y := x.withShed d
        if x = y then d
        else signalOnce .branches
          (putBranch b (if b ∈ front then { y with state := .queued } else y) d)
      | none => d) d
  setQueue (front ++ d1.bcu.queue) d1

/-! ## Samples of a switch node -/

/-- Adoption (R56) at the first GOOD BR_STATUS of a branch in UNKNOWN. -/
def adopt (b : Nat) (x : Branch) (code : Int) (d : Part) : Part :=
  if code = 0 then
    queueIfWanted b
      (stageBranch b ctlOff (signalOnce .branches (putBranch b { x with state := .off } d)))
  else if code = 3 then faultBranch .switchFault b d
  else
    let y := { x with state := .on, demands := { x.demands with seq := true } }
    let d1 := signalOnce .branches (putBranch b y d)
    if x.holds.any then stopBranch b d1 else stageBranch b ctlOn d1

/-- A GOOD BR_STATUS sample of a branch (R56, R57): code 0 OFF, 1 ON, 2 POWER_GOOD, 3 FAULT. -/
def switchReading (b : Nat) (code : Int) (d : Part) : Part :=
  match d.branch b with
  | none => d
  | some x =>
    match x.state with
    | .unknown => adopt b x code d
    | .off =>
      if code = 0 then d
      else faultBranch (if code = 3 then .switchFault else .uncommandedOn) b d
    | .queued =>
      if code = 0 then d
      else faultBranch (if code = 3 then .switchFault else .uncommandedOn) b d
    | .admitting =>
      if code = 3 then faultBranch .switchFault b d
      else if code = 2 then
        signalOnce .branches (putBranch b { x with state := .on, timer := .stopped } d)
      else d
    | .on =>
      if code = 3 then faultBranch .switchFault b d
      else if code = 0 then faultBranch .uncommandedOff b d
      else d
    | .stopping =>
      if code = 3 then faultBranch .switchFault b d
      else if code = 0 then
        queueIfWanted b
          (signalOnce .branches (putBranch b { x with state := .off, timer := .stopped } d))
      else d
    | .fault => d

/-- Power freshness of the branch of a switch node (R61). -/
def setFreshness (node : Nat) (v : Bool) (d : Part) : Part :=
  match d.branchAt node with
  | none => d
  | some b => match d.branch b with
    | none => d
    | some x => putBranch b { x with fresh := v } d

/-- A GOOD BR_POWER sample sets the branch's power reading (R61). Freshness is yes while the
channel's class is neither STALE nor UNSEEN, and is taken afresh here (DEDUCED, log 11). -/
def powerReading (node : Nat) (v : Int) (cls : ChanClass) (d : Part) : Part :=
  match d.branchAt node with
  | none => d
  | some b => match d.branch b with
    | none => d
    | some x => putBranch b
        { x with reading := some v.toNat, fresh := cls != .stale && cls != .unseen } d

/-! ## Trips and outcomes -/

/-- BRANCH_TRIP (R37): TRIP on every valid branch whose switch node is `node`. -/
def tripNode (node : Nat) (d : Part) : Part :=
  forBranches
    (fun b => changeBranch b fun x => if x.cfg.node = node then x.withTrip true else x) d

/-- The outcome of a BCU stage (R59): a NO_ACK faults the branch it was staged for, while its entry
is valid and names the node staged to. -/
def outcomeToBcu (branch : Option Nat) (node : Nat) (o : Delivery) (d : Part) : Part :=
  match branch, o with
  | some b, .noAck =>
    match d.branch b with
    | some x =>
      if x.cfg.node = node ∧ x.state ≠ .fault ∧ x.state ≠ .unknown then faultBranch .noAck b d
      else d
    | none => d
  | _, _ => d

/-! ## Admission -/

/-- A timer load: 0 leaves the timer stopped (R69, R121). -/
def startTimer (ms : Nat) : Timer := if ms = 0 then .stopped else .running ms

/-- Capacity and readiness for the head (R67, R68). -/
def admissible (x : Branch) (d : Part) : Bool :=
  committedLoad d + x.cfg.ratedW ≤ d.sru.capacity && ready d x.cfg.ratedW

/-- Admission of the head (R67). -/
def admitHead (b : Nat) (x : Branch) (d : Part) : Part :=
  let d1 := leaveQueue b
    (putBranch b { x with
      state := .admitting, timer := .running d.sru.profile.admitTimeoutMs } d)
  let d2 := { d1 with
    bcu.spacing := startTimer d.sru.profile.spacingMs
    bcu.headBlocked := false }
  stageBranch b ctlOn (signalOnce .branches d2)

/-- An admission attempt (R66, R67). -/
def attempt (d : Part) : Part :=
  match d.bcu.queue with
  | [] => d
  | b :: _ =>
    if d.sru.source = .onAc ∧ d.bcu.spacing = .stopped then
      match d.branch b with
      | none => d
      | some x => if admissible x d then admitHead b x d else { d with bcu.headBlocked := true }
    else d

/-! ## Timer expiries and requests -/

/-- Expiry of a branch timer (R58) in the state that it times. -/
def branchExpiry (s : BranchState) (cause : BranchCause) (b : Nat) (d : Part) : Part :=
  match d.branch b with
  | none => d
  | some x => match x.timer with
    | .running _ => if x.state = s then faultBranch cause b d else d
    | _ => d

/-- BRANCH CLEAR on a valid branch (R52): TRIP goes in any state, and a FAULT branch becomes OFF with
nothing staged. -/
def branchClear (b : Nat) (d : Part) : Part :=
  match d.branch b with
  | none => d
  | some x =>
    if x.state = .fault then
      let y := { x with state := .off, timer := .stopped, foundFaulted := false }
      let d1 := putBranch b (y.withTrip false) d
      queueIfWanted b (signalOnce .branches (noteLoad (committedLoad d) d1))
    else changeBranch b (Branch.withTrip false) d

/-- The begin values of a branch (R47), with the derived holds of R50. They begin UNKNOWN with `moved` no
also where the entry becomes valid after the reset, so that the branch counts at rated_w until it is
adopted, as one UNKNOWN since a reset does (R100); DESIGN CHOICE (log 33). -/
def Branch.begin (d : Part) (c : BranchCfg) : Branch where
  cfg := c
  state := .unknown
  demands := ⟨false, false⟩
  holds := ⟨leakHold d c.zone, false, shedHold d c.tier, false⟩
  reading := none
  fresh := false
  enrolling := none
  timer := .stopped
  foundFaulted := false
  moved := false

end Sys2Proof.Machine
end

