-- ==== Sys2Proof/Machine/Sqe.lean ====
section
/-! DEFINITION. The Sequence Engine (06): steps and their kinds (R120 to R126), suspend causes
(R119, R127 to R130), starting and abandoning a run (R131, R132), and the delivery of the hand-offs
that one command leaves due. -/

namespace Sys2Proof.Machine

/-- An event record of the SQE: its source is the step index (R133). -/
def postStep (kind : EventKind) (value : Option Nat) (d : Part) : Part :=
  post kind (some d.sqe.index) value d

/-! ## Ends of a run and of a step -/

/-- The run becomes HALTED (R120): the timer stops, REQUEST is cleared, RUN_HALTED is posted. -/
def haltRun (cause : StepCause) (d : Part) : Part :=
  postStep .runHalted (some cause.code)
    { d with sqe.run := .halted, sqe.timer := .stopped, sqe.causes.request := false }

/-- The run becomes DONE (R120). -/
def doneRun (d : Part) : Part :=
  postStep .runDone none
    { d with sqe.run := .done, sqe.timer := .stopped, sqe.causes.request := false }

/-- Advance (R120): past entry 63 the run is DONE; otherwise the next step waits to begin. -/
def advance (d : Part) : Part :=
  if 63 ≤ d.sqe.index then doneRun { d with sqe.timer := .stopped }
  else { d with sqe.timer := .stopped, sqe.index := d.sqe.index + 1, sqe.phase := .notBegun }

/-- A step completes: STEP_DONE with its value, then the advance. -/
def completeStep (value : Nat) (d : Part) : Part := advance (postStep .stepDone (some value) d)

/-- The value of STEP_FAILED (R184): cause in bits 27–24, policy in bit 28, tallies below. -/
def failValue (cause : StepCause) (policy : Policy) (tallies : Nat) : Nat :=
  policy.code * 2 ^ 28 + cause.code * 2 ^ 24 + tallies

/-- A step fails (R120): STEP_FAILED, then HALT halts the run and SKIP advances. -/
def failStep (cause : StepCause) (policy : Policy) (tallies : Nat) (d : Part) : Part :=
  let d1 := postStep .stepFailed (some (failValue cause policy tallies)) d
  match policy with
  | .halt => haltRun cause d1
  | .skip => advance d1

/-! ## Members and tallies -/

/-- The branches whose entry satisfies `f`, in ascending branch number. -/
def branchesWith (f : Branch → Bool) (d : Part) : List Nat :=
  (List.range 36).filter fun b => match d.branch b with
    | some x => f x
    | none => false

/-- The members of the current ENABLE_GROUP step (R118). -/
def stepMembers (d : Part) : List Nat :=
  branchesWith (fun x => x.enrolling == some d.sqe.index) d

/-- The members of the current step that are ON. -/
def membersOn (d : Part) : List Nat :=
  branchesWith (fun x => x.enrolling == some d.sqe.index && x.state == .on) d

/-- The skipped tally (R123): the start-skipped count and the branches enrolled at the step that
are counted neither in the on tally nor in the faulted count. -/
def skippedTally (d : Part) : Nat :=
  let counted := membersOn d ++ d.sqe.faultedMembers.filter (· ∉ membersOn d)
  d.sqe.startSkipped + (d.sqe.enrolled - counted.length)

/-- The four tallies of an ENABLE_GROUP step, 6 bits each (R123, R184). -/
def tallies (d : Part) : Nat :=
  d.sqe.enrolled * 2 ^ 18 + (membersOn d).length * 2 ^ 12 + d.sqe.alreadyOn * 2 ^ 6 +
    skippedTally d

/-- The SEQ holders of a group (R124). -/
def seqHolders (g : Nat) (d : Part) : List Nat :=
  branchesWith (fun x => x.cfg.group == g && x.demands.seq) d

/-! ## Beginning and examining a step -/

/-- Enrol a branch (R122): SEQ is set and the enrolling step becomes the step index. -/
def enrol (b : Nat) (d : Part) : Part :=
  changeBranch b
    (fun x => { x with
      demands := { x.demands with seq := true }
      enrolling := some d.sqe.index })
    { d with sqe.enrolled := d.sqe.enrolled + 1 }

/-- Sort one member of the group of an ENABLE_GROUP step by its state and holds (R122). -/
def sortMember (g b : Nat) (d : Part) : Part :=
  match d.branch b with
  | none => d
  | some x =>
    if x.cfg.group ≠ g then d
    else match x.state with
      | .queued => enrol b d
      | .admitting => { d with sqe.alreadyOn := d.sqe.alreadyOn + 1 }
      | .on => { d with sqe.alreadyOn := d.sqe.alreadyOn + 1 }
      | .off =>
        if x.holds.leak || x.holds.trip || x.holds.forceOff then
          { d with sqe.startSkipped := d.sqe.startSkipped + 1 }
        else enrol b d
      | _ => { d with sqe.startSkipped := d.sqe.startSkipped + 1 }

/-- The end condition of an ENABLE_GROUP step (R123). -/
def examineEnable (e : SeqStep) (d : Part) : Part :=
  if (stepMembers d).any fun b => match d.branch b with
      | some x => x.state == .queued || x.state == .admitting
      | none => false
  then d
  else if d.sqe.faulted > 0 then failStep .branchFault e.policy (tallies d) d
  else completeStep (tallies d) d

/-- The examination of a WAIT_GOOD step (R124). -/
def examineWait (e : SeqStep) (d : Part) : Part :=
  let holders := seqHolders e.group d
  let inState := fun s => fun b => match d.branch b with
    | some x => x.state == s
    | none => false
  if holders.any (inState .fault) then failStep .branchFault e.policy 0 d
  else if holders.all (inState .on) then completeStep holders.length d
  else d

/-- DISABLE_GROUP (R125): SEQ goes from every member, in whatever state. -/
def disableGroup (g : Nat) (d : Part) : Part :=
  forBranches (fun b => changeBranch b fun x => if x.cfg.group = g then x.clearSeq else x) d

/-- The step at the step index begins (R120): its phase becomes ACTIVE and it acts by its kind. -/
def beginStep (d : Part) : Part :=
  let d1 := { d with sqe.phase := .active }
  match d.sqe.current with
  | none =>
    haltRun .stepInvalid (postStep .stepFailed (some (failValue .stepInvalid .halt 0)) d1)
  | some e =>
    match e.kind with
    | .endRun => doneRun d1
    | .checkpoint => advance (postStep .checkpoint (some e.code) d1)
    | .delay =>
      if e.timeMs = 0 then completeStep 0 d1 else { d1 with sqe.timer := .running e.timeMs }
    | .disableGroup => completeStep (seqHolders e.group d).length (disableGroup e.group d1)
    | .waitGood => examineWait e { d1 with sqe.timer := startTimer e.timeMs }
    | .enableGroup =>
      let d2 := { d1 with
        sqe.enrolled := 0, sqe.alreadyOn := 0, sqe.startSkipped := 0, sqe.faulted := 0
        sqe.faultedMembers := [] }
      let d3 := forBranches (sortMember e.group) d2
      examineEnable e { d3 with sqe.timer := startTimer e.timeMs }

/-- Begin steps as long as a RUNNING run has one that has not begun: steps that end at their
beginning are passed through in one event (R120). -/
def runSteps : Nat → Part → Part
  | 0, d => d
  | n + 1, d =>
    if d.sqe.run = .running ∧ d.sqe.phase = .notBegun then runSteps n (beginStep d) else d

/-- A run passes through at most the 64 entries of the table in one event. -/
def stepFuel : Nat := 65

/-- Examine the current step's end condition, in RUNNING alone (R123, R124, R130), and go on. -/
def examine (d : Part) : Part :=
  if d.sqe.run = .running ∧ d.sqe.phase = .active then
    match d.sqe.current with
    | some e =>
      match e.kind with
      | .enableGroup => runSteps stepFuel (examineEnable e d)
      | .waitGood => runSteps stepFuel (examineWait e d)
      | _ => d
    | none => d
  else d

/-! ## Suspend causes -/

/-- A running step timer is frozen with its remaining time (R130). -/
def Timer.freeze : Timer → Timer
  | .running n => .frozen n
  | t => t

/-- A frozen step timer runs on with its remaining time (R130). -/
def Timer.thaw : Timer → Timer
  | .frozen n => .running n
  | t => t

/-- At least one cause is held. -/
def Causes.any (c : Causes) : Bool := c.ac || c.request || c.leak

/-- The causes become `c`: a RUNNING run with a cause is suspended, a SUSPENDED run without one is
resumed and begins or examines its step (R119, R130). -/
def setCauses (c : Causes) (d : Part) : Part :=
  let d1 := { d with sqe.causes := c }
  if d.sqe.run = .running ∧ c.any then
    postStep .runSuspended (some c.code)
      { d1 with sqe.run := .suspended, sqe.timer := d.sqe.timer.freeze }
  else if d.sqe.run = .suspended ∧ c.any = false then
    let d2 := postStep .runResumed none { d1 with sqe.run := .running }
    let d3 := { d2 with sqe.timer := d2.sqe.timer.thaw }
    if d3.sqe.phase = .notBegun then runSteps stepFuel d3 else examine d3
  else d1

/-- A new source state reaches the SQE (R127). -/
def acCause (s : SourceState) (d : Part) : Part :=
  setCauses { d.sqe.causes with ac := s != .onAc } d

/-- A change of a zone's latch or acknowledgement reaches the SQE (R128). -/
def examineLeakCause (d : Part) : Part :=
  setCauses { d.sqe.causes with leak := leakCause d } d

/-! ## Step timer and requests -/

/-- Expiry of the step timer in RUNNING (R121). -/
def stepExpiry (d : Part) : Part :=
  match d.sqe.run, d.sqe.timer, d.sqe.current with
  | .running, .running _, some e =>
    match e.kind with
    | .delay => runSteps stepFuel (completeStep e.timeMs d)
    | .enableGroup => runSteps stepFuel (failStep .timeout e.policy (tallies d) d)
    | .waitGood => runSteps stepFuel (failStep .timeout e.policy 0 d)
    | _ => d
  | _, _, _ => d

/-- An accepted START (R131). -/
def startRun (d : Part) : Part :=
  let d1 := forBranches
    (fun b d => match d.branch b with
      | some x => putBranch b { x with enrolling := none } d
      | none => d) d
  let c : Causes := ⟨false, false, leakCause d1⟩
  let d2 := { d1 with
    sqe.index := 0, sqe.phase := .notBegun, sqe.causes := c, sqe.timer := .stopped
    sqe.enrolled := 0, sqe.alreadyOn := 0, sqe.startSkipped := 0, sqe.faulted := 0
    sqe.faultedMembers := [] }
  if c.any then postStep .runSuspended (some c.code) { d2 with sqe.run := .suspended }
  else runSteps stepFuel { d2 with sqe.run := .running }

/-- An accepted ABORT (R132). -/
def abortRun (d : Part) : Part :=
  let d1 := { d with sqe.run := .idle, sqe.timer := .stopped, sqe.causes.request := false }
  forBranches
    (fun b => changeBranch b fun x =>
      if x.enrolling = none then x
      else if x.state = .queued then x.clearSeq
      else { x with enrolling := none }) d1

/-! ## Delivery of the hand-offs -/

/-- An outcome reaches its writer (R38, R59, R162). -/
def deliver (w : Writer) (branch : Option Nat) (node : Nat) (o : Delivery) (d : Part) : Part :=
  match w with
  | .bcu => outcomeToBcu branch node o d
  | .tlf => if o = .noAck then post .standbyNoAck (some node) none d else d
  | .rlp => noteOutcome node o d

/-- Deliver one hand-off. -/
def handle : Signal → Part → Part
  | .attempt, d => attempt d
  | .branches, d => examine d
  | .source s, d => acCause s d
  | .leak, d => examineLeakCause d
  | .outcome w branch node o, d => deliver w branch node o d

/-- Deliver the hand-offs that are due, the oldest first, at most `n` of them (log 20). -/
def settle : Nat → Part → Part
  | 0, d => d
  | n + 1, d =>
    match d.agenda with
    | [] => d
    | s :: rest => settle n (handle s { d with agenda := rest })

/-- The bound on hand-offs inside one command (log 20). -/
def settleFuel : Nat := 20000

/-- Deliver all hand-offs that are due. -/
def settleAll (d : Part) : Part := settle settleFuel d

end Sys2Proof.Machine
end

