-- ==== Sys2Proof/Machine/Sru.lean ====
section
/-! DEFINITION. The Source and Ride-Through Unit (04, 05): derived states, capacity, the source state
machine, restore, capacity shed and the evaluation. -/

namespace Sys2Proof.Machine

/-! ## Derived states -/

/-- The last value of a channel of the active map, if it has one. -/
def Part.lastOf (d : Part) (node : Nat) (kind : ChannelKind) : Option Int :=
  (d.channelOf node kind).bind (·.last)

/-- The channel is heard and current: its class is neither UNSEEN nor STALE (2.3.5). -/
def ChannelState.isFresh (c : ChannelState) : Bool := c.cls != .unseen && c.cls != .stale

/-- The derived state of a rectifier on a node (R73): the first condition that holds. RM_STATUS codes:
OK 0, INPUT_FAIL 1, FAULT 2, STANDBY 3. -/
def rectStateOf (node : Nat) (d : Part) : RectState :=
  if (d.nodeRecord node).state ≠ .live then .absent
  else match d.channelOf node .rmStatus with
    | none => .absent
    | some c =>
      if c.isFresh = false then .absent
      else if c.last = some 2 then .fault
      else if c.last = some 3 then .standby
      else if c.last = some 1 ∨
          (d.channelOf node .rmInVolt).map (·.cls) = some .tripLow then .inputFail
      else .ok

/-- The derived state of a battery on a node (R76): the first condition that holds. BM_STATUS codes: FAULT 3,
EMPTY 4. A BM_ENERGY channel that is still UNSEEN but already has a last value (R31) is tested against
floor; DESIGN CHOICE (log 31). -/
def battStateOf (node : Nat) (d : Part) : BattState :=
  if (d.nodeRecord node).state ≠ .live then .absent
  else if d.lastOf node .bmStatus = some 3 then .fault
  else if d.lastOf node .bmStatus = some 4 then .empty
  else match d.channelOf node .bmEnergy with
    | none => .stale
    | some c =>
      if (match c.last with
        | some e => decide (e ≤ (d.sru.profile.floor : Int))
        | none => false) then .empty
      else if c.isFresh = false then .stale
      else .online

/-- Post an event record of the SRU that has no source. -/
def postSru (kind : EventKind) (value : Nat) (d : Part) : Part := post kind none (some value) d

/-! ## Load (R100, R101) -/

/-- The reading stands for the branch: its power freshness is yes (R61), and the branch is not in UNKNOWN
since a reset, where R100 has it not fresh; DEDUCED (log 33). A branch that is UNKNOWN because its entry
became valid after the reset (R47) is counted as one UNKNOWN since a reset; R100 leaves it open.
DESIGN CHOICE (log 33). -/
def Branch.counted (x : Branch) : Bool := x.fresh && (x.state != .unknown || x.moved)

/-- The present value of a branch: its reading while fresh, else rated_w. -/
def Branch.present (x : Branch) : Nat :=
  if x.counted then x.reading.getD x.cfg.ratedW else x.cfg.ratedW

/-- The contribution of a branch to the load. -/
def Branch.contribution (x : Branch) : Nat :=
  match x.state with
  | .off => 0
  | .queued => 0
  | .fault => x.present
  | _ => if x.holds.shed then 0 else x.present

/-- The contribution of a table entry that satisfies `f`. -/
def contributionIf (f : Branch → Bool) : Option Branch → Nat
  | some x => if f x then x.contribution else 0
  | none => 0

/-- The load P, raised to 1 W. -/
def load (d : Part) : Nat :=
  max 1 (d.sru.profile.overheadW + (d.bcu.branches.map (contributionIf fun _ => true)).sum)

/-- A tier's present contribution. -/
def tierLoad (d : Part) (k : Nat) : Nat :=
  (d.bcu.branches.map (contributionIf fun x => x.cfg.tier == k)).sum

/-! ## Capacity -/

/-- The valid rectifiers. -/
def validRects (d : Part) : List Rectifier := d.sru.rects.filterMap id

/-- Ratings of the OK rectifiers. -/
def okRatings (d : Part) : List Nat :=
  ((validRects d).filter (·.state == .ok)).map (·.ratedW)

/-- C by R77. -/
def capacityOf (d : Part) : Nat :=
  match d.sru.profile.redundancy with
  | .plain => (okRatings d).sum
  | .nPlusOne => (okRatings d).sum - (okRatings d).foldl max 0

/-- The capacity condition, examined in ON_AC once an evaluation has been made there (R89). -/
def examineCapacity (d : Part) : Part :=
  match d.sru.source, d.sru.evaluatedOnAc, d.sru.p with
  | .onAc, true, some p =>
    if d.sru.capacity < p then
      match d.sru.capTimer with
      | .stopped => { d with sru.capTimer := .running d.sru.profile.capPersistMs }
      | _ => d
    else { d with sru.capTimer := .stopped }
  | _, _, _ => d

/-- A capacity release (R91): the capacity-shed set is emptied and its branches are released to the
front (R64). -/
def capacityRelease (d : Part) : Part :=
  let n := tierCount d.sru.capShed
  let d1 := releaseShed { d with sru.capShed := 0, sru.capDeficitPosted := false }
  if n = 0 then d1 else postSru .capacityReleased n d1

/-- C is recomputed and a change handed on (R77, R78): on a rise the release comes first. -/
def recomputeCapacity (d : Part) : Part :=
  let c := capacityOf d
  if c = d.sru.capacity then d
  else
    let d1 := { d with sru.capacity := c }
    let d2 := if d.sru.capacity < c then capacityRelease d1 else d1
    examineCapacity (signalOnce .attempt d2)

/-! ## The source state machine -/

/-- AC lost (R79). -/
def acLost (d : Part) : Bool :=
  d.lines.acfailIn || (!(validRects d).isEmpty && (validRects d).all (·.state != .ok))

/-- AC good (R79). -/
def acGood (d : Part) : Bool :=
  !d.lines.acfailIn && decide (d.sru.profile.minRect ≤ (okRatings d).length)

/-- The source takes a new state, which is handed to the SQE (R87). -/
def setSource (s : SourceState) (d : Part) : Part :=
  signal (.source s) { d with sru.source := s }

/-- An episode begins from state `left` (R81). -/
def beginEpisode (left : SourceState) (d : Part) : Part :=
  let d1 := setSource .onBattery { d with
    sru.tBatt := 0, sru.tBattCounts := true, sru.depletedFlag := false
    sru.deficitPosted := false, sru.holdupPosted := false
    sru.capTimer := .stopped, sru.capShed := 0, sru.capDeficitPosted := false }
  postSru .acLoss left.code (deriveShed d1)

/-- Entry into ON_AC: t_batt holds, both shed sets are emptied and their branches released to the
front before the SQE sees the new state (R84, R87, R88, R134). -/
def enterOnAc (d : Part) : Part :=
  let d1 := releaseShed { d with
    sru.source := .onAc, sru.stableTimer := .stopped, sru.tBattCounts := false
    sru.depletedFlag := false, sru.evaluatedOnAc := false
    sru.battShed := 0, sru.capShed := 0, sru.capDeficitPosted := false }
  signal (.source .onAc) (signalOnce .attempt d1)

/-- The decision that leaves SOURCE_UNKNOWN (R80); the evaluation timer starts (R95). -/
def qualify (d : Part) : Part :=
  let d1 := { d with
    sru.qualTimer := .stopped
    sru.evalTimer := .running d.sru.profile.evalMs }
  if acGood d then postSru .sourceQualified SourceState.onAc.code (enterOnAc d1)
  else
    beginEpisode .unknown
      (postSru .sourceQualified SourceState.onBattery.code { d1 with sru.source := .onBattery })

/-- The first event of R80: every valid rectifier has left ABSENT. -/
def qualifyIfHeard (d : Part) : Part :=
  if d.sru.source = .unknown ∧ (validRects d).isEmpty = false ∧
      (validRects d).all (·.state != .absent) then qualify d
  else d

/-- AC good begins a return (R82). -/
def beginReturn (d : Part) : Part :=
  setSource .returnPending { d with sru.stableTimer := .running d.sru.profile.acStableMs }

/-- An examination of the AC conditions (R79, R81 to R83); it has no effect in SOURCE_UNKNOWN. -/
def examineAc (d : Part) : Part :=
  match d.sru.source with
  | .unknown => d
  | .onAc => if acLost d then beginEpisode .onAc d else d
  | .onBattery => if acGood d then beginReturn d else d
  | .depleted => if acGood d then beginReturn d else d
  | .returnPending =>
    if acGood d then d
    else
      postSru .acLoss SourceState.returnPending.code
        (setSource (if d.sru.depletedFlag then .depleted else .onBattery)
          { d with sru.stableTimer := .stopped })

/-- Rectifier `i` is derived afresh (R74): a new state is taken and posted, C is recomputed and the
AC conditions are examined. -/
def deriveRect (i : Nat) (d : Part) : Part :=
  match entry d.sru.rects i with
  | none => d
  | some r =>
    let s := rectStateOf r.node d
    if s = r.state then d
    else
      let d1 := { d with sru.rects := d.sru.rects.set i (some { r with state := s }) }
      examineAc (recomputeCapacity (post .rectState (some r.node) (some s.code) d1))

/-- Every rectifier is derived afresh; each derivation may qualify the source (R80). Where one event changes
several, each acts with its own recomputation of C and examination of the AC conditions, in ascending
entry; DESIGN CHOICE (log 29). -/
def deriveRects (d : Part) : Part :=
  (List.range 8).foldl (fun d i => qualifyIfHeard (deriveRect i d)) d

/-- Battery `i` is derived afresh (R76). -/
def deriveBatt (i : Nat) (d : Part) : Part :=
  match entry d.sru.batts i with
  | none => d
  | some b =>
    let s := battStateOf b.node d
    if s = b.state then d
    else
      post .batteryState (some b.node) (some s.code)
        { d with sru.batts := d.sru.batts.set i (some { b with state := s }) }

/-- Every battery is derived afresh. Where one event changes several (a floor, a map activation), they are
derived and post BATTERY_STATE in ascending entry, which no rule orders; DESIGN CHOICE (log 29). -/
def deriveBatts (d : Part) : Part := (List.range 6).foldl (fun d i => deriveBatt i d) d

/-- Every rectifier and battery is derived afresh, at an event that can change an input (R74, R76);
a derivation that yields the state held does nothing. The rectifiers come before the batteries, which no
rule orders; DESIGN CHOICE (log 29). -/
def deriveModules (d : Part) : Part := deriveBatts (deriveRects d)

/-! ## Tier selection (R90, R106) -/

/-- The tiers that may be selected, in the order in which they are considered. -/
def shedOrder : List Nat := [7, 6, 5, 4, 3, 2, 1]

/-- Consider the tiers in turn: one in the set is passed over; any other is subtracted, not below
`least`, and selected; the procedure stops when the goal is met. The answer: the tiers selected, the
load left, and whether the goal was met. -/
def selectTiers (goal : Nat → Bool) (least : Nat) (set : TierSet) (part : Nat → Nat) :
    List Nat → Nat → List Nat × Nat × Bool
  | [], p => ([], p, false)
  | k :: ks, p =>
    if set.getLsbD k then selectTiers goal least set part ks p
    else
      let p' := max least (p - part k)
      if goal p' then ([k], p', true)
      else
        let (sel, q, met) := selectTiers goal least set part ks p'
        (k :: sel, q, met)

/-- Add tiers to a set. -/
def addTiers (set : TierSet) (ks : List Nat) : TierSet :=
  ks.foldl (fun s k => s ||| (1#8 <<< k)) set

/-- Post SHED_TIER for each tier: kind BATTERY 0, CAPACITY 1 (R183). -/
def postShed (kind : Nat) (ks : List Nat) (d : Part) : Part :=
  ks.foldl (fun d k => post .shedTier (some k) (some kind) d) d

/-- Expiry of the capacity persistence timer (R90): the load is formed afresh and tiers are shed until
it fits C. -/
def capacityExpiry (d : Part) : Part :=
  match d.sru.capTimer with
  | .running _ =>
    let d1 := { d with sru.capTimer := .stopped }
    let c := d.sru.capacity
    if d.sru.source ≠ .onAc ∨ load d ≤ c then d1
    else
      let (sel, left, met) := selectTiers (· ≤ c) 0 d.sru.capShed (tierLoad d) shedOrder (load d)
      let d2 := postShed 1 sel { d1 with sru.capShed := addTiers d.sru.capShed sel }
      let d3 := if met = false ∧ d.sru.capDeficitPosted = false then
          postSru .capacityDeficit (left - c) { d2 with sru.capDeficitPosted := true }
        else d2
      deriveShed d3
  | _ => d

/-! ## The evaluation (R97) -/

/-- The last energy reading of a battery, 0 where the channel has none (R98). -/
def energyOf (d : Part) (b : Battery) : Nat := ((d.lastOf b.node .bmEnergy).getD 0).toNat

/-- The valid batteries. -/
def validBatts (d : Part) : List Battery := d.sru.batts.filterMap id

/-- U by R98. -/
def formedEnergy (d : Part) : Nat :=
  (((validBatts d).filter (·.state == .online)).map
      fun b => energyOf d b - d.sru.profile.floor).sum * d.sru.profile.effPm / 1000

/-- Whether some valid module is ONLINE. -/
def someOnline (d : Part) : Bool := (validBatts d).any (·.state == .online)

/-- The hold condition (R99): no valid module ONLINE and at least one STALE. -/
def holdsEnergy (d : Part) : Bool := !someOnline d && (validBatts d).any (·.state == .stale)

/-- The held U (R99). -/
def heldEnergy (d : Part) : Nat :=
  min (d.sru.u.getD 0) (((validBatts d).map (energyOf d)).sum * d.sru.profile.effPm / 1000)

/-- Stage 1: usable energy. -/
def usableEnergy (d : Part) : Nat := if holdsEnergy d then heldEnergy d else formedEnergy d

/-- T_need (R103). -/
def needOf (d : Part) : Nat :=
  match d.sru.source with
  | .onAc => d.sru.profile.tReqS
  | .unknown => d.sru.profile.tReqS
  | _ => d.sru.profile.tReqS - d.sru.tBatt / 1000

/-- T_goal (R103). -/
def goalOf (d : Part) : Nat := withMargin (needOf d) d.sru.profile.marginPm

/-- Tiers 1 to 7. -/
def tiersOneToSeven : TierSet := 0xFE

/-- The conditions of the shed decision (R105). -/
def shedDue (u p : Nat) (d : Part) : Bool :=
  (d.sru.source == .onBattery || d.sru.source == .returnPending) && !holdsEnergy d &&
    (d.sru.battShed &&& tiersOneToSeven != tiersOneToSeven) && decide (seconds u p < goalOf d)

/-- Stage 5: the shed decision (R105 to R108). -/
def shedDecision (u p : Nat) (d : Part) : Part :=
  if shedDue u p d then
    let goal := goalOf d
    let (sel, left, met) :=
      selectTiers (fun q => goal ≤ seconds u q) 1 d.sru.battShed (tierLoad d) shedOrder p
    let d1 := postShed 0 sel { d with sru.battShed := addTiers d.sru.battShed sel }
    let d2 := if met = false ∧ d.sru.deficitPosted = false then
        postSru .deficit (goal - seconds u left) { d1 with sru.deficitPosted := true }
      else d1
    deriveShed d2
  else d

/-- The states of an episode. -/
def SourceState.inEpisode : SourceState → Bool
  | .onBattery => true
  | .returnPending => true
  | .depleted => true
  | _ => false

/-- Stage 6: the warning (R110). -/
def warn (tProj : Nat) (d : Part) : Part :=
  if d.sru.source.inEpisode ∧ tProj ≤ d.sru.profile.warnS ∧ d.sru.holdupPosted = false then
    postSru .holdupLow tProj { d with sru.holdupPosted := true }
  else d

/-- Depletion (R85): every tier is shed and DEPLETED is posted; an examination of the AC conditions
may go on at once to AC_RETURN_PENDING. -/
def deplete (d : Part) : Part :=
  let d1 := setSource .depleted { d with
    sru.depletedFlag := true, sru.battShed := 0xFF, sru.stableTimer := .stopped }
  examineAc (postSru .depleted (d.sru.tBatt / 1000) (deriveShed d1))

/-- Stage 7: the test for depletion (R111); a further depletion changes nothing (R85). -/
def testDepletion (u : Nat) (isHeld : Bool) (d : Part) : Part :=
  if d.sru.source.inEpisode ∧ isHeld = false ∧ (u = 0 ∨ someOnline d = false) then
    match d.sru.source with
    | .depleted => d
    | .returnPending => if d.sru.depletedFlag then d else deplete d
    | _ => deplete d
  else d

/-- Stage 8: publication (R112). -/
def publish (u p tProj tNeed tGoal : Nat) (isHeld : Bool) (d : Part) : Part :=
  let d1 := { d with
    sru.u := some u, sru.p := some p, sru.tProj := some tProj, sru.tNeed := some tNeed
    sru.tGoal := some tGoal, sru.held := isHeld }
  let d2 := if d.sru.source = .onAc then examineCapacity { d1 with sru.evaluatedOnAc := true }
    else d1
  signalOnce .attempt d2

/-- One evaluation: the stages of R97 in order. -/
def evaluate (d : Part) : Part :=
  let u := usableEnergy d
  let p := load d
  let isHeld := holdsEnergy d
  let d1 := shedDecision u p d
  let d2 := warn (seconds u p) d1
  let d3 := testDepletion u isHeld d2
  publish u p (seconds u p) (needOf d) (goalOf d) isHeld d3

/-- Expiry of the evaluation timer (R95): one evaluation, and the timer restarts. -/
def evaluationExpiry (d : Part) : Part :=
  match d.sru.evalTimer with
  | .running _ => evaluate { d with sru.evalTimer := .running d.sru.profile.evalMs }
  | _ => d

/-! ## Other expiries -/

/-- Expiry of the qualification timer (R80). -/
def qualificationExpiry (d : Part) : Part :=
  match d.sru.source, d.sru.qualTimer with
  | .unknown, .running _ =>
    if (validRects d).isEmpty then { d with sru.qualTimer := .stopped } else qualify d
  | _, _ => d

/-- Expiry of the stable timer (R84, R88): AC_RETURN and then RESTORE_DONE are posted. -/
def stableExpiry (d : Part) : Part :=
  match d.sru.source, d.sru.stableTimer with
  | .returnPending, .running _ =>
    postSru .restoreDone (tierCount d.sru.shed)
      (postSru .acReturn (d.sru.tBatt / 1000) (enterOnAc d))
  | _, _ => d

end Sys2Proof.Machine
end

