-- ==== Sys2Proof/Machine/Lkm.lean ====
section
/-! DEFINITION. The Leak Monitor (07): debounce of points (R138 to R140), the zone vote and latch
(R142 to R144), the LEAK_IN line (R145), acknowledging and clearing (R146, R147). -/

namespace Sys2Proof.Machine

/-- Store a zone. -/
def putZone (z : Nat) (x : Zone) (d : Part) : Part :=
  { d with lkm.zones := d.lkm.zones.set z x }

/-- The valid points whose zone field names zone `z`. -/
def zonePoints (z : Nat) (d : Part) : List Point :=
  (d.lkm.points.filterMap id).filter (·.cfg.zone == z)

/-- A point counted in n_wet: WET or DRY_PENDING (R142). -/
def Point.isWet (p : Point) : Bool := p.state == .wet || p.state == .dryPending

/-- n_wet of a zone. -/
def wetCount (z : Nat) (d : Part) : Nat := ((zonePoints z d).filter Point.isWet).length

/-- n_fault of a zone. -/
def faultCount (z : Nat) (d : Part) : Nat :=
  ((zonePoints z d).filter (·.state == .fault)).length

/-- The effective vote (R142). -/
def effectiveVote (vote nCfg nFault : Nat) : Nat := max 1 (min vote nCfg - nFault)

/-- The number of valid branches whose zone field names zone `z` (R143). -/
def zoneBranches (z : Nat) (d : Part) : List Nat := branchesWith (fun x => x.cfg.zone == some z) d

/-- A change of a latch is handed on (R150): `toBcu` is what the BCU does with it. Where a run is under
way, the order of the two hand-offs is a free value; DESIGN CHOICE (log 8). -/
def handLatch (toBcu : Part → Part) (d : Part) : Part :=
  if d.sqe.underWay then
    let d1 := { d with lkm.handOffs := d.lkm.handOffs + 1 }
    if Config.bcuHandedFirst d.lkm.handOffs then signal .leak (toBcu d1)
    else toBcu (examineLeakCause d1)
  else toBcu (examineLeakCause d)

/-- Who confirms a zone, as its code: POINTS 0, LINE 1 (R183). -/
def byPoints : Nat := 0

/-- The code of LINE. -/
def byLine : Nat := 1

/-- A zone is confirmed, and goes on to ISOLATED if its isolate flag is set (R143 to R145). -/
def confirmZone (z : Nat) (c : ZoneCfg) (by' nWet : Nat) (d : Part) : Part :=
  let s := if c.isolate then ZoneState.isolated else .confirmed
  let d1 := putZone z { d.zone z with state := s, acked := false } d
  let d2 := post .leakConfirmed (some z) (some (by' * 256 + nWet)) d1
  let d3 := if c.isolate then post .leakIsolated (some z) (some (zoneBranches z d).length) d2
    else d2
  handLatch (deriveLeak z) d3

/-- DEGRADED follows n_fault, with ZONE_DEGRADED when it becomes set or clear (R142). -/
def noteDegraded (z : Nat) (d : Part) : Part :=
  let n := faultCount z d
  if (d.zone z).degraded = decide (0 < n) then d
  else post .zoneDegraded (some z) (some n)
    (putZone z { d.zone z with degraded := decide (0 < n) } d)

/-- An examination of zone `z` (R143). An empty entry is inert. -/
def examineZone (z : Nat) (d : Part) : Part :=
  match (d.zone z).cfg with
  | none => d
  | some c =>
    let nWet := wetCount z d
    let nCfg := (zonePoints z d).length
    let eff := effectiveVote c.vote nCfg (faultCount z d)
    let d1 := noteDegraded z d
    match (d.zone z).state with
    | .clear =>
      if 0 < nCfg ∧ eff ≤ nWet then confirmZone z c byPoints nWet d1
      else if 1 ≤ nWet then
        post .leakAlert (some z) (some nWet) (putZone z { d1.zone z with state := .alert } d1)
      else d1
    | .alert =>
      if 0 < nCfg ∧ eff ≤ nWet then confirmZone z c byPoints nWet d1
      else if nWet = 0 then
        examineLeakCause (putZone z { d1.zone z with state := .clear } d1)
      else d1
    | _ => d1

/-! ## Points -/

/-- How a sample of a point is sorted (R138). -/
inductive PointSort where
  | dry
  | wet
  | faulting (cause : PointCause)
  | ignored
deriving DecidableEq, Repr

/-- Sort a sample by quality and level. -/
def sortSample (c : PointCfg) : Sample → PointSort
  | .good v =>
    if v < (c.wetLevel : Int) then .dry
    else if v < (c.faultLevel : Int) then .wet
    else .faulting .level
  | .sensorFault => .faulting .sensor
  | .invalid => .ignored

/-- A run of samples that reaches debounce sets the state; otherwise it is counted. -/
def debounced (c : PointCfg) (n : Nat) (pending reached : PointState) : PointState × Nat :=
  if n = c.debounce then (reached, 0) else (pending, n)

/-- The move of a point on a sample (R139). -/
def movePoint (p : Point) : PointSort → PointState × Nat
  | .faulting _ => (.fault, 0)
  | .ignored => (p.state, p.count)
  | .dry => match p.state with
    | .unseen => debounced p.cfg (p.count + 1) .unseen .dry
    | .fault => debounced p.cfg (p.count + 1) .fault .dry
    | .dry => (.dry, 0)
    | .wetPending => (.dry, 0)
    | .wet => debounced p.cfg 1 .dryPending .dry
    | .dryPending => debounced p.cfg (p.count + 1) .dryPending .dry
  | .wet => match p.state with
    | .unseen => debounced p.cfg (p.count + 1) .unseen .wet
    | .fault => debounced p.cfg (p.count + 1) .fault .wet
    | .dry => debounced p.cfg 1 .wetPending .wet
    | .wetPending => debounced p.cfg (p.count + 1) .wetPending .wet
    | .wet => (.wet, 0)
    | .dryPending => (.wet, 0)

/-- The cause of a faulting sample. -/
def PointSort.cause : PointSort → PointCause
  | .faulting c => c
  | _ => .level

/-- Point `i` takes a state and a count. Entry into FAULT posts LEAK_POINT_FAULT (R140), and a change
of state is handed to the zone's examination (R139, R143). -/
def setPoint (i : Nat) (p : Point) (s : PointState) (n : Nat) (cause : PointCause) (d : Part) :
    Part :=
  let d1 := { d with lkm.points := d.lkm.points.set i (some { p with state := s, count := n }) }
  if s = p.state then d1
  else if s = .fault then
    examineZone p.cfg.zone
      (post .leakPointFault (some p.cfg.zone) (some (i * 256 + cause.code)) d1)
  else examineZone p.cfg.zone d1

/-- Do something for every valid point that names a node and a slot. -/
def forPoints (node slot : Nat) (f : Nat → Point → Part → Part) (d : Part) : Part :=
  (List.range 16).foldl
    (fun d i => match entry d.lkm.points i with
      | some p => if p.cfg.node = node ∧ p.cfg.slot = slot then f i p d else d
      | none => d) d

/-- A sample of an LK_LEVEL channel (R136, R138, R139). -/
def levelSample (node slot : Nat) (x : Sample) (d : Part) : Part :=
  forPoints node slot
    (fun i p =>
      let k := sortSample p.cfg x
      setPoint i p (movePoint p k).1 (movePoint p k).2 k.cause) d

/-- The class of an LK_LEVEL channel becomes STALE (R140). -/
def pointsStale (node slot : Nat) (d : Part) : Part :=
  forPoints node slot (fun i p => setPoint i p .fault 0 .stale) d

/-- An LK_LEVEL channel ends or returns to UNSEEN (R5, R140): its points take their begin values. -/
def pointsUnseen (node slot : Nat) (d : Part) : Part :=
  forPoints node slot (fun i p => setPoint i p .unseen 0 .stale) d

/-! ## The line and the requests -/

/-- An examination of the LEAK_IN line (R145). -/
def examineLine (d : Part) : Part :=
  match d.lines.leakIn, d.sru.profile.leakLineZone with
  | true, some z =>
    match (d.zone z).cfg, (d.zone z).state with
    | some c, .clear => confirmZone z c byLine 0 d
    | some c, .alert => confirmZone z c byLine 0 d
    | _, _ => d
  | _, _ => d

/-- LEAK ACK on a zone of the table (R146). -/
def leakAck (z : Nat) (d : Part) : Part × Status :=
  if (d.zone z).latched then
    if (d.zone z).acked then (d, .done)
    else (examineLeakCause (putZone z { d.zone z with acked := true } d), .done)
  else (d, .notAllowed)

/-- The line holds a zone from being cleared (R147). -/
def lineHolds (z : Nat) (d : Part) : Bool :=
  d.lines.leakIn && d.sru.profile.leakLineZone == some z

/-- LEAK CLEAR on a zone of the table (R147). -/
def leakClear (z : Nat) (d : Part) : Part × Status :=
  match (d.zone z).cfg, (d.zone z).state with
  | none, _ => (d, .notAllowed)
  | some _, .clear => (d, .notAllowed)
  | some _, .alert => (d, .notDry)
  | some _, _ =>
    if 0 < wetCount z d ∨ lineHolds z d then (d, .notDry)
    else
      let d1 := putZone z { d.zone z with state := .clear, acked := false } d
      let d2 := post .leakCleared (some z) none d1
      (examineZone z (handLatch (clearZoneBranches z) d2), .done)

end Sys2Proof.Machine
end

