-- ==== Sys2Proof/Machine/Tlf.lean ====
section
/-! DEFINITION. The Telemetry Filter (02): a channel's parameters (R27), classification (R28 to R34),
limit events and trip actions (R36 to R38), forwarding (R39, R40) and what the TLF hands on (R35). -/

namespace Sys2Proof.Machine

/-- The begin values of a Channel State record (R26). -/
def ChannelState.begin : ChannelState := ⟨.unseen, none, none, none, 0, 0⟩

/-- The parameters of a channel (R27); `limits` is the entry whose thresholds are applied. -/
structure Params where
  limits : Option LimitEntry
  persistence : Nat
  staleLimit : Nat
  forward : ForwardMode
  deadband : Nat
  action : TripAction
deriving DecidableEq, Repr

/-- The parameters that R27 gives a channel kind with a limit reference. -/
def paramsOf (d : Part) (kind : ChannelKind) (limit : Option Nat) : Params :=
  match limit.bind (entry d.tlf.limits) with
  | none => ⟨none, 1, 100, .all, 0, .never⟩
  | some e =>
    if kind.isStatus ∨ kind = .generic then
      ⟨none, 1, e.staleLimit, e.forward, e.deadband, .never⟩
    else ⟨some e, e.persistence, e.staleLimit, e.forward, e.deadband, e.tripAction⟩

/-! ## Classification -/

/-- A threshold that is present and passed upward: beyond it, or not yet back by the hysteresis while
a class that it set is held (R28). -/
def above (t : Option Int) (h : Nat) (heldClass : Bool) (v : Int) : Bool :=
  match t with
  | some x => decide (x < v) || (heldClass && decide (x - h < v))
  | none => false

/-- A threshold that is present and passed downward (R28). -/
def below (t : Option Int) (h : Nat) (heldClass : Bool) (v : Int) : Bool :=
  match t with
  | some x => decide (v < x) || (heldClass && decide (v < x + h))
  | none => false

/-- The raw class of a GOOD sample (R28): the first of the four tests that holds. -/
def rawClass (e : Option LimitEntry) (c : ChanClass) (v : Int) : ChanClass :=
  match e with
  | none => .unclassified
  | some x =>
    if above x.highTrip x.hysteresis (c == .tripHigh) v then .tripHigh
    else if above x.highWarn x.hysteresis (c == .warnHigh || c == .tripHigh) v then .warnHigh
    else if below x.lowTrip x.hysteresis (c == .tripLow) v then .tripLow
    else if below x.lowWarn x.hysteresis (c == .warnLow || c == .tripLow) v then .warnLow
    else .normal

/-- A GOOD sample classified (R30, R31, R34): the record it leaves, and whether its class changed. The
last value follows the sample and the miss count returns to 0. -/
def classify (p : Params) (x : ChannelState) (v : Int) : ChannelState × Bool :=
  let r := rawClass p.limits x.cls v
  let y := { x with last := some v, miss := 0 }
  let settled := { y with candidate := none, count := 0 }
  if x.cls = .stale then ({ settled with cls := r }, true)
  else if r = x.cls then (settled, false)
  else
    let n := if x.candidate = some r then x.count + 1 else 1
    if p.persistence ≤ n then ({ settled with cls := r }, true)
    else ({ y with candidate := some r, count := n }, false)

/-! ## What a class change brings about -/

/-- The event of a class change (R36). -/
def limitEvent (old new : ChanClass) : Option EventKind :=
  match new with
  | .warnLow => some .limitWarn
  | .warnHigh => some .limitWarn
  | .tripLow => some .limitTrip
  | .tripHigh => some .limitTrip
  | .normal => if old = .unseen then none else some .limitNormal
  | .unclassified => if old = .stale then some .limitNormal else none
  | .stale => some .channelStale
  | .unseen => none

/-- Post the event of a class change of slot `k` (R36, R184). -/
def postClass (k node : Nat) (old new : ChanClass) (d : Part) : Part :=
  match limitEvent old new with
  | some e => post e (some node) (some (k * 256 + new.code)) d
  | none => d

/-- The trip classes. -/
def ChanClass.isTrip : ChanClass → Bool
  | .tripLow => true
  | .tripHigh => true
  | _ => false

/-- NODE_STANDBY (R38): STANDBY is staged as writer TLF, unless the node is the switch node of a valid
branch, which is tripped instead. An immediate NO_ACK posts STANDBY_NO_ACK. -/
def standbyNode (node : Nat) (d : Part) : Part :=
  match d.branchAt node with
  | some _ => tripNode node d
  | none =>
    match stage .tlf none node ctlStandby d with
    | (d', true) => post .standbyNoAck (some node) none d'
    | (d', false) => d'

/-- The trip action of a channel's entry into a trip class (R37, R38). -/
def takeTrip (a : TripAction) (node : Nat) (d : Part) : Part :=
  match a with
  | .never => d
  | .branchTrip => tripNode node d
  | .nodeStandby => standbyNode node d

/-- What the block that owns a channel's kind is handed (R35): the SRU derives its modules afresh, the
BCU takes the freshness of a BR_POWER channel (R61), the LKM a STALE or restarted LK_LEVEL channel
(R140). -/
def handClass (k node : Nat) (kind : ChannelKind) (c : ChanClass) (d : Part) : Part :=
  match kind with
  | .brStatus => d
  | .generic => d
  | .brPower => setFreshness node (c != .stale && c != .unseen) d
  | .lkLevel =>
    match c with
    | .stale => pointsStale node k d
    | .unseen => pointsUnseen node k d
    | _ => d
  | _ => deriveModules d

/-- Store the Channel State record of slot `k`. -/
def putChannel (k : Nat) (x : ChannelState) (d : Part) : Part :=
  { d with tlf.channels := d.tlf.channels.set k (some x) }

/-- A channel is restarted: it returns to UNSEEN with the begin values (R5, R25), and its owner is
handed that (R35, log 16). Where one Limit Table record restarts several channels, the owner acts after
each, in ascending slot; DESIGN CHOICE (log 28). -/
def restartChannel (k node : Nat) (kind : ChannelKind) (d : Part) : Part :=
  handClass k node kind .unseen (putChannel k .begin d)

/-! ## Forwarding -/

/-- Whether a GOOD sample is forwarded by its mode (R39); `x` is the record before the sample. -/
def forwards (p : Params) (x : ChannelState) (changed : Bool) (v : Int) : Bool :=
  match p.forward with
  | .all => true
  | .delta =>
    match x.lastForwarded with
    | none => true
    | some w => decide (p.deadband ≤ (v - w).natAbs)
  | .onClass => changed
  | .never => false

/-! ## The events of the TLF -/

/-- What a GOOD sample hands on (R35): a class change to the owner of the channel's kind, and each new
last value of a rectifier or battery kind to the SRU. -/
def handSample (k node : Nat) (kind : ChannelKind) (c : ChanClass) (changed : Bool) (d : Part) : Part :=
  if changed || kind.isModule then handClass k node kind c d else d

/-- A GOOD sample of slot `k` (2.3.1): classified, forwarded, then the event and the trip action of a
class change, and the hand-off to the owner. -/
def goodSample (k node : Nat) (kind : ChannelKind) (limit : Option Nat) (v : Int) (d : Part) :
    Part :=
  match entry d.tlf.channels k with
  | none => d
  | some x =>
    let p := paramsOf d kind limit
    let (y, changed) := classify p x v
    let fwd := d.rlp.features.forwarding && forwards p x changed v
    let d1 := putChannel k (if fwd then { y with lastForwarded := some v } else y) d
    let d2 := if fwd then forward ⟨node, kind, v, y.cls, d.slc.cycle⟩ d1 else d1
    let d3 := if changed then postClass k node x.cls y.cls d2 else d2
    let d4 := if changed && y.cls.isTrip then takeTrip p.action node d3 else d3
    handSample k node kind y.cls changed d4

/-- A sample of slot `k`. One of quality INVALID or SENSOR_FAULT changes nothing (R32). -/
def channelSample (k node : Nat) (kind : ChannelKind) (limit : Option Nat) (x : Sample) (d : Part) :
    Part :=
  match x with
  | .good v => goodSample k node kind limit v d
  | .invalid => d
  | .sensorFault => d

/-- A slot-missed notice for slot `k` (R33). -/
def missNotice (k node : Nat) (kind : ChannelKind) (limit : Option Nat) (d : Part) : Part :=
  match entry d.tlf.channels k with
  | none => d
  | some x =>
    let n := satInc x.miss
    if x.cls ≠ .unseen ∧ x.cls ≠ .stale ∧ (paramsOf d kind limit).staleLimit ≤ n then
      handClass k node kind .stale
        (postClass k node x.cls .stale
          (putChannel k
            { x with cls := .stale, candidate := none, count := 0, miss := n } d))
    else putChannel k { x with miss := n } d

/-- An accepted change of Limit Table entry `n` from `old` to `new` reaches the channel of slot `k`
(R25). -/
def limitChanged (old new : Option LimitEntry) (k node : Nat) (kind : ChannelKind) (d : Part) :
    Part :=
  if old.isSome = new.isSome then
    match entry d.tlf.channels k with
    | some x => putChannel k { x with candidate := none, count := 0 } d
    | none => d
  else restartChannel k node kind d

end Sys2Proof.Machine
end

