-- ==== Sys2Proof/Machine/Slc.lean ====
section
/-! DEFINITION. The Shelf Link Controller (01): the cycle (R1), making the written map active (R5, R6),
outbound controls (R17, R18, R21), inbound cells (R8 to R12), acknowledgement (R19, R20), missed slots
(R11) and silence (R13). -/

namespace Sys2Proof.Machine

/-- The begin values of an Outbound Slot record (R15). -/
def OutRecord.begin : OutRecord :=
  ⟨none, none, 0, false, 0, 0, none, false, none, false⟩

/-! ## The millisecond -/

/-- A running timer counts one millisecond down, stopping at 0. -/
def Timer.tick : Timer → Timer
  | .running n => .running (n - 1)
  | t => t

/-- The branch timer counts. -/
def tickBranch : Option Branch → Option Branch
  | some x => some { x with timer := x.timer.tick }
  | none => none

/-- t_batt counts while an episode is under way, up to 4,294,967,295 (R86). -/
def Sru.countBatt (s : Sru) : Nat :=
  if s.tBattCounts then min 4294967295 (s.tBatt + 1) else s.tBatt

/-- One millisecond passes for every timer of the part and for t_batt; DEDUCED: at the cycle start
(log 3). -/
def tick (d : Part) : Part :=
  { d with
    bcu.branches := d.bcu.branches.map tickBranch
    bcu.spacing := d.bcu.spacing.tick
    sru.qualTimer := d.sru.qualTimer.tick
    sru.stableTimer := d.sru.stableTimer.tick
    sru.capTimer := d.sru.capTimer.tick
    sru.evalTimer := d.sru.evalTimer.tick
    sru.tBatt := d.sru.countBatt
    sqe.timer := d.sqe.timer.tick }

/-! ## Cycle start -/

/-- The record of a slot that an OUT entry begins (R6). -/
def outBegin : Option SlotEntry → Option OutRecord
  | some (.output _) => some OutRecord.begin
  | _ => none

/-- The Channel State record of a slot that an IN entry begins (R5). -/
def channelBegin : Option SlotEntry → Option ChannelState
  | some (.input _ _ _) => some ChannelState.begin
  | _ => none

/-- What the end or the restart of the channel of an IN entry brings about (R5, R35, R140): the branch
of a BR_POWER channel loses its freshness and the points of an LK_LEVEL channel begin afresh. The SRU
derives its modules once for the whole map, in `activate`; DESIGN CHOICE (log 28). -/
def endChannel (k : Nat) (old : Option SlotEntry) (d : Part) : Part :=
  match old with
  | some (.input node kind _) =>
    match kind with
    | .brPower => setFreshness node false d
    | .lkLevel => pointsUnseen node k d
    | _ => d
  | _ => d

/-- Slot `k` changes from `old` to `new` (R5, R6). -/
def changeSlot (k : Nat) (old new : Option SlotEntry) (d : Part) : Part :=
  if old = new then d
  else
    endChannel k old { d with
      tlf.channels := d.tlf.channels.set k (channelBegin new)
      slc.out := d.slc.out.set k (outBegin new) }

/-- Do something for every slot in ascending order. Where no rule orders what one event does in several
slots, that is the model's order; DESIGN CHOICE (log 27). -/
def forSlots (f : Nat → Part → Part) (d : Part) : Part :=
  (List.range 96).foldl (fun d k => f k d) d

/-- The written Slot Map becomes active (R5, R6). The slots change in ascending number, the BCU and the LKM
acting on each, and the SRU then derives its modules once for all of them. R5, R35 and R74 say neither in
which order the channels of one map restart nor whether the SRU acts after each; DESIGN CHOICE (log 28). -/
def activate (d : Part) : Part :=
  let old := d.slc.active
  let new := d.slc.written
  if old = new then d
  else
    deriveModules
      (forSlots (fun k => changeSlot k (entry old k) (entry new k))
        { d with slc.active := new })

/-- What a cycle start makes of one Outbound Slot record. -/
inductive Treatment where
  /-- R18: left unchanged -/
  | left
  /-- R18: settled without sending; the outcome owed is ACK -/
  | merged
  /-- R17: a new control is sent -/
  | sent
  /-- R21: still waiting for acknowledgement -/
  | waiting
  /-- R21: sent again -/
  | again
  /-- R21: given up -/
  | givenUp
deriving DecidableEq, Repr

/-- How R17, R18 and R21 treat a record under an ack_window and a retry_limit. R21 says "below" and "equals";
a record whose retries used already exceed a lowered retry_limit is given up. DESIGN CHOICE (log 26). -/
def OutRecord.treatment (window limit : Nat) (r : OutRecord) : Treatment :=
  match r.staged with
  | none => .left
  | some v =>
    if r.live ≠ some v then .sent
    else if r.awaiting = false then (if r.owed then .merged else .left)
    else if r.cyclesSince + 1 < window then .waiting
    else if r.retries < limit then .again
    else .givenUp

/-- The record after its treatment. -/
def OutRecord.after (r : OutRecord) : Treatment → OutRecord
  | .left => { r with firstSent := false }
  | .merged => { r with firstSent := false, owed := false }
  | .sent => { r with
      live := r.staged, seq := r.seq + 1, retries := 0, cyclesSince := 0, awaiting := true
      firstSent := true }
  | .waiting => { r with firstSent := false, cyclesSince := r.cyclesSince + 1 }
  | .again => { r with firstSent := false, cyclesSince := 0, retries := r.retries + 1 }
  | .givenUp => { r with
      firstSent := false, cyclesSince := r.cyclesSince + 1, awaiting := false
      staged := none, live := none, owed := false }

/-- The cell that a record sends in slot `k` in the cycle of its treatment. -/
def OutRecord.cell (r : OutRecord) (k node : Nat) : Treatment → List OutCell
  | .sent => match r.staged with
    | some v => [⟨k, node, v, r.seq + 1⟩]
    | none => []
  | .again => match r.staged with
    | some v => [⟨k, node, v, r.seq⟩]
    | none => []
  | _ => []

/-- The last writer is told the outcome that it is owed. -/
def tellWriter (r : OutRecord) (node : Nat) (o : Delivery) (d : Part) : Part :=
  if r.owed then
    match r.lastWriter with
    | some w => signal (.outcome w r.forBranch node o) d
    | none => d
  else d

/-- Store an Outbound Slot record. -/
def putOut (k : Nat) (r : OutRecord) (d : Part) : Part :=
  { d with slc.out := d.slc.out.set k (some r) }

/-- The counters and notices of a treatment (R18, R21, R22). -/
def concludeOut (r : OutRecord) (node : Nat) (t : Treatment) (d : Part) : Part :=
  match t with
  | .left => d
  | .merged => tellWriter r node .ack d
  | .sent => d
  | .waiting => d
  | .again => { d with slc.retries := satInc d.slc.retries }
  | .givenUp => tellWriter r node .noAck { d with slc.noAcks := satInc d.slc.noAcks }

/-- The treatment of slot `k` at a cycle start. -/
def treatOut (k : Nat) (d : Part) : Part :=
  match entry d.slc.active k, entry d.slc.out k with
  | some (.output node), some r =>
    let t := r.treatment d.sru.profile.ackWindow d.sru.profile.retryLimit
    let d1 := putOut k (r.after t) d
    concludeOut r node t { d1 with slc.sending := d1.slc.sending ++ r.cell k node t }
  | _, _ => d

/-- A cycle start (R1): one millisecond passes, the counter advances, the written map becomes active
and every Outbound Slot record is treated. No rule orders the treatments, and so the outcomes that
they tell: they come in ascending slot; DESIGN CHOICE (log 27). -/
def startCycle (d : Part) : Part :=
  let d1 := tick d
  forSlots treatOut
    (activate { d1 with
      slc.cycle := d1.slc.cycle + 1, slc.satisfied := [], slc.sending := [] })

/-! ## Inbound cells -/

/-- The SLC finds the node of an accepted cell alive (R12). -/
def hearNode (node : Nat) (d : Part) : Part :=
  let old := (d.nodeRecord node).state
  let d1 := { d with
    slc.nodes := d.slc.nodes.set (node - 1) ⟨.live, some d.slc.cycle⟩ }
  match old with
  | .live => d1
  | .unheard => deriveModules d1
  | .silent => deriveModules (post .nodeLive (some node) none d1)

/-- Deliveries of a sample to the BCU and the LKM (R10). BR_POWER freshness is the TLF's class. -/
def deliverSample (k node : Nat) (kind : ChannelKind) (x : Sample) (d : Part) : Part :=
  match kind, x with
  | .brStatus, .good v =>
    match d.branchAt node with
    | some b => switchReading b v d
    | none => d
  | .brPower, .good v =>
    powerReading node v (((entry d.tlf.channels k).map (·.cls)).getD .unseen) d
  | .lkLevel, x => levelSample node k x d
  | _, _ => d

/-- An echo in slot `k` for the record of OUT slot `j` (R19, R20): it acknowledges a control that was
sent before it, or sets the sequence number of a record that awaits none. -/
def echoRecord (k j node : Nat) (echo : BitVec 2) (r : OutRecord) (d : Part) : Part :=
  if r.awaiting then
    if echo = r.seq ∧ (r.firstSent = false ∨ j < k) then
      if r.staged = r.live then
        tellWriter r node .ack (putOut j { r with awaiting := false, owed := false } d)
      else putOut j { r with awaiting := false } d
    else d
  else putOut j { r with seq := echo } d

/-- A status-channel cell is examined for acknowledgement (R19, R20). -/
def readEcho (k node : Nat) (kind : ChannelKind) (echo : BitVec 2) (d : Part) : Part :=
  if kind.isStatus then
    match d.outSlot node with
    | some j => match entry d.slc.out j with
      | some r => echoRecord k j node echo r d
      | none => d
    | none => d
  else d

/-- A slot is satisfied by a GOOD cell (R11). -/
def noteSatisfied (k : Nat) (x : Sample) (d : Part) : Part :=
  match x with
  | .good _ => if k ∈ d.slc.satisfied then d
      else { d with slc.satisfied := d.slc.satisfied ++ [k] }
  | _ => d

/-- An accepted cell (R8 to R12, R19, R20). The SRU derives from a change of the node's state (R12) before it
is handed the sample (R35), which no rule orders; DESIGN CHOICE (log 30). The sample is delivered, to the
TLF and then to the BCU or the LKM, before the echo of a status cell is examined; R10 leaves the deliveries
unordered and no rule orders them against R19, so that a value which the BCU stages at this cell is the
staged value when the echo is read; DESIGN CHOICE (log 34). -/
def acceptCell (k node : Nat) (kind : ChannelKind) (limit : Option Nat) (q : Quality)
    (c : InCell) (d : Part) : Part :=
  let x := sampleOf kind q c.value
  let d1 := noteSatisfied k x (hearNode node d)
  let d2 := channelSample k node kind limit x d1
  readEcho k node kind (cellEcho c) (deliverSample k node kind x d2)

/-- What becomes of a cell received in a slot (R8). -/
inductive CellFate where
  | ignored
  | checkError
  | misplaced
  | accepted (node : Nat) (kind : ChannelKind) (limit : Option Nat) (q : Quality)
deriving DecidableEq, Repr

/-- The tests of R8 in order. -/
def cellFate (e : Option SlotEntry) (c : InCell) : CellFate :=
  match e with
  | some (.input node kind limit) =>
    match Quality.ofCode (cellQuality c) with
    | none => .checkError
    | some q =>
      if crc8 (cellCovered c) ≠ c.check then .checkError
      else if c.node.toNat ≠ node ∨ ChannelKind.ofCode c.kind.toNat ≠ some kind then .misplaced
      else .accepted node kind limit q
  | _ => .ignored

/-- A cell received in slot `k` (R8). -/
def receiveCell (k : Nat) (c : InCell) (d : Part) : Part :=
  match cellFate (entry d.slc.active k) c with
  | .ignored => d
  | .checkError => { d with slc.checkErrors := satInc d.slc.checkErrors }
  | .misplaced => { d with slc.misplaced := satInc d.slc.misplaced }
  | .accepted node kind limit q => acceptCell k node kind limit q c d

/-! ## Cycle end -/

/-- The slot-missed notice of slot `k`, if it is an IN entry that was not satisfied (R11). -/
def noticeSlot (k : Nat) (d : Part) : Part :=
  match entry d.slc.active k with
  | some (.input node kind limit) =>
    if k ∈ d.slc.satisfied then d else missNotice k node kind limit d
  | _ => d

/-- Whether a record is found silent (R13): cycle numbers are compared modulo 2^32. -/
def NodeRecord.isSilent (r : NodeRecord) (now : Cycle) (silence : Nat) : Bool :=
  match r.state, r.lastHeard with
  | .live, some h => decide (silence ≤ (now - h).toNat)
  | _, _ => false

/-- The silence test of a node (R13). -/
def testNode (node : Nat) (d : Part) : Part :=
  let r := d.nodeRecord node
  if r.isSilent d.slc.cycle d.sru.profile.nodeSilence then
    deriveModules (post .nodeSilent (some node) none
      { d with slc.nodes := d.slc.nodes.set (node - 1) { r with state := .silent } })
  else d

/-- A cycle end (R1): the slot-missed notices (R11), then the silence test of every node (R13). No rule orders
the notices among themselves, nor the tests: notices come in ascending slot, tests in ascending node;
DESIGN CHOICE (log 27). -/
def endCycle (d : Part) : Part :=
  (List.range 62).foldl (fun d i => testNode (i + 1) d) (forSlots noticeSlot d)

end Sys2Proof.Machine
end

