-- ==== Sys2Proof/Machine/Tables.lean ====
section
/-! DEFINITION. Table access (09): banks and placement (R169, R171), the owning blocks' checks and effects
of one record (R4, R24, R25, R46, R72, R75, R92, R93, R117, R137, R141), and the whole write (R170,
R172, R173). -/

namespace Sys2Proof.Machine

/-! ## Banks -/

/-- Entries of a table (R169). -/
def tableSize : TableId → Nat
  | .slotMap => 96
  | .limit => 48
  | .rectifier => 8
  | .battery => 6
  | .branch => 36
  | .sequence => 64
  | .leakPoint => 16
  | .leakZone => 8
  | .profile => 1

/-- Banks of a table (R169). -/
def bankCount (t : TableId) : Nat := (tableSize t + 15) / 16

/-- The place of a table's bank 0 among the 21 protection flags, in the order of R169. -/
def bankOffset : TableId → Nat
  | .slotMap => 0
  | .limit => 6
  | .rectifier => 9
  | .battery => 10
  | .branch => 11
  | .sequence => 14
  | .leakPoint => 18
  | .leakZone => 19
  | .profile => 20

/-- Whether the bank of an entry is protected (R176). -/
def bankProtected (t : TableId) (n : Nat) (d : Part) : Bool :=
  d.prot.flags[bankOffset t + n / 16]?.getD false

/-- The entry to which record `j` of a write goes (R171). -/
def placeOf (t : TableId) (start j : Nat) : Nat :=
  let base := 16 * (start / 16)
  base + (start - base + j) % min 16 (tableSize t - base)

/-! ## One record -/

/-- The owning block's answer to a record: accepted, accepted with a field clamped or stored as its
default, or refused with a status and a field index (R172). -/
inductive Verdict where
  | accepted
  | clamped (field : Nat)
  | refused (status : Status) (field : Option Nat)
deriving DecidableEq, Repr

/-- Another entry than `n` satisfies `f`. -/
def otherEntry {α : Type} (l : List (Option α)) (n : Nat) (f : α → Bool) : Bool :=
  (List.range l.length).any fun i => i != n && (match entry l i with
    | some x => f x
    | none => false)

/-- A Slot Map record (R4): it changes the written map. -/
def writeSlot (n : Nat) (ws : List Word) (d : Part) : Part × Verdict :=
  match parseSlot ws with
  | .error f => (d, .refused .range (some f))
  | .ok e =>
    let d' := { d with slc.written := d.slc.written.set n e }
    match e with
    | none => (d', .accepted)
    | some (.input node kind _) =>
      if otherEntry d.slc.written n (fun x => match x with
          | .input m k _ => m == node && k == kind
          | .output _ => false)
      then (d, .refused .conflict (some 3)) else (d', .accepted)
    | some (.output node) =>
      if otherEntry d.slc.written n (· == .output node)
      then (d, .refused .conflict (some 2)) else (d', .accepted)

/-- A changed Limit Table entry reaches slot `k` if its active entry refers to it (R25). What its owner does
with a restarted channel is done before the next slot is reached; DESIGN CHOICE (log 28). -/
def limitReaches (n : Nat) (old new : Option LimitEntry) (k : Nat) (d : Part) : Part :=
  match entry d.slc.active k with
  | some (.input node kind (some m)) =>
    if m = n then limitChanged old new k node kind d else d
  | _ => d

/-- A Limit Table record (R24, R25). The channels that refer to the entry are reached in ascending slot;
DESIGN CHOICE (log 28). -/
def writeLimit (n : Nat) (ws : List Word) (d : Part) : Part × Verdict :=
  match parseLimit ws with
  | .error f => (d, .refused .range (some f))
  | .ok e =>
    let old := entry d.tlf.limits n
    if e = old then (d, .accepted)
    else
      (forSlots (limitReaches n old e) { d with tlf.limits := d.tlf.limits.set n e }, .accepted)

/-- A Rectifier Table entry that becomes valid starts a qualification timer that expired on an empty
table again (R80). -/
def requalify (d : Part) : Part :=
  if d.sru.source = .unknown ∧ d.sru.qualTimer = .stopped then
    { d with sru.qualTimer := .running d.sru.profile.qualMs }
  else d

/-- What follows an accepted change of Rectifier Table entry `n` (R72, R74): its state is derived, C is
recomputed, the AC conditions are examined, and the source may qualify (R80). A record that empties the
entry derives no state, but may end a wait of SOURCE_UNKNOWN by taking the last ABSENT rectifier out of the
table; R80 speaks of a derivation, and the model takes this event as one. DESIGN CHOICE (log 35). -/
def rectChanged (n : Nat) (d : Part) : Part :=
  qualifyIfHeard (examineAc (recomputeCapacity (deriveRect n d)))

/-- A Rectifier Table record (R72). An entry that becomes valid holds ABSENT before its first
derivation; DEDUCED (log 24). -/
def writeRect (n : Nat) (ws : List Word) (d : Part) : Part × Verdict :=
  match parseRect ws with
  | .error f => (d, .refused .range (some f))
  | .ok none =>
    if (entry d.sru.rects n).isNone then (d, .accepted)
    else (rectChanged n { d with sru.rects := d.sru.rects.set n none }, .accepted)
  | .ok (some (node, rated)) =>
    if otherEntry d.sru.rects n (·.node == node) then (d, .refused .conflict (some 1))
    else match entry d.sru.rects n with
      | none =>
        (rectChanged n (requalify
          { d with sru.rects := d.sru.rects.set n (some ⟨node, rated, .absent⟩) }), .accepted)
      | some r =>
        if r.node = node ∧ r.ratedW = rated then (d, .accepted)
        else
          (rectChanged n
            { d with sru.rects := d.sru.rects.set n (some ⟨node, rated, r.state⟩) }, .accepted)

/-- A Battery Table record (R75). -/
def writeBatt (n : Nat) (ws : List Word) (d : Part) : Part × Verdict :=
  match parseBatt ws with
  | .error f => (d, .refused .range (some f))
  | .ok none => ({ d with sru.batts := d.sru.batts.set n none }, .accepted)
  | .ok (some node) =>
    if otherEntry d.sru.batts n (·.node == node) then (d, .refused .conflict (some 1))
    else
      let old := ((entry d.sru.batts n).map (·.state)).getD .absent
      if entry d.sru.batts n = some ⟨node, old⟩ then (d, .accepted)
      else
        (deriveBatt n { d with sru.batts := d.sru.batts.set n (some ⟨node, old⟩) }, .accepted)

/-- A rewritten branch (R46): the derived holds follow the new zone and tier, and a new switch node
makes the branch UNKNOWN without a reading, which is no UNKNOWN of a reset (R100). -/
def Branch.rewritten (d : Part) (x : Branch) (c : BranchCfg) : Branch :=
  let y := { x with cfg := c }.derived d
  if c.node = x.cfg.node then y else
    { y with state := .unknown, reading := none, fresh := false, moved := true }

/-- The stages made for branch `n` are for no branch any more: R59 ignores the outcome of a stage whose
branch has since been emptied or given another switch node. -/
def forgetStages (n : Nat) (d : Part) : Part :=
  { d with slc.out := d.slc.out.map (Option.map (OutRecord.forget n)) }

/-- The effects of an accepted change of a valid branch's fields (R46): the output rule acts once, a
lowered rated_w is an attempt event, and a new switch node ends what was staged for the branch
(R59). -/
def rewriteBranch (n : Nat) (x : Branch) (c : BranchCfg) (d : Part) : Part :=
  let d1 := if c.node = x.cfg.node then d else forgetStages n d
  let d2 := applyOutput n x (x.rewritten d1 c) d1
  if c.ratedW < x.cfg.ratedW then signalOnce .attempt d2 else d2

/-- A Branch Table record (R46). Where a record changes both the switch node of a branch that is not OFF and
the zone of one that carries LEAK, two fields meet an IN_USE condition and R172 gives one field index: the
model gives that of the switch node, the first in record order. DESIGN CHOICE (log 37). -/
def writeBranch (n : Nat) (ws : List Word) (d : Part) : Part × Verdict :=
  match parseBranch ws with
  | .error f => (d, .refused .range (some f))
  | .ok none =>
    match d.branch n with
    | none => (d, .accepted)
    | some x =>
      if x.state ≠ .off then (d, .refused .inUse none)
      else
        (signalOnce .branches
          (forgetStages n { d with bcu.branches := d.bcu.branches.set n none }), .accepted)
  | .ok (some c) =>
    if otherEntry d.bcu.branches n (·.cfg.node == c.node) then (d, .refused .conflict (some 1))
    else match d.branch n with
      | none => (putBranch n (Branch.begin d c) d, .accepted)
      | some x =>
        if c.node ≠ x.cfg.node ∧ x.state ≠ .off then (d, .refused .inUse (some 1))
        else if c.zone ≠ x.cfg.zone ∧ x.holds.leak then (d, .refused .inUse (some 3))
        else if c = x.cfg then (d, .accepted)
        else (rewriteBranch n x c d, .accepted)

/-- A Sequence Table record (R117). No record is accepted while a run is under way; DEDUCED for one
with valid = no (log 23). -/
def writeStep (n : Nat) (ws : List Word) (d : Part) : Part × Verdict :=
  match parseStep ws with
  | .error f => (d, .refused .range (some f))
  | .ok e =>
    if d.sqe.underWay then (d, .refused .inUse none)
    else ({ d with sqe.steps := d.sqe.steps.set n e }, .accepted)

/-- Whether a zone's latched state is other than CLEAR. -/
def zoneBusy (d : Part) (z : Nat) : Bool := (d.zone z).state != .clear

/-- A Leak Point Table record (R137). -/
def writePoint (n : Nat) (ws : List Word) (d : Part) : Part × Verdict :=
  let old := entry d.lkm.points n
  let oldBusy := match old with
    | some p => zoneBusy d p.cfg.zone
    | none => false
  let examineOld := fun (d : Part) => match old with
    | some p => examineZone p.cfg.zone d
    | none => d
  match parsePoint ws with
  | .error f => (d, .refused .range (some f))
  | .ok none =>
    if oldBusy then (d, .refused .inUse none)
    else (examineOld { d with lkm.points := d.lkm.points.set n none }, .accepted)
  | .ok (some c) =>
    if otherEntry d.lkm.points n (fun p => p.cfg.node == c.node && p.cfg.slot == c.slot) then
      (d, .refused .conflict (some 1))
    else if oldBusy || zoneBusy d c.zone then (d, .refused .inUse none)
    else if old.map (·.cfg) = some c then (d, .accepted)
    else
      (examineZone c.zone
        (examineOld { d with lkm.points := d.lkm.points.set n (some ⟨c, .unseen, 0⟩) }), .accepted)

/-- A Leak Zone Table record (R141). The DEGRADED indication of a zone that is emptied is cleared
without a record; DESIGN CHOICE (log 17). -/
def writeZone (z : Nat) (ws : List Word) (d : Part) : Part × Verdict :=
  match parseZone ws with
  | .error f => (d, .refused .range (some f))
  | .ok e =>
    if zoneBusy d z then (d, .refused .inUse none)
    else if e = (d.zone z).cfg then (d, .accepted)
    else
      let x := d.zone z
      let d1 := putZone z { x with cfg := e, degraded := e.isSome && x.degraded } d
      (examineLine (examineZone z d1), .accepted)

/-- The effects of changed Power Profile fields (R93), from `old` to the profile now held. -/
def profileChanged (old : Profile) (d : Part) : Part :=
  let new := d.sru.profile
  let d1 := if new.redundancy = old.redundancy then d else recomputeCapacity d
  let d2 := if new.minRect = old.minRect then d1 else examineAc d1
  let d3 := if new.floor = old.floor then d2 else deriveBatts d2
  let d4 := if new.overheadW < old.overheadW then signalOnce .attempt d3 else d3
  if new.leakLineZone = old.leakLineZone then d4 else examineLine d4

/-- A Power Profile record (R92, R93, R173): never refused for its values. -/
def writeProfile (ws : List Word) (d : Part) : Part × Verdict :=
  let (p, f) := parseProfile ws
  let d1 := profileChanged d.sru.profile { d with sru.profile := p }
  match f with
  | some i => (d1, .clamped i)
  | none => (d1, .accepted)

/-- One record handed to the block that owns the table (R172). -/
def applyRecord (t : TableId) (n : Nat) (ws : List Word) (d : Part) : Part × Verdict :=
  match t with
  | .slotMap => writeSlot n ws d
  | .limit => writeLimit n ws d
  | .rectifier => writeRect n ws d
  | .battery => writeBatt n ws d
  | .branch => writeBranch n ws d
  | .sequence => writeStep n ws d
  | .leakPoint => writePoint n ws d
  | .leakZone => writeZone n ws d
  | .profile => writeProfile ws d

/-! ## Answers -/

/-- What a request is answered: its status and residual, the particulars that a status other than DONE
leaves in the Fault Detail record (R159), the notes and the result. -/
structure Answer where
  status : Status
  residual : Nat
  entryIndex : Option Nat
  fieldIndex : Option Nat
  held : Bool
  superseded : Bool
  result : List Byte
deriving DecidableEq, Repr

/-- DONE with a result. -/
def Answer.done (result : List Byte) : Answer := ⟨.done, 0, none, none, false, false, result⟩

/-- A refusal with its entry and field index. -/
def Answer.refuse (s : Status) (e f : Option Nat) (residual : Nat) : Answer :=
  ⟨s, residual, e, f, false, false, []⟩

/-! ## The whole write -/

/-- Apply the records of a write in order (R172); `j` records have been applied, and `clamp` is the first
field clamped so far. Each accepted record takes its effect before the next. -/
def applyRecords (t : TableId) (start : Nat) :
    Nat → Option Nat → List (List Word) → Part → Part × Answer
  | _, none, [], d => (d, Answer.done [])
  | _, some f, [], d => (d, Answer.refuse .clamped (some 0) (some f) 0)
  | j, clamp, ws :: rest, d =>
    match applyRecord t (placeOf t start j) ws d with
    | (d', .accepted) => applyRecords t start (j + 1) clamp rest (settleAll d')
    | (d', .clamped f) =>
      applyRecords t start (j + 1) (some (clamp.getD f)) rest (settleAll d')
    | (d', .refused s f) =>
      (d', Answer.refuse s (some (placeOf t start j)) f (rest.length + 1))

/-- The source states in which a Power Profile write is accepted (R93). -/
def SourceState.allowsProfile : SourceState → Bool
  | .unknown => true
  | .onAc => true
  | _ => false

/-- WRITE TABLE (R170 to R173). -/
def writeTable (table start : Word) (words : List Word) (d : Part) : Part × Answer :=
  match TableId.ofCode table.toNat with
  | none => (d, Answer.refuse .range none (some 0) 0)
  | some t =>
    match recordsOf t words with
    | none => (d, Answer.refuse .badRequest none none 0)
    | some recs =>
      let n := start.toNat
      if tableSize t ≤ n then (d, Answer.refuse .range (some n) (some 1) recs.length)
      else if bankProtected t n d then (d, Answer.refuse .isProtected (some n) none recs.length)
      else if t = .profile ∧ d.sru.source.allowsProfile = false then
        (d, Answer.refuse .notAllowed (some 0) none recs.length)
      else applyRecords t n 0 none recs d

/-- Entry `n` of a table as its record (R174, R181). -/
def readEntry (t : TableId) (n : Nat) (d : Part) : List Word :=
  match t with
  | .slotMap => slotWords (entry d.slc.written n)
  | .limit => limitWords (entry d.tlf.limits n)
  | .rectifier => rectWords (entry d.sru.rects n)
  | .battery => battWords (entry d.sru.batts n)
  | .branch => branchWords (d.branch n)
  | .sequence => stepWords (entry d.sqe.steps n)
  | .leakPoint => pointWords (entry d.lkm.points n)
  | .leakZone => zoneWords (d.zone n).cfg
  | .profile => profileWords d.sru.profile

end Sys2Proof.Machine
end

