-- ==== Sys2Proof/Machine/Requests.lean ====
section
/-! DEFINITION. The meaning of each request at its execution (08, 09 and the rules of the owning
blocks): the part it leaves and the answer it earns. -/

namespace Sys2Proof.Machine

/-! ## Requests on a branch -/

/-- The checks that BRANCH REQUEST and BRANCH CLEAR share (R51, R52): the number, then the entry. -/
def withBranch (branch : Word) (d : Part) (f : Nat → Branch → Part × Answer) : Part × Answer :=
  let b := branch.toNat
  if 36 ≤ b then (d, Answer.refuse .range (some b) (some 0) 0)
  else match d.branch b with
    | none => (d, Answer.refuse .notAllowed (some b) none 0)
    | some x => f b x

/-- What the three actions of BRANCH REQUEST make of a branch's demands and holds (R51); codes ON 0,
OFF 1, RELEASE 2. -/
def branchAction (action : Nat) (x : Branch) : Branch :=
  { x with
    demands := { x.demands with ctrl := action == 0 }
    holds := { x.holds with forceOff := action == 1 } }

/-- Whether branch `b` carries a hold. -/
def carriesHold (b : Nat) (d : Part) : Bool :=
  match d.branch b with
  | some x => x.holds.any
  | none => false

/-- BRANCH REQUEST (R51). -/
def doBranchRequest (branch action : Word) (d : Part) : Part × Answer :=
  if 3 ≤ action.toNat then (d, Answer.refuse .badRequest (some branch.toNat) (some 1) 0)
  else withBranch branch d fun b _ =>
    let d' := changeBranch b (branchAction action.toNat) d
    (d', { Answer.done [] with held := carriesHold b d' })

/-- BRANCH CLEAR (R52). -/
def doBranchClear (branch : Word) (d : Part) : Part × Answer :=
  withBranch branch d fun b _ => (branchClear b d, Answer.done [])

/-- The place of a branch in the Admission Queue, from 1 (R63). -/
def queuePosition (b : Nat) (d : Part) : Option Nat := (d.bcu.queue.idxOf? b).map (· + 1)

/-- The translation record of a branch (R175): one word for each field (R180). -/
def locateWords (b : Nat) (x : Branch) (d : Part) : List Word :=
  [natWord x.cfg.node, optWord (d.inSlot x.cfg.node .brStatus),
   optWord (d.inSlot x.cfg.node .brPower), optWord (d.outSlot x.cfg.node),
   natWord (x.cfg.zone.getD 8), natWord x.cfg.tier, natWord x.cfg.group, natWord x.state.code,
   natWord x.demands.code, natWord x.holds.code, natWord (flag x.foundFaulted),
   optWord x.enrolling, optWord (queuePosition b d)]

/-- LOCATE BRANCH (R175). -/
def doLocate (branch : Word) (d : Part) : Part × Answer :=
  withBranch branch d fun b x => (d, Answer.done ((locateWords b x d).flatMap wordBytes))

/-! ## Requests on the run -/

/-- A sequence request that is allowed or refused with NOT_ALLOWED. -/
def ifAllowed (c : Bool) (f : Part → Part) (d : Part) : Part × Answer :=
  if c then (f d, Answer.done []) else (d, Answer.refuse .notAllowed none none 0)

/-- SEQUENCE START (R131). -/
def doStart (d : Part) : Part × Answer :=
  ifAllowed (!d.sqe.underWay && d.sru.source == .onAc) startRun d

/-- SEQUENCE SUSPEND (R129). -/
def doSuspend (d : Part) : Part × Answer :=
  ifAllowed d.sqe.underWay (fun d => setCauses { d.sqe.causes with request := true } d) d

/-- SEQUENCE RESUME (R129). -/
def doResume (d : Part) : Part × Answer :=
  ifAllowed d.sqe.underWay (fun d => setCauses { d.sqe.causes with request := false } d) d

/-- SEQUENCE ABORT (R132). -/
def doAbort (d : Part) : Part × Answer :=
  ifAllowed (d.sqe.underWay || d.sqe.run == .halted) abortRun d

/-! ## Requests on a zone -/

/-- The checks and the answer that LEAK ACK and LEAK CLEAR share (R146, R147). -/
def withZone (zone : Word) (f : Nat → Part → Part × Status) (d : Part) : Part × Answer :=
  let z := zone.toNat
  if 8 ≤ z then (d, Answer.refuse .range (some z) (some 0) 0)
  else match f z d with
    | (d', .done) => (d', Answer.done [])
    | (d', s) => (d', Answer.refuse s (some z) none 0)

/-- LEAK ACK (R146). -/
def doLeakAck (zone : Word) (d : Part) : Part × Answer := withZone zone leakAck d

/-- LEAK CLEAR (R147). -/
def doLeakClear (zone : Word) (d : Part) : Part × Answer := withZone zone leakClear d

/-! ## READ STATUS -/

/-- A figure in one byte. -/
def oneByte (n : Nat) : List Byte := [byteOf n]

/-- A zone's byte of the status record (R182). -/
def Zone.statusByte (z : Zone) : Byte :=
  byteOf (z.state.code + 4 * flag z.acked + 8 * flag z.degraded)

/-- The source and evaluation groups of the status record (R160, R182). -/
def statusSource (d : Part) : List Byte :=
  oneByte d.sru.source.code ++ oneByte (flag d.sru.depletedFlag) ++ fourBytes d.sru.tBatt ++
    fourBytes d.sru.capacity ++ fourBytes (committedLoad d) ++ optFourBytes d.sru.u ++
    optFourBytes d.sru.p ++ optTwoBytes d.sru.tProj ++ optTwoBytes d.sru.tGoal ++
    oneByte (flag d.sru.held) ++ [d.sru.battShed, d.sru.capShed]

/-- The sequence, admission and leak groups of the status record. -/
def statusRun (d : Part) : List Byte :=
  oneByte d.sqe.run.code ++ oneByte d.sqe.index ++ oneByte d.sqe.causes.code ++
    oneByte d.bcu.queue.length ++ oneByte (flag d.bcu.headBlocked) ++
    d.lkm.zones.map Zone.statusByte ++
    oneByte (flag d.lines.valveOut + 2 * flag d.lines.alertOut)

/-- The counters group of the status record. -/
def statusCounters (d : Part) : List Byte :=
  twoBytes d.slc.checkErrors ++ twoBytes d.slc.misplaced ++ twoBytes d.slc.retries ++
    twoBytes d.slc.noAcks ++ twoBytes d.tlf.drops ++ twoBytes d.rlp.eventOverflow ++
    twoBytes d.rlp.rxDiscards

/-- The features group of the status record. -/
def statusFeatures (d : Part) : List Byte :=
  oneByte d.rlp.features.readBlock ++ oneByte (flag d.rlp.features.clearTables) ++
    oneByte (flag d.rlp.features.forwarding) ++ oneByte d.rlp.features.wTel ++
    oneByte d.rlp.features.wRsp ++ oneByte (flag d.prot.frozen)

/-- The status record (R160, R182). -/
def statusRecord (d : Part) : List Byte :=
  fourBytes d.slc.cycle.toNat ++ statusSource d ++ statusRun d ++ statusCounters d ++
    statusFeatures d

/-- READ STATUS (R160): the lines are read at their levels. -/
def doReadStatus (d : Part) : Part × Answer := (d, Answer.done (statusRecord (refreshLines d)))

/-! ## SET FEATURE -/

/-- The value of a feature as its code (R163, R183); `none` for an identifier that names none. -/
def featureValue (f : Features) : Nat → Option Nat
  | 0 => some f.readBlock
  | 1 => some (flag f.clearTables)
  | 2 => some (flag f.forwarding)
  | 3 => some f.wTel
  | 4 => some f.wRsp
  | _ => none

/-- The features with one of them stored. -/
def Features.store (f : Features) (i v : Nat) : Features :=
  match i with
  | 0 => { f with readBlock := v }
  | 1 => { f with clearTables := v == 1 }
  | 2 => { f with forwarding := v == 1 }
  | 3 => { f with wTel := v }
  | 4 => { f with wRsp := v }
  | _ => f

/-- The least and greatest value of a feature (R163). -/
def featureRange (i : Nat) : Nat × Nat :=
  match i with
  | 0 => (1, 16)
  | 1 => (0, 1)
  | 2 => (0, 1)
  | _ => (1, 15)

/-- A feature whose out-of-range values are refused: SOFT_RESET_TABLES and FORWARDING. -/
def featureRefuses (i : Nat) : Bool := i == 1 || i == 2

/-- Store a feature. -/
def setFeatures (f : Features) (d : Part) : Part := { d with rlp.features := f }

/-- SET FEATURE (R163). The previous value is returned as one word; DESIGN CHOICE (log 25). A value clamped to
the one already held is answered CLAMPED; DESIGN CHOICE (log 32). The result
for an identifier that names no feature is left free; DESIGN CHOICE (log 14). -/
def doSetFeature (feature value : Word) (d : Part) : Part × Answer :=
  let i := feature.toNat
  let v := value.toNat
  match featureValue d.rlp.features i with
  | none =>
    (d, { Answer.refuse .range (some i) (some 0) 0 with
          result := Config.unknownFeatureResult feature })
  | some old =>
    let result := wordBytes (natWord old)
    let (lo, hi) := featureRange i
    if lo ≤ v ∧ v ≤ hi then
      (setFeatures (d.rlp.features.store i v) d, Answer.done result)
    else if featureRefuses i then
      (d, { Answer.refuse .range (some i) (some 1) 0 with result := result })
    else
      (setFeatures (d.rlp.features.store i (max lo (min hi v))) d,
        { Answer.refuse .clamped (some i) (some 1) 0 with result := result })

/-! ## GET DETAIL -/

/-- The six words of a Fault Detail record (R159, R180). -/
def FaultDetail.words (x : FaultDetail) : List Word :=
  [optWord (x.kind.map BitVec.toNat), x.tag, natWord x.status.code, optWord x.entry,
   optWord x.field, natWord x.residual]

/-- GET DETAIL (R159) on the copy of the record taken before it was discarded. -/
def doGetDetail (copy : Option FaultDetail) (d : Part) : Part × Answer :=
  match copy with
  | some x => (d, Answer.done (x.words.flatMap wordBytes))
  | none => (d, Answer.refuse .noDetail none none 0)

/-! ## Protection -/

/-- Set or clear the flags of the listed banks of a table. -/
def setBanks (t : TableId) (banks : List Nat) (v : Bool) (flags : List Bool) : List Bool :=
  banks.foldl (fun fs b => fs.set (bankOffset t + b) v) flags

/-- The first listed bank that the table does not have, with its place in the list (R176). -/
def badBank (t : TableId) (banks : List Nat) : Option (Nat × Nat) :=
  ((banks.zipIdx).find? fun x => bankCount t ≤ x.1)

/-- PROTECT and UNPROTECT (R176). -/
def doProtect (v : Bool) (table : Word) (banks : List Word) (d : Part) : Part × Answer :=
  let bs := banks.map BitVec.toNat
  if bs.length = 0 ∨ 21 < bs.length then (d, Answer.refuse .badRequest none none 0)
  else match TableId.ofCode table.toNat with
    | none => (d, Answer.refuse .range none (some 0) 0)
    | some t =>
      match badBank t bs with
      | some (b, i) => (d, Answer.refuse .range (some b) (some (i + 1)) 0)
      | none =>
        if d.prot.frozen then (d, Answer.refuse .frozen none none 0)
        else ({ d with prot.flags := setBanks t bs v d.prot.flags }, Answer.done [])

/-- FREEZE PROTECTION (R177). -/
def doFreeze (d : Part) : Part × Answer := ({ d with prot.frozen := true }, Answer.done [])

/-! ## NODE PASS -/

/-- The checks of NODE PASS in their order (R161): the refusal, if one applies. -/
def passRefusal (node : Nat) (d : Part) : Option Answer :=
  if isNode node = false then some (Answer.refuse .range (some node) (some 0) 0)
  else match d.outSlot node with
    | none => some (Answer.refuse .noRoute (some node) none 0)
    | some k =>
      if entry d.slc.written k ≠ some (.output node) then
        some (Answer.refuse .noRoute (some node) none 0)
      else if (d.branchAt node).isSome then some (Answer.refuse .owned (some node) none 0)
      else none

/-! ## Execution -/

/-- How a request that has executed goes on (R156): it has its answer, it reads a table, it waits for a
control delivery (R162), or its response is followed by a soft reset (R164). -/
inductive Reply where
  | answer (a : Answer)
  | read (table : TableId) (start count : Nat) (final : Answer)
  | pass (node : Nat)
  | reset
deriving DecidableEq, Repr

/-- A request that is answered at once. -/
def answered (r : Part × Answer) : Part × Reply := (r.1, .answer r.2)

/-- NODE PASS (R161): the value is staged as writer RLP. -/
def doNodePass (node value : Word) (d : Part) : Part × Reply :=
  match passRefusal node.toNat d with
  | some a => (d, .answer a)
  | none =>
    match stage .rlp none node.toNat value { d with rlp.passOutcome := none } with
    | (d', true) => (d', .answer (Answer.refuse .noAck (some node.toNat) none 0))
    | (d', false) => (d', .pass node.toNat)

/-- READ TABLE (R174). -/
def doReadTable (table start count : Word) (d : Part) : Part × Reply :=
  match TableId.ofCode table.toNat with
  | none => (d, .answer (Answer.refuse .range none (some 0) count.toNat))
  | some t =>
    let c := count.toNat
    let s := start.toNat
    if c < 1 ∨ 256 < c then (d, .answer (Answer.refuse .range none (some 2) c))
    else if tableSize t ≤ s then (d, .answer (Answer.refuse .range (some s) (some 1) c))
    else
      let n := min c (tableSize t - s)
      (d, .read t s n
        (if n = c then Answer.done []
         else Answer.refuse .endOfTable (some (tableSize t - 1)) none (c - n)))

/-- A request acts (R156, R158). `copy` is the Fault Detail record held before it began. -/
def execRequest (copy : Option FaultDetail) (q : Request) (d : Part) : Part × Reply :=
  match q with
  | .readStatus => answered (doReadStatus d)
  | .writeTable table start words => answered (writeTable table start words d)
  | .readTable table start count => doReadTable table start count d
  | .locateBranch branch => answered (doLocate branch d)
  | .branchRequest branch action => answered (doBranchRequest branch action d)
  | .branchClear branch => answered (doBranchClear branch d)
  | .sequenceStart => answered (doStart d)
  | .sequenceSuspend => answered (doSuspend d)
  | .sequenceResume => answered (doResume d)
  | .sequenceAbort => answered (doAbort d)
  | .leakAck zone => answered (doLeakAck zone d)
  | .leakClear zone => answered (doLeakClear zone d)
  | .nodePass node value => doNodePass node value d
  | .protect table banks => answered (doProtect true table banks d)
  | .unprotect table banks => answered (doProtect false table banks d)
  | .freezeProtection => answered (doFreeze d)
  | .setFeature feature value => answered (doSetFeature feature value d)
  | .getDetail => answered (doGetDetail copy d)
  | .reset => (d, .reset)
  | .bad _ => (d, .answer (Answer.refuse .badRequest none none 0))

end Sys2Proof.Machine
end

