-- ==== Sys2Proof/Machine/Rlp.lean ====
section
/-! DEFINITION. The Rack Link Port (08): the Request Queue and its head (R155 to R157, R162, R174), the
Fault Detail record (R159), the soft reset and the values after each reset (R164, R168, R178), and the
end of a transmission. -/

namespace Sys2Proof.Machine

/-! ## The head of the Request Queue -/

/-- The final response that an answer makes (R158). -/
def Answer.response (a : Answer) (tag : Word) : Response :=
  ⟨tag, a.status, a.residual, a.held, a.superseded, a.result, false⟩

/-- The DONE response of a RESET (R164). -/
def resetResponse (tag : Word) : Response := ⟨tag, .done, 0, false, false, [], true⟩

/-- The Fault Detail record that a status other than DONE leaves (R159). -/
def Answer.detail (a : Answer) (q : Queued) : FaultDetail :=
  ⟨q.req.kind, q.tag, a.status, a.entryIndex, a.fieldIndex, a.residual⟩

/-- An answer's final status is decided: any but DONE writes the Fault Detail record (R159). -/
def noteDetail (a : Answer) (q : Queued) (d : Part) : Part :=
  if a.status = .done then d else { d with rlp.detail := some (a.detail q) }

/-- The head of the Request Queue goes on as `p` says. -/
def setPhase (p : HeadPhase) (d : Part) : Part := { d with rlp.phase := p }

/-- A final answer of the head: its response waits for room (R156). -/
def answerHead (a : Answer) (q : Queued) (d : Part) : Part :=
  setPhase (.answering (a.response q.tag)) (noteDetail a q d)

/-- How the head goes on after it has acted (R156). The final status of a READ TABLE, END_OF_TABLE included, is
decided as the read begins, and its Fault Detail record is written then, before the first DATA message; no
rule fixes that moment (R159, R174). DESIGN CHOICE (log 36). -/
def replyHead (r : Reply) (q : Queued) (d : Part) : Part :=
  match r with
  | .answer a => answerHead a q d
  | .read t start count final =>
    setPhase (.reading t start count d.rlp.features.readBlock (final.response q.tag))
      (noteDetail final q d)
  | .pass node => setPhase (.passing node) d
  | .reset => setPhase (.answering (resetResponse q.tag)) d

/-- The head begins execution (R156): the Fault Detail record is discarded, a copy being taken before it
for GET DETAIL (R159); its effects land, with the hand-offs that they bring. -/
def beginHead (q : Queued) (d : Part) : Part :=
  let (d1, r) := execRequest d.rlp.detail q.req { d with rlp.detail := none }
  replyHead r q (settleAll d1)

/-- The head's final response is appended and the head leaves (R156). The RESET stays until the soft
reset (R164). -/
def appendFinal (r : Response) (d : Part) : Part :=
  if r.resets then appendResponse (.response r) (setPhase .resetting d)
  else
    appendResponse (.response r)
      (setPhase .fresh { d with rlp.requests := d.rlp.requests.drop 1 })

/-- The next DATA message of a read (R174). -/
def dataMessage (tag : Word) (t : TableId) (first count : Nat) (d : Part) : Uplink :=
  .data tag t first ((List.range count).map fun i => readEntry t (first + i) d)

/-- Append the next DATA message of the read at the head. -/
def appendData (t : TableId) (next left block : Nat) (final : Response) (d : Part) : Part :=
  let n := min block left
  appendResponse (dataMessage final.tag t next n d)
    (setPhase
      (if left ≤ n then .answering final else .reading t (next + n) (left - n) block final) d)

/-- One move of the head of the Request Queue, if it has one to make (R156). -/
def moveHead (d : Part) : Option Part :=
  match d.rlp.phase with
  | .fresh =>
    match d.rlp.requests with
    | [] => none
    | q :: _ => some (beginHead q d)
  | .answering r => if d.rlp.responses.length < 8 then some (appendFinal r d) else none
  | .reading t next left block final =>
    if d.rlp.responses.length < 8 then some (appendData t next left block final d) else none
  | .passing _ => none
  | .resetting => none

/-- The head moves as long as it can, at most `n` times. -/
def pump : Nat → Part → Part
  | 0, d => d
  | n + 1, d =>
    match moveHead d with
    | some d' => pump n d'
    | none => d

/-- At one event the queues leave room for at most 9 appends, and 5 requests can begin. -/
def pumpFuel : Nat := 64

/-- The head moves as far as it can. -/
def pumpAll (d : Part) : Part := pump pumpFuel d

/-- What the outcome of a NODE PASS answers (R162). -/
def passAnswer (node : Nat) : Delivery → Answer
  | .ack => Answer.done []
  | .noAck => Answer.refuse .noAck (some node) none 0
  | .superseded => { Answer.done [] with superseded := true }

/-- The outcome of the stage of a NODE PASS at the head completes it (R162). -/
def deliverPass (d : Part) : Part :=
  match d.rlp.phase, d.rlp.passOutcome, d.rlp.requests with
  | .passing node, some o, q :: _ =>
    pumpAll (answerHead (passAnswer node o) q { d with rlp.passOutcome := none })
  | _, _, _ => d

/-- The BUSY response to a request that was not queued (R155). -/
def busyResponse (tag : Word) : Uplink := .response ⟨tag, .busy, 0, false, false, [], false⟩

/-- One more downlink message has been discarded (R154, R155). -/
def discardRx (d : Part) : Part := { d with rlp.rxDiscards := satInc d.rlp.rxDiscards }

/-- A request has passed the receive check (R155). -/
def arrive (q : Queued) (d : Part) : Part :=
  match d.rlp.requests with
  | [] => pumpAll { d with rlp.requests := [q], rlp.phase := .fresh }
  | _ :: _ =>
    if d.rlp.requests.length < 4 then { d with rlp.requests := d.rlp.requests ++ [q] }
    else if d.rlp.responses.length < 8 then appendResponse (busyResponse q.tag) d
    else discardRx d

/-- A message arrives on the downlink (R154). -/
def receiveMessage (bytes : List Byte) (d : Part) : Part :=
  match receive bytes with
  | some q => arrive q d
  | none => discardRx d

/-! ## Resets -/

/-- Whether the table rule keeps an entry (R178). -/
def keptByRule (d : Part) (t : TableId) (n : Nat) : Bool :=
  !d.rlp.features.clearTables || bankProtected t n d

/-- A table after the table rule: an entry of a bank that is not kept is emptied. -/
def ruleTable {α : Type} (d : Part) (t : TableId) (l : List (Option α)) : List (Option α) :=
  l.mapIdx fun n e => if keptByRule d t n then e else none

/-- A zone after a soft reset (R152, R178): a latched zone keeps its entry, its state and its acked
flag. -/
def resetZone (d : Part) (z : Nat) (x : Zone) : Zone :=
  if x.state.latched then { x with degraded := false }
  else ⟨if keptByRule d .leakZone z then x.cfg else none, .clear, false, false⟩

/-- The Power Profile after the table rule. -/
def ruleProfile (d : Part) : Profile :=
  if keptByRule d .profile 0 then d.sru.profile else Profile.default

/-- The SLC after a soft reset (R7, R12, R22, R178). -/
def resetSlc (d : Part) : Slc :=
  let written := ruleTable d .slotMap d.slc.written
  { Slc.powerOn with written := written, active := written, out := written.map outBegin }

/-- The TLF after a soft reset (R44). -/
def resetTlf (d : Part) : Tlf :=
  { Tlf.powerOn with
    limits := ruleTable d .limit d.tlf.limits
    channels := (ruleTable d .slotMap d.slc.written).map channelBegin }

/-- The SRU after a soft reset (R94, R96, R115). -/
def resetSru (d : Part) : Sru :=
  { Sru.powerOn with
    rects := (ruleTable d .rectifier d.sru.rects).map fun e => e.map fun r =>
      { r with state := .absent }
    batts := (ruleTable d .battery d.sru.batts).map fun e => e.map fun b =>
      { b with state := .absent }
    profile := ruleProfile d
    qualTimer := .running (ruleProfile d).qualMs }

/-- The LKM after a soft reset (R152). The model's own hand-off counter goes on (log 8). -/
def resetLkm (d : Part) : Lkm :=
  { points := (ruleTable d .leakPoint d.lkm.points).map fun e => e.map fun p =>
      { p with state := .unseen, count := 0 }
    zones := d.lkm.zones.mapIdx (resetZone d)
    handOffs := d.lkm.handOffs }

/-- The RLP after a soft reset (R168): the feature settings are kept. -/
def resetRlp (d : Part) : Rlp := { Rlp.powerOn with features := d.rlp.features }

/-- The part after a soft reset, but for the branches, whose holds follow the other blocks. -/
def resetBlocks (d : Part) : Part where
  slc := resetSlc d
  tlf := resetTlf d
  bcu := Bcu.powerOn
  sru := resetSru d
  sqe := { Sqe.powerOn with steps := ruleTable d .sequence d.sqe.steps }
  lkm := resetLkm d
  rlp := resetRlp d
  prot := d.prot
  lines := d.lines
  agenda := []

/-- A kept branch after a soft reset (R71): its begin values, with LEAK from the kept latches. -/
def resetBranch (d : Part) (x : Branch) : Branch := Branch.begin d x.cfg

/-- The soft reset (R164, R178), with the examination of the LEAK_IN line (R145, R152). -/
def softReset (d : Part) : Part :=
  let d1 := resetBlocks d
  examineLine { d1 with
    bcu.branches := (ruleTable d .branch d.bcu.branches).map fun e => e.map (resetBranch d1) }

/-- The power-on reset, from power-up or a release of RESET_IN (R2): every block takes its power-on
values; the input lines keep their levels, and LEAK_IN is examined (R152). -/
def powerOnReset (d : Part) : Part :=
  let d1 := Part.powerOn d.lines.acfailIn d.lines.leakIn
  examineLine { d1 with lkm.handOffs := d.lkm.handOffs }

/-- RESET_IN is asserted (R2, R168, R185): no cell is sent and the transmitter is idle. -/
def assertReset (d : Part) : Part :=
  { d with lines.resetIn := true, slc.sending := [], rlp.tx := none }

/-! ## The end of a transmission -/

/-- The message is the DONE response of a RESET (R164). -/
def Uplink.resets : Uplink → Bool
  | .response r => r.resets
  | _ => false

/-- The message in transmission has been sent (R164, R167): the soft reset takes effect if it was the
DONE response of a RESET; otherwise the arbiter decides and a waiting head may find room (R157). -/
def uplinkDone (d : Part) : Part :=
  match d.rlp.tx with
  | none => d
  | some m =>
    if m.resets then softReset d
    else pumpAll (arbitrate { d with rlp.tx := none })

/-! ## Commands -/

/-- Between commands no hand-off is due and no outcome waits for the RLP (log 20). -/
def quieten (d : Part) : Part := { d with rlp.passOutcome := none, agenda := [] }

/-- What every command ends with: the hand-offs still due, the completion of a NODE PASS, and the levels
of the output lines. -/
def complete (d : Part) : Part := refreshLines (quieten (deliverPass (settleAll d)))

/-- A command acts on the part by `f`. While RESET_IN is asserted no block does anything (R2, R168;
log 7). -/
def act (f : Part → Part) (s : State) : Host.Outcome State Fault Refusal :=
  .next { s with part := if s.part.lines.resetIn then s.part else complete (f s.part) }

end Sys2Proof.Machine
end

