-- ==== Sys2Proof/Machine/LinkCommands.lean ====
section
/-! DEFINITION. Meanings of the commands that are resets, line changes and events of the shelf link. -/

namespace Sys2Proof.Machine

/-- POWER_ON_RESET (R2): power-up, or the release of RESET_IN, which it ends. -/
def execPowerOnReset (s : State) : Host.Outcome State Fault Refusal :=
  .next { s with part := complete (powerOnReset s.part) }

/-- RESET_IN_ASSERTED (R185): VALVE_OUT is deasserted and ALERT_OUT asserted; the cycle and the uplink
stop until the release. -/
def execResetInAsserted (s : State) : Host.Outcome State Fault Refusal :=
  .next { s with part := refreshLines (assertReset s.part) }

/-- SOFT_RESET (R164): the event at which a soft reset takes effect. -/
def execSoftReset (s : State) : Host.Outcome State Fault Refusal := act softReset s

/-- ACFAIL_IN takes a level. -/
def setAcfail (asserted : Bool) (d : Part) : Part := { d with lines.acfailIn := asserted }

/-- LEAK_IN takes a level. -/
def setLeakIn (asserted : Bool) (d : Part) : Part := { d with lines.leakIn := asserted }

/-- ACFAIL_IN_CHANGE (R79): the SRU examines the AC conditions. The level is also known to the part
while RESET_IN is asserted, since the line is taken at its present level after the reset. -/
def execAcfailInChange (asserted : Bool) (s : State) : Host.Outcome State Fault Refusal :=
  act examineAc { s with part := setAcfail asserted s.part }

/-- LEAK_IN_CHANGE (R145): an assertion confirms the zone named by leak_line_zone; a deassertion changes
no zone. -/
def execLeakInChange (asserted : Bool) (s : State) : Host.Outcome State Fault Refusal :=
  act examineLine { s with part := setLeakIn asserted s.part }

/-- CYCLE_START (R1). -/
def execCycleStart (s : State) : Host.Outcome State Fault Refusal := act startCycle s

/-- CYCLE_END (R1). -/
def execCycleEnd (s : State) : Host.Outcome State Fault Refusal := act endCycle s

/-- CELL_RECEIVE (R8). -/
def execCellReceive (slot : Nat) (cell : InCell) (s : State) : Host.Outcome State Fault Refusal :=
  act (receiveCell slot cell) s

end Sys2Proof.Machine
end

