-- ==== Sys2Proof/Machine/RackCommands.lean ====
section
/-! DEFINITION. Meanings of the commands of the rack link: messages and transmissions, the moves of a
waiting head, and the requests. A request row is a request that has passed the receive check: it joins
the Request Queue, or is answered BUSY or discarded, as R155 says (log 2). -/

namespace Sys2Proof.Machine

/-- MESSAGE_RECEIVE (R154): the bytes that came between two idle gaps (R180). -/
def execMessageReceive (bytes : List Byte) (s : State) : Host.Outcome State Fault Refusal :=
  act (receiveMessage bytes) s

/-- UPLINK_TRANSMIT_DONE (R167). -/
def execUplinkTransmitDone (s : State) : Host.Outcome State Fault Refusal := act uplinkDone s

/-- RESPONSE_APPEND (R156): the head of the Request Queue takes the room that the Response Queue has. -/
def execResponseAppend (s : State) : Host.Outcome State Fault Refusal := act pumpAll s

/-- NODE_PASS_COMPLETE (R162): the first outcome of the stage of the NODE PASS waiting at the head. DEDUCED:
the row is that outcome alone (log 2). -/
def execNodePassComplete (outcome : Delivery) (s : State) : Host.Outcome State Fault Refusal :=
  act (completePass outcome) s

/-- READ_STATUS (R160). -/
def execReadStatus (tag : Word) (s : State) : Host.Outcome State Fault Refusal :=
  act (arrive ⟨tag, .readStatus⟩) s

/-- WRITE_TABLE (R170 to R173). -/
def execWriteTable (tag : Word) (table start : Word) (words : List Word) (s : State) :
    Host.Outcome State Fault Refusal :=
  act (arrive ⟨tag, .writeTable table start words⟩) s

/-- READ_TABLE (R174). -/
def execReadTable (tag : Word) (table start count : Word) (s : State) :
    Host.Outcome State Fault Refusal :=
  act (arrive ⟨tag, .readTable table start count⟩) s

/-- LOCATE_BRANCH (R175). -/
def execLocateBranch (tag : Word) (branch : Word) (s : State) : Host.Outcome State Fault Refusal :=
  act (arrive ⟨tag, .locateBranch branch⟩) s

/-- BRANCH_REQUEST (R51). -/
def execBranchRequest (tag : Word) (branch action : Word) (s : State) :
    Host.Outcome State Fault Refusal :=
  act (arrive ⟨tag, .branchRequest branch action⟩) s

/-- BRANCH_CLEAR (R52). -/
def execBranchClear (tag : Word) (branch : Word) (s : State) : Host.Outcome State Fault Refusal :=
  act (arrive ⟨tag, .branchClear branch⟩) s

/-- SEQUENCE_START (R131). -/
def execSequenceStart (tag : Word) (s : State) : Host.Outcome State Fault Refusal :=
  act (arrive ⟨tag, .sequenceStart⟩) s

/-- SEQUENCE_SUSPEND (R129). -/
def execSequenceSuspend (tag : Word) (s : State) : Host.Outcome State Fault Refusal :=
  act (arrive ⟨tag, .sequenceSuspend⟩) s

/-- SEQUENCE_RESUME (R129). -/
def execSequenceResume (tag : Word) (s : State) : Host.Outcome State Fault Refusal :=
  act (arrive ⟨tag, .sequenceResume⟩) s

/-- SEQUENCE_ABORT (R132). -/
def execSequenceAbort (tag : Word) (s : State) : Host.Outcome State Fault Refusal :=
  act (arrive ⟨tag, .sequenceAbort⟩) s

/-- LEAK_ACK (R146). -/
def execLeakAck (tag : Word) (zone : Word) (s : State) : Host.Outcome State Fault Refusal :=
  act (arrive ⟨tag, .leakAck zone⟩) s

/-- LEAK_CLEAR (R147). -/
def execLeakClear (tag : Word) (zone : Word) (s : State) : Host.Outcome State Fault Refusal :=
  act (arrive ⟨tag, .leakClear zone⟩) s

/-- NODE_PASS (R161). -/
def execNodePass (tag : Word) (node value : Word) (s : State) : Host.Outcome State Fault Refusal :=
  act (arrive ⟨tag, .nodePass node value⟩) s

/-- PROTECT (R176). -/
def execProtect (tag : Word) (table : Word) (banks : List Word) (s : State) :
    Host.Outcome State Fault Refusal :=
  act (arrive ⟨tag, .protect table banks⟩) s

/-- UNPROTECT (R176). -/
def execUnprotect (tag : Word) (table : Word) (banks : List Word) (s : State) :
    Host.Outcome State Fault Refusal :=
  act (arrive ⟨tag, .unprotect table banks⟩) s

/-- FREEZE_PROTECTION (R177). -/
def execFreezeProtection (tag : Word) (s : State) : Host.Outcome State Fault Refusal :=
  act (arrive ⟨tag, .freezeProtection⟩) s

/-- SET_FEATURE (R163). -/
def execSetFeature (tag : Word) (feature value : Word) (s : State) :
    Host.Outcome State Fault Refusal :=
  act (arrive ⟨tag, .setFeature feature value⟩) s

/-- GET_DETAIL (R159). -/
def execGetDetail (tag : Word) (s : State) : Host.Outcome State Fault Refusal :=
  act (arrive ⟨tag, .getDetail⟩) s

/-- RESET (R164). -/
def execReset (tag : Word) (s : State) : Host.Outcome State Fault Refusal :=
  act (arrive ⟨tag, .reset⟩) s

end Sys2Proof.Machine
end

