-- ==== Sys2Proof/Machine/TimerCommands.lean ====
section
/-! DEFINITION. Meanings of the commands that are expiries of timers. Each acts on a timer that runs, and
does nothing on one that is stopped (R58, R83, R89, R121; log 4). -/

namespace Sys2Proof.Machine

/-- ADMIT_TIMER_EXPIRY (R58). -/
def execAdmitTimerExpiry (branch : Nat) (s : State) : Host.Outcome State Fault Refusal :=
  act (branchExpiry .admitting .admitTimeout branch) s

/-- STOP_TIMER_EXPIRY (R58). -/
def execStopTimerExpiry (branch : Nat) (s : State) : Host.Outcome State Fault Refusal :=
  act (branchExpiry .stopping .stopTimeout branch) s

/-- Expiry of the inrush spacing timer (R66, R69): an admission attempt. -/
def spacingExpiry (d : Part) : Part :=
  match d.bcu.spacing with
  | .running _ => attempt { d with bcu.spacing := .stopped }
  | _ => d

/-- SPACING_TIMER_EXPIRY (R69). -/
def execSpacingTimerExpiry (s : State) : Host.Outcome State Fault Refusal := act spacingExpiry s

/-- QUALIFICATION_TIMER_EXPIRY (R80). -/
def execQualificationTimerExpiry (s : State) : Host.Outcome State Fault Refusal :=
  act qualificationExpiry s

/-- STABLE_TIMER_EXPIRY (R84). -/
def execStableTimerExpiry (s : State) : Host.Outcome State Fault Refusal := act stableExpiry s

/-- CAPACITY_PERSISTENCE_EXPIRY (R90). -/
def execCapacityPersistenceExpiry (s : State) : Host.Outcome State Fault Refusal :=
  act capacityExpiry s

/-- EVALUATION (R97): the expiry of the evaluation timer. -/
def execEvaluation (s : State) : Host.Outcome State Fault Refusal := act evaluationExpiry s

/-- STEP_TIMER_EXPIRY (R121). -/
def execStepTimerExpiry (s : State) : Host.Outcome State Fault Refusal := act stepExpiry s

end Sys2Proof.Machine
end

