-- ==== Sys2Proof/Machine/Dispatch.lean ====
section
/-! DEFINITION. The effect of a command: one arm per constructor of Instr. -/

namespace Sys2Proof.Machine

/-- The effect of a command on everything but the queue of commands. -/
def exec (i : Instr) (s : State) : Host.Outcome State Fault Refusal :=
  match i with
  | .powerOnReset => Sys2Proof.Machine.execPowerOnReset s
  | .softReset => Sys2Proof.Machine.execSoftReset s
  | .cycleStart => Sys2Proof.Machine.execCycleStart s
  | .cycleEnd => Sys2Proof.Machine.execCycleEnd s
  | .cellReceive slot cell => Sys2Proof.Machine.execCellReceive slot cell s
  | .acfailInChange asserted => Sys2Proof.Machine.execAcfailInChange asserted s
  | .leakInChange asserted => Sys2Proof.Machine.execLeakInChange asserted s
  | .admitTimerExpiry branch => Sys2Proof.Machine.execAdmitTimerExpiry branch s
  | .stopTimerExpiry branch => Sys2Proof.Machine.execStopTimerExpiry branch s
  | .spacingTimerExpiry => Sys2Proof.Machine.execSpacingTimerExpiry s
  | .qualificationTimerExpiry => Sys2Proof.Machine.execQualificationTimerExpiry s
  | .stableTimerExpiry => Sys2Proof.Machine.execStableTimerExpiry s
  | .capacityPersistenceExpiry => Sys2Proof.Machine.execCapacityPersistenceExpiry s
  | .evaluation => Sys2Proof.Machine.execEvaluation s
  | .stepTimerExpiry => Sys2Proof.Machine.execStepTimerExpiry s
  | .messageReceive bytes => Sys2Proof.Machine.execMessageReceive bytes s
  | .uplinkTransmitDone => Sys2Proof.Machine.execUplinkTransmitDone s
  | .responseAppend => Sys2Proof.Machine.execResponseAppend s
  | .nodePassComplete outcome => Sys2Proof.Machine.execNodePassComplete outcome s
  | .readStatus tag => Sys2Proof.Machine.execReadStatus tag s
  | .writeTable tag table start words => Sys2Proof.Machine.execWriteTable tag table start words s
  | .readTable tag table start count => Sys2Proof.Machine.execReadTable tag table start count s
  | .locateBranch tag branch => Sys2Proof.Machine.execLocateBranch tag branch s
  | .branchRequest tag branch action => Sys2Proof.Machine.execBranchRequest tag branch action s
  | .branchClear tag branch => Sys2Proof.Machine.execBranchClear tag branch s
  | .sequenceStart tag => Sys2Proof.Machine.execSequenceStart tag s
  | .sequenceSuspend tag => Sys2Proof.Machine.execSequenceSuspend tag s
  | .sequenceResume tag => Sys2Proof.Machine.execSequenceResume tag s
  | .sequenceAbort tag => Sys2Proof.Machine.execSequenceAbort tag s
  | .leakAck tag zone => Sys2Proof.Machine.execLeakAck tag zone s
  | .leakClear tag zone => Sys2Proof.Machine.execLeakClear tag zone s
  | .nodePass tag node value => Sys2Proof.Machine.execNodePass tag node value s
  | .protect tag table banks => Sys2Proof.Machine.execProtect tag table banks s
  | .unprotect tag table banks => Sys2Proof.Machine.execUnprotect tag table banks s
  | .freezeProtection tag => Sys2Proof.Machine.execFreezeProtection tag s
  | .setFeature tag feature value => Sys2Proof.Machine.execSetFeature tag feature value s
  | .getDetail tag => Sys2Proof.Machine.execGetDetail tag s
  | .reset tag => Sys2Proof.Machine.execReset tag s
  | .resetInAsserted => Sys2Proof.Machine.execResetInAsserted s

end Sys2Proof.Machine
end

