-- ==== Sys2Proof/Safety.lean ====
section
/-! DEFINITION. What counts as a safe state: the bounds that the manual gives the part's queues, the output
lines at their conditions, and nothing left due between commands; and the words in which statements
say that a command finds the part ready, and what it has been answered. -/

namespace Sys2Proof.Machine

/-- The queues are within their bounds: Telemetry Queue 128 (R42), Request Queue 4 (R155), Response
Queue 8 (R157), Event Queue 64 (R165). -/
def Part.queuesBounded (d : Part) : Prop :=
  d.tlf.queue.length ≤ 128 ∧ d.rlp.requests.length ≤ 4 ∧ d.rlp.responses.length ≤ 8 ∧
    d.rlp.events.length ≤ 64

/-- VALVE_OUT and ALERT_OUT stand at the levels that R148, R149 and R185 give. -/
def Part.linesFollow (d : Part) : Prop :=
  d.lines.valveOut = valveLevel d ∧ d.lines.alertOut = alertLevel d

/-- No hand-off is due and no outcome waits for the RLP: how the part stands between commands (log
20). -/
def Part.quiet (d : Part) : Prop := d.agenda = [] ∧ d.rlp.passOutcome = none

/-- RESET_IN is not asserted, and the part stands as it does between commands. -/
def Part.running (d : Part) : Prop := d.lines.resetIn = false ∧ d.quiet

/-- The part acts on commands, and no NODE PASS waits at the head of the Request Queue, so that no outcome of
a delivery completes a request. -/
def Part.calm (d : Part) : Prop := d.running ∧ ∀ node, d.rlp.phase ≠ .passing node

/-- A request that arrives now executes at once, and its final response has room (R155 to R157). -/
def Part.ready (d : Part) : Prop :=
  d.running ∧ d.rlp.requests = [] ∧ d.rlp.responses.length < 8

/-- An event record waits in the Event Queue or is being sent. -/
def Part.holdsEvent (d : Part) (e : EventRecord) : Prop :=
  (∃ tag, d.rlp.tx = some (.event tag e)) ∨ e ∈ d.rlp.events

/-- The event records posted and not yet sent, the oldest first: one that is being sent stands before those of
the Event Queue. -/
def Part.posted (d : Part) : List EventRecord :=
  (match d.rlp.tx with
    | some (.event _ e) => [e]
    | _ => []) ++ d.rlp.events

/-- A message waits in the Response Queue or is being sent. -/
def Part.holdsMessage (d : Part) (m : Uplink) : Prop := d.rlp.tx = some m ∨ m ∈ d.rlp.responses

/-- What the Fault Detail record holds once `q` has been answered by `a` (R159). -/
def detailAfter (a : Answer) (q : Queued) : Option FaultDetail :=
  if a.status = .done then none else some (a.detail q)

/-- The part `d` once the only request `q` has been answered by `a`: the final response is in the Response
Queue, where the arbiter finds it, the head has left, and the Fault Detail record stands (R156,
R157, R159). -/
def answeredBy (a : Answer) (q : Queued) (d : Part) : Part :=
  refreshLines (appendResponse (.response (a.response q.tag))
    { d with rlp.requests := [], rlp.phase := .fresh, rlp.detail := detailAfter a q })

/-! ## What no run leaves -/

/-- The Admission Queue as R63 gives it: no branch stands in it twice, its members are the QUEUED branches,
and each holds a demand and no hold; SHED is what the shed sets say (R50). -/
def Part.admissionSound (d : Part) : Prop :=
  d.bcu.branches.length = 36 ∧ d.bcu.queue.Nodup ∧
    (∀ b, b ∈ d.bcu.queue ↔ ∃ x, d.branch b = some x ∧ x.state = .queued) ∧
    (∀ b x, d.branch b = some x → x.state = .queued → x.wanted = true) ∧
    ∀ b x, d.branch b = some x → x.holds.shed = d.sru.shed.getLsbD x.cfg.tier

/-- A branch carries LEAK exactly while the valid zone that its zone field names is ISOLATED (R50, R144). -/
def Part.isolationSound (d : Part) : Prop :=
  d.bcu.branches.length = 36 ∧ ∀ b x, d.branch b = some x →
    (x.holds.leak = true ↔
      ∃ z c, x.cfg.zone = some z ∧ (d.zone z).cfg = some c ∧ (d.zone z).state = .isolated)

/-- The shed sets as R81 and R109 give them: the battery-shed set holds with a tier every tier above it, and
tier 0 only in DEPLETED and in an AC_RETURN_PENDING reached from it; it is empty outside an episode, and
the capacity-shed set is empty in one. -/
def Part.shedSound (d : Part) : Prop :=
  (∃ n, n ≤ 8 ∧ d.sru.battShed = 0xFF#8 <<< n) ∧
    (d.sru.source.inEpisode = false → d.sru.battShed = 0) ∧
    (d.sru.source.inEpisode = true → d.sru.capShed = 0) ∧
    (d.sru.battShed.getLsbD 0 = true → d.sru.source = .depleted ∨
      (d.sru.source = .returnPending ∧ d.sru.depletedFlag = true)) ∧
    (d.sru.source = .depleted → d.sru.depletedFlag = true)

/-! ## What stands -/

/-- The configured fields of the SRU's three tables. -/
def Sru.config (s : Sru) : Profile × List (Option (Nat × Nat)) × List (Option Nat) :=
  (s.profile, s.rects.map (Option.map fun r => (r.node, r.ratedW)),
    s.batts.map (Option.map Battery.node))

/-- The fields of an Outbound Slot record that staging does not touch (R16). -/
def OutRecord.core (r : OutRecord) : Option Word × BitVec 2 × Bool × Nat × Nat × Bool :=
  (r.live, r.seq, r.awaiting, r.cyclesSince, r.retries, r.firstSent)

/-- The hand-off by which the last writer of a record is told an outcome, while one is owed (R16). -/
def OutRecord.told (r : OutRecord) (node : Nat) (o : Delivery) : List Signal :=
  match r.owed, r.lastWriter with
  | true, some w => [.outcome w r.forBranch node o]
  | _, _ => []

/-- No entry of the nine tables differs in a configured field, and no protection flag and no feature
setting differs. -/
structure TablesStand (d d' : Part) : Prop where
  written : d'.slc.written = d.slc.written := by rfl
  limits : d'.tlf.limits = d.tlf.limits := by rfl
  sruConfig : d'.sru.config = d.sru.config := by rfl
  cfgs : d'.bcu.branches.map (Option.map Branch.cfg) = d.bcu.branches.map (Option.map Branch.cfg) :=
    by rfl
  steps : d'.sqe.steps = d.sqe.steps := by rfl
  pointCfgs :
    d'.lkm.points.map (Option.map Point.cfg) = d.lkm.points.map (Option.map Point.cfg) := by rfl
  zoneCfgs : d'.lkm.zones.map Zone.cfg = d.lkm.zones.map Zone.cfg := by rfl
  prot : d'.prot = d.prot := by rfl
  features : d'.rlp.features = d.rlp.features := by rfl

/-- The cycle, the active map, the nodes, the link counters, what is sent, the Channel State records, and of
each Outbound Slot record all that staging does not touch, stand as they were. -/
structure LinkStands (d d' : Part) : Prop where
  cycle : d'.slc.cycle = d.slc.cycle := by rfl
  active : d'.slc.active = d.slc.active := by rfl
  nodes : d'.slc.nodes = d.slc.nodes := by rfl
  satisfied : d'.slc.satisfied = d.slc.satisfied := by rfl
  sending : d'.slc.sending = d.slc.sending := by rfl
  checkErrors : d'.slc.checkErrors = d.slc.checkErrors := by rfl
  misplaced : d'.slc.misplaced = d.slc.misplaced := by rfl
  retries : d'.slc.retries = d.slc.retries := by rfl
  noAcks : d'.slc.noAcks = d.slc.noAcks := by rfl
  out : d'.slc.out.map (Option.map OutRecord.core) = d.slc.out.map (Option.map OutRecord.core) :=
    by rfl
  channels : d'.tlf.channels = d.tlf.channels := by rfl

/-- The Request Queue and its head, the Fault Detail record, RX_DISCARDS and the three input lines stand
as they were. -/
structure RequestsStand (d d' : Part) : Prop where
  requests : d'.rlp.requests = d.rlp.requests := by rfl
  phase : d'.rlp.phase = d.rlp.phase := by rfl
  detail : d'.rlp.detail = d.rlp.detail := by rfl
  rxDiscards : d'.rlp.rxDiscards = d.rlp.rxDiscards := by rfl
  resetIn : d'.lines.resetIn = d.lines.resetIn := by rfl
  acfailIn : d'.lines.acfailIn = d.lines.acfailIn := by rfl
  leakIn : d'.lines.leakIn = d.lines.leakIn := by rfl

/-- The entry of branch `b`, which stood as `x` in `d`, into FAULT (R60): it leaves the Admission Queue, its
timer stops, OFF is staged for its switch node unless it comes from UNKNOWN, and BRANCH_FAULT is posted. -/
structure EntersFault (cause : BranchCause) (b : Nat) (x : Branch) (d d' : Part) : Prop where
  entry : d'.branch b = some { x with
    state := .fault, timer := .stopped, foundFaulted := decide (x.state = .unknown) }
  others : ∀ n, n ≠ b → d'.branch n = d.branch n
  queue : d'.bcu.queue = d.bcu.queue.filter (· != b)
  event : d.rlp.events.length < 64 →
    d'.holdsEvent ⟨.branchFault, some b, some cause.code, d.slc.cycle⟩
  staged : x.state ≠ .unknown → ∀ k r, d.outSlot x.cfg.node = some k →
    Machine.entry d.slc.out k = some r → Machine.entry d'.slc.out k = some { r with
      staged := some ctlOff, lastWriter := some .bcu, owed := true, forBranch := some b }
  unstaged : x.state = .unknown → d'.slc.out = d.slc.out

/-- No event record was discarded between the two (R165): EVENT_OVERFLOW, which stops at 65535, did not rise. -/
def NoRecordLost (d d' : Part) : Prop :=
  d.rlp.eventOverflow < 65535 ∧ d'.rlp.eventOverflow = d.rlp.eventOverflow

/-- Every rectifier and battery of the tables has the state that R73 and R76 derive in `d'`. A state other than
the one held in `d` was posted, and C recomputed (R74, R76). -/
structure ModulesDerived (d d' : Part) : Prop where
  rects : ∀ i r, i < 8 → entry d.sru.rects i = some r →
    entry d'.sru.rects i = some { r with state := rectStateOf r.node d' }
  batts : ∀ i r, i < 6 → entry d.sru.batts i = some r →
    entry d'.sru.batts i = some { r with state := battStateOf r.node d' }
  capacity : ∀ i r, i < 8 → entry d.sru.rects i = some r → rectStateOf r.node d' ≠ r.state →
    d'.sru.capacity = capacityOf d'
  rectPosted : NoRecordLost d d' → ∀ i r, i < 8 → entry d.sru.rects i = some r →
    rectStateOf r.node d' ≠ r.state →
    d'.holdsEvent ⟨.rectState, some r.node, some (rectStateOf r.node d').code, d'.slc.cycle⟩
  battPosted : NoRecordLost d d' → ∀ i r, i < 6 → entry d.sru.batts i = some r →
    battStateOf r.node d' ≠ r.state →
    d'.holdsEvent ⟨.batteryState, some r.node, some (battStateOf r.node d').code, d'.slc.cycle⟩

/-- The valid leak points that `hit` names have moved as `next` says, and the others stand. One that enters
FAULT posts LEAK_POINT_FAULT with its cause (R140). A zone with a point that changed its state is examined,
here for the one point that changed, and its records of the examination wait (R139, R143); every other
zone stands. -/
structure PointsFollow (hit : Point → Prop) (next : Point → PointState × Nat)
    (cause : Point → PointCause) (d d' : Part) : Prop where
  moved : ∀ i p, i < 16 → entry d.lkm.points i = some p → hit p →
    entry d'.lkm.points i = some { p with state := (next p).1, count := (next p).2 }
  stood : ∀ i p, entry d.lkm.points i = some p → ¬ hit p → entry d'.lkm.points i = some p
  empty : ∀ i, entry d.lkm.points i = none → entry d'.lkm.points i = none
  faulted : NoRecordLost d d' → ∀ i p, i < 16 → entry d.lkm.points i = some p → hit p →
    (next p).1 = .fault → p.state ≠ .fault → d'.holdsEvent
      ⟨.leakPointFault, some p.cfg.zone, some (i * 256 + (cause p).code), d'.slc.cycle⟩
  examined : ∀ i p, i < 16 → entry d.lkm.points i = some p → hit p → (next p).1 ≠ p.state →
    (∀ m, m ≠ i → entry d'.lkm.points m = entry d.lkm.points m) →
    let e := examineZone p.cfg.zone { d with
      slc.cycle := d'.slc.cycle, lkm.points := d'.lkm.points }
    d'.lkm.zones = e.lkm.zones ∧
      (NoRecordLost d d' → ∀ r ∈ e.posted,
        r.kind ∈ [EventKind.zoneDegraded, .leakAlert, .leakConfirmed, .leakIsolated] →
        d'.holdsEvent r)
  zones : ∀ z, (∀ i p, i < 16 → entry d.lkm.points i = some p → hit p → p.cfg.zone = z →
    (next p).1 = p.state) → d'.zone z = d.zone z

/-- The only request `q` has been answered by `a`: it has left the Request Queue, its final response waits or
is being sent, and the Fault Detail record is as R159 leaves it. -/
structure Answered (a : Answer) (q : Queued) (d : Part) : Prop where
  requests : d.rlp.requests = []
  phase : d.rlp.phase = .fresh
  detail : d.rlp.detail = detailAfter a q
  message : d.holdsMessage (.response (a.response q.tag))

/-! ## Requests as commands -/

/-- The request that a request row of the table puts into the Request Queue (log 2). -/
def request : Instr → Option Queued
  | .readStatus tag => some ⟨tag, .readStatus⟩
  | .writeTable tag table start words => some ⟨tag, .writeTable table start words⟩
  | .readTable tag table start count => some ⟨tag, .readTable table start count⟩
  | .locateBranch tag branch => some ⟨tag, .locateBranch branch⟩
  | .branchRequest tag branch action => some ⟨tag, .branchRequest branch action⟩
  | .branchClear tag branch => some ⟨tag, .branchClear branch⟩
  | .sequenceStart tag => some ⟨tag, .sequenceStart⟩
  | .sequenceSuspend tag => some ⟨tag, .sequenceSuspend⟩
  | .sequenceResume tag => some ⟨tag, .sequenceResume⟩
  | .sequenceAbort tag => some ⟨tag, .sequenceAbort⟩
  | .leakAck tag zone => some ⟨tag, .leakAck zone⟩
  | .leakClear tag zone => some ⟨tag, .leakClear zone⟩
  | .nodePass tag node value => some ⟨tag, .nodePass node value⟩
  | .protect tag table banks => some ⟨tag, .protect table banks⟩
  | .unprotect tag table banks => some ⟨tag, .unprotect table banks⟩
  | .freezeProtection tag => some ⟨tag, .freezeProtection⟩
  | .setFeature tag feature value => some ⟨tag, .setFeature feature value⟩
  | .getDetail tag => some ⟨tag, .getDetail⟩
  | .reset tag => some ⟨tag, .reset⟩
  | _ => none

/-- The requests that a command can begin: those already queued, and the one that it brings. -/
def asked (c : Instr) (d : Part) : List Queued :=
  d.rlp.requests ++ (request c).toList ++ (match c with
    | .messageReceive bytes => (receive bytes).toList
    | _ => [])

end Sys2Proof.Machine
end

