-- ==== Sys2Proof/Certificates/Slice0/Obligations.lean ====
section
/-! DEFINITION. The statements for the provers. -/

open Sys2Proof Sys2Proof.Machine

/-! ## The queue of commands and the resets -/

/-- A step takes the command at the front of the queue and runs it with the queue's rest. -/
def Obligations.StepRunsFrontCommand : Prop :=
  ∀ (s : State) (c : Instr) (rest : List Instr), s.pending = c :: rest →
    step s = exec c { s with pending := rest }

/-- Every command of the table runs in every state, and leaves the queue of commands as it is: none faults
and none is refused. -/
def Obligations.EveryCommandRuns : Prop :=
  ∀ (c : Instr) (s : State), ∃ t, exec c s = .next t ∧ t.pending = s.pending

/-- POWER_ON_RESET leaves the power-on values of every block (R7, R12, R22, R44, R71, R90, R94, R96, R118,
R135, R152, R168, R178) whatever the state was: every table empty but for the Power Profile at its
defaults, no slot satisfied, the counters 0, no indication posted, the source SOURCE_UNKNOWN with the
qualification timer at 500 ms, the run IDLE, VALVE_OUT deasserted and ALERT_OUT asserted, RESET_IN
released, the two input lines at their levels. -/
def Obligations.PowerOnResetValues : Prop :=
  ∀ s : State, ∃ t, exec .powerOnReset s = .next t ∧ t.pending = s.pending ∧
    t.part.lines = ⟨false, s.part.lines.acfailIn, s.part.lines.leakIn, false, true⟩ ∧
    (t.part.slc.cycle = 0 ∧ t.part.slc.written = List.replicate 96 none ∧
      t.part.slc.active = List.replicate 96 none ∧ t.part.slc.out = List.replicate 96 none ∧
      t.part.slc.nodes = List.replicate 62 ⟨.unheard, none⟩ ∧ t.part.slc.sending = [] ∧
      t.part.slc.satisfied = [] ∧ t.part.slc.checkErrors = 0 ∧ t.part.slc.misplaced = 0 ∧ t.part.slc.retries = 0 ∧
      t.part.slc.noAcks = 0) ∧
    (t.part.tlf = ⟨List.replicate 48 none, List.replicate 96 none, [], 0⟩) ∧
    (t.part.bcu = ⟨List.replicate 36 none, [], .stopped, false⟩) ∧
    (t.part.sru.rects = List.replicate 8 none ∧ t.part.sru.batts = List.replicate 6 none ∧
      t.part.sru.profile = ⟨100, 4, 3, 2000, 50, true, 300, .nPlusOne, 1, 500, 3000, 200, 20, 0,
        950, 120, 100, 30, none⟩ ∧
      t.part.sru.source = .unknown ∧ t.part.sru.capacity = 0 ∧
      t.part.sru.qualTimer = .running 500 ∧ t.part.sru.stableTimer = .stopped ∧
      t.part.sru.capTimer = .stopped ∧ t.part.sru.evalTimer = .stopped ∧
      t.part.sru.tBatt = 0 ∧ t.part.sru.tBattCounts = false ∧
      t.part.sru.depletedFlag = false ∧ t.part.sru.battShed = 0 ∧ t.part.sru.capShed = 0 ∧
      t.part.sru.u = none ∧ t.part.sru.p = none ∧ t.part.sru.tProj = none ∧
      t.part.sru.tNeed = none ∧ t.part.sru.tGoal = none ∧ t.part.sru.held = false ∧
      t.part.sru.evaluatedOnAc = false ∧ t.part.sru.deficitPosted = false ∧
      t.part.sru.holdupPosted = false ∧ t.part.sru.capDeficitPosted = false) ∧
    (t.part.sqe = ⟨List.replicate 64 none, .idle, 0, .notBegun, ⟨false, false, false⟩, .stopped,
      0, 0, 0, 0, []⟩) ∧
    (t.part.lkm.points = List.replicate 16 none ∧
      t.part.lkm.zones = List.replicate 8 ⟨none, .clear, false, false⟩) ∧
    (t.part.rlp = ⟨[], .fresh, [], [], none, ⟨8, false, true, 4, 4⟩, 0, 0, .rsp, 0, none, 0, 0,
      none⟩) ∧
    t.part.prot = ⟨List.replicate 21 false, false⟩ ∧ t.part.agenda = []

/-- SOFT_RESET keeps the tables as the table rule of R178 leaves them (an unprotected bank is emptied under
SOFT_RESET_TABLES at CLEAR, but for the entry of a latched zone), the zone latches with their acked
flags, the protection and the features, and returns every other block to its begin values (R7, R12,
R22, R44, R71, R94, R96, R118, R135, R152, R164, R168, R177): queues, counters, tags, figures and
indications empty, every timer but the qualification timer stopped, every kept branch with the fields
it was configured with and every kept rectifier and battery ABSENT. Where LEAK_IN is deasserted, or
leak_line_zone then names no zone, every branch is in UNKNOWN at the begin values of R47 with LEAK from
the kept latches, the run IDLE, every other zone CLEAR and the Event Queue and the transmitter empty;
where it confirms a zone that leak_line_zone names, that zone is latched anew (R145).
That the written map is active at once is the model's reading (log 3, DEDUCED). -/
def Obligations.SoftResetValues : Prop :=
  ∀ s : State, s.part.lines.resetIn = false →
    ∃ t, exec .softReset s = .next t ∧ t.pending = s.pending ∧
      (∀ n, entry t.part.slc.written n =
        if s.part.rlp.features.clearTables = true ∧ bankProtected .slotMap n s.part = false then none
        else entry s.part.slc.written n) ∧
      t.part.slc.active = t.part.slc.written ∧
      (∀ n, entry t.part.tlf.limits n =
        if s.part.rlp.features.clearTables = true ∧ bankProtected .limit n s.part = false then none
        else entry s.part.tlf.limits n) ∧
      (∀ n, entry t.part.sru.rects n =
        if s.part.rlp.features.clearTables = true ∧ bankProtected .rectifier n s.part = false then
          none
        else (entry s.part.sru.rects n).map fun r => ⟨r.node, r.ratedW, .absent⟩) ∧
      (∀ n, entry t.part.sru.batts n =
        if s.part.rlp.features.clearTables = true ∧ bankProtected .battery n s.part = false then none
        else (entry s.part.sru.batts n).map fun b => ⟨b.node, .absent⟩) ∧
      (∀ n, (t.part.branch n).map Branch.cfg =
        if s.part.rlp.features.clearTables = true ∧ bankProtected .branch n s.part = false then none
        else (s.part.branch n).map Branch.cfg) ∧
      (∀ n, entry t.part.sqe.steps n =
        if s.part.rlp.features.clearTables = true ∧ bankProtected .sequence n s.part = false then
          none
        else entry s.part.sqe.steps n) ∧
      (∀ n, (entry t.part.lkm.points n).map Point.cfg =
        if s.part.rlp.features.clearTables = true ∧ bankProtected .leakPoint n s.part = false then
          none
        else (entry s.part.lkm.points n).map Point.cfg) ∧
      (∀ z, (t.part.zone z).cfg =
        if s.part.rlp.features.clearTables = true ∧ bankProtected .leakZone z s.part = false ∧
            (s.part.zone z).state.latched = false then none
        else (s.part.zone z).cfg) ∧
      (t.part.sru.profile =
        if s.part.rlp.features.clearTables = true ∧ bankProtected .profile 0 s.part = false then
          Profile.default
        else s.part.sru.profile) ∧
      (t.part.slc.cycle = 0 ∧ t.part.slc.nodes = List.replicate 62 ⟨.unheard, none⟩ ∧
        t.part.slc.checkErrors = 0 ∧ t.part.slc.misplaced = 0 ∧ t.part.slc.retries = 0 ∧
        t.part.slc.noAcks = 0 ∧ t.part.slc.sending = [] ∧ t.part.slc.satisfied = []) ∧
      (t.part.tlf.drops = 0 ∧ t.part.tlf.queue = [] ∧ t.part.rlp.requests = [] ∧
        t.part.rlp.responses = [] ∧ t.part.rlp.phase = .fresh ∧ t.part.rlp.detail = none ∧
        t.part.rlp.rxDiscards = 0 ∧ t.part.rlp.eventOverflow = 0 ∧ t.part.rlp.batchTag = 0 ∧
        t.part.rlp.side = .rsp ∧ t.part.rlp.run = 0) ∧
      (t.part.sru.source = .unknown ∧ t.part.sru.capacity = 0 ∧
        t.part.sru.qualTimer = .running t.part.sru.profile.qualMs ∧
        t.part.sru.stableTimer = .stopped ∧ t.part.sru.capTimer = .stopped ∧
        t.part.sru.evalTimer = .stopped ∧ t.part.sru.tBatt = 0 ∧
        t.part.sru.tBattCounts = false ∧ t.part.sru.depletedFlag = false ∧
        t.part.sru.battShed = 0 ∧ t.part.sru.capShed = 0 ∧
        t.part.sru.capDeficitPosted = false ∧ t.part.sru.u = none ∧ t.part.sru.p = none ∧
        t.part.sru.tProj = none ∧ t.part.sru.tNeed = none ∧ t.part.sru.tGoal = none ∧
        t.part.sru.held = false ∧ t.part.sru.evaluatedOnAc = false ∧
        t.part.sru.deficitPosted = false ∧ t.part.sru.holdupPosted = false) ∧
      (∀ z, (s.part.zone z).state.latched = true →
        (t.part.zone z).state = (s.part.zone z).state ∧
          (t.part.zone z).acked = (s.part.zone z).acked) ∧
      t.part.rlp.features = s.part.rlp.features ∧ t.part.prot = s.part.prot ∧
      t.part.lines.alertOut = true ∧
      (∀ k e, entry t.part.slc.active k = some e →
        match e with
        | .input _ _ _ => entry t.part.tlf.channels k = some ⟨.unseen, none, none, none, 0, 0⟩
        | .output _ => entry t.part.slc.out k =
            some ⟨none, none, 0, false, 0, 0, none, false, none, false⟩) ∧
      ((s.part.lines.leakIn = false ∨ t.part.sru.profile.leakLineZone = none) →
        (∀ n x, t.part.branch n = some x → ∃ y, s.part.branch n = some y ∧
          x = ⟨y.cfg, .unknown, ⟨false, false⟩,
            ⟨leakHold s.part y.cfg.zone, false, false, false⟩, none, false, none, .stopped,
            false, false⟩) ∧
        t.part.bcu.queue = [] ∧ t.part.bcu.spacing = .stopped ∧ t.part.bcu.headBlocked = false ∧
        t.part.sqe = ⟨t.part.sqe.steps, .idle, 0, .notBegun, ⟨false, false, false⟩, .stopped,
          0, 0, 0, 0, []⟩ ∧
        (∀ n p, entry t.part.lkm.points n = some p → p.state = .unseen ∧ p.count = 0) ∧
        (∀ z, z < s.part.lkm.zones.length → (t.part.zone z).degraded = false ∧
          ((s.part.zone z).state.latched = false →
            (t.part.zone z).state = .clear ∧ (t.part.zone z).acked = false)) ∧
        t.part.rlp.events = [] ∧ t.part.rlp.tx = none ∧ t.part.rlp.eventTag = 0) ∧
      (s.part.lines.leakIn = true → ∀ z c, t.part.sru.profile.leakLineZone = some z →
        (t.part.zone z).cfg = some c → (s.part.zone z).state.latched = false →
        (t.part.zone z).state = (if c.isolate then .isolated else .confirmed) ∧
          (t.part.zone z).acked = false ∧
          t.part.holdsEvent ⟨.leakConfirmed, some z, some 256, 0⟩)

/-- RESET_IN_ASSERTED: VALVE_OUT is deasserted and ALERT_OUT asserted, no cell is sent and the transmitter
is idle (R2, R168, R185), and nothing else is touched. While RESET_IN is asserted no command but
POWER_ON_RESET does anything, and a change of an input line is only recorded. That nothing else is touched,
and that no command does anything until the release (expiries, SOFT_RESET, arrivals and the recording of
the inputs among them), are the model's choice (log 7, DESIGN CHOICE). -/
def Obligations.ResetInHolds : Prop :=
  (∀ s : State, exec .resetInAsserted s = .next { s with part := { s.part with
    lines := { s.part.lines with resetIn := true, valveOut := false, alertOut := true }
    slc := { s.part.slc with sending := [] }
    rlp := { s.part.rlp with tx := none } } }) ∧
  ∀ (c : Instr) (s : State), s.part.lines.resetIn = true →
    match c with
    | .powerOnReset => ∃ t, exec c s = .next t ∧ t.part.lines.resetIn = false
    | .resetInAsserted => ∃ t, exec c s = .next t ∧ t.part.lines.resetIn = true
    | .acfailInChange a => exec c s =
        .next { s with part := { s.part with lines := { s.part.lines with acfailIn := a } } }
    | .leakInChange a => exec c s =
        .next { s with part := { s.part with lines := { s.part.lines with leakIn := a } } }
    | _ => exec c s = .next s

/-! ## The shelf link -/

/-- CYCLE_START with no change of the map: the counter advances, and each Outbound Slot record is treated
as R17, R18 and R21 say. A staged value that differs from the live one is sent with the next
sequence number; one that is live already and awaits nothing is settled, so that no outcome is owed any
more; a record that awaits acknowledgement counts, is sent again at ack_window with RETRIES raised, and
is given up after retry_limit with NO_ACKS raised, its staged and live values ABSENT and no outcome
owed; every other record sends nothing. Exactly those cells are sent. Where no record is given up, the
staged value and the last writer stand; where one is, the BCU may have staged a value again. The two
counters stop at 65535 (R22).
A settled record tells its last writer ACK and one given up tells it NO_ACK, where an outcome is owed
(R16, R18, R21): a NO_ACK puts the branch that the stage was for in FAULT while its entry is valid and
names that node (R59), or posts STANDBY_NO_ACK (R38), and ACK and SUPERSEDED do nothing to either writer.
One millisecond passes for the timers of the SRU (log 3, DEDUCED); that a control was first sent in this
cycle and for which branch it was staged are fields of the model's (log 18, DEDUCED); retries used above
a lowered retry_limit give up (log 26, DESIGN CHOICE), and the order in which a cycle start tells its
outcomes is the model's (log 27, DESIGN CHOICE). Tables, nodes, channels, leak state and requests stand. -/
def Obligations.CycleStartTreatsControls : Prop :=
  (∀ s : State, s.part.calm → s.part.slc.written = s.part.slc.active →
    let records := (List.range 96).filterMap fun k =>
      match entry s.part.slc.active k, entry s.part.slc.out k with
      | some (.output _), some r => some r
      | _, _ => none
    let settles := fun (r : OutRecord) => r.staged.isSome && r.staged == r.live && !r.awaiting
    let due := fun (r : OutRecord) => r.staged.isSome && r.staged == r.live && r.awaiting &&
      decide (s.part.sru.profile.ackWindow ≤ r.cyclesSince + 1)
    let repeats := fun r => due r && decide (r.retries < s.part.sru.profile.retryLimit)
    let givesUp := fun r => due r && decide (s.part.sru.profile.retryLimit ≤ r.retries)
    ∃ t, exec .cycleStart s = .next t ∧ t.pending = s.pending ∧
      TablesStand s.part t.part ∧ RequestsStand s.part t.part ∧
      t.part.slc.cycle = s.part.slc.cycle + 1 ∧ t.part.slc.active = s.part.slc.active ∧
      t.part.slc.nodes = s.part.slc.nodes ∧ t.part.slc.satisfied = [] ∧
      t.part.slc.checkErrors = s.part.slc.checkErrors ∧
      t.part.slc.misplaced = s.part.slc.misplaced ∧
      t.part.tlf.channels = s.part.tlf.channels ∧ t.part.lkm = s.part.lkm ∧
      t.part.sru = { s.part.sru with
        qualTimer := s.part.sru.qualTimer.tick, stableTimer := s.part.sru.stableTimer.tick
        capTimer := s.part.sru.capTimer.tick, evalTimer := s.part.sru.evalTimer.tick
        tBatt := if s.part.sru.tBattCounts then min 4294967295 (s.part.sru.tBatt + 1)
          else s.part.sru.tBatt } ∧
      (∀ k node r, k < 96 → entry s.part.slc.active k = some (.output node) →
        entry s.part.slc.out k = some r →
        ∃ r', entry t.part.slc.out k = some r' ∧
          (∀ v, r.staged = some v → r.live ≠ some v →
            r'.core = (some v, r.seq + 1, true, 0, 0, true)) ∧
          (r.staged = none ∨ (r.staged = r.live ∧ r.awaiting = false) →
            r'.core = (r.live, r.seq, r.awaiting, r.cyclesSince, r.retries, false)) ∧
          (r.staged ≠ none → r.staged = r.live → r.awaiting = true →
            (r.cyclesSince + 1 < s.part.sru.profile.ackWindow →
              r'.core = (r.live, r.seq, true, r.cyclesSince + 1, r.retries, false)) ∧
            (s.part.sru.profile.ackWindow ≤ r.cyclesSince + 1 →
              r.retries < s.part.sru.profile.retryLimit →
              r'.core = (r.live, r.seq, true, 0, r.retries + 1, false)) ∧
            (s.part.sru.profile.ackWindow ≤ r.cyclesSince + 1 →
              s.part.sru.profile.retryLimit ≤ r.retries →
              r'.core = (none, r.seq, false, r.cyclesSince + 1, r.retries, false))) ∧
          let left := (if givesUp r then none else r.staged, r.lastWriter,
            if givesUp r || settles r then false else r.owed)
          ((r'.staged, r'.lastWriter, r'.owed) = left ∨
            ((r'.staged = some 0 ∨ r'.staged = some 1) ∧ r'.lastWriter = some .bcu ∧
              r'.owed = true)) ∧
          ((∀ x ∈ records, givesUp x = false) →
            (r'.staged, r'.lastWriter, r'.owed) = left ∧ r'.forBranch = r.forBranch)) ∧
      (s.part.slc.retries ≤ 65535 → t.part.slc.retries =
        min 65535 (s.part.slc.retries + (records.filter repeats).length)) ∧
      (s.part.slc.noAcks ≤ 65535 → t.part.slc.noAcks =
        min 65535 (s.part.slc.noAcks + (records.filter givesUp).length)) ∧
      (∀ c, c ∈ t.part.slc.sending ↔ c.slot < 96 ∧
        entry s.part.slc.active c.slot = some (.output c.node) ∧
        ∃ r, entry s.part.slc.out c.slot = some r ∧ r.staged = some c.value ∧
          ((r.live ≠ some c.value ∧ c.seq = r.seq + 1) ∨
            (r.live = some c.value ∧ r.awaiting = true ∧ c.seq = r.seq ∧
              s.part.sru.profile.ackWindow ≤ r.cyclesSince + 1 ∧
              r.retries < s.part.sru.profile.retryLimit)))) ∧
  (∀ (d : Part) (k node : Nat) (r : OutRecord) (v : Word),
    entry d.slc.active k = some (.output node) → entry d.slc.out k = some r →
    r.staged = some v → r.live = some v →
    (r.awaiting = false → treatOut k d = { d with
      slc := { d.slc with
        out := d.slc.out.set k (some { r with firstSent := false, owed := false }) }
      agenda := d.agenda ++ r.told node .ack }) ∧
    (r.awaiting = true → d.sru.profile.ackWindow ≤ r.cyclesSince + 1 →
      d.sru.profile.retryLimit ≤ r.retries → treatOut k d = { d with
        slc := { d.slc with
          out := d.slc.out.set k (some { r with
            staged := none, live := none, awaiting := false, owed := false, firstSent := false
            cyclesSince := r.cyclesSince + 1 })
          noAcks := satInc d.slc.noAcks }
        agenda := d.agenda ++ r.told node .noAck })) ∧
  ∀ (d : Part) (b : Option Nat) (node : Nat),
    (∀ w o, w ≠ .rlp → o ≠ .noAck → deliver w b node o d = d) ∧
    deliver .tlf b node .noAck d = post .standbyNoAck (some node) none d ∧
    (∀ n x, b = some n → d.branch n = some x →
      (x.cfg.node = node → x.state ≠ .fault → x.state ≠ .unknown →
        EntersFault .noAck n x d (deliver .bcu b node .noAck d)) ∧
      (x.cfg.node ≠ node ∨ x.state = .fault ∨ x.state = .unknown →
        deliver .bcu b node .noAck d = d)) ∧
    ((∀ n, b = some n → d.branch n = none) → deliver .bcu b node .noAck d = d)

/-- CYCLE_START makes the written map active (R5, R6): the Channel State record of a slot whose entry
changes begins anew or ends, and the channel of every other slot stands. The Outbound Slot record
of a changed slot is discarded, or begins with the values of R15; a value that is staged for it at
this same cycle start is sent with the sequence number after 0 (R17). -/
def Obligations.CycleStartActivatesMap : Prop :=
  ∀ s : State, s.part.calm → s.part.tlf.channels.length = 96 → s.part.slc.out.length = 96 →
    ∃ t, exec .cycleStart s = .next t ∧ t.part.slc.active = s.part.slc.written ∧
      TablesStand s.part t.part ∧ RequestsStand s.part t.part ∧
      ∀ k, k < 96 →
        if entry s.part.slc.written k = entry s.part.slc.active k then
          entry t.part.tlf.channels k = entry s.part.tlf.channels k
        else match entry s.part.slc.written k with
          | some (.input _ _ _) =>
            entry t.part.tlf.channels k = some ⟨.unseen, none, none, none, 0, 0⟩ ∧
              entry t.part.slc.out k = none
          | some (.output _) => entry t.part.tlf.channels k = none ∧
              ∃ r, entry t.part.slc.out k = some r ∧ (r.core = (none, 0, false, 0, 0, false) ∨
                ∃ v, r.core = (some v, 1, true, 0, 0, true))
          | none => entry t.part.tlf.channels k = none ∧ entry t.part.slc.out k = none

/-- CYCLE_END: each IN slot of the active map that was not satisfied has a slot-missed notice (R11), by which
its channel's miss count rises and its class becomes STALE once the count reaches the stale limit
(R33); each LIVE node that has not been heard for node_silence cycles, modulo 2^32, becomes
SILENT (R13). Every other channel and node, the maps, the cells sent and the tables stand. -/
def Obligations.CycleEndNoticesAndSilence : Prop :=
  ∀ s : State, s.part.calm → s.part.tlf.channels.length = 96 → s.part.slc.nodes.length = 62 →
    ∃ t, exec .cycleEnd s = .next t ∧ t.pending = s.pending ∧
      TablesStand s.part t.part ∧ RequestsStand s.part t.part ∧
      t.part.slc.cycle = s.part.slc.cycle ∧ t.part.slc.active = s.part.slc.active ∧
      t.part.slc.satisfied = s.part.slc.satisfied ∧ t.part.slc.sending = s.part.slc.sending ∧
      t.part.slc.out.map (Option.map OutRecord.core) =
        s.part.slc.out.map (Option.map OutRecord.core) ∧
      (t.part.slc.checkErrors = s.part.slc.checkErrors ∧
        t.part.slc.misplaced = s.part.slc.misplaced ∧ t.part.slc.retries = s.part.slc.retries ∧
        t.part.slc.noAcks = s.part.slc.noAcks) ∧
      (∀ k, k < 96 → match entry s.part.slc.active k, entry s.part.tlf.channels k with
        | some (.input _ kind limit), some x =>
          entry t.part.tlf.channels k = some (
            if k ∈ s.part.slc.satisfied then x
            else if x.cls ≠ .unseen ∧ x.cls ≠ .stale ∧
                (paramsOf s.part kind limit).staleLimit ≤ satInc x.miss then
              { x with cls := .stale, candidate := none, count := 0, miss := satInc x.miss }
            else { x with miss := satInc x.miss })
        | _, e => entry t.part.tlf.channels k = e) ∧
      (∀ n, 1 ≤ n → n ≤ 62 → t.part.nodeRecord n =
        match s.part.nodeRecord n with
        | ⟨.live, some h⟩ =>
          if s.part.sru.profile.nodeSilence ≤ (s.part.slc.cycle - h).toNat then ⟨.silent, some h⟩
          else ⟨.live, some h⟩
        | r => r)

/-- The cells that R8 does not accept: in a slot whose active entry is empty or OUT nothing changes; a
failed cell check or an undefined quality raises CHECK_ERRORS alone; a node or kind that differs
from the entry raises MISPLACED alone. Both counters stop at 65535 (R22). -/
def Obligations.CellsNotAccepted : Prop :=
  ∀ (s : State) (slot : Nat) (c : InCell), s.part.running → s.part.linesFollow →
    match entry s.part.slc.active slot with
    | some (.input node kind _) =>
      (crc8 [c.node, c.kind, hiByte c.value, loByte c.value, c.status] ≠ c.check ∨
          Quality.ofCode (c.status >>> 6).toNat = none →
        exec (.cellReceive slot c) s = .next { s with part := { s.part with
          slc := { s.part.slc with checkErrors := satInc s.part.slc.checkErrors } } }) ∧
      (crc8 [c.node, c.kind, hiByte c.value, loByte c.value, c.status] = c.check →
        Quality.ofCode (c.status >>> 6).toNat ≠ none →
        (c.node.toNat ≠ node ∨ c.kind.toNat ≠ kind.code) →
        exec (.cellReceive slot c) s = .next { s with part := { s.part with
          slc := { s.part.slc with misplaced := satInc s.part.slc.misplaced } } })
    | _ => exec (.cellReceive slot c) s = .next s

/-- CELL_RECEIVE of a cell that R8 accepts: its node is LIVE and was heard in this cycle (R12), a GOOD
sample satisfies the slot (R11) and is classified (R30, R31, R34) and, where the FORWARDING
feature and the channel's mode say so, becomes the last forwarded value and joins the Telemetry Queue
(R39 to R42; stated for a busy transmitter); a sample that is not GOOD changes nothing in the channel
(R32). Every other channel and node stands, and so do
the maps, the counters, the cells sent, the tables and the requests. -/
def Obligations.CellAccepted : Prop :=
  ∀ (s : State) (slot node : Nat) (kind : ChannelKind) (limit : Option Nat) (q : Quality)
    (c : InCell) (x : ChannelState),
    s.part.calm → 1 ≤ node → node ≤ s.part.slc.nodes.length →
    entry s.part.slc.active slot = some (.input node kind limit) →
    entry s.part.tlf.channels slot = some x →
    crc8 [c.node, c.kind, hiByte c.value, loByte c.value, c.status] = c.check →
    Quality.ofCode (c.status >>> 6).toNat = some q →
    c.node.toNat = node → c.kind.toNat = kind.code →
    ∃ t, exec (.cellReceive slot c) s = .next t ∧ t.pending = s.pending ∧
      TablesStand s.part t.part ∧ RequestsStand s.part t.part ∧
      t.part.nodeRecord node = ⟨.live, some s.part.slc.cycle⟩ ∧
      (∀ n, n ≠ node → t.part.nodeRecord n = s.part.nodeRecord n) ∧
      (∀ k, k ∈ t.part.slc.satisfied ↔ k ∈ s.part.slc.satisfied ∨
        (k = slot ∧ ∃ v, sampleOf kind q c.value = .good v)) ∧
      (∀ k, k ≠ slot → entry t.part.tlf.channels k = entry s.part.tlf.channels k) ∧
      entry t.part.tlf.channels slot = some (
        match sampleOf kind q c.value with
        | .good v =>
          let p := paramsOf s.part kind limit
          let y := classify p x v
          if s.part.rlp.features.forwarding && forwards p x y.2 v then
            { y.1 with lastForwarded := some v }
          else y.1
        | _ => x) ∧
      (∀ m, s.part.rlp.tx = some m → t.part.tlf.queue =
        match sampleOf kind q c.value with
        | .good v =>
          let p := paramsOf s.part kind limit
          let y := classify p x v
          if s.part.rlp.features.forwarding && forwards p x y.2 v then
            (if s.part.tlf.queue.length < 128 then s.part.tlf.queue
              else s.part.tlf.queue.tail) ++ [⟨node, kind, v, y.1.cls, s.part.slc.cycle⟩]
          else s.part.tlf.queue
        | _ => s.part.tlf.queue) ∧
      t.part.slc.cycle = s.part.slc.cycle ∧ t.part.slc.active = s.part.slc.active ∧
      t.part.slc.sending = s.part.slc.sending ∧
      (t.part.slc.checkErrors = s.part.slc.checkErrors ∧
        t.part.slc.misplaced = s.part.slc.misplaced ∧ t.part.slc.retries = s.part.slc.retries ∧
        t.part.slc.noAcks = s.part.slc.noAcks)

/-- A status-channel cell acknowledges the control of its node (R19): a record that awaits acknowledgement
takes the first echo equal to its sequence number that comes after the first transmission, and then awaits
none; where the staged value is still the live one, the last writer is told ACK and no outcome is owed any
more, so that a NODE PASS to that node is answered DONE (R162), while one that waits for another node goes on
waiting. Another echo leaves it. A record that awaits none takes the echo as its sequence number (R20). No
other Outbound Slot record changes in what staging does not touch, and a cell of a live node that is not GOOD
does nothing else. That a control was first sent in this cycle is a field of the model's (log 18, DEDUCED). -/
def Obligations.StatusCellAcknowledges : Prop :=
  ∀ (s : State) (slot node j : Nat) (kind : ChannelKind) (limit : Option Nat) (q : Quality)
    (c : InCell) (r : OutRecord),
    s.part.calm → entry s.part.slc.active slot = some (.input node kind limit) →
    kind = .rmStatus ∨ kind = .bmStatus ∨ kind = .brStatus →
    crc8 [c.node, c.kind, hiByte c.value, loByte c.value, c.status] = c.check →
    Quality.ofCode (c.status >>> 6).toNat = some q →
    c.node.toNat = node → c.kind.toNat = kind.code →
    s.part.outSlot node = some j → entry s.part.slc.out j = some r →
    let heard := c.status.extractLsb' 0 2 = r.seq ∧ (r.firstSent = false ∨ j < slot)
    let settled := fun (x : OutRecord) => { x with
      awaiting := false, owed := x.owed && !(x.staged == x.live) }
    (∃ t, exec (.cellReceive slot c) s = .next t ∧
      (∀ k, k ≠ j → (entry t.part.slc.out k).map OutRecord.core =
        (entry s.part.slc.out k).map OutRecord.core) ∧
      (entry t.part.slc.out j).map OutRecord.core = some (
        if r.awaiting then
          if heard then (r.live, r.seq, false, r.cyclesSince, r.retries, r.firstSent)
          else (r.live, r.seq, true, r.cyclesSince, r.retries, r.firstSent)
        else (r.live, c.status.extractLsb' 0 2, false, r.cyclesSince, r.retries, r.firstSent))) ∧
    ((s.part.nodeRecord node).state = .live → q ≠ .good → s.part.linesFollow →
      exec (.cellReceive slot c) s = .next { s with part := { s.part with slc := { s.part.slc with
        nodes := s.part.slc.nodes.set (node - 1) ⟨.live, some s.part.slc.cycle⟩
        out := s.part.slc.out.set j (some (
          if r.awaiting then if heard then settled r else r
          else { r with seq := c.status.extractLsb' 0 2 })) } } }) ∧
    (r.awaiting = true → heard →
      (∀ d : Part, echoRecord slot j node (c.status.extractLsb' 0 2) r d = { d with
        slc := { d.slc with out := d.slc.out.set j (some (settled r)) }
        agenda := d.agenda ++ (if r.staged = r.live then r.told node .ack else []) }) ∧
      ∀ (p : Part) (n : Nat) (pass : Queued),
        p = { s.part with rlp := { s.part.rlp with
          phase := .passing n, requests := [pass], detail := none } } →
        (p.nodeRecord node).state = .live → q ≠ .good → p.rlp.responses.length < 8 →
        r.owed = true → r.lastWriter = some .rlp → r.staged = r.live →
        let u := { p with slc := { p.slc with
          nodes := p.slc.nodes.set (node - 1) ⟨.live, some p.slc.cycle⟩
          out := p.slc.out.set j (some (settled r)) } }
        (n = node → exec (.cellReceive slot c) { s with part := p } =
          .next { s with part := answeredBy (Answer.done []) pass u }) ∧
        (n ≠ node → p.linesFollow →
          exec (.cellReceive slot c) { s with part := p } = .next { s with part := u }))

/-- The raw class of a GOOD sample (R28): the first of the tests above high_trip, above high_warn, below
low_trip and below low_warn that holds, each with the hysteresis of the present class; NORMAL
where none holds, and UNCLASSIFIED for a channel without thresholds. -/
def Obligations.RawClassRule : Prop :=
  ∀ (e : LimitEntry) (c : ChanClass) (v : Int),
    let highTrip := ∃ x, e.highTrip = some x ∧ (v > x ∨ (c = .tripHigh ∧ v > x - e.hysteresis))
    let highWarn := ∃ x, e.highWarn = some x ∧
      (v > x ∨ ((c = .warnHigh ∨ c = .tripHigh) ∧ v > x - e.hysteresis))
    let lowTrip := ∃ x, e.lowTrip = some x ∧ (v < x ∨ (c = .tripLow ∧ v < x + e.hysteresis))
    let lowWarn := ∃ x, e.lowWarn = some x ∧
      (v < x ∨ ((c = .warnLow ∨ c = .tripLow) ∧ v < x + e.hysteresis))
    (highTrip → rawClass (some e) c v = .tripHigh) ∧
    (¬ highTrip → highWarn → rawClass (some e) c v = .warnHigh) ∧
    (¬ highTrip → ¬ highWarn → lowTrip → rawClass (some e) c v = .tripLow) ∧
    (¬ highTrip → ¬ highWarn → ¬ lowTrip → lowWarn → rawClass (some e) c v = .warnLow) ∧
    (¬ highTrip → ¬ highWarn → ¬ lowTrip → ¬ lowWarn → rawClass (some e) c v = .normal) ∧
    rawClass none c v = .unclassified

/-- Persistence (R30, R31): a run of GOOD samples of one raw class that differs from the present class, which
is not STALE, sets the class with the sample that makes the run `persistence` long, and not
before; until then the class stands, with the run as candidate. A sample of the present class ends the run,
and one of a third class begins another. A sample to a STALE channel ends STALE at once, with the raw class
and no run (R34). -/
def Obligations.PersistenceRun : Prop :=
  (∀ (p : Params) (x : ChannelState) (r : ChanClass) (vs : List Int),
    x.cls ≠ .stale → r ≠ x.cls → x.candidate = none → 1 ≤ p.persistence →
    (∀ v ∈ vs, rawClass p.limits x.cls v = r) → vs ≠ [] → vs.length ≤ p.persistence →
    let y := vs.foldl (fun z v => (classify p z v).1) x
    y.last = vs.getLast? ∧ y.miss = 0 ∧ y.lastForwarded = x.lastForwarded ∧
      if vs.length = p.persistence then y.cls = r ∧ y.candidate = none ∧ y.count = 0
      else y.cls = x.cls ∧ y.candidate = some r ∧ y.count = vs.length) ∧
  ∀ (p : Params) (x : ChannelState) (v : Int),
    (x.cls = .stale → classify p x v = ({ x with
      cls := rawClass p.limits .stale v, last := some v, candidate := none, count := 0, miss := 0 },
      true)) ∧
    (x.cls ≠ .stale → rawClass p.limits x.cls v = x.cls → classify p x v =
      ({ x with last := some v, candidate := none, count := 0, miss := 0 }, false)) ∧
    (x.cls ≠ .stale → rawClass p.limits x.cls v ≠ x.cls →
      x.candidate ≠ some (rawClass p.limits x.cls v) → 2 ≤ p.persistence → classify p x v =
        ({ x with last := some v, miss := 0, candidate := some (rawClass p.limits x.cls v)
                  count := 1 }, false))

/-- What a class change brings about. Its event by the class entered (R36): LIMIT_WARN, LIMIT_TRIP,
LIMIT_NORMAL or CHANNEL_STALE with the node, the slot and the class, and none for NORMAL or UNCLASSIFIED
from UNSEEN and for UNSEEN. The trip actions at the entry into a trip class (R37, R38): BRANCH_TRIP puts
TRIP on every valid branch whose switch node is the channel's node and on no other; NODE_STANDBY does the
same where the node is a switch node, and otherwise stages STANDBY (2) for the node as writer TLF; NONE
does nothing. The other holds and CTRL of every branch stand. A GOOD sample posts the event of its class
change, and takes the action only where it enters a trip class. -/
def Obligations.ClassChangeActs : Prop :=
  (∀ (d : Part) (node : Nat), d.bcu.branches.length = 36 →
    takeTrip .never node d = d ∧
    (∀ a, a = .branchTrip ∨ (a = .nodeStandby ∧ (d.branchAt node).isSome) →
      ∀ b x, d.branch b = some x → ∃ y, (takeTrip a node d).branch b = some y ∧
        y.cfg = x.cfg ∧ y.demands.ctrl = x.demands.ctrl ∧
        y.holds = if x.cfg.node = node then { x.holds with trip := true } else x.holds) ∧
    (d.branchAt node = none → ∀ k r, d.outSlot node = some k → entry d.slc.out k = some r →
      entry (takeTrip .nodeStandby node d).slc.out k =
        some { r with staged := some 2, lastWriter := some .tlf, owed := true, forBranch := none })) ∧
  (∀ (d : Part) (k node : Nat) (old new : ChanClass),
    let posts := fun kind => postClass k node old new d =
      post kind (some node) (some (k * 256 + new.code)) d
    (new = .warnLow ∨ new = .warnHigh → posts .limitWarn) ∧
    (new = .tripLow ∨ new = .tripHigh → posts .limitTrip) ∧
    (new = .normal → old ≠ .unseen → posts .limitNormal) ∧
    (new = .unclassified → old = .stale → posts .limitNormal) ∧
    (new = .stale → posts .channelStale) ∧
    ((new = .normal ∨ new = .unclassified) → old = .unseen → postClass k node old new d = d) ∧
    (new = .unseen → postClass k node old new d = d)) ∧
  ∀ (d : Part) (k node : Nat) (kind : ChannelKind) (limit : Option Nat) (x : ChannelState)
    (v : Int), entry d.tlf.channels k = some x → d.bcu.branches.length = 36 →
    let p := paramsOf d kind limit
    let y := classify p x v
    let after := goodSample k node kind limit v d
    let entered := y.2 = true ∧ (y.1.cls = .tripLow ∨ y.1.cls = .tripHigh)
    (y.2 = true → ∀ e, limitEvent x.cls y.1.cls = some e → d.rlp.events.length < 64 →
      after.holdsEvent ⟨e, some node, some (k * 256 + y.1.cls.code), d.slc.cycle⟩) ∧
    ∀ b z, d.branch b = some z → ∃ w, after.branch b = some w ∧
      w.holds.trip = if entered ∧ z.cfg.node = node ∧ p.action ≠ .never then true
        else z.holds.trip

/-- A channel's parameters (R27): a numeric kind has all of its limit entry, a status kind or GENERIC its
stale_limit and forward mode alone with persistence 1, and a channel whose limit reference is ABSENT or
names an empty entry persistence 1, 100 cycles and ALL. The forward modes (R39): ALL always, DELTA at the
first sample and at a difference of at least deadband, CLASS at a class change, NONE never. The Telemetry
Queue while the transmitter is busy (R42): a record joins at the back; at 128 records the oldest is
discarded and TEL_DROPS, which stops at 65535, rises by 1. -/
def Obligations.ForwardingRules : Prop :=
  (∀ (d : Part) (kind : ChannelKind) (limit : Option Nat),
    ((∀ n, limit = some n → entry d.tlf.limits n = none) →
      paramsOf d kind limit = ⟨none, 1, 100, .all, 0, .never⟩) ∧
    ∀ n e, limit = some n → entry d.tlf.limits n = some e →
      (kind ∈ [.rmInVolt, .rmOutPower, .rmTemp, .bmEnergy, .bmPower, .brPower, .lkLevel] →
        paramsOf d kind limit =
          ⟨some e, e.persistence, e.staleLimit, e.forward, e.deadband, e.tripAction⟩) ∧
      (kind ∈ [.rmStatus, .bmStatus, .brStatus, .generic] →
        paramsOf d kind limit = ⟨none, 1, e.staleLimit, e.forward, e.deadband, .never⟩)) ∧
  (∀ (p : Params) (x : ChannelState) (changed : Bool) (v : Int),
    (p.forward = .all → forwards p x changed v = true) ∧
    (p.forward = .delta → (forwards p x changed v = true ↔
      ∀ w, x.lastForwarded = some w → v ≥ w + p.deadband ∨ v ≤ w - p.deadband)) ∧
    (p.forward = .onClass → forwards p x changed v = changed) ∧
    (p.forward = .never → forwards p x changed v = false)) ∧
  ∀ (d : Part) (r : SampleRecord) (m : Uplink), d.rlp.tx = some m →
    (d.tlf.queue.length < 128 →
      forward r d = { d with tlf := { d.tlf with queue := d.tlf.queue ++ [r] } }) ∧
    (128 ≤ d.tlf.queue.length →
      forward r d = { d with tlf := { d.tlf with
        queue := d.tlf.queue.tail ++ [r]
        drops := if d.tlf.drops < 65535 then d.tlf.drops + 1 else d.tlf.drops } })

/-! ## Branches and admission -/

/-- ADMIT_TIMER_EXPIRY and STOP_TIMER_EXPIRY on a timer that runs, in the state that it times (R58): the
branch is in FAULT and in no queue, its configured fields, its holds and its CTRL demand stand, and
BRANCH_FAULT carries the cause (R60); the same four of every other branch stand. On a branch in another
state, or with its timer not running, nothing happens (log 4). -/
def Obligations.BranchTimerExpiryFaults : Prop :=
  ∀ (s : State) (b : Nat) (x : Branch), s.part.calm → s.part.branch b = some x →
    ∀ c st cause, (c, st, cause) ∈
        [(Instr.admitTimerExpiry b, BranchState.admitting, BranchCause.admitTimeout),
          (Instr.stopTimerExpiry b, BranchState.stopping, BranchCause.stopTimeout)] →
      (∀ n, x.timer = .running n → x.state = st →
        ∃ t, exec c s = .next t ∧ t.pending = s.pending ∧
          TablesStand s.part t.part ∧ LinkStands s.part t.part ∧ RequestsStand s.part t.part ∧
          t.part.sru = s.part.sru ∧ t.part.lkm = s.part.lkm ∧
          (∃ y, t.part.branch b = some y ∧ y.state = .fault) ∧ b ∉ t.part.bcu.queue ∧
          (∀ m, (t.part.branch m).map (fun y => (y.cfg, y.holds, y.demands.ctrl)) =
            (s.part.branch m).map fun y => (y.cfg, y.holds, y.demands.ctrl)) ∧
          (s.part.rlp.events.length < 64 →
            t.part.holdsEvent ⟨.branchFault, some b, some cause.code, s.part.slc.cycle⟩)) ∧
      (((∀ n, x.timer ≠ .running n) ∨ x.state ≠ st) → s.part.linesFollow → exec c s = .next s)

/-- An admission attempt (R66 to R68): nothing with an empty queue, with the source outside ON_AC or with the
spacing timer not stopped; HEAD_BLOCKED alone where the capacity or the readiness check fails; and
otherwise the head is admitted, so that committed load rises by its rated_w and does not exceed C.
SPACING_TIMER_EXPIRY (R66, R69): the timer stops and an attempt is made. With an empty queue, or with
the source outside ON_AC, nothing else changes; a head that does not fit leaves HEAD_BLOCKED yes;
a head that fits is admitted: it leaves the queue as ADMITTING with its admit timer started, ON is
staged for its switch node, and the spacing timer runs again. The last is stated for a spacing_ms
above 0 and a run that is not RUNNING. -/
def Obligations.AdmissionAttempts : Prop :=
  (∀ d : Part,
    (d.bcu.queue = [] ∨ d.sru.source ≠ .onAc ∨ d.bcu.spacing ≠ .stopped → attempt d = d) ∧
    ∀ b rest x, d.bcu.queue = b :: rest → d.sru.source = .onAc → d.bcu.spacing = .stopped →
      d.branch b = some x →
      let fits := committedLoad d + x.cfg.ratedW ≤ d.sru.capacity
      let prepared := d.sru.profile.readinessGate = false ∨ (∀ e ∈ d.sru.batts, e = none) ∨
        ∃ u p, d.sru.u = some u ∧ d.sru.p = some p ∧
          (d.sru.profile.tReqS * (1000 + d.sru.profile.marginPm) + 999) / 1000 ≤
            min 65535 (u * 360 / (p + x.cfg.ratedW))
      (¬ (fits ∧ prepared) →
        attempt d = { d with bcu := { d.bcu with headBlocked := true } }) ∧
      (fits → prepared → x.state = .queued → b ∉ rest →
        (∃ k r, d.outSlot x.cfg.node = some k ∧ entry d.slc.out k = some r) →
        (attempt d).branch b = some { x with
          state := .admitting, timer := .running d.sru.profile.admitTimeoutMs } ∧
        (∀ n, n ≠ b → (attempt d).branch n = d.branch n) ∧
        (attempt d).bcu.queue = rest ∧ (attempt d).bcu.headBlocked = false ∧
        (attempt d).bcu.spacing =
          (if d.sru.profile.spacingMs = 0 then .stopped
            else .running d.sru.profile.spacingMs) ∧
        committedLoad (attempt d) = committedLoad d + x.cfg.ratedW ∧
        committedLoad (attempt d) ≤ d.sru.capacity)) ∧
  ∀ (s : State) (left : Nat), s.part.calm → s.part.bcu.spacing = .running left →
    ((s.part.bcu.queue = [] ∨ s.part.sru.source ≠ .onAc) → s.part.linesFollow →
      exec .spacingTimerExpiry s =
        .next { s with part := { s.part with bcu := { s.part.bcu with spacing := .stopped } } }) ∧
    ∀ b rest x, s.part.bcu.queue = b :: rest → s.part.sru.source = .onAc →
      s.part.branch b = some x →
      (¬ (committedLoad s.part + x.cfg.ratedW ≤ s.part.sru.capacity ∧
          ready s.part x.cfg.ratedW = true) → s.part.linesFollow →
        exec .spacingTimerExpiry s = .next { s with part := { s.part with
          bcu := { s.part.bcu with spacing := .stopped, headBlocked := true } } }) ∧
      (∀ k r, committedLoad s.part + x.cfg.ratedW ≤ s.part.sru.capacity →
        ready s.part x.cfg.ratedW = true → 0 < s.part.sru.profile.spacingMs →
        b ∉ rest → s.part.sqe.run ≠ .running →
        s.part.outSlot x.cfg.node = some k → entry s.part.slc.out k = some r →
        ∃ t, exec .spacingTimerExpiry s = .next t ∧ t.pending = s.pending ∧
          TablesStand s.part t.part ∧ LinkStands s.part t.part ∧ RequestsStand s.part t.part ∧
          t.part.sru = s.part.sru ∧ t.part.sqe = s.part.sqe ∧ t.part.lkm = s.part.lkm ∧
          t.part.branch b = some { x with
            state := .admitting, timer := .running s.part.sru.profile.admitTimeoutMs } ∧
          (∀ n, n ≠ b → t.part.branch n = s.part.branch n) ∧
          t.part.bcu.queue = rest ∧
          t.part.bcu.spacing = .running s.part.sru.profile.spacingMs ∧
          t.part.bcu.headBlocked = false ∧
          entry t.part.slc.out k = some { r with
            staged := some 1, lastWriter := some .bcu, owed := true, forBranch := some b } ∧
          ∀ j, j ≠ k → entry t.part.slc.out j = entry s.part.slc.out j)

/-- BRANCH_REQUEST on a valid branch (R51): ON sets CTRL and clears FORCE_OFF, OFF clears CTRL and sets
FORCE_OFF, RELEASE clears both. The answer is DONE, with the held note where a hold is left. The
other holds, the configured fields and the reading of the branch stand, and so do those of every
other branch. Then the output rule acts: where a first hold arrives, or a branch without a hold loses its
last demand, a QUEUED branch leaves the Admission Queue and is OFF, an ADMITTING or ON one is STOPPING with
OFF staged and its stop timer started, and any other changes nothing (R54); an OFF branch that now holds a
demand and no hold is QUEUED at the back (R55); in every other case the state stands. This is stated where
neither an admission attempt nor a RUNNING run takes the change further. -/
def Obligations.BranchRequestActs : Prop :=
  ∀ (s : State) (tag branch action : Word) (x : Branch), s.part.ready → branch.toNat < 36 →
    s.part.branch branch.toNat = some x → action.toNat ≤ 2 →
    ∃ t, exec (.branchRequest tag branch action) s = .next t ∧ t.pending = s.pending ∧
      TablesStand s.part t.part ∧ LinkStands s.part t.part ∧
      t.part.sru = s.part.sru ∧ t.part.lkm = s.part.lkm ∧
      Answered { Answer.done [] with
          held := x.holds.leak || x.holds.trip || x.holds.shed || action.toNat == 1 }
        ⟨tag, .branchRequest branch action⟩ t.part ∧
      (∃ y, t.part.branch branch.toNat = some y ∧ y.cfg = x.cfg ∧ y.reading = x.reading ∧
        y.fresh = x.fresh ∧ y.demands.ctrl = (action.toNat == 0) ∧
        y.holds = { x.holds with forceOff := action.toNat == 1 }) ∧
      (∀ n, n ≠ branch.toNat →
        (t.part.branch n).map (fun y => (y.cfg, y.holds, y.demands.ctrl, y.reading, y.fresh)) =
          (s.part.branch n).map fun y => (y.cfg, y.holds, y.demands.ctrl, y.reading, y.fresh)) ∧
      (s.part.sqe.run ≠ .running → (s.part.sru.source ≠ .onAc ∨ s.part.bcu.spacing ≠ .stopped) →
        let y := { x with
          demands := { x.demands with ctrl := action.toNat == 0 }
          holds := { x.holds with forceOff := action.toNat == 1 } }
        let loses := (x.holds.any = false ∧ y.holds.any = true) ∨
          (y.holds.any = false ∧ x.demands.any = true ∧ y.demands.any = false)
        let becomes := fun z q => t.part.branch branch.toNat = some z ∧ t.part.bcu.queue = q
        (loses → x.state = .queued →
          becomes { y with state := .off } (s.part.bcu.queue.filter (· != branch.toNat)) ∧
            t.part.slc.out = s.part.slc.out) ∧
        (loses → x.state = .admitting ∨ x.state = .on → ∀ k r, s.part.outSlot x.cfg.node = some k →
          entry s.part.slc.out k = some r →
          becomes { y with
            state := .stopping, timer := .running s.part.sru.profile.admitTimeoutMs }
            s.part.bcu.queue ∧
          t.part.slc.out = s.part.slc.out.set k (some { r with
            staged := some 0, lastWriter := some .bcu, owed := true
            forBranch := some branch.toNat })) ∧
        (x.state = .off → x.wanted = false → y.wanted = true →
          becomes { y with state := .queued } (s.part.bcu.queue ++ [branch.toNat]) ∧
            t.part.slc.out = s.part.slc.out) ∧
        ((¬ loses ∧ (x.state ≠ .off ∨ y.wanted = false)) ∨
            (loses ∧ x.state = .off) ∨ x.state = .unknown ∨ x.state = .stopping ∨ x.state = .fault →
          becomes y s.part.bcu.queue ∧ t.part.slc.out = s.part.slc.out))

/-- BRANCH_CLEAR on a valid branch (R52): TRIP goes in any state and the answer is DONE; the other holds,
CTRL and the configured fields stand, and so do those of every other branch. The operation itself
makes a branch in FAULT OFF, or QUEUED at the back where it then holds a demand and no hold, with
its timer stopped, found-faulted no and nothing staged. -/
def Obligations.BranchClearActs : Prop :=
  (∀ (s : State) (tag branch : Word) (x : Branch), s.part.ready → branch.toNat < 36 →
    s.part.branch branch.toNat = some x →
    ∃ t, exec (.branchClear tag branch) s = .next t ∧ t.pending = s.pending ∧
      TablesStand s.part t.part ∧ LinkStands s.part t.part ∧
      t.part.sru = s.part.sru ∧ t.part.lkm = s.part.lkm ∧
      Answered (Answer.done []) ⟨tag, .branchClear branch⟩ t.part ∧
      (∃ y, t.part.branch branch.toNat = some y ∧ y.cfg = x.cfg ∧
        y.demands.ctrl = x.demands.ctrl ∧ y.holds = { x.holds with trip := false }) ∧
      ∀ n, n ≠ branch.toNat →
        (t.part.branch n).map (fun y => (y.cfg, y.holds, y.demands.ctrl)) =
          (s.part.branch n).map fun y => (y.cfg, y.holds, y.demands.ctrl)) ∧
  ∀ (d : Part) (b : Nat) (x : Branch), d.branch b = some x → x.state = .fault →
    let free := (x.demands.seq = true ∨ x.demands.ctrl = true) ∧ x.holds.leak = false ∧
      x.holds.shed = false ∧ x.holds.forceOff = false
    let y := { x with
      timer := .stopped, foundFaulted := false, holds := { x.holds with trip := false } }
    (branchClear b d).slc = d.slc ∧
      (free → (branchClear b d).branch b = some { y with state := .queued } ∧
        (branchClear b d).bcu.queue = d.bcu.queue ++ [b]) ∧
      (¬ free → (branchClear b d).branch b = some { y with state := .off } ∧
        (branchClear b d).bcu.queue = d.bcu.queue)

/-- What a GOOD BR_STATUS sample makes of a branch by its state and its code, OFF 0, ON 1, POWER_GOOD 2,
FAULT 3 (R56, R57, R60). CELL_RECEIVE of a GOOD BR_STATUS cell of a LIVE switch node does that to the branch
of the node, to the Admission Queue and to what is staged, posts its records, and touches no other branch.
This is stated where neither an admission attempt nor a RUNNING run takes the change further. That the cell's
echo is read after the sample has acted is the model's choice (log 34, DESIGN CHOICE). -/
def Obligations.SwitchReadingTable : Prop :=
  (∀ (d : Part) (b : Nat) (x : Branch), d.branch b = some x →
    let read := fun code : Int => switchReading b code d
    (x.state = .fault → ∀ code, read code = d) ∧
    (x.state = .off ∨ x.state = .queued → read 0 = d ∧
      (∀ code, code = 1 ∨ code = 2 → EntersFault .uncommandedOn b x d (read code))) ∧
    (x.state = .admitting → read 0 = d ∧ read 1 = d ∧
      (read 2).branch b = some { x with state := .on, timer := .stopped } ∧
      (read 2).bcu.queue = d.bcu.queue ∧ (read 2).slc = d.slc) ∧
    (x.state = .on → EntersFault .uncommandedOff b x d (read 0) ∧ read 1 = d ∧ read 2 = d) ∧
    (x.state = .stopping → read 1 = d ∧ read 2 = d ∧ (read 0).slc = d.slc ∧
      if x.wanted = true then
        (read 0).branch b = some { x with state := .queued, timer := .stopped } ∧
          (read 0).bcu.queue = d.bcu.queue ++ [b]
      else (read 0).branch b = some { x with state := .off, timer := .stopped } ∧
        (read 0).bcu.queue = d.bcu.queue) ∧
    (x.state ≠ .fault → EntersFault .switchFault b x d (read 3)) ∧
    (x.state = .unknown → ∀ k r, d.outSlot x.cfg.node = some k → entry d.slc.out k = some r →
      let staged := fun (v : Word) (d' : Part) => entry d'.slc.out k = some { r with
        staged := some v, lastWriter := some .bcu, owed := true, forBranch := some b }
      let adopted := { x with demands := { x.demands with seq := true } }
      staged 0 (read 0) ∧
      (if x.wanted = true then (read 0).branch b = some { x with state := .queued } ∧
          (read 0).bcu.queue = d.bcu.queue ++ [b]
        else (read 0).branch b = some { x with state := .off } ∧
          (read 0).bcu.queue = d.bcu.queue) ∧
      (∀ code, code = 1 ∨ code = 2 →
        if x.holds.any = true then staged 0 (read code) ∧
          (read code).branch b = some { adopted with
            state := .stopping, timer := .running d.sru.profile.admitTimeoutMs }
        else staged 1 (read code) ∧ (read code).branch b = some { adopted with state := .on }))) ∧
  ∀ (s : State) (slot node b : Nat) (limit : Option Nat) (c : InCell) (code : Int),
    s.part.calm → entry s.part.slc.active slot = some (.input node .brStatus limit) →
    crc8 [c.node, c.kind, hiByte c.value, loByte c.value, c.status] = c.check →
    Quality.ofCode (c.status >>> 6).toNat = some .good →
    sampleOf .brStatus .good c.value = .good code →
    c.node.toNat = node → c.kind.toNat = ChannelKind.brStatus.code →
    (s.part.nodeRecord node).state = .live → s.part.branchAt node = some b →
    s.part.sqe.run ≠ .running → (s.part.sru.source ≠ .onAc ∨ s.part.bcu.spacing ≠ .stopped) →
    let read := switchReading b code s.part
    let told := fun (d : Part) k => (entry d.slc.out k).map fun r =>
      (r.staged, r.lastWriter, r.forBranch)
    ∃ t, exec (.cellReceive slot c) s = .next t ∧ t.pending = s.pending ∧
      t.part.branch b = read.branch b ∧
      (∀ n, n ≠ b → t.part.branch n = s.part.branch n) ∧
      t.part.bcu.queue = read.bcu.queue ∧ (∀ k, told t.part k = told read k) ∧
      (NoRecordLost s.part t.part → ∀ r ∈ read.posted, t.part.holdsEvent r)

/-- The release to the front (R64), with the shed sets as they have been left: the branches that lose SHED,
are OFF, and then hold a demand and no hold, are QUEUED ahead of every present member, in ascending tier
and, within a tier, in ascending branch number; the present members keep their order. Every other branch
carries SHED as the sets say and is unchanged. -/
def Obligations.ReleaseToFront : Prop :=
  ∀ d : Part, d.bcu.branches.length = 36 →
    (∀ b x, d.branch b = some x → x.cfg.tier < 8) →
    ∃ front, (releaseShed d).bcu.queue = front ++ d.bcu.queue ∧
      (∀ b, b ∈ front ↔ ∃ x, d.branch b = some x ∧ x.state = .off ∧ x.holds.shed = true ∧
        d.sru.shed.getLsbD x.cfg.tier = false ∧ x.demands.any = true ∧ x.holds.leak = false ∧
        x.holds.trip = false ∧ x.holds.forceOff = false) ∧
      front.Pairwise (fun a b => ∀ x y, d.branch a = some x → d.branch b = some y →
        x.cfg.tier < y.cfg.tier ∨ (x.cfg.tier = y.cfg.tier ∧ a < b)) ∧
      ∀ b x, d.branch b = some x →
        let y := { x with holds := { x.holds with shed := d.sru.shed.getLsbD x.cfg.tier } }
        (releaseShed d).branch b = some (if b ∈ front then { y with state := .queued } else y)

/-! ## The source -/

/-- ACFAIL_IN_CHANGE by the state it finds (R79, R81 to R83, R127): in SOURCE_UNKNOWN, and where neither AC
condition asks for a move, the line alone changes; in ON_AC an assertion begins an episode; in
ON_BATTERY and DEPLETED a deassertion with min_rect rectifiers OK begins the return; in
AC_RETURN_PENDING an assertion ends it. A move to a state other than ON_AC holds the AC cause and
suspends a RUNNING run with its timer frozen. -/
def Obligations.AcfailInChangeActs : Prop :=
  ∀ (s : State) (a : Bool), s.part.calm → s.part.linesFollow →
    let d := { s.part with lines := { s.part.lines with acfailIn := a } }
    let good := a = false ∧ s.part.sru.profile.minRect ≤ (okRatings s.part).length
    let anyOk := validRects s.part = [] ∨ ∃ r ∈ validRects s.part, r.state = .ok
    let moves := fun (u : Sru) => ∃ t, exec (.acfailInChange a) s = .next t ∧
      t.pending = s.pending ∧ TablesStand d t.part ∧ LinkStands d t.part ∧ RequestsStand d t.part ∧
      t.part.sru = u ∧ t.part.lkm = s.part.lkm ∧ t.part.lines.alertOut = true ∧
      t.part.sqe.causes = { s.part.sqe.causes with ac := true } ∧
      t.part.sqe.index = s.part.sqe.index ∧ t.part.sqe.phase = s.part.sqe.phase ∧
      (if s.part.sqe.run = .running then
          t.part.sqe.run = .suspended ∧ t.part.sqe.timer = s.part.sqe.timer.freeze
        else t.part.sqe.run = s.part.sqe.run ∧ t.part.sqe.timer = s.part.sqe.timer) ∧
      ∀ b, (t.part.branch b).map (fun y => (y.cfg, y.holds.leak, y.holds.trip, y.holds.forceOff)) =
        (s.part.branch b).map fun y => (y.cfg, y.holds.leak, y.holds.trip, y.holds.forceOff)
    let lost := fun (left : Nat) => s.part.rlp.events.length + 37 ≤ 64 →
      ∃ t, exec (.acfailInChange a) s = .next t ∧
        t.part.holdsEvent ⟨.acLoss, none, some left, s.part.slc.cycle⟩
    match s.part.sru.source with
    | .unknown => exec (.acfailInChange a) s = .next { s with part := d }
    | .onAc =>
      (a = true →
        moves { s.part.sru with
          source := .onBattery, tBatt := 0, tBattCounts := true, depletedFlag := false
          deficitPosted := false, holdupPosted := false, capTimer := .stopped, capShed := 0
          capDeficitPosted := false } ∧ lost 1) ∧
      (a = false → anyOk → exec (.acfailInChange a) s = .next { s with part := d })
    | .returnPending =>
      (a = true →
        moves { s.part.sru with
          source := if s.part.sru.depletedFlag then .depleted else .onBattery
          stableTimer := .stopped } ∧ lost 3) ∧
      (good → exec (.acfailInChange a) s = .next { s with part := d })
    | _ =>
      (good → moves { s.part.sru with
        source := .returnPending, stableTimer := .running s.part.sru.profile.acStableMs }) ∧
      (¬ good → exec (.acfailInChange a) s = .next { s with part := d })

/-- QUALIFICATION_TIMER_EXPIRY in SOURCE_UNKNOWN (R80): with no valid rectifier the timer is stopped and the
state stays. Otherwise the decision is made: ON_AC where AC good holds, with both shed sets empty,
and else ON_BATTERY with an episode begun; SOURCE_QUALIFIED is posted, and before AC_LOSS. The
evaluation timer starts (R95).
STABLE_TIMER_EXPIRY in AC_RETURN_PENDING (R84, R88): ON_AC, t_batt stopped at its value, both shed sets
empty and SHED gone from every branch; AC_RETURN carries the whole seconds of the episode and
RESTORE_DONE, after it, the number of tiers released. In another state, or with the timer not running,
nothing happens (R83; log 4, DESIGN CHOICE). -/
def Obligations.SourceTimersExpire : Prop :=
  (∀ (s : State) (left : Nat), s.part.calm → s.part.sru.source = .unknown →
    s.part.sru.qualTimer = .running left →
    let good := s.part.lines.acfailIn = false ∧
      s.part.sru.profile.minRect ≤ (okRatings s.part).length
    let decides := fun (u : Sru) (e : List EventRecord) =>
      ∃ t, exec .qualificationTimerExpiry s = .next t ∧ t.pending = s.pending ∧
        TablesStand s.part t.part ∧ LinkStands s.part t.part ∧ RequestsStand s.part t.part ∧
        t.part.lkm = s.part.lkm ∧ t.part.sru = u ∧
        (s.part.rlp.events.length + 38 ≤ 64 → e.Sublist t.part.posted)
    let base := { s.part.sru with
      qualTimer := .stopped, evalTimer := .running s.part.sru.profile.evalMs
      depletedFlag := false, capShed := 0, capDeficitPosted := false }
    (validRects s.part = [] → s.part.linesFollow →
      exec .qualificationTimerExpiry s = .next { s with part := { s.part with
        sru := { s.part.sru with qualTimer := .stopped } } }) ∧
    (validRects s.part ≠ [] → good →
      decides { base with
          source := .onAc, stableTimer := .stopped, tBattCounts := false
          evaluatedOnAc := false, battShed := 0 }
        [⟨.sourceQualified, none, some 1, s.part.slc.cycle⟩]) ∧
    (validRects s.part ≠ [] → ¬ good →
      decides { base with
          source := .onBattery, tBatt := 0, tBattCounts := true, deficitPosted := false
          holdupPosted := false, capTimer := .stopped }
        [⟨.sourceQualified, none, some 2, s.part.slc.cycle⟩,
          ⟨.acLoss, none, some 0, s.part.slc.cycle⟩])) ∧
  ∀ s : State, s.part.calm →
    (∀ left, s.part.sru.source = .returnPending → s.part.sru.stableTimer = .running left →
      ∃ t, exec .stableTimerExpiry s = .next t ∧ t.pending = s.pending ∧
        TablesStand s.part t.part ∧ LinkStands s.part t.part ∧ RequestsStand s.part t.part ∧
        t.part.lkm = s.part.lkm ∧
        t.part.sru = { s.part.sru with
          source := .onAc, stableTimer := .stopped, tBattCounts := false, depletedFlag := false
          evaluatedOnAc := false, battShed := 0, capShed := 0, capDeficitPosted := false } ∧
        (∀ b, b < 36 → (t.part.branch b).map (fun y => (y.cfg, y.demands.ctrl, y.holds)) =
          (s.part.branch b).map fun y =>
            (y.cfg, y.demands.ctrl, { y.holds with shed := false })) ∧
        (s.part.rlp.events.length + 2 ≤ 64 →
          [⟨.acReturn, none, some (s.part.sru.tBatt / 1000), s.part.slc.cycle⟩,
            ⟨.restoreDone, none, some (tierCount (s.part.sru.battShed ||| s.part.sru.capShed)),
              s.part.slc.cycle⟩].Sublist t.part.posted)) ∧
    ((s.part.sru.source ≠ .returnPending ∨ ∀ left, s.part.sru.stableTimer ≠ .running left) →
      s.part.linesFollow → exec .stableTimerExpiry s = .next s)

/-- CAPACITY_PERSISTENCE_EXPIRY (R90): the timer stops; in ON_AC with a load above C the tiers that the
procedure selects join the capacity-shed set and every branch of a tier in a shed set carries SHED;
with no tier left and the load still above C, CAPACITY_DEFICIT is posted once with the excess.
Otherwise nothing else changes. -/
def Obligations.CapacityExpirySheds : Prop :=
  ∀ (s : State) (left : Nat), s.part.calm → s.part.sru.capTimer = .running left →
    ((s.part.sru.source ≠ .onAc ∨ load s.part ≤ s.part.sru.capacity) → s.part.linesFollow →
      exec .capacityPersistenceExpiry s = .next { s with part := { s.part with
        sru := { s.part.sru with capTimer := .stopped } } }) ∧
    (s.part.sru.source = .onAc → s.part.sru.capacity < load s.part →
      let chosen := selectTiers (· ≤ s.part.sru.capacity) 0 s.part.sru.capShed
        (tierLoad s.part) [7, 6, 5, 4, 3, 2, 1] (load s.part)
      ∃ t, exec .capacityPersistenceExpiry s = .next t ∧ t.pending = s.pending ∧
        TablesStand s.part t.part ∧ LinkStands s.part t.part ∧ RequestsStand s.part t.part ∧
        t.part.lkm = s.part.lkm ∧
        t.part.sru = { s.part.sru with
          capTimer := .stopped, capShed := addTiers s.part.sru.capShed chosen.1
          capDeficitPosted := s.part.sru.capDeficitPosted || !chosen.2.2 } ∧
        (∀ b, b < 36 → (t.part.branch b).map (fun y => (y.cfg, y.demands.ctrl, y.holds)) =
          (s.part.branch b).map fun y => (y.cfg, y.demands.ctrl, { y.holds with
            shed := (s.part.sru.battShed ||| addTiers s.part.sru.capShed chosen.1).getLsbD
              y.cfg.tier })) ∧
        (s.part.rlp.events.length + 8 ≤ 64 →
          (∀ k ∈ chosen.1, t.part.holdsEvent ⟨.shedTier, some k, some 1, s.part.slc.cycle⟩) ∧
          (chosen.2.2 = false → s.part.sru.capDeficitPosted = false →
            t.part.holdsEvent ⟨.capacityDeficit, none,
              some (chosen.2.1 - s.part.sru.capacity), s.part.slc.cycle⟩)))

/-- The tier-selection procedure (R90, R106): from tier 7 down to tier 1 the tiers outside the set are taken
in turn, each subtracted but not below the least load, until the goal is first met; the goal met,
the procedure ends there, and not met, every such tier is taken. Tier 0 is never selected, and
adding the selected tiers adds them and no other. -/
def Obligations.TierSelection : Prop :=
  ∀ (goal : Nat → Bool) (least : Nat) (set : TierSet) (part : Nat → Nat) (p : Nat),
    let chosen := selectTiers goal least set part [7, 6, 5, 4, 3, 2, 1] p
    let outside := [7, 6, 5, 4, 3, 2, 1].filter fun k => !set.getLsbD k
    let leaves := fun ks => ks.foldl (fun q k => max least (q - part k)) p
    (chosen.1 <+: outside) ∧ chosen.2.1 = leaves chosen.1 ∧
      (chosen.2.2 = true → chosen.1 ≠ [] ∧ goal (leaves chosen.1) = true) ∧
      (chosen.2.2 = false → chosen.1 = outside) ∧
      (∀ n, 0 < n → n < chosen.1.length → goal (leaves (chosen.1.take n)) = false) ∧
      (chosen.2.2 = false → chosen.1 ≠ [] → goal (leaves chosen.1) = false) ∧
      (∀ k, k < 8 → (addTiers set chosen.1).getLsbD k = (set.getLsbD k || k ∈ chosen.1)) ∧
      (addTiers set chosen.1).getLsbD 0 = set.getLsbD 0

/-- EVALUATION publishes its figures (R97 to R104, R112): U formed from the ONLINE modules, or held where no
module is ONLINE and one is STALE; P; T_proj, T_need and T_goal. Its timer restarts (R95). In ON_AC
the capacity condition is examined and nothing is shed for the battery (R89, R105). -/
def Obligations.EvaluationPublishes : Prop :=
  ∀ (s : State) (left : Nat), s.part.calm → s.part.sru.evalTimer = .running left →
    let d := s.part
    let online := (validBatts d).filter fun b => b.state == .online
    let held := online = [] ∧ ∃ b ∈ validBatts d, b.state = .stale
    let formed := (online.map fun b => energyOf d b - d.sru.profile.floor).sum *
      d.sru.profile.effPm / 1000
    let kept := min (d.sru.u.getD 0)
      (((validBatts d).map fun b => energyOf d b).sum * d.sru.profile.effPm / 1000)
    let u := if held then kept else formed
    let p := load d
    let need := if d.sru.source = .onAc ∨ d.sru.source = .unknown then d.sru.profile.tReqS
      else d.sru.profile.tReqS - d.sru.tBatt / 1000
    ∃ t, exec .evaluation s = .next t ∧ t.pending = s.pending ∧
      TablesStand s.part t.part ∧ LinkStands s.part t.part ∧ RequestsStand s.part t.part ∧
      t.part.lkm = s.part.lkm ∧
      t.part.sru.u = some u ∧ t.part.sru.p = some p ∧
      t.part.sru.tProj = some (min 65535 (u * 360 / p)) ∧ t.part.sru.tNeed = some need ∧
      t.part.sru.tGoal = some ((need * (1000 + d.sru.profile.marginPm) + 999) / 1000) ∧
      (t.part.sru.held = true ↔ held) ∧
      t.part.sru.evalTimer = .running d.sru.profile.evalMs ∧
      t.part.sru.capacity = d.sru.capacity ∧ t.part.sru.capShed = d.sru.capShed ∧
      (d.sru.source = .onAc → t.part.sru.source = .onAc ∧
        t.part.sru.battShed = d.sru.battShed ∧ t.part.sru.evaluatedOnAc = true ∧
        t.part.sru.capTimer = (if p ≤ d.sru.capacity then .stopped
          else if d.sru.capTimer = .stopped then .running d.sru.profile.capPersistMs
          else d.sru.capTimer))

/-- What an evaluation of an episode sheds (R105 to R108, R110, R111, R85). In ON_BATTERY and
AC_RETURN_PENDING, with U not held, where T_proj is below T_goal and a tier from 1 to 7 is outside the set,
the selected tiers join the battery-shed set, each with SHED_TIER, and with no tier left and the goal still
not met DEFICIT is posted once with the seconds missing; otherwise the set stands. HOLDUP_LOW is posted
once in an episode, where T_proj is at most warn_s. An evaluation that finds no module ONLINE and none
STALE, or U at 0 and not held, depletes the part, once in an episode: every tier is shed, the depleted flag
is set, DEPLETED is posted with the seconds of the episode, and the state is DEPLETED or, with AC good,
AC_RETURN_PENDING with its stable timer started. In DEPLETED the sets stand. -/
def Obligations.EvaluationSheds : Prop :=
  ∀ (s : State) (left : Nat), s.part.calm → s.part.sru.evalTimer = .running left →
    s.part.sru.source = .onBattery ∨ s.part.sru.source = .returnPending ∨
      s.part.sru.source = .depleted →
    let d := s.part
    let u := usableEnergy d
    let p := load d
    let goal := goalOf d
    let time := min 65535 (u * 360 / p)
    let held := holdsEnergy d
    let good := d.lines.acfailIn = false ∧ d.sru.profile.minRect ≤ (okRatings d).length
    let depletes := held = false ∧ (u = 0 ∨ ∀ b ∈ validBatts d, b.state ≠ .online) ∧
      (d.sru.source = .onBattery ∨ (d.sru.source = .returnPending ∧ d.sru.depletedFlag = false))
    let due := d.sru.source ≠ .depleted ∧ held = false ∧ d.sru.battShed &&& 0xFE#8 ≠ 0xFE#8 ∧
      time < goal
    let chosen := selectTiers (fun q => decide (goal ≤ min 65535 (u * 360 / q))) 1 d.sru.battShed
      (tierLoad d) [7, 6, 5, 4, 3, 2, 1] p
    let low := time ≤ d.sru.profile.warnS
    let event := fun k n v => EventRecord.mk k n (some v) d.slc.cycle
    ∃ t, exec .evaluation s = .next t ∧
      (¬ depletes → t.part.sru.source = d.sru.source ∧
        t.part.sru.depletedFlag = d.sru.depletedFlag ∧
        t.part.sru.stableTimer = d.sru.stableTimer ∧
        t.part.sru.battShed = (if due then addTiers d.sru.battShed chosen.1 else d.sru.battShed)) ∧
      (depletes → t.part.sru.battShed = 0xFF#8 ∧ t.part.sru.depletedFlag = true ∧
        (good → t.part.sru.source = .returnPending ∧
          t.part.sru.stableTimer = .running d.sru.profile.acStableMs) ∧
        (¬ good → t.part.sru.source = .depleted ∧ t.part.sru.stableTimer = .stopped)) ∧
      t.part.sru.capShed = d.sru.capShed ∧
      t.part.sru.deficitPosted = (d.sru.deficitPosted || (decide due && !chosen.2.2)) ∧
      t.part.sru.holdupPosted = (d.sru.holdupPosted || decide low) ∧
      (∀ b, b < 36 → ∀ y, t.part.branch b = some y → (due ∨ depletes) →
        y.holds.shed = (t.part.sru.battShed ||| t.part.sru.capShed).getLsbD y.cfg.tier) ∧
      (d.rlp.events.length + 46 ≤ 64 →
        (due → ∀ k ∈ chosen.1, t.part.holdsEvent (event .shedTier (some k) 0)) ∧
        (due → chosen.2.2 = false → d.sru.deficitPosted = false →
          t.part.holdsEvent (event .deficit none (goal - min 65535 (u * 360 / chosen.2.1)))) ∧
        (low → d.sru.holdupPosted = false → t.part.holdsEvent (event .holdupLow none time)) ∧
        (depletes → t.part.holdsEvent (event .depleted none (d.sru.tBatt / 1000))))

/-- The derived states, C and the AC conditions. A rectifier is ABSENT, FAULT, STANDBY, INPUT_FAIL or OK by
the first of the conditions of R73 that holds, a battery ABSENT, FAULT, EMPTY, STALE or ONLINE by those of
R76 (that an UNSEEN energy channel with a last value is tested against floor is the model's choice, log 31,
DESIGN CHOICE); a derived state that differs is taken and posted, with C recomputed (R74), and one that does
not differ does nothing. CELL_RECEIVE of a GOOD cell of a rectifier or battery kind, or of any accepted cell
of a node that was not LIVE, and CYCLE_END where a channel of such a kind becomes STALE or a node falls
silent, take the derived states into the tables (R74, R76); those of a silent node are ABSENT. C (R77) is 0
with no OK rectifier, the sum of the OK ratings under N, and that sum less the largest of them, once, under
N_PLUS_1. AC lost and AC good (R79) never hold together while min_rect is at least 1, its least value; both
fail with some rectifiers OK but fewer than min_rect; and with no valid entry AC lost is the line. -/
def Obligations.ModulesAndCapacity : Prop :=
  (∀ (d : Part) (ratings : List Nat),
    ratings = ((d.sru.rects.filterMap id).filter fun r => r.state == .ok).map Rectifier.ratedW →
    (ratings = [] → capacityOf d = 0) ∧
    (d.sru.profile.redundancy = .plain → capacityOf d = ratings.sum) ∧
    (d.sru.profile.redundancy = .nPlusOne → ∀ m ∈ ratings, (∀ n ∈ ratings, n ≤ m) →
      capacityOf d + m = ratings.sum) ∧
    (1 ≤ d.sru.profile.minRect →
      ¬ (acLost d = true ∧ acGood d = true) ∧
      (d.lines.acfailIn = false → 0 < ratings.length →
        ratings.length < d.sru.profile.minRect → acLost d = false ∧ acGood d = false) ∧
      (d.sru.rects.filterMap id = [] → acLost d = d.lines.acfailIn ∧ acGood d = false))) ∧
  (∀ (d : Part) (node : Nat),
    let absent := (d.nodeRecord node).state ≠ .live ∨ d.channelOf node .rmStatus = none ∨
      ∃ c, d.channelOf node .rmStatus = some c ∧ (c.cls = .stale ∨ c.cls = .unseen)
    let tripLow := ∃ c, d.channelOf node .rmInVolt = some c ∧ c.cls = .tripLow
    (absent → rectStateOf node d = .absent) ∧
    (¬ absent → ∀ c, d.channelOf node .rmStatus = some c →
      (c.last = some 2 → rectStateOf node d = .fault) ∧
      (c.last = some 3 → rectStateOf node d = .standby) ∧
      (c.last = some 1 ∨ (c.last = some 0 ∧ tripLow) → rectStateOf node d = .inputFail) ∧
      (c.last = some 0 → ¬ tripLow → rectStateOf node d = .ok))) ∧
  (∀ (d : Part) (node : Nat),
    let status := fun v => ∃ c, d.channelOf node .bmStatus = some c ∧ c.last = some v
    let low := ∃ c e, d.channelOf node .bmEnergy = some c ∧ c.last = some e ∧
      e ≤ d.sru.profile.floor
    let fresh := ∃ c, d.channelOf node .bmEnergy = some c ∧ c.cls ≠ .stale ∧ c.cls ≠ .unseen
    let live := (d.nodeRecord node).state = .live
    (¬ live → battStateOf node d = .absent) ∧
    (live → status 3 → battStateOf node d = .fault) ∧
    (live → ¬ status 3 → status 4 ∨ low → battStateOf node d = .empty) ∧
    (live → ¬ status 3 → ¬ status 4 → ¬ low →
      battStateOf node d = if fresh then .online else .stale)) ∧
  (∀ (d : Part) (i : Nat),
    (∀ r, entry d.sru.rects i = some r →
      (rectStateOf r.node d = r.state → deriveRect i d = d) ∧
      (rectStateOf r.node d ≠ r.state →
        entry (deriveRect i d).sru.rects i = some { r with state := rectStateOf r.node d } ∧
        (deriveRect i d).sru.capacity = capacityOf (deriveRect i d) ∧
        (d.rlp.events.length < 64 → (deriveRect i d).holdsEvent
          ⟨.rectState, some r.node, some (rectStateOf r.node d).code, d.slc.cycle⟩))) ∧
    ∀ r, entry d.sru.batts i = some r →
      (battStateOf r.node d = r.state → deriveBatt i d = d) ∧
      (battStateOf r.node d ≠ r.state →
        entry (deriveBatt i d).sru.batts i = some { r with state := battStateOf r.node d } ∧
        (d.rlp.events.length < 64 → (deriveBatt i d).holdsEvent
          ⟨.batteryState, some r.node, some (battStateOf r.node d).code, d.slc.cycle⟩))) ∧
  ∀ s : State, s.part.calm →
    (∀ (slot node : Nat) (kind : ChannelKind) (limit : Option Nat) (q : Quality) (c : InCell),
      entry s.part.slc.active slot = some (.input node kind limit) →
      crc8 [c.node, c.kind, hiByte c.value, loByte c.value, c.status] = c.check →
      Quality.ofCode (c.status >>> 6).toNat = some q →
      c.node.toNat = node → c.kind.toNat = kind.code →
      (kind.isModule = true ∧ (entry s.part.tlf.channels slot).isSome = true ∧
          ∃ v, sampleOf kind q c.value = .good v) ∨
        (s.part.nodeRecord node).state ≠ .live →
      ∃ t, exec (.cellReceive slot c) s = .next t ∧ t.pending = s.pending ∧
        ModulesDerived s.part t.part) ∧
    let silent := fun node => 1 ≤ node ∧ node ≤ 62 ∧ ∃ h,
      s.part.nodeRecord node = ⟨.live, some h⟩ ∧
        s.part.sru.profile.nodeSilence ≤ (s.part.slc.cycle - h).toNat
    let staled := ∃ slot node kind limit x, slot < 96 ∧ slot ∉ s.part.slc.satisfied ∧
      entry s.part.slc.active slot = some (.input node kind limit) ∧ kind.isModule = true ∧
      entry s.part.tlf.channels slot = some x ∧ x.cls ≠ .unseen ∧ x.cls ≠ .stale ∧
      (paramsOf s.part kind limit).staleLimit ≤ satInc x.miss
    ∃ t, exec .cycleEnd s = .next t ∧ t.pending = s.pending ∧
      ((∃ node, silent node) ∨ staled → ModulesDerived s.part t.part) ∧
      (∀ i r, i < 8 → entry s.part.sru.rects i = some r → silent r.node →
        entry t.part.sru.rects i = some { r with state := .absent }) ∧
      ∀ i r, i < 6 → entry s.part.sru.batts i = some r → silent r.node →
        entry t.part.sru.batts i = some { r with state := .absent }

/-- The load P (R100, R101): overhead_w and one contribution of each valid branch, raised to 1 W. An OFF or
QUEUED branch contributes 0; one in FAULT its present value; any other its present value, or 0 from the event
at which it carries SHED. The present value is the reading while power freshness is yes, and rated_w while it
is no. A branch that is UNKNOWN since a reset counts at rated_w, while one that a change of switch node made
UNKNOWN counts its reading once it is fresh (log 33, DEDUCED); that a branch whose entry became valid after
the reset counts as one UNKNOWN since it is the model's choice (log 33, DESIGN CHOICE). The tiers' present
contributions and overhead_w make up P. A BR_POWER cell that is GOOD sets the reading of its branch, and
freshness follows the channel's class (R61; log 11, DEDUCED); any other cell of it leaves the reading. -/
def Obligations.LoadContributions : Prop :=
  (∀ d : Part, d.bcu.branches.length = 36 →
    let present := fun (x : Branch) =>
      if x.fresh = true ∧ (x.state ≠ .unknown ∨ x.moved = true) then x.reading.getD x.cfg.ratedW
      else x.cfg.ratedW
    let adds := fun (x : Branch) =>
      if x.state = .off ∨ x.state = .queued then 0
      else if x.state = .fault ∨ x.holds.shed = false then present x
      else 0
    let sumOf := fun (f : Branch → Bool) => ((List.range 36).map fun b =>
      match d.branch b with
      | some x => if f x then adds x else 0
      | none => 0).sum
    load d = max 1 (d.sru.profile.overheadW + sumOf fun _ => true) ∧
    (∀ k, tierLoad d k = sumOf fun x => x.cfg.tier == k) ∧
    ((∀ b x, d.branch b = some x → x.cfg.tier ≤ 7) →
      load d = max 1 (d.sru.profile.overheadW + ((List.range 8).map (tierLoad d)).sum)) ∧
    ∀ b x, b < 36 → d.branch b = some x → x.state ≠ .fault → x.holds.shed = false →
      load (putBranch b { x with holds := { x.holds with shed := true } } d) =
        max 1 (d.sru.profile.overheadW + sumOf (fun _ => true) - adds x)) ∧
  ∀ (s : State) (slot node b : Nat) (limit : Option Nat) (q : Quality) (c : InCell)
    (x : ChannelState) (y : Branch),
    s.part.calm → 1 ≤ node → node ≤ s.part.slc.nodes.length →
    entry s.part.slc.active slot = some (.input node .brPower limit) →
    entry s.part.tlf.channels slot = some x →
    crc8 [c.node, c.kind, hiByte c.value, loByte c.value, c.status] = c.check →
    Quality.ofCode (c.status >>> 6).toNat = some q →
    c.node.toNat = node → c.kind.toNat = ChannelKind.brPower.code →
    s.part.branchAt node = some b → s.part.branch b = some y →
    ∃ t z, exec (.cellReceive slot c) s = .next t ∧ t.part.branch b = some z ∧
      z.reading = (match sampleOf .brPower q c.value with
        | .good v => some v.toNat
        | _ => y.reading) ∧
      (q ≠ .good → z.fresh = y.fresh) ∧
      (q = .good → ∃ x', entry t.part.tlf.channels slot = some x' ∧
        (z.fresh = true ↔ x'.cls ≠ .stale ∧ x'.cls ≠ .unseen))

/-- T_proj (R102): the quotient in whole seconds, saturated at 65535; it is 0 exactly when U × 360 is below
P, and the load is never below 1 W. -/
def Obligations.ProjectedTime : Prop :=
  (∀ d : Part, 1 ≤ load d) ∧
  ∀ u p : Nat, 1 ≤ p → seconds u p ≤ 65535 ∧
    (u * 360 / p ≤ 65535 → seconds u p = u * 360 / p) ∧
    (65535 < u * 360 / p → seconds u p = 65535) ∧
    (seconds u p = 0 ↔ u * 360 < p)

/-! ## The sequence -/

/-- SEQUENCE_START (R131): refused with NOT_ALLOWED while a run is under way or the source is outside ON_AC.
Otherwise DONE: no branch keeps an enrolling step, the record begins at step 0 with counts 0 and with
LEAK as its only possible cause. With LEAK held the run is SUSPENDED and step 0 waits; without it the
run goes through its first step (R120): an empty entry halts it, END ends it, and a DELAY above 0 leaves it
RUNNING with the step timer started (R121, R126). An ENABLE_GROUP sorts the members of its group by state
and holds: it enrols the QUEUED ones and the OFF ones whose holds are SHED at most, counts those ADMITTING
or ON and skips the rest; the free OFF ones join the queue at its back in ascending number (stated while
the spacing timer runs); it then waits, or completes with its tallies where none is left to wait for
(R122, R123). A WAIT_GOOD waits for its group's SEQ holders, fails at one in FAULT and completes with all ON
(R124). A DISABLE_GROUP takes SEQ from the members of its group and completes (R125), and a CHECKPOINT
posts its code (R126); each is followed here by an END.
The indices of the Fault Detail record are the model's reading of R159 (log 13, DEDUCED). -/
def Obligations.SequenceStartActs : Prop :=
  ∀ (s : State) (tag : Word), s.part.ready →
    let q : Queued := ⟨tag, .sequenceStart⟩
    ((s.part.sqe.run = .running ∨ s.part.sqe.run = .suspended ∨ s.part.sru.source ≠ .onAc) →
      exec (.sequenceStart tag) s = .next { s with
        part := answeredBy (Answer.refuse .notAllowed none none 0) q s.part }) ∧
    (s.part.sqe.run ≠ .running → s.part.sqe.run ≠ .suspended → s.part.sru.source = .onAc →
      let cause := ∃ z ∈ s.part.lkm.zones, ∃ c, z.cfg = some c ∧ c.suspend = true ∧
        z.state.latched = true ∧ z.acked = false
      let begun : Sqe := { s.part.sqe with
        index := 0, phase := .active, causes := ⟨false, false, false⟩, timer := .stopped
        enrolled := 0, alreadyOn := 0, startSkipped := 0, faulted := 0, faultedMembers := [] }
      let branches := (List.range 36).filterMap s.part.branch
      let group := fun (e : SeqStep) => branches.filter fun x => x.cfg.group == e.group
      let holders := fun e => (group e).filter fun x => x.demands.seq
      let enrols := fun (x : Branch) => x.state == .queued ||
        (x.state == .off && !x.holds.leak && !x.holds.trip && !x.holds.forceOff)
      let joins := fun (x : Branch) => x.state == .queued || (x.state == .off && !x.holds.any)
      let isOn := fun (x : Branch) => x.state == .admitting || x.state == .on
      let sorted := fun e => { begun with
        enrolled := ((group e).filter enrols).length
        alreadyOn := ((group e).filter isOn).length
        startSkipped := ((group e).filter fun x => !enrols x && !isOn x).length }
      let started := fun (e : SeqStep) => if e.timeMs = 0 then Timer.stopped else .running e.timeMs
      let event := fun k n v => EventRecord.mk k (some n) v s.part.slc.cycle
      ∃ t, exec (.sequenceStart tag) s = .next t ∧ t.pending = s.pending ∧
        TablesStand s.part t.part ∧ LinkStands s.part t.part ∧
        t.part.sru = s.part.sru ∧ t.part.lkm = s.part.lkm ∧ Answered (Answer.done []) q t.part ∧
        (cause → t.part.sqe = { begun with
            run := .suspended, phase := .notBegun, causes := ⟨false, false, true⟩ } ∧
          (s.part.rlp.events.length < 64 →
            t.part.holdsEvent ⟨.runSuspended, some 0, some 4, s.part.slc.cycle⟩)) ∧
        (¬ cause → entry s.part.sqe.steps 0 = none →
          t.part.sqe = { begun with run := .halted } ∧
          (s.part.rlp.events.length + 2 ≤ 64 →
            t.part.holdsEvent
              ⟨.stepFailed, some 0, some (2 * 2 ^ 24), s.part.slc.cycle⟩ ∧
            t.part.holdsEvent ⟨.runHalted, some 0, some 2, s.part.slc.cycle⟩)) ∧
        (¬ cause → ∀ e, entry s.part.sqe.steps 0 = some e →
          (e.kind = .endRun → t.part.sqe = { begun with run := .done } ∧
            (s.part.rlp.events.length < 64 →
              t.part.holdsEvent ⟨.runDone, some 0, none, s.part.slc.cycle⟩)) ∧
          (e.kind = .delay → 0 < e.timeMs →
            t.part.sqe = { begun with run := .running, timer := .running e.timeMs }) ∧
          (e.kind = .waitGood → (∀ x ∈ holders e, x.state ≠ .fault) →
            (∃ x ∈ holders e, x.state ≠ .on) →
            t.part.sqe = { begun with run := .running, timer := started e } ∧
              t.part.bcu.queue = s.part.bcu.queue) ∧
          (e.kind = .waitGood → e.policy = .halt → (∃ x ∈ holders e, x.state = .fault) →
            t.part.sqe = { begun with run := .halted } ∧
              (s.part.rlp.events.length + 2 ≤ 64 →
                [event .stepFailed 0 (some 0), event .runHalted 0 (some 0)].Sublist
                  t.part.posted)) ∧
          (e.kind = .enableGroup → s.part.bcu.spacing ≠ .stopped → (∃ x ∈ group e, joins x = true) →
            t.part.sqe = { sorted e with run := .running, timer := started e } ∧
            t.part.bcu.queue = s.part.bcu.queue ++ (List.range 36).filter (fun b =>
              match s.part.branch b with
              | some x => x.cfg.group == e.group && x.state == .off && !x.holds.any
              | none => false) ∧
            ∀ b x, b < 36 → s.part.branch b = some x → t.part.branch b = some (
              if x.cfg.group = e.group ∧ enrols x = true then { x with
                state := if x.state = .off ∧ x.holds.shed = true then .off else .queued
                demands := { x.demands with seq := true }, enrolling := some 0 }
              else { x with enrolling := none })) ∧
          ∀ e', entry s.part.sqe.steps 1 = some e' → e'.kind = .endRun →
            let ends := fun (u : Sqe) r => t.part.sqe = { u with run := .done, index := 1 } ∧
              (s.part.rlp.events.length + 38 ≤ 64 →
                [r, event .runDone 1 none].Sublist t.part.posted)
            (e.kind = .checkpoint → ends begun (event .checkpoint 0 (some e.code))) ∧
            (e.kind = .waitGood → (∀ x ∈ holders e, x.state = .on) →
              ends begun (event .stepDone 0 (some (holders e).length))) ∧
            (e.kind = .waitGood → e.policy = .skip → (∃ x ∈ holders e, x.state = .fault) →
              ends begun (event .stepFailed 0 (some (2 ^ 28)))) ∧
            (e.kind = .enableGroup → (∀ x ∈ group e, joins x = false) →
              ends (sorted e) (event .stepDone 0 (some ((sorted e).enrolled * 2 ^ 18 +
                (sorted e).alreadyOn * 2 ^ 6 + (sorted e).startSkipped + (sorted e).enrolled)))) ∧
            (e.kind = .disableGroup → ends begun (event .stepDone 0 (some (holders e).length)) ∧
              ∀ b, b < 36 →
                (t.part.branch b).map (fun y => (y.cfg, y.demands, y.holds, y.enrolling)) =
                (s.part.branch b).map fun x => (x.cfg,
                  { x.demands with seq := x.demands.seq && !(x.cfg.group == e.group) },
                  x.holds, none))) ∧
        ((cause ∨ entry s.part.sqe.steps 0 = none) →
          ∀ b, b < 36 → t.part.branch b =
            (s.part.branch b).map fun x => { x with enrolling := none }))

/-- SEQUENCE_SUSPEND and SEQUENCE_RESUME (R119, R129, R130): refused with NOT_ALLOWED unless a run is under
way. SUSPEND holds REQUEST, and makes a RUNNING run SUSPENDED with its step timer frozen and
RUN_SUSPENDED posted. RESUME clears REQUEST; the run stays SUSPENDED while AC or LEAK is held, and a
RUNNING run without a cause is unchanged; in a DELAY that had begun, a run left without a cause goes
on RUNNING with the remaining time, and RUN_RESUMED is posted.
SEQUENCE_ABORT (R132): refused with NOT_ALLOWED in IDLE and DONE. Otherwise DONE: the run is IDLE with its
timer stopped and REQUEST cleared, the step index and the counts stand, no branch keeps an enrolling
step, an enrolled branch that was QUEUED loses SEQ and every other branch keeps it.
The indices of the Fault Detail record are the model's reading of R159 (log 13, DEDUCED). -/
def Obligations.SequenceRequestsAct : Prop :=
  (∀ (s : State) (tag : Word), s.part.ready →
    let refused := fun q => State.mk
      (answeredBy (Answer.refuse .notAllowed none none 0) ⟨tag, q⟩ s.part) s.pending
    let done := fun q u => State.mk (answeredBy (Answer.done []) ⟨tag, q⟩
      { s.part with sqe := u }) s.pending
    let held := { s.part.sqe.causes with request := true }
    let cleared := { s.part.sqe.causes with request := false }
    (s.part.sqe.run ≠ .running → s.part.sqe.run ≠ .suspended →
      exec (.sequenceSuspend tag) s = .next (refused .sequenceSuspend) ∧
        exec (.sequenceResume tag) s = .next (refused .sequenceResume)) ∧
    (s.part.sqe.run = .suspended →
      exec (.sequenceSuspend tag) s =
        .next (done .sequenceSuspend { s.part.sqe with causes := held }) ∧
      ((s.part.sqe.causes.ac = true ∨ s.part.sqe.causes.leak = true) →
        exec (.sequenceResume tag) s =
          .next (done .sequenceResume { s.part.sqe with causes := cleared })) ∧
      (s.part.sqe.causes.ac = false → s.part.sqe.causes.leak = false →
        ∀ e, entry s.part.sqe.steps s.part.sqe.index = some e → e.kind = .delay →
          s.part.sqe.phase = .active →
          ∃ t, exec (.sequenceResume tag) s = .next t ∧ t.pending = s.pending ∧
            TablesStand s.part t.part ∧ LinkStands s.part t.part ∧
            t.part.bcu = s.part.bcu ∧ t.part.sru = s.part.sru ∧ t.part.lkm = s.part.lkm ∧
            Answered (Answer.done []) ⟨tag, .sequenceResume⟩ t.part ∧
            t.part.sqe = { s.part.sqe with
              run := .running, causes := cleared, timer := s.part.sqe.timer.thaw } ∧
            (s.part.rlp.events.length < 64 → t.part.holdsEvent
              ⟨.runResumed, some s.part.sqe.index, none, s.part.slc.cycle⟩))) ∧
    (s.part.sqe.run = .running →
      (s.part.sqe.causes = ⟨false, false, false⟩ →
        exec (.sequenceResume tag) s = .next (done .sequenceResume s.part.sqe)) ∧
      ∃ t, exec (.sequenceSuspend tag) s = .next t ∧ t.pending = s.pending ∧
        TablesStand s.part t.part ∧ LinkStands s.part t.part ∧
        t.part.bcu = s.part.bcu ∧ t.part.sru = s.part.sru ∧ t.part.lkm = s.part.lkm ∧
        Answered (Answer.done []) ⟨tag, .sequenceSuspend⟩ t.part ∧
        t.part.sqe = { s.part.sqe with
          run := .suspended, causes := held, timer := s.part.sqe.timer.freeze } ∧
        (s.part.rlp.events.length < 64 → t.part.holdsEvent
          ⟨.runSuspended, some s.part.sqe.index, some held.code, s.part.slc.cycle⟩))) ∧
  ∀ (s : State) (tag : Word), s.part.ready →
    ((s.part.sqe.run = .idle ∨ s.part.sqe.run = .done) →
      exec (.sequenceAbort tag) s = .next { s with
        part := answeredBy (Answer.refuse .notAllowed none none 0) ⟨tag, .sequenceAbort⟩ s.part }) ∧
    (s.part.sqe.run ≠ .idle → s.part.sqe.run ≠ .done →
      ∃ t, exec (.sequenceAbort tag) s = .next t ∧ t.pending = s.pending ∧
        TablesStand s.part t.part ∧ LinkStands s.part t.part ∧
        t.part.sru = s.part.sru ∧ t.part.lkm = s.part.lkm ∧
        Answered (Answer.done []) ⟨tag, .sequenceAbort⟩ t.part ∧
        t.part.sqe = { s.part.sqe with
          run := .idle, timer := .stopped, causes := { s.part.sqe.causes with request := false } } ∧
        ∀ b, b < 36 → (t.part.branch b).map (fun y => (y.cfg, y.demands, y.holds, y.enrolling)) =
          (s.part.branch b).map fun x => (x.cfg,
            if x.enrolling.isSome && x.state == .queued then { x.demands with seq := false }
            else x.demands, x.holds, none))

/-- STEP_TIMER_EXPIRY in RUNNING (R120, R121, R126): a DELAY completes with STEP_DONE, and the run goes on to
the next entry: END ends it and a DELAY above 0 begins; a DELAY at entry 63 ends the run. A WAIT_GOOD or an
ENABLE_GROUP fails with TIMEOUT and, under HALT, the run is HALTED at the step. With the timer not running,
or the run not RUNNING, nothing happens (log 4, DESIGN CHOICE). At a hand-off an ENABLE_GROUP waits while a
member is QUEUED or ADMITTING, and then completes, or fails with BRANCH_FAULT where a member has faulted,
with its four tallies (R123); a WAIT_GOOD fails at a SEQ holder of its group in FAULT, completes with every
one ON and otherwise waits (R124); under HALT a failure halts the run, under SKIP it advances (R120). Which
members have faulted is a field of the model's (log 18, DEDUCED). ENABLE_GROUP treats a member by its row of
R122, and DISABLE_GROUP takes SEQ from one: a branch that loses its last demand is OFF out of the queue, or
STOPPING, and any other keeps its state (R54, R125); the queue and what is staged are given for a group of
one branch. -/
def Obligations.SequenceStepsAct : Prop :=
  (∀ (s : State), s.part.calm →
    ((s.part.sqe.run ≠ .running ∨ ∀ n, s.part.sqe.timer ≠ .running n) → s.part.linesFollow →
      exec .stepTimerExpiry s = .next s) ∧
    ∀ left e, s.part.sqe.run = .running → s.part.sqe.timer = .running left →
      entry s.part.sqe.steps s.part.sqe.index = some e →
      let i := s.part.sqe.index
      let moves := fun (u : Sqe) (events : List EventRecord) =>
        ∃ t, exec .stepTimerExpiry s = .next t ∧ t.pending = s.pending ∧
          TablesStand s.part t.part ∧ LinkStands s.part t.part ∧ RequestsStand s.part t.part ∧
          t.part.bcu = s.part.bcu ∧ t.part.sru = s.part.sru ∧ t.part.lkm = s.part.lkm ∧
          t.part.sqe = u ∧
          (s.part.rlp.events.length + 3 ≤ 64 → ∀ r ∈ events, t.part.holdsEvent r)
      let event := fun k n v => EventRecord.mk k (some n) v s.part.slc.cycle
      (e.kind = .delay → 63 ≤ i →
        moves { s.part.sqe with
            run := .done, timer := .stopped
            causes := { s.part.sqe.causes with request := false } }
          [event .stepDone i (some e.timeMs), event .runDone i none]) ∧
      (e.kind = .delay → i < 63 → ∀ e', entry s.part.sqe.steps (i + 1) = some e' →
        (e'.kind = .endRun → moves { s.part.sqe with
              run := .done, index := i + 1, phase := .active, timer := .stopped
              causes := { s.part.sqe.causes with request := false } }
            [event .stepDone i (some e.timeMs), event .runDone (i + 1) none]) ∧
        (e'.kind = .delay → 0 < e'.timeMs → moves { s.part.sqe with
              index := i + 1, phase := .active, timer := .running e'.timeMs }
            [event .stepDone i (some e.timeMs)])) ∧
      (e.kind = .waitGood ∨ e.kind = .enableGroup → e.policy = .halt →
        moves { s.part.sqe with
            run := .halted, timer := .stopped
            causes := { s.part.sqe.causes with request := false } }
          [event .stepFailed i
              (some (2 ^ 24 + if e.kind = .enableGroup then tallies s.part else 0)),
            event .runHalted i (some 1)])) ∧
  (∀ (d : Part) (e : SeqStep),
    let i := d.sqe.index
    let inState := fun b st => ∃ x, d.branch b = some x ∧ x.state = st
    let members := (List.range 36).filter fun b => match d.branch b with
      | some x => x.enrolling == some i
      | none => false
    let on := members.filter fun b => match d.branch b with
      | some x => x.state == .on
      | none => false
    let counted := on.length + (d.sqe.faultedMembers.filter (· ∉ on)).length
    let tally := d.sqe.enrolled * 2 ^ 18 + on.length * 2 ^ 12 + d.sqe.alreadyOn * 2 ^ 6 +
      (d.sqe.startSkipped + (d.sqe.enrolled - counted))
    let holders := (List.range 36).filter fun b => match d.branch b with
      | some x => x.cfg.group == e.group && x.demands.seq
      | none => false
    let event := fun k v => EventRecord.mk k (some i) (some v) d.slc.cycle
    let ends := fun (after : Part) (u : Sqe) rs => after.sqe = u ∧ after.bcu = d.bcu ∧
      after.sru = d.sru ∧ after.lkm = d.lkm ∧ after.slc = d.slc ∧ after.agenda = d.agenda ∧
      (d.rlp.events.length + 2 ≤ 64 → List.Sublist rs after.posted)
    let next := { d.sqe with index := i + 1, phase := .notBegun, timer := .stopped }
    let halted := { d.sqe with
      run := .halted, timer := .stopped, causes := { d.sqe.causes with request := false } }
    let fails := fun after value =>
      (e.policy = .halt → ends after halted [event .stepFailed value, event .runHalted 0]) ∧
      (e.policy = .skip → i < 63 → ends after next [event .stepFailed (2 ^ 28 + value)])
    let waits := ∃ b ∈ members, inState b .queued ∨ inState b .admitting
    (waits → examineEnable e d = d) ∧
    (¬ waits → 0 < d.sqe.faulted → fails (examineEnable e d) tally) ∧
    (¬ waits → d.sqe.faulted = 0 → i < 63 →
      ends (examineEnable e d) next [event .stepDone tally]) ∧
    ((∃ b ∈ holders, inState b .fault) → fails (examineWait e d) 0) ∧
    ((∀ b ∈ holders, inState b .on) → i < 63 →
      ends (examineWait e d) next [event .stepDone holders.length]) ∧
    ((∀ b ∈ holders, ¬ inState b .fault) → (∃ b ∈ holders, ¬ inState b .on) →
      examineWait e d = d)) ∧
  ∀ (d : Part) (g b : Nat) (x : Branch), d.branch b = some x → b < 36 → x.cfg.group = g →
    let counts := fun (u : Sqe) => sortMember g b d = { d with sqe := u }
    let free := x.holds.leak = false ∧ x.holds.trip = false ∧ x.holds.forceOff = false
    let y := { x with demands := { x.demands with seq := true }, enrolling := some d.sqe.index }
    let enrolled := fun z q => (sortMember g b d).branch b = some z ∧
      (∀ n, n ≠ b → (sortMember g b d).branch n = d.branch n) ∧
      (sortMember g b d).bcu.queue = q ∧ (sortMember g b d).slc = d.slc ∧
      (sortMember g b d).sqe = { d.sqe with enrolled := d.sqe.enrolled + 1 }
    (x.state = .queued → enrolled y d.bcu.queue) ∧
    (x.state = .off → free → x.holds.shed = true → enrolled y d.bcu.queue) ∧
    (x.state = .off → free → x.holds.shed = false → x.demands.any = false →
      enrolled { y with state := .queued } (d.bcu.queue ++ [b])) ∧
    (x.state = .admitting ∨ x.state = .on →
      counts { d.sqe with alreadyOn := d.sqe.alreadyOn + 1 }) ∧
    ((x.state = .off ∧ ¬ free) ∨ x.state = .fault ∨ x.state = .stopping ∨ x.state = .unknown →
      counts { d.sqe with startSkipped := d.sqe.startSkipped + 1 }) ∧
    let last := x.demands.seq = true ∧ x.demands.ctrl = false ∧ x.holds.any = false
    let z := { x with demands := { x.demands with seq := false }, enrolling := none }
    let after := disableGroup g d
    let lone := ∀ n y, n ≠ b → d.branch n = some y → y.cfg.group ≠ g
    (last → x.state = .queued → after.branch b = some { z with state := .off } ∧
      b ∉ after.bcu.queue ∧
      (lone → after.bcu.queue = d.bcu.queue.filter (· != b) ∧ after.slc.out = d.slc.out)) ∧
    (last → x.state = .admitting ∨ x.state = .on → ∀ k r, d.outSlot x.cfg.node = some k →
      entry d.slc.out k = some r → after.branch b = some { z with
        state := .stopping, timer := .running d.sru.profile.admitTimeoutMs } ∧
      (lone → after.bcu.queue = d.bcu.queue ∧ after.slc.out = d.slc.out.set k (some { r with
        staged := some 0, lastWriter := some .bcu, owed := true, forBranch := some b }))) ∧
    (¬ (x.state = .off ∧ x.wanted = true) →
      ¬ last ∨ x.state = .unknown ∨ x.state = .stopping ∨ x.state = .fault →
      after.branch b = some z)

/-! ## Leaks -/

/-- LEAK_IN_CHANGE (R143 to R145, R148 to R150): a deassertion changes no zone. An assertion confirms a zone
that leak_line_zone names and that is valid and CLEAR or ALERT: it becomes CONFIRMED, or ISOLATED
where its isolate flag is set, with acked no, and its branches then carry LEAK; the lines and the
LEAK cause of a run that is not under way follow. Any other assertion changes the line alone. -/
def Obligations.LeakInChangeActs : Prop :=
  ∀ (s : State) (a : Bool), s.part.calm →
    let d := { s.part with lines := { s.part.lines with leakIn := a } }
    let named := fun z c => s.part.sru.profile.leakLineZone = some z ∧
      z < s.part.lkm.zones.length ∧ (s.part.zone z).cfg = some c ∧
      (s.part.zone z).state.latched = false
    ((a = false ∨ ∀ z c, ¬ named z c) → s.part.linesFollow →
      exec (.leakInChange a) s = .next { s with part := d }) ∧
    ∀ z c, a = true → named z c →
      ∃ t, exec (.leakInChange a) s = .next t ∧ t.pending = s.pending ∧
        TablesStand d t.part ∧ LinkStands d t.part ∧ RequestsStand d t.part ∧
        t.part.sru = s.part.sru ∧ t.part.lkm.points = s.part.lkm.points ∧
        t.part.lkm.zones = s.part.lkm.zones.set z ⟨some c,
          if c.isolate then .isolated else .confirmed, false, (s.part.zone z).degraded⟩ ∧
        t.part.lines.alertOut = true ∧ (c.valve = true → t.part.lines.valveOut = true) ∧
        (s.part.sqe.run ≠ .running → s.part.sqe.run ≠ .suspended →
          t.part.sqe = { s.part.sqe with causes := { s.part.sqe.causes with
            leak := t.part.lkm.zones.any Zone.suspends } }) ∧
        (∀ b, b < 36 → (t.part.branch b).map (fun y => (y.cfg, y.holds.trip, y.holds.shed,
            y.holds.forceOff, y.demands.ctrl)) =
          (s.part.branch b).map fun y => (y.cfg, y.holds.trip, y.holds.shed,
            y.holds.forceOff, y.demands.ctrl)) ∧
        (∀ b x y, b < 36 → s.part.branch b = some x → t.part.branch b = some y →
          (x.cfg.zone = some z → c.isolate = true → y.holds.leak = true) ∧
          (x.cfg.zone ≠ some z → y.holds.leak = x.holds.leak)) ∧
        (s.part.rlp.events.length + 2 ≤ 64 →
          t.part.holdsEvent ⟨.leakConfirmed, some z, some 256, s.part.slc.cycle⟩ ∧
          (c.isolate = true → t.part.holdsEvent ⟨.leakIsolated, some z,
            some ((List.range 36).filter fun b => match s.part.branch b with
              | some x => x.cfg.zone == some z
              | none => false).length, s.part.slc.cycle⟩))

/-- LEAK_ACK (R146): RANGE outside 0 to 7; NOT_ALLOWED on an empty entry and on a zone that is CLEAR or ALERT;
otherwise DONE with acked yes, and the LEAK cause of a run that is not under way follows the
latches.
LEAK_CLEAR (R147): RANGE outside 0 to 7; NOT_ALLOWED on an empty entry and on a CLEAR zone; NOT_DRY on an
ALERT zone, and on a latched one with a point WET or DRY_PENDING or with LEAK_IN asserted on it.
Otherwise DONE: the zone is CLEAR with acked no, its branches carry no LEAK and hold no CTRL,
LEAK_CLEARED is posted, and FORCE_OFF, TRIP and SHED of every branch stand.
The indices of the Fault Detail record are the model's reading of R159 (log 13, DEDUCED). -/
def Obligations.LeakRequestsAct : Prop :=
  (∀ (s : State) (tag zone : Word), s.part.ready → s.part.lkm.zones.length = 8 →
    let z := zone.toNat
    let q : Queued := ⟨tag, .leakAck zone⟩
    let x := s.part.zone z
    (8 ≤ z → exec (.leakAck tag zone) s = .next { s with
      part := answeredBy (Answer.refuse .range (some z) (some 0) 0) q s.part }) ∧
    (z < 8 → x.cfg = none ∨ x.state.latched = false →
      exec (.leakAck tag zone) s = .next { s with
        part := answeredBy (Answer.refuse .notAllowed (some z) none 0) q s.part }) ∧
    (z < 8 → x.cfg ≠ none → x.state.latched = true →
      ∃ t, exec (.leakAck tag zone) s = .next t ∧ t.pending = s.pending ∧
        TablesStand s.part t.part ∧ LinkStands s.part t.part ∧ t.part.sru = s.part.sru ∧
        Answered (Answer.done []) q t.part ∧
        t.part.lkm = { s.part.lkm with zones := s.part.lkm.zones.set z { x with acked := true } } ∧
        (∀ b, (t.part.branch b).map (fun y => (y.cfg, y.holds)) =
          (s.part.branch b).map fun y => (y.cfg, y.holds)) ∧
        (x.acked = false → s.part.sqe.run ≠ .running → s.part.sqe.run ≠ .suspended →
          t.part.sqe = { s.part.sqe with causes := { s.part.sqe.causes with
            leak := t.part.lkm.zones.any Zone.suspends } }))) ∧
  ∀ (s : State) (tag zone : Word), s.part.ready → s.part.lkm.zones.length = 8 →
    let z := zone.toNat
    let q : Queued := ⟨tag, .leakClear zone⟩
    let x := s.part.zone z
    let refused := fun a => exec (.leakClear tag zone) s =
      .next { s with part := answeredBy a q s.part }
    let wet := ∃ i p, entry s.part.lkm.points i = some p ∧ p.cfg.zone = z ∧
      (p.state = .wet ∨ p.state = .dryPending)
    let line := s.part.lines.leakIn = true ∧ s.part.sru.profile.leakLineZone = some z
    (8 ≤ z → refused (Answer.refuse .range (some z) (some 0) 0)) ∧
    (z < 8 → x.cfg = none ∨ x.state = .clear →
      refused (Answer.refuse .notAllowed (some z) none 0)) ∧
    (z < 8 → x.cfg ≠ none → x.state = .alert ∨ (x.state.latched = true ∧ (wet ∨ line)) →
      refused (Answer.refuse .notDry (some z) none 0)) ∧
    (∀ c, z < 8 → x.cfg = some c → x.state.latched = true → ¬ wet → ¬ line →
      ∃ t, exec (.leakClear tag zone) s = .next t ∧ t.pending = s.pending ∧
        TablesStand s.part t.part ∧ LinkStands s.part t.part ∧ t.part.sru = s.part.sru ∧
        Answered (Answer.done []) q t.part ∧
        t.part.lkm.points = s.part.lkm.points ∧
        t.part.lkm.zones = s.part.lkm.zones.set z
          ⟨some c, .clear, false, decide (0 < faultCount z s.part)⟩ ∧
        (∀ b, b < 36 →
          (t.part.branch b).map (fun y => (y.cfg, y.demands.ctrl, y.holds)) =
          (s.part.branch b).map fun y => (y.cfg,
            y.demands.ctrl && !(y.cfg.zone == some z),
            { y.holds with leak := y.holds.leak && !(y.cfg.zone == some z) })) ∧
        (s.part.rlp.events.length < 64 →
          t.part.holdsEvent ⟨.leakCleared, some z, none, s.part.slc.cycle⟩))

/-- An examination of a zone (R142, R143): DEGRADED follows n_fault; a CLEAR or ALERT zone is confirmed, or
isolated, where it has points and n_wet reaches the effective vote max(1, min(vote, n_cfg) − n_fault); a
CLEAR zone with fewer wet points becomes ALERT; an ALERT zone with none becomes CLEAR; a latched zone keeps
its state and its acked flag. The other zones and the points stand. Its records wait: ZONE_DEGRADED with
n_fault where DEGRADED changes, LEAK_ALERT with n_wet at the entry into ALERT, LEAK_CONFIRMED with POINTS (0)
and n_wet at a confirmation, and LEAK_ISOLATED with the number of the zone's branches where it goes on to
ISOLATED. -/
def Obligations.ZoneExamination : Prop :=
  ∀ (d : Part) (z : Nat) (c : ZoneCfg), z < d.lkm.zones.length → (d.zone z).cfg = some c →
    let points := (d.lkm.points.filterMap id).filter fun p => p.cfg.zone == z
    let nWet := (points.filter fun p => p.state == .wet || p.state == .dryPending).length
    let nFault := (points.filter fun p => p.state == .fault).length
    let confirms := 0 < points.length ∧ max 1 (min c.vote points.length - nFault) ≤ nWet
    let x := d.zone z
    let after := examineZone z d
    let becomes := fun s a => after.lkm.zones =
      d.lkm.zones.set z ⟨some c, s, a, decide (0 < nFault)⟩
    after.lkm.points = d.lkm.points ∧
    (x.state = .confirmed ∨ x.state = .isolated → becomes x.state x.acked) ∧
    (x.state = .clear ∨ x.state = .alert → confirms →
      becomes (if c.isolate then .isolated else .confirmed) false) ∧
    (x.state = .clear → ¬ confirms → 1 ≤ nWet → becomes .alert x.acked) ∧
    (x.state = .clear → ¬ confirms → nWet = 0 → becomes .clear x.acked) ∧
    (x.state = .alert → ¬ confirms → nWet = 0 → becomes .clear x.acked) ∧
    (x.state = .alert → ¬ confirms → 1 ≤ nWet → becomes .alert x.acked) ∧
    (d.rlp.events.length + 3 ≤ 64 →
      let posts := fun kind n => after.holdsEvent ⟨kind, some z, some n, d.slc.cycle⟩
      let branches := (List.range 36).filter fun b => match d.branch b with
        | some y => y.cfg.zone == some z
        | none => false
      (x.degraded ≠ decide (0 < nFault) → posts .zoneDegraded nFault) ∧
      (x.state = .clear → ¬ confirms → 1 ≤ nWet → posts .leakAlert nWet) ∧
      (x.state = .clear ∨ x.state = .alert → confirms → posts .leakConfirmed nWet ∧
        (c.isolate = true → posts .leakIsolated branches.length)))

/-- The moves of a point (R138, R139): a faulting sample makes it FAULT from any state, an INVALID one
changes nothing, and a run of samples of one sort settles it with the sample that makes the run `debounce`
long and not before: from UNSEEN and FAULT whatever the sort, from DRY by wet samples through WET_PENDING,
from WET by dry samples through DRY_PENDING. A contrary sample in a pending state returns it to where it came
from. CELL_RECEIVE of an LK_LEVEL cell moves the points that name its node and slot so (R136, R138);
CYCLE_END takes the points of a channel that becomes STALE to FAULT, and a CYCLE_START that changes the
channel's slot, or a Limit Table record that restarts the channel, takes them to UNSEEN with count 0 (R5,
R140). Each entry into FAULT posts its record with cause LEVEL, SENSOR or STALE, the zone of a point that
changes is then examined, and nothing else moves a point or a zone at these events. That a restart takes the
points of a channel still UNSEEN too is the model's reading (log 16, DEDUCED). -/
def Obligations.PointDebounce : Prop :=
  (∀ p : Point, 1 ≤ p.cfg.debounce →
    let run := fun (k : PointSort) n => (List.range n).foldl (fun (x : Point) _ =>
      { x with state := (movePoint x k).1, count := (movePoint x k).2 }) p
    let at' := fun (x : Point) => (x.state, x.count)
    (∀ cause, movePoint p (.faulting cause) = (.fault, 0)) ∧
    movePoint p .ignored = (p.state, p.count) ∧
    (∀ k settled, (k, settled) ∈ [(PointSort.dry, PointState.dry), (.wet, .wet)] →
      (p.state = .unseen ∨ p.state = .fault → p.count = 0 →
        (∀ n, n < p.cfg.debounce → at' (run k n) = (p.state, n)) ∧
        at' (run k p.cfg.debounce) = (settled, 0)) ∧
      (p.state = settled → movePoint p k = (settled, 0))) ∧
    (p.state = .dry → p.count = 0 →
      (∀ n, 0 < n → n < p.cfg.debounce → at' (run .wet n) = (.wetPending, n)) ∧
      at' (run .wet p.cfg.debounce) = (.wet, 0)) ∧
    (p.state = .wet → p.count = 0 →
      (∀ n, 0 < n → n < p.cfg.debounce → at' (run .dry n) = (.dryPending, n)) ∧
      at' (run .dry p.cfg.debounce) = (.dry, 0)) ∧
    (p.state = .wetPending → movePoint p .dry = (.dry, 0)) ∧
    (p.state = .dryPending → movePoint p .wet = (.wet, 0)) ∧
    (∀ v : Int, sortSample p.cfg (.good v) =
      if v < p.cfg.wetLevel then .dry else if v < p.cfg.faultLevel then .wet
        else .faulting .level) ∧
    sortSample p.cfg .sensorFault = .faulting .sensor ∧ sortSample p.cfg .invalid = .ignored) ∧
  (∀ s : State, s.part.calm →
    (∀ (slot node : Nat) (limit : Option Nat) (q : Quality) (c : InCell),
      entry s.part.slc.active slot = some (.input node .lkLevel limit) →
      crc8 [c.node, c.kind, hiByte c.value, loByte c.value, c.status] = c.check →
      Quality.ofCode (c.status >>> 6).toNat = some q →
      c.node.toNat = node → c.kind.toNat = ChannelKind.lkLevel.code →
      ∃ t, exec (.cellReceive slot c) s = .next t ∧ t.pending = s.pending ∧
        PointsFollow (fun p => p.cfg.node = node ∧ p.cfg.slot = slot)
          (fun p => movePoint p (sortSample p.cfg (sampleOf .lkLevel q c.value)))
          (fun _ => if q = .sensorFault then .sensor else .level) s.part t.part) ∧
    (∃ t, exec .cycleEnd s = .next t ∧ t.pending = s.pending ∧
      PointsFollow (fun p => p.cfg.slot < 96 ∧ p.cfg.slot ∉ s.part.slc.satisfied ∧ ∃ limit x,
          entry s.part.slc.active p.cfg.slot = some (.input p.cfg.node .lkLevel limit) ∧
          entry s.part.tlf.channels p.cfg.slot = some x ∧ x.cls ≠ .unseen ∧ x.cls ≠ .stale ∧
          (paramsOf s.part .lkLevel limit).staleLimit ≤ satInc x.miss)
        (fun _ => (.fault, 0)) (fun _ => .stale) s.part t.part) ∧
    ∃ t, exec .cycleStart s = .next t ∧ t.pending = s.pending ∧
      PointsFollow (fun p => p.cfg.slot < 96 ∧
          entry s.part.slc.written p.cfg.slot ≠ entry s.part.slc.active p.cfg.slot ∧ ∃ limit,
          entry s.part.slc.active p.cfg.slot = some (.input p.cfg.node .lkLevel limit))
        (fun _ => (.unseen, 0)) (fun _ => .stale) s.part t.part) ∧
  ∀ (d : Part) (n : Nat) (ws : List Word) (e : Option LimitEntry), parseLimit ws = .ok e →
    PointsFollow (fun p => p.cfg.slot < 96 ∧ e.isSome ≠ (entry d.tlf.limits n).isSome ∧
        entry d.slc.active p.cfg.slot = some (.input p.cfg.node .lkLevel (some n)))
      (fun _ => (.unseen, 0)) (fun _ => .stale) d (writeLimit n ws d).1

/-! ## The rack link -/

/-- MESSAGE_RECEIVE of bytes that are not a REQUEST to node 0 with a body of at most 1024 bytes, its length
and its check: they are discarded, RX_DISCARDS rises by 1 and stops at 65535 (log 22, DEDUCED), and
nothing else changes (R154, R180). A request row and the message that carries its request do the same
(R180, R183): for every request, with every tag and every field at every value, the receive check passes
on the bytes that R180 gives it, they are read back as that request, and MESSAGE_RECEIVE of them acts as
the row. A REQUEST of an unknown kind, or with a body that does not suit its kind, is answered BAD_REQUEST
with residual 0 before anything takes effect (R158); the Fault Detail record then has the kind that the
body names (log 13, DEDUCED), and no kind for an empty body (log 15, DESIGN CHOICE). That a request row
stands for a request that has passed the receive check is the model's reading (log 2, DEDUCED). -/
def Obligations.MessagesReceived : Prop :=
  (∀ (s : State) (bytes : List Byte), s.part.running → s.part.linesFollow →
    (∀ tag body, body.length ≤ 1024 → bytes ≠ frame 0 tag 0 body) →
    exec (.messageReceive bytes) s = .next { s with part := { s.part with
      rlp := { s.part.rlp with rxDiscards := satInc s.part.rlp.rxDiscards } } }) ∧
  (∀ (c : Instr) (q : Queued) (s : State), request c = some q → q.req.body.length ≤ 1024 →
    receive (q.req.message q.tag) = some q ∧
      ∃ t, exec (.messageReceive (q.req.message q.tag)) s = .next t ∧ exec c s = .next t) ∧
  ∀ (s : State) (tag : Word) (body : List Byte), s.part.ready → body.length ≤ 1024 →
    (∀ c q, request c = some q → q.req.body ≠ body) →
    let refused := Answer.refuse .badRequest none none 0
    exec (.messageReceive (frame 0 tag 0 body)) s =
      .next { s with part := answeredBy refused ⟨tag, .bad body.head?⟩ s.part }

/-- A request that has passed the receive check, by the two queues (R155): with fewer than 4 requests queued
it is appended at the back, and begins at once where it is the head; with 4 it is answered BUSY while the
Response Queue has room, and else discarded and counted. BUSY and the discard leave the Fault Detail
record. That a request row stands for such a request is the model's choice (log 2). -/
def Obligations.ArrivalTable : Prop :=
  ∀ (c : Instr) (q : Queued) (s : State), request c = some q → s.part.running →
    s.part.linesFollow →
    (s.part.rlp.requests = [] →
      let d := { s.part with rlp := { s.part.rlp with requests := [q], phase := .fresh } }
      moveHead d = some (beginHead q d) ∧
        exec c s = .next { s with part := complete (pump 63 (beginHead q d)) }) ∧
    (s.part.rlp.requests ≠ [] → s.part.rlp.requests.length < 4 →
      exec c s = .next { s with part := { s.part with
        rlp := { s.part.rlp with requests := s.part.rlp.requests ++ [q] } } }) ∧
    (s.part.rlp.requests.length = 4 → s.part.rlp.responses.length < 8 →
      ∃ t, exec c s = .next t ∧ t.pending = s.pending ∧
        TablesStand s.part t.part ∧ LinkStands s.part t.part ∧ RequestsStand s.part t.part ∧
        t.part.bcu = s.part.bcu ∧ t.part.sru = s.part.sru ∧ t.part.sqe = s.part.sqe ∧
        t.part.lkm = s.part.lkm ∧
        t.part.holdsMessage (.response ⟨q.tag, .busy, 0, false, false, [], false⟩)) ∧
    (s.part.rlp.requests.length = 4 → s.part.rlp.responses.length = 8 →
      exec c s = .next { s with part := { s.part with
        rlp := { s.part.rlp with rxDiscards := satInc s.part.rlp.rxDiscards } } })

/-- The requests that only read (R159, R160, R175, R182): READ_STATUS answers the status record of 67 bytes
with each field in its place; GET_DETAIL answers the record held and leaves none, or NO_DETAIL and a
record of its own; LOCATE_BRANCH answers the translation record of a valid branch.
The indices of the Fault Detail record are the model's reading of R159 (log 13). -/
def Obligations.ReadingRequestsAnswer : Prop :=
  ∀ (s : State) (tag : Word), s.part.ready →
    (s.part.lkm.zones.length = 8 →
      let d := refreshLines s.part
      let rec' := statusRecord d
      let at' := fun i n => (rec'.drop i).take n
      exec (.readStatus tag) s = .next { s with
        part := answeredBy (Answer.done rec') ⟨tag, .readStatus⟩ s.part } ∧
      rec'.length = 67 ∧ at' 0 4 = fourBytes d.slc.cycle.toNat ∧
      at' 4 1 = [byteOf d.sru.source.code] ∧ at' 5 1 = [byteOf (flag d.sru.depletedFlag)] ∧
      at' 6 4 = fourBytes d.sru.tBatt ∧ at' 10 4 = fourBytes d.sru.capacity ∧
      at' 14 4 = fourBytes (committedLoad d) ∧ at' 18 4 = optFourBytes d.sru.u ∧
      at' 22 4 = optFourBytes d.sru.p ∧ at' 26 2 = optTwoBytes d.sru.tProj ∧
      at' 28 2 = optTwoBytes d.sru.tGoal ∧ at' 30 1 = [byteOf (flag d.sru.held)] ∧
      at' 31 2 = [d.sru.battShed, d.sru.capShed] ∧
      at' 33 3 = [byteOf d.sqe.run.code, byteOf d.sqe.index, byteOf d.sqe.causes.code] ∧
      at' 36 2 = [byteOf d.bcu.queue.length, byteOf (flag d.bcu.headBlocked)] ∧
      at' 38 8 = d.lkm.zones.map (fun z =>
        byteOf (z.state.code + 4 * flag z.acked + 8 * flag z.degraded)) ∧
      at' 46 1 = [byteOf (flag d.lines.valveOut + 2 * flag d.lines.alertOut)] ∧
      at' 47 14 = [d.slc.checkErrors, d.slc.misplaced, d.slc.retries, d.slc.noAcks, d.tlf.drops,
        d.rlp.eventOverflow, d.rlp.rxDiscards].flatMap twoBytes ∧
      at' 61 6 = [d.rlp.features.readBlock, flag d.rlp.features.clearTables,
        flag d.rlp.features.forwarding, d.rlp.features.wTel, d.rlp.features.wRsp,
        flag d.prot.frozen].map byteOf) ∧
    (∀ x, s.part.rlp.detail = some x →
      exec (.getDetail tag) s = .next { s with
        part := answeredBy (Answer.done ([optWord (x.kind.map BitVec.toNat), x.tag,
          natWord x.status.code, optWord x.entry, optWord x.field,
          natWord x.residual].flatMap wordBytes)) ⟨tag, .getDetail⟩ s.part }) ∧
    (s.part.rlp.detail = none →
      exec (.getDetail tag) s = .next { s with
        part := answeredBy (Answer.refuse .noDetail none none 0) ⟨tag, .getDetail⟩ s.part }) ∧
    ∀ (branch : Word) (x : Branch), branch.toNat < 36 →
      s.part.branch branch.toNat = some x →
      exec (.locateBranch tag branch) s = .next { s with
        part := answeredBy (Answer.done ([natWord x.cfg.node,
            optWord (s.part.inSlot x.cfg.node .brStatus),
            optWord (s.part.inSlot x.cfg.node .brPower), optWord (s.part.outSlot x.cfg.node),
            natWord (x.cfg.zone.getD 8), natWord x.cfg.tier, natWord x.cfg.group,
            natWord x.state.code, natWord x.demands.code, natWord x.holds.code,
            natWord (flag x.foundFaulted), optWord x.enrolling,
            optWord ((s.part.bcu.queue.idxOf? branch.toNat).map (· + 1))].flatMap wordBytes))
          ⟨tag, .locateBranch branch⟩ s.part }

/-- BRANCH_REQUEST, BRANCH_CLEAR and LOCATE_BRANCH refused (R51, R52, R175): an action outside the three with
BAD_REQUEST before anything else, a number outside 0 to 35 with RANGE, an empty entry with
NOT_ALLOWED; nothing but the answer and the Fault Detail record changes. The indices that the record
takes are the model's reading of R159 (log 13). -/
def Obligations.BranchNumberRefused : Prop :=
  ∀ (s : State) (tag branch action : Word), s.part.ready →
    let b := branch.toNat
    let answers := fun c a q => exec c s =
      .next { s with part := answeredBy a ⟨tag, q⟩ s.part }
    (3 ≤ action.toNat → answers (.branchRequest tag branch action)
      (Answer.refuse .badRequest (some b) (some 1) 0) (.branchRequest branch action)) ∧
    (36 ≤ b →
      (action.toNat ≤ 2 → answers (.branchRequest tag branch action)
        (Answer.refuse .range (some b) (some 0) 0) (.branchRequest branch action)) ∧
      answers (.branchClear tag branch) (Answer.refuse .range (some b) (some 0) 0)
        (.branchClear branch) ∧
      answers (.locateBranch tag branch) (Answer.refuse .range (some b) (some 0) 0)
        (.locateBranch branch)) ∧
    (b < 36 → s.part.branch b = none →
      (action.toNat ≤ 2 → answers (.branchRequest tag branch action)
        (Answer.refuse .notAllowed (some b) none 0) (.branchRequest branch action)) ∧
      answers (.branchClear tag branch) (Answer.refuse .notAllowed (some b) none 0)
        (.branchClear branch) ∧
      answers (.locateBranch tag branch) (Answer.refuse .notAllowed (some b) none 0)
        (.locateBranch branch))

/-- PROTECT, UNPROTECT and FREEZE_PROTECTION (R176, R177): a list of 1 to 21 banks that the table has sets or
clears the flags of exactly those banks; while the flags are frozen both are refused with FROZEN; a
list of another length with BAD_REQUEST; FREEZE_PROTECTION sets the freeze flag.
The indices of the Fault Detail record are the model's reading of R159 (log 13). -/
def Obligations.ProtectionRequestsAct : Prop :=
  ∀ (s : State) (tag table : Word) (banks : List Word), s.part.ready →
    s.part.prot.flags.length = 21 →
    let answers := fun c q a p => exec c s =
      .next { s with part := answeredBy a ⟨tag, q⟩ { s.part with prot := p } }
    answers (.freezeProtection tag) .freezeProtection (Answer.done [])
      { s.part.prot with frozen := true } ∧
    (banks.length = 0 ∨ 21 < banks.length →
      answers (.protect tag table banks) (.protect table banks)
        (Answer.refuse .badRequest none none 0) s.part.prot ∧
      answers (.unprotect tag table banks) (.unprotect table banks)
        (Answer.refuse .badRequest none none 0) s.part.prot) ∧
    ∀ t, 1 ≤ banks.length → banks.length ≤ 21 → TableId.ofCode table.toNat = some t →
      (∀ b ∈ banks, b.toNat < bankCount t) →
      (s.part.prot.frozen = true →
        answers (.protect tag table banks) (.protect table banks)
          (Answer.refuse .frozen none none 0) s.part.prot ∧
        answers (.unprotect tag table banks) (.unprotect table banks)
          (Answer.refuse .frozen none none 0) s.part.prot) ∧
      (s.part.prot.frozen = false → ∃ on off : List Bool,
        answers (.protect tag table banks) (.protect table banks) (Answer.done []) ⟨on, false⟩ ∧
        answers (.unprotect tag table banks) (.unprotect table banks) (Answer.done [])
          ⟨off, false⟩ ∧
        on.length = 21 ∧ off.length = 21 ∧
        ∀ i, i < 21 →
          on[i]? = (if ∃ b ∈ banks, bankOffset t + b.toNat = i then some true
            else s.part.prot.flags[i]?) ∧
          off[i]? = (if ∃ b ∈ banks, bankOffset t + b.toNat = i then some false
            else s.part.prot.flags[i]?))

/-- SET_FEATURE (R163): READ_BLOCK, W_TEL and W_RSP are stored at the nearest limit, with CLAMPED where that
is not the value named, also where it is the value held (log 32, DESIGN CHOICE); SOFT_RESET_TABLES and
FORWARDING outside their two values are refused with RANGE; an identifier that names no feature is refused
with RANGE whatever its result bytes (log 14, DESIGN CHOICE). The answer carries the previous value, as one
word (log 25, DESIGN CHOICE). The Fault Detail record of CLAMPED and of RANGE names the feature as entry and
field 1 for a value or field 0 for the identifier, as the model reads R159 (8.2.4; log 13, DEDUCED). -/
def Obligations.SetFeatureActs : Prop :=
  ∀ (s : State) (tag feature value : Word), s.part.ready →
    let f := s.part.rlp.features
    let i := feature.toNat
    let v := value.toNat
    let answers := fun a g => exec (.setFeature tag feature value) s = .next (State.mk
      (answeredBy a ⟨tag, .setFeature feature value⟩
        { s.part with rlp := { s.part.rlp with features := g } }) s.pending)
    let stored := fun lo hi old g => answers
      (if lo ≤ v ∧ v ≤ hi then Answer.done (twoBytes old)
        else { Answer.refuse .clamped (some i) (some 1) 0 with result := twoBytes old }) g
    let switched := fun old g =>
      (v ≤ 1 → answers (Answer.done (twoBytes (flag old))) g) ∧
      (2 ≤ v → answers
        { Answer.refuse .range (some i) (some 1) 0 with result := twoBytes (flag old) } f)
    (i = 0 → stored 1 16 f.readBlock { f with readBlock := max 1 (min 16 v) }) ∧
    (i = 1 → switched f.clearTables { f with clearTables := v == 1 }) ∧
    (i = 2 → switched f.forwarding { f with forwarding := v == 1 }) ∧
    (i = 3 → stored 1 15 f.wTel { f with wTel := max 1 (min 15 v) }) ∧
    (i = 4 → stored 1 15 f.wRsp { f with wRsp := max 1 (min 15 v) }) ∧
    (5 ≤ i → ∃ result, answers
      { Answer.refuse .range (some i) (some 0) 0 with result := result } f)

/-- READ_TABLE (R174): the table identifier, then the count, then the start entry are checked, with RANGE and
the count as residual. A read whose records fit one block, with room for two messages, is answered by
one DATA message of the entries from the start, followed by DONE, or by END_OF_TABLE where the table
ends first. While the transmitter is busy, a read of several blocks appends its DATA messages of
READ_BLOCK records each, the last with the remainder, and then its final response, as far as the
Response Queue has room for 8; where it has none left, the read waits at the head.
The indices of the Fault Detail record are the model's reading of R159 (log 13), and that the record stands
while the DATA messages still wait is its choice (log 36, DESIGN CHOICE). -/
def Obligations.ReadTableActs : Prop :=
  ∀ (s : State) (tag table start count : Word), s.part.ready →
    let c := count.toNat
    let n0 := start.toNat
    let q : Queued := ⟨tag, .readTable table start count⟩
    let refused := fun e f => exec (.readTable tag table start count) s =
      .next { s with part := answeredBy (Answer.refuse .range e f c) q s.part }
    (TableId.ofCode table.toNat = none → refused none (some 0)) ∧
    ∀ t, TableId.ofCode table.toNat = some t →
      (c < 1 ∨ 256 < c → refused none (some 2)) ∧
      (1 ≤ c → c ≤ 256 → tableSize t ≤ n0 → refused (some n0) (some 1)) ∧
      (1 ≤ c → c ≤ 256 → n0 < tableSize t → min c (tableSize t - n0) ≤ s.part.rlp.features.readBlock →
        s.part.rlp.responses.length ≤ 6 →
        let n := min c (tableSize t - n0)
        let a := if n0 + c ≤ tableSize t then Answer.done []
          else Answer.refuse .endOfTable (some (tableSize t - 1)) none (c - n)
        let data := Uplink.data tag t n0 ((List.range n).map fun i => readEntry t (n0 + i) s.part)
        exec (.readTable tag table start count) s = .next { s with
          part := answeredBy a q (appendResponse data s.part) }) ∧
      (1 ≤ c → c ≤ 256 → n0 < tableSize t → 1 ≤ s.part.rlp.features.readBlock →
        s.part.rlp.tx ≠ none →
        let n := min c (tableSize t - n0)
        let block := s.part.rlp.features.readBlock
        let blocks := (n + block - 1) / block
        let a := if n0 + c ≤ tableSize t then Answer.done []
          else Answer.refuse .endOfTable (some (tableSize t - 1)) none (c - n)
        let data := fun i => Uplink.data tag t (n0 + i * block)
          ((List.range (min block (n - i * block))).map fun x =>
            readEntry t (n0 + i * block + x) s.part)
        let queued := s.part.rlp.responses
        let room := 8 - queued.length
        let reads := fun requests phase more => exec (.readTable tag table start count) s =
          .next { s with part := refreshLines { s.part with rlp := { s.part.rlp with
            requests := requests, phase := phase, detail := detailAfter a q
            responses := queued ++ more } } }
        (blocks < room → reads [] .fresh
          ((List.range blocks).map data ++ [.response (a.response tag)])) ∧
        (blocks = room → reads [q] (.answering (a.response tag)) ((List.range blocks).map data)) ∧
        (room < blocks → reads [q]
          (.reading t (n0 + room * block) (n - room * block) block (a.response tag))
          ((List.range room).map data)))

/-! ## Tables -/

/-- Placement (R171): a write stays inside the bank that holds its start entry, and its record j goes to entry
bank_base + ((start − bank_base + j) mod bank_size), wrapping to the bank's first entry; with the rule's
own four examples. Each record is checked and applied in its turn, in the part that the earlier ones
leave, and of two step records that reach one entry the last stands. -/
def Obligations.WritePlacement : Prop :=
  (List.range 4).map (placeOf .slotMap 30) = [30, 31, 16, 17] ∧
  (List.range 6).map (placeOf .branch 34) = [34, 35, 32, 33, 34, 35] ∧
  (List.range 3).map (placeOf .rectifier 6) = [6, 7, 0] ∧
  (List.range 2).map (placeOf .profile 0) = [0, 0] ∧
  (∀ (t : TableId) (start j : Nat), start < tableSize t →
    let base := 16 * (start / 16)
    let size := min 16 (tableSize t - base)
    placeOf t start j = base + ((start - base) + j) % size ∧
      base ≤ placeOf t start j ∧ placeOf t start j < base + size ∧
      placeOf t start 0 = start ∧ placeOf t start (j + size) = placeOf t start j ∧
      placeOf t start j < tableSize t ∧ placeOf t start j / 16 = start / 16) ∧
  (∀ (t : TableId) (start j : Nat) (clamp : Option Nat) (ws : List Word) (rest : List (List Word))
    (d d' : Part), applyRecord t (placeOf t start j) ws d = (d', .accepted) →
    applyRecords t start j clamp (ws :: rest) d =
      applyRecords t start (j + 1) clamp rest (settleAll d')) ∧
  ∀ (d : Part) (n : Nat) (first last : List Word) (e e' : Option SeqStep),
    d.sqe.run ≠ .running → d.sqe.run ≠ .suspended →
    parseStep first = .ok e → parseStep last = .ok e' →
    (writeStep n last (writeStep n first d).1).1.sqe.steps = d.sqe.steps.set n e'

/-- A table record read back is the record that stores the same entry (R174, R181): the words of an entry
whose fields lie in their ranges parse to that entry, for each of the nine tables and with every field at
every value of its range; an empty entry's words parse to an empty entry. -/
def Obligations.RecordRoundTrip : Prop :=
  (∀ node kind limit, 1 ≤ node → node ≤ 62 → (∀ n, limit = some n → n < 48) →
    parseSlot (slotWords (some (.input node kind limit))) = .ok (some (.input node kind limit)) ∧
    parseSlot (slotWords (some (.output node))) = .ok (some (.output node))) ∧
  (∀ e : LimitEntry,
    (∀ x, e.lowTrip = some x ∨ e.lowWarn = some x ∨ e.highWarn = some x ∨ e.highTrip = some x →
      -32768 ≤ x ∧ x ≤ 32767) →
    ([e.lowTrip, e.lowWarn, e.highWarn, e.highTrip].filterMap id).Pairwise (· ≤ ·) →
    e.hysteresis ≤ 32767 → 1 ≤ e.persistence → e.persistence ≤ 255 → 1 ≤ e.staleLimit →
    e.staleLimit ≤ 1000 → e.deadband ≤ 32767 →
    parseLimit (limitWords (some e)) = .ok (some e)) ∧
  (∀ r : Rectifier, 1 ≤ r.node → r.node ≤ 62 → 500 ≤ r.ratedW → r.ratedW ≤ 8000 →
    parseRect (rectWords (some r)) = .ok (some (r.node, r.ratedW))) ∧
  (∀ b : Battery, 1 ≤ b.node → b.node ≤ 62 → parseBatt (battWords (some b)) = .ok (some b.node)) ∧
  (∀ x : Branch, 1 ≤ x.cfg.node → x.cfg.node ≤ 62 → x.cfg.ratedW ≤ 8000 →
    (∀ z, x.cfg.zone = some z → z ≤ 7) → x.cfg.tier ≤ 7 → x.cfg.group ≤ 15 →
    parseBranch (branchWords (some x)) = .ok (some x.cfg)) ∧
  (∀ e : SeqStep, e.group ≤ 15 → (e.kind.usesGroup = true → 1 ≤ e.group) → e.timeMs ≤ 65535 →
    e.code ≤ 255 → parseStep (stepWords (some e)) = .ok (some e)) ∧
  (∀ p : Point, 1 ≤ p.cfg.node → p.cfg.node ≤ 62 → p.cfg.slot ≤ 95 → p.cfg.zone ≤ 7 →
    p.cfg.wetLevel < p.cfg.faultLevel → p.cfg.faultLevel ≤ 4095 → 1 ≤ p.cfg.debounce →
    p.cfg.debounce ≤ 255 → parsePoint (pointWords (some p)) = .ok (some p.cfg)) ∧
  (∀ z : ZoneCfg, 1 ≤ z.vote → z.vote ≤ 4 → parseZone (zoneWords (some z)) = .ok (some z)) ∧
  (∀ ws, parseProfile (profileWords (parseProfile ws).1) = ((parseProfile ws).1, none)) ∧
  (parseSlot (slotWords none) = .ok none ∧ parseLimit (limitWords none) = .ok none ∧
    parseRect (rectWords none) = .ok none ∧ parseBatt (battWords none) = .ok none ∧
    parseBranch (branchWords none) = .ok none ∧ parseStep (stepWords none) = .ok none ∧
    parsePoint (pointWords none) = .ok none ∧ parseZone (zoneWords none) = .ok none)

/-- The range checks of one record, in every table (R4, R24, R46, R72, R75, R117, R137, R141, R173). A Slot
Map, Limit, Rectifier, Battery, Sequence, Leak Point or Leak Zone record is refused with RANGE exactly
when it has valid = yes and a field outside its range (of a Limit Table record, also when two of its
present thresholds are out of order); a Branch Table record when any field is outside its range, whatever
its valid flag, but that an empty entry's field may be ABSENT (log 12, DEDUCED). The entry is left as it
was. A Power Profile record is never refused: a number out of range is stored at its nearest limit, an
enumerated field that is none of its values at its default, and a record with valid = no returns every
field to its default. -/
def Obligations.RecordRanges : Prop :=
  ∀ (d : Part) (n : Nat) (ws : List Word),
    let w := fun i => (ws[i]?.getD 0).toNat
    let valid := (ws[0]?.getD 0).getLsbD 0 = true
    let node := fun i => 1 ≤ w i ∧ w i ≤ 62
    let refuses := fun (o : Part × Verdict) => ∃ f, o = (d, .refused .range (some f))
    (refuses (writeSlot n ws d) ↔ valid ∧ (1 < w 1 ∨ ¬ node 2 ∨
      (w 1 = 0 ∧ (10 < w 3 ∨ (w 4 ≠ 65535 ∧ 47 < w 4))) ∨
      (w 1 = 1 ∧ (w 3 ≠ 65535 ∨ w 4 ≠ 65535)))) ∧
    (refuses (writeLimit n ws d) ↔ valid ∧ (32767 < w 5 ∨ w 6 < 1 ∨ 255 < w 6 ∨ w 7 < 1 ∨
      1000 < w 7 ∨ 3 < w 8 ∨ 32767 < w 9 ∨ 2 < w 10 ∨
      ∃ i j, 1 ≤ i ∧ i < j ∧ j ≤ 4 ∧ (ws[0]?.getD 0).getLsbD i = true ∧
        (ws[0]?.getD 0).getLsbD j = true ∧ (ws[j]?.getD 0).toInt < (ws[i]?.getD 0).toInt)) ∧
    (refuses (writeRect n ws d) ↔ valid ∧ (¬ node 1 ∨ w 2 < 500 ∨ 8000 < w 2)) ∧
    (refuses (writeBatt n ws d) ↔ valid ∧ ¬ node 1) ∧
    (let excused := fun i => ¬ valid ∧ w i = 65535
     refuses (writeBranch n ws d) ↔ (¬ node 1 ∧ ¬ excused 1) ∨ (8000 < w 2 ∧ ¬ excused 2) ∨
        (8 < w 3 ∧ ¬ excused 3) ∨ (7 < w 4 ∧ ¬ excused 4) ∨ (15 < w 5 ∧ ¬ excused 5)) ∧
    (refuses (writeStep n ws d) ↔ valid ∧ (5 < w 1 ∨ 15 < w 2 ∨ (w 1 ≤ 2 ∧ w 2 = 0) ∨ 1 < w 4 ∨
      255 < w 5)) ∧
    (refuses (writePoint n ws d) ↔ valid ∧ (¬ node 1 ∨ 95 < w 2 ∨ 7 < w 3 ∨ 4095 < w 4 ∨
      w 5 < 1 ∨ 4095 < w 5 ∨ w 5 ≤ w 4 ∨ w 6 < 1 ∨ 255 < w 6)) ∧
    (refuses (writeZone n ws d) ↔ valid ∧ (w 1 < 1 ∨ 4 < w 1 ∨ 1 < w 2 ∨ 1 < w 3 ∨ 1 < w 4)) ∧
    (let p := (writeProfile ws d).1.sru.profile
     let within := fun lo hi i => max lo (min hi (w i))
     (∀ st f, (writeProfile ws d).2 ≠ .refused st f) ∧
     (¬ valid → p = ⟨100, 4, 3, 2000, 50, true, 300, .nPlusOne, 1, 500, 3000, 200, 20, 0, 950, 120,
       100, 30, none⟩ ∧ (writeProfile ws d).2 = .accepted) ∧
     (valid → p = ⟨within 2 10000 1, within 2 16 2, within 0 15 3, within 100 30000 4,
       within 0 5000 5, !(w 6 == 0), within 0 5000 7, if w 8 = 0 then .plain else .nPlusOne,
       within 1 8 9, within 50 30000 10, within 100 60000 11, within 10 10000 12, within 10 1000 13,
       w 14, within 500 1000 15, within 1 3600 16, within 0 500 17, within 0 3600 18,
       if w 19 ≤ 7 then some (w 19) else none⟩))

/-- WRITE_TABLE (R170, R172): the checks made before any record, in their order, each with its entry index and
its residual. Of a write to the Sequence Table with no run under way, the records before the first
that is out of range are stored where R171 places them, the last to reach an entry standing, and that
record and those after it are counted as residual; with none out of range every record is stored and
the answer is DONE. Nothing else of the part changes.
The indices that R170 and R172 do not name are the model's reading of R159 (log 13). -/
def Obligations.WriteTableActs : Prop :=
  ∀ (s : State) (tag table start : Word) (words : List Word), s.part.ready →
    let n := start.toNat
    let answers := fun a d => exec (.writeTable tag table start words) s =
      .next { s with part := answeredBy a ⟨tag, .writeTable table start words⟩ d }
    (TableId.ofCode table.toNat = none → answers (Answer.refuse .range none (some 0) 0) s.part) ∧
    ∀ t, TableId.ofCode table.toNat = some t →
      let count := words.length / recordLength t
      (words.length % recordLength t ≠ 0 ∨ count < 1 ∨ 16 < count →
        answers (Answer.refuse .badRequest none none 0) s.part) ∧
      (words.length = count * recordLength t → 1 ≤ count → count ≤ 16 →
        (tableSize t ≤ n → answers (Answer.refuse .range (some n) (some 1) count) s.part) ∧
        (n < tableSize t → bankProtected t n s.part = true →
          answers (Answer.refuse .isProtected (some n) none count) s.part) ∧
        (n < tableSize t → bankProtected t n s.part = false → t = .profile →
          s.part.sru.source ≠ .onAc → s.part.sru.source ≠ .unknown →
          answers (Answer.refuse .notAllowed (some 0) none count) s.part) ∧
        (n < tableSize t → bankProtected t n s.part = false → t = .sequence →
          s.part.sqe.run ≠ .running → s.part.sqe.run ≠ .suspended →
          s.part.sqe.steps.length = 64 →
          let record := fun j => (words.drop (6 * j)).take 6
          let store := fun m => (List.range m).foldl (fun (l : List (Option SeqStep)) j =>
            match parseStep (record j) with
            | .ok e => l.set (placeOf t n j) e
            | .error _ => l) s.part.sqe.steps
          ((∀ j, j < count → (parseStep (record j)).isOk = true) →
            answers (Answer.done [])
              { s.part with sqe := { s.part.sqe with steps := store count } }) ∧
          (∀ m f, m < count → (∀ j, j < m → (parseStep (record j)).isOk = true) →
            parseStep (record m) = .error f →
            answers (Answer.refuse .range (some (placeOf t n m)) (some f) (count - m))
              { s.part with sqe := { s.part.sqe with steps := store m } })))

/-- One record of each table, as its owning block takes it (R4, R24, R46, R72, R75, R117, R137, R141, R172,
R173): the written map alone for a slot, nothing where the record leaves every field as it is, a new
branch in UNKNOWN with the begin values of R47, a duplicate refused with CONFLICT, a record for what is in
use refused with IN_USE (the switch node changed or the entry emptied while the branch is not OFF, the
zone changed under LEAK, a run under way, a zone not CLEAR), and a profile stored clamped. The field index
of a CONFLICT or IN_USE is the model's reading of R159 (log 13), and a step record with valid = no is
refused during a run as any other (log 23); that a record which meets both in-use conditions of a branch
gives the switch node is the model's choice (log 37, DESIGN CHOICE). -/
def Obligations.RecordsApplied : Prop :=
  ∀ (d : Part) (n : Nat) (ws : List Word),
    (∀ node kind limit, parseSlot ws = .ok (some (.input node kind limit)) →
      let double := ∃ m l, m ≠ n ∧ entry d.slc.written m = some (.input node kind l)
      (double → writeSlot n ws d = (d, .refused .conflict (some 3))) ∧
      (¬ double → writeSlot n ws d = ({ d with slc := { d.slc with
        written := d.slc.written.set n (some (.input node kind limit)) } }, .accepted))) ∧
    (∀ node, parseSlot ws = .ok (some (.output node)) →
      let double := ∃ m, m ≠ n ∧ entry d.slc.written m = some (.output node)
      (double → writeSlot n ws d = (d, .refused .conflict (some 2))) ∧
      (¬ double → writeSlot n ws d = ({ d with slc := { d.slc with
        written := d.slc.written.set n (some (.output node)) } }, .accepted))) ∧
    (∀ c, parseBranch ws = .ok (some c) → d.branch n = none → n < d.bcu.branches.length →
      let double := ∃ m x, m ≠ n ∧ d.branch m = some x ∧ x.cfg.node = c.node
      (double → writeBranch n ws d = (d, .refused .conflict (some 1))) ∧
      (¬ double → writeBranch n ws d = ({ d with bcu := { d.bcu with
        branches := d.bcu.branches.set n (some ⟨c, .unknown, ⟨false, false⟩,
          ⟨leakHold d c.zone, false, d.sru.shed.getLsbD c.tier, false⟩, none, false, none,
          .stopped, false, false⟩) } }, .accepted))) ∧
    (∀ x, d.branch n = some x → x.state ≠ .off → parseBranch ws = .ok none →
      writeBranch n ws d = (d, .refused .inUse none)) ∧
    (∀ x c, d.branch n = some x → parseBranch ws = .ok (some c) →
      (∀ m y, m ≠ n → d.branch m = some y → y.cfg.node ≠ c.node) →
      (c.node ≠ x.cfg.node → x.state ≠ .off →
        writeBranch n ws d = (d, .refused .inUse (some 1))) ∧
      (c.node = x.cfg.node ∨ x.state = .off → c.zone ≠ x.cfg.zone → x.holds.leak = true →
        writeBranch n ws d = (d, .refused .inUse (some 3)))) ∧
    (∀ p, entry d.lkm.points n = some p → (d.zone p.cfg.zone).state ≠ .clear →
      parsePoint ws = .ok none → writePoint n ws d = (d, .refused .inUse none)) ∧
    (d.sqe.run = .running ∨ d.sqe.run = .suspended → ∀ e, parseStep ws = .ok e →
      writeStep n ws d = (d, .refused .inUse none)) ∧
    ((d.zone n).state ≠ .clear → ∀ e, parseZone ws = .ok e →
      writeZone n ws d = (d, .refused .inUse none)) ∧
    (parseLimit ws = .ok (entry d.tlf.limits n) → writeLimit n ws d = (d, .accepted)) ∧
    (parseZone ws = .ok (d.zone n).cfg → (d.zone n).state = .clear →
      writeZone n ws d = (d, .accepted)) ∧
    (∀ x, d.branch n = some x → parseBranch ws = .ok (some x.cfg) →
      (∀ m y, m ≠ n → d.branch m = some y → y.cfg.node ≠ x.cfg.node) →
      writeBranch n ws d = (d, .accepted)) ∧
    (∀ node w, parseRect ws = .ok (some (node, w)) →
      let double := ∃ m r, m ≠ n ∧ entry d.sru.rects m = some r ∧ r.node = node
      (double → writeRect n ws d = (d, .refused .conflict (some 1))) ∧
      (¬ double → ∀ s, entry d.sru.rects n = some ⟨node, w, s⟩ →
        writeRect n ws d = (d, .accepted))) ∧
    (∀ node, parseBatt ws = .ok (some node) →
      let double := ∃ m b, m ≠ n ∧ entry d.sru.batts m = some b ∧ b.node = node
      (double → writeBatt n ws d = (d, .refused .conflict (some 1))) ∧
      (¬ double → ∀ s, entry d.sru.batts n = some ⟨node, s⟩ →
        writeBatt n ws d = (d, .accepted))) ∧
    (∀ c, parsePoint ws = .ok (some c) →
      let double := ∃ m p, m ≠ n ∧ entry d.lkm.points m = some p ∧ p.cfg.node = c.node ∧
        p.cfg.slot = c.slot
      (double → writePoint n ws d = (d, .refused .conflict (some 1))) ∧
      (¬ double → (d.zone c.zone).state ≠ .clear →
        writePoint n ws d = (d, .refused .inUse none)) ∧
      (¬ double → (d.zone c.zone).state = .clear → ∀ p, entry d.lkm.points n = some p → p.cfg = c →
        writePoint n ws d = (d, .accepted))) ∧
    ((writeProfile ws d).1.sru.profile = (parseProfile ws).1 ∧
      (∀ f, (parseProfile ws).2 = some f → (writeProfile ws d).2 = .clamped f) ∧
      ((parseProfile ws).2 = none → (writeProfile ws d).2 = .accepted))

/-- What an accepted record that changes its entry does at once (R25, R46, R59, R72, R74, R75, R93, R137,
R141). A Limit Table record: the channels that refer to the entry return to UNSEEN where it becomes valid
or empty, and else lose their candidate alone; every other channel stands. A Branch Table record: the
demands and the TRIP and FORCE_OFF holds are kept, LEAK and SHED follow the new zone and tier, the output
rule acts once on the result, a new switch node makes the branch UNKNOWN without a reading and with
nothing staged for it any more, a lowered rated_w is an attempt event, and an emptied entry drops all live
fields. A Rectifier or Battery Table record: the state is derived from the node, with its event record
where it differs from the one held, and C follows. A Power Profile record: C, the battery states,
committed load, the AC conditions and the LEAK_IN line follow the fields that they read, and nothing else
moves. A Leak Point record: the point begins UNSEEN. A Leak Zone record: the zone takes the fields, and
the line confirms it where it is the line's. The state that a new rectifier or battery is taken to have
held is the model's reading (log 24, DEDUCED), and that DEGRADED leaves with an emptied zone its choice
(log 17, DESIGN CHOICE). -/
def Obligations.RecordsChangeLive : Prop :=
  ∀ (d : Part) (n : Nat) (ws : List Word),
    (∀ e, parseLimit ws = .ok e → e ≠ entry d.tlf.limits n → n < d.tlf.limits.length →
      let o := writeLimit n ws d
      let refers := fun k => ∃ node kind, entry d.slc.active k = some (.input node kind (some n))
      o.2 = .accepted ∧ o.1.tlf.limits = d.tlf.limits.set n e ∧
      (∀ k, k < 96 → refers k → ∀ x, entry d.tlf.channels k = some x →
        entry o.1.tlf.channels k = some (if e.isSome = (entry d.tlf.limits n).isSome then
          { x with candidate := none, count := 0 } else ⟨.unseen, none, none, none, 0, 0⟩)) ∧
      (∀ k, ¬ refers k → entry o.1.tlf.channels k = entry d.tlf.channels k) ∧
      (e.isSome = (entry d.tlf.limits n).isSome → o.1 = { d with tlf := o.1.tlf }) ∧
      o.1.tlf.queue = d.tlf.queue ∧ o.1.slc.active = d.slc.active) ∧
    (∀ x c, d.branch n = some x → parseBranch ws = .ok (some c) → c ≠ x.cfg →
      (∀ m y, m ≠ n → d.branch m = some y → y.cfg.node ≠ c.node) →
      (c.node = x.cfg.node ∨ x.state = .off) → (c.zone = x.cfg.zone ∨ x.holds.leak = false) →
      let o := writeBranch n ws d
      let y := { x with cfg := c, holds := { x.holds with
        leak := leakHold d c.zone, shed := d.sru.shed.getLsbD c.tier } }
      let becomes := fun z q => o.1.branch n = some z ∧ o.1.bcu.queue = q
      o.2 = .accepted ∧ .branches ∈ o.1.agenda ∧
      (c.ratedW < x.cfg.ratedW → .attempt ∈ o.1.agenda) ∧
      (∀ m, m ≠ n → o.1.branch m = d.branch m) ∧
      (c.node ≠ x.cfg.node →
        becomes { y with state := .unknown, reading := none, fresh := false, moved := true }
          d.bcu.queue ∧
        o.1.slc.out = d.slc.out.map (Option.map fun r =>
          if r.forBranch = some n then { r with forBranch := none } else r)) ∧
      (c.node = x.cfg.node →
        (x.holds.any = false → y.holds.any = true → x.state = .queued →
          becomes { y with state := .off } (d.bcu.queue.filter (· != n)) ∧
            o.1.slc.out = d.slc.out) ∧
        (x.holds.any = false → y.holds.any = true → x.state = .admitting ∨ x.state = .on →
          ∀ k r, d.outSlot c.node = some k → entry d.slc.out k = some r →
          becomes { y with state := .stopping, timer := .running d.sru.profile.admitTimeoutMs }
            d.bcu.queue ∧
          o.1.slc.out = d.slc.out.set k (some { r with
            staged := some 0, lastWriter := some .bcu, owed := true, forBranch := some n })) ∧
        (x.state = .off → y.holds.any = false → x.demands.any = true →
          becomes { y with state := .queued } (d.bcu.queue ++ [n]) ∧ o.1.slc.out = d.slc.out) ∧
        ((x.holds.any = true ∨ y.holds.any = false) →
          (x.state ≠ .off ∨ y.holds.any = true ∨ x.demands.any = false) →
          becomes y d.bcu.queue ∧ o.1.slc.out = d.slc.out) ∧
        (x.state = .unknown ∨ x.state = .stopping ∨ x.state = .fault ∨
            (x.state = .off ∧ x.holds.any = false ∧ y.holds.any = true) →
          becomes y d.bcu.queue ∧ o.1.slc.out = d.slc.out))) ∧
    (∀ x, d.branch n = some x → x.state = .off → parseBranch ws = .ok none →
      let o := writeBranch n ws d
      o.2 = .accepted ∧ .branches ∈ o.1.agenda ∧
      o.1.bcu = { d.bcu with branches := d.bcu.branches.set n none } ∧
      o.1.slc.out = d.slc.out.map (Option.map fun r =>
        if r.forBranch = some n then { r with forBranch := none } else r)) ∧
    (∀ node w, parseRect ws = .ok (some (node, w)) → n < d.sru.rects.length →
      (∀ m r, m ≠ n → entry d.sru.rects m = some r → r.node ≠ node) →
      (∀ r, entry d.sru.rects n = some r → r.node ≠ node ∨ r.ratedW ≠ w) →
      let t := (writeRect n ws d).1
      let held := ((entry d.sru.rects n).map Rectifier.state).getD .absent
      t.sru.rects = d.sru.rects.set n (some ⟨node, w, rectStateOf node d⟩) ∧
      t.sru.capacity = capacityOf t ∧
      (rectStateOf node d ≠ held → d.rlp.events.length < 64 →
        t.holdsEvent ⟨.rectState, some node, some (rectStateOf node d).code, d.slc.cycle⟩) ∧
      (entry d.sru.rects n = none → d.sru.source = .unknown → d.sru.qualTimer = .stopped →
        rectStateOf node d = .absent → t.sru.source = .unknown ∧
          t.sru.qualTimer = .running d.sru.profile.qualMs)) ∧
    (parseRect ws = .ok none → (entry d.sru.rects n).isSome →
      let t := (writeRect n ws d).1
      t.sru.rects = d.sru.rects.set n none ∧ t.sru.capacity = capacityOf t) ∧
    (∀ node, parseBatt ws = .ok (some node) → n < d.sru.batts.length →
      (∀ m b, m ≠ n → entry d.sru.batts m = some b → b.node ≠ node) →
      (∀ b, entry d.sru.batts n = some b → b.node ≠ node) →
      let t := (writeBatt n ws d).1
      let held := ((entry d.sru.batts n).map Battery.state).getD .absent
      t.sru = { d.sru with batts := d.sru.batts.set n (some ⟨node, battStateOf node d⟩) } ∧
      (battStateOf node d ≠ held → d.rlp.events.length < 64 →
        t.holdsEvent ⟨.batteryState, some node, some (battStateOf node d).code, d.slc.cycle⟩)) ∧
    (parseBatt ws = .ok none → writeBatt n ws d =
      ({ d with sru := { d.sru with batts := d.sru.batts.set n none } }, .accepted)) ∧
    (let old := d.sru.profile
     let t := (writeProfile ws d).1
     let new := t.sru.profile
     (new.redundancy ≠ old.redundancy → t.sru.capacity = capacityOf t) ∧
     (new.minRect ≠ old.minRect → d.sru.source = .onAc → acLost d = true →
       t.sru.source = .onBattery) ∧
     (new.floor ≠ old.floor → ∀ i b, i < 6 → entry d.sru.batts i = some b →
       entry t.sru.batts i = some { b with state := battStateOf b.node t }) ∧
     (new.overheadW < old.overheadW → .attempt ∈ t.agenda) ∧
     (new.redundancy = old.redundancy → new.minRect = old.minRect → new.floor = old.floor →
       old.overheadW ≤ new.overheadW →
       (new.leakLineZone = old.leakLineZone ∨ d.lines.leakIn = false →
         t = { d with sru := { d.sru with profile := new } }) ∧
       (new.leakLineZone ≠ old.leakLineZone → d.lines.leakIn = true → ∀ z c,
         new.leakLineZone = some z → (d.zone z).cfg = some c → (d.zone z).state.latched = false →
         z < d.lkm.zones.length → d.rlp.events.length < 64 →
         (t.zone z).state = (if c.isolate then .isolated else .confirmed) ∧
           (t.zone z).acked = false ∧
           t.holdsEvent ⟨.leakConfirmed, some z, some 256, d.slc.cycle⟩))) ∧
    (∀ e, parsePoint ws = .ok e → (entry d.lkm.points n).map Point.cfg ≠ e →
      n < d.lkm.points.length →
      (∀ c, e = some c → (d.zone c.zone).state = .clear ∧
        ∀ m p, m ≠ n → entry d.lkm.points m = some p → p.cfg.node ≠ c.node ∨ p.cfg.slot ≠ c.slot) →
      (∀ p, entry d.lkm.points n = some p → (d.zone p.cfg.zone).state = .clear) →
      let o := writePoint n ws d
      o.2 = .accepted ∧ o.1.lkm.points = d.lkm.points.set n (e.map fun c => ⟨c, .unseen, 0⟩) ∧
      ∀ z, (∀ c, e = some c → c.zone ≠ z) →
        (∀ p, entry d.lkm.points n = some p → p.cfg.zone ≠ z) → o.1.zone z = d.zone z) ∧
    ∀ e, parseZone ws = .ok e → (d.zone n).state = .clear → e ≠ (d.zone n).cfg →
      n < d.lkm.zones.length →
      let o := writeZone n ws d
      let line := d.lines.leakIn = true ∧ d.sru.profile.leakLineZone = some n
      o.2 = .accepted ∧ o.1.lkm.points = d.lkm.points ∧
      (e = none → o.1.zone n = ⟨none, .clear, (d.zone n).acked, false⟩) ∧
      (∀ c, e = some c → (o.1.zone n).cfg = some c ∧
        (line → (o.1.zone n).state = (if c.isolate then .isolated else .confirmed) ∧
          (o.1.zone n).acked = false) ∧
        (¬ line → (∀ p ∈ d.lkm.points.filterMap id, p.cfg.zone ≠ n) →
          o.1.zone n = ⟨some c, .clear, (d.zone n).acked, false⟩)) ∧
      (∀ z, z ≠ n → d.lines.leakIn = false ∨ d.sru.profile.leakLineZone ≠ some z →
        o.1.zone z = d.zone z)

/-! ## Node pass, responses and transmissions -/

/-- NODE_PASS and NODE_PASS_COMPLETE (R161, R162): RANGE outside 1 to 62; NO_ROUTE without an active OUT
entry, or where the written map differs there; OWNED for a switch node; otherwise the value is staged as
writer RLP and the request waits at the head, unanswered. The outcome of its stage then answers it: ACK with
DONE, NO_ACK with NO_ACK and the node as entry index, SUPERSEDED with DONE and its note. With no NODE PASS at
the head an outcome does nothing. That NODE_PASS_COMPLETE can be sent alone, and then answers the request
while the Outbound Slot record still owes its outcome, is the model's reading (log 2, DEDUCED). An outcome of
a stage for a node, or the notice that another writer has superseded it, reaches the NODE PASS that waits for
that node alone: it is the first outcome of its own stage that completes it. The indices of the Fault Detail
record are the model's reading of R159 (log 13). -/
def Obligations.NodePassActs : Prop :=
  (∀ (s : State) (tag node value : Word), s.part.ready →
    let n := node.toNat
    let q : Queued := ⟨tag, .nodePass node value⟩
    let refused := fun a => exec (.nodePass tag node value) s =
      .next { s with part := answeredBy a q s.part }
    (n < 1 ∨ 62 < n → refused (Answer.refuse .range (some n) (some 0) 0)) ∧
    (1 ≤ n → n ≤ 62 → s.part.outSlot n = none →
      refused (Answer.refuse .noRoute (some n) none 0)) ∧
    ∀ k, 1 ≤ n → n ≤ 62 → s.part.outSlot n = some k →
      (entry s.part.slc.written k ≠ some (.output n) →
        refused (Answer.refuse .noRoute (some n) none 0)) ∧
      (entry s.part.slc.written k = some (.output n) →
        (∀ b x, s.part.branch b = some x → x.cfg.node = n →
          refused (Answer.refuse .owned (some n) none 0)) ∧
        ((∀ b x, s.part.branch b = some x → x.cfg.node ≠ n) → s.part.linesFollow →
          ∀ r, entry s.part.slc.out k = some r →
          exec (.nodePass tag node value) s = .next { s with part := { s.part with
            slc := { s.part.slc with out := s.part.slc.out.set k (some { r with
              staged := some value, lastWriter := some .rlp, owed := true
              forBranch := none }) }
            rlp := { s.part.rlp with
              requests := [q], phase := .passing n, detail := none } } }))) ∧
  (∀ (d : Part) (b : Option Nat) (node : Nat) (o : Delivery) (w : Writer) (v : Word),
    let notes := fun (d' : Part) (o : Delivery) => d'.rlp = { d.rlp with passOutcome := some o }
    let supersedes := ∃ k r, d.outSlot node = some k ∧ entry d.slc.out k = some r ∧
      r.owed = true ∧ r.lastWriter = some .rlp ∧ w ≠ .rlp
    (d.rlp.phase ≠ .passing node →
      deliver .rlp b node o d = d ∧ (stage w b node v d).1.rlp = d.rlp) ∧
    (d.rlp.phase = .passing node → d.rlp.passOutcome = none →
      deliver .rlp b node o d = { d with rlp := { d.rlp with passOutcome := some o } } ∧
      (supersedes → notes (stage w b node v d).1 .superseded) ∧
      (¬ supersedes → (stage w b node v d).1.rlp = d.rlp)) ∧
    ∀ first, d.rlp.passOutcome = some first →
      deliver .rlp b node o d = d ∧ (stage w b node v d).1.rlp = d.rlp) ∧
  ∀ (s : State) (o : Delivery), s.part.running → s.part.linesFollow →
    (∀ n q, s.part.rlp.phase = .passing n → s.part.rlp.requests = [q] →
      s.part.rlp.detail = none → s.part.rlp.responses.length < 8 →
      exec (.nodePassComplete o) s = .next { s with part := answeredBy (match o with
        | .ack => Answer.done []
        | .noAck => Answer.refuse .noAck (some n) none 0
        | .superseded => { Answer.done [] with superseded := true }) q s.part }) ∧
    ((∀ n, s.part.rlp.phase ≠ .passing n) → exec (.nodePassComplete o) s = .next s)

/-- RESPONSE_APPEND, UPLINK_TRANSMIT_DONE and RESET (R156, R157, R164, R167): a final response that waits is
appended where the Response Queue has room, and its request leaves; a read that waits appends its next
DATA message where one place is free; the end of a transmission frees the transmitter for the arbiter,
and then lets a waiting head move, and that of the DONE response of a RESET is a SOFT_RESET; RESET is
answered DONE and stays at the head.
That RESPONSE_APPEND stands alone as a command too is the model's choice (log 2). -/
def Obligations.ResponsesMove : Prop :=
  ∀ s : State, s.part.running → s.part.linesFollow →
    (∀ q r, s.part.rlp.requests = [q] → s.part.rlp.phase = .answering r →
      (s.part.rlp.responses.length < 8 → r.resets = false →
        exec .responseAppend s = .next (State.mk (appendResponse (.response r)
          { s.part with rlp := { s.part.rlp with requests := [], phase := .fresh } })
          s.pending)) ∧
      (8 ≤ s.part.rlp.responses.length → exec .responseAppend s = .next s)) ∧
    (∀ q t first left block r, s.part.rlp.requests = [q] →
      s.part.rlp.phase = .reading t first left block r → 1 ≤ block → s.part.rlp.tx ≠ none →
      let n := min block left
      let data := Uplink.data r.tag t first
        ((List.range n).map fun i => readEntry t (first + i) s.part)
      (s.part.rlp.responses.length = 7 →
        exec .responseAppend s = .next { s with part := { s.part with rlp := { s.part.rlp with
          responses := s.part.rlp.responses ++ [data]
          phase := if left ≤ block then .answering r
            else .reading t (first + block) (left - block) block r } } }) ∧
      (8 ≤ s.part.rlp.responses.length → exec .responseAppend s = .next s)) ∧
    (s.part.rlp.requests = [] → s.part.rlp.phase = .fresh →
      exec .responseAppend s = .next s ∧
      (s.part.rlp.tx = none → exec .uplinkTransmitDone s = .next s) ∧
      ∀ m, s.part.rlp.tx = some m → m.resets = false →
        exec .uplinkTransmitDone s = .next { s with
          part := arbitrate { s.part with rlp := { s.part.rlp with tx := none } } }) ∧
    (∀ m, s.part.rlp.tx = some m → m.resets = false →
      exec .uplinkTransmitDone s = exec .responseAppend { s with
        part := arbitrate { s.part with rlp := { s.part.rlp with tx := none } } }) ∧
    (∀ m, s.part.rlp.tx = some m → m.resets = true →
      exec .uplinkTransmitDone s = exec .softReset s) ∧
    ∀ tag, s.part.ready →
      exec (.reset tag) s = .next (State.mk (appendResponse
        (.response ⟨tag, .done, 0, false, false, [], true⟩)
        { s.part with rlp := { s.part.rlp with
          requests := [⟨tag, .reset⟩], phase := .resetting, detail := none } }) s.pending)

/-- A decision of the uplink arbiter with the transmitter idle, by the first case that applies (R166, R167). -/
def Obligations.ArbiterCases : Prop :=
  ∀ d : Part,
    (∀ m, d.rlp.tx = some m → arbitrate d = d) ∧
    (d.rlp.tx = none →
      let tel := fun run => { d with
        tlf := { d.tlf with queue := d.tlf.queue.drop 16 }
        rlp := { d.rlp with
          tx := some (.batch d.rlp.batchTag (d.tlf.queue.take 16))
          batchTag := d.rlp.batchTag + 1, side := .tel, run := run } }
      (∀ e rest, d.rlp.events = e :: rest → arbitrate d = { d with rlp := { d.rlp with
        tx := some (.event d.rlp.eventTag e), events := rest
        eventTag := d.rlp.eventTag + 1 } }) ∧
      (d.rlp.events = [] → d.rlp.responses = [] → d.tlf.queue = [] → arbitrate d = d) ∧
      (d.rlp.events = [] → d.rlp.responses = [] → d.tlf.queue ≠ [] → arbitrate d = tel 0) ∧
      ∀ m rest, d.rlp.events = [] → d.rlp.responses = m :: rest →
        let rsp := fun run => { d with rlp := { d.rlp with
          tx := some m, responses := rest, side := .rsp, run := run } }
        (d.tlf.queue = [] → arbitrate d = rsp 0) ∧
        (d.tlf.queue ≠ [] →
          (d.rlp.side = .rsp → d.rlp.run < d.rlp.features.wRsp →
            arbitrate d = rsp (d.rlp.run + 1)) ∧
          (d.rlp.side = .rsp → d.rlp.features.wRsp ≤ d.rlp.run → arbitrate d = tel 1) ∧
          (d.rlp.side = .tel → d.rlp.run < d.rlp.features.wTel →
            arbitrate d = tel (d.rlp.run + 1)) ∧
          (d.rlp.side = .tel → d.rlp.features.wTel ≤ d.rlp.run → arbitrate d = rsp 1)))

/-! ## Invariants -/

/-- Right after reset the queues are within their bounds, the output lines stand at their levels, and nothing
is due (R42, R148, R149, R152, R155, R157, R165); the Admission Queue, the LEAK holds and the shed sets
are as R50, R63, R81, R109 and R144 give them, and the step index names an entry. -/
def Obligations.InvariantsAtReset : Prop :=
  State.reset.part.queuesBounded ∧ State.reset.part.linesFollow ∧ State.reset.part.quiet ∧
    State.reset.part.admissionSound ∧ State.reset.part.isolationSound ∧
    State.reset.part.shedSound ∧ State.reset.part.sqe.index ≤ 63

/-- Every step keeps the bounds of the four queues (R42, R155, R157, R165), the output lines at the levels
that R148, R149 and R185 give, and nothing due between commands (log 20). -/
def Obligations.StepKeepsInvariants : Prop :=
  ∀ s t : State, s.part.queuesBounded → s.part.linesFollow → s.part.quiet → step s = .next t →
    t.part.queuesBounded ∧ t.part.linesFollow ∧ t.part.quiet

/-- Every step keeps the Admission Queue as R63 gives it: no branch stands in it twice, and its members are
the QUEUED branches, each with a demand and no hold. -/
def Obligations.StepKeepsAdmissionQueue : Prop :=
  ∀ s t : State, s.part.admissionSound → step s = .next t → t.part.admissionSound

/-- Every step keeps the LEAK hold on exactly the branches of the ISOLATED zones (R50, R144), and a latch ends
only by LEAK CLEAR of its zone or a power-on reset (R143, R148): while neither comes, a zone that is CONFIRMED
or ISOLATED keeps its state and its fields, and stays acknowledged once it is. -/
def Obligations.StepKeepsIsolation : Prop :=
  (∀ s t : State, s.part.isolationSound → step s = .next t → t.part.isolationSound) ∧
  ∀ (s t : State) (c : Instr) (rest : List Instr) (z : Nat), s.pending = c :: rest →
    c ≠ .powerOnReset → (s.part.zone z).state.latched = true →
    (∀ q ∈ asked c s.part, ∀ w, q.req = .leakClear w → w.toNat ≠ z) → step s = .next t →
    (t.part.zone z).cfg = (s.part.zone z).cfg ∧ (t.part.zone z).state = (s.part.zone z).state ∧
      ((s.part.zone z).acked = true → (t.part.zone z).acked = true)

/-- Every step keeps the battery-shed set a range of tiers downward from 7, empty outside an episode, with
tier 0 in DEPLETED and the return from it alone, and the capacity-shed set empty in an episode (R81,
R109). While an episode goes on, which no command but the expiry of the stable timer or a reset ends, the
battery-shed set only grows. -/
def Obligations.StepKeepsShedSets : Prop :=
  (∀ s t : State, s.part.shedSound → step s = .next t → t.part.shedSound) ∧
  ∀ (s t : State) (c : Instr) (rest : List Instr), s.pending = c :: rest →
    s.part.sru.source.inEpisode = true → c ≠ .stableTimerExpiry → step s = .next t →
    t.part.sru.source = .unknown ∨
      (t.part.sru.source.inEpisode = true ∧ ∀ k, s.part.sru.battShed.getLsbD k = true →
        t.part.sru.battShed.getLsbD k = true)

/-- The step index never falls within a run (R120), and always names an entry: where no SEQUENCE START is
asked, a step leaves the run IDLE by a reset or an ABORT, or its index at least where it was; and no run
begins. -/
def Obligations.RunIndexGrows : Prop :=
  (∀ s t : State, s.part.sqe.index ≤ 63 → step s = .next t → t.part.sqe.index ≤ 63) ∧
  ∀ (s t : State) (c : Instr) (rest : List Instr), s.pending = c :: rest →
    (∀ q ∈ asked c s.part, q.req ≠ .sequenceStart) → step s = .next t →
    (t.part.sqe.run = .idle ∨ s.part.sqe.index ≤ t.part.sqe.index) ∧
    (s.part.sqe.run ≠ .running → s.part.sqe.run ≠ .suspended →
      t.part.sqe.run ≠ .running ∧ t.part.sqe.run ≠ .suspended)

/-- While protection is frozen, the protection flags and the freeze flag change only by power-on reset (R177),
and no command but PROTECT and UNPROTECT, sent as a row or as a message, changes a flag. -/
def Obligations.FrozenProtectionStands : Prop :=
  (∀ (s t : State) (c : Instr), s.part.prot.frozen = true → c ≠ .powerOnReset →
    exec c s = .next t → t.part.prot = s.part.prot) ∧
  ∀ (s t : State) (c : Instr), c ≠ .powerOnReset → (∀ bytes, c ≠ .messageReceive bytes) →
    (∀ tag table banks, c ≠ .protect tag table banks ∧ c ≠ .unprotect tag table banks) →
    (∀ q ∈ s.part.rlp.requests, ∀ table banks, q.req ≠ .protect table banks ∧
      q.req ≠ .unprotect table banks) →
    exec c s = .next t → t.part.prot.flags = s.part.prot.flags
end

