-- ==== Sys2Proof/Laws/Codes.lean ====
section
/-! SUPPORT. Bytes, words and messages: splitting and joining, and the receive check both ways (R180). -/

namespace Sys2Proof.Machine

/-! ## Bytes and words -/

theorem ofBytes_bit (a b : Byte) (i : Nat) :
    (ofBytes a b).getLsbD i = if i < 8 then b.getLsbD i else a.getLsbD (i - 8) :=
  (BitVec.getLsbD_append (x := a) (y := b) (i := i)).trans (by simp)

theorem hi_bit (w : Word) (i : Nat) (h : i < 8) : (hiByte w).getLsbD i = w.getLsbD (8 + i) :=
  (BitVec.getLsbD_extractLsb' ..).trans (by simp [h])

theorem lo_bit (w : Word) (i : Nat) (h : i < 8) : (loByte w).getLsbD i = w.getLsbD i :=
  (BitVec.getLsbD_extractLsb' ..).trans (by simp [h])

theorem ofBytes_hi_lo (w : Word) : ofBytes (hiByte w) (loByte w) = w := by
  apply BitVec.eq_of_getLsbD_eq
  intro i hi
  rw [ofBytes_bit]
  split
  · rw [lo_bit _ _ (by assumption)]
  · rw [hi_bit _ _ (by omega)]; congr 1; omega

theorem hi_ofBytes (a b : Byte) : hiByte (ofBytes a b) = a := by
  apply BitVec.eq_of_getLsbD_eq
  intro i hi
  rw [hi_bit _ _ hi, ofBytes_bit, if_neg (by omega)]; congr 1; omega

theorem lo_ofBytes (a b : Byte) : loByte (ofBytes a b) = b := by
  apply BitVec.eq_of_getLsbD_eq
  intro i hi
  rw [lo_bit _ _ hi, ofBytes_bit, if_pos hi]

theorem wordBytes_ofBytes (a b : Byte) : wordBytes (ofBytes a b) = [a, b] := by
  unfold wordBytes; rw [hi_ofBytes, lo_ofBytes]

/-! ## Messages -/

/-- A message that the receive check passes is the REQUEST frame of its body. -/
theorem receive_some (bytes : List Byte) (q : Queued) (h : receive bytes = some q) :
    ∃ body, body.length ≤ 1024 ∧ bytes = frame 0 q.tag 0 body ∧ q.req = parseBody body := by
  unfold receive at h
  split at h
  · rename_i k t1 t0 node l1 l0 rest
    simp only at h
    split at h
    · rename_i hc
      obtain ⟨h1, h2, h3, rfl, rfl⟩ := hc
      cases h
      refine ⟨rest.take (ofBytes l1 l0).toNat, by simp; omega, ?_, rfl⟩
      unfold frame
      have hl : (rest.take (ofBytes l1 l0).toNat).length = (ofBytes l1 l0).toNat := by simp; omega
      rw [hl]
      unfold twoBytes
      rw [BitVec.ofNat_toNat, BitVec.setWidth_eq, wordBytes_ofBytes, wordBytes_ofBytes]
      show _ = ([0#8] ++ [t1, t0] ++ [0] ++ [l1, l0] ++ _) ++
        wordBytes (crc16 ([0#8] ++ [t1, t0] ++ [0] ++ [l1, l0] ++ _))
      have h3' : wordBytes (crc16 ([0#8] ++ [t1, t0] ++ [0] ++ [l1, l0] ++
          List.take (ofBytes l1 l0).toNat rest)) = List.drop (ofBytes l1 l0).toNat rest := h3.symm
      rw [h3']
      simp
    · cases h
  · cases h

theorem frame_cons (tag : Word) (body : List Byte) : frame 0 tag 0 body =
   0#8 :: hiByte tag :: loByte tag :: 0#8 :: hiByte (BitVec.ofNat 16 body.length) :: loByte (BitVec.ofNat 16 body.length) ::
     (body ++ wordBytes (crc16 ([0#8, hiByte tag, loByte tag, 0#8, hiByte (BitVec.ofNat 16 body.length), loByte (BitVec.ofNat 16 body.length)] ++ body))) := by
  unfold frame twoBytes wordBytes
  simp [byteOf]

theorem receive_frame (tag : Word) (body : List Byte) (h : body.length ≤ 1024) :
    receive (frame 0 tag 0 body) = some ⟨tag, parseBody body⟩ := by
  rw [frame_cons]
  unfold receive
  simp only [ofBytes_hi_lo]
  have hl : (BitVec.ofNat 16 body.length).toNat = body.length := by simp; omega
  rw [hl]
  rw [if_pos]
  · simp
  · refine ⟨h, ?_, ?_, rfl, rfl⟩
    · simp [wordBytes]
    · simp

theorem wordsOf_flat (ws : List Word) : wordsOf (ws.flatMap wordBytes) = some ws := by
  induction ws with
  | nil => rfl
  | cons w ws ih =>
    show wordsOf (hiByte w :: loByte w :: ws.flatMap wordBytes) = _
    unfold wordsOf
    rw [ih, ofBytes_hi_lo]; rfl

end Sys2Proof.Machine
end

