-- ==== Sys2Proof/Laws/State.lean ====
section
/-! SUPPORT. What each named update of the part leaves, field by field. -/

namespace Sys2Proof.Machine

/-! ### signal -/

@[simp] theorem signal_slc (s : Signal) (d : Part) : (signal s d).slc = d.slc := rfl

@[simp] theorem signal_tlf (s : Signal) (d : Part) : (signal s d).tlf = d.tlf := rfl

@[simp] theorem signal_bcu (s : Signal) (d : Part) : (signal s d).bcu = d.bcu := rfl

@[simp] theorem signal_sru (s : Signal) (d : Part) : (signal s d).sru = d.sru := rfl

@[simp] theorem signal_sqe (s : Signal) (d : Part) : (signal s d).sqe = d.sqe := rfl

@[simp] theorem signal_lkm (s : Signal) (d : Part) : (signal s d).lkm = d.lkm := rfl

@[simp] theorem signal_rlp (s : Signal) (d : Part) : (signal s d).rlp = d.rlp := rfl

@[simp] theorem signal_prot (s : Signal) (d : Part) : (signal s d).prot = d.prot := rfl

@[simp] theorem signal_lines (s : Signal) (d : Part) : (signal s d).lines = d.lines := rfl

/-! ### putBranch -/

@[simp] theorem putBranch_slc (b : Nat) (x : Branch) (d : Part) : (putBranch b x d).slc = d.slc := rfl

@[simp] theorem putBranch_tlf (b : Nat) (x : Branch) (d : Part) : (putBranch b x d).tlf = d.tlf := rfl

@[simp] theorem putBranch_sru (b : Nat) (x : Branch) (d : Part) : (putBranch b x d).sru = d.sru := rfl

@[simp] theorem putBranch_sqe (b : Nat) (x : Branch) (d : Part) : (putBranch b x d).sqe = d.sqe := rfl

@[simp] theorem putBranch_lkm (b : Nat) (x : Branch) (d : Part) : (putBranch b x d).lkm = d.lkm := rfl

@[simp] theorem putBranch_rlp (b : Nat) (x : Branch) (d : Part) : (putBranch b x d).rlp = d.rlp := rfl

@[simp] theorem putBranch_prot (b : Nat) (x : Branch) (d : Part) : (putBranch b x d).prot = d.prot := rfl

@[simp] theorem putBranch_lines (b : Nat) (x : Branch) (d : Part) : (putBranch b x d).lines = d.lines := rfl

@[simp] theorem putBranch_agenda (b : Nat) (x : Branch) (d : Part) : (putBranch b x d).agenda = d.agenda := rfl

/-! ### putZone -/

@[simp] theorem putZone_slc (z : Nat) (x : Zone) (d : Part) : (putZone z x d).slc = d.slc := rfl

@[simp] theorem putZone_tlf (z : Nat) (x : Zone) (d : Part) : (putZone z x d).tlf = d.tlf := rfl

@[simp] theorem putZone_bcu (z : Nat) (x : Zone) (d : Part) : (putZone z x d).bcu = d.bcu := rfl

@[simp] theorem putZone_sru (z : Nat) (x : Zone) (d : Part) : (putZone z x d).sru = d.sru := rfl

@[simp] theorem putZone_sqe (z : Nat) (x : Zone) (d : Part) : (putZone z x d).sqe = d.sqe := rfl

@[simp] theorem putZone_rlp (z : Nat) (x : Zone) (d : Part) : (putZone z x d).rlp = d.rlp := rfl

@[simp] theorem putZone_prot (z : Nat) (x : Zone) (d : Part) : (putZone z x d).prot = d.prot := rfl

@[simp] theorem putZone_lines (z : Nat) (x : Zone) (d : Part) : (putZone z x d).lines = d.lines := rfl

@[simp] theorem putZone_agenda (z : Nat) (x : Zone) (d : Part) : (putZone z x d).agenda = d.agenda := rfl

/-! ### putChannel -/

@[simp] theorem putChannel_slc (k : Nat) (x : ChannelState) (d : Part) : (putChannel k x d).slc = d.slc := rfl

@[simp] theorem putChannel_bcu (k : Nat) (x : ChannelState) (d : Part) : (putChannel k x d).bcu = d.bcu := rfl

@[simp] theorem putChannel_sru (k : Nat) (x : ChannelState) (d : Part) : (putChannel k x d).sru = d.sru := rfl

@[simp] theorem putChannel_sqe (k : Nat) (x : ChannelState) (d : Part) : (putChannel k x d).sqe = d.sqe := rfl

@[simp] theorem putChannel_lkm (k : Nat) (x : ChannelState) (d : Part) : (putChannel k x d).lkm = d.lkm := rfl

@[simp] theorem putChannel_rlp (k : Nat) (x : ChannelState) (d : Part) : (putChannel k x d).rlp = d.rlp := rfl

@[simp] theorem putChannel_prot (k : Nat) (x : ChannelState) (d : Part) : (putChannel k x d).prot = d.prot := rfl

@[simp] theorem putChannel_lines (k : Nat) (x : ChannelState) (d : Part) : (putChannel k x d).lines = d.lines := rfl

@[simp] theorem putChannel_agenda (k : Nat) (x : ChannelState) (d : Part) : (putChannel k x d).agenda = d.agenda := rfl

/-! ### putOut -/

@[simp] theorem putOut_tlf (k : Nat) (r : OutRecord) (d : Part) : (putOut k r d).tlf = d.tlf := rfl

@[simp] theorem putOut_bcu (k : Nat) (r : OutRecord) (d : Part) : (putOut k r d).bcu = d.bcu := rfl

@[simp] theorem putOut_sru (k : Nat) (r : OutRecord) (d : Part) : (putOut k r d).sru = d.sru := rfl

@[simp] theorem putOut_sqe (k : Nat) (r : OutRecord) (d : Part) : (putOut k r d).sqe = d.sqe := rfl

@[simp] theorem putOut_lkm (k : Nat) (r : OutRecord) (d : Part) : (putOut k r d).lkm = d.lkm := rfl

@[simp] theorem putOut_rlp (k : Nat) (r : OutRecord) (d : Part) : (putOut k r d).rlp = d.rlp := rfl

@[simp] theorem putOut_prot (k : Nat) (r : OutRecord) (d : Part) : (putOut k r d).prot = d.prot := rfl

@[simp] theorem putOut_lines (k : Nat) (r : OutRecord) (d : Part) : (putOut k r d).lines = d.lines := rfl

@[simp] theorem putOut_agenda (k : Nat) (r : OutRecord) (d : Part) : (putOut k r d).agenda = d.agenda := rfl

/-! ### setPhase -/

@[simp] theorem setPhase_slc (p : HeadPhase) (d : Part) : (setPhase p d).slc = d.slc := rfl

@[simp] theorem setPhase_tlf (p : HeadPhase) (d : Part) : (setPhase p d).tlf = d.tlf := rfl

@[simp] theorem setPhase_bcu (p : HeadPhase) (d : Part) : (setPhase p d).bcu = d.bcu := rfl

@[simp] theorem setPhase_sru (p : HeadPhase) (d : Part) : (setPhase p d).sru = d.sru := rfl

@[simp] theorem setPhase_sqe (p : HeadPhase) (d : Part) : (setPhase p d).sqe = d.sqe := rfl

@[simp] theorem setPhase_lkm (p : HeadPhase) (d : Part) : (setPhase p d).lkm = d.lkm := rfl

@[simp] theorem setPhase_prot (p : HeadPhase) (d : Part) : (setPhase p d).prot = d.prot := rfl

@[simp] theorem setPhase_lines (p : HeadPhase) (d : Part) : (setPhase p d).lines = d.lines := rfl

@[simp] theorem setPhase_agenda (p : HeadPhase) (d : Part) : (setPhase p d).agenda = d.agenda := rfl

/-! ### setFeatures -/

@[simp] theorem setFeatures_slc (f : Features) (d : Part) : (setFeatures f d).slc = d.slc := rfl

@[simp] theorem setFeatures_tlf (f : Features) (d : Part) : (setFeatures f d).tlf = d.tlf := rfl

@[simp] theorem setFeatures_bcu (f : Features) (d : Part) : (setFeatures f d).bcu = d.bcu := rfl

@[simp] theorem setFeatures_sru (f : Features) (d : Part) : (setFeatures f d).sru = d.sru := rfl

@[simp] theorem setFeatures_sqe (f : Features) (d : Part) : (setFeatures f d).sqe = d.sqe := rfl

@[simp] theorem setFeatures_lkm (f : Features) (d : Part) : (setFeatures f d).lkm = d.lkm := rfl

@[simp] theorem setFeatures_prot (f : Features) (d : Part) : (setFeatures f d).prot = d.prot := rfl

@[simp] theorem setFeatures_lines (f : Features) (d : Part) : (setFeatures f d).lines = d.lines := rfl

@[simp] theorem setFeatures_agenda (f : Features) (d : Part) : (setFeatures f d).agenda = d.agenda := rfl

/-! ### discardRx -/

@[simp] theorem discardRx_slc (d : Part) : (discardRx d).slc = d.slc := rfl

@[simp] theorem discardRx_tlf (d : Part) : (discardRx d).tlf = d.tlf := rfl

@[simp] theorem discardRx_bcu (d : Part) : (discardRx d).bcu = d.bcu := rfl

@[simp] theorem discardRx_sru (d : Part) : (discardRx d).sru = d.sru := rfl

@[simp] theorem discardRx_sqe (d : Part) : (discardRx d).sqe = d.sqe := rfl

@[simp] theorem discardRx_lkm (d : Part) : (discardRx d).lkm = d.lkm := rfl

@[simp] theorem discardRx_prot (d : Part) : (discardRx d).prot = d.prot := rfl

@[simp] theorem discardRx_lines (d : Part) : (discardRx d).lines = d.lines := rfl

@[simp] theorem discardRx_agenda (d : Part) : (discardRx d).agenda = d.agenda := rfl

/-! ### setAcfail -/

@[simp] theorem setAcfail_slc (v : Bool) (d : Part) : (setAcfail v d).slc = d.slc := rfl

@[simp] theorem setAcfail_tlf (v : Bool) (d : Part) : (setAcfail v d).tlf = d.tlf := rfl

@[simp] theorem setAcfail_bcu (v : Bool) (d : Part) : (setAcfail v d).bcu = d.bcu := rfl

@[simp] theorem setAcfail_sru (v : Bool) (d : Part) : (setAcfail v d).sru = d.sru := rfl

@[simp] theorem setAcfail_sqe (v : Bool) (d : Part) : (setAcfail v d).sqe = d.sqe := rfl

@[simp] theorem setAcfail_lkm (v : Bool) (d : Part) : (setAcfail v d).lkm = d.lkm := rfl

@[simp] theorem setAcfail_rlp (v : Bool) (d : Part) : (setAcfail v d).rlp = d.rlp := rfl

@[simp] theorem setAcfail_prot (v : Bool) (d : Part) : (setAcfail v d).prot = d.prot := rfl

@[simp] theorem setAcfail_agenda (v : Bool) (d : Part) : (setAcfail v d).agenda = d.agenda := rfl

/-! ### setLeakIn -/

@[simp] theorem setLeakIn_slc (v : Bool) (d : Part) : (setLeakIn v d).slc = d.slc := rfl

@[simp] theorem setLeakIn_tlf (v : Bool) (d : Part) : (setLeakIn v d).tlf = d.tlf := rfl

@[simp] theorem setLeakIn_bcu (v : Bool) (d : Part) : (setLeakIn v d).bcu = d.bcu := rfl

@[simp] theorem setLeakIn_sru (v : Bool) (d : Part) : (setLeakIn v d).sru = d.sru := rfl

@[simp] theorem setLeakIn_sqe (v : Bool) (d : Part) : (setLeakIn v d).sqe = d.sqe := rfl

@[simp] theorem setLeakIn_lkm (v : Bool) (d : Part) : (setLeakIn v d).lkm = d.lkm := rfl

@[simp] theorem setLeakIn_rlp (v : Bool) (d : Part) : (setLeakIn v d).rlp = d.rlp := rfl

@[simp] theorem setLeakIn_prot (v : Bool) (d : Part) : (setLeakIn v d).prot = d.prot := rfl

@[simp] theorem setLeakIn_agenda (v : Bool) (d : Part) : (setLeakIn v d).agenda = d.agenda := rfl

/-! ### assertReset -/

@[simp] theorem assertReset_tlf (d : Part) : (assertReset d).tlf = d.tlf := rfl

@[simp] theorem assertReset_bcu (d : Part) : (assertReset d).bcu = d.bcu := rfl

@[simp] theorem assertReset_sru (d : Part) : (assertReset d).sru = d.sru := rfl

@[simp] theorem assertReset_sqe (d : Part) : (assertReset d).sqe = d.sqe := rfl

@[simp] theorem assertReset_lkm (d : Part) : (assertReset d).lkm = d.lkm := rfl

@[simp] theorem assertReset_prot (d : Part) : (assertReset d).prot = d.prot := rfl

@[simp] theorem assertReset_agenda (d : Part) : (assertReset d).agenda = d.agenda := rfl

/-! ### refreshLines -/

@[simp] theorem refreshLines_slc (d : Part) : (refreshLines d).slc = d.slc := rfl

@[simp] theorem refreshLines_tlf (d : Part) : (refreshLines d).tlf = d.tlf := rfl

@[simp] theorem refreshLines_bcu (d : Part) : (refreshLines d).bcu = d.bcu := rfl

@[simp] theorem refreshLines_sru (d : Part) : (refreshLines d).sru = d.sru := rfl

@[simp] theorem refreshLines_sqe (d : Part) : (refreshLines d).sqe = d.sqe := rfl

@[simp] theorem refreshLines_lkm (d : Part) : (refreshLines d).lkm = d.lkm := rfl

@[simp] theorem refreshLines_rlp (d : Part) : (refreshLines d).rlp = d.rlp := rfl

@[simp] theorem refreshLines_prot (d : Part) : (refreshLines d).prot = d.prot := rfl

@[simp] theorem refreshLines_agenda (d : Part) : (refreshLines d).agenda = d.agenda := rfl

/-! ### quieten -/

@[simp] theorem quieten_slc (d : Part) : (quieten d).slc = d.slc := rfl

@[simp] theorem quieten_tlf (d : Part) : (quieten d).tlf = d.tlf := rfl

@[simp] theorem quieten_bcu (d : Part) : (quieten d).bcu = d.bcu := rfl

@[simp] theorem quieten_sru (d : Part) : (quieten d).sru = d.sru := rfl

@[simp] theorem quieten_sqe (d : Part) : (quieten d).sqe = d.sqe := rfl

@[simp] theorem quieten_lkm (d : Part) : (quieten d).lkm = d.lkm := rfl

@[simp] theorem quieten_prot (d : Part) : (quieten d).prot = d.prot := rfl

@[simp] theorem quieten_lines (d : Part) : (quieten d).lines = d.lines := rfl

/-! ### tick -/

@[simp] theorem tick_slc (d : Part) : (tick d).slc = d.slc := rfl

@[simp] theorem tick_tlf (d : Part) : (tick d).tlf = d.tlf := rfl

@[simp] theorem tick_lkm (d : Part) : (tick d).lkm = d.lkm := rfl

@[simp] theorem tick_rlp (d : Part) : (tick d).rlp = d.rlp := rfl

@[simp] theorem tick_prot (d : Part) : (tick d).prot = d.prot := rfl

@[simp] theorem tick_lines (d : Part) : (tick d).lines = d.lines := rfl

@[simp] theorem tick_agenda (d : Part) : (tick d).agenda = d.agenda := rfl

/-! ### The fields that change -/

@[simp] theorem signal_agenda (s : Signal) (d : Part) : (signal s d).agenda = d.agenda ++ [s] := rfl

@[simp] theorem putBranch_branches (b : Nat) (x : Branch) (d : Part) :
    (putBranch b x d).bcu.branches = d.bcu.branches.set b (some x) := rfl

@[simp] theorem putBranch_queue (b : Nat) (x : Branch) (d : Part) :
    (putBranch b x d).bcu.queue = d.bcu.queue := rfl

@[simp] theorem putBranch_spacing (b : Nat) (x : Branch) (d : Part) :
    (putBranch b x d).bcu.spacing = d.bcu.spacing := rfl

@[simp] theorem putBranch_headBlocked (b : Nat) (x : Branch) (d : Part) :
    (putBranch b x d).bcu.headBlocked = d.bcu.headBlocked := rfl

@[simp] theorem putZone_zones (z : Nat) (x : Zone) (d : Part) :
    (putZone z x d).lkm.zones = d.lkm.zones.set z x := rfl

@[simp] theorem putZone_points (z : Nat) (x : Zone) (d : Part) :
    (putZone z x d).lkm.points = d.lkm.points := rfl

@[simp] theorem putChannel_channels (k : Nat) (x : ChannelState) (d : Part) :
    (putChannel k x d).tlf.channels = d.tlf.channels.set k (some x) := rfl

@[simp] theorem putOut_out (k : Nat) (r : OutRecord) (d : Part) :
    (putOut k r d).slc.out = d.slc.out.set k (some r) := rfl

@[simp] theorem setPhase_phase (p : HeadPhase) (d : Part) : (setPhase p d).rlp.phase = p := rfl

@[simp] theorem setPhase_requests (p : HeadPhase) (d : Part) :
    (setPhase p d).rlp.requests = d.rlp.requests := rfl

@[simp] theorem setPhase_responses (p : HeadPhase) (d : Part) :
    (setPhase p d).rlp.responses = d.rlp.responses := rfl

@[simp] theorem setPhase_detail (p : HeadPhase) (d : Part) :
    (setPhase p d).rlp.detail = d.rlp.detail := rfl

@[simp] theorem setFeatures_features (f : Features) (d : Part) :
    (setFeatures f d).rlp.features = f := rfl

@[simp] theorem refreshLines_valveOut (d : Part) :
    (refreshLines d).lines.valveOut = valveLevel d := rfl

@[simp] theorem refreshLines_alertOut (d : Part) :
    (refreshLines d).lines.alertOut = alertLevel d := rfl

@[simp] theorem refreshLines_resetIn (d : Part) :
    (refreshLines d).lines.resetIn = d.lines.resetIn := rfl

@[simp] theorem refreshLines_acfailIn (d : Part) :
    (refreshLines d).lines.acfailIn = d.lines.acfailIn := rfl

@[simp] theorem refreshLines_leakIn (d : Part) :
    (refreshLines d).lines.leakIn = d.lines.leakIn := rfl

@[simp] theorem quieten_agenda (d : Part) : (quieten d).agenda = [] := rfl

@[simp] theorem quieten_passOutcome (d : Part) : (quieten d).rlp.passOutcome = none := rfl

@[simp] theorem quieten_requests (d : Part) : (quieten d).rlp.requests = d.rlp.requests := rfl

@[simp] theorem quieten_responses (d : Part) : (quieten d).rlp.responses = d.rlp.responses := rfl

@[simp] theorem quieten_events (d : Part) : (quieten d).rlp.events = d.rlp.events := rfl

@[simp] theorem quieten_phase (d : Part) : (quieten d).rlp.phase = d.rlp.phase := rfl

@[simp] theorem quieten_features (d : Part) : (quieten d).rlp.features = d.rlp.features := rfl

/-! ### forgetStages -/

@[simp] theorem forgetStages_tlf (n : Nat) (d : Part) : (forgetStages n d).tlf = d.tlf := rfl

@[simp] theorem forgetStages_bcu (n : Nat) (d : Part) : (forgetStages n d).bcu = d.bcu := rfl

@[simp] theorem forgetStages_sru (n : Nat) (d : Part) : (forgetStages n d).sru = d.sru := rfl

@[simp] theorem forgetStages_sqe (n : Nat) (d : Part) : (forgetStages n d).sqe = d.sqe := rfl

@[simp] theorem forgetStages_lkm (n : Nat) (d : Part) : (forgetStages n d).lkm = d.lkm := rfl

@[simp] theorem forgetStages_rlp (n : Nat) (d : Part) : (forgetStages n d).rlp = d.rlp := rfl

@[simp] theorem forgetStages_prot (n : Nat) (d : Part) : (forgetStages n d).prot = d.prot := rfl

@[simp] theorem forgetStages_lines (n : Nat) (d : Part) : (forgetStages n d).lines = d.lines := rfl

@[simp] theorem forgetStages_agenda (n : Nat) (d : Part) : (forgetStages n d).agenda = d.agenda := rfl

@[simp] theorem forgetStages_out (n : Nat) (d : Part) :
    (forgetStages n d).slc.out = d.slc.out.map (Option.map (OutRecord.forget n)) := rfl

@[simp] theorem forgetStages_active (n : Nat) (d : Part) :
    (forgetStages n d).slc.active = d.slc.active := rfl

@[simp] theorem OutRecord.forget_staged (n : Nat) (r : OutRecord) : (r.forget n).staged = r.staged := rfl

@[simp] theorem OutRecord.forget_live (n : Nat) (r : OutRecord) : (r.forget n).live = r.live := rfl

@[simp] theorem OutRecord.forget_seq (n : Nat) (r : OutRecord) : (r.forget n).seq = r.seq := rfl

@[simp] theorem OutRecord.forget_awaiting (n : Nat) (r : OutRecord) : (r.forget n).awaiting = r.awaiting := rfl

@[simp] theorem OutRecord.forget_lastWriter (n : Nat) (r : OutRecord) : (r.forget n).lastWriter = r.lastWriter := rfl

@[simp] theorem OutRecord.forget_owed (n : Nat) (r : OutRecord) : (r.forget n).owed = r.owed := rfl

end Sys2Proof.Machine
end

