-- ==== Sys2Proof/Laws/Frame.lean ====
section
/-! SUPPORT. What the hand-offs between blocks leave alone. `Frame d d'` lists what no operation of the
BCU, the SQE, the SRU and the LKM touches; `Kept d d'` adds what the BCU touches as little; `Settled d d'`
adds what the delivery of the hand-offs that a command leaves due touches as little. One lemma for each
operation. -/

namespace Sys2Proof.Machine

/-- What an operation of the inner blocks leaves alone. While a message is being sent the transmitter
and the Response Queue stand still; an event record that waits is not lost. -/
structure Frame (d d' : Part) : Prop extends TablesStand d d', LinkStands d d', RequestsStand d d' where
  outputs : d'.lines = d.lines := by rfl
  responses : d'.rlp.responses.length ≤ d.rlp.responses.length := by exact le_refl _
  events : d.rlp.events.length ≤ 64 → d'.rlp.events.length ≤ 64 := by exact id
  queue : d.tlf.queue.length ≤ 128 → d'.tlf.queue.length ≤ 128 := by exact id
  busy : ∀ m, d.rlp.tx = some m → d'.rlp.tx = some m ∧ d'.rlp.responses = d.rlp.responses := by
    exact fun _ h => ⟨h, rfl⟩
  holds : ∀ e, d.holdsEvent e → d'.holdsEvent e := by exact fun _ h => h

/-- The fields of a branch that the delivery of hand-offs does not touch. -/
def Branch.settledView (x : Branch) : BranchCfg × Holds × Bool × Option Nat × Bool :=
  (x.cfg, x.holds, x.demands.ctrl, x.reading, x.fresh)

/-- The branch stands in FAULT and in no queue. -/
def Part.faultedOut (d : Part) (b : Nat) : Prop :=
  (∃ x, d.branch b = some x ∧ x.state = .fault) ∧ b ∉ d.bcu.queue

/-- What an operation of the BCU leaves alone. -/
structure Kept (d d' : Part) : Prop extends Frame d d' where
  sru : d'.sru = d.sru := by rfl
  lkm : d'.lkm = d.lkm := by rfl
  drops : d'.tlf.drops = d.tlf.drops := by rfl

/-- What the delivery of hand-offs to the BCU, the SQE and the writers leaves alone. A branch in FAULT
stays there. -/
structure Settled (d d' : Part) : Prop extends Kept d d' where
  views : d'.bcu.branches.map (Option.map Branch.settledView) =
    d.bcu.branches.map (Option.map Branch.settledView) := by rfl
  stays : ∀ b, d.faultedOut b → d'.faultedOut b := by exact fun _ h => h

theorem Frame.refl (d : Part) : Frame d d := {}

theorem Kept.refl (d : Part) : Kept d d := {}

theorem Settled.refl (d : Part) : Settled d d := {}

theorem TablesStand.trans {a b c : Part} (h : TablesStand a b) (g : TablesStand b c) :
    TablesStand a c where
  written := g.written.trans h.written
  limits := g.limits.trans h.limits
  sruConfig := g.sruConfig.trans h.sruConfig
  cfgs := g.cfgs.trans h.cfgs
  steps := g.steps.trans h.steps
  pointCfgs := g.pointCfgs.trans h.pointCfgs
  zoneCfgs := g.zoneCfgs.trans h.zoneCfgs
  prot := g.prot.trans h.prot
  features := g.features.trans h.features

theorem LinkStands.trans {a b c : Part} (h : LinkStands a b) (g : LinkStands b c) :
    LinkStands a c where
  cycle := g.cycle.trans h.cycle
  active := g.active.trans h.active
  nodes := g.nodes.trans h.nodes
  satisfied := g.satisfied.trans h.satisfied
  sending := g.sending.trans h.sending
  checkErrors := g.checkErrors.trans h.checkErrors
  misplaced := g.misplaced.trans h.misplaced
  retries := g.retries.trans h.retries
  noAcks := g.noAcks.trans h.noAcks
  out := g.out.trans h.out
  channels := g.channels.trans h.channels

theorem RequestsStand.trans {a b c : Part} (h : RequestsStand a b) (g : RequestsStand b c) :
    RequestsStand a c where
  requests := g.requests.trans h.requests
  phase := g.phase.trans h.phase
  detail := g.detail.trans h.detail
  rxDiscards := g.rxDiscards.trans h.rxDiscards
  resetIn := g.resetIn.trans h.resetIn
  acfailIn := g.acfailIn.trans h.acfailIn
  leakIn := g.leakIn.trans h.leakIn

/-- The Power Profile stands where the SRU's tables stand. -/
theorem TablesStand.profile {d d' : Part} (h : TablesStand d d') : d'.sru.profile = d.sru.profile :=
  congrArg Prod.fst h.sruConfig

theorem Frame.trans {a b c : Part} (h : Frame a b) (g : Frame b c) : Frame a c where
  toTablesStand := h.toTablesStand.trans g.toTablesStand
  toLinkStands := h.toLinkStands.trans g.toLinkStands
  toRequestsStand := h.toRequestsStand.trans g.toRequestsStand
  outputs := g.outputs.trans h.outputs
  responses := g.responses.trans h.responses
  events := g.events ∘ h.events
  queue := g.queue ∘ h.queue
  busy := fun m hm => by
    obtain ⟨h1, h2⟩ := h.busy m hm
    obtain ⟨g1, g2⟩ := g.busy m h1
    exact ⟨g1, g2.trans h2⟩
  holds := fun e he => g.holds e (h.holds e he)

theorem Kept.trans {a b c : Part} (h : Kept a b) (g : Kept b c) : Kept a c where
  toFrame := h.toFrame.trans g.toFrame
  sru := g.sru.trans h.sru
  lkm := g.lkm.trans h.lkm
  drops := g.drops.trans h.drops

theorem Settled.trans {a b c : Part} (h : Settled a b) (g : Settled b c) : Settled a c where
  toKept := h.toKept.trans g.toKept
  views := g.views.trans h.views
  stays := fun b hb => g.stays b (h.stays b hb)

/-! ## Lists -/

/-- An entry replaced by one of the same view leaves the list of views as it was. -/
theorem map_set_same {α β : Type} (f : Option α → β) (l : List (Option α)) (i : Nat) (x y : α)
    (h : entry l i = some x) (hf : f (some y) = f (some x)) : (l.set i (some y)).map f = l.map f := by
  apply List.ext_getElem?
  intro n
  simp only [List.getElem?_map, List.getElem?_set]
  by_cases hin : i = n
  · subst hin
    unfold entry at h
    rcases hl : l[i]? with _ | e
    · simp [hl] at h
    · have hlt := (List.getElem?_eq_some_iff.mp hl).1
      simp only [hl, Option.join_some] at h
      subst h
      simp [hlt, hf]
  · simp [hin]

/-- A view of an entry is the entry of the list of views. -/
theorem entry_map {α β : Type} (f : α → β) (l : List (Option α)) (i : Nat) :
    (entry l i).map f = entry (l.map (Option.map f)) i := by
  unfold entry
  rw [List.getElem?_map]
  rcases l[i]? with _ | _ | x <;> rfl

theorem Frame.branch_cfg {d d' : Part} (h : Frame d d') (b : Nat) :
    (d'.branch b).map Branch.cfg = (d.branch b).map Branch.cfg := by
  unfold Part.branch
  rw [entry_map, entry_map, h.cfgs]

theorem Settled.branch_view {d d' : Part} (h : Settled d d') (b : Nat) :
    (d'.branch b).map Branch.settledView = (d.branch b).map Branch.settledView := by
  unfold Part.branch
  rw [entry_map, entry_map, h.views]

theorem Frame.out_core {d d' : Part} (h : Frame d d') (k : Nat) :
    (entry d'.slc.out k).map OutRecord.core = (entry d.slc.out k).map OutRecord.core := by
  rw [entry_map, entry_map, h.out]

/-- A fold over operations that keep a relation keeps it. -/
theorem foldl_rel {α : Type} {R : Part → Part → Prop} (hr : ∀ d, R d d)
    (ht : ∀ {a b c}, R a b → R b c → R a c) (f : Part → α → Part) (hf : ∀ d a, R d (f d a))
    (l : List α) (d : Part) : R d (l.foldl f d) := by
  induction l generalizing d with
  | nil => exact hr d
  | cons a l ih => exact ht (hf d a) (ih (f d a))

theorem foldl_settled {α : Type} (f : Part → α → Part) (hf : ∀ d a, Settled d (f d a))
    (l : List α) (d : Part) : Settled d (l.foldl f d) :=
  foldl_rel Settled.refl Settled.trans f hf l d

theorem foldl_kept {α : Type} (f : Part → α → Part) (hf : ∀ d a, Kept d (f d a))
    (l : List α) (d : Part) : Kept d (l.foldl f d) :=
  foldl_rel Kept.refl Kept.trans f hf l d

theorem foldl_frame {α : Type} (f : Part → α → Part) (hf : ∀ d a, Frame d (f d a))
    (l : List α) (d : Part) : Frame d (l.foldl f d) :=
  foldl_rel Frame.refl Frame.trans f hf l d

/-! ## Updates of one block -/

theorem sqe_settled (d : Part) (q : Sqe) (h : q.steps = d.sqe.steps) :
    Settled d { d with sqe := q } := { steps := h }

/-- A change of the BCU that leaves its branches, and puts no branch in FAULT into the queue. -/
theorem bcu_settled (d : Part) (u : Bcu) (h : u.branches = d.bcu.branches)
    (hq : ∀ b, d.faultedOut b → b ∉ u.queue) : Settled d { d with bcu := u } :=
  { cfgs := congrArg _ h
    views := congrArg _ h
    stays := fun b hb => by
      refine ⟨?_, hq b hb⟩
      obtain ⟨⟨x, hx, hs⟩, -⟩ := hb
      refine ⟨x, ?_, hs⟩
      simpa [Part.branch, h] using hx }

/-! ## Hand-offs and the uplink -/

theorem signal_settled (s : Signal) (d : Part) : Settled d (signal s d) := {}

theorem signalOnce_settled (s : Signal) (d : Part) : Settled d (signalOnce s d) := by
  unfold signalOnce
  split
  · exact .refl d
  · exact signal_settled s d

/-- Nothing waits where the transmitter is idle and the Event Queue is empty. -/
theorem not_holdsEvent {d : Part} (ht : d.rlp.tx = none) (he : d.rlp.events = []) (e : EventRecord) :
    ¬ d.holdsEvent e := by
  unfold Part.holdsEvent
  simp [ht, he]

theorem serveEvent_settled (e : EventRecord) (rest : List EventRecord) (d : Part)
    (ht : d.rlp.tx = none) (h : d.rlp.events = e :: rest) : Settled d (serveEvent e rest d) :=
  { events := fun hl => by simp only [h, List.length_cons] at hl; simp [serveEvent]; omega
    busy := fun m hm => by simp [ht] at hm
    holds := fun r hr => by
      unfold Part.holdsEvent at hr
      simp only [ht, h, List.mem_cons, reduceCtorEq, exists_false, false_or] at hr
      rcases hr with rfl | hr
      · exact .inl ⟨d.rlp.eventTag, rfl⟩
      · exact .inr hr }

theorem serveResponse_settled (m : Uplink) (rest : List Uplink) (n : Nat) (d : Part)
    (ht : d.rlp.tx = none) (he : d.rlp.events = []) (h : d.rlp.responses = m :: rest) :
    Settled d (serveResponse m rest n d) :=
  { responses := by simp [serveResponse, h]
    busy := fun m hm => by simp [ht] at hm
    holds := fun r hr => absurd hr (not_holdsEvent ht he r) }

theorem serveTelemetry_settled (n : Nat) (d : Part) (ht : d.rlp.tx = none)
    (he : d.rlp.events = []) : Settled d (serveTelemetry n d) :=
  { queue := fun hl => by simp [serveTelemetry]; omega
    busy := fun m hm => by simp [ht] at hm
    holds := fun r hr => absurd hr (not_holdsEvent ht he r) }

theorem arbitrate_settled (d : Part) : Settled d (arbitrate d) := by
  unfold arbitrate
  split
  · exact .refl d
  · split
    · exact serveEvent_settled _ _ d ‹_› ‹_›
    · split
      · exact .refl d
      · exact serveResponse_settled _ _ _ d ‹_› ‹_› ‹_›
      · exact serveTelemetry_settled _ d ‹_› ‹_›
      · split
        · split
          · exact serveResponse_settled _ _ _ d ‹_› ‹_› ‹_›
          · exact serveTelemetry_settled _ d ‹_› ‹_›
        · split
          · exact serveTelemetry_settled _ d ‹_› ‹_›
          · exact serveResponse_settled _ _ _ d ‹_› ‹_› ‹_›

/-- A record that is posted with room waits or is being sent. -/
theorem post_holds (k : EventKind) (s v : Option Nat) (d : Part) (h : d.rlp.events.length < 64) :
    (post k s v d).holdsEvent ⟨k, s, v, d.slc.cycle⟩ := by
  unfold post
  rw [if_pos h]
  apply (arbitrate_settled _).holds
  exact .inr (by simp)

theorem post_settled (k : EventKind) (s v : Option Nat) (d : Part) : Settled d (post k s v d) := by
  unfold post
  split
  · rename_i h
    refine Settled.trans (b := { d with
      rlp.events := d.rlp.events ++ [⟨k, s, v, d.slc.cycle⟩] }) ?_ (arbitrate_settled _)
    exact { events := fun _ => by simp; omega
            holds := fun r hr => hr.imp id fun hm => List.mem_append_left _ hm }
  · exact {}

theorem forward_frame (r : SampleRecord) (d : Part) : Frame d (forward r d) := by
  unfold forward
  split
  · refine Frame.trans (b := { d with tlf.queue := d.tlf.queue ++ [r] }) ?_
      (arbitrate_settled _).toFrame
    exact { queue := fun _ => by simp; omega }
  · refine Frame.trans (b := { d with
      tlf.queue := d.tlf.queue.drop 1 ++ [r], tlf.drops := satInc d.tlf.drops }) ?_
      (arbitrate_settled _).toFrame
    exact { queue := fun _ => by simp; omega }

/-- The outcome of a NODE PASS is noted in the one field that waits for it, or not at all. -/
theorem completePass_eq (o : Delivery) (d : Part) :
    completePass o d = d ∨ completePass o d = { d with rlp.passOutcome := some o } := by
  unfold completePass
  split
  · exact .inr rfl
  · exact .inl rfl

/-- An outcome that reaches the RLP is noted for the NODE PASS that waits for that node, or not at all. -/
theorem noteOutcome_eq (n : Nat) (o : Delivery) (d : Part) :
    noteOutcome n o d = d ∨
      (d.rlp.phase = .passing n ∧ noteOutcome n o d = { d with rlp.passOutcome := some o }) := by
  unfold noteOutcome
  split
  · rename_i h
    exact (completePass_eq o d).imp id fun e => ⟨h, e⟩
  · exact .inl rfl

/-- The outcome of a stage for another node than the one that a NODE PASS waits for is nobody's. -/
theorem noteOutcome_other {n : Nat} {o : Delivery} {d : Part} (h : d.rlp.phase ≠ .passing n) :
    noteOutcome n o d = d := if_neg h

theorem tellSuperseded_eq (w : Writer) (n : Nat) (r : OutRecord) (d : Part) :
    tellSuperseded w n r d = d ∨ (d.rlp.phase = .passing n ∧
      tellSuperseded w n r d = { d with rlp.passOutcome := some .superseded }) := by
  unfold tellSuperseded
  split
  · exact noteOutcome_eq n _ d
  · exact .inl rfl

theorem completePass_settled (o : Delivery) (d : Part) : Settled d (completePass o d) := by
  rcases completePass_eq o d with h | h <;> rw [h] <;> exact {}

theorem noteOutcome_settled (n : Nat) (o : Delivery) (d : Part) :
    Settled d (noteOutcome n o d) := by
  rcases noteOutcome_eq n o d with h | ⟨-, h⟩ <;> rw [h] <;> exact {}

theorem tellSuperseded_settled (w : Writer) (n : Nat) (r : OutRecord) (d : Part) :
    Settled d (tellSuperseded w n r d) := by
  rcases tellSuperseded_eq w n r d with h | ⟨-, h⟩ <;> rw [h] <;> exact {}

theorem tellSuperseded_slc (w : Writer) (n : Nat) (r : OutRecord) (d : Part) :
    (tellSuperseded w n r d).slc = d.slc := by
  rcases tellSuperseded_eq w n r d with h | ⟨-, h⟩ <;> rw [h]

theorem stage_settled (w : Writer) (b : Option Nat) (n : Nat) (v : Word) (d : Part) :
    Settled d (stage w b n v d).1 := by
  unfold stage
  split
  · exact .refl d
  · split
    · exact .refl d
    · rename_i k _ r hr
      refine (tellSuperseded_settled w n r d).trans ?_
      exact { out := by
                show List.map _ (List.set _ _ _) = _
                rw [tellSuperseded_slc]
                exact map_set_same _ _ _ r _ hr rfl }

/-! ## The Branch Control Unit -/

theorem putBranch_kept (b : Nat) (x y : Branch) (d : Part) (h : d.branch b = some x)
    (hc : y.cfg = x.cfg) : Kept d (putBranch b y d) :=
  { cfgs := map_set_same _ _ _ x _ h (by simp [hc]) }

theorem putBranch_branch (b : Nat) (x y : Branch) (d : Part) (h : d.branch b = some x) :
    (putBranch b y d).branch b = some y := by
  unfold Part.branch entry at *
  simp only [putBranch]
  rcases hl : d.bcu.branches[b]? with _ | e
  · simp [hl] at h
  · have := (List.getElem?_eq_some_iff.mp hl).1
    simp [this]

theorem putBranch_other (b n : Nat) (y : Branch) (d : Part) (h : n ≠ b) :
    (putBranch b y d).branch n = d.branch n := by
  unfold Part.branch entry
  simp only [putBranch]
  rw [List.getElem?_set_ne (Ne.symm h)]

theorem putBranch_settled (b : Nat) (x y : Branch) (d : Part) (h : d.branch b = some x)
    (hv : y.settledView = x.settledView) (hs : d.faultedOut b → y.state = .fault) :
    Settled d (putBranch b y d) :=
  { cfgs := map_set_same _ _ _ x _ h (by
      have := congrArg Prod.fst hv
      simpa [Branch.settledView] using this)
    views := map_set_same _ _ _ x _ h (by simp [hv])
    stays := fun n hn => by
      refine ⟨?_, hn.2⟩
      by_cases hnb : n = b
      · subst hnb
        exact ⟨y, putBranch_branch n x y d h, hs hn⟩
      · rw [putBranch_other b n y d hnb]
        exact hn.1 }

/-- A branch that stands in another state than FAULT is not one that stays in FAULT. -/
theorem not_faultedOut {d : Part} {b : Nat} {x : Branch} (h : d.branch b = some x)
    (hx : x.state ≠ .fault) : ¬ d.faultedOut b := by
  rintro ⟨⟨y, hy, hs⟩, -⟩
  rw [h] at hy
  cases hy
  exact hx hs

/-- A branch that stays in FAULT is in FAULT. -/
theorem state_of_faultedOut {d : Part} {b : Nat} {x : Branch} (h : d.branch b = some x)
    (hf : d.faultedOut b) : x.state = .fault := by
  obtain ⟨⟨y, hy, hs⟩, -⟩ := hf
  rw [h] at hy
  cases hy
  exact hs

theorem setQueue_settled (q : List Nat) (d : Part) (hq : ∀ b, d.faultedOut b → b ∉ q) :
    Settled d (setQueue q d) := by
  unfold setQueue
  split
  · exact bcu_settled d _ rfl hq
  · refine Settled.trans ?_ (signalOnce_settled _ _)
    exact bcu_settled d _ rfl hq

theorem setQueue_kept (q : List Nat) (d : Part) : Kept d (setQueue q d) := by
  have h (d : Part) (u : Bcu) (h : u.branches = d.bcu.branches) : Kept d { d with bcu := u } :=
    { cfgs := congrArg _ h }
  unfold setQueue
  split
  · exact h d _ rfl
  · exact Kept.trans (h d { d.bcu with queue := q, headBlocked := false } rfl)
      (signalOnce_settled _ _).toKept

theorem leaveQueue_settled (b : Nat) (d : Part) : Settled d (leaveQueue b d) := by
  apply setQueue_settled
  intro n hn hm
  exact hn.2 (List.mem_of_mem_filter hm)

theorem noteLoad_settled (n : Nat) (d : Part) : Settled d (noteLoad n d) := by
  unfold noteLoad
  split
  · exact signalOnce_settled _ d
  · exact .refl d

theorem noteFaulted_settled (b : Nat) (x : Branch) (d : Part) : Settled d (noteFaulted b x d) := by
  unfold noteFaulted
  split
  · split
    · apply sqe_settled
      rfl
    · exact .refl d
  · exact .refl d

theorem faultBranch_settled (c : BranchCause) (b : Nat) (d : Part) :
    Settled d (faultBranch c b d) := by
  unfold faultBranch
  split
  · exact .refl d
  · rename_i x hx
    refine Settled.trans ?_ (signalOnce_settled _ _)
    refine Settled.trans ?_ (post_settled _ _ _ _)
    refine Settled.trans ?_ (noteFaulted_settled _ _ _)
    split
    · refine Settled.trans ?_ (leaveQueue_settled _ _)
      exact putBranch_settled b x _ d hx rfl fun _ => rfl
    · refine Settled.trans ?_ (stage_settled _ _ _ _ _)
      refine Settled.trans ?_ (leaveQueue_settled _ _)
      exact putBranch_settled b x _ d hx rfl fun _ => rfl

theorem stageBranch_settled (b : Nat) (v : Word) (d : Part) : Settled d (stageBranch b v d) := by
  unfold stageBranch
  split
  · exact .refl d
  · rename_i x hx
    have h := stage_settled .bcu (some b) x.cfg.node v d
    split
    · rename_i d' e
      rw [e] at h
      split
      · exact h
      · exact h.trans (faultBranch_settled _ _ _)
    · rename_i d' e
      rw [e] at h
      exact h

theorem stopBranch_settled (b : Nat) (d : Part) (h : ¬ d.faultedOut b) :
    Settled d (stopBranch b d) := by
  unfold stopBranch
  split
  · exact .refl d
  · rename_i x hx
    refine Settled.trans ?_ (stageBranch_settled _ _ _)
    refine Settled.trans ?_ (signalOnce_settled _ _)
    refine Settled.trans ?_ (noteLoad_settled _ _)
    exact putBranch_settled b x _ d hx rfl fun hf => absurd hf h

theorem enqueueBack_settled (b : Nat) (d : Part) (h : ¬ d.faultedOut b) :
    Settled d (enqueueBack b d) := by
  unfold enqueueBack
  split
  · exact .refl d
  · rename_i x hx
    have h1 : Settled d (putBranch b { x with state := .queued } d) :=
      putBranch_settled b x _ d hx rfl fun hf => absurd hf h
    refine Settled.trans ?_ (signalOnce_settled _ _)
    refine h1.trans (setQueue_settled _ _ fun n hn hm => ?_)
    rcases List.mem_append.mp hm with hm | hm
    · exact hn.2 hm
    · cases List.mem_singleton.mp hm
      have := state_of_faultedOut (putBranch_branch b x { x with state := .queued } d hx) hn
      cases this

theorem queueIfWanted_settled (b : Nat) (d : Part) : Settled d (queueIfWanted b d) := by
  unfold queueIfWanted
  split
  · exact .refl d
  · rename_i x hx
    split
    · rename_i hc
      apply enqueueBack_settled
      apply not_faultedOut hx
      rw [hc.1]
      exact nofun
    · exact .refl d

theorem signalOnce_bcu (s : Signal) (d : Part) : (signalOnce s d).bcu = d.bcu := by
  unfold signalOnce
  split <;> rfl

theorem setQueue_branches (q : List Nat) (d : Part) :
    (setQueue q d).bcu.branches = d.bcu.branches := by
  unfold setQueue
  split
  · rfl
  · rw [signalOnce_bcu]

/-- Once the branch stands as `y`, the output rule only changes states, timers, the queue and what is
staged (R54, R55). -/
theorem applyOutput_after (b : Nat) (x y : Branch) (d : Part) (h : d.branch b = some x)
    (hxy : x ≠ y) : Settled (putBranch b y d) (applyOutput b x y d) := by
  have hb : (putBranch b y d).branch b = some y := putBranch_branch b x y d h
  have hs := signalOnce_settled .branches (putBranch b y d)
  have hb' : (signalOnce .branches (putBranch b y d)).branch b = some y := by
    unfold Part.branch
    rw [signalOnce_bcu]
    exact hb
  unfold applyOutput
  rw [if_neg hxy]
  generalize signalOnce .branches (putBranch b y d) = d1 at hs hb'
  refine hs.trans ?_
  simp only
  split
  · split
    · rename_i hst
      refine Settled.trans ?_ (leaveQueue_settled _ _)
      refine putBranch_settled b y _ _ hb' rfl fun hf => ?_
      rw [state_of_faultedOut hb' hf] at hst
      cases hst
    · rename_i hst
      apply stopBranch_settled
      apply not_faultedOut hb'
      rw [hst]
      exact nofun
    · rename_i hst
      apply stopBranch_settled
      apply not_faultedOut hb'
      rw [hst]
      exact nofun
    · exact .refl _
  · exact queueIfWanted_settled _ _

theorem applyOutput_kept (b : Nat) (x y : Branch) (d : Part) (h : d.branch b = some x)
    (hc : y.cfg = x.cfg) : Kept d (applyOutput b x y d) := by
  by_cases hxy : x = y
  · unfold applyOutput
    rw [if_pos hxy]
    exact .refl d
  · exact (putBranch_kept b x y d h hc).trans (applyOutput_after b x y d h hxy).toKept

theorem applyOutput_settled (b : Nat) (x y : Branch) (d : Part) (h : d.branch b = some x)
    (hv : y.settledView = x.settledView) (hs : y.state = x.state) :
    Settled d (applyOutput b x y d) := by
  by_cases hxy : x = y
  · unfold applyOutput
    rw [if_pos hxy]
    exact .refl d
  · refine (putBranch_settled b x y d h hv fun hf => ?_).trans (applyOutput_after b x y d h hxy)
    rw [hs, state_of_faultedOut h hf]

theorem changeBranch_kept (b : Nat) (f : Branch → Branch) (hf : ∀ x, (f x).cfg = x.cfg) (d : Part) :
    Kept d (changeBranch b f d) := by
  unfold changeBranch
  split
  · exact .refl d
  · exact applyOutput_kept _ _ _ _ ‹_› (hf _)

theorem changeBranch_settled (b : Nat) (f : Branch → Branch)
    (hf : ∀ x, (f x).settledView = x.settledView) (hs : ∀ x, (f x).state = x.state) (d : Part) :
    Settled d (changeBranch b f d) := by
  unfold changeBranch
  split
  · exact .refl d
  · exact applyOutput_settled _ _ _ _ ‹_› (hf _) (hs _)

theorem forBranches_kept (f : Nat → Part → Part) (hf : ∀ b d, Kept d (f b d)) (d : Part) :
    Kept d (forBranches f d) := foldl_kept _ (fun d b => hf b d) _ d

theorem forBranches_settled (f : Nat → Part → Part) (hf : ∀ b d, Settled d (f b d)) (d : Part) :
    Settled d (forBranches f d) := foldl_settled _ (fun d b => hf b d) _ d

theorem deriveLeak_kept (z : Nat) (d : Part) : Kept d (deriveLeak z d) :=
  forBranches_kept _ (fun b d => by
    apply changeBranch_kept
    intro x
    split <;> rfl) d

theorem clearZoneBranches_kept (z : Nat) (d : Part) : Kept d (clearZoneBranches z d) :=
  forBranches_kept _ (fun b d => by
    apply changeBranch_kept
    intro x
    split <;> rfl) d

theorem deriveShed_kept (d : Part) : Kept d (deriveShed d) :=
  forBranches_kept _ (fun b d => by
    apply changeBranch_kept
    intro _
    rfl) d

theorem releaseShed_kept (d : Part) : Kept d (releaseShed d) := by
  unfold releaseShed
  refine Kept.trans ?_ (setQueue_kept _ _)
  refine forBranches_kept _ (fun b d => ?_) d
  split
  · rename_i x hx
    simp only
    split
    · exact .refl d
    · refine Kept.trans ?_ (signalOnce_settled _ _).toKept
      refine putBranch_kept b x _ d hx ?_
      split <;> rfl
  · exact .refl d

theorem adopt_kept (b : Nat) (x : Branch) (c : Int) (d : Part) (h : d.branch b = some x) :
    Kept d (adopt b x c d) := by
  unfold adopt
  split
  · refine Kept.trans ?_ (queueIfWanted_settled _ _).toKept
    refine Kept.trans ?_ (stageBranch_settled _ _ _).toKept
    refine Kept.trans ?_ (signalOnce_settled _ _).toKept
    exact putBranch_kept b x _ d h rfl
  · split
    · exact (faultBranch_settled _ _ _).toKept
    · have h1 : Kept d (signalOnce .branches (putBranch b
          { x with state := .on, demands := { x.demands with seq := true } } d)) := by
        refine Kept.trans ?_ (signalOnce_settled _ _).toKept
        exact putBranch_kept b x _ d h rfl
      simp only
      split
      · refine h1.trans (stopBranch_settled _ _ ?_).toKept
        apply not_faultedOut
          (x := { x with state := .on, demands := { x.demands with seq := true } })
        · unfold Part.branch
          rw [signalOnce_bcu]
          exact putBranch_branch b x _ d h
        · exact nofun
      · exact h1.trans (stageBranch_settled _ _ _).toKept

theorem switchReading_kept (b : Nat) (c : Int) (d : Part) : Kept d (switchReading b c d) := by
  unfold switchReading
  split
  · exact .refl d
  · rename_i x hx
    have hfault : ∀ k, Kept d (faultBranch k b d) := fun k => (faultBranch_settled _ _ _).toKept
    split
    · exact adopt_kept b x c d hx
    · split
      · exact .refl d
      · exact hfault _
    · split
      · exact .refl d
      · exact hfault _
    · split
      · exact hfault _
      · split
        · refine Kept.trans ?_ (signalOnce_settled _ _).toKept
          exact putBranch_kept b x _ d hx rfl
        · exact .refl d
    · split
      · exact hfault _
      · split
        · exact hfault _
        · exact .refl d
    · split
      · exact hfault _
      · split
        · refine Kept.trans ?_ (queueIfWanted_settled _ _).toKept
          refine Kept.trans ?_ (signalOnce_settled _ _).toKept
          exact putBranch_kept b x _ d hx rfl
        · exact .refl d
    · exact .refl d

theorem setFreshness_kept (n : Nat) (v : Bool) (d : Part) : Kept d (setFreshness n v d) := by
  unfold setFreshness
  split
  · exact .refl d
  · split
    · exact .refl d
    · rename_i hx
      exact putBranch_kept _ _ _ d hx rfl

theorem powerReading_kept (n : Nat) (v : Int) (c : ChanClass) (d : Part) :
    Kept d (powerReading n v c d) := by
  unfold powerReading
  split
  · exact .refl d
  · split
    · exact .refl d
    · rename_i hx
      exact putBranch_kept _ _ _ d hx rfl

theorem tripNode_kept (n : Nat) (d : Part) : Kept d (tripNode n d) :=
  forBranches_kept _ (fun b d => by
    apply changeBranch_kept
    intro x
    split <;> rfl) d

theorem outcomeToBcu_settled (b : Option Nat) (n : Nat) (o : Delivery) (d : Part) :
    Settled d (outcomeToBcu b n o d) := by
  unfold outcomeToBcu
  split
  · split
    · split
      · exact faultBranch_settled _ _ _
      · exact .refl d
    · exact .refl d
  · exact .refl d

theorem admit_settled (b : Nat) (x : Branch) (d : Part) (h : d.branch b = some x)
    (hb : b ∈ d.bcu.queue) : Settled d (admitHead b x d) := by
  have h1 : Settled d (leaveQueue b (putBranch b { x with
      state := .admitting, timer := .running d.sru.profile.admitTimeoutMs } d)) := by
    refine Settled.trans ?_ (leaveQueue_settled _ _)
    exact putBranch_settled b x _ d h rfl fun hf => absurd hb hf.2
  unfold admitHead
  generalize leaveQueue b (putBranch b { x with
      state := .admitting, timer := .running d.sru.profile.admitTimeoutMs } d) = d1 at h1
  refine Settled.trans ?_ (stageBranch_settled _ _ _)
  refine Settled.trans ?_ (signalOnce_settled _ _)
  exact h1.trans (bcu_settled d1 _ rfl fun _ hn => hn.2)

theorem attempt_settled (d : Part) : Settled d (attempt d) := by
  unfold attempt
  split
  · exact .refl d
  · rename_i b rest hq
    split
    · split
      · exact .refl d
      · rename_i hx
        split
        · exact admit_settled _ _ d hx (by simp [hq])
        · exact bcu_settled d _ rfl fun _ hn => hn.2
    · exact .refl d

theorem branchExpiry_settled (s : BranchState) (c : BranchCause) (b : Nat) (d : Part) :
    Settled d (branchExpiry s c b d) := by
  unfold branchExpiry
  split
  · exact .refl d
  · split
    · split
      · exact faultBranch_settled _ _ _
      · exact .refl d
    · exact .refl d

theorem branchClear_kept (b : Nat) (d : Part) : Kept d (branchClear b d) := by
  unfold branchClear
  split
  · exact .refl d
  · rename_i x hx
    split
    · refine Kept.trans ?_ (queueIfWanted_settled _ _).toKept
      refine Kept.trans ?_ (signalOnce_settled _ _).toKept
      refine Kept.trans ?_ (noteLoad_settled _ _).toKept
      exact putBranch_kept b x _ d hx rfl
    · apply changeBranch_kept
      intro _
      rfl

/-! ## The Sequence Engine -/

theorem postStep_settled (k : EventKind) (v : Option Nat) (d : Part) :
    Settled d (postStep k v d) := post_settled _ _ _ d

theorem haltRun_settled (c : StepCause) (d : Part) : Settled d (haltRun c d) := by
  unfold haltRun
  refine Settled.trans ?_ (postStep_settled _ _ _)
  apply sqe_settled
  rfl

theorem doneRun_settled (d : Part) : Settled d (doneRun d) := by
  unfold doneRun
  refine Settled.trans ?_ (postStep_settled _ _ _)
  apply sqe_settled
  rfl

theorem advance_settled (d : Part) : Settled d (advance d) := by
  unfold advance
  split
  · refine Settled.trans ?_ (doneRun_settled _)
    apply sqe_settled
    rfl
  · apply sqe_settled
    rfl

theorem completeStep_settled (v : Nat) (d : Part) : Settled d (completeStep v d) :=
  (postStep_settled _ _ d).trans (advance_settled _)

theorem failStep_settled (c : StepCause) (p : Policy) (t : Nat) (d : Part) :
    Settled d (failStep c p t d) := by
  unfold failStep
  simp only
  split
  · exact (postStep_settled _ _ d).trans (haltRun_settled _ _)
  · exact (postStep_settled _ _ d).trans (advance_settled _)

theorem enrol_settled (b : Nat) (d : Part) : Settled d (enrol b d) := by
  unfold enrol
  refine Settled.trans (sqe_settled d { d.sqe with enrolled := d.sqe.enrolled + 1 } rfl) ?_
  apply changeBranch_settled <;> intro _ <;> rfl

theorem sortMember_settled (g b : Nat) (d : Part) : Settled d (sortMember g b d) := by
  unfold sortMember
  split
  · exact .refl d
  · split
    · exact .refl d
    · split
      · exact enrol_settled b d
      · apply sqe_settled
        rfl
      · apply sqe_settled
        rfl
      · split
        · apply sqe_settled
          rfl
        · exact enrol_settled b d
      · apply sqe_settled
        rfl

theorem examineEnable_settled (e : SeqStep) (d : Part) : Settled d (examineEnable e d) := by
  unfold examineEnable
  split
  · exact .refl d
  · split
    · exact failStep_settled _ _ _ d
    · exact completeStep_settled _ d

theorem examineWait_settled (e : SeqStep) (d : Part) : Settled d (examineWait e d) := by
  unfold examineWait
  simp only
  split
  · exact failStep_settled _ _ _ d
  · split
    · exact completeStep_settled _ d
    · exact .refl d

theorem disableGroup_settled (g : Nat) (d : Part) : Settled d (disableGroup g d) :=
  forBranches_settled _ (fun b d => by
    apply changeBranch_settled <;> intro x <;> (split <;> rfl)) d

theorem beginStep_settled (d : Part) : Settled d (beginStep d) := by
  have h1 : Settled d { d with sqe.phase := .active } := sqe_settled d _ rfl
  unfold beginStep
  split
  · refine Settled.trans ?_ (haltRun_settled _ _)
    exact h1.trans (postStep_settled _ _ _)
  · rename_i e _
    simp only
    split
    · exact h1.trans (doneRun_settled _)
    · exact h1.trans ((postStep_settled _ _ _).trans (advance_settled _))
    · split
      · exact h1.trans (completeStep_settled _ _)
      · apply sqe_settled
        rfl
    · exact h1.trans ((disableGroup_settled _ _).trans (completeStep_settled _ _))
    · refine Settled.trans ?_ (examineWait_settled _ _)
      apply sqe_settled
      rfl
    · refine Settled.trans ?_ (examineEnable_settled _ _)
      have h2 : Settled d { d with
          sqe.phase := .active, sqe.enrolled := 0, sqe.alreadyOn := 0, sqe.startSkipped := 0
          sqe.faulted := 0, sqe.faultedMembers := [] } := by
        apply sqe_settled
        rfl
      have h3 := h2.trans (forBranches_settled _ (sortMember_settled e.group) _)
      generalize forBranches (sortMember e.group) _ = c at h3 ⊢
      exact h3.trans (sqe_settled c { c.sqe with timer := startTimer e.timeMs } rfl)

theorem runSteps_settled (n : Nat) (d : Part) : Settled d (runSteps n d) := by
  induction n generalizing d with
  | zero => exact .refl d
  | succ n ih =>
    unfold runSteps
    split
    · exact (beginStep_settled d).trans (ih _)
    · exact .refl d

theorem examine_settled (d : Part) : Settled d (examine d) := by
  unfold examine
  split
  · split
    · split
      · exact (examineEnable_settled _ d).trans (runSteps_settled _ _)
      · exact (examineWait_settled _ d).trans (runSteps_settled _ _)
      · exact .refl d
    · exact .refl d
  · exact .refl d

theorem setCauses_settled (c : Causes) (d : Part) : Settled d (setCauses c d) := by
  unfold setCauses
  simp only
  split
  · refine Settled.trans ?_ (postStep_settled _ _ _)
    apply sqe_settled
    rfl
  · split
    · have h2 : Settled d (postStep .runResumed none
          { d with sqe.causes := c, sqe.run := .running }) := by
        refine Settled.trans ?_ (postStep_settled _ _ _)
        apply sqe_settled
        rfl
      generalize postStep .runResumed none
          { d with sqe.causes := c, sqe.run := .running } = e at h2
      have h3 : Settled d { e with sqe.timer := e.sqe.timer.thaw } :=
        h2.trans (sqe_settled e { e.sqe with timer := e.sqe.timer.thaw } rfl)
      split
      · exact h3.trans (runSteps_settled _ _)
      · exact h3.trans (examine_settled _)
    · apply sqe_settled
      rfl

theorem acCause_settled (s : SourceState) (d : Part) : Settled d (acCause s d) :=
  setCauses_settled _ d

theorem examineLeakCause_settled (d : Part) : Settled d (examineLeakCause d) :=
  setCauses_settled _ d

theorem stepExpiry_settled (d : Part) : Settled d (stepExpiry d) := by
  unfold stepExpiry
  split
  · split
    · exact (completeStep_settled _ d).trans (runSteps_settled _ _)
    · exact (failStep_settled _ _ _ d).trans (runSteps_settled _ _)
    · exact (failStep_settled _ _ _ d).trans (runSteps_settled _ _)
    · exact .refl d
  · exact .refl d

theorem startRun_settled (d : Part) : Settled d (startRun d) := by
  have h1 : Settled d (forBranches
      (fun b d => match d.branch b with
        | some x => putBranch b { x with enrolling := none } d
        | none => d) d) := by
    refine forBranches_settled _ (fun b d => ?_) d
    split
    · rename_i hx
      exact putBranch_settled b _ _ d hx rfl fun hf => (state_of_faultedOut hx hf :)
    · exact .refl d
  unfold startRun
  generalize forBranches
      (fun b d => match d.branch b with
        | some x => putBranch b { x with enrolling := none } d
        | none => d) d = e at h1
  refine h1.trans ?_
  simp only
  split
  · refine Settled.trans ?_ (postStep_settled _ _ _)
    apply sqe_settled
    rfl
  · refine Settled.trans ?_ (runSteps_settled _ _)
    apply sqe_settled
    rfl

theorem abortRun_settled (d : Part) : Settled d (abortRun d) := by
  unfold abortRun
  simp only
  refine Settled.trans (sqe_settled d { d.sqe with
    run := .idle, timer := .stopped, causes := { d.sqe.causes with request := false } } rfl) ?_
  refine forBranches_settled _ (fun b d => changeBranch_settled b _ (fun x => ?_) (fun x => ?_) d) _
  · split
    · rfl
    · split <;> rfl
  · split
    · rfl
    · split <;> rfl

theorem deliver_settled (w : Writer) (b : Option Nat) (n : Nat) (o : Delivery) (d : Part) :
    Settled d (deliver w b n o d) := by
  unfold deliver
  split
  · exact outcomeToBcu_settled _ _ _ d
  · split
    · exact post_settled _ _ _ d
    · exact .refl d
  · exact noteOutcome_settled _ _ d

theorem handle_settled (s : Signal) (d : Part) : Settled d (handle s d) := by
  cases s
  · exact attempt_settled d
  · exact examine_settled d
  · exact acCause_settled _ d
  · exact examineLeakCause_settled d
  · exact deliver_settled _ _ _ _ d

theorem settle_settled (n : Nat) (d : Part) : Settled d (settle n d) := by
  induction n generalizing d with
  | zero => exact .refl d
  | succ n ih =>
    unfold settle
    split
    · exact .refl d
    · refine Settled.trans ?_ (ih _)
      refine Settled.trans ?_ (handle_settled _ _)
      exact {}

/-- The delivery of the hand-offs that are due touches the BCU's states and queue, the run record, what
is staged, the Event Queue and the uplink; everything in `Settled` stands. -/
theorem settleAll_settled (d : Part) : Settled d (settleAll d) := settle_settled _ d

end Sys2Proof.Machine
end

