-- ==== Sys2Proof/Laws/Source.lean ====
section
/-! SUPPORT. What the operations of the Source and Ride-Through Unit leave alone: `Sourced d d'`, one lemma
for each operation. -/

namespace Sys2Proof.Machine

/-! ## Views of the branches -/

/-- A view of the branches that is a function of `settledView` stands where `settledView` stands. -/
theorem views_of {α : Type} (g : BranchCfg × Holds × Bool × Option Nat × Bool → α)
    {l l' : List (Option Branch)}
    (h : l'.map (Option.map Branch.settledView) = l.map (Option.map Branch.settledView)) :
    l'.map (Option.map (g ∘ Branch.settledView)) = l.map (Option.map (g ∘ Branch.settledView)) := by
  have := congrArg (List.map (Option.map g)) h
  simpa only [List.map_map, Option.map_comp_map, Function.comp_def, Option.map_map] using this

/-- A view of the branches that a change of each branch keeps stands after the change. -/
theorem changeBranch_views {α : Type} (g : BranchCfg × Holds × Bool × Option Nat × Bool → α)
    (b : Nat) (f : Branch → Branch) (hf : ∀ x, g (f x).settledView = g x.settledView) (d : Part) :
    (changeBranch b f d).bcu.branches.map (Option.map (g ∘ Branch.settledView)) =
      d.bcu.branches.map (Option.map (g ∘ Branch.settledView)) := by
  unfold changeBranch
  split
  · rfl
  · rename_i x hx
    by_cases hxy : x = f x
    · unfold applyOutput
      rw [if_pos hxy]
    · rw [views_of g (applyOutput_after b x (f x) d hx hxy).views]
      exact map_set_same _ _ _ x _ hx (by simp [hf])

/-- The view of the branches that a fold of operations keeps. -/
theorem forBranches_views {α : Type} (g : Branch → α) (f : Nat → Part → Part)
    (hf : ∀ b d, (f b d).bcu.branches.map (Option.map g) = d.bcu.branches.map (Option.map g))
    (d : Part) : (forBranches f d).bcu.branches.map (Option.map g) =
      d.bcu.branches.map (Option.map g) :=
  foldl_rel (R := fun d d' => d'.bcu.branches.map (Option.map g) = d.bcu.branches.map (Option.map g))
    (fun _ => rfl) (fun h k => k.trans h) _ (fun d b => hf b d) _ d

/-- What the SRU does not touch of what it can see in a branch: SHED alone is its hold. -/
def sourceFields (v : BranchCfg × Holds × Bool × Option Nat × Bool) :
    BranchCfg × Bool × Bool × Bool × Bool × Option Nat × Bool :=
  (v.1, v.2.1.leak, v.2.1.trip, v.2.1.forceOff, v.2.2.1, v.2.2.2.1, v.2.2.2.2)

/-- The fields of a branch that no operation of the SRU touches. -/
def Branch.sourceView : Branch → BranchCfg × Bool × Bool × Bool × Bool × Option Nat × Bool :=
  sourceFields ∘ Branch.settledView

/-- What an operation of the SRU leaves alone. -/
structure Sourced (d d' : Part) : Prop extends Frame d d' where
  lkm : d'.lkm = d.lkm := by rfl
  drops : d'.tlf.drops = d.tlf.drops := by rfl
  views : d'.bcu.branches.map (Option.map Branch.sourceView) =
    d.bcu.branches.map (Option.map Branch.sourceView) := by rfl

theorem Sourced.refl (d : Part) : Sourced d d := {}

theorem Sourced.trans {a b c : Part} (h : Sourced a b) (g : Sourced b c) : Sourced a c where
  toFrame := h.toFrame.trans g.toFrame
  lkm := g.lkm.trans h.lkm
  drops := g.drops.trans h.drops
  views := g.views.trans h.views

theorem Settled.toSourced {d d' : Part} (h : Settled d d') : Sourced d d' :=
  { toFrame := h.toFrame, lkm := h.lkm, drops := h.drops, views := views_of sourceFields h.views }

theorem sru_sourced (d : Part) (u : Sru) (h : u.config = d.sru.config) :
    Sourced d { d with sru := u } := { sruConfig := h }

theorem foldl_sourced {α : Type} (f : Part → α → Part) (hf : ∀ d a, Sourced d (f d a))
    (l : List α) (d : Part) : Sourced d (l.foldl f d) :=
  foldl_rel Sourced.refl Sourced.trans f hf l d

theorem deriveShed_views (d : Part) :
    (deriveShed d).bcu.branches.map (Option.map Branch.sourceView) =
      d.bcu.branches.map (Option.map Branch.sourceView) := by
  unfold deriveShed
  apply forBranches_views
  intro b e
  unfold Branch.sourceView
  apply changeBranch_views
  intro _
  rfl

theorem deriveShed_sourced (d : Part) : Sourced d (deriveShed d) :=
  have h := deriveShed_kept d
  { toFrame := h.toFrame, lkm := h.lkm, drops := h.drops, views := deriveShed_views d }

theorem releaseShed_views (d : Part) :
    (releaseShed d).bcu.branches.map (Option.map Branch.sourceView) =
      d.bcu.branches.map (Option.map Branch.sourceView) := by
  unfold releaseShed
  simp only
  rw [setQueue_branches]
  refine forBranches_views _ _ (fun b e => ?_) d
  split
  · rename_i x hx
    split
    · rfl
    · rw [signalOnce_bcu]
      refine map_set_same _ _ _ x _ hx ?_
      split <;> rfl
  · rfl

theorem releaseShed_sourced (d : Part) : Sourced d (releaseShed d) :=
  { toFrame := (releaseShed_kept d).toFrame
    lkm := (releaseShed_kept d).lkm
    drops := (releaseShed_kept d).drops
    views := releaseShed_views d }

theorem signal_sourced (s : Signal) (d : Part) : Sourced d (signal s d) :=
  (signal_settled s d).toSourced

theorem signalOnce_sourced (s : Signal) (d : Part) : Sourced d (signalOnce s d) :=
  (signalOnce_settled s d).toSourced

theorem post_sourced (k : EventKind) (s v : Option Nat) (d : Part) : Sourced d (post k s v d) :=
  (post_settled k s v d).toSourced

theorem postSru_sourced (k : EventKind) (v : Nat) (d : Part) : Sourced d (postSru k v d) :=
  post_sourced _ _ _ d

/-! ## Capacity -/

theorem examineCapacity_sourced (d : Part) : Sourced d (examineCapacity d) := by
  unfold examineCapacity
  split
  · split
    · split
      · apply sru_sourced
        rfl
      · exact .refl d
    · apply sru_sourced
      rfl
  · exact .refl d

theorem capacityRelease_sourced (d : Part) : Sourced d (capacityRelease d) := by
  have h : Sourced d (releaseShed { d with sru.capShed := 0, sru.capDeficitPosted := false }) := by
    refine Sourced.trans ?_ (releaseShed_sourced _)
    apply sru_sourced
    rfl
  unfold capacityRelease
  simp only
  split
  · exact h
  · exact h.trans (postSru_sourced _ _ _)

theorem recomputeCapacity_sourced (d : Part) : Sourced d (recomputeCapacity d) := by
  have h : Sourced d { d with sru.capacity := capacityOf d } := sru_sourced d _ rfl
  unfold recomputeCapacity
  simp only
  split
  · exact .refl d
  · refine Sourced.trans ?_ (examineCapacity_sourced _)
    refine Sourced.trans ?_ (signalOnce_sourced _ _)
    split
    · exact h.trans (capacityRelease_sourced _)
    · exact h

/-! ## The source state machine -/

theorem setSource_sourced (s : SourceState) (d : Part) : Sourced d (setSource s d) := by
  unfold setSource
  refine Sourced.trans ?_ (signal_sourced _ _)
  apply sru_sourced
  rfl

theorem beginEpisode_sourced (s : SourceState) (d : Part) : Sourced d (beginEpisode s d) := by
  unfold beginEpisode
  refine Sourced.trans ?_ (postSru_sourced _ _ _)
  refine Sourced.trans ?_ (deriveShed_sourced _)
  refine Sourced.trans ?_ (setSource_sourced _ _)
  apply sru_sourced
  rfl

theorem enterOnAc_sourced (d : Part) : Sourced d (enterOnAc d) := by
  unfold enterOnAc
  refine Sourced.trans ?_ (signal_sourced _ _)
  refine Sourced.trans ?_ (signalOnce_sourced _ _)
  refine Sourced.trans ?_ (releaseShed_sourced _)
  apply sru_sourced
  rfl

theorem qualify_sourced (d : Part) : Sourced d (qualify d) := by
  unfold qualify
  simp only
  split
  · refine Sourced.trans ?_ (postSru_sourced _ _ _)
    refine Sourced.trans ?_ (enterOnAc_sourced _)
    apply sru_sourced
    rfl
  · refine Sourced.trans ?_ (beginEpisode_sourced _ _)
    refine Sourced.trans ?_ (postSru_sourced _ _ _)
    apply sru_sourced
    rfl

theorem qualifyIfHeard_sourced (d : Part) : Sourced d (qualifyIfHeard d) := by
  unfold qualifyIfHeard
  split
  · exact qualify_sourced d
  · exact .refl d

theorem beginReturn_sourced (d : Part) : Sourced d (beginReturn d) := by
  unfold beginReturn
  refine Sourced.trans ?_ (setSource_sourced _ _)
  apply sru_sourced
  rfl

theorem examineAc_sourced (d : Part) : Sourced d (examineAc d) := by
  unfold examineAc
  split
  · exact .refl d
  · split
    · exact beginEpisode_sourced _ d
    · exact .refl d
  · split
    · exact beginReturn_sourced d
    · exact .refl d
  · split
    · exact beginReturn_sourced d
    · exact .refl d
  · split
    · exact .refl d
    · refine Sourced.trans ?_ (postSru_sourced _ _ _)
      refine Sourced.trans ?_ (setSource_sourced _ _)
      apply sru_sourced
      rfl

/-! ## Derived states -/

theorem deriveRect_sourced (i : Nat) (d : Part) : Sourced d (deriveRect i d) := by
  unfold deriveRect
  split
  · exact .refl d
  · rename_i r hr
    simp only
    split
    · exact .refl d
    · refine Sourced.trans ?_ (examineAc_sourced _)
      refine Sourced.trans ?_ (recomputeCapacity_sourced _)
      refine Sourced.trans ?_ (post_sourced _ _ _ _)
      apply sru_sourced
      exact congrArg (fun l => (d.sru.profile, l, d.sru.batts.map (Option.map Battery.node)))
        (map_set_same _ _ _ r _ hr rfl)

theorem deriveRects_sourced (d : Part) : Sourced d (deriveRects d) :=
  foldl_sourced _ (fun d i => (deriveRect_sourced i d).trans (qualifyIfHeard_sourced _)) _ d

theorem deriveBatt_sourced (i : Nat) (d : Part) : Sourced d (deriveBatt i d) := by
  unfold deriveBatt
  split
  · exact .refl d
  · rename_i b hb
    simp only
    split
    · exact .refl d
    · refine Sourced.trans ?_ (post_sourced _ _ _ _)
      apply sru_sourced
      exact congrArg (fun l => (d.sru.profile,
        d.sru.rects.map (Option.map fun r => (r.node, r.ratedW)), l))
        (map_set_same (Option.map Battery.node) _ _ b
          { b with state := battStateOf b.node d } hb rfl)

theorem deriveBatts_sourced (d : Part) : Sourced d (deriveBatts d) :=
  foldl_sourced _ (fun d i => deriveBatt_sourced i d) _ d

/-- Deriving the rectifiers and batteries afresh touches no table, no reading and no leak state. -/
theorem deriveModules_sourced (d : Part) : Sourced d (deriveModules d) :=
  (deriveRects_sourced d).trans (deriveBatts_sourced _)

/-! ## Shedding and the evaluation -/

theorem postShed_sourced (k : Nat) (l : List Nat) (d : Part) : Sourced d (postShed k l d) :=
  foldl_sourced _ (fun d _ => post_sourced _ _ _ d) _ d

theorem capacityExpiry_sourced (d : Part) : Sourced d (capacityExpiry d) := by
  have h1 : Sourced d { d with sru.capTimer := .stopped } := sru_sourced d _ rfl
  unfold capacityExpiry
  split
  · simp only
    split
    · exact h1
    · refine Sourced.trans ?_ (deriveShed_sourced _)
      generalize selectTiers _ _ _ _ _ _ = r
      obtain ⟨sel, left, met⟩ := r
      have h2 : Sourced d (postShed 1 sel { d with
          sru.capTimer := .stopped, sru.capShed := addTiers d.sru.capShed sel }) := by
        refine Sourced.trans ?_ (postShed_sourced _ _ _)
        apply sru_sourced
        rfl
      simp only
      generalize postShed 1 sel _ = e at h2 ⊢
      split
      · exact (h2.trans (sru_sourced e { e.sru with capDeficitPosted := true } rfl)).trans
          (postSru_sourced _ _ _)
      · exact h2
  · exact .refl d

theorem shedDecision_sourced (u p : Nat) (d : Part) : Sourced d (shedDecision u p d) := by
  unfold shedDecision
  split
  · simp only
    refine Sourced.trans ?_ (deriveShed_sourced _)
    generalize selectTiers _ _ _ _ _ _ = r
    obtain ⟨sel, left, met⟩ := r
    have h2 : Sourced d (postShed 0 sel { d with
        sru.battShed := addTiers d.sru.battShed sel }) := by
      refine Sourced.trans ?_ (postShed_sourced _ _ _)
      apply sru_sourced
      rfl
    simp only
    generalize postShed 0 sel _ = e at h2 ⊢
    split
    · exact (h2.trans (sru_sourced e { e.sru with deficitPosted := true } rfl)).trans
        (postSru_sourced _ _ _)
    · exact h2
  · exact .refl d

theorem warn_sourced (t : Nat) (d : Part) : Sourced d (warn t d) := by
  unfold warn
  split
  · refine Sourced.trans ?_ (postSru_sourced _ _ _)
    apply sru_sourced
    rfl
  · exact .refl d

theorem deplete_sourced (d : Part) : Sourced d (deplete d) := by
  unfold deplete
  simp only
  refine Sourced.trans ?_ (examineAc_sourced _)
  refine Sourced.trans ?_ (postSru_sourced _ _ _)
  refine Sourced.trans ?_ (deriveShed_sourced _)
  refine Sourced.trans ?_ (setSource_sourced _ _)
  apply sru_sourced
  rfl

theorem testDepletion_sourced (u : Nat) (h : Bool) (d : Part) : Sourced d (testDepletion u h d) := by
  unfold testDepletion
  split
  · split
    · exact .refl d
    · split
      · exact .refl d
      · exact deplete_sourced d
    · exact deplete_sourced d
  · exact .refl d

theorem publish_sourced (u p t n g : Nat) (h : Bool) (d : Part) :
    Sourced d (publish u p t n g h d) := by
  unfold publish
  simp only
  refine Sourced.trans ?_ (signalOnce_sourced _ _)
  split
  · refine Sourced.trans ?_ (examineCapacity_sourced _)
    apply sru_sourced
    rfl
  · apply sru_sourced
    rfl

/-- One evaluation changes the SRU's own state and the SHED holds with what follows from them. -/
theorem evaluate_sourced (d : Part) : Sourced d (evaluate d) :=
  (shedDecision_sourced _ _ d).trans
    ((warn_sourced _ _).trans ((testDepletion_sourced _ _ _).trans (publish_sourced _ _ _ _ _ _ _)))

theorem evaluationExpiry_sourced (d : Part) : Sourced d (evaluationExpiry d) := by
  unfold evaluationExpiry
  split
  · refine Sourced.trans ?_ (evaluate_sourced _)
    apply sru_sourced
    rfl
  · exact .refl d

theorem qualificationExpiry_sourced (d : Part) : Sourced d (qualificationExpiry d) := by
  unfold qualificationExpiry
  split
  · split
    · apply sru_sourced
      rfl
    · exact qualify_sourced d
  · exact .refl d

theorem stableExpiry_sourced (d : Part) : Sourced d (stableExpiry d) := by
  unfold stableExpiry
  split
  · refine Sourced.trans ?_ (postSru_sourced _ _ _)
    refine Sourced.trans ?_ (postSru_sourced _ _ _)
    exact enterOnAc_sourced d
  · exact .refl d

end Sys2Proof.Machine
end

