-- ==== Sys2Proof/Laws/Leak.lean ====
section
/-! SUPPORT. What the operations of the Leak Monitor leave alone: `Leaked d d'`, one lemma for each
operation; and what the hand-offs of the Telemetry Filter leave alone. -/

namespace Sys2Proof.Machine

/-- What the LKM does not touch of what it can see in a branch: LEAK is its hold, and a clearance takes
the demands too. -/
def leakFields (v : BranchCfg × Holds × Bool × Option Nat × Bool) :
    BranchCfg × Bool × Bool × Bool × Option Nat × Bool :=
  (v.1, v.2.1.trip, v.2.1.shed, v.2.1.forceOff, v.2.2.2.1, v.2.2.2.2)

/-- The fields of a branch that no operation of the LKM touches. -/
def Branch.leakView : Branch → BranchCfg × Bool × Bool × Bool × Option Nat × Bool :=
  leakFields ∘ Branch.settledView

/-- What an operation of the LKM leaves alone. -/
structure Leaked (d d' : Part) : Prop extends Frame d d' where
  sru : d'.sru = d.sru := by rfl
  drops : d'.tlf.drops = d.tlf.drops := by rfl
  views : d'.bcu.branches.map (Option.map Branch.leakView) =
    d.bcu.branches.map (Option.map Branch.leakView) := by rfl

theorem Leaked.refl (d : Part) : Leaked d d := {}

theorem Leaked.trans {a b c : Part} (h : Leaked a b) (g : Leaked b c) : Leaked a c where
  toFrame := h.toFrame.trans g.toFrame
  sru := g.sru.trans h.sru
  drops := g.drops.trans h.drops
  views := g.views.trans h.views

theorem Settled.toLeaked {d d' : Part} (h : Settled d d') : Leaked d d' :=
  { toFrame := h.toFrame, sru := h.sru, drops := h.drops, views := views_of leakFields h.views }

theorem lkm_leaked (d : Part) (u : Lkm) (hz : u.zones.map Zone.cfg = d.lkm.zones.map Zone.cfg)
    (hp : u.points.map (Option.map Point.cfg) = d.lkm.points.map (Option.map Point.cfg)) :
    Leaked d { d with lkm := u } := { zoneCfgs := hz, pointCfgs := hp }

theorem foldl_leaked {α : Type} (f : Part → α → Part) (hf : ∀ d a, Leaked d (f d a))
    (l : List α) (d : Part) : Leaked d (l.foldl f d) :=
  foldl_rel Leaked.refl Leaked.trans f hf l d

theorem post_leaked (k : EventKind) (s v : Option Nat) (d : Part) : Leaked d (post k s v d) :=
  (post_settled k s v d).toLeaked

theorem examineLeakCause_leaked (d : Part) : Leaked d (examineLeakCause d) :=
  (examineLeakCause_settled d).toLeaked

theorem deriveLeak_views (z : Nat) (d : Part) :
    (deriveLeak z d).bcu.branches.map (Option.map Branch.leakView) =
      d.bcu.branches.map (Option.map Branch.leakView) := by
  unfold deriveLeak
  apply forBranches_views
  intro b e
  unfold Branch.leakView
  apply changeBranch_views
  intro x
  split <;> rfl

theorem deriveLeak_leaked (z : Nat) (d : Part) : Leaked d (deriveLeak z d) :=
  have h := deriveLeak_kept z d
  { toFrame := h.toFrame, sru := h.sru, drops := h.drops, views := deriveLeak_views z d }

theorem clearZoneBranches_views (z : Nat) (d : Part) :
    (clearZoneBranches z d).bcu.branches.map (Option.map Branch.leakView) =
      d.bcu.branches.map (Option.map Branch.leakView) := by
  unfold clearZoneBranches
  apply forBranches_views
  intro b e
  unfold Branch.leakView
  apply changeBranch_views
  intro x
  split <;> rfl

theorem clearZoneBranches_leaked (z : Nat) (d : Part) : Leaked d (clearZoneBranches z d) :=
  have h := clearZoneBranches_kept z d
  { toFrame := h.toFrame, sru := h.sru, drops := h.drops, views := clearZoneBranches_views z d }

/-! ## Zones -/

/-- A zone stored with the entry it has leaves the entries of the Leak Zone Table. -/
theorem putZone_leaked (z : Nat) (x : Zone) (d : Part) (h : x.cfg = (d.zone z).cfg) :
    Leaked d (putZone z x d) := by
  refine lkm_leaked d _ ?_ rfl
  apply List.ext_getElem?
  intro n
  simp only [List.getElem?_map, List.getElem?_set]
  by_cases hn : z = n
  · subst hn
    by_cases hz : z < d.lkm.zones.length
    · simp [hz, h, Part.zone]
    · simp [hz]
  · simp [hn]

theorem handLatch_leaked (f : Part → Part) (hf : ∀ d, Leaked d (f d)) (d : Part) :
    Leaked d (handLatch f d) := by
  have h1 : Leaked d { d with lkm.handOffs := d.lkm.handOffs + 1 } := lkm_leaked d _ rfl rfl
  unfold handLatch
  split
  · simp only
    split
    · exact (h1.trans (hf _)).trans (signal_settled _ _).toLeaked
    · exact (h1.trans (examineLeakCause_leaked _)).trans (hf _)
  · exact (examineLeakCause_leaked d).trans (hf _)

theorem confirmZone_leaked (z : Nat) (c : ZoneCfg) (k n : Nat) (d : Part) :
    Leaked d (confirmZone z c k n d) := by
  unfold confirmZone
  simp only
  refine Leaked.trans ?_ (handLatch_leaked _ (deriveLeak_leaked z) _)
  have h : ∀ x : Zone, x.cfg = (d.zone z).cfg → ∀ v,
      Leaked d (post .leakConfirmed (some z) v (putZone z x d)) := fun x hx v =>
    (putZone_leaked z x d hx).trans (post_leaked _ _ _ _)
  split
  · exact (h _ (by rfl) _).trans (post_leaked _ _ _ _)
  · exact h _ (by rfl) _

theorem noteDegraded_leaked (z : Nat) (d : Part) : Leaked d (noteDegraded z d) := by
  unfold noteDegraded
  simp only
  split
  · exact .refl d
  · refine Leaked.trans ?_ (post_leaked _ _ _ _)
    apply putZone_leaked
    rfl

theorem noteDegraded_zone_cfg (z : Nat) (d : Part) :
    ((noteDegraded z d).zone z).cfg = (d.zone z).cfg := by
  have h := congrArg (fun l => l[z]?) (noteDegraded_leaked z d).zoneCfgs
  simp only [List.getElem?_map] at h
  unfold Part.zone
  rcases h1 : (noteDegraded z d).lkm.zones[z]? with _ | x <;>
    rcases h2 : d.lkm.zones[z]? with _ | y <;> simp_all

theorem examineZone_leaked (z : Nat) (d : Part) : Leaked d (examineZone z d) := by
  have h1 := noteDegraded_leaked z d
  unfold examineZone
  split
  · exact .refl d
  · simp only
    split
    · split
      · exact h1.trans (confirmZone_leaked _ _ _ _ _)
      · split
        · refine h1.trans (Leaked.trans ?_ (post_leaked _ _ _ _))
          apply putZone_leaked
          rfl
        · exact h1
    · split
      · exact h1.trans (confirmZone_leaked _ _ _ _ _)
      · split
        · refine h1.trans (Leaked.trans ?_ (examineLeakCause_leaked _))
          apply putZone_leaked
          rfl
        · exact h1
    · exact h1

/-! ## Points -/

theorem setPoint_leaked (i : Nat) (p : Point) (s : PointState) (n : Nat) (c : PointCause) (d : Part)
    (h : entry d.lkm.points i = some p) : Leaked d (setPoint i p s n c d) := by
  have h1 : Leaked d { d with
      lkm.points := d.lkm.points.set i (some { p with state := s, count := n }) } := by
    apply lkm_leaked
    · rfl
    · exact map_set_same _ _ _ p _ h rfl
  unfold setPoint
  simp only
  split
  · exact h1
  · split
    · exact h1.trans ((post_leaked _ _ _ _).trans (examineZone_leaked _ _))
    · exact h1.trans (examineZone_leaked _ _)

theorem forPoints_leaked (node slot : Nat) (f : Nat → Point → Part → Part)
    (hf : ∀ i p d, entry d.lkm.points i = some p → Leaked d (f i p d)) (d : Part) :
    Leaked d (forPoints node slot f d) := by
  unfold forPoints
  apply foldl_leaked
  intro d i
  split
  · rename_i p hp
    split
    · exact hf i p d hp
    · exact .refl d
  · exact .refl d

theorem levelSample_leaked (node slot : Nat) (x : Sample) (d : Part) :
    Leaked d (levelSample node slot x d) :=
  forPoints_leaked node slot _ (fun i p d h => setPoint_leaked i p _ _ _ d h) d

theorem pointsStale_leaked (node slot : Nat) (d : Part) : Leaked d (pointsStale node slot d) :=
  forPoints_leaked node slot _ (fun i p d h => setPoint_leaked i p _ _ _ d h) d

theorem pointsUnseen_leaked (node slot : Nat) (d : Part) : Leaked d (pointsUnseen node slot d) :=
  forPoints_leaked node slot _ (fun i p d h => setPoint_leaked i p _ _ _ d h) d

/-! ## The line and the requests -/

theorem examineLine_leaked (d : Part) : Leaked d (examineLine d) := by
  unfold examineLine
  split
  · split
    · exact confirmZone_leaked _ _ _ _ d
    · exact confirmZone_leaked _ _ _ _ d
    · exact .refl d
  · exact .refl d

theorem leakAck_leaked (z : Nat) (d : Part) : Leaked d (leakAck z d).1 := by
  unfold leakAck
  split
  · split
    · exact .refl d
    · refine Leaked.trans ?_ (examineLeakCause_leaked _)
      apply putZone_leaked
      rfl
  · exact .refl d

/-- A clearance touches the latch, the LEAK holds and the demands of the zone's branches, and what
follows from them. -/
theorem leakClear_leaked (z : Nat) (d : Part) : Leaked d (leakClear z d).1 := by
  unfold leakClear
  split
  · exact .refl d
  · exact .refl d
  · exact .refl d
  · split
    · exact .refl d
    · simp only
      refine Leaked.trans ?_ (examineZone_leaked _ _)
      refine Leaked.trans ?_ (handLatch_leaked _ (clearZoneBranches_leaked z) _)
      refine Leaked.trans ?_ (post_leaked _ _ _ _)
      apply putZone_leaked
      rfl

/-! ## Hand-offs of the Telemetry Filter -/

theorem postClass_settled (k n : Nat) (o c : ChanClass) (d : Part) :
    Settled d (postClass k n o c d) := by
  unfold postClass
  split
  · exact post_settled _ _ _ d
  · exact .refl d

theorem standbyNode_kept (n : Nat) (d : Part) : Kept d (standbyNode n d) := by
  unfold standbyNode
  split
  · exact tripNode_kept n d
  · have h := (stage_settled .tlf none n ctlStandby d).toKept
    split
    · rename_i e
      rw [e] at h
      exact h.trans (post_settled _ _ _ _).toKept
    · rename_i e
      rw [e] at h
      exact h

theorem takeTrip_kept (a : TripAction) (n : Nat) (d : Part) : Kept d (takeTrip a n d) := by
  cases a
  · exact .refl d
  · exact tripNode_kept n d
  · exact standbyNode_kept n d

theorem handClass_frame (k n : Nat) (kind : ChannelKind) (c : ChanClass) (d : Part) :
    Frame d (handClass k n kind c d) := by
  unfold handClass
  split
  · exact .refl d
  · exact .refl d
  · exact (setFreshness_kept _ _ d).toFrame
  · split
    · exact (pointsStale_leaked _ _ d).toFrame
    · exact (pointsUnseen_leaked _ _ d).toFrame
    · exact .refl d
  · exact (deriveModules_sourced d).toFrame

end Sys2Proof.Machine
end

