-- ==== Sys2Proof/Laws/Links.lean ====
section
/-! SUPPORT. What the events of the shelf link and the effects of requests leave alone: `Base d d'` lists what
only the Rack Link Port, a reset or a line change touches; `Outer d d'` adds the tables that only a
write touches. One lemma for each operation. -/

namespace Sys2Proof.Machine

/-- What no event of the shelf link, no expiry and no table write touches. -/
structure Base (d d' : Part) : Prop extends RequestsStand d d' where
  prot : d'.prot = d.prot := by rfl
  features : d'.rlp.features = d.rlp.features := by rfl
  outputs : d'.lines = d.lines := by rfl
  responses : d'.rlp.responses.length ≤ d.rlp.responses.length := by exact le_refl _
  events : d.rlp.events.length ≤ 64 → d'.rlp.events.length ≤ 64 := by exact id
  queue : d.tlf.queue.length ≤ 128 → d'.tlf.queue.length ≤ 128 := by exact id
  busy : ∀ m, d.rlp.tx = some m → d'.rlp.tx = some m ∧ d'.rlp.responses = d.rlp.responses := by
    exact fun _ h => ⟨h, rfl⟩
  holds : ∀ e, d.holdsEvent e → d'.holdsEvent e := by exact fun _ h => h

/-- What no event of the shelf link and no expiry touches. -/
structure Outer (d d' : Part) : Prop extends Base d d', TablesStand d d'

theorem Base.refl (d : Part) : Base d d := {}

theorem Outer.refl (d : Part) : Outer d d := {}

theorem Base.trans {a b c : Part} (h : Base a b) (g : Base b c) : Base a c where
  toRequestsStand := h.toRequestsStand.trans g.toRequestsStand
  prot := g.prot.trans h.prot
  features := g.features.trans h.features
  outputs := g.outputs.trans h.outputs
  responses := g.responses.trans h.responses
  events := g.events ∘ h.events
  queue := g.queue ∘ h.queue
  busy := fun m hm => by
    obtain ⟨h1, h2⟩ := h.busy m hm
    obtain ⟨g1, g2⟩ := g.busy m h1
    exact ⟨g1, g2.trans h2⟩
  holds := fun e he => g.holds e (h.holds e he)

theorem Frame.toBase {d d' : Part} (h : Frame d d') : Base d d' :=
  { toRequestsStand := h.toRequestsStand, prot := h.prot, features := h.features
    outputs := h.outputs, responses := h.responses, events := h.events, queue := h.queue
    busy := h.busy, holds := h.holds }

theorem Outer.of {d d' : Part} (h : Base d d') (g : TablesStand d d') : Outer d d' :=
  { toBase := h, written := g.written, limits := g.limits, sruConfig := g.sruConfig
    cfgs := g.cfgs, steps := g.steps, pointCfgs := g.pointCfgs, zoneCfgs := g.zoneCfgs }

theorem Outer.trans {a b c : Part} (h : Outer a b) (g : Outer b c) : Outer a c :=
  .of (h.toBase.trans g.toBase) (h.toTablesStand.trans g.toTablesStand)

theorem Frame.toOuter {d d' : Part} (h : Frame d d') : Outer d d' := .of h.toBase h.toTablesStand

theorem foldl_outer {α : Type} (f : Part → α → Part) (hf : ∀ d a, Outer d (f d a))
    (l : List α) (d : Part) : Outer d (l.foldl f d) :=
  foldl_rel Outer.refl Outer.trans f hf l d

theorem foldl_base {α : Type} (f : Part → α → Part) (hf : ∀ d a, Base d (f d a))
    (l : List α) (d : Part) : Base d (l.foldl f d) :=
  foldl_rel Base.refl Base.trans f hf l d

theorem forSlots_outer (f : Nat → Part → Part) (hf : ∀ k d, Outer d (f k d)) (d : Part) :
    Outer d (forSlots f d) := foldl_outer _ (fun d k => hf k d) _ d

theorem forSlots_base (f : Nat → Part → Part) (hf : ∀ k d, Base d (f k d)) (d : Part) :
    Base d (forSlots f d) := foldl_base _ (fun d k => hf k d) _ d

/-! ## The Telemetry Filter -/

theorem putChannel_outer (k : Nat) (x : ChannelState) (d : Part) : Outer d (putChannel k x d) := {}

theorem handClass_outer (k n : Nat) (kind : ChannelKind) (c : ChanClass) (d : Part) :
    Outer d (handClass k n kind c d) := (handClass_frame k n kind c d).toOuter

theorem handSample_outer (k n : Nat) (kind : ChannelKind) (c : ChanClass) (changed : Bool) (d : Part) :
    Outer d (handSample k n kind c changed d) := by
  unfold handSample
  split
  · exact handClass_outer k n kind c d
  · exact .refl d

theorem postClass_outer (k n : Nat) (o c : ChanClass) (d : Part) : Outer d (postClass k n o c d) :=
  (postClass_settled k n o c d).toFrame.toOuter

theorem restartChannel_outer (k n : Nat) (kind : ChannelKind) (d : Part) :
    Outer d (restartChannel k n kind d) :=
  (putChannel_outer k .begin d).trans (handClass_outer _ _ _ _ _)

theorem goodSample_outer (k n : Nat) (kind : ChannelKind) (l : Option Nat) (v : Int) (d : Part) :
    Outer d (goodSample k n kind l v d) := by
  unfold goodSample
  split
  · exact .refl d
  · rename_i x _
    simp only
    refine Outer.trans ?_ (handSample_outer _ _ _ _ _ _)
    generalize classify _ x v = r
    obtain ⟨y, changed⟩ := r
    simp only
    have h2 : ∀ (z : ChannelState) (w : SampleRecord) (fwd : Bool),
        Outer d (if fwd = true then forward w (putChannel k z d) else putChannel k z d) := by
      intro z w fwd
      split
      · exact (putChannel_outer k z d).trans (forward_frame _ _).toOuter
      · exact putChannel_outer k z d
    have h3 : ∀ (e : Part), Outer d e →
        Outer d (if changed = true then postClass k n x.cls y.cls e else e) := by
      intro e he
      split
      · exact he.trans (postClass_outer _ _ _ _ _)
      · exact he
    have h4 : ∀ (e : Part) (a : TripAction) (c : Bool), Outer d e →
        Outer d (if c = true then takeTrip a n e else e) := by
      intro e a c he
      split
      · exact he.trans (takeTrip_kept a n e).toFrame.toOuter
      · exact he
    apply h4
    apply h3
    apply h2

theorem channelSample_outer (k n : Nat) (kind : ChannelKind) (l : Option Nat) (x : Sample) (d : Part) :
    Outer d (channelSample k n kind l x d) := by
  unfold channelSample
  split
  · exact goodSample_outer _ _ _ _ _ d
  · exact .refl d
  · exact .refl d

theorem missNotice_outer (k n : Nat) (kind : ChannelKind) (l : Option Nat) (d : Part) :
    Outer d (missNotice k n kind l d) := by
  unfold missNotice
  split
  · exact .refl d
  · simp only
    split
    · refine Outer.trans ?_ (handClass_outer _ _ _ _ _)
      refine Outer.trans ?_ (postClass_outer _ _ _ _ _)
      exact putChannel_outer _ _ d
    · exact putChannel_outer _ _ d

theorem limitChanged_outer (o l : Option LimitEntry) (k n : Nat) (kind : ChannelKind) (d : Part) :
    Outer d (limitChanged o l k n kind d) := by
  unfold limitChanged
  split
  · split
    · exact putChannel_outer _ _ d
    · exact .refl d
  · exact restartChannel_outer k n kind d

/-! ## The Shelf Link Controller -/

theorem tick_outer (d : Part) : Outer d (tick d) :=
  { cfgs := by
      show List.map _ (List.map _ _) = _
      rw [List.map_map]
      apply List.map_congr_left
      intro e _
      cases e <;> rfl }

theorem endChannel_frame (k : Nat) (e : Option SlotEntry) (d : Part) : Frame d (endChannel k e d) := by
  unfold endChannel
  split
  · split
    · exact (setFreshness_kept _ _ d).toFrame
    · exact (pointsUnseen_leaked _ _ d).toFrame
    · exact .refl d
  · exact .refl d

theorem changeSlot_outer (k : Nat) (o n : Option SlotEntry) (d : Part) :
    Outer d (changeSlot k o n d) := by
  unfold changeSlot
  split
  · exact .refl d
  · refine Outer.trans ?_ (endChannel_frame _ _ _).toOuter
    exact {}

theorem activate_outer (d : Part) : Outer d (activate d) := by
  unfold activate
  simp only
  split
  · exact .refl d
  · refine Outer.trans ?_ (deriveModules_sourced _).toFrame.toOuter
    refine Outer.trans ?_ (forSlots_outer _ (fun k e => changeSlot_outer _ _ _ _) _)
    exact {}

theorem tellWriter_settled (r : OutRecord) (n : Nat) (o : Delivery) (d : Part) :
    Settled d (tellWriter r n o d) := by
  unfold tellWriter
  split
  · split
    · exact signal_settled _ d
    · exact .refl d
  · exact .refl d

theorem putOut_outer (k : Nat) (r : OutRecord) (d : Part) : Outer d (putOut k r d) := {}

theorem concludeOut_outer (r : OutRecord) (n : Nat) (t : Treatment) (d : Part) :
    Outer d (concludeOut r n t d) := by
  cases t
  · exact .refl d
  · exact (tellWriter_settled _ _ _ d).toFrame.toOuter
  · exact .refl d
  · exact .refl d
  · exact {}
  · refine Outer.trans ?_ (tellWriter_settled _ _ _ _).toFrame.toOuter
    exact {}

theorem treatOut_outer (k : Nat) (d : Part) : Outer d (treatOut k d) := by
  unfold treatOut
  split
  · refine Outer.trans ?_ (concludeOut_outer _ _ _ _)
    exact {}
  · exact .refl d

/-- A cycle start touches no table, and nothing of the rack link but its uplink. -/
theorem startCycle_outer (d : Part) : Outer d (startCycle d) := by
  unfold startCycle
  refine Outer.trans ?_ (forSlots_outer _ treatOut_outer _)
  refine Outer.trans ?_ (activate_outer _)
  refine (tick_outer d).trans ?_
  generalize tick d = e
  exact {}

theorem hearNode_outer (n : Nat) (d : Part) : Outer d (hearNode n d) := by
  unfold hearNode
  simp only
  have h1 : Outer d { d with
      slc.nodes := d.slc.nodes.set (n - 1) ⟨.live, some d.slc.cycle⟩ } := {}
  split
  · exact h1
  · exact h1.trans (deriveModules_sourced _).toFrame.toOuter
  · refine Outer.trans ?_ (deriveModules_sourced _).toFrame.toOuter
    exact h1.trans (post_settled _ _ _ _).toFrame.toOuter

theorem deliverSample_frame (k n : Nat) (kind : ChannelKind) (x : Sample) (d : Part) :
    Frame d (deliverSample k n kind x d) := by
  unfold deliverSample
  split
  · split
    · exact (switchReading_kept _ _ d).toFrame
    · exact .refl d
  · exact (powerReading_kept _ _ _ d).toFrame
  · exact (levelSample_leaked _ _ _ d).toFrame
  · exact .refl d

theorem echoRecord_outer (k j n : Nat) (e : BitVec 2) (r : OutRecord) (d : Part) :
    Outer d (echoRecord k j n e r d) := by
  unfold echoRecord
  split
  · split
    · split
      · exact (putOut_outer _ _ d).trans (tellWriter_settled _ _ _ _).toFrame.toOuter
      · exact putOut_outer _ _ d
    · exact .refl d
  · exact putOut_outer _ _ d

theorem readEcho_outer (k n : Nat) (kind : ChannelKind) (e : BitVec 2) (d : Part) :
    Outer d (readEcho k n kind e d) := by
  unfold readEcho
  split
  · split
    · split
      · exact echoRecord_outer _ _ _ _ _ d
      · exact .refl d
    · exact .refl d
  · exact .refl d

theorem noteSatisfied_outer (k : Nat) (x : Sample) (d : Part) : Outer d (noteSatisfied k x d) := by
  unfold noteSatisfied
  split
  · split
    · exact .refl d
    · exact {}
  · exact .refl d

theorem acceptCell_outer (k n : Nat) (kind : ChannelKind) (l : Option Nat) (q : Quality)
    (c : InCell) (d : Part) : Outer d (acceptCell k n kind l q c d) := by
  unfold acceptCell
  simp only
  refine Outer.trans ?_ (readEcho_outer _ _ _ _ _)
  refine Outer.trans ?_ (deliverSample_frame _ _ _ _ _).toOuter
  refine Outer.trans ?_ (channelSample_outer _ _ _ _ _ _)
  exact (hearNode_outer n d).trans (noteSatisfied_outer _ _ _)

/-- A cell touches no table, and nothing of the rack link but its uplink. -/
theorem receiveCell_outer (k : Nat) (c : InCell) (d : Part) : Outer d (receiveCell k c d) := by
  unfold receiveCell
  split
  · exact .refl d
  · exact {}
  · exact {}
  · exact acceptCell_outer _ _ _ _ _ _ d

theorem noticeSlot_outer (k : Nat) (d : Part) : Outer d (noticeSlot k d) := by
  unfold noticeSlot
  split
  · split
    · exact .refl d
    · exact missNotice_outer _ _ _ _ d
  · exact .refl d

theorem testNode_outer (n : Nat) (d : Part) : Outer d (testNode n d) := by
  unfold testNode
  simp only
  split
  · refine Outer.trans ?_ (deriveModules_sourced _).toFrame.toOuter
    refine Outer.trans ?_ (post_settled _ _ _ _).toFrame.toOuter
    exact {}
  · exact .refl d

/-- A cycle end touches no table, and nothing of the rack link but its uplink. -/
theorem endCycle_outer (d : Part) : Outer d (endCycle d) :=
  (forSlots_outer _ noticeSlot_outer d).trans (foldl_outer _ (fun d i => testNode_outer (i + 1) d) _ _)

/-! ## Table writes -/

theorem writeSlot_base (n : Nat) (ws : List Word) (d : Part) : Base d (writeSlot n ws d).1 := by
  unfold writeSlot
  split
  · exact .refl d
  · simp only
    split
    · exact {}
    · split
      · exact .refl d
      · exact {}
    · split
      · exact .refl d
      · exact {}

theorem limitReaches_outer (n : Nat) (o l : Option LimitEntry) (k : Nat) (d : Part) :
    Outer d (limitReaches n o l k d) := by
  unfold limitReaches
  split
  · split
    · exact limitChanged_outer _ _ _ _ _ d
    · exact .refl d
  · exact .refl d

theorem limits_base (d : Part) (l : List (Option LimitEntry)) :
    Base d { d with tlf.limits := l } := {}

theorem reachSlots_base (n : Nat) (o l : Option LimitEntry) (d : Part) :
    Base d (forSlots (limitReaches n o l) d) := by
  have h := forSlots_outer (limitReaches n o l) (limitReaches_outer n o l) d
  exact h.toBase

theorem writeLimit_base (n : Nat) (ws : List Word) (d : Part) : Base d (writeLimit n ws d).1 := by
  unfold writeLimit
  split
  · exact .refl d
  · simp only
    split
    · exact .refl d
    · dsimp only
      exact (limits_base d _).trans (reachSlots_base _ _ _ _)

theorem requalify_sourced (d : Part) : Sourced d (requalify d) := by
  unfold requalify
  split
  · apply sru_sourced
    rfl
  · exact .refl d

theorem rectChanged_sourced (n : Nat) (d : Part) : Sourced d (rectChanged n d) :=
  (deriveRect_sourced n d).trans ((recomputeCapacity_sourced _).trans
    ((examineAc_sourced _).trans (qualifyIfHeard_sourced _)))

theorem sru_base (d : Part) (u : Sru) : Base d { d with sru := u } := {}

theorem rectChanged_base (n : Nat) (d : Part) : Base d (rectChanged n d) :=
  (rectChanged_sourced n d).toFrame.toBase

theorem writeRect_base (n : Nat) (ws : List Word) (d : Part) : Base d (writeRect n ws d).1 := by
  unfold writeRect
  split
  · exact .refl d
  · split
    · exact .refl d
    · exact (sru_base d _).trans (rectChanged_base _ _)
  · split
    · exact .refl d
    · split
      · exact (sru_base d _).trans
          ((requalify_sourced _).toFrame.toBase.trans (rectChanged_base _ _))
      · split
        · exact .refl d
        · exact (sru_base d _).trans (rectChanged_base _ _)

theorem writeBatt_base (n : Nat) (ws : List Word) (d : Part) : Base d (writeBatt n ws d).1 := by
  unfold writeBatt
  split
  · exact .refl d
  · exact sru_base d _
  · split
    · exact .refl d
    · simp only
      split
      · exact .refl d
      · exact (sru_base d _).trans (deriveBatt_sourced _ _).toFrame.toBase

theorem bcu_base (d : Part) (u : Bcu) : Base d { d with bcu := u } := {}

theorem putBranch_base (b : Nat) (x : Branch) (d : Part) : Base d (putBranch b x d) := {}

theorem applyOutput_base (b : Nat) (x y : Branch) (d : Part) (h : d.branch b = some x) :
    Base d (applyOutput b x y d) := by
  by_cases hxy : x = y
  · unfold applyOutput
    rw [if_pos hxy]
    exact .refl d
  · exact (putBranch_base b y d).trans (applyOutput_after b x y d h hxy).toFrame.toBase

theorem forgetStages_base (n : Nat) (d : Part) : Base d (forgetStages n d) := {}

/-- Forgetting a branch's stages touches nothing but the Outbound Slot records. -/
@[simp] theorem forgetStages_branch (n b : Nat) (d : Part) :
    (forgetStages n d).branch b = d.branch b := rfl

theorem rewriteBranch_base (n : Nat) (x : Branch) (c : BranchCfg) (d : Part)
    (h : d.branch n = some x) : Base d (rewriteBranch n x c d) := by
  unfold rewriteBranch
  extract_lets d1 d2
  have h1 : Base d d1 ∧ d1.branch n = some x := by
    unfold d1
    split
    · exact ⟨.refl d, h⟩
    · exact ⟨forgetStages_base n d, h⟩
  have h2 : Base d d2 := h1.1.trans (applyOutput_base n x _ d1 h1.2)
  clear_value d2
  split
  · exact h2.trans (signalOnce_settled _ _).toFrame.toBase
  · exact h2

theorem writeBranch_base (n : Nat) (ws : List Word) (d : Part) : Base d (writeBranch n ws d).1 := by
  unfold writeBranch
  split
  · exact .refl d
  · split
    · exact .refl d
    · split
      · exact .refl d
      · refine Base.trans ?_ (signalOnce_settled _ _).toFrame.toBase
        exact (bcu_base d _).trans (forgetStages_base n _)
  · split
    · exact .refl d
    · split
      · exact putBranch_base _ _ d
      · rename_i hx
        split
        · exact .refl d
        · split
          · exact .refl d
          · split
            · exact .refl d
            · exact rewriteBranch_base _ _ _ d hx

theorem writeStep_base (n : Nat) (ws : List Word) (d : Part) : Base d (writeStep n ws d).1 := by
  unfold writeStep
  split
  · exact .refl d
  · split
    · exact .refl d
    · exact {}

theorem lkm_base (d : Part) (u : Lkm) : Base d { d with lkm := u } := {}

theorem examineZone_base (z : Nat) (d : Part) : Base d (examineZone z d) :=
  (examineZone_leaked z d).toFrame.toBase

theorem writePoint_base (n : Nat) (ws : List Word) (d : Part) : Base d (writePoint n ws d).1 := by
  have hold : ∀ (o : Option Point) (e : Part), Base e (match o with
      | some p => examineZone p.cfg.zone e
      | none => e) := by
    intro o e
    split
    · exact examineZone_base _ e
    · exact .refl e
  unfold writePoint
  extract_lets old oldBusy examineOld
  have hE : ∀ e, Base e (examineOld e) := hold old
  clear_value examineOld oldBusy
  split
  · exact .refl d
  · split
    · exact .refl d
    · exact (lkm_base d _).trans (hE _)
  · split
    · exact .refl d
    · split
      · exact .refl d
      · split
        · exact .refl d
        · exact (lkm_base d _).trans ((hE _).trans (examineZone_base _ _))

theorem putZone_base (z : Nat) (x : Zone) (d : Part) : Base d (putZone z x d) := {}

theorem writeZone_base (z : Nat) (ws : List Word) (d : Part) : Base d (writeZone z ws d).1 := by
  unfold writeZone
  split
  · exact .refl d
  · split
    · exact .refl d
    · split
      · exact .refl d
      · refine Base.trans ?_ (examineLine_leaked _).toFrame.toBase
        refine Base.trans ?_ (examineZone_base _ _)
        exact putZone_base _ _ d

theorem profileChanged_base (p : Profile) (d : Part) : Base d (profileChanged p d) := by
  have h : ∀ (c : Prop) [Decidable c] (e f : Part), Base d e → Base e f →
      Base d (if c then e else f) := by
    intro c _ e f he hf
    split
    · exact he
    · exact he.trans hf
  unfold profileChanged
  simp only
  have h1 := h (d.sru.profile.redundancy = p.redundancy) d _ (.refl d)
    (recomputeCapacity_sourced d).toFrame.toBase
  generalize (if d.sru.profile.redundancy = p.redundancy then d else recomputeCapacity d) = d1 at *
  have h2 := h (d.sru.profile.minRect = p.minRect) d1 _ h1 (examineAc_sourced d1).toFrame.toBase
  generalize (if d.sru.profile.minRect = p.minRect then d1 else examineAc d1) = d2 at *
  have h3 := h (d.sru.profile.floor = p.floor) d2 _ h2 (deriveBatts_sourced d2).toFrame.toBase
  generalize (if d.sru.profile.floor = p.floor then d2 else deriveBatts d2) = d3 at *
  have h4 : Base d (if d.sru.profile.overheadW < p.overheadW then signalOnce .attempt d3
      else d3) := by
    split
    · exact h3.trans (signalOnce_settled _ _).toFrame.toBase
    · exact h3
  generalize (if d.sru.profile.overheadW < p.overheadW then signalOnce .attempt d3 else d3) = d4
    at *
  exact h _ d4 _ h4 (examineLine_leaked d4).toFrame.toBase

theorem writeProfile_base (ws : List Word) (d : Part) : Base d (writeProfile ws d).1 := by
  unfold writeProfile
  simp only
  generalize parseProfile ws = r
  obtain ⟨p, f⟩ := r
  have h : Base d (profileChanged d.sru.profile { d with sru.profile := p }) := by
    refine Base.trans ?_ (profileChanged_base _ _)
    exact {}
  simp only
  split <;> exact h

theorem applyRecord_base (t : TableId) (n : Nat) (ws : List Word) (d : Part) :
    Base d (applyRecord t n ws d).1 := by
  cases t
  · exact writeSlot_base n ws d
  · exact writeLimit_base n ws d
  · exact writeRect_base n ws d
  · exact writeBatt_base n ws d
  · exact writeBranch_base n ws d
  · exact writeStep_base n ws d
  · exact writePoint_base n ws d
  · exact writeZone_base n ws d
  · exact writeProfile_base ws d

theorem applyRecords_cons (t : TableId) (start j : Nat) (clamp : Option Nat) (ws : List Word)
    (rest : List (List Word)) (d : Part) :
    applyRecords t start j clamp (ws :: rest) d =
      match applyRecord t (placeOf t start j) ws d with
      | (d', .accepted) => applyRecords t start (j + 1) clamp rest (settleAll d')
      | (d', .clamped f) =>
        applyRecords t start (j + 1) (some (clamp.getD f)) rest (settleAll d')
      | (d', .refused s f) =>
        (d', Answer.refuse s (some (placeOf t start j)) f (rest.length + 1)) := by
  cases clamp <;> rfl

theorem applyRecords_base (t : TableId) (start : Nat) (recs : List (List Word)) (j : Nat)
    (clamp : Option Nat) (d : Part) : Base d (applyRecords t start j clamp recs d).1 := by
  induction recs generalizing j clamp d with
  | nil => cases clamp <;> exact .refl d
  | cons ws rest ih =>
    have h := applyRecord_base t (placeOf t start j) ws d
    rw [applyRecords_cons]
    split
    · rename_i e
      rw [e] at h
      exact (h.trans (settleAll_settled _).toFrame.toBase).trans (ih _ _ _)
    · rename_i e
      rw [e] at h
      exact (h.trans (settleAll_settled _).toFrame.toBase).trans (ih _ _ _)
    · rename_i e
      rw [e] at h
      exact h

/-- A table write touches no protection flag, no line and nothing of the rack link but its uplink. -/
theorem writeTable_base (table start : Word) (ws : List Word) (d : Part) :
    Base d (writeTable table start ws d).1 := by
  unfold writeTable
  split
  · exact .refl d
  · split
    · exact .refl d
    · simp only
      split
      · exact .refl d
      · split
        · exact .refl d
        · split
          · exact .refl d
          · exact applyRecords_base _ _ _ _ _ d

end Sys2Proof.Machine
end

