-- ==== Sys2Proof/Laws/Command.lean ====
section
/-! SUPPORT. How a command ends, and how a request that executes at once goes through the Rack Link Port. -/

namespace Sys2Proof.Machine

/-! ## The end of a command -/

theorem settle_nil (n : Nat) (d : Part) (h : d.agenda = []) : settle n d = d := by
  cases n with
  | zero => rfl
  | succ n => unfold settle; rw [h]

theorem settleAll_nil (d : Part) (h : d.agenda = []) : settleAll d = d := settle_nil _ d h

theorem deliverPass_none (d : Part) (h : d.rlp.passOutcome = none) : deliverPass d = d := by
  unfold deliverPass
  rw [h]
  split <;> simp_all

theorem quieten_quiet (d : Part) (h : d.quiet) : quieten d = d := by
  obtain ⟨h1, h2⟩ := h
  obtain ⟨slc, tlf, bcu, sru, sqe, lkm, ⟨q, p, rs, es, dt, ft, et, bt, sd, rn, tx, rx, eo, po⟩, prot,
    lines, agenda⟩ := d
  simp only at h1 h2
  subst h1 h2
  rfl

/-- A part with nothing due ends a command with its lines refreshed and no more. -/
theorem complete_quiet (d : Part) (h : d.quiet) : complete d = refreshLines d := by
  unfold complete
  rw [settleAll_nil d h.1, deliverPass_none d h.2, quieten_quiet d h]

/-- Every command leaves nothing due. -/
theorem complete_is_quiet (d : Part) : (complete d).quiet := ⟨rfl, rfl⟩

/-- Every command leaves the lines at their levels. -/
theorem refreshLines_follow (d : Part) : (refreshLines d).linesFollow := ⟨rfl, rfl⟩

theorem act_running (f : Part → Part) (s : State) (h : s.part.lines.resetIn = false) :
    act f s = .next { s with part := complete (f s.part) } := by
  unfold act
  simp [h]

theorem act_reset (f : Part → Part) (s : State) (h : s.part.lines.resetIn = true) :
    act f s = .next s := by
  unfold act
  simp [h]

theorem deliverPass_calm (d : Part) (h : ∀ node, d.rlp.phase ≠ .passing node) :
    deliverPass d = d := by
  unfold deliverPass
  split
  · rename_i hp _ _
    exact absurd hp (h _)
  · rfl

/-- How a command ends where no NODE PASS waits: the hand-offs are delivered, and the lines follow. -/
theorem complete_calm (d : Part) (h : ∀ node, d.rlp.phase ≠ .passing node) :
    complete d = refreshLines (quieten (settleAll d)) := by
  unfold complete
  rw [deliverPass_calm]
  rw [(settleAll_settled d).phase]
  exact h

/-! ## The head of the Request Queue -/

theorem moveHead_idle (d : Part) (hp : d.rlp.phase = .fresh) (hq : d.rlp.requests = []) :
    moveHead d = none := by
  unfold moveHead
  rw [hp, hq]

theorem moveHead_fresh (d : Part) (q : Queued) (rest : List Queued) (hp : d.rlp.phase = .fresh)
    (hq : d.rlp.requests = q :: rest) : moveHead d = some (beginHead q d) := by
  unfold moveHead
  rw [hp, hq]

theorem moveHead_answering (d : Part) (r : Response) (hp : d.rlp.phase = .answering r)
    (hl : d.rlp.responses.length < 8) : moveHead d = some (appendFinal r d) := by
  unfold moveHead
  rw [hp]
  simp [hl]

theorem moveHead_full (d : Part) (r : Response) (hp : d.rlp.phase = .answering r)
    (hl : ¬ d.rlp.responses.length < 8) : moveHead d = none := by
  unfold moveHead
  rw [hp]
  simp [hl]

theorem pump_none (n : Nat) (d : Part) (h : moveHead d = none) : pump n d = d := by
  cases n with
  | zero => rfl
  | succ n => unfold pump; rw [h]

theorem pump_some (n : Nat) (d d' : Part) (h : moveHead d = some d') :
    pump (n + 1) d = pump n d' := by
  conv_lhs => unfold pump
  rw [h]

theorem appendFinal_idle (r : Response) (d : Part) (q : Queued) (hr : r.resets = false)
    (hq : d.rlp.requests = [q]) : moveHead (appendFinal r d) = none := by
  unfold appendFinal appendResponse
  rw [if_neg (by simp [hr])]
  apply moveHead_idle
  · rw [(arbitrate_settled _).phase]
    rfl
  · rw [(arbitrate_settled _).requests]
    simp [setPhase, hq]

/-- The only request of the queue, answered at once: its effects land, the hand-offs that they bring are
delivered, and its final response is appended. -/
theorem pumpAll_answer (q : Queued) (a : Answer) (d d1 : Part) (hq : d.rlp.requests = [q])
    (hp : d.rlp.phase = .fresh)
    (he : execRequest d.rlp.detail q.req { d with rlp.detail := none } = (d1, .answer a))
    (hr : d1.rlp.requests = [q]) (hl : d1.rlp.responses.length < 8) :
    pumpAll d = appendFinal (a.response q.tag) (answerHead a q (settleAll d1)) := by
  have hs := settleAll_settled d1
  have hb : beginHead q d = answerHead a q (settleAll d1) := by
    unfold beginHead
    rw [he]
    rfl
  have hna : ∀ e : Part, (noteDetail a q e).rlp.requests = e.rlp.requests ∧
      (noteDetail a q e).rlp.responses = e.rlp.responses := by
    intro e
    unfold noteDetail
    split <;> exact ⟨rfl, rfl⟩
  unfold pumpAll pumpFuel
  rw [pump_some 63 d _ (moveHead_fresh d q [] hp hq), hb,
    pump_some 62 _ _ (moveHead_answering _ (a.response q.tag) rfl ?_),
    pump_none _ _ (appendFinal_idle _ _ q rfl ?_)]
  · show (noteDetail a q (settleAll d1)).rlp.requests = [q]
    rw [(hna _).1, hs.requests, hr]
  · show (noteDetail a q (settleAll d1)).rlp.responses.length < 8
    rw [(hna _).2]
    exact lt_of_le_of_lt hs.responses hl

/-- A request that finds the part ready, and that is answered at once with no hand-off due. -/
theorem exec_answered (q : Queued) (a : Answer) (s : State) (d1 : Part) (h : s.part.ready)
    (he : execRequest s.part.rlp.detail q.req
      { s.part with rlp.requests := [q], rlp.phase := .fresh, rlp.detail := none } =
        (d1, .answer a))
    (hr : d1.rlp.requests = [q]) (hl : d1.rlp.responses.length < 8) (hd : d1.rlp.detail = none)
    (ha : d1.agenda = []) (ho : d1.rlp.passOutcome = none) :
    act (arrive q) s = .next { s with part := answeredBy a q d1 } := by
  obtain ⟨⟨hres, hqu⟩, hreq, hlen⟩ := h
  rw [act_running _ _ hres]
  have h1 : arrive q s.part = appendFinal (a.response q.tag) (answerHead a q d1) := by
    unfold arrive
    rw [hreq]
    simp only
    rw [pumpAll_answer q a _ d1 rfl rfl he hr hl, settleAll_nil d1 ha]
  have hq : (appendFinal (a.response q.tag) (answerHead a q d1)).quiet := by
    have hag : ∀ e : Part, (arbitrate e).agenda = e.agenda ∧
        (arbitrate e).rlp.passOutcome = e.rlp.passOutcome := by
      intro e
      unfold arbitrate
      repeat' split
      all_goals exact ⟨rfl, rfl⟩
    unfold appendFinal appendResponse Part.quiet
    rw [if_neg (by simp [Answer.response]), (hag _).1, (hag _).2]
    unfold answerHead noteDetail
    split <;> exact ⟨ha, ho⟩
  rw [h1, complete_quiet _ hq]
  congr 2
  unfold answeredBy appendFinal
  rw [if_neg (by simp [Answer.response])]
  congr 2
  unfold answerHead noteDetail detailAfter
  split
  · simp [setPhase, hr, ← hd]
  · simp [setPhase, hr]

/-! ## Commands that change nothing more -/

theorem linesFollow_refresh (d : Part) (h : d.linesFollow) : refreshLines d = d := by
  obtain ⟨h1, h2⟩ := h
  unfold refreshLines
  rw [← h1, ← h2]

/-- A command whose effect leaves nothing due and the lines at their levels ends there. -/
theorem act_same (f : Part → Part) (s : State) (d : Part) (hr : s.part.running)
    (hf : f s.part = d) (hq : d.quiet) (hl : d.linesFollow) :
    act f s = .next { s with part := d } := by
  rw [act_running _ _ hr.1, hf, complete_quiet _ hq, linesFollow_refresh _ hl]

end Sys2Proof.Machine
end

