-- ==== Sys2Proof/WellFormed.lean ====
section
/-! DEFINITION. Which commands are well formed: operands that the links of the part can carry. -/

namespace Sys2Proof

/-- A REQUEST body: the kind byte and `fixed` single words, then `n` words more. R180 bounds it
by 1024 bytes. -/
def bodyFits (fixed n : Nat) : Bool := 1 + 2 * (fixed + n) ≤ 1024

/-- A command is well formed when a slot lies in the cycle (1.1), a branch number in the Branch
Table (R45), a list of words in one message body (R180), and a received message has a byte. -/
def Instr.wellFormed : Instr → Bool
  | .cellReceive slot _ => slot < 96
  | .admitTimerExpiry b => b < 36
  | .stopTimerExpiry b => b < 36
  | .messageReceive bytes => !bytes.isEmpty
  | .writeTable _ _ _ words => bodyFits 2 words.length
  | .protect _ _ banks => bodyFits 1 banks.length
  | .unprotect _ _ banks => bodyFits 1 banks.length
  | .powerOnReset => true
  | .softReset => true
  | .cycleStart => true
  | .cycleEnd => true
  | .acfailInChange _ => true
  | .leakInChange _ => true
  | .spacingTimerExpiry => true
  | .qualificationTimerExpiry => true
  | .stableTimerExpiry => true
  | .capacityPersistenceExpiry => true
  | .evaluation => true
  | .stepTimerExpiry => true
  | .uplinkTransmitDone => true
  | .responseAppend => true
  | .nodePassComplete _ => true
  | .readStatus _ => true
  | .readTable _ _ _ _ => true
  | .locateBranch _ _ => true
  | .branchRequest _ _ _ => true
  | .branchClear _ _ => true
  | .sequenceStart _ => true
  | .sequenceSuspend _ => true
  | .sequenceResume _ => true
  | .sequenceAbort _ => true
  | .leakAck _ _ => true
  | .leakClear _ _ => true
  | .nodePass _ _ _ => true
  | .freezeProtection _ => true
  | .setFeature _ _ _ => true
  | .getDetail _ => true
  | .reset _ => true
  | .resetInAsserted => true

end Sys2Proof
end

