-- ==== Sys2Proof/Tests/Slice0.lean ====
section
/-! SUPPORT. Own tests: the checks of WellFormed, one or two steps of each command with figures worked in the
manual, and for each statement with hypotheses a state and operands that meet them. -/

namespace Sys2Proof.Tests

set_option Elab.async false

open Sys2Proof Sys2Proof.Machine

/-! ## WellFormed refuses -/

theorem test_illformed_slot : (Instr.cellReceive 96 ⟨1, 2, 0, 0, 0⟩).wellFormed = false := by decide
theorem test_illformed_admit_branch : (Instr.admitTimerExpiry 36).wellFormed = false := by decide
theorem test_illformed_stop_branch : (Instr.stopTimerExpiry 36).wellFormed = false := by decide
theorem test_illformed_no_byte : (Instr.messageReceive []).wellFormed = false := by decide
theorem test_illformed_long_write :
    (Instr.writeTable 0 0 0 (List.replicate 510 0)).wellFormed = false := by decide +kernel
theorem test_illformed_long_protect :
    (Instr.protect 0 0 (List.replicate 511 0)).wellFormed = false := by decide +kernel
theorem test_illformed_long_unprotect :
    (Instr.unprotect 0 0 (List.replicate 511 0)).wellFormed = false := by decide +kernel
theorem test_wellformed_bounds :
    ((Instr.cellReceive 95 ⟨1, 2, 0, 0, 0⟩).wellFormed && (Instr.stopTimerExpiry 35).wellFormed &&
      (Instr.writeTable 0 0 0 (List.replicate 509 0)).wellFormed) = true := by decide +kernel

/-! ## A small shelf -/

/-- A table with the given entries. -/
def table {α : Type} (n : Nat) (es : List (Nat × α)) : List (Option α) :=
  es.foldl (fun l e => l.set e.1 (some e.2)) (List.replicate n none)

/-- The Slot Map of the shelf: switch node 23 (1.7.1, 2.9.1), pass node 4, leak node 6, battery node 41. -/
def slots : List (Option SlotEntry) :=
  table 96 [(0, .input 1 .rmStatus none), (12, .input 23 .brStatus none),
    (30, .input 23 .brPower (some 7)), (40, .output 23), (41, .output 4),
    (50, .input 6 .lkLevel none), (55, .input 41 .bmEnergy (some 12))]

/-- Limit entry 7 of 2.9.1. -/
def limit7 : LimitEntry := ⟨none, none, some 3000, some 3400, 200, 3, 50, .delta, 100, .branchTrip⟩

/-- Limit entry 12 of 2.9.2. -/
def limit12 : LimitEntry := ⟨some 600, some 1000, none, none, 50, 2, 20, .onClass, 0, .never⟩

/-- Branch 9 on switch node 23, in zone 3, as it stands in state `s`. -/
def branch (s : BranchState) : Branch :=
  ⟨⟨23, 2000, some 3, 7, 1⟩, s, ⟨true, false⟩, ⟨false, false, false, false⟩, none, false, none,
    .stopped, false, false⟩

/-- The shelf in ON_AC with branch 9 in state `s`, zone 3 valid and nothing wet. -/
def shelf (s : BranchState) : Part :=
  let p := Part.powerOn false false
  { p with
    slc := { p.slc with
      cycle := 100, written := slots, active := slots, out := slots.map outBegin }
    tlf := { p.tlf with
      limits := table 48 [(7, limit7), (12, limit12)], channels := slots.map channelBegin }
    bcu := { p.bcu with branches := table 36 [(9, branch s)] }
    sru := { p.sru with
      source := .onAc, rects := table 8 [(0, ⟨1, 7000, .ok⟩), (1, ⟨2, 7000, .ok⟩)]
      batts := table 6 [(0, ⟨41, .online⟩)]
      capacity := 7000, qualTimer := .stopped, evalTimer := .running 20 }
    sqe := { p.sqe with steps := table 64 [(0, ⟨.delay, 0, 500, .halt, 0⟩),
      (1, ⟨.endRun, 0, 0, .halt, 0⟩)] }
    lkm := { p.lkm with
      points := table 16 [(4, ⟨⟨6, 50, 3, 1200, 3900, 3⟩, .dry, 0⟩)]
      zones := p.lkm.zones.set 3 ⟨some ⟨2, true, true, true⟩, .clear, false, false⟩ }
    lines := { p.lines with alertOut := false } }

/-- The state with that part and no command waiting. -/
def st (d : Part) : State := ⟨d, []⟩

/-- The part after one command. -/
def after (c : Instr) (d : Part) : Part :=
  match exec c (st d) with
  | .next t => t.part
  | _ => d

/-- A change of branch 9. -/
def withBranch9 (f : Branch → Branch) (d : Part) : Part :=
  { d with bcu := { d.bcu with branches := d.bcu.branches.modify 9 (Option.map f) } }

/-- The Outbound Slot record of slot 40. -/
def withOut (r : OutRecord) (d : Part) : Part :=
  { d with slc := { d.slc with out := d.slc.out.set 40 (some r) } }

/-- The Channel State record of slot `k`. -/
def withChannel (k : Nat) (x : ChannelState) (d : Part) : Part :=
  { d with tlf := { d.tlf with channels := d.tlf.channels.set k (some x) } }

/-- The source unit. -/
def withSru (f : Sru → Sru) (d : Part) : Part := { d with sru := f d.sru }

/-- The run. -/
def withSqe (f : Sqe → Sqe) (d : Part) : Part := { d with sqe := f d.sqe }

/-- Zone 3 in a latched state. -/
def withZone3 (s : ZoneState) (acked : Bool) (d : Part) : Part :=
  { d with lkm := { d.lkm with zones := d.lkm.zones.set 3 ⟨some ⟨2, true, true, true⟩, s, acked, false⟩ } }

/-- The port. -/
def withRlp (f : Rlp → Rlp) (d : Part) : Part := { d with rlp := f d.rlp }

/-- The event records posted, the one in transmission first. -/
def events (d : Part) : List (EventKind × Option Nat × Option Nat) :=
  ((match d.rlp.tx with
    | some (.event _ e) => [e]
    | _ => []) ++ d.rlp.events).map fun e => (e.kind, e.source, e.value)

/-- The status and residual of a final response in transmission. -/
def answer (d : Part) : Option (Status × Nat) :=
  match d.rlp.tx with
  | some (.response r) => some (r.status, r.residual)
  | _ => none

/-! ## Checks of the links (standard check values of the two codes over "123456789") -/

theorem test_crc8 : crc8 [0x31, 0x32, 0x33, 0x34, 0x35, 0x36, 0x37, 0x38, 0x39] = 0xF4#8 := by
  decide +kernel
theorem test_crc16 :
    crc16 [0x31, 0x32, 0x33, 0x34, 0x35, 0x36, 0x37, 0x38, 0x39] = 0x29B1#16 := by decide +kernel

/-! ## Resets and lines -/

theorem test_power_on_reset : (after .powerOnReset (shelf .on)).sru.qualTimer = .running 500 := by
  decide +kernel
theorem test_soft_reset_unknown :
    ((after .softReset (shelf .on)).branch 9).map (·.state) = some .unknown := by decide +kernel
/-- 9.6.3: a bank that is not protected is emptied under CLEAR, a protected one is kept. -/
theorem test_soft_reset_clear :
    let d := { withRlp (fun r => { r with features := { r.features with clearTables := true } })
      (shelf .on) with prot := ⟨(List.replicate 21 false).set 0 true, true⟩ }
    let e := after .softReset d
    (entry e.slc.written 0 = some (.input 1 .rmStatus none) ∧ entry e.slc.written 40 = none) ∧
      e.prot.frozen = true := by decide +kernel
theorem test_reset_in : (after .resetInAsserted (shelf .on)).lines.alertOut = true := by decide +kernel
theorem test_acfail : (after (.acfailInChange true) (shelf .on)).sru.source = .onBattery := by
  decide +kernel
theorem test_acfail_event :
    events (after (.acfailInChange true) (shelf .on)) = [(.acLoss, none, some 1)] := by
  decide +kernel
/-- 7.9.2: the facility line confirms and isolates the zone that leak_line_zone names. -/
theorem test_leak_in :
    let d := withSru (fun u => { u with profile := { u.profile with leakLineZone := some 3 } })
      (shelf .on)
    let e := after (.leakInChange true) d
    ((e.zone 3).state, e.lines.valveOut, (e.branch 9).map (·.state)) =
      (.isolated, true, some .stopping) := by decide +kernel

/-! ## The shelf link -/

/-- 1.7.1: ON differs from live OFF, so it is sent with the next sequence number. -/
theorem test_cycle_start_sends :
    (after .cycleStart (withOut ⟨some 1, some 0, 2, false, 0, 0, some .bcu, true, some 9, false⟩
      (shelf .admitting))).slc.sending = [⟨40, 23, 1, 3⟩] := by decide +kernel
/-- 1.7.3: NO_ACK at the cycle start after the last retry's window. -/
theorem test_cycle_start_no_ack :
    let e := after .cycleStart
      (withOut ⟨some 1, some 1, 2, true, 3, 3, some .bcu, true, some 9, false⟩ (shelf .admitting))
    (e.slc.noAcks, (e.branch 9).map (·.state)) = (1, some .fault) := by decide +kernel
/-- R59: the NO_ACK of a stage for a branch since emptied faults no branch written in its place. -/
theorem test_forgotten_stage :
    let d := withOut ⟨some 1, some 1, 2, true, 3, 3, some .bcu, true, some 9, false⟩ (shelf .off)
    let d1 := after (.writeTable 7 4 9 (emptyRecord 6)) d
    let e := after .cycleStart
      { d1 with bcu := { d1.bcu with branches := table 36 [(9, branch .on)] } }
    (e.slc.noAcks, (e.branch 9).map (·.state)) = (1, some .on) := by decide +kernel
/-- 2.9.2: at the twentieth missed cycle the channel is STALE. -/
theorem test_cycle_end_stale :
    (entry (after .cycleEnd (withChannel 55 ⟨.normal, some 1150, none, none, 0, 19⟩
      (shelf .on))).tlf.channels 55).map (·.cls) = some .stale := by decide +kernel
/-- R13: a node heard node_silence cycles ago is SILENT. -/
theorem test_cycle_end_silent :
    let d := shelf .on
    (after .cycleEnd { d with slc := { d.slc with
      nodes := d.slc.nodes.set 5 ⟨.live, some 0⟩ } }).nodeRecord 6 = ⟨.silent, some 0⟩ := by
  decide +kernel
/-- 2.9.1, cycle 106: the third sample above high_trip trips the branch (check worked by hand). -/
theorem test_cell_trips :
    let e := after (.cellReceive 30 ⟨23, 7, 3450, 0, 0xC8⟩)
      (withChannel 30 ⟨.normal, some 3480, some 3500, some .tripHigh, 2, 0⟩ (shelf .on))
    ((entry e.tlf.channels 30).map (·.cls), (e.branch 9).map (·.holds.trip)) =
      (some .tripHigh, some true) := by decide +kernel
/-- 1.7.1: the echo 3 acknowledges, and POWER_GOOD makes the branch ON (check worked by hand). -/
theorem test_cell_acknowledges :
    let e := after (.cellReceive 12 ⟨23, 8, 2, 3, 0x88⟩)
      (withOut ⟨some 1, some 1, 3, true, 0, 1, some .bcu, true, some 9, false⟩ (shelf .admitting))
    ((entry e.slc.out 40).map (·.awaiting), (e.branch 9).map (·.state)) =
      (some false, some .on) := by decide +kernel
/-- R138 to R140: a wet sample that leaves its LK_LEVEL channel UNSEEN (persistence 3) moves the point on. -/
theorem test_unseen_level_keeps_point :
    let d := shelf .on
    let e := after (.cellReceive 50 ⟨6, 9, 2000, 0, crc8 [6, 9, 0x07, 0xD0, 0]⟩) { d with
      slc := { d.slc with active := d.slc.active.set 50 (some (.input 6 .lkLevel (some 7))) }
      lkm := { d.lkm with points := table 16 [(4, ⟨⟨6, 50, 3, 1200, 3900, 3⟩, .wetPending, 1⟩)] } }
    ((entry e.tlf.channels 50).map (·.cls), (entry e.lkm.points 4).map fun p => (p.state, p.count)) =
      (some .unseen, some (.wetPending, 2)) := by decide +kernel

/-! ## Timers -/

theorem test_admit_expiry :
    let d := withBranch9 (fun x => { x with timer := .running 0 }) (shelf .admitting)
    events (after (.admitTimerExpiry 9) d) = [(.branchFault, some 9, some 0)] := by decide +kernel
theorem test_stop_expiry :
    let d := withBranch9 (fun x => { x with timer := .running 0 }) (shelf .stopping)
    events (after (.stopTimerExpiry 9) d) = [(.branchFault, some 9, some 1)] := by decide +kernel

/-- The Power Profile of 5.10.1. -/
def profile5 : Profile :=
  { Profile.default with floor := 500, effPm := 920, overheadW := 600, tReqS := 180 }

/-- 5.10.2: the head of 2,400 W passes the readiness check with 219 s against 198 s. -/
theorem test_spacing_admits :
    let d := withSru (fun u => { u with
        profile := profile5, capacity := 20000, u := some 12420, p := some 18000 })
      (withBranch9 (fun x => { x with cfg := { x.cfg with ratedW := 2400 } }) (shelf .queued))
    let e := after .spacingTimerExpiry { d with bcu := { d.bcu with
      queue := [9], spacing := .running 0 } }
    (e.branch 9).map (·.state) = some .admitting ∧ e.bcu.spacing = .running 50 := by
  decide +kernel
/-- 5.10.2: a head of 5,000 W waits with HEAD_BLOCKED yes. -/
theorem test_spacing_blocks :
    let d := withSru (fun u => { u with
        profile := profile5, capacity := 20000, u := some 12420, p := some 18000 })
      (withBranch9 (fun x => { x with cfg := { x.cfg with ratedW := 5000 } }) (shelf .queued))
    let e := after .spacingTimerExpiry { d with bcu := { d.bcu with
      queue := [9], spacing := .running 0 } }
    (e.bcu.queue, e.bcu.headBlocked) = ([9], true) := by decide +kernel
/-- 11.5: with the rectifiers in INPUT_FAIL the source leaves SOURCE_UNKNOWN for ON_BATTERY. -/
theorem test_qualification :
    let d := withSru (fun u => { u with
      source := .unknown, qualTimer := .running 0, rects := table 8 [(0, ⟨1, 7000, .inputFail⟩)] })
      (shelf .on)
    events (after .qualificationTimerExpiry d) =
      [(.sourceQualified, none, some 2), (.acLoss, none, some 0)] := by decide +kernel
/-- 11.2.2: the stable expiry posts AC_RETURN (43) and RESTORE_DONE (2). -/
theorem test_stable :
    let d := withSru (fun u => { u with
      source := .returnPending, stableTimer := .running 0, tBatt := 43050, tBattCounts := true
      battShed := 0xC0 }) (shelf .off)
    events (after .stableTimerExpiry d) =
      [(.acReturn, none, some 43), (.restoreDone, none, some 2)] := by decide +kernel

/-- Branches 0, 1 and 2 in tiers 7, 6 and 0 with these fresh readings, all ON. -/
def loaded (t7 t6 t0 : Nat) (d : Part) : Part :=
  let b := fun node tier w => Branch.mk ⟨node, 8000, none, tier, 0⟩ .on ⟨true, false⟩
    ⟨false, false, false, false⟩ (some w) true none .stopped false false
  { d with bcu := { d.bcu with
      branches := table 36 [(0, b 20 7 t7), (1, b 21 6 t6), (2, b 22 0 t0)] } }

/-- 11.4: at 12,000 W of capacity, 14,500 W sheds tiers 7 and 6. -/
theorem test_capacity_shed :
    let d := withSru (fun u => { u with capacity := 12000, capTimer := .running 0 })
      (loaded 1500 2000 10700 (shelf .on))
    let e := after .capacityPersistenceExpiry d
    e.sru.capShed = 0xC0#8 ∧
      (events e).take 2 = [(.shedTier, some 7, some 1), (.shedTier, some 6, some 1)] := by decide +kernel

/-- 5.10.1: 12,420 of energy for 29,000 W; the figures and the set {6, 7}. -/
theorem test_evaluation :
    let d := withSru (fun u => { u with
        source := .onBattery, tBatt := 12400, profile := profile5
        batts := table 6 [(0, ⟨41, .online⟩)] })
      (loaded 3200 4100 21100 (withChannel 55 ⟨.normal, some 14000, none, none, 0, 0⟩ (shelf .on)))
    let e := (after .evaluation d).sru
    (e.u, e.p, e.tProj, e.tNeed, e.tGoal) =
      (some 12420, some 29000, some 154, some 168, some 185) := by decide +kernel
/-- R100: a branch in UNKNOWN since a reset counts at rated_w 2,000, whatever its fresh reading. -/
theorem test_unknown_counts_rated :
    load (withBranch9 (fun x => { x with reading := some 700, fresh := true }) (shelf .unknown)) = 2300 :=
  by decide +kernel
theorem test_evaluation_sheds :
    let d := withSru (fun u => { u with
        source := .onBattery, tBatt := 12400, profile := profile5
        batts := table 6 [(0, ⟨41, .online⟩)] })
      (loaded 3200 4100 21100 (withChannel 55 ⟨.normal, some 14000, none, none, 0, 0⟩ (shelf .on)))
    (after .evaluation d).sru.battShed = 0xC0#8 := by decide +kernel
theorem test_step_expiry :
    let d := withSqe (fun q => { q with run := .running, phase := .active, timer := .running 0 })
      (shelf .on)
    events (after .stepTimerExpiry d) = [(.stepDone, some 0, some 500), (.runDone, some 1, none)] := by
  decide +kernel

/-! ## The rack link -/

/-- A READ STATUS with tag 5, its bytes and check written out by hand from R180. -/
theorem test_message_receive :
    answer (after (.messageReceive [0, 0, 5, 0, 0, 1, 0, 0xE1, 0xA8]) (shelf .on)) =
      some (.done, 0) := by decide +kernel
theorem test_message_bad_check :
    (after (.messageReceive [0, 0, 5, 0, 0, 1, 0, 0xE1, 0xA9]) (shelf .on)).rlp.rxDiscards = 1 := by
  decide +kernel

/-- A telemetry record. -/
def sample (v : Int) : SampleRecord := ⟨41, .bmEnergy, v, .normal, 7⟩

/-- 8.6.2, decision 3: after two responses under W_RSP 2 a batch is sent, side TEL and run 1. -/
theorem test_transmit_done :
    let m := Uplink.response ⟨3, .done, 0, false, false, [], false⟩
    let d := withRlp (fun r => { r with
      features := { r.features with wRsp := 2, wTel := 3 }, tx := some m, responses := [m, m]
      side := .rsp, run := 2 }) (shelf .on)
    let e := (after .uplinkTransmitDone { d with tlf := { d.tlf with
      queue := List.replicate 40 (sample 5) } })
    e.rlp.tx = some (.batch 0 (List.replicate 16 (sample 5))) ∧ (e.rlp.side, e.rlp.run) = (.tel, 1)
      := by decide +kernel
theorem test_response_append :
    let r : Response := ⟨3, .range, 0, false, false, [], false⟩
    let e := after .responseAppend (withRlp (fun p => { p with
      requests := [⟨3, .readStatus⟩], phase := .answering r }) (shelf .on))
    (e.rlp.tx, e.rlp.requests) = (some (.response r), []) := by decide +kernel
/-- 8.6.1: the NO_ACK of the pass to node 6 answers tag 20. -/
theorem test_node_pass_complete :
    let e := after (.nodePassComplete .noAck) (withRlp (fun p => { p with
      requests := [⟨20, .nodePass 6 1⟩], phase := .passing 6 }) (shelf .on))
    e.rlp.detail = some ⟨some 12, 20, .noAck, some 6, none, 0⟩ ∧ answer e = some (.noAck, 0) := by
  decide +kernel
theorem test_read_status :
    ((statusRecord (shelf .on)).length, (statusRecord (shelf .on)).take 5) =
      (67, [0, 0, 0, 100, 1]) := by decide +kernel
theorem test_get_detail :
    (after (.getDetail 9) (shelf .on)).rlp.detail =
      some ⟨some 17, 9, .noDetail, none, none, 0⟩ := by decide +kernel

/-! ## Requests -/

/-- 9.6.1: the fourth record of six changes the switch node of a branch that is ON. -/
theorem test_write_in_use :
    let b := fun node s => Branch.mk ⟨node, 2000, none, 3, 1⟩ s ⟨false, false⟩
      ⟨false, false, false, false⟩ none false none .stopped false false
    let rec' := fun node tier => [1, node, 2000, 8, tier, 1]
    let d := shelf .on
    let e := after (.writeTable 7 4 34
        (rec' 42 5 ++ rec' 43 5 ++ rec' 41 5 ++ rec' 44 3 ++ rec' 42 6 ++ rec' 43 6))
      { d with bcu := { d.bcu with
          branches := table 36
            [(32, b 41 .off), (33, b 40 .on), (34, b 42 .off), (35, b 43 .off)] } }
    answer e = some (.inUse, 3) ∧
      e.rlp.detail = some ⟨some 1, 7, .inUse, some 33, some 1, 3⟩ ∧
      (e.branch 32).map (·.cfg.tier) = some 5 := by decide +kernel
/-- R46: a record with valid = no is refused for a switch node of 100, and not for ABSENT fields. -/
theorem test_write_empty_branch :
    let d := shelf .off
    (answer (after (.writeTable 7 4 9 [0, 100, 0, 8, 0, 0]) d),
        answer (after (.writeTable 7 4 9 (emptyRecord 6)) d)) =
      (some (.range, 1), some (.done, 0)) := by decide +kernel
theorem test_write_profile_clamps :
    answer (after (.writeTable 7 8 0 ([1, 1] ++ (profileWords Profile.default).drop 2)) (shelf .on)) =
      some (.clamped, 0) := by decide +kernel
/-- 9.6.2: a read from 20 of 20 entries of the Branch Table in blocks of 6 ends with residual 4. -/
theorem test_read_past_end :
    let e := after (.readTable 7 4 20 20) (withRlp (fun r => { r with
      features := { r.features with readBlock := 6 } }) (shelf .on))
    ((e.rlp.tx.toList ++ e.rlp.responses).map fun m => match m with
      | .data _ _ first records => (first, records.length)
      | .response r => (r.status.code, r.residual)
      | _ => (0, 0)) = [(20, 6), (26, 6), (32, 4), (14, 4)] := by decide +kernel
theorem test_locate :
    (after (.locateBranch 7 9) (shelf .on)).rlp.tx =
      some (.response ⟨7, .done, 0, false, false,
        [0, 23, 0, 12, 0, 30, 0, 40, 0, 3, 0, 7, 0, 1, 0, 4, 0, 1, 0, 0, 0, 0, 255, 255, 255, 255],
        false⟩) := by decide +kernel
theorem test_branch_off :
    let e := after (.branchRequest 7 9 1) (shelf .on)
    (e.branch 9).map (fun x => (x.state, x.holds.forceOff)) = some (.stopping, true) := by
  decide +kernel
theorem test_branch_range :
    (after (.branchRequest 7 36 0) (shelf .on)).rlp.detail =
      some ⟨some 4, 7, .range, some 36, some 0, 0⟩ := by decide +kernel
theorem test_branch_clear :
    ((after (.branchClear 7 9) (withBranch9 (fun x => { x with
      demands := ⟨false, false⟩ }) (shelf .fault))).branch 9).map (·.state) = some .off := by
  decide +kernel
theorem test_sequence_start :
    (after (.sequenceStart 7) (shelf .on)).sqe.timer = .running 500 := by decide +kernel
theorem test_sequence_suspend :
    let e := after (.sequenceSuspend 7) (withSqe (fun q => { q with
      run := .running, phase := .active, timer := .running 40 }) (shelf .on))
    (e.sqe.run, e.sqe.timer) = (.suspended, .frozen 40) := by decide +kernel
theorem test_sequence_resume :
    let e := after (.sequenceResume 7) (withSqe (fun q => { q with
      run := .suspended, phase := .active, timer := .frozen 40, causes := ⟨false, true, false⟩ })
      (shelf .on))
    (e.sqe.run, e.sqe.timer) = (.running, .running 40) := by decide +kernel
theorem test_sequence_abort :
    let e := after (.sequenceAbort 7) (withSqe (fun q => { q with run := .halted, index := 2 })
      (shelf .on))
    (e.sqe.run, e.sqe.index) = (.idle, 2) := by decide +kernel
theorem test_leak_ack :
    ((after (.leakAck 7 3) (withZone3 .isolated false (shelf .off))).zone 3).acked = true := by
  decide +kernel
/-- 7.9.1, cycle 210: the clear takes the demands of the zone's branches, and VALVE_OUT goes. -/
theorem test_leak_clear :
    let e := after (.leakClear 7 3) (withBranch9 (fun x => { x with holds := { x.holds with
      leak := true } }) (withZone3 .isolated true (shelf .off)))
    ((e.zone 3).state, e.lines.valveOut, (e.branch 9).map fun x => (x.demands.any, x.holds.any)) =
      (.clear, false, some (false, false)) := by decide +kernel
theorem test_node_pass :
    let e := after (.nodePass 20 4 1) (shelf .on)
    (e.rlp.phase, (entry e.slc.out 41).bind (·.staged)) = (.passing 4, some 1) := by decide +kernel
/-- R162: the acknowledgement of an old value that the RLP staged for node 23 does not complete a NODE PASS to
node 4. -/
theorem test_node_pass_other_node :
    let r : OutRecord := ⟨some 1, some 1, 3, true, 0, 1, some .rlp, true, none, false⟩
    let e := after (.cellReceive 12 ⟨23, 8, 2, 3, 0x88⟩) (withRlp (fun p => { p with
      phase := .passing 4, requests := [⟨20, .nodePass 4 1⟩] }) (withOut r (shelf .on)))
    (e.rlp.phase, (entry e.slc.out 40).map (·.owed)) = (.passing 4, some false) := by decide +kernel
theorem test_node_pass_owned :
    answer (after (.nodePass 20 23 1) (shelf .on)) = some (.owned, 0) := by decide +kernel
theorem test_protect :
    bankProtected .branch 35 (after (.protect 7 4 [0, 2]) (shelf .on)) = true := by decide +kernel
theorem test_unprotect :
    let d := { shelf .on with prot := ⟨List.replicate 21 true, false⟩ }
    let e := after (.unprotect 7 4 [2]) d
    (bankProtected .branch 35 e, bankProtected .branch 0 e) = (false, true) := by decide +kernel
theorem test_freeze :
    answer (after (.protect 7 4 [0]) (after .uplinkTransmitDone
      (after (.freezeProtection 7) (shelf .on)))) = some (.frozen, 0) := by decide +kernel
theorem test_set_feature :
    let e := after (.setFeature 7 0 17) (shelf .on)
    (e.rlp.features.readBlock, answer e) = (16, some (.clamped, 0)) := by decide +kernel
theorem test_reset_request :
    (after (.reset 7) (shelf .on)).rlp.phase = .resetting := by decide +kernel
theorem test_reset_takes_effect :
    (after .uplinkTransmitDone (after (.reset 7) (shelf .on))).sru.source = .unknown := by
  decide +kernel

/-! ## The queue of commands -/

theorem test_step_front :
    step ⟨shelf .on, [.resetInAsserted, .cycleStart]⟩ =
      exec .resetInAsserted ⟨shelf .on, [.cycleStart]⟩ := by rfl
theorem test_step_idle : step State.reset = .next State.reset := by rfl
theorem test_no_word_spells : decodeTableWord 16 0 = none := by decide

/-! ## States that meet the hypotheses of the statements

One theorem for each statement that has hypotheses: first what its clauses share, then each clause at the ends of its
range. -/

theorem calm_of {d : Part}
    (h : (d.lines.resetIn, d.agenda, d.rlp.passOutcome, d.rlp.phase) = (false, [], none, .fresh)) :
    d.calm := by
  simp only [Prod.mk.injEq] at h
  refine ⟨⟨h.1, h.2.1, h.2.2.1⟩, fun node hn => ?_⟩
  rw [h.2.2.2] at hn
  cases hn

theorem running_of {d : Part}
    (h : (d.lines.resetIn, d.agenda, d.rlp.passOutcome) = (false, [], none)) : d.running := by
  simp only [Prod.mk.injEq] at h
  exact ⟨h.1, h.2.1, h.2.2⟩

theorem ready_of {d : Part} (h : (d.lines.resetIn, d.agenda, d.rlp.passOutcome) = (false, [], none))
    (q : d.rlp.requests = []) (r : d.rlp.responses.length < 8) : d.ready := ⟨running_of h, q, r⟩

theorem shelf_calm (s : BranchState) : (shelf s).calm := calm_of rfl
theorem shelf_running (s : BranchState) : (shelf s).running := running_of rfl
theorem shelf_ready (s : BranchState) : (shelf s).ready :=
  ready_of rfl rfl (by simp [shelf, Part.powerOn, Rlp.powerOn])
theorem shelf_lines : (shelf .on).linesFollow := by unfold Part.linesFollow; decide +kernel

/-- A cell with a good check. -/
def cellOf (node : Byte) (kind : ChannelKind) (v : Word) (status : Byte) : InCell :=
  let k : Byte := BitVec.ofNat 8 kind.code
  ⟨node, k, v, status, crc8 [node, k, hiByte v, loByte v, status]⟩

/-- A node is LIVE and was last heard in cycle `h`. -/
def withLive (node : Nat) (h : Cycle) (d : Part) : Part :=
  { d with slc := { d.slc with nodes := d.slc.nodes.set (node - 1) ⟨.live, some h⟩ } }

theorem witness_StepRunsFrontCommand :
    (State.mk (shelf .on) [.cycleStart, .cycleEnd]).pending = .cycleStart :: [.cycleEnd] := by rfl

/-- CLEAR over an unprotected and a protected bank; a latched and an unlatched zone; LEAK_IN at both levels. -/
theorem witness_SoftResetValues :
    let d := { withRlp (fun r => { r with features := { r.features with clearTables := true } })
      (withZone3 .isolated false (shelf .on)) with prot := ⟨(List.replicate 21 false).set 0 true, true⟩ }
    let line := { withSru (fun u => { u with profile := { u.profile with leakLineZone := some 3 } })
      (shelf .on) with lines := ⟨false, false, true, false, true⟩ }
    (d.lines.resetIn = false ∧ d.rlp.features.clearTables = true ∧ bankProtected .slotMap 0 d = true ∧
      bankProtected .slotMap 95 d = false ∧ (d.zone 3).state.latched = true ∧
      (d.zone 0).state.latched = false ∧ d.lines.leakIn = false ∧ (d.branch 9).isSome = true ∧
      (entry (after .softReset (shelf .on)).slc.active 40 = some (.output 23)) ∧
      (entry (after .softReset (shelf .on)).slc.active 0).isSome = true) ∧
    line.lines.resetIn = false ∧ line.lines.leakIn = true ∧ (line.zone 3).state.latched = false ∧
      (after .softReset line).sru.profile.leakLineZone = some 3 ∧
      ((after .softReset line).zone 3).cfg = some ⟨2, true, true, true⟩ := by decide +kernel

theorem witness_ResetInHolds : (after .resetInAsserted (shelf .on)).lines.resetIn = true := by
  decide +kernel

/-- Each treatment of R17, R18 and R21 under ack_window 4 and retry_limit 3: a record to send, one settled,
one that waits, one sent again, one given up and one above the limit; a NO_ACK for a branch that is ON and
one in FAULT. -/
theorem witness_CycleStartTreatsControls :
    let r := fun live aw since used => OutRecord.mk (some 1) live 3 aw since used (some .bcu) true (some 9) false
    (∀ x, (withOut x (shelf .on)).calm ∧ (withOut x (shelf .on)).slc.written =
      (withOut x (shelf .on)).slc.active) ∧
      entry (shelf .on).slc.active 40 = some (.output 23) ∧
      ((shelf .on).sru.profile.ackWindow, (shelf .on).sru.profile.retryLimit) = (4, 3) ∧
      (∀ x : OutRecord, entry (withOut x (shelf .on)).slc.out 40 = some x) ∧
      ([r (some 0) true 0 0, r (some 1) false 0 0, r (some 1) true 2 0, r (some 1) true 3 2,
        r (some 1) true 3 3, r (some 1) true 3 4].map fun x =>
          ((entry (after .cycleStart (withOut x (shelf .on))).slc.out 40).map fun y =>
              (y.live, y.awaiting, y.cyclesSince, y.retries),
            (after .cycleStart (withOut x (shelf .on))).slc.noAcks)) =
        [(some (some 1, true, 0, 0), 0), (some (some 1, false, 0, 0), 0),
          (some (some 1, true, 3, 0), 0), (some (some 1, true, 0, 3), 0),
          (some (none, false, 4, 3), 1), (some (none, false, 4, 4), 1)] ∧
      ((shelf .on).branch 9).map (fun x => (x.cfg.node, x.state)) = some (23, .on) ∧
      ((shelf .fault).branch 9).map (·.state) = some .fault ∧ (shelf .on).branch 10 = none :=
  ⟨fun _ => ⟨calm_of rfl, rfl⟩, by decide +kernel, rfl, fun _ => rfl, by decide +kernel,
    by decide +kernel⟩

/-- The map gains an IN entry in slot 95 and an OUT entry in slot 2, loses slot 41 and keeps slot 0. -/
theorem witness_CycleStartActivatesMap :
    let d := shelf .on
    let w := (((slots.set 95 (some (.input 62 .rmTemp none))).set 2 (some (.output 7))).set 41 none)
    let e : Part := { d with slc := { d.slc with written := w } }
    e.calm ∧ e.tlf.channels.length = 96 ∧ e.slc.out.length = 96 ∧
      entry e.slc.written 95 = some (.input 62 .rmTemp none) ∧
      entry e.slc.written 41 ≠ entry e.slc.active 41 ∧
      entry e.slc.written 0 = entry e.slc.active 0 :=
  ⟨calm_of rfl, by decide +kernel, by decide +kernel, by decide +kernel, by decide +kernel,
    by decide +kernel⟩

/-- A miss count that reaches stale_limit 20 and one that does not; a node at node_silence and one before it. -/
theorem witness_CycleEndNoticesAndSilence :
    let d := shelf .on
    d.calm ∧ d.tlf.channels.length = 96 ∧ d.slc.nodes.length = 62 ∧
      (paramsOf d .bmEnergy (some 12)).staleLimit = satInc 19 ∧ satInc 18 < 20 ∧
      d.sru.profile.nodeSilence = ((d.slc.cycle : Cycle) - 0).toNat ∧
      ((d.slc.cycle : Cycle) - 1).toNat < d.sru.profile.nodeSilence :=
  ⟨shelf_calm _, by decide +kernel, by decide +kernel, by decide +kernel, by decide, by decide +kernel,
    by decide +kernel⟩

/-- A failed check, quality code 3, another node, another kind, an OUT slot and an empty slot. -/
theorem witness_CellsNotAccepted :
    (shelf .on).running ∧ (shelf .on).linesFollow ∧
      entry (shelf .on).slc.active 30 = some (.input 23 .brPower (some 7)) ∧
      crc8 [23, 7, hiByte 3450, loByte 3450, 0] ≠ 0xC9 ∧
      Quality.ofCode ((0xC0 : Byte) >>> 6).toNat = none ∧
      Quality.ofCode ((0x80 : Byte) >>> 6).toNat ≠ none ∧
      (22 : Byte).toNat ≠ 23 ∧ (8 : Byte).toNat ≠ ChannelKind.brPower.code ∧
      entry (shelf .on).slc.active 40 = some (.output 23) ∧ entry (shelf .on).slc.active 95 = none :=
  ⟨shelf_running _, shelf_lines, by decide +kernel⟩

/-- A GOOD sample with the transmitter busy, and 127 and 128 records queued. -/
theorem witness_CellAccepted :
    let c : InCell := ⟨23, 7, 3450, 0, 0xC8⟩
    let d := fun n => { withRlp (fun r => { r with tx := some (.batch 0 []) }) (shelf .on) with
      tlf := { (shelf .on).tlf with queue := List.replicate n (sample 0) } }
    (∀ n, (d n).calm ∧ (d n).rlp.tx = some (.batch 0 [])) ∧ 1 ≤ 23 ∧
      23 ≤ (d 127).slc.nodes.length ∧
      entry (d 127).slc.active 30 = some (.input 23 .brPower (some 7)) ∧
      entry (d 127).tlf.channels 30 = some ⟨.unseen, none, none, none, 0, 0⟩ ∧
      crc8 [c.node, c.kind, hiByte c.value, loByte c.value, c.status] = c.check ∧
      Quality.ofCode (c.status >>> 6).toNat = some .good ∧ c.node.toNat = 23 ∧
      c.kind.toNat = ChannelKind.brPower.code ∧
      (d 127).tlf.queue.length < 128 ∧ ¬ (d 128).tlf.queue.length < 128 :=
  ⟨fun _ => ⟨calm_of rfl, rfl⟩, by decide +kernel⟩

/-- An awaiting record of slot 40 and one that awaits none, under a GOOD and an INVALID echo of node 23 in
slot 12; a NODE PASS to node 23 that waits for it, and one to node 4. -/
theorem witness_StatusCellAcknowledges :
    let c : InCell := ⟨23, 8, 2, 3, 0x88⟩
    let bad : InCell := ⟨23, 8, 2, 0x43, crc8 [23, 8, 0, 2, 0x43]⟩
    let r : OutRecord := ⟨some 1, some 1, 3, true, 0, 1, some .rlp, true, none, false⟩
    let d := withRlp (fun p => { p with phase := .passing 23, requests := [⟨20, .nodePass 23 1⟩] })
      (withOut r (shelf .on))
    let live := { withOut r (shelf .on) with slc := { (withOut r (shelf .on)).slc with
      nodes := (shelf .on).slc.nodes.set 22 ⟨.live, some 90⟩ } }
    (withOut r (shelf .on)).calm ∧ live.calm ∧
      entry (withOut r (shelf .on)).slc.active 12 = some (.input 23 .brStatus none) ∧
      crc8 [c.node, c.kind, hiByte c.value, loByte c.value, c.status] = c.check ∧
      Quality.ofCode (c.status >>> 6).toNat = some .good ∧ c.node.toNat = 23 ∧
      c.kind.toNat = ChannelKind.brStatus.code ∧
      (withOut r (shelf .on)).outSlot 23 = some 40 ∧
      entry (withOut r (shelf .on)).slc.out 40 = some r ∧
      entry (withOut { r with awaiting := false } (shelf .on)).slc.out 40 =
        some { r with awaiting := false } ∧
      Quality.ofCode (bad.status >>> 6).toNat = some .invalid ∧
      bad.status.extractLsb' 0 2 = r.seq ∧ (live.nodeRecord 23).state = .live ∧
      (live.lines.valveOut, live.lines.alertOut) = (valveLevel live, alertLevel live) ∧
      d.rlp.phase = .passing 23 ∧ d.rlp.detail = none ∧ d.rlp.responses.length < 8 ∧
      r.staged = r.live ∧ r.owed = true ∧ r.lastWriter = some .rlp ∧
      (let other := withRlp (fun p => { p with
        phase := .passing 4, requests := [⟨20, .nodePass 4 1⟩], detail := none }) live
      (other.lines.valveOut, other.lines.alertOut) = (valveLevel other, alertLevel other) ∧
        (4 : Nat) ≠ 23) :=
  ⟨calm_of rfl, calm_of rfl, by decide +kernel⟩

/-- Each test of R28 at the value that just passes it, with and without hysteresis (entries of 2.9). -/
theorem witness_RawClassRule :
    (∃ x, limit7.highTrip = some x ∧ (3401 : Int) > x) ∧
      (∃ x, limit7.highTrip = some x ∧ ¬ (3201 : Int) > x ∧ (3201 : Int) > x - limit7.hysteresis) ∧
      (∃ x, limit7.highWarn = some x ∧ (3001 : Int) > x) ∧
      (∃ x, limit12.lowTrip = some x ∧ (599 : Int) < x) ∧
      (∃ x, limit12.lowTrip = some x ∧ ¬ (649 : Int) < x ∧ (649 : Int) < x + limit12.hysteresis) ∧
      (∃ x, limit12.lowWarn = some x ∧ (999 : Int) < x) ∧
      (∃ x, limit12.lowWarn = some x ∧ ¬ (1000 : Int) < x) :=
  ⟨⟨3400, rfl, by decide⟩, ⟨3400, rfl, by decide, by decide⟩, ⟨3000, rfl, by decide⟩,
    ⟨600, rfl, by decide⟩, ⟨600, rfl, by decide, by decide⟩, ⟨1000, rfl, by decide⟩,
    ⟨1000, rfl, by decide⟩⟩

/-- 2.9.1, cycles 104 to 106: two samples of three and all three; then a sample to a STALE channel, one of the
present class and one of a third class. -/
theorem witness_PersistenceRun :
    let p : Params := ⟨some limit7, 3, 50, .delta, 100, .branchTrip⟩
    let x : ChannelState := ⟨.normal, none, none, none, 0, 0⟩
    let vs : List Int := [3500, 3480, 3450]
    (x.cls ≠ .stale ∧ ChanClass.tripHigh ≠ x.cls ∧ x.candidate = none ∧ 1 ≤ p.persistence ∧
      (∀ v ∈ vs, rawClass p.limits x.cls v = .tripHigh) ∧ vs ≠ [] ∧ vs.length = p.persistence ∧
      (vs.take 2).length < p.persistence) ∧
    { x with cls := .stale }.cls = .stale ∧ rawClass p.limits x.cls 100 = x.cls ∧
      some .tripHigh ≠ some (rawClass p.limits x.cls 3100) ∧ rawClass p.limits x.cls 3100 ≠ x.cls ∧
      2 ≤ p.persistence := by decide +kernel

/-- A limit reference to an empty entry, to one read by a numeric kind and by a status kind; the four modes,
DELTA at its deadband; 127 and 128 records. -/
theorem witness_ForwardingRules :
    let d := withRlp (fun r => { r with tx := some (.batch 0 []) }) (shelf .on)
    entry d.tlf.limits 47 = none ∧ entry d.tlf.limits 7 = some limit7 ∧
      ChannelKind.brPower ∈ [ChannelKind.rmInVolt, .rmOutPower, .rmTemp, .bmEnergy, .bmPower,
        .brPower, .lkLevel] ∧
      ChannelKind.generic ∈ [ChannelKind.rmStatus, .bmStatus, .brStatus, .generic] ∧
      limit7.forward = .delta ∧ limit12.forward = .onClass ∧
      ((500 : Int) ≥ 400 + 100 ∧ ¬ ((499 : Int) ≥ 400 + 100 ∨ (499 : Int) ≤ 400 - 100)) ∧
      d.rlp.tx = some (.batch 0 []) ∧ (List.replicate 127 (sample 0)).length < 128 ∧
      128 ≤ (List.replicate 128 (sample 0)).length := by decide +kernel

/-- Node 23 is a switch node; node 4 is none and has an OUT entry. The third high sample of 2.9.1 enters
TRIP_HIGH, with its event and its action; each class of R36 entered from another. -/
theorem witness_ClassChangeActs :
    let d := withChannel 30 ⟨.normal, some 3480, some 3500, some .tripHigh, 2, 0⟩ (shelf .on)
    let x : ChannelState := ⟨.normal, some 3480, some 3500, some .tripHigh, 2, 0⟩
    let p := paramsOf d .brPower (some 7)
    d.bcu.branches.length = 36 ∧ d.branchAt 23 = some 9 ∧ (d.branch 9).isSome = true ∧
      d.branchAt 4 = none ∧ d.outSlot 4 = some 41 ∧ (entry d.slc.out 41).isSome = true ∧
      entry d.tlf.channels 30 = some x ∧ (classify p x 3450).2 = true ∧
      (classify p x 3450).1.cls = .tripHigh ∧ limitEvent .normal .tripHigh = some .limitTrip ∧
      p.action ≠ .never ∧ d.rlp.events.length < 64 ∧
      (ChanClass.normal ≠ .unseen ∧ ChanClass.stale = .stale) := by decide +kernel

/-- A timer that runs in the state it times, one that is stopped, and one that runs in another state. -/
theorem witness_BranchTimerExpiryFaults :
    let f := fun s => withBranch9 (fun x => { x with timer := .running 0 }) (shelf s)
    (f .admitting).calm ∧ ((f .admitting).branch 9).map (fun x => (x.timer, x.state)) =
        some (.running 0, .admitting) ∧
      (f .stopping).calm ∧ ((f .stopping).branch 9).map (fun x => (x.timer, x.state)) =
        some (.running 0, .stopping) ∧
      (f .on).calm ∧ valveLevel (f .on) = (f .on).lines.valveOut ∧
      ((f .on).branch 9).map (·.state) = some .on ∧
      ((shelf .on).branch 9).map (·.timer) = some .stopped :=
  ⟨calm_of rfl, by decide +kernel, calm_of rfl, by decide +kernel, calm_of rfl, by decide +kernel⟩

/-- The head of the Admission Queue, rated `w`, with the spacing timer in state `t` and a capacity of 7,000 W
of which 300 W is overhead; readiness is switched off. -/
def waiting (w : Nat) (t : Timer) : Part :=
  let d := withSru (fun u => { u with profile := { u.profile with readinessGate := false } })
    (withBranch9 (fun x => { x with cfg := { x.cfg with ratedW := w } }) (shelf .queued))
  { d with bcu := { d.bcu with queue := [9], spacing := t } }

/-- An attempt with capacity at its bound on both sides, with readiness off and with U and P present (5.10.2:
2,400 W passes, 5,000 W fails); an expiry with a head that just fits, one that just does not, and an empty
queue. -/
theorem witness_AdmissionAttempts :
    let d := waiting 6700 .stopped
    let e := waiting 6700 (.running 0)
    let large := waiting 6701 (.running 0)
    (d.bcu.queue = [9] ∧ d.sru.source = .onAc ∧ d.bcu.spacing = .stopped ∧
      (d.branch 9).map (·.state) = some .queued ∧ committedLoad d + 6700 ≤ d.sru.capacity ∧
      d.sru.profile.readinessGate = false ∧ d.outSlot 23 = some 40 ∧
      (entry d.slc.out 40).isSome = true ∧
      d.sru.capacity < committedLoad (waiting 6701 .stopped) + 6701 ∧
      (profile5.tReqS * (1000 + profile5.marginPm) + 999) / 1000 ≤
        min 65535 (12420 * 360 / (18000 + 2400)) ∧
      min 65535 (12420 * 360 / (18000 + 5000)) <
        (profile5.tReqS * (1000 + profile5.marginPm) + 999) / 1000) ∧
    e.calm ∧ large.calm ∧ large.linesFollow ∧ (shelf .on).bcu.queue = [] ∧
      (committedLoad e + 6700 ≤ 7000 ∧ ready e 6700 = true ∧ 0 < e.sru.profile.spacingMs ∧
      e.sqe.run ≠ .running ∧ e.outSlot 23 = some 40 ∧ (entry e.slc.out 40).isSome = true ∧
      7000 < committedLoad large + 6701) :=
  ⟨by decide +kernel, calm_of rfl, calm_of rfl, by unfold Part.linesFollow; decide +kernel, rfl,
    by decide +kernel⟩

/-- Branches 0 and 35 are the ends of the range; the actions are 0, 1 and 2. Under a running spacing timer:
OFF of a QUEUED branch and of one that is ON, ON of an OFF branch without a demand, and a branch in FAULT. -/
theorem witness_BranchRequestActs :
    let idle := withBranch9 (fun x => { x with demands := ⟨false, false⟩ }) (waiting 0 (.running 9))
    ((shelf .on).ready ∧ (waiting 0 (.running 9)).ready) ∧ (9 : Word).toNat < 36 ∧
      ((shelf .on).branch 9).isSome = true ∧ (2 : Word).toNat ≤ 2 ∧ (35 : Word).toNat < 36 ∧
      (waiting 0 (.running 9)).sqe.run ≠ .running ∧ (waiting 0 (.running 9)).bcu.spacing ≠ .stopped ∧
      ((waiting 0 (.running 9)).branch 9).map (fun x => (x.state, x.holds.any)) = some (.queued, false) ∧
      ((shelf .on).branch 9).map (fun x => (x.state, x.holds.any)) = some (.on, false) ∧
      (shelf .on).outSlot 23 = some 40 ∧ (entry (shelf .on).slc.out 40).isSome = true ∧
      ((withBranch9 (fun x => { x with state := .off }) idle).branch 9).map
        (fun x => (x.state, x.wanted)) = some (.off, false) ∧
      ((withBranch9 (fun x => { x with state := .off }) (waiting 0 (.running 9))).branch 9).map
        (fun x => (x.state, x.holds.any)) = some (.off, false) ∧
      ((shelf .fault).branch 9).map (·.state) = some .fault :=
  ⟨⟨shelf_ready _, ready_of rfl rfl (by decide +kernel)⟩, by decide +kernel⟩

/-- A branch in FAULT with a demand and no hold but TRIP, and one that is also held by FORCE_OFF. -/
theorem witness_BranchClearActs :
    (shelf .fault).ready ∧ ((shelf .fault).branch 9).map (fun x => (x.state, x.demands.seq, x.holds.any)) =
        some (.fault, true, false) ∧
      ((withBranch9 (fun x => { x with holds := ⟨false, false, false, true⟩ }) (shelf .fault)).branch
        9).map (fun x => (x.state, x.holds.forceOff)) = some (.fault, true) :=
  ⟨shelf_ready _, by decide +kernel⟩

/-- Branch 9 in each of the seven states, wanted and held, with an Outbound Slot record. -/
theorem witness_SwitchReadingTable :
    (∀ s ∈ [BranchState.unknown, .off, .queued, .admitting, .on, .stopping, .fault],
      ((shelf s).branch 9).map (·.state) = some s) ∧
      (shelf .unknown).outSlot 23 = some 40 ∧ (entry (shelf .unknown).slc.out 40).isSome = true ∧
      ((shelf .stopping).branch 9).map (·.wanted) = some true ∧
      ((withBranch9 (fun x => { x with holds := ⟨true, false, false, false⟩ }) (shelf .stopping)).branch
        9).map (·.wanted) = some false := by decide +kernel

/-- A GOOD BR_STATUS cell with each code, of the LIVE node 23, while the spacing timer runs and no run is under
way; the branch is ON and reads OFF without a record discarded. -/
theorem witness_SwitchReadingTable_cell :
    let d := withLive 23 99 { shelf .on with bcu := { (shelf .on).bcu with spacing := .running 9 } }
    d.calm ∧ entry d.slc.active 12 = some (.input 23 .brStatus none) ∧
      ((List.range 4).all fun n =>
        let c := cellOf 23 .brStatus (BitVec.ofNat 16 n) 0
        crc8 [c.node, c.kind, hiByte c.value, loByte c.value, c.status] == c.check &&
          Quality.ofCode (c.status >>> 6).toNat == some .good && c.node.toNat == 23 &&
          c.kind.toNat == ChannelKind.brStatus.code &&
          decide (sampleOf .brStatus .good c.value = .good n)) = true ∧
      (d.nodeRecord 23).state = .live ∧ d.branchAt 23 = some 9 ∧ d.sqe.run ≠ .running ∧
      d.bcu.spacing ≠ .stopped ∧ d.rlp.eventOverflow < 65535 ∧
      (after (.cellReceive 12 (cellOf 23 .brStatus 0 0)) d).rlp.eventOverflow = d.rlp.eventOverflow :=
  ⟨calm_of rfl, by decide +kernel⟩

/-- Branch 9 is OFF and carries SHED, and its tier 7 is in no shed set any more. -/
theorem witness_ReleaseToFront :
    let d := withBranch9 (fun x => { x with holds := ⟨false, false, true, false⟩ }) (shelf .off)
    d.bcu.branches.length = 36 ∧ d.bcu.branches.all (fun e => match e with
        | some x => decide (x.cfg.tier < 8)
        | none => true) = true ∧
      (d.branch 9).map (fun x => (x.state, x.holds.shed, x.demands.any)) = some (.off, true, true) ∧
      d.sru.shed.getLsbD 7 = false := by decide +kernel

/-! ### The source -/

/-- The shelf in source state `x` with its two rectifiers in state `r`. -/
def inSource (x : SourceState) (r : RectState) : Part :=
  refreshLines (withSru (fun u => { u with
    source := x, qualTimer := .running 0, stableTimer := .running 0, capTimer := .running 0
    rects := table 8 [(0, ⟨1, 7000, r⟩), (1, ⟨2, 7000, r⟩)] }) (shelf .on))

theorem inSource_lines (x : SourceState) (r : RectState) : (inSource x r).linesFollow := ⟨rfl, rfl⟩
theorem inSource_calm (x : SourceState) (r : RectState) : (inSource x r).calm := calm_of rfl

/-- Every source state; min_rect 1 met by two OK rectifiers and by none; room for the event. -/
theorem witness_AcfailInChangeActs :
    (∀ x, (inSource x .ok).calm ∧ (inSource x .ok).linesFollow ∧ (inSource x .ok).sru.source = x) ∧
      (inSource .onBattery .ok).sru.profile.minRect ≤ (okRatings (inSource .onBattery .ok)).length ∧
      ¬ (inSource .onBattery .fault).sru.profile.minRect ≤ (okRatings (inSource .onBattery .fault)).length ∧
      (∃ r ∈ validRects (inSource .onAc .ok), r.state = .ok) ∧
      (inSource .onAc .ok).rlp.events.length + 37 ≤ 64 :=
  ⟨fun x => ⟨inSource_calm _ _, inSource_lines _ _, rfl⟩, by decide +kernel, by decide +kernel,
    ⟨⟨1, 7000, .ok⟩, by decide +kernel, rfl⟩, by decide +kernel⟩

/-- A decision with AC good and without, and none with no valid rectifier; a restore, and an expiry that does
nothing. -/
theorem witness_SourceTimersExpire :
    let d := inSource .unknown .ok
    let r := inSource .returnPending .ok
    (d.calm ∧ r.calm ∧ (inSource .onAc .ok).linesFollow) ∧
      (d.sru.source = .unknown ∧ d.sru.qualTimer = .running 0 ∧ validRects d ≠ [] ∧
      d.lines.acfailIn = false ∧ 1 ≤ (okRatings d).length ∧
      (okRatings (inSource .unknown .inputFail)).length < 1 ∧ d.rlp.events.length + 38 ≤ 64 ∧
      validRects (withSru (fun u => { u with rects := List.replicate 8 none }) d) = []) ∧
      r.sru.source = .returnPending ∧ r.sru.stableTimer = .running 0 ∧
      r.rlp.events.length + 2 ≤ 64 ∧ (inSource .onAc .ok).sru.source ≠ .returnPending :=
  ⟨⟨inSource_calm _ _, inSource_calm _ _, inSource_lines _ _⟩, by decide +kernel⟩

/-- 11.4: 14,500 W over a capacity of 12,000 W, and not over one of 14,500 W. -/
theorem witness_CapacityExpirySheds :
    let d := fun c => withSru (fun u => { u with capacity := c, capTimer := .running 0 })
      (loaded 1500 2000 10700 (shelf .on))
    (d 12000).calm ∧ (d 12000).sru.capTimer = .running 0 ∧ (d 12000).sru.source = .onAc ∧
      (d 12000).sru.capacity < load (d 12000) ∧ load (d 14500) ≤ (d 14500).sru.capacity ∧
      (d 14500).linesFollow ∧ (d 12000).rlp.events.length + 8 ≤ 64 :=
  ⟨calm_of rfl, rfl, rfl, by decide +kernel, by decide +kernel,
    by unfold Part.linesFollow; decide +kernel, by decide +kernel⟩

/-- 5.10.1: tiers 7 and 6 meet the goal of 185 s, and tier 7 alone does not. -/
theorem witness_TierSelection :
    let part := fun k => if k = 7 then 3200 else if k = 6 then 4100 else 0
    let goal := fun q => decide (185 ≤ seconds 12420 q)
    (selectTiers goal 1 0 part [7, 6, 5, 4, 3, 2, 1] 29000) = ([7, 6], 21700, true) ∧
      goal 25800 = false ∧
      (selectTiers (fun _ => false) 1 0xC0 part [7, 6, 5, 4, 3, 2, 1] 100).2.2 = false := by
  decide +kernel

/-- The shelf of 5.10.1 with a module that reads `e`, in battery state `b`. -/
def onBattery (e : Int) (b : BattState) : Part :=
  withSru (fun u => { u with
      source := .onBattery, tBatt := 12400, profile := profile5, batts := table 6 [(0, ⟨41, b⟩)] })
    (loaded 3200 4100 21100 (withChannel 55 ⟨.normal, some e, none, none, 0, 0⟩ (shelf .on)))

theorem witness_EvaluationPublishes :
    (shelf .on).calm ∧ (shelf .on).sru.evalTimer = .running 20 ∧ (shelf .on).sru.source = .onAc ∧
      (onBattery 14000 .online).calm ∧ (onBattery 14000 .online).sru.evalTimer = .running 20 ∧
      (onBattery 14000 .stale).sru.batts = table 6 [(0, ⟨41, .stale⟩)] :=
  ⟨shelf_calm _, rfl, rfl, calm_of rfl, rfl, rfl⟩

/-- A shed that is due (154 s of 185 s) and one that is not; a depletion with U at 0 and a shed due, and one
with every tier from 1 shed already; the same in AC_RETURN_PENDING, and an evaluation in DEPLETED; a hold-
up at warn_s and one above it; a goal that no shed meets. -/
theorem witness_EvaluationSheds :
    let seconds := fun d => min 65535 (usableEnergy d * 360 / load d)
    let d := onBattery 14000 .online
    let full := withSru (fun u => { u with battShed := 0xFE }) (onBattery 501 .online)
    let back := withSru (fun u => { u with source := .returnPending }) (onBattery 500 .empty)
    let done := withSru (fun u => { u with source := .depleted, depletedFlag := true, battShed := 0xFF })
      (onBattery 500 .empty)
    (d.calm ∧ full.calm ∧ back.calm ∧ done.calm) ∧
      (d.sru.evalTimer = .running 20 ∧ d.sru.source = .onBattery ∧ holdsEnergy d = false ∧
      d.sru.battShed &&& 0xFE#8 ≠ 0xFE#8 ∧ seconds d < goalOf d) ∧
      goalOf (onBattery 32767 .online) ≤ seconds (onBattery 32767 .online) ∧
      (usableEnergy (onBattery 501 .online) = 0 ∧ holdsEnergy (onBattery 501 .online) = false ∧
        seconds (onBattery 501 .online) < goalOf (onBattery 501 .online)) ∧
      (usableEnergy full = 0 ∧ full.sru.battShed &&& 0xFE#8 = 0xFE#8) ∧
      (back.sru.depletedFlag = false ∧ (∀ b ∈ validBatts back, b.state ≠ .online) ∧
        back.sru.profile.minRect ≤ (okRatings back).length) ∧
      done.sru.source = .depleted ∧
      (seconds (onBattery 501 .online) ≤ 30 ∧ 30 < seconds d ∧ d.sru.profile.warnS = 30 ∧
        d.sru.holdupPosted = false ∧ d.sru.deficitPosted = false) ∧
      (selectTiers (fun q => decide (185 ≤ min 65535 (0 * 360 / q))) 1 0
        (tierLoad (onBattery 501 .online)) [7, 6, 5, 4, 3, 2, 1] 29000).2.2 = false ∧
      d.rlp.events.length + 46 ≤ 64 :=
  ⟨⟨calm_of rfl, calm_of rfl, calm_of rfl, calm_of rfl⟩, by decide +kernel⟩

/-- Two ratings, of which the largest is counted once; min_rect at its least value and above the number OK; a
node not heard, and one at each code of RM_STATUS; a battery at its floor, above it and not heard; a state
that a derivation changes and one that it keeps. -/
theorem witness_ModulesAndCapacity :
    let heard := fun (node : Nat) (d : Part) =>
      { d with slc := { d.slc with nodes := d.slc.nodes.set (node - 1) ⟨.live, some 90⟩ } }
    let rm := fun v => heard 1 (withChannel 0 ⟨.unclassified, some v, none, none, 0, 0⟩ (shelf .on))
    let bm := fun e => heard 41 (withChannel 55 ⟨.normal, some e, none, none, 0, 0⟩ (shelf .on))
    (((shelf .on).sru.rects.filterMap id).map Rectifier.ratedW = [7000, 7000] ∧
      (shelf .on).sru.profile.redundancy = .nPlusOne ∧ (∀ n ∈ [7000, 7000], n ≤ 7000) ∧
      1 ≤ (shelf .on).sru.profile.minRect ∧ (shelf .on).lines.acfailIn = false ∧
      0 < [7000].length ∧ [7000].length < 2) ∧
    ([0, 1, 2, 3].map fun v => rectStateOf 1 (rm v)) = [.ok, .inputFail, .fault, .standby] ∧
      rectStateOf 1 (shelf .on) = .absent ∧ battStateOf 41 (shelf .on) = .absent ∧
      (battStateOf 41 (bm 0), battStateOf 41 (bm 1)) = (.empty, .online) ∧
      entry (rm 2).sru.rects 0 = some ⟨1, 7000, .ok⟩ ∧ entry (bm 0).sru.batts 0 = some ⟨41, .online⟩ ∧
      (rm 2).rlp.events.length < 64 := by decide +kernel

/-- A GOOD RM_STATUS and an INVALID BR_STATUS cell of nodes not heard; an RM_STATUS channel one notice before
STALE; node 1 of rectifier 0 and node 41 of battery 0 not heard for node_silence cycles. No record is
discarded. -/
theorem witness_ModulesAndCapacity_commands :
    let d := withChannel 0 ⟨.unclassified, some 0, none, none, 0, 99⟩ (shelf .on)
    let old := fun n => withLive n 0 (shelf .on)
    let ok := cellOf 1 .rmStatus 0 0
    let bad := cellOf 23 .brStatus 0 0x40
    let kept := fun c (d : Part) => decide (d.rlp.eventOverflow < 65535 ∧
      (after c d).rlp.eventOverflow = d.rlp.eventOverflow)
    ((shelf .on).calm ∧ d.calm ∧ ∀ n, (old n).calm) ∧
      entry d.slc.active 0 = some (.input 1 .rmStatus none) ∧
      entry d.slc.active 12 = some (.input 23 .brStatus none) ∧
      [ok, bad].map (fun (c : InCell) => (crc8 [c.node, c.kind, hiByte c.value, loByte c.value, c.status] == c.check,
        Quality.ofCode (c.status >>> 6).toNat, c.node.toNat, c.kind.toNat)) =
        [(true, some .good, 1, ChannelKind.rmStatus.code),
          (true, some .invalid, 23, ChannelKind.brStatus.code)] ∧
      ChannelKind.rmStatus.isModule = true ∧ (entry d.tlf.channels 0).isSome = true ∧
      sampleOf .rmStatus .good 0 = .good 0 ∧ (d.nodeRecord 23).state ≠ .live ∧
      0 ∉ d.slc.satisfied ∧ (paramsOf d .rmStatus none).staleLimit = satInc 99 ∧
      (old 1).nodeRecord 1 = ⟨.live, some 0⟩ ∧ (old 41).nodeRecord 41 = ⟨.live, some 0⟩ ∧
      d.sru.profile.nodeSilence = ((d.slc.cycle : Cycle) - 0).toNat ∧
      entry d.sru.rects 0 = some ⟨1, 7000, .ok⟩ ∧ entry d.sru.batts 0 = some ⟨41, .online⟩ ∧
      (kept (.cellReceive 0 ok) d, kept .cycleEnd d, kept .cycleEnd (old 1)) = (true, true, true) :=
  ⟨⟨shelf_calm _, calm_of rfl, fun _ => calm_of rfl⟩, by decide +kernel⟩

/-- A branch in each state, fresh and not; UNKNOWN since a reset, and by a change of its switch node; a GOOD
and an INVALID cell of BR_POWER. -/
theorem witness_LoadContributions :
    let w := fun s f m => load (withBranch9
      (fun x => { x with reading := some 700, fresh := f, moved := m }) (shelf s))
    let c : InCell := ⟨23, 7, 3450, 0, 0xC8⟩
    let bad : InCell := ⟨23, 7, 3450, 0x40, crc8 [23, 7, 0x0D, 0x7A, 0x40]⟩
    ((shelf .on).bcu.branches.length = 36 ∧
      (w .off true false, w .on true false, w .on false false, w .fault true false) =
        (300, 1000, 2300, 1000) ∧ (w .unknown true false, w .unknown true true) = (2300, 1000) ∧
      ((shelf .on).branch 9).map (fun x => (x.cfg.tier, x.holds.shed)) = some (7, false)) ∧
    (shelf .on).calm ∧ entry (shelf .on).slc.active 30 = some (.input 23 .brPower (some 7)) ∧
      (entry (shelf .on).tlf.channels 30).isSome = true ∧
      crc8 [c.node, c.kind, hiByte c.value, loByte c.value, c.status] = c.check ∧
      Quality.ofCode (c.status >>> 6).toNat = some .good ∧
      crc8 [bad.node, bad.kind, hiByte bad.value, loByte bad.value, bad.status] = bad.check ∧
      Quality.ofCode (bad.status >>> 6).toNat = some .invalid ∧ c.node.toNat = 23 ∧
      23 ≤ (shelf .on).slc.nodes.length ∧ c.kind.toNat = ChannelKind.brPower.code ∧
      (shelf .on).branchAt 23 = some 9 :=
  ⟨by decide +kernel, shelf_calm _, by decide +kernel⟩

theorem witness_ProjectedTime :
    1 ≤ 35000 ∧ 10450 * 360 / 35000 ≤ 65535 ∧ 65535 < 64000 * 360 / 300 ∧ 97 * 360 < 35000 := by decide

/-! ### The run -/

/-- Refused in RUNNING and outside ON_AC; accepted with and without a latched, unacknowledged zone; step 0 a
DELAY, an END and empty. -/
theorem witness_SequenceStartActs :
    (shelf .on).ready ∧ (shelf .on).sqe.run ≠ .running ∧ (shelf .on).sqe.run ≠ .suspended ∧
      (shelf .on).sru.source = .onAc ∧ (shelf .on).lkm.zones.any Zone.suspends = false ∧
      (entry (shelf .on).sqe.steps 0).map (fun e => (e.kind, e.timeMs)) = some (.delay, 500) ∧
      (entry (shelf .on).sqe.steps 1).map (·.kind) = some .endRun ∧
      entry (shelf .on).sqe.steps 2 = none ∧
      (withZone3 .isolated false (shelf .on)).ready ∧
      (withZone3 .isolated false (shelf .on)).lkm.zones.any Zone.suspends = true :=
  ⟨shelf_ready _, by decide +kernel, by decide +kernel, rfl, by decide +kernel, by decide +kernel,
    by decide +kernel, by decide +kernel, ready_of rfl rfl (by decide +kernel), by decide +kernel⟩

/-- Step 0 of group 1, of which branch 9 is the one member, and END at entry 1: ENABLE_GROUP with the branch
OFF under a running spacing timer and with it in FAULT; WAIT_GOOD with it QUEUED, in FAULT under both
policies and ON; DISABLE_GROUP and CHECKPOINT. -/
theorem witness_SequenceStartActs_kinds :
    let first := fun e s => withSqe (fun q => { q with
      steps := table 64 [(0, e), (1, SeqStep.mk .endRun 0 0 .halt 0)] }) (shelf s)
    let spaced := fun (d : Part) => { d with bcu := { d.bcu with spacing := .running 9 } }
    let ran := fun e s => ((after (.sequenceStart 7) (spaced (first e s))).sqe.run,
      (after (.sequenceStart 7) (spaced (first e s))).sqe.index)
    (∀ e s, (spaced (first e s)).ready ∧ (spaced (first e s)).bcu.spacing ≠ .stopped ∧
      (spaced (first e s)).sru.source = .onAc ∧ (spaced (first e s)).sqe.run = .idle) ∧
      (spaced (first ⟨.checkpoint, 0, 0, .halt, 5⟩ .on)).lkm.zones.any Zone.suspends = false ∧
      [ran ⟨.enableGroup, 1, 9, .halt, 0⟩ .off, ran ⟨.enableGroup, 1, 9, .halt, 0⟩ .fault,
        ran ⟨.waitGood, 1, 9, .halt, 0⟩ .queued, ran ⟨.waitGood, 1, 9, .halt, 0⟩ .fault,
        ran ⟨.waitGood, 1, 9, .skip, 0⟩ .fault, ran ⟨.waitGood, 1, 9, .halt, 0⟩ .on,
        ran ⟨.disableGroup, 1, 0, .halt, 0⟩ .on, ran ⟨.checkpoint, 0, 0, .halt, 5⟩ .on] =
      [(.running, 0), (.done, 1), (.running, 0), (.halted, 0), (.done, 1), (.done, 1), (.done, 1),
        (.done, 1)] ∧ (shelf .on).rlp.events.length + 38 ≤ 64 :=
  ⟨fun _ _ => ⟨ready_of rfl rfl (Nat.zero_lt_succ 7), Timer.noConfusion, rfl, rfl⟩, by decide +kernel, by decide +kernel,
    by decide +kernel⟩

/-- The run in state `r` at step 0, a DELAY, with the causes `c`. -/
def atStep (r : RunState) (c : Causes) : Part :=
  withSqe (fun q => { q with run := r, phase := .active, timer := .running 40, causes := c }) (shelf .on)

theorem atStep_ready (r : RunState) (c : Causes) : (atStep r c).ready :=
  ready_of rfl rfl (by simp [atStep, withSqe, shelf, Part.powerOn, Rlp.powerOn])

/-- Every run state under every cause; a DELAY that had begun; an ABORT of a HALTED run, and one refused. -/
theorem witness_SequenceRequestsAct :
    (∀ r c, (atStep r c).ready ∧ (atStep r c).sqe.run = r ∧ (atStep r c).sqe.causes = c) ∧
      (entry (atStep .suspended ⟨false, true, false⟩).sqe.steps 0).map (·.kind) = some .delay ∧
      (atStep .suspended ⟨false, true, false⟩).sqe.phase = .active ∧
      (atStep .running ⟨false, false, false⟩).rlp.events.length < 64 ∧
      (RunState.halted ≠ .idle ∧ RunState.halted ≠ .done) :=
  ⟨fun r c => ⟨atStep_ready r c, rfl, rfl⟩, by decide +kernel⟩

/-- A DELAY before END, before another DELAY, and at entry 63; a WAIT_GOOD and an ENABLE_GROUP under HALT. -/
theorem witness_SequenceStepsAct :
    let at' := fun i es => withSqe (fun q => { q with
      run := .running, phase := .active, timer := .running 0, index := i, steps := table 64 es }) (shelf .on)
    let delay : SeqStep := ⟨.delay, 0, 500, .halt, 0⟩
    (∀ i es, (at' i es).calm ∧ (at' i es).sqe.run = .running ∧ (at' i es).sqe.timer = .running 0) ∧
      entry (at' 63 [(63, delay)]).sqe.steps 63 = some delay ∧
      entry (at' 62 [(62, delay), (63, delay)]).sqe.steps 63 = some delay ∧
      entry (at' 0 [(0, ⟨.waitGood, 1, 9, .halt, 0⟩)]).sqe.steps 0 = some ⟨.waitGood, 1, 9, .halt, 0⟩ ∧
      entry (at' 0 [(0, ⟨.enableGroup, 1, 9, .halt, 0⟩)]).sqe.steps 0 =
        some ⟨.enableGroup, 1, 9, .halt, 0⟩ ∧
      (shelf .on).linesFollow ∧ (shelf .on).sqe.run ≠ .running :=
  ⟨fun _ _ => ⟨calm_of rfl, rfl, rfl⟩, by decide +kernel, by decide +kernel, by decide +kernel,
    by decide +kernel, shelf_lines, by decide +kernel⟩

/-- An enrolled branch that is QUEUED, ON and in FAULT with its member counted; a SEQ holder in each of the
three; the rows of R122; a member that has SEQ as its last demand, one with CTRL too, and one OFF without
a demand. -/
theorem witness_SequenceStepsAct_members :
    let at' := fun s n => withSqe (fun q => { q with run := .running, phase := .active, faulted := n })
      (withBranch9 (fun x => { x with enrolling := some 0 }) (shelf s))
    let b := fun s => (shelf s).branch 9
    ((at' .queued 0).branch 9).map (fun x => (x.enrolling, x.state)) = some (some 0, .queued) ∧
      ((at' .on 0).branch 9).map (·.state) = some .on ∧ (at' .fault 1).sqe.faulted = 1 ∧
      (at' .fault 1).sqe.index < 63 ∧ (at' .on 0).rlp.events.length + 2 ≤ 64 ∧
      ([BranchState.queued, .off, .admitting, .on, .fault].map fun s =>
        ((sortMember 1 9 (at' s 0)).sqe.enrolled, (sortMember 1 9 (at' s 0)).sqe.alreadyOn,
          (sortMember 1 9 (at' s 0)).sqe.startSkipped)) =
        [(1, 0, 0), (1, 0, 0), (0, 1, 0), (0, 1, 0), (0, 0, 1)] ∧
      ((b .on).map fun x => (x.cfg.group, x.demands.seq, x.demands.ctrl, x.holds.any)) =
        some (1, true, false, false) ∧
      (shelf .on).outSlot 23 = some 40 ∧ (entry (shelf .on).slc.out 40).isSome = true ∧
      (([BranchState.queued, .on].map fun s => ((disableGroup 1 (shelf s)).branch 9).map (·.state)) =
        [some .off, some .stopping]) ∧
      ((withBranch9 (fun x => { x with holds := ⟨true, false, true, false⟩ }) (shelf .off)).branch
        9).map (fun x => (x.state, x.wanted)) = some (.off, false) ∧
      ((shelf .on).bcu.branches.filterMap id).length = 1 := by decide +kernel

/-! ### Leaks -/

/-- leak_line_zone names zone 3, which is valid and CLEAR; in the shelf it names none. -/
theorem witness_LeakInChangeActs :
    let d := withSru (fun u => { u with profile := { u.profile with leakLineZone := some 3 } }) (shelf .on)
    d.calm ∧ d.sru.profile.leakLineZone = some 3 ∧ 3 < d.lkm.zones.length ∧
      (d.zone 3).cfg = some ⟨2, true, true, true⟩ ∧ (d.zone 3).state.latched = false ∧
      d.sqe.run ≠ .running ∧ d.rlp.events.length + 2 ≤ 64 ∧ (shelf .on).linesFollow ∧
      (shelf .on).sru.profile.leakLineZone = none :=
  ⟨calm_of rfl, rfl, by decide +kernel, by decide +kernel, by decide +kernel, by decide +kernel,
    by decide +kernel, shelf_lines, rfl⟩

/-- An acknowledgement of a latched zone, and of an empty entry. Each answer of R147: an empty entry, a CLEAR
zone, an ALERT zone, a WET point, the line, and a dry zone. -/
theorem witness_LeakRequestsAct :
    let d := withZone3 .confirmed false (shelf .on)
    d.ready ∧ d.lkm.zones.length = 8 ∧ 8 ≤ (8 : Word).toNat ∧ (7 : Word).toNat < 8 ∧
      (d.zone 7).cfg = none ∧ (d.zone 3).cfg ≠ none ∧ (d.zone 3).acked = false ∧ d.sqe.run ≠ .running ∧
      ((shelf .on).zone 3).state = .clear ∧ ((withZone3 .alert false (shelf .on)).zone 3).state = .alert ∧
      (d.zone 3).state.latched = true ∧ wetCount 3 d = 0 ∧ d.lines.leakIn = false ∧
      d.rlp.events.length < 64 :=
  ⟨ready_of rfl rfl (by decide +kernel), by decide +kernel⟩

/-- Zone 3 confirmed with its point still counting dry, and with LEAK_IN asserted on it. -/
theorem witness_LeakRequestsAct_not_dry :
    let d := withZone3 .confirmed false (shelf .on)
    let wet := { d with lkm := { d.lkm with
      points := table 16 [(4, ⟨⟨6, 50, 3, 1200, 3900, 3⟩, .dryPending, 1⟩)] } }
    let line := { withSru (fun u => { u with profile := { u.profile with leakLineZone := some 3 } }) d with
      lines := { d.lines with leakIn := true } }
    (wet.ready ∧ (wet.zone 3).state.latched = true ∧ 0 < wetCount 3 wet) ∧
      line.ready ∧ (line.zone 3).state.latched = true ∧ line.lines.leakIn = true ∧
      line.sru.profile.leakLineZone = some 3 :=
  ⟨⟨ready_of rfl rfl (by decide +kernel), by decide +kernel⟩,
    ready_of rfl rfl (by decide +kernel), by decide +kernel⟩

/-- Zone 3 with one point, dry and wet: eff is 1, so one wet point confirms; with vote 2 over two points it
alerts. -/
theorem witness_ZoneExamination :
    let d := shelf .on
    3 < d.lkm.zones.length ∧ (d.zone 3).cfg = some ⟨2, true, true, true⟩ ∧
      effectiveVote 2 1 0 = 1 ∧ effectiveVote 2 2 0 = 2 ∧ effectiveVote 2 3 1 = 1 ∧
      wetCount 3 d = 0 ∧ (d.zone 3).state = .clear ∧
      ((withZone3 .isolated true d).zone 3).state = .isolated ∧
      ((withZone3 .alert true d).zone 3).state = .alert ∧ d.rlp.events.length + 3 ≤ 64 ∧
      (let two := fun s => table 16
        [(4, ⟨⟨6, 50, 3, 1200, 3900, 3⟩, s, 0⟩), (5, ⟨⟨6, 51, 3, 1200, 3900, 3⟩, .dry, 0⟩)]
      let points := fun s => { d with lkm := { d.lkm with points := two s } }
      (wetCount 3 (points .wet), faultCount 3 (points .wet)) = (1, 0) ∧
        (wetCount 3 (points .fault), faultCount 3 (points .fault)) = (0, 1)) := by decide +kernel

/-- Debounce at its least value and above it. -/
theorem witness_PointDebounce :
    1 ≤ (PointCfg.mk 6 50 3 1200 3900 1).debounce ∧ 1 ≤ (PointCfg.mk 6 50 3 1200 3900 255).debounce ∧
      (Point.mk ⟨6, 50, 3, 1200, 3900, 3⟩ .unseen 0).count = 0 := by decide

/-- Point 4 of node 6, slot 50, the one point of the shelf: a GOOD and a SENSOR_FAULT cell of its channel; its
channel one notice before STALE; its slot emptied in the written map; its limit entry emptied. No record is
discarded where the channel goes STALE or the sensor fails. -/
theorem witness_PointDebounce_commands :
    let wet := cellOf 6 .lkLevel 1200 0
    let bad := cellOf 6 .lkLevel 0 0x80
    let d := withChannel 50 ⟨.unclassified, some 3, none, none, 0, 99⟩ (shelf .on)
    let m := { d with slc := { d.slc with written := d.slc.written.set 50 none } }
    let l := { d with slc := { d.slc with
      active := d.slc.active.set 50 (some (.input 6 .lkLevel (some 7))) } }
    let kept := fun c => decide (d.rlp.eventOverflow < 65535 ∧
      (after c d).rlp.eventOverflow = d.rlp.eventOverflow)
    (d.calm ∧ m.calm) ∧ entry d.lkm.points 4 = some ⟨⟨6, 50, 3, 1200, 3900, 3⟩, .dry, 0⟩ ∧
      (d.lkm.points.filterMap id).length = 1 ∧
      entry d.slc.active 50 = some (.input 6 .lkLevel none) ∧
      [wet, bad].map (fun (c : InCell) => (crc8 [c.node, c.kind, hiByte c.value, loByte c.value, c.status] == c.check,
        Quality.ofCode (c.status >>> 6).toNat, c.node.toNat, c.kind.toNat)) =
        [(true, some .good, 6, ChannelKind.lkLevel.code),
          (true, some .sensorFault, 6, ChannelKind.lkLevel.code)] ∧
      50 ∉ d.slc.satisfied ∧ (paramsOf d .lkLevel none).staleLimit = satInc 99 ∧
      entry m.slc.written 50 ≠ entry m.slc.active 50 ∧
      (parseLimit (emptyRecord 11)).toOption = some none ∧ entry l.tlf.limits 7 = some limit7 ∧
      entry l.slc.active 50 = some (.input 6 .lkLevel (some 7)) ∧
      [Instr.cellReceive 50 bad, .cycleEnd].map kept = [true, true] :=
  ⟨⟨calm_of rfl, calm_of rfl⟩, by decide +kernel⟩

/-! ### The rack link -/

theorem frame_length (tag : Word) (body : List Byte) : 8 ≤ (frame 0 tag 0 body).length := by
  simp [frame, wordBytes, twoBytes]

/-- Bytes too short for a message; the shortest body and the longest, a WRITE TABLE of 509 words; a body of an
unknown kind, whose first byte no request has. -/
theorem witness_MessagesReceived :
    ((shelf .on).running ∧ (shelf .on).linesFollow ∧ (shelf .on).ready ∧
      ∀ tag body, body.length ≤ 1024 → ([0, 0, 5, 0, 0, 1, 0] : List Byte) ≠ frame 0 tag 0 body) ∧
    (request (.readStatus 5) = some ⟨5, .readStatus⟩ ∧ Request.readStatus.body.length = 1 ∧
      request (.writeTable 5 0 0 (List.replicate 509 0)) =
        some ⟨5, .writeTable 0 0 (List.replicate 509 0)⟩ ∧
      (Request.writeTable 0 0 (List.replicate 509 0)).body.length = 1023) ∧
    ([77] : List Byte).length ≤ 1024 ∧
      ∀ c q, request c = some q → q.req.body ≠ [77] :=
  ⟨⟨shelf_running _, shelf_lines, shelf_ready _, fun tag body _ h => by
      have := frame_length tag body
      rw [← h] at this
      simp at this⟩,
    ⟨rfl, rfl, rfl, by decide +kernel⟩, by decide, fun c q h => by
      cases c <;> simp only [request, Option.some.injEq, reduceCtorEq] at h <;> subst h <;>
        simp [Request.body, Request.kind]⟩

/-- Queues at the four cases of R155: 0, 3 and 4 requests, 7 and 8 messages. -/
theorem witness_ArrivalTable :
    request (.getDetail 5) = some ⟨5, .getDetail⟩ ∧ (shelf .on).running ∧ (shelf .on).linesFollow ∧
      (shelf .on).rlp.requests = [] ∧
      (List.replicate 3 (Queued.mk 1 .readStatus)).length < 4 ∧
      (List.replicate 4 (Queued.mk 1 .readStatus)).length = 4 ∧
      (List.replicate 7 (Uplink.batch 0 [])).length < 8 ∧
      (List.replicate 8 (Uplink.batch 0 [])).length = 8 :=
  ⟨rfl, shelf_running _, shelf_lines, rfl, by decide⟩

theorem witness_ReadingRequestsAnswer :
    (shelf .on).ready ∧ (shelf .on).lkm.zones.length = 8 ∧ (shelf .on).rlp.detail = none ∧
      (withRlp (fun r => { r with detail := some ⟨none, 1, .range, none, none, 0⟩ }) (shelf .on)).rlp.detail =
        some ⟨none, 1, .range, none, none, 0⟩ ∧
      (9 : Word).toNat < 36 ∧ ((shelf .on).branch 9).isSome = true :=
  ⟨shelf_ready _, by decide +kernel⟩

theorem witness_BranchNumberRefused :
    (shelf .on).ready ∧ 3 ≤ (3 : Word).toNat ∧ 36 ≤ (36 : Word).toNat ∧ (2 : Word).toNat ≤ 2 ∧
      (35 : Word).toNat < 36 ∧ (shelf .on).branch 35 = none :=
  ⟨shelf_ready _, by decide +kernel⟩

/-- Lists of 0, 1, 21 and 22 banks; bank 2 of the Branch Table is its last. -/
theorem witness_ProtectionRequestsAct :
    (shelf .on).ready ∧ (shelf .on).prot.flags.length = 21 ∧ ([] : List Word).length = 0 ∧
      21 < (List.replicate 22 (0 : Word)).length ∧ (List.replicate 21 (0 : Word)).length ≤ 21 ∧
      TableId.ofCode (4 : Word).toNat = some .branch ∧ (shelf .on).prot.frozen = false ∧
      ∀ b ∈ [(0 : Word), 2], b.toNat < bankCount .branch :=
  ⟨shelf_ready _, by decide +kernel, rfl, by decide, by decide, by decide, rfl,
    by simp [bankCount, tableSize]⟩

/-- Each feature identifier, and the values at and past each limit. -/
theorem witness_SetFeatureActs :
    (shelf .on).ready ∧ ([0, 1, 2, 3, 4, 5].map fun i => (BitVec.ofNat 16 i : Word).toNat) =
        [0, 1, 2, 3, 4, 5] ∧
      (1 ≤ (16 : Word).toNat ∧ (16 : Word).toNat ≤ 16) ∧ 16 < (17 : Word).toNat ∧ (0 : Word).toNat < 1 ∧
      (1 : Word).toNat ≤ 1 ∧ 2 ≤ (2 : Word).toNat ∧ (15 : Word).toNat ≤ 15 :=
  ⟨shelf_ready _, by decide +kernel⟩

/-- Counts 0, 1, 256 and 257; starts 35 and 36 of the Branch Table; a read that fits one block and one that
ends early. -/
theorem witness_ReadTableActs :
    (shelf .on).ready ∧ TableId.ofCode (9 : Word).toNat = none ∧
      TableId.ofCode (4 : Word).toNat = some .branch ∧ (0 : Word).toNat < 1 ∧ 256 < (257 : Word).toNat ∧
      (256 : Word).toNat ≤ 256 ∧ tableSize .branch ≤ (36 : Word).toNat ∧ (35 : Word).toNat < tableSize .branch ∧
      min (8 : Word).toNat (tableSize .branch - (28 : Word).toNat) ≤ (shelf .on).rlp.features.readBlock ∧
      min (256 : Word).toNat (tableSize .branch - (35 : Word).toNat) ≤ (shelf .on).rlp.features.readBlock ∧
      (shelf .on).rlp.responses.length ≤ 6 :=
  ⟨shelf_ready _, by decide +kernel⟩

/-- With a message in transmission and READ_BLOCK 8, 20 entries of the Slot Map are three blocks: they and the
response fit 8 places, just fail to fit 3 (the response waits), and fail to fit 2. -/
theorem witness_ReadTableActs_blocks :
    let d := fun n => withRlp (fun p => { p with
      tx := some (.event 0 ⟨.runDone, none, none, 0⟩), responses := List.replicate n (busyResponse 1) }) (shelf .on)
    ((d 0).ready ∧ (d 5).ready ∧ (d 6).ready) ∧ (d 0).rlp.tx ≠ none ∧ TableId.ofCode (0 : Word).toNat = some .slotMap ∧
      1 ≤ (d 0).rlp.features.readBlock ∧
      (min (20 : Word).toNat (96 - (0 : Word).toNat) + 8 - 1) / 8 = 3 ∧
      3 < 8 - (d 0).rlp.responses.length ∧ 3 = 8 - (d 5).rlp.responses.length ∧
      8 - (d 6).rlp.responses.length < 3 :=
  ⟨⟨ready_of rfl rfl (by decide +kernel), ready_of rfl rfl (by decide +kernel),
    ready_of rfl rfl (by decide +kernel)⟩, by decide +kernel⟩

/-! ### Tables -/

/-- The last entry of the branch table, the one profile, and an accepted record of a step with no run under
way. -/
theorem witness_WritePlacement :
    35 < tableSize .branch ∧ 0 < tableSize .profile ∧
      (applyRecord .sequence (placeOf .sequence 0 0) [1, 3, 0, 500, 0, 0] (shelf .on)).2 = .accepted ∧
      (parseStep [1, 3, 0, 500, 0, 0]).isOk = true ∧ (parseStep [0, 0, 0, 0, 0, 0]).isOk = true ∧
      (shelf .on).sqe.run ≠ .running ∧ (shelf .on).sqe.run ≠ .suspended := by decide +kernel

/-- Each field at an end of its range. -/
theorem witness_RecordRoundTrip :
    (1 ≤ 62 ∧ 62 ≤ 62 ∧ 47 < 48) ∧ ((-32768 : Int) ≤ -32768 ∧ (32767 : Int) ≤ 32767) ∧
      ([some (-32768 : Int), none, some 7, some 7].filterMap id).Pairwise (· ≤ ·) ∧
      (StepKind.enableGroup.usesGroup = true ∧ 1 ≤ 15) ∧ (4094 < 4095 ∧ 4095 ≤ 4095) ∧
      (1 ≤ 4 ∧ 4 ≤ 4) := by decide +kernel

/-- The refusals of R170 in order, a write of one step and one of 16, and a second record out of range. -/
theorem witness_WriteTableActs :
    let good : List Word := [1, 3, 0, 500, 0, 0]
    let bad : List Word := [1, 6, 0, 500, 0, 0]
    (shelf .on).ready ∧ TableId.ofCode (9 : Word).toNat = none ∧
      TableId.ofCode (5 : Word).toNat = some .sequence ∧ (good ++ [0]).length % recordLength .sequence ≠ 0 ∧
      ([] : List Word).length / recordLength .sequence < 1 ∧
      16 < (List.replicate 17 good).flatten.length / recordLength .sequence ∧
      (List.replicate 16 good).flatten.length = 16 * recordLength .sequence ∧
      tableSize .sequence ≤ (64 : Word).toNat ∧ (63 : Word).toNat < tableSize .sequence ∧
      bankProtected .sequence 63 (shelf .on) = false ∧
      bankProtected .sequence 63 (after (.protect 1 5 [3]) (shelf .on)) = true ∧
      ((inSource .onBattery .ok).sru.source ≠ .onAc ∧ (inSource .onBattery .ok).sru.source ≠ .unknown) ∧
      (shelf .on).sqe.run ≠ .running ∧ (shelf .on).sqe.run ≠ .suspended ∧
      (shelf .on).sqe.steps.length = 64 ∧ (parseStep good).isOk = true ∧ (parseStep bad).isOk = false :=
  ⟨shelf_ready _, by decide +kernel⟩

/-- A new and a doubled slot, a new and a doubled branch, an entry in use, and records that change nothing. -/
theorem witness_RecordsApplied :
    (parseSlot [1, 0, 7, 3, 0xFFFF]).toOption = some (some (.input 7 .rmTemp none)) ∧
      entry (shelf .on).slc.written 0 = some (.input 1 .rmStatus none) ∧
      (parseSlot [1, 1, 23, 0xFFFF, 0xFFFF]).toOption = some (some (.output 23)) ∧
      (parseBranch [1, 24, 8000, 8, 7, 15]).toOption = some (some ⟨24, 8000, none, 7, 15⟩) ∧
      (shelf .on).branch 35 = none ∧ 35 < (shelf .on).bcu.branches.length ∧
      ((shelf .on).branch 9).map (·.state) = some .on ∧
      (parseBranch (emptyRecord 6)).toOption = some none ∧
      (parseBranch [1, 24, 2000, 3, 7, 1]).toOption = some (some ⟨24, 2000, some 3, 7, 1⟩) ∧
      (parseBranch [1, 23, 2000, 8, 7, 1]).toOption = some (some ⟨23, 2000, none, 7, 1⟩) ∧
      ((withBranch9 (fun x => { x with holds := ⟨true, false, false, false⟩ }) (shelf .on)).branch
        9).map (·.holds.leak) = some true ∧
      (atStep .suspended ⟨false, true, false⟩).sqe.run = .suspended ∧
      (parseStep [1, 5, 0, 0, 0, 0]).toOption = some (some ⟨.endRun, 0, 0, .halt, 0⟩) ∧
      ((withZone3 .alert false (shelf .on)).zone 3).state ≠ .clear ∧
      (parseZone [1, 2, 1, 1, 1]).toOption = some ((shelf .on).zone 3).cfg ∧
      (parseLimit [0, 0, 0, 0, 0, 0, 0, 0, 0, 0, 0]).toOption = some (entry (shelf .on).tlf.limits 47) ∧
      (parseBranch [1, 23, 2000, 3, 7, 1]).toOption = some (((shelf .on).branch 9).map Branch.cfg) := by
  decide +kernel

/-- A rectifier, battery and leak point record that repeats its entry, and one that doubles another's; a point
of a zone in ALERT; a profile in range and one clamped. -/
theorem witness_RecordsApplied_power_and_leak :
    (parseRect [1, 1, 7000]).toOption = some (some (1, 7000)) ∧
      entry (shelf .on).sru.rects 0 = some ⟨1, 7000, .ok⟩ ∧
      entry (shelf .on).sru.rects 1 = some ⟨2, 7000, .ok⟩ ∧
      (parseBatt [1, 41]).toOption = some (some 41) ∧
      entry (shelf .on).sru.batts 0 = some ⟨41, .online⟩ ∧ entry (shelf .on).sru.batts 5 = none ∧
      (parsePoint (emptyRecord 7)).toOption = some none ∧
      (parsePoint [1, 6, 50, 3, 1200, 3900, 3]).toOption = some (some ⟨6, 50, 3, 1200, 3900, 3⟩) ∧
      entry (shelf .on).lkm.points 4 = some ⟨⟨6, 50, 3, 1200, 3900, 3⟩, .dry, 0⟩ ∧
      ((shelf .on).zone 3).state = .clear ∧ ((withZone3 .alert false (shelf .on)).zone 3).state ≠ .clear ∧
      (parseProfile (profileWords Profile.default)).2 = none ∧
      (parseProfile ((profileWords Profile.default).set 16 0)).2 = some 16 := by decide +kernel

/-- The valid flag at both values, and for each table a record at an end of a range and one past it. -/
theorem witness_RecordRanges :
    let ok := fun {α : Type} (e : Except Nat α) => e.isOk
    ((1 : Word).getLsbD 0 = true ∧ (0 : Word).getLsbD 0 = false) ∧
      (ok (parseSlot [1, 0, 62, 10, 47]), ok (parseSlot [1, 0, 62, 10, 48])) = (true, false) ∧
      (ok (parseLimit [31, 1, 1, 5, 5, 32767, 255, 1000, 3, 32767, 2]),
        ok (parseLimit [31, 1, 1, 6, 5, 32767, 255, 1000, 3, 32767, 2])) = (true, false) ∧
      (ok (parseBranch [1, 62, 8000, 8, 7, 15]), ok (parseBranch [0, 62, 8000, 8, 8, 15])) =
        (true, false) ∧
      (ok (parsePoint [1, 62, 95, 7, 4094, 4095, 255]), ok (parsePoint [1, 62, 95, 7, 4095, 4095, 255])) =
        (true, false) := by decide +kernel

/-- Limit entry 7 changed and emptied; branch 9 given another tier, zone and, while OFF, node, or emptied; a
new, a changed and an emptied rectifier and battery; a profile with each field changed. -/
theorem witness_RecordsChangeLive :
    let d := shelf .off
    (parseLimit [25, 0, 0, 3000, 3300, 200, 3, 50, 1, 100, 1]).toOption =
        some (some { limit7 with highTrip := some 3300 }) ∧
      (parseLimit (emptyRecord 11)).toOption = some none ∧ entry d.tlf.limits 7 = some limit7 ∧
      entry d.slc.active 30 = some (.input 23 .brPower (some 7)) ∧
      (entry d.tlf.channels 30).isSome = true ∧
      (parseBranch [1, 24, 1999, 8, 6, 1]).toOption = some (some ⟨24, 1999, none, 6, 1⟩) ∧
      (d.branch 9).map (fun x => (x.state, x.holds.any, x.demands.any)) = some (.off, false, true) ∧
      (parseBranch [1, 23, 1999, 3, 6, 1]).toOption = some (some ⟨23, 1999, some 3, 6, 1⟩) ∧
      (withSru (fun u => { u with capShed := 0xC0 }) (shelf .on)).sru.shed.getLsbD 6 = true ∧
      ((shelf .on).branch 9).map (fun x => (x.state, x.holds.any)) = some (.on, false) ∧
      d.outSlot 23 = some 40 ∧ (entry d.slc.out 40).isSome = true ∧
      (parseBranch (emptyRecord 6)).toOption = some none ∧
      (parseRect [1, 3, 500]).toOption = some (some (3, 500)) ∧ entry d.sru.rects 7 = none ∧
      (parseRect (emptyRecord 3)).toOption = some none ∧ (entry d.sru.rects 0).isSome = true ∧
      (parseBatt [1, 42]).toOption = some (some 42) ∧ entry d.sru.batts 5 = none ∧
      (parseBatt (emptyRecord 2)).toOption = some none ∧ rectStateOf 3 d = .absent ∧
      (let u := (inSource .unknown .ok)
       (withSru (fun v => { v with qualTimer := .stopped }) u).sru.qualTimer = .stopped) ∧
      acLost (inSource .onAc .fault) = true := by decide +kernel

/-- A profile that changes one field, a point and a zone written anew, and the line on the zone. -/
theorem witness_RecordsChangeLive_leak :
    let d := shelf .on
    let p := fun i v => (parseProfile ((profileWords Profile.default).set i v)).1
    let line := { withSru (fun u => { u with profile := { u.profile with leakLineZone := some 3 } }) d with
      lines := { d.lines with leakIn := true } }
    ((p 8 0).redundancy, (p 9 8).minRect, (p 14 1).floor, (p 7 0).overheadW, (p 19 3).leakLineZone) =
        (.plain, 8, 1, 0, some 3) ∧
      (d.zone 3).cfg = some ⟨2, true, true, true⟩ ∧ (d.zone 3).state = .clear ∧
      3 < d.lkm.zones.length ∧ d.rlp.events.length < 64 ∧
      (parsePoint [1, 6, 50, 3, 1300, 3900, 3]).toOption = some (some ⟨6, 50, 3, 1300, 3900, 3⟩) ∧
      (parsePoint (emptyRecord 7)).toOption = some none ∧ 4 < d.lkm.points.length ∧
      (parseZone [1, 1, 0, 0, 0]).toOption = some (some ⟨1, false, false, false⟩) ∧
      (parseZone (emptyRecord 5)).toOption = some none ∧
      line.lines.leakIn = true ∧ line.sru.profile.leakLineZone = some 3 ∧
      (line.zone 3).state = .clear ∧ d.lines.leakIn = false ∧ (d.zone 0).state = .clear ∧
      (∀ q ∈ d.lkm.points.filterMap id, q.cfg.zone ≠ 0) := by decide +kernel

/-! ### Node pass, responses, invariants -/

/-- Nodes 0, 1, 62 and 63; no route, a changed route, a switch node, and a pass; a waiting pass with each
outcome; a record of node 23 that owes the RLP its outcome, with a pass to node 4 and to node 23, and with an
outcome already noted. -/
theorem witness_NodePassActs :
    let d := shelf .on
    let waits := withRlp (fun p => { p with requests := [⟨20, .nodePass 4 1⟩], phase := .passing 4 }) d
    d.ready ∧ d.linesFollow ∧ (0 : Word).toNat < 1 ∧ 62 < (63 : Word).toNat ∧ (62 : Word).toNat ≤ 62 ∧
      d.outSlot 62 = none ∧ d.outSlot 4 = some 41 ∧
      entry d.slc.written 41 = some (.output 4) ∧ entry (d.slc.written.set 41 none) 41 ≠ some (.output 4) ∧
      d.branchAt 23 = some 9 ∧ d.branchAt 4 = none ∧ (entry d.slc.out 41).isSome = true ∧
      waits.running ∧ waits.linesFollow ∧ waits.rlp.phase = .passing 4 ∧
      waits.rlp.requests = [⟨20, .nodePass 4 1⟩] ∧ waits.rlp.detail = none ∧
      waits.rlp.responses.length < 8 ∧
      (let owes := withOut ⟨some 1, none, 0, false, 0, 0, some .rlp, true, none, false⟩ waits
      owes.rlp.phase ≠ .passing 23 ∧
        (withRlp (fun p => { p with phase := .passing 23 }) owes).rlp.passOutcome = none ∧
        (withRlp (fun p => { p with passOutcome := some .ack }) owes).rlp.passOutcome = some .ack ∧
        owes.outSlot 23 = some 40 ∧
        (entry owes.slc.out 40).map (fun r => (r.owed, r.lastWriter)) = some (true, some .rlp)) :=
  ⟨shelf_ready _, shelf_lines, by decide, by decide, by decide, by decide +kernel, by decide +kernel,
    by decide +kernel, by decide +kernel, by decide +kernel, by decide +kernel, by decide +kernel,
    running_of rfl, shelf_lines, rfl, rfl, rfl, by decide +kernel, by decide +kernel⟩

/-- A final response that waits with 7 and with 8 messages queued, a transmission, and the one of a RESET. -/
theorem witness_ResponsesMove :
    let r : Response := ⟨3, .done, 0, false, false, [], false⟩
    let d := fun n => withRlp (fun p => { p with
      requests := [⟨3, .readStatus⟩], phase := .answering r, responses := List.replicate n (.response r) })
      (shelf .on)
    (∀ n, (d n).running ∧ (d n).linesFollow ∧ (d n).rlp.requests = [⟨3, .readStatus⟩] ∧
      (d n).rlp.phase = .answering r) ∧ (d 7).rlp.responses.length < 8 ∧
      8 ≤ (d 8).rlp.responses.length ∧ (Uplink.response r).resets = false ∧
      (Uplink.response { r with resets := true }).resets = true ∧ (shelf .on).ready ∧
      (shelf .on).rlp.requests = [] ∧ (shelf .on).rlp.phase = .fresh ∧ (shelf .on).rlp.tx = none :=
  ⟨fun _ => ⟨running_of rfl, shelf_lines, rfl, rfl⟩, by decide +kernel, by decide +kernel, rfl, rfl,
    shelf_ready _, rfl, rfl, rfl⟩

/-- A read that waits with 20 entries left, with one place free and with none, while a message is sent. -/
theorem witness_ResponsesMove_read :
    let r : Response := ⟨3, .done, 0, false, false, [], false⟩
    let d := fun n => withRlp (fun p => { p with
      requests := [⟨3, .readTable 0 8 28⟩], phase := .reading .slotMap 16 20 8 r
      responses := List.replicate n (.response r), tx := some (.response r) }) (shelf .on)
    (∀ n, (d n).running ∧ (d n).linesFollow ∧ (d n).rlp.requests = [⟨3, .readTable 0 8 28⟩] ∧
      (d n).rlp.phase = .reading .slotMap 16 20 8 r ∧ (d n).rlp.tx = some (.response r)) ∧
      (d 7).rlp.responses.length = 7 ∧ 8 ≤ (d 8).rlp.responses.length ∧
      (Uplink.response r).resets = false :=
  ⟨fun _ => ⟨running_of rfl, shelf_lines, rfl, rfl, rfl⟩, by decide +kernel, by decide +kernel, rfl⟩

/-- Each case of R167: runs at and below the quotas of 8.6.2. -/
theorem witness_ArbiterCases :
    let d := fun (side : UplinkSide) run => { withRlp (fun r => { r with
        features := { r.features with wRsp := 2, wTel := 3 }, responses := [.batch 0 []], side := side
        run := run }) (shelf .on) with
      tlf := { (shelf .on).tlf with queue := [sample 1] } }
    (∀ side run, (d side run).rlp.tx = none ∧ (d side run).rlp.events = [] ∧
      (d side run).rlp.responses = [.batch 0 []] ∧ (d side run).tlf.queue ≠ [] ∧
      (d side run).rlp.side = side ∧ (d side run).rlp.run = run) ∧
      (1 < 2 ∧ 2 ≤ 2) ∧ (2 < 3 ∧ 3 ≤ 3) ∧ (shelf .on).tlf.queue = [] :=
  ⟨fun _ _ => ⟨rfl, rfl, rfl, by simp, rfl, rfl⟩, by decide, by decide, rfl⟩

theorem witness_StepKeepsInvariants :
    (shelf .on).queuesBounded ∧ (shelf .on).linesFollow ∧ (shelf .on).quiet ∧
      step ⟨shelf .on, []⟩ = .next ⟨shelf .on, []⟩ :=
  ⟨by unfold Part.queuesBounded; decide +kernel, shelf_lines, ⟨rfl, rfl⟩, rfl⟩

/-- A check of every branch of a part of 36 entries. -/
theorem forall_branch {p : Nat → Branch → Prop} {d : Part} (h : d.bcu.branches.length = 36)
    (hp : ∀ b : Fin 36, ∀ x ∈ d.branch b, p b x) (b : Nat) (x : Branch) (hx : d.branch b = some x) :
    p b x := by
  by_cases hb : b < 36
  · exact hp ⟨b, hb⟩ x hx
  · have : d.bcu.branches[b]? = none := List.getElem?_eq_none (by omega)
    simp [Part.branch, entry, this] at hx

/-- Branch 9 alone in the Admission Queue, and a command that answers a next state. -/
theorem witness_StepKeepsAdmissionQueue :
    (waiting 6700 .stopped).admissionSound ∧ (waiting 6700 .stopped).bcu.queue = [9] ∧
      ∃ t, step ⟨waiting 6700 .stopped, [.resetInAsserted]⟩ = .next t := by
  have hl : (waiting 6700 .stopped).bcu.branches.length = 36 := by decide +kernel
  refine ⟨⟨hl, by decide +kernel, fun b => ⟨fun hb => ?_, fun ⟨x, hx, hs⟩ => ?_⟩,
    forall_branch hl (p := fun _ x => x.state = .queued → x.wanted = true) (by decide +kernel),
    forall_branch hl (p := fun _ x => x.holds.shed =
      (waiting 6700 .stopped).sru.shed.getLsbD x.cfg.tier) (by decide +kernel)⟩, rfl, _, rfl⟩
  · obtain rfl : b = 9 := by simpa [waiting] using hb
    exact ⟨_, rfl, rfl⟩
  · exact forall_branch hl (p := fun b x => x.state = .queued → b ∈ (waiting 6700 .stopped).bcu.queue)
      (by decide +kernel) b x hx hs

/-- Branch 9 held by zone 3, which is ISOLATED and acknowledged, under a command that asks for no LEAK CLEAR,
and under a LEAK CLEAR of another zone. -/
theorem witness_StepKeepsIsolation :
    let d := withBranch9 (fun x => { x with holds := ⟨true, false, false, false⟩ })
      (withZone3 .isolated true (shelf .off))
    d.isolationSound ∧ (d.zone 3).state.latched = true ∧ (d.zone 3).acked = true ∧
      (∀ q ∈ asked .resetInAsserted d, ∀ w, q.req = .leakClear w → w.toNat ≠ 3) ∧
      (∀ q ∈ asked (.leakClear 7 4) d, ∀ w, q.req = .leakClear w → w.toNat ≠ 3) ∧
      ∃ t, step ⟨d, [.resetInAsserted]⟩ = .next t := by
  intro d
  have hl : d.bcu.branches.length = 36 := by decide +kernel
  refine ⟨⟨hl, forall_branch hl (p := fun _ x => (x.holds.leak = true ↔ ∃ z c, x.cfg.zone = some z ∧
    (d.zone z).cfg = some c ∧ (d.zone z).state = .isolated)) fun b x hx => ?_⟩,
    by decide +kernel, by decide +kernel, fun q hq => absurd hq List.not_mem_nil, fun q hq => ?_, _, rfl⟩
  · have : x.holds.leak = true ∧ x.cfg.zone = some 3 := by
      have h : ∀ b : Fin 36, ∀ x ∈ d.branch b, x.holds.leak = true ∧ x.cfg.zone = some 3 := by
        decide +kernel
      exact h b x hx
    exact ⟨fun _ => ⟨3, ⟨2, true, true, true⟩, this.2, rfl, rfl⟩, fun _ => this.1⟩
  · simp only [asked, request, d, withBranch9, withZone3, shelf, Part.powerOn, Rlp.powerOn,
      Option.toList, List.nil_append, List.append_nil, List.mem_singleton] at hq
    subst hq
    intro w hw
    cases hw
    decide

/-- ON_BATTERY with tiers 7 and 6 shed, DEPLETED with all, and ON_AC with none. -/
theorem witness_StepKeepsShedSets :
    let d := withSru (fun u => { u with battShed := 0xC0 }) (inSource .onBattery .fault)
    let e := withSru (fun u => { u with battShed := 0xFF, depletedFlag := true }) (inSource .depleted .fault)
    d.shedSound ∧ e.shedSound ∧ (shelf .on).shedSound ∧ d.sru.source.inEpisode = true ∧
      d.sru.battShed.getLsbD 6 = true ∧ Instr.resetInAsserted ≠ .stableTimerExpiry ∧
      ∃ t, step ⟨d, [.resetInAsserted]⟩ = .next t :=
  ⟨⟨⟨6, by decide, rfl⟩, by decide +kernel⟩, ⟨⟨0, by decide, rfl⟩, by decide +kernel⟩,
    ⟨⟨8, by decide, rfl⟩, by decide +kernel⟩, by decide +kernel, by decide +kernel, by decide, _, rfl⟩

/-- A run at entry 63 and one that is not under way. -/
theorem witness_RunIndexGrows :
    let d := withSqe (fun q => { q with run := .running, index := 63 }) (shelf .on)
    d.sqe.index ≤ 63 ∧ (∀ q ∈ asked .resetInAsserted d, q.req ≠ .sequenceStart) ∧
      ((shelf .on).sqe.run ≠ .running ∧ (shelf .on).sqe.run ≠ .suspended) ∧
      ∃ t, step ⟨d, [.resetInAsserted]⟩ = .next t :=
  ⟨by decide +kernel, fun q hq => absurd hq List.not_mem_nil, by decide +kernel, _, rfl⟩

theorem witness_FrozenProtectionStands :
    ({ shelf .on with prot := ⟨List.replicate 21 true, true⟩ } : Part).prot.frozen = true ∧
      Instr.cycleEnd ≠ .powerOnReset ∧
      exec .resetInAsserted (st { shelf .on with prot := ⟨List.replicate 21 true, true⟩ }) =
        .next (st (after .resetInAsserted
          { shelf .on with prot := ⟨List.replicate 21 true, true⟩ })) ∧
      (shelf .on).rlp.requests = [] := ⟨rfl, by decide, rfl, rfl⟩

end Sys2Proof.Tests
end

/-! PROOFS. The tests and the raw class of R28 (2.3.2): what each test says, the raw class in each of its cases,
and the obligation that joins the two. -/

namespace Sys2Proof.Machine

/-! ## The two tests -/

theorem above_iff (t : Option Int) (h : Nat) (held : Bool) (v : Int) :
    above t h held v = true ↔ ∃ x, t = some x ∧ (v > x ∨ (held = true ∧ v > x - h)) := by
  cases t with
  | none => simp [above]
  | some x => simp [above]

theorem below_iff (t : Option Int) (h : Nat) (held : Bool) (v : Int) :
    below t h held v = true ↔ ∃ x, t = some x ∧ (v < x ∨ (held = true ∧ v < x + h)) := by
  cases t with
  | none => simp [below]
  | some x => simp [below]

/-! ## The raw class, case by case -/

theorem rawClass_none (c : ChanClass) (v : Int) : rawClass none c v = .unclassified := rfl

section
variable {e : LimitEntry} {c : ChanClass} {v : Int}

theorem rawClass_eq_tripHigh (hHT : above e.highTrip e.hysteresis (c == .tripHigh) v = true) :
    rawClass (some e) c v = .tripHigh := if_pos hHT

theorem rawClass_eq_warnHigh (hHT : ¬ above e.highTrip e.hysteresis (c == .tripHigh) v = true)
    (hHW : above e.highWarn e.hysteresis (c == .warnHigh || c == .tripHigh) v = true) :
    rawClass (some e) c v = .warnHigh := (if_neg hHT).trans (if_pos hHW)

theorem rawClass_eq_tripLow (hHT : ¬ above e.highTrip e.hysteresis (c == .tripHigh) v = true)
    (hHW : ¬ above e.highWarn e.hysteresis (c == .warnHigh || c == .tripHigh) v = true)
    (hLT : below e.lowTrip e.hysteresis (c == .tripLow) v = true) :
    rawClass (some e) c v = .tripLow :=
  (if_neg hHT).trans <| (if_neg hHW).trans (if_pos hLT)

theorem rawClass_eq_warnLow (hHT : ¬ above e.highTrip e.hysteresis (c == .tripHigh) v = true)
    (hHW : ¬ above e.highWarn e.hysteresis (c == .warnHigh || c == .tripHigh) v = true)
    (hLT : ¬ below e.lowTrip e.hysteresis (c == .tripLow) v = true)
    (hLW : below e.lowWarn e.hysteresis (c == .warnLow || c == .tripLow) v = true) :
    rawClass (some e) c v = .warnLow :=
  (if_neg hHT).trans <| (if_neg hHW).trans <| (if_neg hLT).trans (if_pos hLW)

theorem rawClass_eq_normal (hHT : ¬ above e.highTrip e.hysteresis (c == .tripHigh) v = true)
    (hHW : ¬ above e.highWarn e.hysteresis (c == .warnHigh || c == .tripHigh) v = true)
    (hLT : ¬ below e.lowTrip e.hysteresis (c == .tripLow) v = true)
    (hLW : ¬ below e.lowWarn e.hysteresis (c == .warnLow || c == .tripLow) v = true) :
    rawClass (some e) c v = .normal :=
  (if_neg hHT).trans <| (if_neg hHW).trans <| (if_neg hLT).trans (if_neg hLW)

end

/-- Settles O12: each test of the statement is the model's test of its threshold, and the statement is then the
raw class case by case. -/
theorem rawClassRule : Obligations.RawClassRule := by
  intro e c v highTrip highWarn lowTrip lowWarn
  have hHT : above e.highTrip e.hysteresis (c == .tripHigh) v = true ↔ highTrip := by
    simp only [above_iff, beq_iff_eq, highTrip]
  have hHW : above e.highWarn e.hysteresis (c == .warnHigh || c == .tripHigh) v = true ↔ highWarn := by
    simp only [above_iff, Bool.or_eq_true, beq_iff_eq, highWarn]
  have hLT : below e.lowTrip e.hysteresis (c == .tripLow) v = true ↔ lowTrip := by
    simp only [below_iff, beq_iff_eq, lowTrip]
  have hLW : below e.lowWarn e.hysteresis (c == .warnLow || c == .tripLow) v = true ↔ lowWarn := by
    simp only [below_iff, Bool.or_eq_true, beq_iff_eq, lowWarn]
  rw [← hHT, ← hHW, ← hLT, ← hLW]
  exact ⟨rawClass_eq_tripHigh, rawClass_eq_warnHigh, rawClass_eq_tripLow, rawClass_eq_warnLow,
    rawClass_eq_normal, rawClass_none c v⟩

end Sys2Proof.Machine

/-! PROOFS. The load and T_proj (R102): the least load, the saturated quotient below and past its bound, and when
it is 0. -/

namespace Sys2Proof.Machine

/-- The load is never below 1 W. -/
theorem one_le_load (d : Part) : 1 ≤ load d := Nat.le_max_left 1 _

theorem seconds_le (u p : Nat) : seconds u p ≤ 65535 := Nat.min_le_left _ _

theorem seconds_eq_div {u p : Nat} (h : u * 360 / p ≤ 65535) : seconds u p = u * 360 / p :=
  Nat.min_eq_right h

theorem seconds_saturated {u p : Nat} (h : 65535 < u * 360 / p) : seconds u p = 65535 :=
  Nat.min_eq_left h.le

/-- Saturation never makes a quotient 0, so only a quotient that is 0 itself gives 0. -/
theorem seconds_eq_zero_iff {u p : Nat} (hp : 1 ≤ p) : seconds u p = 0 ↔ u * 360 < p :=
  calc seconds u p = 0
    _ ↔ u * 360 / p = 0 := by unfold seconds; omega
    _ ↔ u * 360 < p := Nat.div_eq_zero_iff_lt hp

/-- Settles O30, from the least load and the cases of the saturated quotient. -/
theorem projectedTime : Obligations.ProjectedTime :=
  ⟨one_le_load, fun u p hp =>
    ⟨seconds_le u p, seconds_eq_div, seconds_saturated, seconds_eq_zero_iff hp⟩⟩

end Sys2Proof.Machine

/-! PROOFS. Where the records of a write go (R171): the bank of an entry, the place of a record in it, and what an
accepted record and a second record of one step leave (R172). -/

namespace Sys2Proof.Machine

/-! ## The bank of an entry -/

/-- The first entry of the bank that holds entry `n` (R171). -/
def bankBase (n : Nat) : Nat := 16 * (n / 16)

/-- How many entries that bank has: 16, or fewer where the table ends in it (R171). -/
def bankSize (t : TableId) (n : Nat) : Nat := min 16 (tableSize t - bankBase n)

theorem bankBase_le (n : Nat) : bankBase n ≤ n := Nat.mul_div_le n 16

theorem bankSize_le (t : TableId) (n : Nat) : bankSize t n ≤ 16 := Nat.min_le_left _ _

/-- An entry of the table is an entry of its own bank. -/
theorem offset_lt_bankSize {t : TableId} {n : Nat} (h : n < tableSize t) :
    n - bankBase n < bankSize t n := by
  unfold bankSize bankBase
  omega

theorem bankBase_add_bankSize_le {t : TableId} {n : Nat} (h : n < tableSize t) :
    bankBase n + bankSize t n ≤ tableSize t := by
  unfold bankSize bankBase
  omega

/-- The entries from a bank's first to its last share the bank number. -/
theorem div_eq_of_mem_bank {t : TableId} {n m : Nat} (hlo : bankBase n ≤ m)
    (hhi : m < bankBase n + bankSize t n) : m / 16 = n / 16 := by
  have hsize := bankSize_le t n
  unfold bankBase at hlo hhi
  omega

/-! ## The place of a record -/

/-- The formula of R171. -/
theorem placeOf_eq (t : TableId) (start j : Nat) :
    placeOf t start j = bankBase start + (start - bankBase start + j) % bankSize t start := rfl

theorem bankBase_le_placeOf (t : TableId) (start j : Nat) : bankBase start ≤ placeOf t start j :=
  Nat.le_add_right _ _

theorem placeOf_lt_bank_end {t : TableId} {start : Nat} (j : Nat) (h : start < tableSize t) :
    placeOf t start j < bankBase start + bankSize t start :=
  Nat.add_lt_add_left (Nat.mod_lt _ (Nat.zero_lt_of_lt (offset_lt_bankSize h))) _

theorem placeOf_zero {t : TableId} {start : Nat} (h : start < tableSize t) :
    placeOf t start 0 = start := by
  rw [placeOf_eq, Nat.add_zero, Nat.mod_eq_of_lt (offset_lt_bankSize h),
    Nat.add_sub_cancel' (bankBase_le start)]

/-- A write comes round to the same entry after as many records as its bank has entries. -/
theorem placeOf_add_bankSize (t : TableId) (start j : Nat) :
    placeOf t start (j + bankSize t start) = placeOf t start j := by
  rw [placeOf_eq, placeOf_eq, ← Nat.add_assoc, Nat.add_mod_right]

/-! ## The records in their turn -/

/-- An accepted record takes its effect before the next one is looked at. -/
theorem applyRecords_accepted (rest : List (List Word)) (clamp : Option Nat) {t : TableId}
    {start j : Nat} {ws : List Word} {d d' : Part}
    (h : applyRecord t (placeOf t start j) ws d = (d', .accepted)) :
    applyRecords t start j clamp (ws :: rest) d =
      applyRecords t start (j + 1) clamp rest (settleAll d') := by
  rw [applyRecords_cons, h]

theorem underWay_eq_false {q : Sqe} (hrun : q.run ≠ .running) (hsus : q.run ≠ .suspended) :
    q.underWay = false := by
  simp [Sqe.underWay, hrun, hsus]

/-- With no run under way a step record in range is stored, and nothing else changes. -/
theorem writeStep_idle {n : Nat} {ws : List Word} {e : Option SeqStep} {d : Part}
    (hidle : d.sqe.underWay = false) (hws : parseStep ws = .ok e) :
    writeStep n ws d = ({ d with sqe.steps := d.sqe.steps.set n e }, .accepted) := by
  simp [writeStep, hws, hidle]

/-- Of two step records for one entry the last stands: the first leaves the run as it is, so the second is
accepted too and overwrites it. -/
theorem writeStep_writeStep_steps {n : Nat} {first last : List Word} {e e' : Option SeqStep} {d : Part}
    (hidle : d.sqe.underWay = false) (hfirst : parseStep first = .ok e)
    (hlast : parseStep last = .ok e') :
    (writeStep n last (writeStep n first d).1).1.sqe.steps = d.sqe.steps.set n e' := by
  have hidle' : (writeStep n first d).1.sqe.underWay = false := by
    rw [writeStep_idle hidle hfirst]
    exact hidle
  rw [writeStep_idle hidle' hlast, writeStep_idle hidle hfirst]
  exact List.set_set _

/-- Settles O45: the four examples by evaluation, the placement from the bank of the start entry, and the records
from what one accepted record does. -/
theorem writePlacement : Obligations.WritePlacement := by
  refine ⟨by decide, by decide, by decide, by decide, ?placement, ?inTurn, ?lastStands⟩
  case placement =>
    intro t start j hstart
    have hlo := bankBase_le_placeOf t start j
    have hhi := placeOf_lt_bank_end j hstart
    exact ⟨placeOf_eq t start j, hlo, hhi, placeOf_zero hstart, placeOf_add_bankSize t start j,
      hhi.trans_le (bankBase_add_bankSize_le hstart), div_eq_of_mem_bank hlo hhi⟩
  case inTurn =>
    intro t start j clamp ws rest d d' haccepted
    exact applyRecords_accepted rest clamp haccepted
  case lastStands =>
    intro d n first last e e' hrun hsus hfirst hlast
    exact writeStep_writeStep_steps (underWay_eq_false hrun hsus) hfirst hlast

end Sys2Proof.Machine

/-! PROOFS. What a command does: the input line that it records, the effect on a running part, and the four ways
in which `exec` and `step` answer. -/

namespace Sys2Proof.Machine

-- One proof after another: proofs that are checked side by side take a thread each.
set_option Elab.async false

/-- The level of an input line that a command brings, recorded also while RESET_IN is asserted. -/
def recorded : Instr → Part → Part
  | .acfailInChange a => setAcfail a
  | .leakInChange a => setLeakIn a
  | _ => id

/-- What a command does to a running part, before the hand-offs are delivered. -/
def effect : Instr → Part → Part
  | .powerOnReset => powerOnReset
  | .resetInAsserted => assertReset
  | .softReset => softReset
  | .cycleStart => startCycle
  | .cycleEnd => endCycle
  | .cellReceive slot cell => receiveCell slot cell
  | .acfailInChange _ => examineAc
  | .leakInChange _ => examineLine
  | .admitTimerExpiry b => branchExpiry .admitting .admitTimeout b
  | .stopTimerExpiry b => branchExpiry .stopping .stopTimeout b
  | .spacingTimerExpiry => spacingExpiry
  | .qualificationTimerExpiry => qualificationExpiry
  | .stableTimerExpiry => stableExpiry
  | .capacityPersistenceExpiry => capacityExpiry
  | .evaluation => evaluationExpiry
  | .stepTimerExpiry => stepExpiry
  | .messageReceive bytes => receiveMessage bytes
  | .uplinkTransmitDone => uplinkDone
  | .responseAppend => pumpAll
  | .nodePassComplete o => completePass o
  | .readStatus tag => arrive ⟨tag, .readStatus⟩
  | .writeTable tag table start words => arrive ⟨tag, .writeTable table start words⟩
  | .readTable tag table start count => arrive ⟨tag, .readTable table start count⟩
  | .locateBranch tag branch => arrive ⟨tag, .locateBranch branch⟩
  | .branchRequest tag branch action => arrive ⟨tag, .branchRequest branch action⟩
  | .branchClear tag branch => arrive ⟨tag, .branchClear branch⟩
  | .sequenceStart tag => arrive ⟨tag, .sequenceStart⟩
  | .sequenceSuspend tag => arrive ⟨tag, .sequenceSuspend⟩
  | .sequenceResume tag => arrive ⟨tag, .sequenceResume⟩
  | .sequenceAbort tag => arrive ⟨tag, .sequenceAbort⟩
  | .leakAck tag zone => arrive ⟨tag, .leakAck zone⟩
  | .leakClear tag zone => arrive ⟨tag, .leakClear zone⟩
  | .nodePass tag node value => arrive ⟨tag, .nodePass node value⟩
  | .protect tag table banks => arrive ⟨tag, .protect table banks⟩
  | .unprotect tag table banks => arrive ⟨tag, .unprotect table banks⟩
  | .freezeProtection tag => arrive ⟨tag, .freezeProtection⟩
  | .setFeature tag feature value => arrive ⟨tag, .setFeature feature value⟩
  | .getDetail tag => arrive ⟨tag, .getDetail⟩
  | .reset tag => arrive ⟨tag, .reset⟩

/-- Every command but a power-on reset and an assertion of RESET_IN acts through `act`. -/
theorem exec_eq_act {c : Instr} (s : State) (hp : c ≠ .powerOnReset) (hr : c ≠ .resetInAsserted) :
    exec c s = act (effect c) { s with part := recorded c s.part } := by
  cases c <;> first | rfl | contradiction

@[simp] theorem recorded_resetIn (c : Instr) (d : Part) :
    (recorded c d).lines.resetIn = d.lines.resetIn := by
  cases c <;> rfl

/-- A request row arrives as the request that it carries (log 2). -/
theorem exec_request {c : Instr} {q : Queued} (h : request c = some q) (s : State) :
    exec c s = act (arrive q) s := by
  cases c <;> simp only [request, Option.some.injEq, reduceCtorEq] at h <;> subst h <;> rfl

/-- The four ways in which a command answers: a power-on reset, an assertion of RESET_IN, a command that finds
RESET_IN asserted, and a command that acts. -/
theorem exec_cases {c : Instr} {s t : State} (h : exec c s = .next t) :
    (c = .powerOnReset ∧ t = { s with part := complete (powerOnReset s.part) }) ∨
    (c = .resetInAsserted ∧ t = { s with part := refreshLines (assertReset s.part) }) ∨
    (c ≠ .powerOnReset ∧ s.part.lines.resetIn = true ∧
      t = { s with part := recorded c s.part }) ∨
    (c ≠ .powerOnReset ∧ s.part.lines.resetIn = false ∧
      t = { s with part := complete (effect c (recorded c s.part)) }) := by
  by_cases hp : c = .powerOnReset
  · subst hp
    exact .inl ⟨rfl, (Host.Outcome.next.inj h).symm⟩
  · by_cases hr : c = .resetInAsserted
    · subst hr
      exact .inr (.inl ⟨rfl, (Host.Outcome.next.inj h).symm⟩)
    · rw [exec_eq_act s hp hr] at h
      cases hl : s.part.lines.resetIn with
      | true =>
        rw [act_reset _ _ (by simpa using hl)] at h
        exact .inr (.inr (.inl ⟨hp, rfl, (Host.Outcome.next.inj h).symm⟩))
      | false =>
        rw [act_running _ _ (by simpa using hl)] at h
        exact .inr (.inr (.inr ⟨hp, rfl, (Host.Outcome.next.inj h).symm⟩))

/-- A step idles on an empty queue, or runs the command at its front. -/
theorem step_cases {s t : State} (h : step s = .next t) :
    t = s ∨ ∃ c rest, s.pending = c :: rest ∧ exec c { s with pending := rest } = .next t := by
  unfold step at h
  split at h
  · exact .inl (Host.Outcome.next.inj h).symm
  · exact .inr ⟨_, _, ‹_›, h⟩

/-- A step with a command at the front of the queue runs it. -/
theorem step_front {s t : State} {c : Instr} {rest : List Instr} (hp : s.pending = c :: rest)
    (h : step s = .next t) : exec c { s with pending := rest } = .next t := by
  unfold step at h
  rwa [hp] at h

/-- A property of parts that every command keeps is kept by every step. -/
theorem step_keeps {P : Part → Prop}
    (h : ∀ (c : Instr) (s t : State), P s.part → exec c s = .next t → P t.part)
    {s t : State} (hs : P s.part) (ht : step s = .next t) : P t.part := by
  rcases step_cases ht with rfl | ⟨c, rest, -, he⟩
  · exact hs
  · exact h c { s with pending := rest } t hs he

/-- Settles O1, by the definition of a step. -/
theorem stepRunsFrontCommand : Obligations.StepRunsFrontCommand := by
  intro s c rest h
  unfold step
  rw [h]

/-- Settles O2: a command acts through `act`, or is one of the two resets of the reset line. -/
theorem everyCommandRuns : Obligations.EveryCommandRuns := by
  intro c s
  by_cases hp : c = .powerOnReset
  · subst hp
    exact ⟨_, rfl, rfl⟩
  · by_cases hr : c = .resetInAsserted
    · subst hr
      exact ⟨_, rfl, rfl⟩
    · exact ⟨_, exec_eq_act s hp hr, rfl⟩

/-- With LEAK_IN deasserted, or no zone named for it, an examination of the line does nothing (R145). -/
theorem examineLine_eq_self {d : Part}
    (h : d.lines.leakIn = false ∨ d.sru.profile.leakLineZone = none) : examineLine d = d := by
  unfold examineLine
  split
  · rename_i hl hz
    simp [hl, hz] at h
  · rfl

/-- A power-on reset leaves no zone for LEAK_IN to confirm, and nothing due. -/
theorem complete_powerOnReset (d : Part) : complete (powerOnReset d) =
    { Part.powerOn d.lines.acfailIn d.lines.leakIn with lkm.handOffs := d.lkm.handOffs } := by
  unfold powerOnReset
  rw [examineLine_eq_self (.inr rfl), complete_quiet _ ⟨rfl, rfl⟩]
  rfl

/-- Settles O3: the completed power-on reset is the power-on part at the levels of the input lines. -/
theorem powerOnResetValues : Obligations.PowerOnResetValues := by
  intro s
  refine ⟨_, rfl, rfl, ?_⟩
  simp only [complete_powerOnReset]
  simp [Part.powerOn, Slc.powerOn, Tlf.powerOn, Bcu.powerOn, Sru.powerOn, Sqe.powerOn, Lkm.powerOn,
    Rlp.powerOn, Profile.default]

/-- Settles O5: an assertion of RESET_IN from its two parts, and every other command by the way in which it
answers while RESET_IN is asserted. -/
theorem resetInHolds : Obligations.ResetInHolds := by
  refine ⟨fun s => ?_, fun c s h => ?_⟩
  · show Host.Outcome.next _ = _
    simp [refreshLines, assertReset, valveLevel, alertLevel]
  · have held (hp : c ≠ .powerOnReset) (hr : c ≠ .resetInAsserted) :
        exec c s = .next { s with part := recorded c s.part } := by
      rw [exec_eq_act s hp hr, act_reset _ _ (by simpa using h)]
    cases c
    case powerOnReset => exact ⟨_, rfl, by rw [complete_powerOnReset]; rfl⟩
    case resetInAsserted => exact ⟨_, rfl, rfl⟩
    all_goals exact held (by simp) (by simp)

end Sys2Proof.Machine

/-! PROOFS. The requests that are answered at once: the part in which the only request begins, what an answer then
leaves, and the requests that only read or set a setting (R51, R52, R159, R160, R163, R175 to R177). -/

namespace Sys2Proof.Machine

-- One proof after another: proofs that are checked side by side take a thread each.
set_option Elab.async false

/-- The part in which `q`, the only request of the queue, begins: its Fault Detail record is gone (R156, R159). -/
def Part.opened (q : Queued) (d : Part) : Part :=
  { d with rlp.requests := [q], rlp.phase := .fresh, rlp.detail := none }

/-- A request that executes at once, leaves nothing due and keeps room for its response, is answered in the part
that it leaves. -/
theorem exec_answers {c : Instr} {q : Queued} {a : Answer} {s : State} (hc : request c = some q)
    (hs : s.part.ready) (g : Part) (hg : g.quiet) (hl : g.rlp.responses.length < 8)
    (he : execRequest s.part.rlp.detail q.req (s.part.opened q) = (g.opened q, .answer a)) :
    exec c s = .next { s with part := answeredBy a q g } := by
  rw [exec_request hc]
  exact exec_answered q a s (g.opened q) hs he rfl hl rfl hg.1 hg.2

/-- A request that changes nothing is answered in the part that it found. -/
theorem exec_answers_same {c : Instr} {q : Queued} {a : Answer} {s : State} (hc : request c = some q)
    (hs : s.part.ready)
    (he : execRequest s.part.rlp.detail q.req (s.part.opened q) = (s.part.opened q, .answer a)) :
    exec c s = .next { s with part := answeredBy a q s.part } :=
  exec_answers hc hs s.part hs.1.2 hs.2.2 he

/-! ## Requests on a branch -/

theorem withBranch_range {w : Word} (h : 36 ≤ w.toNat) (d : Part) (f : Nat → Branch → Part × Answer) :
    withBranch w d f = (d, Answer.refuse .range (some w.toNat) (some 0) 0) := if_pos h

theorem withBranch_empty {w : Word} {d : Part} (h : w.toNat < 36) (hb : d.branch w.toNat = none)
    (f : Nat → Branch → Part × Answer) :
    withBranch w d f = (d, Answer.refuse .notAllowed (some w.toNat) none 0) := by
  simp only [withBranch, hb, if_neg (Nat.not_le.mpr h)]

theorem withBranch_valid {w : Word} {d : Part} {x : Branch} (h : w.toNat < 36)
    (hb : d.branch w.toNat = some x) (f : Nat → Branch → Part × Answer) :
    withBranch w d f = f w.toNat x := by
  simp only [withBranch, hb, if_neg (Nat.not_le.mpr h)]

theorem doBranchRequest_action {action : Word} (h : action.toNat ≤ 2) (branch : Word) (d : Part) :
    doBranchRequest branch action d = withBranch branch d fun b _ =>
      let d' := changeBranch b (branchAction action.toNat) d
      (d', { Answer.done [] with held := carriesHold b d' }) := if_neg (by omega)

/-- Settles O41: the action is checked first, then the number, then the entry. -/
theorem branchNumberRefused : Obligations.BranchNumberRefused := by
  intro s tag branch action hs
  have empty (hb : branch.toNat < 36) (he : s.part.branch branch.toNat = none) (q : Queued)
      (f : Nat → Branch → Part × Answer) : withBranch branch (s.part.opened q) f =
        (s.part.opened q, Answer.refuse .notAllowed (some branch.toNat) none 0) :=
    withBranch_empty (d := s.part.opened q) hb he f
  refine ⟨fun ha => ?_, fun hb => ⟨fun ha => ?_, ?_, ?_⟩, fun hb he => ⟨fun ha => ?_, ?_, ?_⟩⟩
  · exact exec_answers_same rfl hs (congrArg answered (if_pos ha))
  · exact exec_answers_same rfl hs (congrArg answered
      ((doBranchRequest_action ha _ _).trans (withBranch_range hb _ _)))
  · exact exec_answers_same rfl hs (congrArg answered (withBranch_range hb _ _))
  · exact exec_answers_same rfl hs (congrArg answered (withBranch_range hb _ _))
  · exact exec_answers_same rfl hs (congrArg answered
      ((doBranchRequest_action ha _ _).trans (empty hb he _ _)))
  · exact exec_answers_same rfl hs (congrArg answered (empty hb he _ _))
  · exact exec_answers_same rfl hs (congrArg answered (empty hb he _ _))

/-! ## READ STATUS, GET DETAIL and LOCATE BRANCH -/

/-- A list of eight members, spelt out. -/
theorem eq_of_length_eight {α : Type} {l : List α} (h : l.length = 8) :
    ∃ a b c d e f g i, l = [a, b, c, d, e, f, g, i] := by
  match l, h with
  | [a, b, c, d, e, f, g, i], _ => exact ⟨a, b, c, d, e, f, g, i, rfl⟩

/-- Settles O40: each request leaves the part as it began, and with eight zones the status record is a list of
67 bytes that evaluates field by field. -/
theorem readingRequestsAnswer : Obligations.ReadingRequestsAnswer := by
  intro s tag hs
  refine ⟨fun hz => ⟨exec_answers_same rfl hs rfl, ?_⟩, fun x hx => ?_, fun hx => ?_,
    fun branch x hb hx => ?_⟩
  · obtain ⟨z0, z1, z2, z3, z4, z5, z6, z7, hl⟩ := eq_of_length_eight hz
    simp only [statusRecord, statusRun, refreshLines_lkm, hl]
    simp [statusSource, statusCounters, statusFeatures, oneByte, fourBytes, optFourBytes,
      optTwoBytes, twoBytes, wordBytes, Zone.statusByte]
  · exact exec_answers_same rfl hs (by rw [hx]; rfl)
  · exact exec_answers_same rfl hs (by rw [hx]; rfl)
  · exact exec_answers_same rfl hs (congrArg answered
      (withBranch_valid (d := s.part.opened ⟨tag, .locateBranch branch⟩) hb hx _))

/-! ## SET FEATURE -/

theorem doSetFeature_none {f v : Word} {d : Part} (h : featureValue d.rlp.features f.toNat = none) :
    doSetFeature f v d = (d, { Answer.refuse .range (some f.toNat) (some 0) 0 with
      result := Config.unknownFeatureResult f }) := by
  simp only [doSetFeature, h]

theorem doSetFeature_within {f v : Word} {d : Part} {old : Nat}
    (h : featureValue d.rlp.features f.toNat = some old)
    (hl : (featureRange f.toNat).1 ≤ v.toNat) (hh : v.toNat ≤ (featureRange f.toNat).2) :
    doSetFeature f v d = (setFeatures (d.rlp.features.store f.toNat v.toNat) d,
      Answer.done (twoBytes old)) := by
  simp only [doSetFeature, h]
  exact if_pos ⟨hl, hh⟩

theorem doSetFeature_refused {f v : Word} {d : Part} {old : Nat}
    (h : featureValue d.rlp.features f.toNat = some old)
    (hv : ¬ ((featureRange f.toNat).1 ≤ v.toNat ∧ v.toNat ≤ (featureRange f.toNat).2))
    (hr : featureRefuses f.toNat = true) :
    doSetFeature f v d = (d, { Answer.refuse .range (some f.toNat) (some 1) 0 with
      result := twoBytes old }) := by
  simp only [doSetFeature, h]
  exact (if_neg hv).trans (if_pos hr)

theorem doSetFeature_clamped {f v : Word} {d : Part} {old : Nat}
    (h : featureValue d.rlp.features f.toNat = some old)
    (hv : ¬ ((featureRange f.toNat).1 ≤ v.toNat ∧ v.toNat ≤ (featureRange f.toNat).2))
    (hr : featureRefuses f.toNat = false) :
    doSetFeature f v d =
      (setFeatures (d.rlp.features.store f.toNat
          (max (featureRange f.toNat).1 (min (featureRange f.toNat).2 v.toNat))) d,
        { Answer.refuse .clamped (some f.toNat) (some 1) 0 with result := twoBytes old }) := by
  simp only [doSetFeature, h]
  exact (if_neg hv).trans (if_neg (by simp [hr]))

section
variable {s : State} {tag feature value : Word} {a : Answer} {g : Features}

/-- SET FEATURE answers at once, with the settings that it leaves. -/
theorem exec_setFeature (hs : s.part.ready)
    (h : doSetFeature feature value (s.part.opened ⟨tag, .setFeature feature value⟩) =
      (setFeatures g (s.part.opened ⟨tag, .setFeature feature value⟩), a)) :
    exec (.setFeature tag feature value) s = .next (State.mk
      (answeredBy a ⟨tag, .setFeature feature value⟩
        { s.part with rlp := { s.part.rlp with features := g } }) s.pending) :=
  exec_answers rfl hs { s.part with rlp := { s.part.rlp with features := g } } hs.1.2 hs.2.2
    (congrArg answered h)

/-- A feature that is stored at its nearest limit (R163). -/
theorem exec_setFeature_stored {old : Nat} (hs : s.part.ready)
    (hold : featureValue s.part.rlp.features feature.toNat = some old)
    (hr : featureRefuses feature.toNat = false)
    (hg : g = s.part.rlp.features.store feature.toNat
      (max (featureRange feature.toNat).1 (min (featureRange feature.toNat).2 value.toNat)))
    (ha : a = if (featureRange feature.toNat).1 ≤ value.toNat ∧
        value.toNat ≤ (featureRange feature.toNat).2 then Answer.done (twoBytes old)
      else { Answer.refuse .clamped (some feature.toNat) (some 1) 0 with result := twoBytes old }) :
    exec (.setFeature tag feature value) s = .next (State.mk
      (answeredBy a ⟨tag, .setFeature feature value⟩
        { s.part with rlp := { s.part.rlp with features := g } }) s.pending) := by
  apply exec_setFeature hs
  subst ha hg
  split
  · rename_i hv
    rw [Nat.min_eq_right hv.2, Nat.max_eq_right hv.1]
    exact doSetFeature_within hold hv.1 hv.2
  · rename_i hv
    exact doSetFeature_clamped hold hv hr

/-- A switch of two values: it is stored, or refused with RANGE (R163). -/
theorem exec_setFeature_switched {old : Nat} (hs : s.part.ready)
    (hold : featureValue s.part.rlp.features feature.toNat = some old)
    (hrange : featureRange feature.toNat = (0, 1)) (hr : featureRefuses feature.toNat = true)
    (hg : g = s.part.rlp.features.store feature.toNat value.toNat) :
    (value.toNat ≤ 1 → exec (.setFeature tag feature value) s = .next (State.mk
      (answeredBy (Answer.done (twoBytes old)) ⟨tag, .setFeature feature value⟩
        { s.part with rlp := { s.part.rlp with features := g } }) s.pending)) ∧
    (2 ≤ value.toNat → exec (.setFeature tag feature value) s = .next (State.mk
      (answeredBy { Answer.refuse .range (some feature.toNat) (some 1) 0 with result := twoBytes old }
        ⟨tag, .setFeature feature value⟩ s.part) s.pending)) := by
  subst hg
  refine ⟨fun hv => exec_setFeature hs ?_, fun hv => exec_setFeature hs ?_⟩
  · exact doSetFeature_within hold (by simp [hrange]) (by simp [hrange, hv])
  · exact doSetFeature_refused hold (by rw [hrange]; omega) hr

end

/-- Settles O43: three features are stored at their nearest limit, two are switches, and no other has a value. -/
theorem setFeatureActs : Obligations.SetFeatureActs := by
  intro s tag feature value hs
  refine ⟨fun hi => ?_, fun hi => ?_, fun hi => ?_, fun hi => ?_, fun hi => ?_, fun hi => ?_⟩
  · exact exec_setFeature_stored hs (by rw [hi]; rfl) (by rw [hi]; rfl) (by rw [hi]; rfl)
      (by rw [hi]; rfl)
  · exact exec_setFeature_switched hs (by rw [hi]; rfl) (by rw [hi]; rfl) (by rw [hi]; rfl)
      (by rw [hi]; rfl)
  · exact exec_setFeature_switched hs (by rw [hi]; rfl) (by rw [hi]; rfl) (by rw [hi]; rfl)
      (by rw [hi]; rfl)
  · exact exec_setFeature_stored hs (by rw [hi]; rfl) (by rw [hi]; rfl) (by rw [hi]; rfl)
      (by rw [hi]; rfl)
  · exact exec_setFeature_stored hs (by rw [hi]; rfl) (by rw [hi]; rfl) (by rw [hi]; rfl)
      (by rw [hi]; rfl)
  · refine ⟨Config.unknownFeatureResult feature, exec_setFeature hs (doSetFeature_none ?_)⟩
    show featureValue s.part.rlp.features feature.toNat = none
    unfold featureValue
    split <;> first | omega | rfl

/-! ## Protection -/

/-- Setting listed banks changes their flags and no other. -/
theorem getElem?_setBanks (t : TableId) (v : Bool) (i : Nat) (banks : List Nat) (flags : List Bool)
    (h : ∀ b ∈ banks, bankOffset t + b < flags.length) :
    (setBanks t banks v flags)[i]? =
      if ∃ b ∈ banks, bankOffset t + b = i then some v else flags[i]? := by
  unfold setBanks
  induction banks generalizing flags with
  | nil => simp
  | cons b bs ih =>
    have hb := h b List.mem_cons_self
    rw [List.foldl_cons, ih _ fun c hc => by
      rw [List.length_set]; exact h c (List.mem_cons_of_mem _ hc)]
    simp only [List.mem_cons, exists_eq_or_imp]
    by_cases hbs : ∃ c ∈ bs, bankOffset t + c = i
    · simp [hbs]
    · rw [if_neg hbs, List.getElem?_set]
      by_cases hi : bankOffset t + b = i
      · subst hi; simp [hb]
      · simp [hi, hbs]

theorem length_setBanks (t : TableId) (v : Bool) (banks : List Nat) (flags : List Bool) :
    (setBanks t banks v flags).length = flags.length := by
  unfold setBanks
  induction banks generalizing flags with
  | nil => rfl
  | cons b bs ih => rw [List.foldl_cons, ih, List.length_set]

/-- The banks of a table stand among the 21 flags (R169). -/
theorem bankOffset_add_bankCount_le (t : TableId) : bankOffset t + bankCount t ≤ 21 := by
  cases t <;> decide

theorem badBank_eq_none {t : TableId} {banks : List Nat} (h : ∀ b ∈ banks, b < bankCount t) :
    badBank t banks = none := by
  unfold badBank
  rw [List.find?_eq_none]
  intro x hx
  have := h x.1 (List.fst_mem_of_mem_zipIdx hx)
  simpa using this

theorem doProtect_length {banks : List Word} (h : banks.length = 0 ∨ 21 < banks.length) (v : Bool)
    (table : Word) (d : Part) :
    doProtect v table banks d = (d, Answer.refuse .badRequest none none 0) :=
  if_pos (by simpa using h)

section
variable {banks : List Word} {table : Word} {t : TableId} (h1 : 1 ≤ banks.length)
  (h2 : banks.length ≤ 21) (ht : TableId.ofCode table.toNat = some t)
  (hb : ∀ b ∈ banks, b.toNat < bankCount t)

include h1 h2 ht hb in
/-- PROTECT and UNPROTECT of banks that the table has: FROZEN, or the flags of those banks (R176, R177). -/
theorem doProtect_banks (v : Bool) (d : Part) : doProtect v table banks d =
    if d.prot.frozen then (d, Answer.refuse .frozen none none 0)
    else ({ d with prot.flags := setBanks t (banks.map BitVec.toNat) v d.prot.flags },
      Answer.done []) := by
  have hbad : badBank t (banks.map BitVec.toNat) = none := badBank_eq_none (by simpa using hb)
  unfold doProtect
  rw [if_neg (by simp only [List.length_map]; omega)]
  simp only [ht, hbad]

include hb in
/-- The flags that PROTECT or UNPROTECT of such banks leaves. -/
theorem getElem?_setBanks_words (v : Bool) (flags : List Bool) (hf : flags.length = 21) (i : Nat) :
    (setBanks t (banks.map BitVec.toNat) v flags)[i]? =
      if ∃ b ∈ banks, bankOffset t + b.toNat = i then some v else flags[i]? := by
  rw [getElem?_setBanks]
  · simp
  · intro b hm
    obtain ⟨w, hw, rfl⟩ := List.mem_map.mp hm
    have := hb w hw
    have := bankOffset_add_bankCount_le t
    omega

end

/-- Settles O42: the length of the list is checked first, the freeze before the flags, and the flags are those
of the listed banks. -/
theorem protectionRequestsAct : Obligations.ProtectionRequestsAct := by
  intro s tag table banks hs hf
  have frozen (t) (h1 : 1 ≤ banks.length) (h2 : banks.length ≤ 21)
      (ht : TableId.ofCode table.toNat = some t) (hb : ∀ b ∈ banks, b.toNat < bankCount t)
      (hz : s.part.prot.frozen = true) (v : Bool) (q : Queued) :
      doProtect v table banks (s.part.opened q) =
        (s.part.opened q, Answer.refuse .frozen none none 0) :=
    (doProtect_banks h1 h2 ht hb v _).trans (if_pos hz)
  have free (t) (h1 : 1 ≤ banks.length) (h2 : banks.length ≤ 21)
      (ht : TableId.ofCode table.toNat = some t) (hb : ∀ b ∈ banks, b.toNat < bankCount t)
      (hz : s.part.prot.frozen = false) (v : Bool) (q : Queued) :
      doProtect v table banks (s.part.opened q) = (Part.opened q { s.part with
        prot := ⟨setBanks t (banks.map BitVec.toNat) v s.part.prot.flags, false⟩ },
        Answer.done []) := by
    rw [doProtect_banks h1 h2 ht hb v, if_neg (by simp [Part.opened, hz]), ← hz]
    rfl
  refine ⟨?_, fun hl => ⟨?_, ?_⟩, fun t h1 h2 ht hb => ⟨fun hz => ⟨?_, ?_⟩, fun hz =>
    ⟨setBanks t (banks.map BitVec.toNat) true s.part.prot.flags,
      setBanks t (banks.map BitVec.toNat) false s.part.prot.flags, ?_, ?_, ?_, ?_,
      fun i _ => ⟨?_, ?_⟩⟩⟩⟩
  · exact exec_answers rfl hs _ hs.1.2 hs.2.2 rfl
  · exact exec_answers_same rfl hs (congrArg answered (doProtect_length hl true table _))
  · exact exec_answers_same rfl hs (congrArg answered (doProtect_length hl false table _))
  · exact exec_answers_same rfl hs (congrArg answered (frozen t h1 h2 ht hb hz true _))
  · exact exec_answers_same rfl hs (congrArg answered (frozen t h1 h2 ht hb hz false _))
  · exact exec_answers rfl hs _ hs.1.2 hs.2.2 (congrArg answered (free t h1 h2 ht hb hz true _))
  · exact exec_answers rfl hs _ hs.1.2 hs.2.2 (congrArg answered (free t h1 h2 ht hb hz false _))
  · rw [length_setBanks, hf]
  · rw [length_setBanks, hf]
  · exact getElem?_setBanks_words hb true _ hf i
  · exact getElem?_setBanks_words hb false _ hf i

end Sys2Proof.Machine

/-! PROOFS. The arbiter's cases (R167), a channel's parameters and the Telemetry Queue (R27, R39, R40, R42), the
cells that are not accepted (R8), and what holds right after reset. -/

namespace Sys2Proof.Machine

-- One proof after another: proofs that are checked side by side take a thread each.
set_option Elab.async false

/-! ## The arbiter -/

theorem arbitrate_busy {d : Part} {m : Uplink} (h : d.rlp.tx = some m) : arbitrate d = d := by
  simp only [arbitrate, h]

section
variable {d : Part} (ht : d.rlp.tx = none)
include ht

theorem arbitrate_event {e : EventRecord} {rest : List EventRecord} (he : d.rlp.events = e :: rest) :
    arbitrate d = serveEvent e rest d := by
  simp only [arbitrate, ht, he]

variable (he : d.rlp.events = [])
include he

theorem arbitrate_nothing (hr : d.rlp.responses = []) (hq : d.tlf.queue = []) : arbitrate d = d := by
  simp only [arbitrate, ht, he, hr, hq]

theorem arbitrate_telemetry (hr : d.rlp.responses = []) (hq : d.tlf.queue ≠ []) :
    arbitrate d = serveTelemetry 0 d := by
  obtain ⟨r, rs, hq⟩ := List.exists_cons_of_ne_nil hq
  simp only [arbitrate, ht, he, hr, hq]

variable {m : Uplink} {rest : List Uplink} (hr : d.rlp.responses = m :: rest)
include hr

theorem arbitrate_response (hq : d.tlf.queue = []) : arbitrate d = serveResponse m rest 0 d := by
  simp only [arbitrate, ht, he, hr, hq]

theorem arbitrate_after_rsp (hq : d.tlf.queue ≠ []) (hs : d.rlp.side = .rsp) :
    arbitrate d = if d.rlp.run < d.rlp.features.wRsp then serveResponse m rest (d.rlp.run + 1) d
      else serveTelemetry 1 d := by
  obtain ⟨r, rs, hq⟩ := List.exists_cons_of_ne_nil hq
  simp only [arbitrate, ht, he, hr, hq, hs]

theorem arbitrate_after_tel (hq : d.tlf.queue ≠ []) (hs : d.rlp.side = .tel) :
    arbitrate d = if d.rlp.run < d.rlp.features.wTel then serveTelemetry (d.rlp.run + 1) d
      else serveResponse m rest 1 d := by
  obtain ⟨r, rs, hq⟩ := List.exists_cons_of_ne_nil hq
  simp only [arbitrate, ht, he, hr, hq, hs]

end

/-- Settles O53: a decision, by the first case that applies. -/
theorem arbiterCases : Obligations.ArbiterCases := fun _ =>
  ⟨fun _ h => arbitrate_busy h, fun ht =>
    ⟨fun _ _ he => arbitrate_event ht he, fun he hr hq => arbitrate_nothing ht he hr hq,
      fun he hr hq => arbitrate_telemetry ht he hr hq, fun _ _ he hr =>
      ⟨fun hq => arbitrate_response ht he hr hq, fun hq =>
        ⟨fun hs hw => (arbitrate_after_rsp ht he hr hq hs).trans (if_pos hw),
          fun hs hw => (arbitrate_after_rsp ht he hr hq hs).trans (if_neg (Nat.not_lt.mpr hw)),
          fun hs hw => (arbitrate_after_tel ht he hr hq hs).trans (if_pos hw),
          fun hs hw => (arbitrate_after_tel ht he hr hq hs).trans (if_neg (Nat.not_lt.mpr hw))⟩⟩⟩⟩

/-! ## Parameters, forward modes and the Telemetry Queue -/

theorem paramsOf_absent {d : Part} {kind : ChannelKind} {limit : Option Nat}
    (h : ∀ n, limit = some n → entry d.tlf.limits n = none) :
    paramsOf d kind limit = ⟨none, 1, 100, .all, 0, .never⟩ := by
  have : limit.bind (entry d.tlf.limits) = none := by
    cases limit with
    | none => rfl
    | some n => exact h n rfl
  simp only [paramsOf, this]

theorem paramsOf_present {d : Part} {n : Nat} {e : LimitEntry} (h : entry d.tlf.limits n = some e)
    (kind : ChannelKind) : paramsOf d kind (some n) =
      if kind.isStatus ∨ kind = .generic then
        ⟨none, 1, e.staleLimit, e.forward, e.deadband, .never⟩
      else ⟨some e, e.persistence, e.staleLimit, e.forward, e.deadband, e.tripAction⟩ := by
  simp only [paramsOf, Option.bind_some, h]

/-- The DELTA mode forwards the first sample, and one that differs by the deadband from the last forwarded
(R39). -/
theorem forwards_delta {p : Params} (h : p.forward = .delta) (x : ChannelState) (changed : Bool)
    (v : Int) : forwards p x changed v = true ↔
      ∀ w, x.lastForwarded = some w → v ≥ w + p.deadband ∨ v ≤ w - p.deadband := by
  unfold forwards
  rw [h]
  cases x.lastForwarded with
  | none => simp
  | some w =>
    simp only [decide_eq_true_eq, Option.some.injEq, forall_eq']
    omega

theorem forward_room {d : Part} {m : Uplink} (ht : d.rlp.tx = some m) (r : SampleRecord)
    (h : d.tlf.queue.length < 128) :
    forward r d = { d with tlf := { d.tlf with queue := d.tlf.queue ++ [r] } } :=
  (if_pos h).trans (arbitrate_busy ht)

theorem forward_full {d : Part} {m : Uplink} (ht : d.rlp.tx = some m) (r : SampleRecord)
    (h : 128 ≤ d.tlf.queue.length) :
    forward r d = { d with tlf := { d.tlf with
      queue := d.tlf.queue.tail ++ [r], drops := satInc d.tlf.drops } } := by
  rw [← List.drop_one]
  exact (if_neg (Nat.not_lt.mpr h)).trans (arbitrate_busy ht)

/-- Settles O15, from the parameters, the forward modes and the two ways of joining the queue. -/
theorem forwardingRules : Obligations.ForwardingRules := by
  refine ⟨fun d kind limit => ⟨paramsOf_absent, fun n e hn he => ?_⟩,
    fun p x changed v => ⟨fun h => ?_, fun h => forwards_delta h x changed v, fun h => ?_, fun h => ?_⟩,
    fun d r m ht => ⟨forward_room ht r, forward_full ht r⟩⟩
  · subst hn
    rw [paramsOf_present he]
    refine ⟨fun hk => if_neg ?_, fun hk => if_pos ?_⟩ <;> revert kind <;> decide
  all_goals simp only [forwards, h]

/-! ## Cells that are not accepted -/

/-- The quality code is what a shift by six leaves of the status byte. -/
theorem cellQuality_eq (c : InCell) : cellQuality c = (c.status >>> 6).toNat := by
  simp [cellQuality, BitVec.extractLsb'_toNat, Nat.shiftRight_eq_div_pow]
  have := c.status.isLt
  omega

theorem channelKind_ofCode_iff (n : Nat) (k : ChannelKind) :
    ChannelKind.ofCode n = some k ↔ n = k.code := by
  constructor
  · intro h
    obtain ⟨hlt, rfl⟩ := List.getElem?_eq_some_iff.mp h
    revert n
    decide
  · rintro rfl
    cases k <;> rfl

/-- The fate of a cell in an IN slot, by the tests of R8 in order. -/
theorem cellFate_input (node : Nat) (kind : ChannelKind) (limit : Option Nat) (c : InCell) :
    cellFate (some (.input node kind limit)) c =
      match Quality.ofCode (c.status >>> 6).toNat with
      | none => .checkError
      | some q =>
        if crc8 [c.node, c.kind, hiByte c.value, loByte c.value, c.status] ≠ c.check then .checkError
        else if c.node.toNat ≠ node ∨ c.kind.toNat ≠ kind.code then .misplaced
        else .accepted node kind limit q := by
  simp only [cellFate, cellQuality_eq, cellCovered, ne_eq, channelKind_ofCode_iff] <;> rfl

/-- A cell that leaves the part quiet and its lines as they are, is done. -/
theorem exec_cell {s : State} {slot : Nat} {c : InCell} {d : Part} (hr : s.part.running)
    (h : receiveCell slot c s.part = d) (hq : d.quiet) (hl : d.linesFollow) :
    exec (.cellReceive slot c) s = .next { s with part := d } := act_same _ s d hr h hq hl

/-- Settles O9: a cell that is not accepted is counted, or is ignored. -/
theorem cellsNotAccepted : Obligations.CellsNotAccepted := by
  intro s slot c hr hl
  have counted (u : Slc) (h : receiveCell slot c s.part = { s.part with slc := u }) :
      exec (.cellReceive slot c) s = .next { s with part := { s.part with slc := u } } :=
    exec_cell hr h hr.2 hl
  have ignored (h : cellFate (entry s.part.slc.active slot) c = .ignored) :
      exec (.cellReceive slot c) s = .next s :=
    exec_cell hr (by simp only [receiveCell, h]) hr.2 hl
  split
  · rename_i node kind limit he
    have hf := cellFate_input node kind limit c
    refine ⟨fun hc => counted _ ?_, fun hc hq hn => counted _ ?_⟩
    · have : cellFate (entry s.part.slc.active slot) c = .checkError := by
        rw [he, hf]
        split
        · rfl
        · rename_i q hq
          exact if_pos (hc.resolve_right (by rw [hq]; exact Option.some_ne_none q))
      simp only [receiveCell, this]
    · obtain ⟨q, hq⟩ := Option.ne_none_iff_exists'.mp hq
      have : cellFate (entry s.part.slc.active slot) c = .misplaced := by
        rw [he, hf, hq]
        exact (if_neg (by simpa using hc)).trans (if_pos hn)
      simp only [receiveCell, this]
  · rename_i he
    apply ignored
    unfold cellFate
    split
    · exact absurd ‹_› (he _ _ _)
    · rfl

/-! ## Right after reset -/

/-- An entry of a table of empty entries is empty. -/
theorem entry_replicate_none {α : Type} (n i : Nat) : entry (List.replicate n (none : Option α)) i = none := by
  unfold entry
  rw [List.getElem?_replicate]
  split <;> rfl

/-- Settles O54: no branch is valid after reset, so each statement about branches is empty. -/
theorem invariantsAtReset : Obligations.InvariantsAtReset := by
  have empty (b : Nat) : State.reset.part.branch b = none := entry_replicate_none 36 b
  refine ⟨⟨?_, ?_, ?_, ?_⟩, ⟨rfl, rfl⟩, ⟨rfl, rfl⟩, ⟨rfl, List.nodup_nil, fun b => ?_, ?_, ?_⟩, ⟨rfl, ?_⟩,
    ⟨⟨8, le_refl 8, by decide⟩, fun _ => rfl, fun _ => rfl, fun h => absurd h (by decide),
      fun h => absurd h (by decide)⟩, by decide⟩
  · decide
  · decide
  · decide
  · decide
  · simp only [empty, reduceCtorEq, false_and, exists_false, iff_false]
    exact List.not_mem_nil
  all_goals simp [empty]

end Sys2Proof.Machine

/-! PROOFS. What a request and the moves of the head of the Request Queue leave of the rack link (R155 to R157,
R165): `Within d d'`, the cases of a move, and the invariant of the queues and the lines. -/

namespace Sys2Proof.Machine

-- One proof after another: proofs that are checked side by side take a thread each.
set_option Elab.async false

/-- What no command but the resets and the moves of the Request Queue touches: the requests and the inputs, and the
bounds of the other queues. -/
structure Within (d d' : Part) : Prop extends RequestsStand d d' where
  outputs : d'.lines = d.lines := by rfl
  responses : d'.rlp.responses.length ≤ d.rlp.responses.length := by exact le_refl _
  events : d.rlp.events.length ≤ 64 → d'.rlp.events.length ≤ 64 := by exact id
  queue : d.tlf.queue.length ≤ 128 → d'.tlf.queue.length ≤ 128 := by exact id

theorem Within.refl (d : Part) : Within d d := {}

theorem Within.trans {a b c : Part} (h : Within a b) (g : Within b c) : Within a c where
  toRequestsStand := h.toRequestsStand.trans g.toRequestsStand
  outputs := g.outputs.trans h.outputs
  responses := g.responses.trans h.responses
  events := g.events ∘ h.events
  queue := g.queue ∘ h.queue

theorem Base.toWithin {d d' : Part} (h : Base d d') : Within d d' :=
  { h.toRequestsStand with
    outputs := h.outputs, responses := h.responses, events := h.events, queue := h.queue }

theorem Frame.toWithin {d d' : Part} (h : Frame d d') : Within d d' := h.toBase.toWithin

theorem arbitrate_within (d : Part) : Within d (arbitrate d) := (arbitrate_settled d).toFrame.toWithin

/-! ## A request that acts -/

theorem withBranch_within {w : Word} {d : Part} {f : Nat → Branch → Part × Answer}
    (h : ∀ b x, Within d (f b x).1) : Within d (withBranch w d f).1 := by
  unfold withBranch
  simp only
  split
  · exact .refl d
  · split
    · exact .refl d
    · exact h _ _

theorem ifAllowed_within {c : Bool} {f : Part → Part} {d : Part} (h : Within d (f d)) :
    Within d (ifAllowed c f d).1 := by
  unfold ifAllowed
  split
  · exact h
  · exact .refl d

theorem withZone_part (w : Word) (f : Nat → Part → Part × Status) (d : Part) :
    (withZone w f d).1 = d ∨ (withZone w f d).1 = (f w.toNat d).1 := by
  unfold withZone
  simp only
  split
  · exact .inl rfl
  · split <;> (rename_i h; exact .inr (by rw [h]))

theorem withZone_within {w : Word} {f : Nat → Part → Part × Status} {d : Part}
    (h : Within d (f w.toNat d).1) : Within d (withZone w f d).1 := by
  rcases withZone_part w f d with e | e <;> rw [e]
  · exact .refl d
  · exact h

theorem doSetFeature_part (f v : Word) (d : Part) :
    (doSetFeature f v d).1 = d ∨ ∃ g, (doSetFeature f v d).1 = setFeatures g d := by
  unfold doSetFeature
  simp only
  split
  · exact .inl rfl
  · split
    · exact .inr ⟨_, rfl⟩
    · split
      · exact .inl rfl
      · exact .inr ⟨_, rfl⟩

theorem doProtect_part (v : Bool) (table : Word) (banks : List Word) (d : Part) :
    (doProtect v table banks d).1 = d ∨
      (d.prot.frozen = false ∧ ∃ l, (doProtect v table banks d).1 = { d with prot.flags := l }) := by
  unfold doProtect
  simp only
  split
  · exact .inl rfl
  · split
    · exact .inl rfl
    · split
      · exact .inl rfl
      · split
        · exact .inl rfl
        · rename_i hf
          exact .inr ⟨by simpa using hf, _, rfl⟩

theorem doNodePass_part (node value : Word) (d : Part) :
    (doNodePass node value d).1 = d ∨ (doNodePass node value d).1 =
      (stage .rlp none node.toNat value { d with rlp.passOutcome := none }).1 := by
  unfold doNodePass
  split
  · exact .inl rfl
  · split <;> (rename_i h; exact .inr (by rw [h]))

theorem doReadTable_part (table start count : Word) (d : Part) :
    (doReadTable table start count d).1 = d := by
  unfold doReadTable
  simp only
  split
  · rfl
  · split
    · rfl
    · split <;> rfl

theorem doGetDetail_part (copy : Option FaultDetail) (d : Part) : (doGetDetail copy d).1 = d := by
  unfold doGetDetail
  split <;> rfl

/-- A request acts without touching the Request Queue, and within the bounds of the others. -/
theorem execRequest_within (copy : Option FaultDetail) (q : Request) (d : Part) :
    Within d (execRequest copy q d).1 := by
  cases q with
  | readStatus => exact .refl d
  | writeTable table start words => exact (writeTable_base table start words d).toWithin
  | readTable table start count =>
    show Within d (doReadTable table start count d).1
    rw [doReadTable_part]
    exact .refl d
  | locateBranch branch => exact withBranch_within fun _ _ => .refl d
  | branchRequest branch action =>
    show Within d (doBranchRequest branch action d).1
    unfold doBranchRequest
    split
    · exact .refl d
    · exact withBranch_within fun b _ =>
        (changeBranch_kept b (branchAction action.toNat) (fun _ => rfl) d).toFrame.toWithin
  | branchClear branch => exact withBranch_within fun _ _ => (branchClear_kept _ d).toFrame.toWithin
  | sequenceStart => exact ifAllowed_within (startRun_settled d).toFrame.toWithin
  | sequenceSuspend => exact ifAllowed_within (setCauses_settled _ d).toFrame.toWithin
  | sequenceResume => exact ifAllowed_within (setCauses_settled _ d).toFrame.toWithin
  | sequenceAbort => exact ifAllowed_within (abortRun_settled d).toFrame.toWithin
  | leakAck zone => exact withZone_within (leakAck_leaked _ d).toFrame.toWithin
  | leakClear zone => exact withZone_within (leakClear_leaked _ d).toFrame.toWithin
  | nodePass node value =>
    show Within d (doNodePass node value d).1
    rcases doNodePass_part node value d with h | h <;> rw [h]
    · exact .refl d
    · refine Within.trans ?_ (stage_settled _ _ _ _ _).toFrame.toWithin
      exact {}
  | protect table banks =>
    show Within d (doProtect true table banks d).1
    rcases doProtect_part true table banks d with h | ⟨-, l, h⟩ <;> rw [h] <;> exact {}
  | unprotect table banks =>
    show Within d (doProtect false table banks d).1
    rcases doProtect_part false table banks d with h | ⟨-, l, h⟩ <;> rw [h] <;> exact {}
  | freezeProtection => exact {}
  | setFeature feature value =>
    show Within d (doSetFeature feature value d).1
    rcases doSetFeature_part feature value d with h | ⟨g, h⟩ <;> rw [h] <;> exact {}
  | getDetail =>
    show Within d (doGetDetail copy d).1
    rw [doGetDetail_part]
    exact .refl d
  | reset => exact .refl d
  | bad k => exact .refl d

/-! ## The moves of the head -/

/-- The head of the queue begins, its final response is appended, or its next DATA message is. -/
theorem moveHead_cases {d d' : Part} (h : moveHead d = some d') :
    (∃ q rest, d.rlp.requests = q :: rest ∧ d' = beginHead q d) ∨
    (d.rlp.responses.length < 8 ∧ ∃ r, d' = appendFinal r d) ∨
    (d.rlp.responses.length < 8 ∧ ∃ t next left block final,
      d' = appendData t next left block final d) := by
  unfold moveHead at h
  split at h
  · split at h
    · cases h
    · exact .inl ⟨_, _, ‹_›, (Option.some.inj h).symm⟩
  · split at h
    · exact .inr (.inl ⟨‹_›, _, (Option.some.inj h).symm⟩)
    · cases h
  · split at h
    · exact .inr (.inr ⟨‹_›, _, _, _, _, _, (Option.some.inj h).symm⟩)
    · cases h
  · cases h
  · cases h

/-- What every move of the head keeps, the moves that it can make at one event keep. -/
theorem pump_keeps {P : Part → Prop} (h : ∀ d d', P d → moveHead d = some d' → P d') (n : Nat) (d : Part)
    (hd : P d) : P (pump n d) := by
  induction n generalizing d with
  | zero => exact hd
  | succ n ih =>
    cases hm : moveHead d with
    | none => rwa [pump_none _ _ hm]
    | some d' =>
      rw [pump_some _ _ _ hm]
      exact ih d' (h d d' hd hm)

/-- How the head goes on is a matter of its phase and of the Fault Detail record. -/
theorem replyHead_part (r : Reply) (q : Queued) (d : Part) :
    ∃ p x, replyHead r q d = { d with rlp.phase := p, rlp.detail := x } := by
  have noted (a : Answer) (p : HeadPhase) :
      ∃ x, setPhase p (noteDetail a q d) = { d with rlp.phase := p, rlp.detail := x } := by
    unfold noteDetail
    split
    · exact ⟨d.rlp.detail, rfl⟩
    · exact ⟨_, rfl⟩
  cases r with
  | answer a => exact ⟨_, noted a _⟩
  | read t start count final => exact ⟨_, noted final _⟩
  | pass node => exact ⟨_, d.rlp.detail, rfl⟩
  | reset => exact ⟨_, d.rlp.detail, rfl⟩

theorem beginHead_part (q : Queued) (d : Part) : ∃ p x, beginHead q d =
    { settleAll (execRequest d.rlp.detail q.req { d with rlp.detail := none }).1 with
      rlp.phase := p, rlp.detail := x } := replyHead_part _ q _

theorem appendFinal_part (r : Response) (d : Part) : ∃ p l, (l = d.rlp.requests ∨ l = d.rlp.requests.drop 1) ∧
    appendFinal r d = appendResponse (.response r) { d with rlp.phase := p, rlp.requests := l } := by
  unfold appendFinal
  split
  · exact ⟨.resetting, _, .inl rfl, rfl⟩
  · exact ⟨.fresh, _, .inr rfl, rfl⟩

theorem appendData_part (t : TableId) (next left block : Nat) (final : Response) (d : Part) :
    ∃ m p, appendData t next left block final d = appendResponse m { d with rlp.phase := p } := ⟨_, _, rfl⟩

/-! ## The bounds of the queues -/

theorem Within.bounded {d d' : Part} (h : Within d d') (hd : d.queuesBounded) : d'.queuesBounded := by
  obtain ⟨ht, hq, hr, he⟩ := hd
  refine ⟨h.queue ht, ?_, h.responses.trans hr, h.events he⟩
  rw [h.requests]
  exact hq

theorem appendResponse_requests (m : Uplink) (d : Part) :
    (appendResponse m d).rlp.requests = d.rlp.requests := (arbitrate_within _).requests

theorem appendResponse_bounded (m : Uplink) {d : Part} (hd : d.queuesBounded)
    (hl : d.rlp.responses.length < 8) : (appendResponse m d).queuesBounded := by
  obtain ⟨ht, hq, -, he⟩ := hd
  refine (arbitrate_within _).bounded ⟨ht, hq, ?_, he⟩
  rw [List.length_append]
  exact hl

theorem moveHead_bounded {d d' : Part} (hd : d.queuesBounded) (h : moveHead d = some d') :
    d'.queuesBounded := by
  rcases moveHead_cases h with ⟨q, rest, -, rfl⟩ | ⟨hl, r, rfl⟩ | ⟨hl, t, next, left, block, final, rfl⟩
  · obtain ⟨p, x, hb⟩ := beginHead_part q d
    rw [hb]
    exact (settleAll_settled _).toFrame.toWithin.bounded
      ((execRequest_within _ _ _).bounded (d := { d with rlp.detail := none }) hd)
  · obtain ⟨p, l, hp, ha⟩ := appendFinal_part r d
    obtain ⟨ht, hq, hr, he⟩ := hd
    rw [ha]
    refine appendResponse_bounded _ ⟨ht, ?_, hr, he⟩ hl
    rcases hp with rfl | rfl
    · exact hq
    · exact (List.drop_sublist 1 _).length_le.trans hq
  · obtain ⟨m, p, ha⟩ := appendData_part t next left block final d
    rw [ha]
    exact appendResponse_bounded m hd hl

theorem pumpAll_bounded {d : Part} (hd : d.queuesBounded) : (pumpAll d).queuesBounded :=
  pump_keeps (fun _ _ hd h => moveHead_bounded hd h) _ d hd

theorem arrive_bounded (q : Queued) {d : Part} (hd : d.queuesBounded) : (arrive q d).queuesBounded := by
  obtain ⟨ht, hq, hr, he⟩ := hd
  unfold arrive
  split
  · exact pumpAll_bounded ⟨ht, by simp, hr, he⟩
  · split
    · rename_i hl
      refine ⟨ht, ?_, hr, he⟩
      rw [List.length_append]
      exact hl
    · split
      · exact appendResponse_bounded _ ⟨ht, hq, hr, he⟩ ‹_›
      · exact ⟨ht, hq, hr, he⟩

theorem receiveMessage_bounded (bytes : List Byte) {d : Part} (hd : d.queuesBounded) :
    (receiveMessage bytes d).queuesBounded := by
  unfold receiveMessage
  split
  · exact arrive_bounded _ hd
  · exact hd

/-- After a soft reset the four queues hold nothing but the records of the LEAK_IN line. -/
theorem softReset_bounded (d : Part) : (softReset d).queuesBounded :=
  (examineLine_leaked _).toFrame.toWithin.bounded ⟨by simp [resetBlocks, resetTlf, Tlf.powerOn],
    by simp [resetBlocks, resetRlp, Rlp.powerOn], by simp [resetBlocks, resetRlp, Rlp.powerOn],
    by simp [resetBlocks, resetRlp, Rlp.powerOn]⟩

theorem uplinkDone_bounded {d : Part} (hd : d.queuesBounded) : (uplinkDone d).queuesBounded := by
  unfold uplinkDone
  split
  · exact hd
  · split
    · exact softReset_bounded d
    · exact pumpAll_bounded ((arbitrate_within _).bounded hd)

theorem deliverPass_bounded {d : Part} (hd : d.queuesBounded) : (deliverPass d).queuesBounded := by
  unfold deliverPass
  split
  · refine pumpAll_bounded ?_
    unfold answerHead noteDetail
    split <;> exact hd
  · exact hd

theorem complete_bounded {d : Part} (hd : d.queuesBounded) : (complete d).queuesBounded :=
  deliverPass_bounded ((settleAll_settled d).toFrame.toWithin.bounded hd)

theorem spacingExpiry_settled (d : Part) : Settled d (spacingExpiry d) := by
  unfold spacingExpiry
  split
  · exact (bcu_settled d { d.bcu with spacing := .stopped } rfl fun _ h => h.2).trans
      (attempt_settled _)
  · exact .refl d

/-- The commands that are events of one inner block: the two input lines and the expiries. -/
def innerEvent : Instr → Bool
  | .acfailInChange _ => true
  | .leakInChange _ => true
  | .admitTimerExpiry _ => true
  | .stopTimerExpiry _ => true
  | .spacingTimerExpiry => true
  | .qualificationTimerExpiry => true
  | .stableTimerExpiry => true
  | .capacityPersistenceExpiry => true
  | .evaluation => true
  | .stepTimerExpiry => true
  | _ => false

theorem inner_within {c : Instr} (hc : innerEvent c = true) (d : Part) : Within d (effect c d) := by
  cases c
  case acfailInChange => exact (examineAc_sourced d).toFrame.toWithin
  case leakInChange => exact (examineLine_leaked d).toFrame.toWithin
  case admitTimerExpiry => exact (branchExpiry_settled _ _ _ d).toFrame.toWithin
  case stopTimerExpiry => exact (branchExpiry_settled _ _ _ d).toFrame.toWithin
  case spacingTimerExpiry => exact (spacingExpiry_settled d).toFrame.toWithin
  case qualificationTimerExpiry => exact (qualificationExpiry_sourced d).toFrame.toWithin
  case stableTimerExpiry => exact (stableExpiry_sourced d).toFrame.toWithin
  case capacityPersistenceExpiry => exact (capacityExpiry_sourced d).toFrame.toWithin
  case evaluation => exact (evaluationExpiry_sourced d).toFrame.toWithin
  case stepTimerExpiry => exact (stepExpiry_settled d).toFrame.toWithin
  all_goals cases hc

/-- Every command keeps the bounds of the four queues (R42, R155, R157, R165). -/
theorem effect_bounded (c : Instr) {d : Part} (hd : d.queuesBounded) : (effect c d).queuesBounded := by
  by_cases hc : innerEvent c = true
  · exact (inner_within hc d).bounded hd
  cases c
  case powerOnReset =>
    show (powerOnReset d).queuesBounded
    unfold powerOnReset
    rw [examineLine_eq_self (.inr rfl)]
    exact ⟨by simp [Part.powerOn, Tlf.powerOn], by simp [Part.powerOn, Rlp.powerOn],
      by simp [Part.powerOn, Rlp.powerOn], by simp [Part.powerOn, Rlp.powerOn]⟩
  case softReset => exact softReset_bounded d
  case cycleStart => exact (startCycle_outer d).toBase.toWithin.bounded hd
  case cycleEnd => exact (endCycle_outer d).toBase.toWithin.bounded hd
  case cellReceive => exact (receiveCell_outer _ _ d).toBase.toWithin.bounded hd
  case messageReceive => exact receiveMessage_bounded _ hd
  case uplinkTransmitDone => exact uplinkDone_bounded hd
  case responseAppend => exact pumpAll_bounded hd
  case nodePassComplete => exact (completePass_settled _ d).toFrame.toWithin.bounded hd
  case resetInAsserted => exact hd
  all_goals first | exact arrive_bounded _ hd | exact absurd rfl hc

@[simp] theorem recorded_tlf (c : Instr) (d : Part) : (recorded c d).tlf = d.tlf := by cases c <;> rfl
@[simp] theorem recorded_rlp (c : Instr) (d : Part) : (recorded c d).rlp = d.rlp := by cases c <;> rfl

theorem recorded_bounded (c : Instr) {d : Part} (hd : d.queuesBounded) : (recorded c d).queuesBounded := by
  unfold Part.queuesBounded
  rw [recorded_tlf, recorded_rlp]
  exact hd

theorem recorded_follow (c : Instr) {d : Part} (hd : d.linesFollow) : (recorded c d).linesFollow := by
  cases c <;> exact hd

theorem recorded_quiet (c : Instr) {d : Part} (hd : d.quiet) : (recorded c d).quiet := by
  cases c <;> exact hd

/-- Settles O55: a command that acts refreshes the lines and quietens the part at its end, and one that finds
RESET_IN asserted records an input at most. -/
theorem stepKeepsInvariants : Obligations.StepKeepsInvariants := by
  intro s t hb hl hq ht
  refine step_keeps (P := fun d => d.queuesBounded ∧ d.linesFollow ∧ d.quiet) ?_ ⟨hb, hl, hq⟩ ht
  rintro c s t ⟨hb, hl, hq⟩ h
  rcases exec_cases h with ⟨-, rfl⟩ | ⟨-, rfl⟩ | ⟨-, -, rfl⟩ | ⟨-, -, rfl⟩
  · exact ⟨complete_bounded (effect_bounded .powerOnReset hb), refreshLines_follow _, complete_is_quiet _⟩
  · exact ⟨hb, refreshLines_follow _, hq⟩
  · exact ⟨recorded_bounded c hb, recorded_follow c hl, recorded_quiet c hq⟩
  · exact ⟨complete_bounded (effect_bounded c (recorded_bounded c hb)), refreshLines_follow _,
      complete_is_quiet _⟩

end Sys2Proof.Machine

/-! PROOFS. How a relation between parts is carried through a command: a relation that holds of every operation of
the inner blocks (`Carried`) holds of every event of the shelf link, every hand-off and every move of the Request
Queue. The invariants of the inner blocks rest on it. -/

namespace Sys2Proof.Machine

-- One proof after another: proofs that are checked side by side take a thread each.
set_option Elab.async false

/-- Nothing changed but the shelf link, the telemetry, the leak points, the rack link, the lines and the hand-offs
that are due. -/
structure Unmoved (d d' : Part) : Prop where
  eq : d' = { d with
    slc := d'.slc, tlf := d'.tlf, lkm := { d'.lkm with zones := d.lkm.zones }, rlp := d'.rlp
    lines := d'.lines, agenda := d'.agenda } := by rfl

namespace Unmoved
variable {d d' : Part} (h : Unmoved d d')
include h

theorem bcu : d'.bcu = d.bcu := by rw [h.eq]

theorem sru : d'.sru = d.sru := by rw [h.eq]

theorem sqe : d'.sqe = d.sqe := by rw [h.eq]

theorem zones : d'.lkm.zones = d.lkm.zones := by rw [h.eq]

theorem prot : d'.prot = d.prot := by rw [h.eq]

omit h in
theorem of (hb : d'.bcu = d.bcu) (hu : d'.sru = d.sru) (hq : d'.sqe = d.sqe)
    (hz : d'.lkm.zones = d.lkm.zones) (hp : d'.prot = d.prot) : Unmoved d d' where
  eq := by
    rw [← hb, ← hu, ← hq, ← hz, ← hp]

theorem trans {e : Part} (g : Unmoved d' e) : Unmoved d e :=
  .of (g.bcu.trans h.bcu) (g.sru.trans h.sru) (g.sqe.trans h.sqe) (g.zones.trans h.zones)
    (g.prot.trans h.prot)

end Unmoved

/-- A relation that the operations keep by which a channel's class reaches the inner blocks. -/
structure Heard (R : Part → Part → Prop) : Prop where
  trans : ∀ {a b c}, R a b → R b c → R a c
  unmoved : ∀ {d d'}, Unmoved d d' → R d d'
  deriveModules : ∀ d, R d (deriveModules d)
  setFreshness : ∀ n v d, R d (setFreshness n v d)
  examineZone : ∀ z d, R d (examineZone z d)

/-- A relation that every operation of the inner blocks keeps, where `ok` says of which requests that is asked. -/
structure Carried (R : Part → Part → Prop) (ok : Request → Prop) : Prop extends Heard R where
  tick : ∀ d, R d (tick d)
  powerReading : ∀ n v c d, R d (powerReading n v c d)
  switchReading : ∀ b v d, R d (switchReading b v d)
  tripNode : ∀ n d, R d (tripNode n d)
  attempt : ∀ d, R d (attempt d)
  examine : ∀ d, R d (examine d)
  setCauses : ∀ c d, R d (setCauses c d)
  outcomeToBcu : ∀ b n o d, R d (outcomeToBcu b n o d)
  applyRecord : ∀ t n ws d, R d (applyRecord t n ws d).1
  branchAction : ∀ b a d, R d (changeBranch b (branchAction a) d)
  branchClear : ∀ b d, R d (branchClear b d)
  startRun : ok .sequenceStart → ∀ d, d.sqe.underWay = false → R d (startRun d)
  abortRun : ∀ d, (d.sqe.underWay || d.sqe.run == .halted) = true → R d (abortRun d)
  leakAck : ∀ z d, R d (leakAck z d).1
  leakClear : ∀ w, ok (.leakClear w) → ∀ d, R d (leakClear w.toNat d).1
  protect : ∀ table banks, ok (.protect table banks) → ∀ d,
    R d (doProtect true table banks d).1
  unprotect : ∀ table banks, ok (.unprotect table banks) → ∀ d,
    R d (doProtect false table banks d).1
  freeze : ∀ d, R d (doFreeze d).1

/-- The requests of the queue are among those of which a carried relation is asked. -/
def allows (ok : Request → Prop) (d : Part) : Prop := ∀ q ∈ d.rlp.requests, ok q.req

theorem allows_of_requests {ok : Request → Prop} {d d' : Part} (h : d'.rlp.requests = d.rlp.requests)
    (hd : allows ok d) : allows ok d' := fun q hq => hd q (h ▸ hq)

/-- After a soft reset no request waits. -/
theorem softReset_allows (ok : Request → Prop) (d : Part) : allows ok (softReset d) := by
  refine allows_of_requests (examineLine_leaked _).requests ?_
  simp [allows, resetBlocks, resetRlp, Rlp.powerOn]

/-! ## What the uplink and staging leave -/

theorem arbitrate_unmoved (d : Part) : Unmoved d (arbitrate d) := by
  unfold arbitrate
  repeat' split
  all_goals exact {}

theorem post_unmoved (k : EventKind) (s v : Option Nat) (d : Part) : Unmoved d (post k s v d) := by
  unfold post
  split
  · exact Unmoved.trans {} (arbitrate_unmoved _)
  · exact {}

theorem forward_unmoved (r : SampleRecord) (d : Part) : Unmoved d (forward r d) := by
  unfold forward
  split <;> exact Unmoved.trans {} (arbitrate_unmoved _)

theorem appendResponse_unmoved (m : Uplink) (d : Part) : Unmoved d (appendResponse m d) :=
  Unmoved.trans {} (arbitrate_unmoved _)

theorem noteOutcome_unmoved (n : Nat) (o : Delivery) (d : Part) : Unmoved d (noteOutcome n o d) := by
  rcases noteOutcome_eq n o d with h | ⟨-, h⟩ <;> rw [h] <;> exact {}

theorem completePass_unmoved (o : Delivery) (d : Part) : Unmoved d (completePass o d) := by
  rcases completePass_eq o d with h | h <;> rw [h] <;> exact {}

theorem stage_unmoved (w : Writer) (b : Option Nat) (n : Nat) (v : Word) (d : Part) :
    Unmoved d (stage w b n v d).1 := by
  unfold stage
  split
  · exact {}
  · split
    · exact {}
    · rename_i r _
      rcases tellSuperseded_eq w n r d with h | ⟨-, h⟩ <;> rw [h] <;> exact {}

theorem postClass_unmoved (k n : Nat) (o c : ChanClass) (d : Part) : Unmoved d (postClass k n o c d) := by
  unfold postClass
  split
  · exact post_unmoved _ _ _ d
  · exact {}

theorem tellWriter_unmoved (r : OutRecord) (n : Nat) (o : Delivery) (d : Part) :
    Unmoved d (tellWriter r n o d) := by
  unfold tellWriter
  repeat' split
  all_goals exact {}

theorem treatOut_unmoved (k : Nat) (d : Part) : Unmoved d (treatOut k d) := by
  unfold treatOut
  split
  · simp only
    unfold concludeOut
    split <;> first | exact {} | exact Unmoved.trans {} (tellWriter_unmoved _ _ _ _)
  · exact {}

theorem readEcho_unmoved (k n : Nat) (kind : ChannelKind) (e : BitVec 2) (d : Part) :
    Unmoved d (readEcho k n kind e d) := by
  unfold readEcho echoRecord
  repeat' split
  all_goals first | exact {} | exact Unmoved.trans {} (tellWriter_unmoved _ _ _ _)

theorem noteSatisfied_unmoved (k : Nat) (x : Sample) (d : Part) : Unmoved d (noteSatisfied k x d) := by
  unfold noteSatisfied
  repeat' split
  all_goals exact {}

theorem discardRx_unmoved (d : Part) : Unmoved d (discardRx d) := {}

namespace Heard
variable {R : Part → Part → Prop} (C : Heard R)
include C

theorem refl (d : Part) : R d d := C.unmoved {}

theorem foldl {α : Type} (f : Part → α → Part) (hf : ∀ d a, R d (f d a)) (l : List α) (d : Part) :
    R d (l.foldl f d) := foldl_rel C.refl C.trans f hf l d

/-- A relation that holds of the first of two operations, and of the second with what may be done between. -/
theorem after {a b c d : Part} (h : R a b) (u : Unmoved b c) (g : R c d) : R a d :=
  C.trans h (C.trans (C.unmoved u) g)

theorem before {a b c : Part} (u : Unmoved a b) (g : R b c) : R a c := C.trans (C.unmoved u) g

/-! ## The leak points -/

theorem setPoint (i : Nat) (p : Point) (s : PointState) (n : Nat) (c : PointCause) (d : Part) :
    R d (setPoint i p s n c d) := by
  unfold Machine.setPoint
  simp only
  split
  · exact C.unmoved {}
  · split
    · exact C.before (Unmoved.trans {} (post_unmoved _ _ _ _)) (C.examineZone _ _)
    · exact C.before {} (C.examineZone _ _)

theorem forPoints (node slot : Nat) (f : Nat → Point → Part → Part) (hf : ∀ i p d, R d (f i p d))
    (d : Part) : R d (forPoints node slot f d) := by
  unfold Machine.forPoints
  refine C.foldl _ (fun d i => ?_) _ d
  split
  · split
    · exact hf _ _ d
    · exact C.refl d
  · exact C.refl d

theorem levelSample (node slot : Nat) (x : Sample) (d : Part) : R d (levelSample node slot x d) :=
  C.forPoints _ _ _ (fun _ _ _ => C.setPoint _ _ _ _ _ _) d

theorem pointsStale (node slot : Nat) (d : Part) : R d (pointsStale node slot d) :=
  C.forPoints _ _ _ (fun _ _ _ => C.setPoint _ _ _ _ _ _) d

theorem pointsUnseen (node slot : Nat) (d : Part) : R d (pointsUnseen node slot d) :=
  C.forPoints _ _ _ (fun _ _ _ => C.setPoint _ _ _ _ _ _) d

/-! ## Classes and the records of the two maps -/

theorem handClass (k n : Nat) (kind : ChannelKind) (c : ChanClass) (d : Part) :
    R d (handClass k n kind c d) := by
  unfold Machine.handClass
  split
  · exact C.refl d
  · exact C.refl d
  · exact C.setFreshness _ _ d
  · split
    · exact C.pointsStale _ _ d
    · exact C.pointsUnseen _ _ d
    · exact C.refl d
  · exact C.deriveModules d

theorem restartChannel (k n : Nat) (kind : ChannelKind) (d : Part) :
    R d (restartChannel k n kind d) := C.before {} (C.handClass _ _ _ _ _)

theorem limitChanged (o l : Option LimitEntry) (k n : Nat) (kind : ChannelKind) (d : Part) :
    R d (limitChanged o l k n kind d) := by
  unfold Machine.limitChanged
  repeat' split
  all_goals first
    | exact C.refl d
    | exact C.restartChannel _ _ _ d
    | exact C.unmoved {}

theorem forSlots (f : Nat → Part → Part) (hf : ∀ k d, R d (f k d)) (d : Part) :
    R d (forSlots f d) := C.foldl _ (fun d k => hf k d) _ d

theorem limitReaches (n : Nat) (o l : Option LimitEntry) (k : Nat) (d : Part) :
    R d (limitReaches n o l k d) := by
  unfold Machine.limitReaches
  repeat' split
  all_goals first | exact C.refl d | exact C.limitChanged _ _ _ _ _ d

theorem writeLimit (n : Nat) (ws : List Word) (d : Part) : R d (writeLimit n ws d).1 := by
  unfold Machine.writeLimit
  split
  · exact C.refl d
  · simp only
    split
    · exact C.refl d
    · dsimp only
      exact C.trans (C.unmoved {}) (C.forSlots _ (C.limitReaches n _ _) _)

theorem writeSlot (n : Nat) (ws : List Word) (d : Part) : R d (writeSlot n ws d).1 := by
  have stands (m : List (Option SlotEntry)) : R d { d with slc.written := m } := C.unmoved {}
  unfold Machine.writeSlot
  simp only
  repeat' split
  all_goals exact stands _

theorem writePoint (n : Nat) (ws : List Word) (d : Part) : R d (writePoint n ws d).1 := by
  have put (l : List (Option Point)) : R d { d with lkm.points := l } := C.unmoved {}
  unfold Machine.writePoint
  simp only
  cases entry d.lkm.points n
  all_goals
    simp only
    repeat' split
  all_goals first
    | exact C.refl d
    | exact put _
    | exact C.trans (put _) (C.examineZone _ _)
    | exact C.trans (C.trans (put _) (C.examineZone _ _)) (C.examineZone _ _)

end Heard

namespace Carried
variable {R : Part → Part → Prop} {ok : Request → Prop} (C : Carried R ok)
include C

/-! ## The Telemetry Filter -/

theorem handSample (k n : Nat) (kind : ChannelKind) (c : ChanClass) (changed : Bool) (d : Part) :
    R d (handSample k n kind c changed d) := by
  unfold Machine.handSample
  split
  · exact C.handClass _ _ _ _ d
  · exact C.refl d

theorem takeTrip (a : TripAction) (n : Nat) (d : Part) : R d (takeTrip a n d) := by
  cases a with
  | never => exact C.refl d
  | branchTrip => exact C.tripNode n d
  | nodeStandby =>
    show R d (standbyNode n d)
    unfold standbyNode
    split
    · exact C.tripNode n d
    · have h := stage_unmoved .tlf none n ctlStandby d
      split <;> (rename_i he; rw [he] at h)
      · exact C.unmoved (h.trans (post_unmoved _ _ _ _))
      · exact C.unmoved h

theorem goodSample (k n : Nat) (kind : ChannelKind) (l : Option Nat) (v : Int) (d : Part) :
    R d (goodSample k n kind l v d) := by
  unfold Machine.goodSample
  split
  · exact C.refl d
  · rename_i x _
    simp only
    refine C.trans ?_ (C.handSample _ _ _ _ _ _)
    have posted (e : Part) (y : ChannelState) (changed : Bool) (h : Unmoved d e) :
        Unmoved d (if changed = true then postClass k n x.cls y.cls e else e) := by
      split
      · exact h.trans (postClass_unmoved _ _ _ _ _)
      · exact h
    have sampled (z : ChannelState) (w : SampleRecord) (fwd : Bool) :
        Unmoved d (if fwd = true then forward w (putChannel k z d) else putChannel k z d) := by
      split
      · exact Unmoved.trans {} (forward_unmoved _ _)
      · exact {}
    have tripped (e : Part) (a : TripAction) (c : Bool) (h : Unmoved d e) :
        R d (if c = true then Machine.takeTrip a n e else e) := by
      split
      · exact C.before h (C.takeTrip _ _ _)
      · exact C.unmoved h
    exact tripped _ _ _ (posted _ _ _ (sampled _ _ _))

theorem channelSample (k n : Nat) (kind : ChannelKind) (l : Option Nat) (x : Sample) (d : Part) :
    R d (channelSample k n kind l x d) := by
  cases x with
  | good v => exact C.goodSample _ _ _ _ _ d
  | invalid => exact C.refl d
  | sensorFault => exact C.refl d

theorem missNotice (k n : Nat) (kind : ChannelKind) (l : Option Nat) (d : Part) :
    R d (missNotice k n kind l d) := by
  unfold Machine.missNotice
  split
  · exact C.refl d
  · simp only
    split
    · exact C.before (Unmoved.trans {} (postClass_unmoved _ _ _ _ _)) (C.handClass _ _ _ _ _)
    · exact C.unmoved {}

/-! ## The Shelf Link Controller -/

theorem endChannel (k : Nat) (e : Option SlotEntry) (d : Part) : R d (endChannel k e d) := by
  unfold Machine.endChannel
  split
  · split
    · exact C.setFreshness _ _ d
    · exact C.pointsUnseen _ _ d
    · exact C.refl d
  · exact C.refl d

theorem activate (d : Part) : R d (activate d) := by
  unfold Machine.activate
  simp only
  split
  · exact C.refl d
  · refine C.trans (C.before {} (C.foldl _ (fun e k => ?_) _ _)) (C.deriveModules _)
    show R e (changeSlot k _ _ e)
    unfold changeSlot
    split
    · exact C.refl e
    · exact C.before {} (C.endChannel _ _ _)

theorem startCycle (d : Part) : R d (startCycle d) := by
  unfold Machine.startCycle
  simp only
  refine C.trans ?_ (C.foldl _ (fun e k => C.unmoved (treatOut_unmoved k e)) _ _)
  exact C.after (C.tick d) {} (C.activate _)

theorem hearNode (n : Nat) (d : Part) : R d (hearNode n d) := by
  unfold Machine.hearNode
  simp only
  split
  · exact C.unmoved {}
  · exact C.before {} (C.deriveModules _)
  · exact C.before (Unmoved.trans {} (post_unmoved _ _ _ _)) (C.deriveModules _)

theorem deliverSample (k n : Nat) (kind : ChannelKind) (x : Sample) (d : Part) :
    R d (deliverSample k n kind x d) := by
  unfold Machine.deliverSample
  split
  · split
    · exact C.switchReading _ _ d
    · exact C.refl d
  · exact C.powerReading _ _ _ d
  · exact C.levelSample _ _ _ d
  · exact C.refl d

theorem receiveCell (k : Nat) (c : InCell) (d : Part) : R d (receiveCell k c d) := by
  unfold Machine.receiveCell
  split
  · exact C.refl d
  · exact C.unmoved {}
  · exact C.unmoved {}
  · unfold acceptCell
    simp only
    refine C.trans ?_ (C.unmoved (readEcho_unmoved _ _ _ _ _))
    refine C.trans ?_ (C.deliverSample _ _ _ _ _)
    exact C.after (C.hearNode _ d) (noteSatisfied_unmoved _ _ _) (C.channelSample _ _ _ _ _ _)

theorem endCycle (d : Part) : R d (endCycle d) := by
  refine C.trans (C.foldl _ (fun e k => ?_) _ d) (C.foldl _ (fun e i => ?_) _ _)
  · unfold noticeSlot
    split
    · split
      · exact C.refl e
      · exact C.missNotice _ _ _ _ e
    · exact C.refl e
  · unfold testNode
    simp only
    split
    · exact C.before (Unmoved.trans {} (post_unmoved _ _ _ _)) (C.deriveModules _)
    · exact C.refl e

/-! ## The hand-offs and the requests -/

theorem handle (s : Signal) (d : Part) : R d (handle s d) := by
  cases s with
  | attempt => exact C.attempt d
  | branches => exact C.examine d
  | source s => exact C.setCauses _ d
  | leak => exact C.setCauses _ d
  | outcome w branch node o =>
    cases w with
    | bcu => exact C.outcomeToBcu _ _ _ d
    | tlf =>
      show R d (if o = .noAck then _ else _)
      split
      · exact C.unmoved (post_unmoved _ _ _ d)
      · exact C.refl d
    | rlp => exact C.unmoved (noteOutcome_unmoved _ _ d)

theorem settle (n : Nat) (d : Part) : R d (settle n d) := by
  induction n generalizing d with
  | zero => exact C.refl d
  | succ n ih =>
    unfold Machine.settle
    split
    · exact C.refl d
    · exact C.trans (C.before {} (C.handle _ _)) (ih _)

theorem settleAll (d : Part) : R d (settleAll d) := C.settle _ d

theorem applyRecords (t : TableId) (start : Nat) (recs : List (List Word)) (j : Nat)
    (clamp : Option Nat) (d : Part) : R d (applyRecords t start j clamp recs d).1 := by
  induction recs generalizing j clamp d with
  | nil => cases clamp <;> exact C.refl d
  | cons ws rest ih =>
    rw [applyRecords_cons]
    have h := C.applyRecord t (placeOf t start j) ws d
    generalize Machine.applyRecord t (placeOf t start j) ws d = r at h ⊢
    obtain ⟨d', v⟩ := r
    cases v with
    | accepted => exact C.trans (C.trans h (C.settleAll d')) (ih _ _ _)
    | clamped f => exact C.trans (C.trans h (C.settleAll d')) (ih _ _ _)
    | refused s f => exact h

theorem writeTable (table start : Word) (ws : List Word) (d : Part) :
    R d (writeTable table start ws d).1 := by
  unfold Machine.writeTable
  simp only
  repeat' split
  all_goals first | exact C.refl d | exact C.applyRecords _ _ _ _ _ d

theorem withBranch {w : Word} {d : Part} {f : Nat → Branch → Part × Answer}
    (h : ∀ b x, R d (f b x).1) : R d (withBranch w d f).1 := by
  unfold Machine.withBranch
  simp only
  repeat' split
  all_goals first | exact C.refl d | exact h _ _

theorem ifAllowed {c : Bool} {f : Part → Part} {d : Part} (h : c = true → R d (f d)) :
    R d (ifAllowed c f d).1 := by
  unfold Machine.ifAllowed
  split
  · exact h ‹_›
  · exact C.refl d

theorem withZone {w : Word} {f : Nat → Part → Part × Status} {d : Part}
    (h : R d (f w.toNat d).1) : R d (withZone w f d).1 := by
  rcases withZone_part w f d with e | e <;> rw [e]
  · exact C.refl d
  · exact h

theorem execRequest (copy : Option FaultDetail) {q : Request} (hq : ok q) (d : Part) :
    R d (execRequest copy q d).1 := by
  cases q with
  | readStatus => exact C.refl d
  | writeTable table start words => exact C.writeTable _ _ _ d
  | readTable table start count =>
    show R d (doReadTable table start count d).1
    rw [doReadTable_part]
    exact C.refl d
  | locateBranch branch => exact C.withBranch fun _ _ => C.refl d
  | branchRequest branch action =>
    show R d (doBranchRequest branch action d).1
    unfold doBranchRequest
    split
    · exact C.refl d
    · exact C.withBranch fun b _ => C.branchAction b action.toNat d
  | branchClear branch => exact C.withBranch fun b _ => C.branchClear b d
  | sequenceStart =>
    exact C.ifAllowed fun h => C.startRun hq d (by simpa using (Bool.and_eq_true_iff.mp h).1)
  | sequenceSuspend => exact C.ifAllowed fun _ => C.setCauses _ d
  | sequenceResume => exact C.ifAllowed fun _ => C.setCauses _ d
  | sequenceAbort => exact C.ifAllowed fun h => C.abortRun d h
  | leakAck zone => exact C.withZone (C.leakAck _ d)
  | leakClear zone => exact C.withZone (C.leakClear zone hq d)
  | nodePass node value =>
    show R d (doNodePass node value d).1
    rcases doNodePass_part node value d with h | h <;> rw [h]
    · exact C.refl d
    · exact C.unmoved (Unmoved.trans {} (stage_unmoved _ _ _ _ _))
  | protect table banks => exact C.protect table banks hq d
  | unprotect table banks => exact C.unprotect table banks hq d
  | freezeProtection => exact C.freeze d
  | setFeature feature value =>
    show R d (doSetFeature feature value d).1
    rcases doSetFeature_part feature value d with h | ⟨g, h⟩ <;> rw [h]
    · exact C.refl d
    · exact C.unmoved {}
  | getDetail =>
    show R d (doGetDetail copy d).1
    rw [doGetDetail_part]
    exact C.refl d
  | reset => exact C.refl d
  | bad k => exact C.refl d

/-! ## The moves of the Request Queue -/

/-- A move of the head runs a request that was asked, or touches the rack link alone. -/
theorem moveHead {d d' : Part} (hd : allows ok d) (h : moveHead d = some d') :
    R d d' ∧ allows ok d' := by
  rcases moveHead_cases h with ⟨q, rest, hq, rfl⟩ | ⟨-, r, rfl⟩ | ⟨-, t, next, left, block, final, rfl⟩
  · obtain ⟨p, x, hb⟩ := beginHead_part q d
    have hr : (Machine.settleAll (Machine.execRequest d.rlp.detail q.req
        { d with rlp.detail := none }).1).rlp.requests = d.rlp.requests :=
      (settleAll_settled _).requests.trans (execRequest_within _ _ _).requests
    rw [hb]
    refine ⟨?_, fun q' hq' => hd q' (hr ▸ hq')⟩
    have hx : R d (Machine.execRequest d.rlp.detail q.req { d with rlp.detail := none }).1 :=
      C.before (b := { d with rlp.detail := none }) {}
        (C.execRequest _ (hd q (hq ▸ List.mem_cons_self)) _)
    exact C.trans (C.trans hx (C.settleAll _)) (C.unmoved {})
  · obtain ⟨p, l, hl, ha⟩ := appendFinal_part r d
    rw [ha]
    refine ⟨C.unmoved (Unmoved.trans {} (appendResponse_unmoved _ _)), fun q hq => hd q ?_⟩
    rw [appendResponse_requests] at hq
    rcases hl with rfl | rfl
    · exact hq
    · exact List.mem_of_mem_drop hq
  · obtain ⟨m, p, ha⟩ := appendData_part t next left block final d
    rw [ha]
    refine ⟨C.unmoved (Unmoved.trans {} (appendResponse_unmoved _ _)), fun q hq => hd q ?_⟩
    rwa [appendResponse_requests] at hq

theorem pumpAll {d : Part} (hd : allows ok d) : R d (pumpAll d) ∧ allows ok (Machine.pumpAll d) :=
  pump_keeps (P := fun e => R d e ∧ allows ok e)
    (fun _ _ he h => ⟨C.trans he.1 (C.moveHead he.2 h).1, (C.moveHead he.2 h).2⟩)
    pumpFuel d ⟨C.refl d, hd⟩

theorem arrive {q : Queued} {d : Part} (hd : allows ok d) (hq : ok q.req) :
    R d (arrive q d) ∧ allows ok (Machine.arrive q d) := by
  unfold Machine.arrive
  split
  · have h := C.pumpAll (d := { d with rlp.requests := [q], rlp.phase := .fresh }) fun q' h => by
      rw [List.mem_singleton.mp h]; exact hq
    exact ⟨C.before {} h.1, h.2⟩
  · split
    · refine ⟨C.unmoved {}, fun q' h => ?_⟩
      rcases List.mem_append.mp h with h | h
      · exact hd q' h
      · rw [List.mem_singleton.mp h]; exact hq
    · split
      · exact ⟨C.unmoved (appendResponse_unmoved _ _),
          allows_of_requests (arbitrate_settled _).requests hd⟩
      · exact ⟨C.unmoved {}, hd⟩

theorem receiveMessage {bytes : List Byte} {d : Part} (hd : allows ok d)
    (hq : ∀ q, receive bytes = some q → ok q.req) :
    R d (receiveMessage bytes d) ∧ allows ok (Machine.receiveMessage bytes d) := by
  unfold Machine.receiveMessage
  split
  · exact C.arrive hd (hq _ ‹_›)
  · exact ⟨C.unmoved (discardRx_unmoved d), hd⟩

/-- The end of a transmission moves the uplink and the head, or is that of a soft reset (R164). -/
theorem uplinkDone {d : Part} (hd : allows ok d) :
    Machine.uplinkDone d = softReset d ∨ (R d (uplinkDone d) ∧ allows ok (Machine.uplinkDone d)) := by
  unfold Machine.uplinkDone
  split
  · exact .inr ⟨C.refl d, hd⟩
  · split
    · exact .inl rfl
    · have h := C.pumpAll (d := arbitrate { d with rlp.tx := none })
        (allows_of_requests (arbitrate_settled _).requests hd)
      exact .inr ⟨C.before (Unmoved.trans {} (arbitrate_unmoved _)) h.1, h.2⟩

theorem deliverPass {d : Part} (hd : allows ok d) : R d (deliverPass d) := by
  unfold Machine.deliverPass
  split
  · rename_i node o q rest _ _ _
    have u : Unmoved d (answerHead (passAnswer node o) q { d with rlp.passOutcome := none }) := by
      unfold answerHead noteDetail
      split <;> exact {}
    refine C.before u (C.pumpAll fun q' h => hd q' ?_).1
    unfold answerHead noteDetail at h
    split at h <;> exact h
  · exact C.refl d

theorem complete {d : Part} (hd : allows ok d) : R d (complete d) :=
  C.trans (C.trans (C.settleAll d)
    (C.deliverPass (allows_of_requests (settleAll_settled d).requests hd))) (C.unmoved {})

/-! ## Commands -/

/-- A command but the resets and the events of the inner blocks keeps a carried relation, or ends the transmission
that asks for a soft reset. -/
theorem outer {c : Instr} {d : Part} (hp : c ≠ .powerOnReset) (hs : c ≠ .softReset)
    (hi : innerEvent c = false) (hd : ∀ q ∈ asked c d, ok q.req) :
    effect c d = softReset d ∨ (R d (effect c d) ∧ allows ok (effect c d)) := by
  have queued : allows ok d := fun q hq => hd q (List.mem_append_left _ (List.mem_append_left _ hq))
  have row (q : Queued) (hq : request c = some q) : ok q.req :=
    hd q (List.mem_append_left _ (List.mem_append_right _ (by simp [hq])))
  cases c
  case powerOnReset => exact absurd rfl hp
  case softReset => exact absurd rfl hs
  case cycleStart =>
    have h := allows_of_requests (startCycle_outer d).requests queued
    exact .inr ⟨C.startCycle d, h⟩
  case cycleEnd =>
    have h := allows_of_requests (endCycle_outer d).requests queued
    exact .inr ⟨C.endCycle d, h⟩
  case cellReceive slot cell =>
    have h := allows_of_requests (receiveCell_outer slot cell d).requests queued
    exact .inr ⟨C.receiveCell slot cell d, h⟩
  case messageReceive bytes =>
    exact .inr (C.receiveMessage queued fun q hq => hd q (by simp [asked, hq]))
  case uplinkTransmitDone => exact C.uplinkDone queued
  case responseAppend => exact .inr (C.pumpAll queued)
  case nodePassComplete =>
    exact .inr ⟨C.unmoved (completePass_unmoved _ d),
      allows_of_requests (completePass_settled _ d).requests queued⟩
  case resetInAsserted => exact .inr ⟨C.unmoved {}, queued⟩
  all_goals first
    | exact .inr (C.arrive queued (row _ rfl))
    | cases hi

/-- Every command but a power-on reset keeps a carried relation that the events of the inner blocks keep, or is a
soft reset. -/
theorem exec_or_reset {c : Instr} {s t : State} (hp : c ≠ .powerOnReset)
    (hinner : innerEvent c = true → ∀ d, R d (effect c d)) (hd : ∀ q ∈ asked c s.part, ok q.req)
    (h : exec c s = .next t) :
    R s.part t.part ∨ ∃ d, Unmoved s.part d ∧ t.part = Machine.complete (softReset d) := by
  have hrec : Unmoved s.part (recorded c s.part) := by cases c <;> exact .of rfl rfl rfl rfl rfl
  have hask : asked c (recorded c s.part) = asked c s.part := by
    unfold asked
    rw [recorded_rlp]
  have queued : allows ok (recorded c s.part) := fun q hq =>
    hd q (List.mem_append_left _ (List.mem_append_left _ (by rwa [recorded_rlp] at hq)))
  rcases exec_cases h with ⟨rfl, -⟩ | ⟨-, rfl⟩ | ⟨-, -, rfl⟩ | ⟨-, -, rfl⟩
  · exact absurd rfl hp
  · exact .inl (C.unmoved {})
  · exact .inl (C.unmoved hrec)
  · by_cases hs : c = .softReset
    · subst hs
      exact .inr ⟨_, hrec, rfl⟩
    · cases hi : innerEvent c with
      | true =>
        exact .inl (C.before hrec (C.trans (hinner hi _)
          (C.complete (allows_of_requests (inner_within hi _).requests queued))))
      | false =>
        rcases C.outer hp hs hi (hask ▸ hd) with he | ⟨he, ha⟩
        · exact .inr ⟨_, hrec, congrArg Machine.complete he⟩
        · exact .inl (C.before hrec (C.trans he (C.complete ha)))

/-- Every command but a power-on reset keeps a carried relation that the events of the inner blocks and the soft
reset keep. -/
theorem exec {c : Instr} {s t : State} (hp : c ≠ .powerOnReset)
    (hinner : innerEvent c = true → ∀ d, R d (effect c d)) (hreset : ∀ d, R d (softReset d))
    (hd : ∀ q ∈ asked c s.part, ok q.req) (h : exec c s = .next t) : R s.part t.part := by
  rcases C.exec_or_reset hp hinner hd h with h | ⟨d, hu, ht⟩
  · exact h
  · rw [ht]
    exact C.before hu (C.trans (hreset d) (C.complete (softReset_allows ok d)))

end Carried

end Sys2Proof.Machine

/-! PROOFS. How a relation between parts is carried through the inner blocks: from the operations of the BCU to
those of the SRU, the LKM and the SQE (`Driven`), and from the primitive updates of the BCU to its operations
(`Built`). -/

namespace Sys2Proof.Machine

-- One proof after another: proofs that are checked side by side take a thread each.
set_option Elab.async false

/-- Nothing changed but the SRU, the LKM, what is staged, the hand-offs that are due and the note of an outcome. -/
structure Still (d d' : Part) : Prop where
  eq : d' = { d with
    slc := { d.slc with out := d'.slc.out }, sru := d'.sru, lkm := d'.lkm
    rlp := { d.rlp with passOutcome := d'.rlp.passOutcome }, agenda := d'.agenda } := by rfl

namespace Still
variable {d d' : Part} (h : Still d d')
include h

theorem tlf : d'.tlf = d.tlf := by rw [h.eq]

theorem bcu : d'.bcu = d.bcu := by rw [h.eq]

theorem sqe : d'.sqe = d.sqe := by rw [h.eq]

theorem rlp : d'.rlp = { d.rlp with passOutcome := d'.rlp.passOutcome } := by rw [h.eq]

theorem slc : d'.slc = { d.slc with out := d'.slc.out } := by rw [h.eq]

theorem prot : d'.prot = d.prot := by rw [h.eq]

end Still

/-- What is staged stands too. -/
structure Fixed (d d' : Part) : Prop extends Still d d' where
  out : d'.slc.out = d.slc.out := by rfl

/-- The run record moves on: its step index does not fall, and goes on naming an entry. -/
structure Advances (s q : Sqe) : Prop where
  steps : q.steps = s.steps
  grows : s.index ≤ q.index
  bound : s.index ≤ 63 → q.index ≤ 63

theorem Advances.same {s q : Sqe} (hs : q.steps = s.steps) (hi : q.index = s.index) :
    Advances s q := ⟨hs, hi.ge, hi ▸ id⟩

/-- The records of the examination of a leak zone (R142, R143). -/
def leakKinds : List EventKind := [.zoneDegraded, .leakAlert, .leakConfirmed, .leakIsolated]

/-- A relation that the operations of the BCU on which the LKM and the SQE call keep, and the records that the SQE
posts. -/
structure Changed (R : Part → Part → Prop) : Prop where
  trans : ∀ {a b c}, R a b → R b c → R a c
  still : ∀ {d d'}, Fixed d d' → (due : ∀ s ∈ d.agenda, s ∈ d'.agenda := by exact fun _ h => h) → R d d'
  posted : ∀ k s v d, k ∉ leakKinds → R d (post k s v d)
  changeBranch : ∀ b f d, (∀ x, (f x).cfg = x.cfg ∧ (f x).state = x.state) →
    R d (changeBranch b f d)

/-- The records of the other inner blocks keep the relation too. -/
structure Posting (R : Part → Part → Prop) : Prop extends Changed R where
  post : ∀ k s v d, R d (post k s v d)
  posted := fun k s v d _ => post k s v d

/-- A relation that the operations of the BCU on which the other inner blocks call keep. -/
structure Driven (R : Part → Part → Prop) : Prop extends Posting R where
  releaseShed : ∀ d, R d (releaseShed d)

/-- Nothing changed but the SRU, the hand-offs that are due and the note of an outcome, and of the SRU neither the
source state nor a shed set. -/
structure Tuned (d d' : Part) : Prop extends Fixed d d' where
  lkm : d'.lkm = d.lkm := by rfl
  shed : (d'.sru.source, d'.sru.battShed, d'.sru.capShed, d'.sru.depletedFlag) =
    (d.sru.source, d.sru.battShed, d.sru.capShed, d.sru.depletedFlag) := by rfl
  due : ∀ s ∈ d.agenda, s ∈ d'.agenda := by exact fun _ h => h

/-- A relation that the operations of the SRU keep on which its derivations and its evaluation rest. -/
structure Powered (R : Part → Part → Prop) : Prop where
  trans : ∀ {a b c}, R a b → R b c → R a c
  tuned : ∀ {d d'}, Tuned d d' → R d d'
  post : ∀ k s v d, R d (post k s v d)
  recomputeCapacity : ∀ d, R d (recomputeCapacity d)
  examineAc : ∀ d, R d (examineAc d)
  qualify : ∀ d, d.sru.source = .unknown → R d (qualify d)
  shedDecision : ∀ u p d, R d (shedDecision u p d)
  deplete : ∀ d, d.sru.source.inEpisode = true → R d (deplete d)

theorem signal_still (s : Signal) (d : Part) : Still d (signal s d) := {}

theorem signalOnce_fixed (s : Signal) (d : Part) : Fixed d (signalOnce s d) := by
  unfold signalOnce
  split <;> exact {}

/-- What is due stays due. -/
theorem signalOnce_keeps_due (s : Signal) (d : Part) : ∀ t ∈ d.agenda, t ∈ (signalOnce s d).agenda := by
  unfold signalOnce
  split
  · exact fun _ h => h
  · exact fun _ h => List.mem_append_left _ h

theorem signalOnce_tuned (s : Signal) (d : Part) : Tuned d (signalOnce s d) := by
  unfold signalOnce
  split
  · exact {}
  · exact { due := fun _ h => List.mem_append_left _ h }

theorem examineCapacity_tuned (d : Part) : Tuned d (examineCapacity d) := by
  unfold examineCapacity
  repeat' split
  all_goals exact {}

namespace Powered
variable {R : Part → Part → Prop} (P : Powered R)
include P

theorem refl (d : Part) : R d d := P.tuned {}

theorem foldl {α : Type} (f : Part → α → Part) (hf : ∀ d a, R d (f d a)) (l : List α) (d : Part) :
    R d (l.foldl f d) := foldl_rel P.refl P.trans f hf l d

theorem signalOnce (s : Signal) (d : Part) : R d (signalOnce s d) := P.tuned (signalOnce_tuned s d)

theorem before {a b c : Part} (h : Tuned a b) (g : R b c) : R a c := P.trans (P.tuned h) g

theorem qualifyIfHeard (d : Part) : R d (qualifyIfHeard d) := by
  unfold Machine.qualifyIfHeard
  split
  · exact P.qualify d (And.left ‹_›)
  · exact P.refl d

theorem deriveRect (i : Nat) (d : Part) : R d (deriveRect i d) := by
  unfold Machine.deriveRect
  split
  · exact P.refl d
  · simp only
    split
    · exact P.refl d
    · exact P.trans (P.trans (P.before {} (P.post _ _ _ _)) (P.recomputeCapacity _)) (P.examineAc _)

theorem deriveBatt (i : Nat) (d : Part) : R d (deriveBatt i d) := by
  unfold Machine.deriveBatt
  split
  · exact P.refl d
  · simp only
    split
    · exact P.refl d
    · exact P.before {} (P.post _ _ _ _)

theorem deriveBatts (d : Part) : R d (deriveBatts d) := P.foldl _ (fun d i => P.deriveBatt i d) _ d

theorem deriveModules (d : Part) : R d (deriveModules d) :=
  P.trans (P.foldl _ (fun d i => P.trans (P.deriveRect i d) (P.qualifyIfHeard _)) _ d)
    (P.deriveBatts _)

theorem warn (t : Nat) (d : Part) : R d (warn t d) := by
  unfold Machine.warn
  split
  · exact P.before {} (P.post _ _ _ _)
  · exact P.refl d

theorem testDepletion (u : Nat) (h : Bool) (d : Part) : R d (testDepletion u h d) := by
  unfold Machine.testDepletion
  split
  · have hd := P.deplete d (And.left ‹_›)
    split
    · exact P.refl d
    · split
      · exact P.refl d
      · exact hd
    · exact hd
  · exact P.refl d

theorem publish (u p t n g : Nat) (h : Bool) (d : Part) : R d (publish u p t n g h d) := by
  unfold Machine.publish
  simp only
  refine P.trans ?_ (P.signalOnce _ _)
  split
  · exact P.before {} (P.tuned (examineCapacity_tuned _))
  · exact P.tuned {}

theorem evaluate (d : Part) : R d (evaluate d) :=
  P.trans (P.trans (P.trans (P.shedDecision _ _ d) (P.warn _ _)) (P.testDepletion _ _ _))
    (P.publish _ _ _ _ _ _ _)

theorem evaluationExpiry (d : Part) : R d (evaluationExpiry d) := by
  unfold Machine.evaluationExpiry
  split
  · exact P.before {} (P.evaluate _)
  · exact P.refl d

theorem qualificationExpiry (d : Part) : R d (qualificationExpiry d) := by
  unfold Machine.qualificationExpiry
  split
  · split
    · exact P.tuned {}
    · exact P.qualify d ‹_›
  · exact P.refl d

theorem requalify (d : Part) : R d (requalify d) := by
  unfold Machine.requalify
  split
  · exact P.tuned {}
  · exact P.refl d

theorem rectChanged (n : Nat) (d : Part) : R d (rectChanged n d) :=
  P.trans (P.trans (P.trans (P.deriveRect n d) (P.recomputeCapacity _)) (P.examineAc _))
    (P.qualifyIfHeard _)

theorem writeRect (n : Nat) (ws : List Word) (d : Part) : R d (writeRect n ws d).1 := by
  unfold Machine.writeRect
  split
  · exact P.refl d
  · split
    · exact P.refl d
    · exact P.before {} (P.rectChanged _ _)
  · split
    · exact P.refl d
    · split
      · exact P.trans (P.before {} (P.requalify _)) (P.rectChanged _ _)
      · split
        · exact P.refl d
        · exact P.before {} (P.rectChanged _ _)

theorem writeBatt (n : Nat) (ws : List Word) (d : Part) : R d (writeBatt n ws d).1 := by
  unfold Machine.writeBatt
  split
  · exact P.refl d
  · exact P.tuned {}
  · split
    · exact P.refl d
    · simp only
      split
      · exact P.refl d
      · exact P.before {} (P.deriveBatt _ _)

section
variable (hl : ∀ d, R d (Machine.examineLine d))
include hl

theorem profileChanged (p : Profile) (d : Part) : R d (profileChanged p d) := by
  unfold Machine.profileChanged
  simp only
  have keepOr (c : Prop) [Decidable c] {a b e : Part} (h : R a b) (g : R b e) :
      R a (if c then b else e) := by
    split
    · exact h
    · exact P.trans h g
  have whenever (c : Prop) [Decidable c] {a b e : Part} (h : R a b) (g : R b e) :
      R a (if c then e else b) := by
    split
    · exact P.trans h g
    · exact h
  refine keepOr _ ?_ (hl _)
  refine whenever _ ?_ (P.signalOnce _ _)
  refine keepOr _ ?_ (P.deriveBatts _)
  refine keepOr _ ?_ (P.examineAc _)
  exact keepOr _ (P.refl d) (P.recomputeCapacity d)

theorem writeProfile (ws : List Word) (d : Part) : R d (writeProfile ws d).1 := by
  unfold Machine.writeProfile
  generalize parseProfile ws = r
  obtain ⟨p, f⟩ := r
  have h : R d (Machine.profileChanged d.sru.profile { d with sru.profile := p }) :=
    P.before {} (P.profileChanged hl _ _)
  cases f <;> exact h

end

end Powered

namespace Changed
variable {R : Part → Part → Prop} (D : Changed R)
include D

theorem refl (d : Part) : R d d := D.still {}

theorem foldl {α : Type} (f : Part → α → Part) (hf : ∀ d a, R d (f d a)) (l : List α) (d : Part) :
    R d (l.foldl f d) := foldl_rel D.refl D.trans f hf l d

theorem forBranches (f : Nat → Part → Part) (hf : ∀ b d, R d (f b d)) (d : Part) :
    R d (forBranches f d) := D.foldl _ (fun d b => hf b d) _ d

theorem signal (s : Signal) (d : Part) : R d (signal s d) := D.still {} fun _ h => List.mem_append_left _ h

theorem signalOnce (s : Signal) (d : Part) : R d (signalOnce s d) :=
  D.still (signalOnce_fixed s d) (signalOnce_keeps_due s d)

theorem before {a b c : Part} (h : Fixed a b) (g : R b c)
    (due : ∀ s ∈ a.agenda, s ∈ b.agenda := by exact fun _ h => h) : R a c := D.trans (D.still h due) g

/-! ## The derived holds and the trips -/

theorem deriveLeak (z : Nat) (d : Part) : R d (deriveLeak z d) :=
  D.forBranches _ (fun b d => D.changeBranch b _ d fun x => by
    constructor <;> split <;> rfl) d

theorem clearZoneBranches (z : Nat) (d : Part) : R d (clearZoneBranches z d) :=
  D.forBranches _ (fun b d => D.changeBranch b _ d fun x => by
    constructor <;> split <;> rfl) d

theorem deriveShed (d : Part) : R d (deriveShed d) := by
  unfold Machine.deriveShed
  exact D.forBranches _ (fun b d => D.changeBranch b (Branch.withShed d) d fun _ => ⟨rfl, rfl⟩) d

theorem tripNode (n : Nat) (d : Part) : R d (tripNode n d) :=
  D.forBranches _ (fun b d => D.changeBranch b _ d fun x => by
    constructor <;> split <;> rfl) d

theorem branchAction (b a : Nat) (d : Part) : R d (Machine.changeBranch b (branchAction a) d) :=
  D.changeBranch b _ d fun _ => ⟨rfl, rfl⟩

/-! ## The LKM -/

section
variable (hs : ∀ c d, R d (setCauses c d))
include hs

theorem handLatch (f : Part → Part) (hf : ∀ d, R d (f d)) (d : Part) : R d (handLatch f d) := by
  unfold Machine.handLatch
  split
  · simp only
    split
    · exact D.trans (D.before {} (hf _)) (D.signal _ _)
    · exact D.trans (D.before {} (hs _ _)) (hf _)
  · exact D.trans (hs _ _) (hf _)

end

/-! ## The SQE -/

section
variable (hq : ∀ d q, Advances d.sqe q → R d { d with sqe := q })
include hq

theorem haltRun (c : StepCause) (d : Part) : R d (haltRun c d) := D.trans (hq d _ (.same (by rfl) (by rfl))) (D.posted _ _ _ _ (by decide))

theorem doneRun (d : Part) : R d (doneRun d) := D.trans (hq d _ (.same (by rfl) (by rfl))) (D.posted _ _ _ _ (by decide))

theorem advance (d : Part) : R d (advance d) := by
  unfold Machine.advance
  split
  · exact D.trans (hq d _ (.same (by rfl) (by rfl))) (D.doneRun hq _)
  · exact hq d _ ⟨rfl, Nat.le_succ _, fun _ => by show d.sqe.index + 1 ≤ 63; omega⟩

theorem completeStep (v : Nat) (d : Part) : R d (completeStep v d) :=
  D.trans (D.posted _ _ _ d (by decide)) (D.advance hq _)

theorem failStep (c : StepCause) (p : Policy) (t : Nat) (d : Part) : R d (failStep c p t d) := by
  unfold Machine.failStep
  cases p with
  | halt => exact D.trans (D.posted _ _ _ d (by decide)) (D.haltRun hq _ _)
  | skip => exact D.trans (D.posted _ _ _ d (by decide)) (D.advance hq _)

theorem sortMember (g b : Nat) (d : Part) : R d (sortMember g b d) := by
  have enrolled : R d (enrol b d) :=
    D.trans (hq d _ (.same (by rfl) (by rfl))) (D.changeBranch b _ _ fun _ => ⟨rfl, rfl⟩)
  unfold Machine.sortMember
  repeat' split
  all_goals first | exact D.refl d | exact enrolled | exact hq d _ (.same (by rfl) (by rfl))

theorem examineEnable (e : SeqStep) (d : Part) : R d (examineEnable e d) := by
  unfold Machine.examineEnable
  split
  · exact D.refl d
  · split
    · exact D.failStep hq _ _ _ d
    · exact D.completeStep hq _ d

theorem examineWait (e : SeqStep) (d : Part) : R d (examineWait e d) := by
  unfold Machine.examineWait
  simp only
  split
  · exact D.failStep hq _ _ _ d
  · split
    · exact D.completeStep hq _ d
    · exact D.refl d

omit hq in
theorem disableGroup (g : Nat) (d : Part) : R d (disableGroup g d) :=
  D.forBranches _ (fun b d => D.changeBranch b _ d fun x => by
    constructor <;> split <;> rfl) d

theorem beginStep (d : Part) : R d (beginStep d) := by
  unfold Machine.beginStep
  simp only
  split
  · exact D.trans (D.trans (hq d _ (.same (by rfl) (by rfl))) (D.posted _ _ _ _ (by decide))) (D.haltRun hq _ _)
  · rename_i e _
    split
    · exact D.trans (hq d _ (.same (by rfl) (by rfl))) (D.doneRun hq _)
    · exact D.trans (D.trans (hq d _ (.same (by rfl) (by rfl))) (D.posted _ _ _ _ (by decide))) (D.advance hq _)
    · split
      · exact D.trans (hq d _ (.same (by rfl) (by rfl))) (D.completeStep hq _ _)
      · exact hq d _ (.same (by rfl) (by rfl))
    · exact D.trans (D.trans (hq d _ (.same (by rfl) (by rfl))) (D.disableGroup _ _)) (D.completeStep hq _ _)
    · exact D.trans (hq d _ (.same (by rfl) (by rfl))) (D.examineWait hq _ _)
    · have h := D.trans (hq d _ (.same (by rfl) (by rfl))) (D.forBranches _ (fun b d => D.sortMember hq e.group b d)
        { d with sqe := { d.sqe with
          phase := .active, enrolled := 0, alreadyOn := 0, startSkipped := 0, faulted := 0
          faultedMembers := [] } })
      generalize Machine.forBranches _ _ = d3 at h
      exact D.trans (D.trans h (hq d3 _ (.same (by rfl) (by rfl)))) (D.examineEnable hq _ _)

theorem runSteps (n : Nat) (d : Part) : R d (runSteps n d) := by
  induction n generalizing d with
  | zero => exact D.refl d
  | succ n ih =>
    unfold Machine.runSteps
    split
    · exact D.trans (D.beginStep hq d) (ih _)
    · exact D.refl d

theorem examine (d : Part) : R d (examine d) := by
  unfold Machine.examine
  repeat' split
  all_goals first
    | exact D.refl d
    | exact D.trans (D.examineEnable hq _ d) (D.runSteps hq _ _)
    | exact D.trans (D.examineWait hq _ d) (D.runSteps hq _ _)

theorem setCauses (c : Causes) (d : Part) : R d (setCauses c d) := by
  unfold Machine.setCauses
  simp only
  split
  · exact D.trans (hq d _ (.same (by rfl) (by rfl))) (D.posted _ _ _ _ (by decide))
  · split
    · have h : R d (Machine.postStep .runResumed none
          { d with sqe := { d.sqe with causes := c, run := .running } }) :=
        D.trans (hq d _ (.same (by rfl) (by rfl))) (D.posted _ _ _ _ (by decide))
      split
      · exact D.trans (D.trans h (hq _ _ (.same (by rfl) (by rfl)))) (D.runSteps hq _ _)
      · exact D.trans (D.trans h (hq _ _ (.same (by rfl) (by rfl)))) (D.examine hq _)
    · exact hq d _ (.same (by rfl) (by rfl))

theorem stepExpiry (d : Part) : R d (stepExpiry d) := by
  unfold Machine.stepExpiry
  repeat' split
  all_goals first
    | exact D.refl d
    | exact D.trans (D.completeStep hq _ d) (D.runSteps hq _ _)
    | exact D.trans (D.failStep hq _ _ _ d) (D.runSteps hq _ _)

theorem abortRun (d : Part) : R d (abortRun d) := by
  unfold Machine.abortRun
  refine D.trans (hq d _ (.same (by rfl) (by rfl))) (D.forBranches _ (fun b d => D.changeBranch b _ d fun x => ?_) _)
  constructor <;> repeat' split
  all_goals rfl

end

end Changed

namespace Posting
variable {R : Part → Part → Prop} (D : Posting R) (hs : ∀ c d, R d (setCauses c d))
include D hs

/-! ## The LKM, with its records -/

theorem confirmZone (z : Nat) (c : ZoneCfg) (k n : Nat) (d : Part) : R d (confirmZone z c k n d) := by
  unfold Machine.confirmZone
  simp only
  refine D.trans ?_ (D.handLatch hs _ (D.deriveLeak z) _)
  split
  · exact D.trans (D.before {} (D.post _ _ _ _)) (D.post _ _ _ _)
  · exact D.before {} (D.post _ _ _ _)

omit hs in
theorem noteDegraded (z : Nat) (d : Part) : R d (noteDegraded z d) := by
  unfold Machine.noteDegraded
  simp only
  split
  · exact D.refl d
  · exact D.before {} (D.post _ _ _ _)

theorem examineZone (z : Nat) (d : Part) : R d (examineZone z d) := by
  unfold Machine.examineZone
  split
  · exact D.refl d
  · simp only
    have h := D.noteDegraded z d
    split
    · split
      · exact D.trans h (D.confirmZone hs _ _ _ _ _)
      · split
        · exact D.trans h (D.before {} (D.post _ _ _ _))
        · exact h
    · split
      · exact D.trans h (D.confirmZone hs _ _ _ _ _)
      · split
        · exact D.trans h (D.before {} (hs _ _))
        · exact h
    · exact h

theorem examineLine (d : Part) : R d (examineLine d) := by
  unfold Machine.examineLine
  repeat' split
  all_goals first | exact D.refl d | exact D.confirmZone hs _ _ _ _ d

theorem leakAck (z : Nat) (d : Part) : R d (leakAck z d).1 := by
  unfold Machine.leakAck
  split
  · split
    · exact D.refl d
    · exact D.before {} (hs _ _)
  · exact D.refl d

theorem leakClear (z : Nat) (d : Part) : R d (leakClear z d).1 := by
  unfold Machine.leakClear
  split
  · exact D.refl d
  · exact D.refl d
  · exact D.refl d
  · split
    · exact D.refl d
    · simp only
      refine D.trans ?_ (D.examineZone hs _ _)
      exact D.trans (D.before {} (D.post _ _ _ _)) (D.handLatch hs _ (D.clearZoneBranches z) _)

theorem writePoint (n : Nat) (ws : List Word) (d : Part) : R d (writePoint n ws d).1 := by
  unfold Machine.writePoint
  simp only
  cases entry d.lkm.points n
  all_goals
    simp only
    repeat' split
  all_goals first
    | exact D.refl d
    | exact D.still {}
    | exact D.before {} (D.examineZone hs _ _)
    | exact D.trans (D.before {} (D.examineZone hs _ _)) (D.examineZone hs _ _)

theorem writeZone (z : Nat) (ws : List Word) (d : Part) : R d (writeZone z ws d).1 := by
  unfold Machine.writeZone
  split
  · exact D.refl d
  · split
    · exact D.refl d
    · split
      · exact D.refl d
      · exact D.trans (D.before {} (D.examineZone hs _ _)) (D.examineLine hs _)

end Posting


namespace Driven
variable {R : Part → Part → Prop} (D : Driven R)
include D

/-! ## The SRU -/

theorem capacityRelease (d : Part) : R d (capacityRelease d) := by
  unfold Machine.capacityRelease
  simp only
  have h : R d (Machine.releaseShed { d with sru.capShed := 0, sru.capDeficitPosted := false }) :=
    D.before {} (D.releaseShed _)
  split
  · exact h
  · exact D.trans h (D.post _ _ _ _)

theorem recomputeCapacity (d : Part) : R d (recomputeCapacity d) := by
  unfold Machine.recomputeCapacity
  simp only
  split
  · exact D.refl d
  · refine D.trans ?_ (D.still (examineCapacity_tuned _).toFixed (examineCapacity_tuned _).due)
    refine D.trans ?_ (D.signalOnce _ _)
    split
    · exact D.before {} (D.capacityRelease _)
    · exact D.still {}

theorem setSource (s : SourceState) (d : Part) : R d (setSource s d) :=
  D.still {} fun _ h => List.mem_append_left _ h

theorem beginEpisode (s : SourceState) (d : Part) : R d (beginEpisode s d) := by
  unfold Machine.beginEpisode
  exact D.trans (D.before {} (D.deriveShed _) fun _ h => List.mem_append_left _ h) (D.post _ _ _ _)

theorem enterOnAc (d : Part) : R d (enterOnAc d) := by
  unfold Machine.enterOnAc
  exact D.trans (D.trans (D.before {} (D.releaseShed _)) (D.signalOnce _ _)) (D.signal _ _)

theorem qualify (d : Part) : R d (qualify d) := by
  unfold Machine.qualify
  simp only
  split
  · exact D.trans (D.before {} (D.enterOnAc _)) (D.post _ _ _ _)
  · exact D.trans (D.before {} (D.post _ _ _ _)) (D.beginEpisode _ _)

theorem examineAc (d : Part) : R d (examineAc d) := by
  unfold Machine.examineAc
  split
  · exact D.refl d
  · split
    · exact D.beginEpisode _ d
    · exact D.refl d
  · split
    · exact D.still {} fun _ h => List.mem_append_left _ h
    · exact D.refl d
  · split
    · exact D.still {} fun _ h => List.mem_append_left _ h
    · exact D.refl d
  · split
    · exact D.refl d
    · exact D.before {} (D.post _ _ _ _) fun _ h => List.mem_append_left _ h

theorem postShed (k : Nat) (l : List Nat) (d : Part) : R d (postShed k l d) :=
  D.foldl _ (fun d _ => D.post _ _ _ d) l d

theorem capacityExpiry (d : Part) : R d (capacityExpiry d) := by
  unfold Machine.capacityExpiry
  split
  · simp only
    split
    · exact D.still {}
    · generalize selectTiers _ _ _ _ _ _ = r
      obtain ⟨sel, left, met⟩ := r
      refine D.trans ?_ (D.deriveShed _)
      have h : R d (Machine.postShed 1 sel { d with
          sru.capTimer := .stopped, sru.capShed := addTiers d.sru.capShed sel }) :=
        D.before {} (D.postShed _ _ _)
      simp only
      split
      · exact D.trans h (D.before {} (D.post _ _ _ _))
      · exact h
  · exact D.refl d

theorem shedDecision (u p : Nat) (d : Part) : R d (shedDecision u p d) := by
  unfold Machine.shedDecision
  split
  · simp only
    generalize selectTiers _ _ _ _ _ _ = r
    obtain ⟨sel, left, met⟩ := r
    refine D.trans ?_ (D.deriveShed _)
    have h : R d (Machine.postShed 0 sel { d with
        sru.battShed := addTiers d.sru.battShed sel }) := D.before {} (D.postShed _ _ _)
    simp only
    split
    · exact D.trans h (D.before {} (D.post _ _ _ _))
    · exact h
  · exact D.refl d

theorem deplete (d : Part) : R d (deplete d) := by
  unfold Machine.deplete
  exact D.trans (D.trans (D.before {} (D.deriveShed _) fun _ h => List.mem_append_left _ h) (D.post _ _ _ _))
    (D.examineAc _)

theorem stableExpiry (d : Part) : R d (stableExpiry d) := by
  unfold Machine.stableExpiry
  split
  · exact D.trans (D.trans (D.enterOnAc d) (D.post _ _ _ _)) (D.post _ _ _ _)
  · exact D.refl d

theorem powered : Powered R where
  trans := D.trans
  tuned h := D.still h.toFixed h.due
  post := D.post
  recomputeCapacity := D.recomputeCapacity
  examineAc := D.examineAc
  qualify d _ := D.qualify d
  shedDecision := D.shedDecision
  deplete d _ := D.deplete d

end Driven

end Sys2Proof.Machine

/-! PROOFS. From the primitive updates of the BCU to its operations (`Built`), from there to the
whole part. -/

namespace Sys2Proof.Machine

-- One proof after another: proofs that are checked side by side take a thread each.
set_option Elab.async false

/-- A relation that the primitive updates keep of which the operations of the BCU are made. -/
structure Operated (R : Part → Part → Prop) : Prop where
  trans : ∀ {a b c}, R a b → R b c → R a c
  fixed : ∀ {d d'}, Fixed d d' → R d d'
  stage : ∀ b n v d, v = ctlOff ∨ v = ctlOn → R d (stage .bcu b n v d).1
  posted : ∀ k s v d, k ∉ leakKinds → R d (post k s v d)
  putBranch : ∀ b y d, R d (putBranch b y d)
  bcu : ∀ d u, u.branches = d.bcu.branches → R d { d with bcu := u }
  noteFaulted : ∀ b x d, R d (noteFaulted b x d)

theorem stage_still (w : Writer) (b : Option Nat) (n : Nat) (v : Word) (d : Part) :
    Still d (stage w b n v d).1 := by
  unfold stage
  split
  · exact {}
  · split
    · exact {}
    · rename_i r _
      rcases tellSuperseded_eq w n r d with h | ⟨-, h⟩ <;> rw [h] <;> exact {}

namespace Operated
variable {R : Part → Part → Prop} (B : Operated R)
include B

theorem refl (d : Part) : R d d := B.fixed {}

theorem signalOnce (s : Signal) (d : Part) : R d (signalOnce s d) := B.fixed (signalOnce_fixed s d)

theorem setQueue (q : List Nat) (d : Part) : R d (setQueue q d) := by
  unfold Machine.setQueue
  split
  · exact B.bcu d _ (by rfl)
  · exact B.trans (B.bcu d _ (by rfl)) (B.signalOnce _ _)

theorem leaveQueue (b : Nat) (d : Part) : R d (leaveQueue b d) := B.setQueue _ d

theorem noteLoad (n : Nat) (d : Part) : R d (noteLoad n d) := by
  unfold Machine.noteLoad
  split
  · exact B.signalOnce _ d
  · exact B.refl d

theorem faultBranch (c : BranchCause) (b : Nat) (d : Part) : R d (faultBranch c b d) := by
  unfold Machine.faultBranch
  split
  · exact B.refl d
  · rename_i x hx
    refine B.trans (B.trans (B.trans ?_ (B.noteFaulted _ _ _)) (B.posted _ _ _ _ (by decide))) (B.signalOnce _ _)
    have left := B.trans (B.putBranch b { x with
      state := .fault, timer := .stopped, foundFaulted := decide (x.state = .unknown) } d)
      (B.leaveQueue b _)
    split
    · exact left
    · exact B.trans left (B.stage _ _ _ _ (.inl rfl))

theorem stageBranch (b : Nat) (v : Word) (hv : v = ctlOff ∨ v = ctlOn) (d : Part) : R d (stageBranch b v d) := by
  unfold Machine.stageBranch
  split
  · exact B.refl d
  · rename_i x _
    have h := B.stage (some b) x.cfg.node v d hv
    split <;> (rename_i he; rw [he] at h)
    · split
      · exact h
      · exact B.trans (h) (B.faultBranch _ _ _)
    · exact h

theorem stopBranch (b : Nat) (d : Part) : R d (stopBranch b d) := by
  unfold Machine.stopBranch
  split
  · exact B.refl d
  · rename_i x hx
    exact B.trans (B.trans (B.trans (B.putBranch b _ d) (B.noteLoad _ _))
      (B.signalOnce _ _)) (B.stageBranch _ _ (.inl rfl) _)

theorem enqueueBack (b : Nat) (d : Part) : R d (enqueueBack b d) := by
  unfold Machine.enqueueBack
  split
  · exact B.refl d
  · rename_i x hx
    exact B.trans (B.trans (B.putBranch b _ d)
      (B.setQueue _ _)) (B.signalOnce _ _)

theorem queueIfWanted (b : Nat) (d : Part) : R d (queueIfWanted b d) := by
  unfold Machine.queueIfWanted
  repeat' split
  · exact B.refl d
  · exact B.enqueueBack b d
  · exact B.refl d

theorem applyOutput (b : Nat) (x y : Branch) (d : Part) : R d (applyOutput b x y d) := by
  unfold Machine.applyOutput
  split
  · exact B.refl d
  · have h := B.trans (B.putBranch b y d) (B.signalOnce .branches _)
    simp only
    split
    · split
      · exact B.trans (B.trans h (B.putBranch b _ _)) (B.leaveQueue _ _)
      · exact B.trans h (B.stopBranch b _)
      · exact B.trans h (B.stopBranch b _)
      · exact h
    · exact B.trans h (B.queueIfWanted b _)

theorem changeBranch (b : Nat) (f : Branch → Branch) (d : Part) : R d (changeBranch b f d) := by
  unfold Machine.changeBranch
  split
  · exact B.refl d
  · exact B.applyOutput b _ _ d

theorem forBranches (f : Nat → Part → Part) (hf : ∀ b d, R d (f b d)) (d : Part) :
    R d (forBranches f d) := foldl_rel B.refl B.trans _ (fun d b => hf b d) _ d

theorem releaseShed (d : Part) : R d (releaseShed d) := by
  unfold Machine.releaseShed
  simp only
  refine B.trans (B.forBranches _ (fun b e => ?_) d) (B.setQueue _ _)
  split
  · split
    · exact B.refl e
    · exact B.trans (B.putBranch b _ e) (B.signalOnce _ _)
  · exact B.refl e

/-- A relation that the primitive updates of the BCU keep is one that its changes of a branch keep. -/
theorem changed : Changed R where
  trans := B.trans
  still h _ := B.fixed h
  posted := B.posted
  changeBranch b f d _ := B.changeBranch b f d

/-! ## Samples, outcomes, admission and the timers -/

theorem adopt (b : Nat) (x : Branch) (c : Int) (d : Part) :
    R d (adopt b x c d) := by
  unfold Machine.adopt
  split
  · exact B.trans (B.trans (B.trans (B.putBranch b _ d)
      (B.signalOnce _ _)) (B.stageBranch _ _ (.inl rfl) _)) (B.queueIfWanted _ _)
  · split
    · exact B.faultBranch _ _ d
    · have h := B.trans (B.putBranch b
        { x with state := .on, demands := { x.demands with seq := true } } d)
        (B.signalOnce .branches _)
      simp only
      split
      · exact B.trans h (B.stopBranch _ _)
      · exact B.trans h (B.stageBranch _ _ (.inr rfl) _)

theorem switchReading (b : Nat) (c : Int) (d : Part) : R d (switchReading b c d) := by
  unfold Machine.switchReading
  split
  · exact B.refl d
  · have stood (y : Branch) :
        R d (Machine.signalOnce .branches (Machine.putBranch b y d)) :=
      B.trans (B.putBranch b y d) (B.signalOnce _ _)
    split
    · exact B.adopt b _ c d
    all_goals repeat' split
    all_goals first
      | exact B.refl d
      | exact B.faultBranch _ _ d
      | exact stood _
      | exact B.trans (stood _) (B.queueIfWanted _ _)

theorem setFreshness (n : Nat) (v : Bool) (d : Part) : R d (setFreshness n v d) := by
  unfold Machine.setFreshness
  repeat' split
  · exact B.refl d
  · exact B.refl d
  · exact B.putBranch _ _ d

theorem powerReading (n : Nat) (v : Int) (c : ChanClass) (d : Part) :
    R d (powerReading n v c d) := by
  unfold Machine.powerReading
  repeat' split
  · exact B.refl d
  · exact B.refl d
  · exact B.putBranch _ _ d

theorem outcomeToBcu (b : Option Nat) (n : Nat) (o : Delivery) (d : Part) :
    R d (outcomeToBcu b n o d) := by
  unfold Machine.outcomeToBcu
  repeat' split
  all_goals first | exact B.refl d | exact B.faultBranch _ _ d

theorem admitHead (b : Nat) (x : Branch) (d : Part) : R d (admitHead b x d) := by
  unfold Machine.admitHead
  refine B.trans (B.trans (B.trans ?_ (B.bcu _ _ (by rfl))) (B.signalOnce _ _)) (B.stageBranch _ _ (.inr rfl) _)
  exact B.trans (B.putBranch b _ d) (B.leaveQueue _ _)

theorem attempt (d : Part) : R d (attempt d) := by
  unfold Machine.attempt
  repeat' split
  all_goals first
    | exact B.refl d
    | exact B.bcu d _ (by rfl)
    | exact B.admitHead _ _ d

theorem branchExpiry (s : BranchState) (c : BranchCause) (b : Nat) (d : Part) :
    R d (branchExpiry s c b d) := by
  unfold Machine.branchExpiry
  repeat' split
  all_goals first | exact B.refl d | exact B.faultBranch _ _ d

theorem branchClear (b : Nat) (d : Part) : R d (branchClear b d) := by
  unfold Machine.branchClear
  split
  · exact B.refl d
  · rename_i x hx
    split
    · exact B.trans (B.trans (B.trans (B.putBranch b _ d) (B.noteLoad _ _))
        (B.signalOnce _ _)) (B.queueIfWanted _ _)
    · exact B.changeBranch b _ d

theorem spacingExpiry (d : Part) : R d (spacingExpiry d) := by
  unfold Machine.spacingExpiry
  split
  · exact B.trans (B.bcu d _ (by rfl)) (B.attempt _)
  · exact B.refl d

end Operated

/-- A relation that the primitive updates of the BCU keep, whatever is staged. -/
structure Built (R : Part → Part → Prop) : Prop extends Operated R where
  still : ∀ {d d'}, Still d d' → R d d'
  post : ∀ k s v d, R d (post k s v d)
  emptied : ∀ b d, R d { d with bcu.branches := d.bcu.branches.set b none }
  fixed := fun h => still h.toStill
  posted := fun k s v d _ => post k s v d
  stage := fun _ _ _ _ _ => still (stage_still _ _ _ _ _)

namespace Built
variable {R : Part → Part → Prop} (B : Built R)
include B

/-- A relation that the primitive updates of the BCU keep is one that its operations keep. -/
theorem driven : Driven R where
  toChanged := B.changed
  post := B.post
  releaseShed := B.releaseShed

theorem rewriteBranch (n : Nat) (x : Branch) (c : BranchCfg) (d : Part) :
    R d (rewriteBranch n x c d) := by
  have forgot : R d (if c.node = x.cfg.node then d else forgetStages n d) := by
    split
    · exact B.refl d
    · exact B.still {}
  unfold Machine.rewriteBranch
  generalize (if c.node = x.cfg.node then d else forgetStages n d) = e at forgot ⊢
  have h := B.trans forgot (B.applyOutput n x (x.rewritten e c) e)
  split
  · exact B.trans h (B.signalOnce _ _)
  · exact h

theorem writeBranch (n : Nat) (ws : List Word) (d : Part) : R d (writeBranch n ws d).1 := by
  unfold Machine.writeBranch
  split
  · exact B.refl d
  · split
    · exact B.refl d
    · split
      · exact B.refl d
      · exact B.trans (B.emptied n d) (B.trans (B.still {}) (B.signalOnce _ _))
  · split
    · exact B.refl d
    · split
      · exact B.putBranch _ _ d
      · repeat' split
        all_goals first | exact B.refl d | exact B.rewriteBranch _ _ _ d

/-! ## The other blocks -/

section
variable (hs : ∀ c d, R d (setCauses c d))
include hs

theorem innerEvents (hstep : ∀ d, R d (stepExpiry d)) {c : Instr} (hc : innerEvent c = true) (d : Part) :
    R d (effect c d) := by
  cases c
  case acfailInChange => exact B.driven.examineAc d
  case leakInChange => exact B.driven.examineLine hs d
  case admitTimerExpiry b => exact B.branchExpiry _ _ _ d
  case stopTimerExpiry b => exact B.branchExpiry _ _ _ d
  case spacingTimerExpiry => exact B.spacingExpiry d
  case qualificationTimerExpiry => exact B.driven.powered.qualificationExpiry d
  case stableTimerExpiry => exact B.driven.stableExpiry d
  case capacityPersistenceExpiry => exact B.driven.capacityExpiry d
  case evaluation => exact B.driven.powered.evaluationExpiry d
  case stepTimerExpiry => exact hstep d
  all_goals cases hc

variable (hu : ∀ {d d'}, Unmoved d d' → R d d')
include hu

theorem heard : Heard R where
  trans := B.trans
  unmoved := hu
  deriveModules := B.driven.powered.deriveModules
  setFreshness := B.setFreshness
  examineZone := B.driven.examineZone hs

theorem applyRecord (hsteps : ∀ d l, d.sqe.underWay = false → R d { d with sqe.steps := l })
    (t : TableId) (n : Nat) (ws : List Word) (d : Part) : R d (applyRecord t n ws d).1 := by
  cases t with
  | slotMap => exact (B.heard hs hu).writeSlot n ws d
  | limit => exact (B.heard hs hu).writeLimit n ws d
  | rectifier => exact B.driven.powered.writeRect n ws d
  | battery => exact B.driven.powered.writeBatt n ws d
  | branch => exact B.writeBranch n ws d
  | sequence =>
    show R d (writeStep n ws d).1
    unfold writeStep
    split
    · exact B.refl d
    · split
      · exact B.refl d
      · exact hsteps d _ (by simpa using ‹¬d.sqe.underWay = true›)
  | leakPoint => exact B.driven.writePoint hs n ws d
  | leakZone => exact B.driven.writeZone hs n ws d
  | profile => exact B.driven.powered.writeProfile (B.driven.examineLine hs) ws d

/-- A relation that the primitive updates of the BCU keep is carried through the part, where it holds of what the
SQE does, of a tick and of the protection requests. -/
theorem carried {ok : Request → Prop}
    (hsteps : ∀ d l, d.sqe.underWay = false → R d { d with sqe.steps := l })
    (htick : ∀ d, R d (tick d)) (hx : ∀ d, R d (examine d))
    (hstart : ok .sequenceStart → ∀ d, d.sqe.underWay = false → R d (startRun d))
    (habort : ∀ d, (d.sqe.underWay || d.sqe.run == .halted) = true → R d (abortRun d))
    (hp : ∀ table banks, ok (.protect table banks) → ∀ d, R d (doProtect true table banks d).1)
    (hn : ∀ table banks, ok (.unprotect table banks) → ∀ d, R d (doProtect false table banks d).1)
    (hf : ∀ d, R d (doFreeze d).1) : Carried R ok where
  toHeard := B.heard hs hu
  tick := htick
  powerReading := B.powerReading
  switchReading := B.switchReading
  tripNode := B.driven.tripNode
  attempt := B.attempt
  examine := hx
  setCauses := hs
  outcomeToBcu := B.outcomeToBcu
  applyRecord := B.applyRecord hs hu hsteps
  branchAction := B.driven.branchAction
  branchClear := B.branchClear
  startRun := hstart
  abortRun := habort
  leakAck z d := B.driven.leakAck hs z d
  leakClear w _ d := B.driven.leakClear hs w.toNat d
  protect := hp
  unprotect := hn
  freeze := hf

end

end Built

end Sys2Proof.Machine

/-! PROOFS. Two relations that every operation keeps: the protection, which only PROTECT, UNPROTECT and FREEZE
PROTECTION change (R176, R177), and the step index of the run record (R120). -/

namespace Sys2Proof.Machine

-- One proof after another: proofs that are checked side by side take a thread each.
set_option Elab.async false

/-! ## The protection -/

/-- Whatever leaves the protection alone keeps `R`: of the operations there remain the three protection requests. -/
theorem carried_of_prot {R : Part → Part → Prop} {ok : Request → Prop}
    (ht : ∀ {a b c}, R a b → R b c → R a c) (h : ∀ {d d' : Part}, d'.prot = d.prot → R d d')
    (hp : ∀ table banks, ok (.protect table banks) → ∀ d, R d (doProtect true table banks d).1)
    (hn : ∀ table banks, ok (.unprotect table banks) → ∀ d, R d (doProtect false table banks d).1)
    (hf : ∀ d, R d (doFreeze d).1) : Carried R ok where
  trans := ht
  unmoved u := h u.prot
  deriveModules d := h (deriveModules_sourced d).prot
  setFreshness n v d := h (setFreshness_kept n v d).prot
  examineZone z d := h (examineZone_leaked z d).prot
  tick d := h (tick_outer d).toBase.prot
  powerReading n v c d := h (powerReading_kept n v c d).prot
  switchReading b c d := h (switchReading_kept b c d).prot
  tripNode n d := h (tripNode_kept n d).prot
  attempt d := h (attempt_settled d).prot
  examine d := h (examine_settled d).prot
  setCauses c d := h (setCauses_settled c d).prot
  outcomeToBcu b n o d := h (outcomeToBcu_settled b n o d).prot
  applyRecord t n ws d := h (applyRecord_base t n ws d).prot
  branchAction b a d := h (changeBranch_kept b (Machine.branchAction a) (fun _ => rfl) d).prot
  branchClear b d := h (branchClear_kept b d).prot
  startRun _ d _ := h (startRun_settled d).prot
  abortRun d _ := h (abortRun_settled d).prot
  leakAck z d := h (leakAck_leaked z d).prot
  leakClear w _ d := h (leakClear_leaked w.toNat d).prot
  protect := hp
  unprotect := hn
  freeze := hf

theorem softReset_prot (d : Part) : (softReset d).prot = d.prot := (examineLine_leaked _).prot

theorem innerEvent_prot {c : Instr} (hc : innerEvent c = true) (d : Part) :
    (effect c d).prot = d.prot := by
  cases c
  case acfailInChange => exact (examineAc_sourced d).prot
  case leakInChange => exact (examineLine_leaked d).prot
  case admitTimerExpiry => exact (branchExpiry_settled _ _ _ d).prot
  case stopTimerExpiry => exact (branchExpiry_settled _ _ _ d).prot
  case spacingTimerExpiry => exact (spacingExpiry_settled d).prot
  case qualificationTimerExpiry => exact (qualificationExpiry_sourced d).prot
  case stableTimerExpiry => exact (stableExpiry_sourced d).prot
  case capacityPersistenceExpiry => exact (capacityExpiry_sourced d).prot
  case evaluation => exact (evaluationExpiry_sourced d).prot
  case stepTimerExpiry => exact (stepExpiry_settled d).prot
  all_goals cases hc

/-- PROTECT and UNPROTECT leave the run record alone. -/
theorem doProtect_sqe (v : Bool) (table : Word) (banks : List Word) (d : Part) :
    (doProtect v table banks d).1.sqe = d.sqe := by
  rcases doProtect_part v table banks d with e | ⟨-, _, e⟩ <;> rw [e]

/-- PROTECT and UNPROTECT change no flag while the flags are frozen. -/
theorem doProtect_frozen (v : Bool) (table : Word) (banks : List Word) {d : Part}
    (h : d.prot.frozen = true) : (doProtect v table banks d).1.prot = d.prot := by
  rcases doProtect_part v table banks d with e | ⟨hf, _, e⟩
  · rw [e]
  · rw [h] at hf
    cases hf

/-- While the flags are frozen the protection stands. -/
def FrozenStands (d d' : Part) : Prop := d.prot.frozen = true → d'.prot = d.prot

theorem carried_frozenStands : Carried FrozenStands fun _ => True :=
  carried_of_prot
    (fun hab hbc h => (hbc (by rw [hab h]; exact h)).trans (hab h))
    (fun h _ => h)
    (fun _ _ _ _ h => doProtect_frozen _ _ _ h)
    (fun _ _ _ _ h => doProtect_frozen _ _ _ h)
    (fun d h => by
      show { d.prot with frozen := true } = d.prot
      rw [← h])

/-- The protection flags stand. -/
def FlagsStand (d d' : Part) : Prop := d'.prot.flags = d.prot.flags

/-- A request other than PROTECT and UNPROTECT. -/
def Request.leavesFlags (q : Request) : Prop :=
  ∀ table banks, q ≠ .protect table banks ∧ q ≠ .unprotect table banks

theorem carried_flagsStand : Carried FlagsStand Request.leavesFlags :=
  carried_of_prot (fun hab hbc => Eq.trans hbc hab) (fun h => congrArg Protection.flags h)
    (fun table banks h => absurd rfl (h table banks).1)
    (fun table banks h => absurd rfl (h table banks).2)
    (fun _ => rfl)

/-- The request of a row other than PROTECT and UNPROTECT leaves the flags. -/
theorem leavesFlags_of_request {c : Instr} {q : Queued}
    (hrow : ∀ tag table banks, c ≠ .protect tag table banks ∧ c ≠ .unprotect tag table banks)
    (h : request c = some q) : q.req.leavesFlags := by
  cases c
  case protect => exact absurd rfl (hrow _ _ _).1
  case unprotect => exact absurd rfl (hrow _ _ _).2
  all_goals cases h
  all_goals exact fun _ _ => ⟨nofun, nofun⟩

/-- Settles O60, by two relations that every operation but the protection requests keeps. -/
theorem frozenProtectionStands : Obligations.FrozenProtectionStands := by
  refine ⟨fun s t c hf hc h => ?_, fun s t c hc hm hrow hq h => ?_⟩
  · exact carried_frozenStands.exec hc (fun hi d _ => innerEvent_prot hi d)
      (fun d _ => softReset_prot d) (fun _ _ => trivial) h hf
  · refine carried_flagsStand.exec hc (fun hi d => congrArg _ (innerEvent_prot hi d))
      (fun d => congrArg _ (softReset_prot d)) (fun q hmem => ?_) h
    rcases List.mem_append.mp hmem with hmem | hmem
    · rcases List.mem_append.mp hmem with hmem | hmem
      · exact hq q hmem
      · exact leavesFlags_of_request hrow (by simpa using hmem)
    · cases c
      case messageReceive => exact absurd rfl (hm _)
      all_goals cases hmem

/-! ## The step index -/

/-- The run record moves on between the two: the step index does not fall, and goes on naming an entry. -/
structure RunMoves (d d' : Part) : Prop where
  grows : d.sqe.index ≤ d'.sqe.index
  bound : d.sqe.index ≤ 63 → d'.sqe.index ≤ 63

theorem RunMoves.of_index {d d' : Part} (h : d'.sqe.index = d.sqe.index) : RunMoves d d' where
  grows := h.ge
  bound := h ▸ id

theorem RunMoves.trans {a b c : Part} (h : RunMoves a b) (g : RunMoves b c) : RunMoves a c where
  grows := h.grows.trans g.grows
  bound := g.bound ∘ h.bound

/-- An operation of the BCU leaves the run record alone, but for the faulted members of a run that is under way
(R123). -/
structure RunStands (d d' : Part) : Prop where
  run : d'.sqe.run = d.sqe.run
  index : d'.sqe.index = d.sqe.index

theorem RunStands.trans {a b c : Part} (h : RunStands a b) (g : RunStands b c) : RunStands a c where
  run := g.run.trans h.run
  index := g.index.trans h.index

theorem RunStands.of_sqe {d d' : Part} (h : d'.sqe = d.sqe) : RunStands d d' where
  run := by rw [h]
  index := by rw [h]

theorem noteFaulted_runStands (b : Nat) (x : Branch) (d : Part) : RunStands d (noteFaulted b x d) := by
  unfold noteFaulted
  repeat' split
  all_goals exact ⟨rfl, rfl⟩

theorem runStands_built : Built RunStands where
  trans := RunStands.trans
  still h := .of_sqe h.sqe
  post k s v d := .of_sqe (post_unmoved k s v d).sqe
  putBranch _ _ _ := ⟨rfl, rfl⟩
  emptied _ _ := ⟨rfl, rfl⟩
  bcu _ _ _ := ⟨rfl, rfl⟩
  noteFaulted := noteFaulted_runStands

theorem runMoves_driven : Driven RunMoves where
  trans := RunMoves.trans
  still h _ := .of_index (RunStands.of_sqe h.sqe).index
  post k s v d := .of_index (runStands_built.post k s v d).index
  changeBranch b f d _ := .of_index (runStands_built.changeBranch b f d).index
  releaseShed d := .of_index (runStands_built.releaseShed d).index

theorem runMoves_of_advances (d : Part) (q : Sqe) (h : Advances d.sqe q) :
    RunMoves d { d with sqe := q } := ⟨h.grows, h.bound⟩

/-- The run goes on, or it ends: the step index does not fall unless the run becomes IDLE, and goes on naming an
entry. Where `g` holds, no run begins either. -/
structure RunKept (g : Prop) (d d' : Part) : Prop where
  bound : d.sqe.index ≤ 63 → d'.sqe.index ≤ 63
  grows : g → d'.sqe.run = .idle ∨ d.sqe.index ≤ d'.sqe.index
  idle : g → d.sqe.run = .idle → d'.sqe.run = .idle
  ended : g → d.sqe.underWay = false → d'.sqe.underWay = false

theorem RunKept.trans {g : Prop} {a b c : Part} (h : RunKept g a b) (k : RunKept g b c) :
    RunKept g a c where
  bound := k.bound ∘ h.bound
  grows hg := (k.grows hg).elim .inl fun hk => (h.grows hg).elim (fun hi => .inl (k.idle hg hi))
    fun hh => .inr (hh.trans hk)
  idle hg := k.idle hg ∘ h.idle hg
  ended hg := k.ended hg ∘ h.ended hg

theorem underWay_iff (s : Sqe) : s.underWay = true ↔ s.run = .running ∨ s.run = .suspended := by
  simp [Sqe.underWay]

theorem RunStands.kept {g : Prop} {d d' : Part} (h : RunStands d d') : RunKept g d d' where
  bound := h.index ▸ id
  grows _ := .inr h.index.ge
  idle _ := h.run ▸ id
  ended _ := by simp [Sqe.underWay, h.run]

theorem runStands_kept (g : Prop) : Built (RunKept g) where
  trans := RunKept.trans
  still h := (runStands_built.still h).kept
  post k s v d := (runStands_built.post k s v d).kept
  putBranch b y d := (runStands_built.putBranch b y d).kept
  emptied b d := (runStands_built.emptied b d).kept
  bcu d u h := (runStands_built.bcu d u h).kept
  noteFaulted b x d := (runStands_built.noteFaulted b x d).kept

/-- What acts on a run that is under way alone, and moves it on, keeps it. -/
theorem RunMoves.kept {g : Prop} {d d' : Part} (h : RunMoves d d')
    (hw : d.sqe.underWay = false → RunStands d d') : RunKept g d d' where
  bound := h.bound
  grows _ := .inr h.grows
  idle _ hi := ((hw (by simp [Sqe.underWay, hi])).run).trans hi
  ended _ hu := by simpa [Sqe.underWay, (hw hu).run] using hu

theorem examine_kept {g : Prop} (d : Part) : RunKept g d (examine d) :=
  (runMoves_driven.examine runMoves_of_advances d).kept fun hu => by
    have hr : d.sqe.run ≠ .running := fun h => by simp [Sqe.underWay, h] at hu
    unfold examine
    rw [if_neg fun h => hr h.1]
    exact ⟨rfl, rfl⟩

theorem setCauses_kept {g : Prop} (c : Causes) (d : Part) : RunKept g d (setCauses c d) :=
  (runMoves_driven.setCauses runMoves_of_advances c d).kept fun hu => by
    have hr : d.sqe.run ≠ .running := fun h => by simp [Sqe.underWay, h] at hu
    have hs : d.sqe.run ≠ .suspended := fun h => by simp [Sqe.underWay, h] at hu
    unfold setCauses
    simp only
    rw [if_neg fun h => hr h.1, if_neg fun h => hs h.1]
    exact ⟨rfl, rfl⟩

theorem stepExpiry_kept {g : Prop} (d : Part) : RunKept g d (stepExpiry d) :=
  (runMoves_driven.stepExpiry runMoves_of_advances d).kept fun hu => by
    have hr : d.sqe.run ≠ .running := fun h => by simp [Sqe.underWay, h] at hu
    unfold stepExpiry
    split
    · exact absurd ‹d.sqe.run = .running› hr
    · exact ⟨rfl, rfl⟩

/-- The step index of a run that has just been started names entry 0, and moves on from there (R131). -/
theorem startRun_index (d : Part) : (startRun d).sqe.index ≤ 63 := by
  unfold startRun
  simp only
  split
  · rw [postStep, (post_unmoved _ _ _ _).sqe]
    exact Nat.zero_le _
  · exact (runMoves_driven.runSteps runMoves_of_advances _ _).bound (Nat.zero_le _)

theorem abortRun_kept {g : Prop} (d : Part) : RunKept g d (abortRun d) := by
  unfold abortRun
  simp only
  refine RunKept.trans (b := { d with sqe := { d.sqe with
    run := .idle, timer := .stopped, causes := { d.sqe.causes with request := false } } }) ?_
    ((runStands_kept g).forBranches _ (fun b e => (runStands_kept g).changeBranch b _ e) _)
  exact ⟨id, fun _ => .inl rfl, fun _ _ => rfl, fun _ _ => rfl⟩

theorem carried_runKept {g : Prop} {ok : Request → Prop} (h : g → ¬ ok .sequenceStart) :
    Carried (RunKept g) ok :=
  (runStands_kept g).carried setCauses_kept (fun u => (RunStands.of_sqe u.sqe).kept)
    (fun _ _ _ => RunStands.kept ⟨rfl, rfl⟩) (fun _ => RunStands.kept ⟨rfl, rfl⟩) examine_kept
    (fun hs d _ => ⟨fun _ => startRun_index d, fun hg => absurd hs (h hg),
      fun hg => absurd hs (h hg), fun hg => absurd hs (h hg)⟩)
    (fun d _ => abortRun_kept d)
    (fun t b _ d => (RunStands.of_sqe (doProtect_sqe true t b d)).kept)
    (fun t b _ d => (RunStands.of_sqe (doProtect_sqe false t b d)).kept)
    (fun _ => RunStands.kept ⟨rfl, rfl⟩)

/-- The part after a soft reset, before the LEAK_IN line is examined. -/
def resetBase (d : Part) : Part :=
  let d1 := resetBlocks d
  { d1 with bcu.branches := (ruleTable d .branch d.bcu.branches).map (Option.map (resetBranch d1)) }

theorem softReset_eq (d : Part) : softReset d = examineLine (resetBase d) := rfl

/-- After a soft reset the run is IDLE, at step 0 (R135). -/
theorem softReset_kept {g : Prop} (d : Part) : RunKept g d (softReset d) := by
  have hb : RunKept g d (resetBase d) :=
    ⟨fun _ => Nat.zero_le _, fun _ => .inl rfl, fun _ _ => rfl, fun _ _ => rfl⟩
  rw [softReset_eq]
  exact hb.trans ((runStands_kept g).driven.examineLine setCauses_kept _)

/-- A command but a power-on reset keeps the run, where `ok` excludes a SEQUENCE START. -/
theorem exec_runKept {g : Prop} {ok : Request → Prop} (hg : g → ¬ ok .sequenceStart) {c : Instr}
    {s t : State} (hp : c ≠ .powerOnReset) (hd : ∀ q ∈ asked c s.part, ok q.req)
    (h : exec c s = .next t) : RunKept g s.part t.part :=
  (carried_runKept hg).exec hp
    (fun hi d => (runStands_kept g).innerEvents setCauses_kept stepExpiry_kept hi d)
    softReset_kept hd h

theorem exec_powerOnReset {s t : State} (h : exec .powerOnReset s = .next t) :
    t.part = { Part.powerOn s.part.lines.acfailIn s.part.lines.leakIn with
      lkm.handOffs := s.part.lkm.handOffs } := by
  rw [← Host.Outcome.next.inj h]
  exact complete_powerOnReset s.part

/-- Settles O59: a run moves on by its steps, or becomes IDLE, and every other operation leaves its index. -/
theorem runIndexGrows : Obligations.RunIndexGrows := by
  have never {c : Instr} {s t : State} (h : exec c s = .next t) (hb : s.part.sqe.index ≤ 63) :
      t.part.sqe.index ≤ 63 := by
    by_cases hp : c = .powerOnReset
    · subst hp
      rw [exec_powerOnReset h]
      exact Nat.zero_le _
    · exact (exec_runKept (g := False) (ok := fun _ => True) False.elim hp (fun _ _ => trivial) h).bound hb
  refine ⟨fun s t => step_keeps (P := fun d => d.sqe.index ≤ 63) fun _ _ _ hb h => never h hb,
    fun s t c rest hc hd h => ?_⟩
  have he := step_front hc h
  by_cases hp : c = .powerOnReset
  · subst hp
    rw [exec_powerOnReset he]
    exact ⟨.inl rfl, fun _ _ => ⟨nofun, nofun⟩⟩
  · have hk : RunKept True s.part t.part :=
      exec_runKept (s := { s with pending := rest }) (ok := fun q => q ≠ .sequenceStart)
        (fun _ h => h rfl) hp hd he
    refine ⟨hk.grows trivial, fun hr hs => ?_⟩
    have hu := hk.ended trivial (by simp [Sqe.underWay, hr, hs])
    exact ⟨fun h => by simp [Sqe.underWay, h] at hu, fun h => by simp [Sqe.underWay, h] at hu⟩

end Sys2Proof.Machine

/-! PROOFS. What a record that is taken by its table makes of the part: the cases of a Branch Table and of a Leak
Zone Table record (R46, R141). -/

namespace Sys2Proof.Machine

-- One proof after another: proofs that are checked side by side take a thread each.
set_option Elab.async false

/-! ## The Branch Table -/

@[simp] theorem Branch.rewritten_cfg (d : Part) (x : Branch) (c : BranchCfg) :
    (x.rewritten d c).cfg = c := by
  unfold Branch.rewritten
  simp only
  split <;> rfl

/-- The part without the stages of branch `n`, where a new switch node ends them (R59). -/
def forgetMoved (n : Nat) (x : Branch) (c : BranchCfg) (d : Part) : Part :=
  if c.node = x.cfg.node then d else forgetStages n d

theorem forgetMoved_branch (n b : Nat) (x : Branch) (c : BranchCfg) (d : Part) :
    (forgetMoved n x c d).branch b = d.branch b := by
  unfold forgetMoved
  split <;> rfl

theorem rewritten_forgetMoved (n : Nat) (x : Branch) (c : BranchCfg) (d : Part) :
    x.rewritten (forgetMoved n x c d) c = x.rewritten d c := by
  unfold forgetMoved
  split <;> rfl

/-- An accepted change of a branch's fields stores the rewritten branch, and then only hands on (R46). -/
theorem rewriteBranch_after {n : Nat} {x : Branch} {c : BranchCfg} {d : Part}
    (h : d.branch n = some x) (hc : c ≠ x.cfg) :
    Settled (putBranch n (x.rewritten d c) (forgetMoved n x c d)) (rewriteBranch n x c d) := by
  have hne : x ≠ x.rewritten d c := fun he => hc (by rw [he, Branch.rewritten_cfg])
  have ha := applyOutput_after n x (x.rewritten d c) (forgetMoved n x c d)
    (by rw [forgetMoved_branch]; exact h) hne
  have he : rewriteBranch n x c d = if c.ratedW < x.cfg.ratedW then
      signalOnce .attempt (applyOutput n x (x.rewritten d c) (forgetMoved n x c d))
      else applyOutput n x (x.rewritten d c) (forgetMoved n x c d) := by
    rw [← rewritten_forgetMoved n x c d]
    rfl
  rw [he]
  split
  · exact ha.trans (signalOnce_settled _ _)
  · exact ha

/-- What a Branch Table record makes of the part: nothing, an emptied entry, a new branch, or a rewritten one. -/
inductive BranchWrite (n : Nat) (d : Part) : Part → Prop
  | none : BranchWrite n d d
  | emptied (x : Branch) : d.branch n = some x → x.state = .off → BranchWrite n d
      (signalOnce .branches (forgetStages n { d with bcu.branches := d.bcu.branches.set n none }))
  | added (c : BranchCfg) : d.branch n = none → BranchWrite n d (putBranch n (Branch.begin d c) d)
  | rewritten (x : Branch) (c : BranchCfg) : d.branch n = some x → c ≠ x.cfg →
      (c.node ≠ x.cfg.node → x.state = .off) → (c.zone ≠ x.cfg.zone → x.holds.leak = false) →
      BranchWrite n d (rewriteBranch n x c d)

theorem writeBranch_cases (n : Nat) (ws : List Word) (d : Part) :
    BranchWrite n d (writeBranch n ws d).1 := by
  unfold writeBranch
  split
  · exact .none
  · split
    · exact .none
    · rename_i x hx
      split
      · exact .none
      · exact .emptied x hx (by_contra ‹_›)
  · rename_i c _
    split
    · exact .none
    · split
      · exact .added c ‹_›
      · rename_i x hx
        split
        · exact .none
        · rename_i hnode
          split
          · exact .none
          · rename_i hzone
            split
            · exact .none
            · refine .rewritten x c hx ‹_› (fun h => ?_) (fun h => ?_)
              · by_contra hs
                exact hnode ⟨h, hs⟩
              · by_contra hl
                exact hzone ⟨h, by simpa using hl⟩

/-! ## The Leak Zone Table -/

/-- A Leak Zone Table record leaves the part as it was, or gives a CLEAR zone new fields and examines it. -/
theorem writeZone_cases (z : Nat) (ws : List Word) (d : Part) :
    (writeZone z ws d).1 = d ∨ ∃ e, (d.zone z).state = .clear ∧ e ≠ (d.zone z).cfg ∧
      (writeZone z ws d).1 = examineLine (examineZone z (putZone z { d.zone z with
        cfg := e, degraded := e.isSome && (d.zone z).degraded } d)) := by
  unfold writeZone
  split
  · exact .inl rfl
  · rename_i e _
    split
    · exact .inl rfl
    · rename_i hb
      split
      · exact .inl rfl
      · exact .inr ⟨e, by simpa [zoneBusy] using hb, ‹_›, rfl⟩

/-! ## The soft reset -/

/-- A soft reset ends with the hand-offs of the LEAK_IN line delivered: no NODE PASS waits. -/
theorem complete_softReset (d : Part) :
    complete (softReset d) = refreshLines (quieten (settleAll (examineLine (resetBase d)))) := by
  refine complete_calm _ fun node h => ?_
  rw [softReset_eq, (examineLine_leaked _).phase] at h
  cases h

theorem complete_softReset_sru (d : Part) : (complete (softReset d)).sru = resetSru d := by
  rw [complete_softReset]
  exact (settleAll_settled _).sru.trans (examineLine_leaked _).sru

end Sys2Proof.Machine

/-! PROOFS. The tier selection (R90, R106), and what every operation makes of the shed sets (R81, R109). -/

namespace Sys2Proof.Machine

-- One proof after another: proofs that are checked side by side take a thread each.
set_option Elab.async false

/-! ## The tier selection -/

/-- The load that is left once the tiers of a list have been subtracted in turn, not below `least`. -/
def leftAfter (least : Nat) (part : Nat → Nat) (ks : List Nat) (p : Nat) : Nat :=
  ks.foldl (fun q k => max least (q - part k)) p

/-- The tiers of a list that are outside a set. -/
def outside (set : TierSet) (ks : List Nat) : List Nat := ks.filter fun k => !set.getLsbD k

/-- What the tier selection answers: the tiers outside the set in their order, as far as the goal asks. -/
structure Selection (goal : Nat → Bool) (least : Nat) (set : TierSet) (part : Nat → Nat) (ks : List Nat)
    (p : Nat) (r : List Nat × Nat × Bool) : Prop where
  taken : r.1 <+: outside set ks
  left : r.2.1 = leftAfter least part r.1 p
  met : r.2.2 = true → r.1 ≠ [] ∧ goal (leftAfter least part r.1 p) = true
  all : r.2.2 = false → r.1 = outside set ks
  notBefore : ∀ n, 0 < n → n < r.1.length → goal (leftAfter least part (r.1.take n) p) = false
  unmet : r.2.2 = false → r.1 ≠ [] → goal (leftAfter least part r.1 p) = false

theorem selectTiers_selection (goal : Nat → Bool) (least : Nat) (set : TierSet) (part : Nat → Nat)
    (ks : List Nat) (p : Nat) :
    Selection goal least set part ks p (selectTiers goal least set part ks p) := by
  induction ks generalizing p with
  | nil => exact ⟨List.nil_prefix, rfl, nofun, fun _ => rfl, fun _ _ h => absurd h (Nat.not_lt_zero _),
    fun _ h => absurd rfl h⟩
  | cons k ks ih =>
    unfold selectTiers
    by_cases hk : set.getLsbD k = true
    · have ho : outside set (k :: ks) = outside set ks := by simp [outside, hk]
      rw [if_pos hk]
      obtain ⟨taken, left, met, all, notBefore, unmet⟩ := ih p
      exact ⟨ho ▸ taken, left, met, ho ▸ all, notBefore, unmet⟩
    · have ho : outside set (k :: ks) = k :: outside set ks := by simp [outside, hk]
      rw [if_neg hk]
      simp only
      by_cases hg : goal (max least (p - part k)) = true
      · rw [if_pos hg]
        refine ⟨ho ▸ (by simp), rfl, fun _ => ⟨by simp, hg⟩, nofun, fun n h0 h1 => ?_, nofun⟩
        exact absurd h1 (by simp; omega)
      · rw [if_neg hg]
        obtain ⟨taken, left, met, all, notBefore, unmet⟩ := ih (max least (p - part k))
        refine ⟨ho ▸ by simpa using taken, left, fun h => ⟨by simp, (met h).2⟩, fun h => ?_,
          fun n h0 h1 => ?_, fun h _ => ?_⟩
        · rw [ho, all h]
        · obtain _ | _ | n := n
          · exact absurd h0 (Nat.lt_irrefl 0)
          · exact Bool.eq_false_iff.mpr hg
          · exact notBefore (n + 1) (Nat.succ_pos n) (by simpa using h1)
        · by_cases hs : (selectTiers goal least set part ks (max least (p - part k))).1 = []
          · simp only [hs]
            exact Bool.eq_false_iff.mpr hg
          · exact unmet h hs

/-- Adding tiers to a set adds them and no other. -/
theorem addTiers_bit (set : TierSet) (ks : List Nat) (k : Nat) (hk : k < 8) :
    (addTiers set ks).getLsbD k = (set.getLsbD k || decide (k ∈ ks)) := by
  unfold addTiers
  induction ks generalizing set with
  | nil => simp
  | cons j ks ih =>
    rw [List.foldl_cons, ih]
    have hone : (1#8 <<< j).getLsbD k = decide (k = j) := by
      simp only [BitVec.getLsbD_shiftLeft, BitVec.getLsbD_one]
      rw [Bool.eq_iff_iff]
      simp
      omega
    rw [BitVec.getLsbD_or, hone, Bool.or_assoc]
    congr 1
    simp [Bool.decide_or]

/-- Settles O25, by induction on the tiers considered. -/
theorem tierSelection : Obligations.TierSelection := by
  intro goal least set part p
  have h := selectTiers_selection goal least set part shedOrder p
  refine ⟨h.taken, h.left, h.met, h.all, h.notBefore, h.unmet, fun k hk => addTiers_bit set _ k hk, ?_⟩
  have h0 : 0 ∉ (selectTiers goal least set part shedOrder p).1 := fun hm => by
    have := List.mem_of_mem_filter (h.taken.subset hm)
    simp [shedOrder] at this
  exact (addTiers_bit set (selectTiers goal least set part shedOrder p).1 0 (by decide)).trans
    (by rw [decide_eq_false h0, Bool.or_false])

end Sys2Proof.Machine

/-! PROOFS. The shed sets (R81, R109): every operation keeps them sound, and while an episode goes on the
battery-shed set only grows. -/

namespace Sys2Proof.Machine

-- One proof after another: proofs that are checked side by side take a thread each.
set_option Elab.async false

/-- The shed sets stay sound, and, unless the episode may end (`g` fails), an episode goes on with every tier that
is in the battery-shed set. -/
structure ShedMoves (g : Prop) (d d' : Part) : Prop where
  sound : d.shedSound → d'.shedSound
  grows : g → d.sru.source.inEpisode = true → d'.sru.source.inEpisode = true ∧
    ∀ k, d.sru.battShed.getLsbD k = true → d'.sru.battShed.getLsbD k = true

theorem ShedMoves.trans {g : Prop} {a b c : Part} (h : ShedMoves g a b) (k : ShedMoves g b c) :
    ShedMoves g a c where
  sound := k.sound ∘ h.sound
  grows hg he :=
    have ⟨hi, hb⟩ := h.grows hg he
    have ⟨ki, kb⟩ := k.grows hg hi
    ⟨ki, fun n hn => kb n (hb n hn)⟩

/-- The source state, the battery-shed set and the depleted flag stand, and so does the capacity-shed set, if it is
not emptied. -/
theorem ShedMoves.of_same {g : Prop} {d d' : Part} (hs : d'.sru.source = d.sru.source)
    (hb : d'.sru.battShed = d.sru.battShed) (hd : d'.sru.depletedFlag = d.sru.depletedFlag)
    (hc : d'.sru.capShed = d.sru.capShed ∨ d'.sru.capShed = 0) : ShedMoves g d d' where
  sound := fun ⟨hn, hout, hcap, hzero, hflag⟩ => by
    refine ⟨hb ▸ hn, hb ▸ hs ▸ hout, fun he => ?_, ?_, hd ▸ hs ▸ hflag⟩
    · rcases hc with hc | hc
      · exact hc.trans (hcap (hs ▸ he))
      · exact hc
    · rw [hb, hs, hd]
      exact hzero
  grows _ he := ⟨hs ▸ he, fun _ => hb ▸ id⟩

theorem ShedMoves.of_sru {g : Prop} {d d' : Part} (h : d'.sru = d.sru) : ShedMoves g d d' :=
  .of_same (by rw [h]) (by rw [h]) (by rw [h]) (.inl (by rw [h]))

section
variable {g : Prop}

theorem shedMoves_post (k : EventKind) (s v : Option Nat) (d : Part) : ShedMoves g d (post k s v d) :=
  .of_sru (post_settled k s v d).sru

theorem shedMoves_deriveShed (d : Part) : ShedMoves g d (deriveShed d) := .of_sru (deriveShed_kept d).sru

/-! ## C and the source state machine -/

theorem capacityRelease_sru (d : Part) :
    (capacityRelease d).sru = { d.sru with capShed := 0, capDeficitPosted := false } := by
  unfold capacityRelease
  simp only
  split
  · exact (releaseShed_kept _).sru
  · exact (post_settled _ _ _ _).sru.trans (releaseShed_kept _).sru

theorem shedMoves_tuned {d d' : Part} (h : Tuned d d') : ShedMoves g d d' := by
  have he := h.shed
  simp only [Prod.mk.injEq] at he
  obtain ⟨hs, hb, hc, hd⟩ := he
  exact .of_same hs hb hd (.inl hc)

theorem shedMoves_recomputeCapacity (d : Part) : ShedMoves g d (recomputeCapacity d) := by
  unfold recomputeCapacity
  simp only
  split
  · exact .of_sru rfl
  · refine .trans ?_ (shedMoves_tuned (examineCapacity_tuned _))
    refine .trans ?_ (shedMoves_tuned (signalOnce_tuned _ _))
    split
    · exact .of_same (by rw [capacityRelease_sru]) (by rw [capacityRelease_sru])
        (by rw [capacityRelease_sru]) (.inr (by rw [capacityRelease_sru]))
    · exact .of_same rfl rfl rfl (.inl rfl)

/-- An episode that begins leaves the battery-shed set as it was before, and empties the capacity-shed set. -/
theorem beginEpisode_sru (s : SourceState) (d : Part) :
    (beginEpisode s d).sru = { d.sru with
      source := .onBattery, tBatt := 0, tBattCounts := true, depletedFlag := false
      deficitPosted := false, holdupPosted := false
      capTimer := .stopped, capShed := 0, capDeficitPosted := false } := by
  unfold beginEpisode postSru
  rw [(post_settled _ _ _ _).sru, (deriveShed_kept _).sru]
  rfl

theorem enterOnAc_sru (d : Part) :
    (enterOnAc d).sru = { d.sru with
      source := .onAc, stableTimer := .stopped, tBattCounts := false, depletedFlag := false
      evaluatedOnAc := false, battShed := 0, capShed := 0, capDeficitPosted := false } := by
  show (signal _ (signalOnce _ _)).sru = _
  unfold signalOnce
  split <;> exact (releaseShed_kept _).sru

/-- Outside an episode a part that enters one with its battery-shed set, no capacity-shed set and no depletion
is sound. -/
theorem ShedMoves.begins {d d' : Part} (ho : d.sru.source.inEpisode = false)
    (hs : d'.sru.source = .onBattery) (hb : d'.sru.battShed = d.sru.battShed)
    (hc : d'.sru.capShed = 0) : ShedMoves g d d' where
  sound := fun ⟨hn, hout, _, _, _⟩ => by
    have hz := hout ho
    refine ⟨hb ▸ hn, fun he => ?_, fun _ => hc, fun h0 => ?_, fun he => ?_⟩
    · rw [hs] at he
      cases he
    · rw [hb, hz] at h0
      cases h0
    · rw [hs] at he
      cases he
  grows _ he := by rw [ho] at he; cases he

/-- With both shed sets empty in ON_AC the shed sets are sound. -/
theorem shedSound_onAc {d : Part} (hs : d.sru.source = .onAc) (hb : d.sru.battShed = 0) :
    d.shedSound := by
  refine ⟨⟨8, le_refl _, hb.trans (by decide)⟩, fun _ => hb, fun he => ?_, fun h0 => ?_, fun he => ?_⟩
  · rw [hs] at he
    cases he
  · rw [hb] at h0
    cases h0
  · rw [hs] at he
    cases he

theorem shedMoves_qualify (d : Part) (h : d.sru.source = .unknown) : ShedMoves g d (qualify d) := by
  have ho : d.sru.source.inEpisode = false := by rw [h]; rfl
  unfold qualify
  simp only
  split
  · refine ⟨fun _ => shedSound_onAc ?_ ?_, fun _ he => by rw [ho] at he; cases he⟩
    all_goals
      unfold postSru
      rw [(post_settled _ _ _ _).sru, enterOnAc_sru]
  · refine .begins ho ?_ ?_ ?_
    all_goals rw [beginEpisode_sru]
    unfold postSru
    rw [(post_settled _ _ _ _).sru]

theorem shedMoves_examineAc (d : Part) : ShedMoves g d (examineAc d) := by
  unfold examineAc
  split
  case h_1 => exact .of_sru rfl
  case h_2 h =>
    split
    · exact .begins (by rw [h]; rfl) (by rw [beginEpisode_sru]) (by rw [beginEpisode_sru])
        (by rw [beginEpisode_sru])
    · exact .of_sru rfl
  case h_3 h =>
    split
    · refine ⟨fun ⟨hn, hout, hcap, hzero, hflag⟩ => ⟨hn, nofun, fun _ => hcap (by rw [h]; rfl),
        fun h0 => ?_, nofun⟩, fun _ _ => ⟨rfl, fun _ => id⟩⟩
      have := hzero h0
      simp [h] at this
    · exact .of_sru rfl
  case h_4 h =>
    split
    · exact ⟨fun ⟨hn, hout, hcap, hzero, hflag⟩ => ⟨hn, nofun, fun _ => hcap (by rw [h]; rfl),
        fun _ => .inr ⟨rfl, hflag h⟩, nofun⟩, fun _ _ => ⟨rfl, fun _ => id⟩⟩
    · exact .of_sru rfl
  case h_5 h =>
    split
    · exact .of_sru rfl
    · refine .trans ?_ (shedMoves_post _ _ _ _)
      refine ⟨fun ⟨hn, hout, hcap, hzero, hflag⟩ => ⟨hn, fun he => ?_, fun _ => hcap (by rw [h]; rfl),
        fun h0 => .inl ?_, fun he => ?_⟩, fun _ _ => ⟨?_, fun _ => id⟩⟩
      · cases hd : d.sru.depletedFlag <;> simp [setSource, signal, hd, SourceState.inEpisode] at he
      · have := hzero h0
        simp only [h, true_and, false_or, reduceCtorEq] at this
        simp [setSource, signal, this]
      · cases hd : d.sru.depletedFlag
        · simp [setSource, signal, hd] at he
        · exact hd
      · cases hd : d.sru.depletedFlag <;> simp [setSource, signal, hd, SourceState.inEpisode]

/-! ## Shedding -/

/-- A range of tiers downward from 7 with the next tiers below it is such a range, and tier 0 is in it only where it
was before. -/
theorem addTiers_range : ∀ n ≤ 8, ∀ m ≤ 7, ∃ k ≤ 8,
    addTiers (0xFF#8 <<< n) ((outside (0xFF#8 <<< n) shedOrder).take m) = 0xFF#8 <<< k ∧
      ((0xFF#8 <<< k).getLsbD 0 = true → (0xFF#8 <<< n).getLsbD 0 = true) := by
  decide

theorem postShed_sru (k : Nat) (l : List Nat) (d : Part) : (postShed k l d).sru = d.sru :=
  foldl_rel (R := fun d d' => d'.sru = d.sru) (fun _ => rfl) (fun h k => k.trans h) _
    (fun d _ => (post_settled _ _ _ d).sru) l d

theorem shedMoves_shedDecision (u p : Nat) (d : Part) : ShedMoves g d (shedDecision u p d) := by
  unfold shedDecision
  split
  · rename_i hdue
    have hsrc : d.sru.source = .onBattery ∨ d.sru.source = .returnPending := by
      simp [shedDue] at hdue
      exact hdue.1.1.1
    have he : d.sru.source.inEpisode = true := by
      rcases hsrc with h | h <;> rw [h] <;> rfl
    simp only
    have hsel := (selectTiers_selection (fun q => decide (goalOf d ≤ seconds u q)) 1 d.sru.battShed
      (tierLoad d) shedOrder p).taken
    generalize selectTiers _ _ _ _ _ _ = r at hsel ⊢
    obtain ⟨sel, left, met⟩ := r
    have grown : ShedMoves g d (postShed 0 sel { d with
        sru.battShed := addTiers d.sru.battShed sel }) := by
      refine .trans ?_ (.of_sru (postShed_sru _ _ _))
      refine ⟨fun ⟨⟨n, hn, hb⟩, hout, hcap, hzero, hflag⟩ => ?_, fun _ _ => ⟨he, fun k hk => ?_⟩⟩
      · have hlen : sel.length ≤ 7 := hsel.length_le.trans (List.length_filter_le _ _)
        obtain ⟨k, hk, heq, h0⟩ := addTiers_range n hn sel.length hlen
        rw [← hb, ← List.prefix_iff_eq_take.mp hsel] at heq
        exact ⟨⟨k, hk, heq⟩, fun hne => absurd (he.symm.trans hne) nofun, hcap,
          fun hz => hzero (hb ▸ h0 (heq ▸ hz)), hflag⟩
      · have hlt := BitVec.lt_of_getLsbD hk
        exact (addTiers_bit _ _ k hlt).trans (by rw [hk, Bool.true_or])
    refine .trans ?_ (shedMoves_deriveShed _)
    dsimp only
    split
    · exact (grown.trans (shedMoves_tuned {})).trans (shedMoves_post _ _ _ _)
    · exact grown
  · exact .of_sru rfl

theorem shedMoves_deplete (d : Part) (h : d.sru.source.inEpisode = true) : ShedMoves g d (deplete d) := by
  unfold deplete
  refine .trans (.trans ?_ (shedMoves_post _ _ _ _)) (shedMoves_examineAc _)
  refine .trans ?_ (shedMoves_deriveShed _)
  refine ⟨fun ⟨_, _, hcap, _, _⟩ => ⟨⟨0, by decide, rfl⟩, nofun, fun _ => hcap h, fun _ => .inl rfl,
    fun _ => rfl⟩, fun _ _ => ⟨rfl, fun k hk => ?_⟩⟩
  have hlt := BitVec.lt_of_getLsbD hk
  show (0xFF#8).getLsbD k = true
  interval_cases k <;> rfl

theorem shedMoves_powered : Powered (ShedMoves g) where
  trans := .trans
  tuned := shedMoves_tuned
  post := shedMoves_post
  recomputeCapacity := shedMoves_recomputeCapacity
  examineAc := shedMoves_examineAc
  qualify := shedMoves_qualify
  shedDecision := shedMoves_shedDecision
  deplete := shedMoves_deplete

theorem shedMoves_capacityExpiry (d : Part) : ShedMoves g d (capacityExpiry d) := by
  unfold capacityExpiry
  split
  · simp only
    split
    · exact .of_same rfl rfl rfl (.inl rfl)
    · rename_i hon
      have hs : d.sru.source = .onAc := by
        by_contra hne
        exact hon (.inl hne)
      have he : d.sru.source.inEpisode = false := by rw [hs]; rfl
      generalize selectTiers _ _ _ _ _ _ = r
      obtain ⟨sel, left, met⟩ := r
      have joined : ShedMoves g d (postShed 1 sel { d with
          sru.capTimer := .stopped, sru.capShed := addTiers d.sru.capShed sel }) := by
        refine .trans ?_ (.of_sru (postShed_sru _ _ _))
        exact ⟨fun ⟨hn, hout, _, hzero, hflag⟩ =>
          ⟨hn, hout, fun hne => absurd (he.symm.trans hne) nofun, hzero, hflag⟩,
          fun _ hne => absurd (he.symm.trans hne) nofun⟩
      refine .trans ?_ (shedMoves_deriveShed _)
      simp only
      split
      · exact (joined.trans (shedMoves_tuned {})).trans (shedMoves_post _ _ _ _)
      · exact joined
  · exact .of_sru rfl

/-- The expiry of the stable timer ends the episode with both shed sets empty (R84). -/
theorem shedMoves_stableExpiry (hg : ¬ g) (d : Part) : ShedMoves g d (stableExpiry d) := by
  unfold stableExpiry
  split
  · refine .trans (.trans ?_ (shedMoves_post _ _ _ _)) (shedMoves_post _ _ _ _)
    exact ⟨fun _ => shedSound_onAc (by rw [enterOnAc_sru]) (by rw [enterOnAc_sru]), fun h => absurd h hg⟩
  · exact .of_sru rfl

/-! ## Records, requests and commands -/

theorem shedMoves_heard : Heard (ShedMoves g) where
  trans := .trans
  unmoved h := .of_sru h.sru
  deriveModules := shedMoves_powered.deriveModules
  setFreshness n v d := .of_sru (setFreshness_kept n v d).sru
  examineZone z d := .of_sru (examineZone_leaked z d).sru

theorem shedMoves_applyRecord (t : TableId) (n : Nat) (ws : List Word) (d : Part) :
    ShedMoves g d (applyRecord t n ws d).1 := by
  cases t with
  | slotMap => exact shedMoves_heard.writeSlot n ws d
  | limit => exact shedMoves_heard.writeLimit n ws d
  | rectifier => exact shedMoves_powered.writeRect n ws d
  | battery => exact shedMoves_powered.writeBatt n ws d
  | branch =>
    show ShedMoves g d (writeBranch n ws d).1
    have h := writeBranch_cases n ws d
    generalize (writeBranch n ws d).1 = d' at h ⊢
    cases h with
    | none => exact .of_sru rfl
    | emptied => exact .of_sru (signalOnce_settled _ _).sru
    | added => exact .of_sru rfl
    | rewritten x c hx hc =>
      refine .of_sru ((rewriteBranch_after hx hc).sru.trans ?_)
      unfold forgetMoved
      split <;> rfl
  | sequence =>
    show ShedMoves g d (writeStep n ws d).1
    unfold writeStep
    split
    · exact .of_sru rfl
    · split <;> exact .of_sru rfl
  | leakPoint => exact shedMoves_heard.writePoint n ws d
  | leakZone =>
    show ShedMoves g d (writeZone n ws d).1
    rcases writeZone_cases n ws d with h | ⟨e, -, -, h⟩ <;> rw [h]
    · exact .of_sru rfl
    · exact .of_sru ((examineLine_leaked _).sru.trans (examineZone_leaked _ _).sru)
  | profile =>
    exact shedMoves_powered.writeProfile (fun d => .of_sru (examineLine_leaked d).sru) ws d

theorem shedMoves_protect (v : Bool) (table : Word) (banks : List Word) (d : Part) :
    ShedMoves g d (doProtect v table banks d).1 := by
  rcases doProtect_part v table banks d with e | ⟨-, _, e⟩ <;> rw [e] <;> exact .of_sru rfl

theorem shedMoves_carried : Carried (ShedMoves g) fun _ => True where
  toHeard := shedMoves_heard
  tick _ := .of_same rfl rfl rfl (.inl rfl)
  powerReading n v c d := .of_sru (powerReading_kept n v c d).sru
  switchReading b c d := .of_sru (switchReading_kept b c d).sru
  tripNode n d := .of_sru (tripNode_kept n d).sru
  attempt d := .of_sru (attempt_settled d).sru
  examine d := .of_sru (examine_settled d).sru
  setCauses c d := .of_sru (setCauses_settled c d).sru
  outcomeToBcu b n o d := .of_sru (outcomeToBcu_settled b n o d).sru
  applyRecord := shedMoves_applyRecord
  branchAction b a d := .of_sru (changeBranch_kept b (Machine.branchAction a) (fun _ => rfl) d).sru
  branchClear b d := .of_sru (branchClear_kept b d).sru
  startRun _ d _ := .of_sru (startRun_settled d).sru
  abortRun d _ := .of_sru (abortRun_settled d).sru
  leakAck z d := .of_sru (leakAck_leaked z d).sru
  leakClear w _ d := .of_sru (leakClear_leaked w.toNat d).sru
  protect t b _ d := shedMoves_protect true t b d
  unprotect t b _ d := shedMoves_protect false t b d
  freeze _ := .of_sru rfl

/-- The events of the inner blocks move the shed sets, and all but the expiry of the stable timer leave an episode
going on. -/
theorem shedMoves_inner {c : Instr} (hc : innerEvent c = true) (hg : g → c ≠ .stableTimerExpiry)
    (d : Part) : ShedMoves g d (effect c d) := by
  cases c
  case acfailInChange => exact shedMoves_examineAc d
  case leakInChange => exact .of_sru (examineLine_leaked d).sru
  case admitTimerExpiry => exact .of_sru (branchExpiry_settled _ _ _ d).sru
  case stopTimerExpiry => exact .of_sru (branchExpiry_settled _ _ _ d).sru
  case spacingTimerExpiry => exact .of_sru (spacingExpiry_settled d).sru
  case qualificationTimerExpiry => exact shedMoves_powered.qualificationExpiry d
  case stableTimerExpiry => exact shedMoves_stableExpiry (fun h => hg h rfl) d
  case capacityPersistenceExpiry => exact shedMoves_capacityExpiry d
  case evaluation => exact shedMoves_powered.evaluationExpiry d
  case stepTimerExpiry => exact .of_sru (stepExpiry_settled d).sru
  all_goals cases hc

end

/-- In SOURCE_UNKNOWN with both shed sets empty the shed sets are sound. -/
theorem shedSound_unknown {d : Part} (hs : d.sru.source = .unknown) (hb : d.sru.battShed = 0) :
    d.shedSound := by
  refine ⟨⟨8, le_refl _, hb.trans (by decide)⟩, fun _ => hb, fun he => ?_, fun h0 => ?_, fun he => ?_⟩
  · rw [hs] at he
    cases he
  · rw [hb] at h0
    cases h0
  · rw [hs] at he
    cases he

/-- A command moves the shed sets, or is a reset, after which the part is in SOURCE_UNKNOWN without a shed tier. -/
theorem exec_shed {g : Prop} {c : Instr} {s t : State} (hg : g → c ≠ .stableTimerExpiry)
    (h : exec c s = .next t) :
    ShedMoves g s.part t.part ∨ t.part.sru.source = .unknown ∧ t.part.sru.battShed = 0 := by
  by_cases hp : c = .powerOnReset
  · subst hp
    rw [exec_powerOnReset h]
    exact .inr ⟨rfl, rfl⟩
  · rcases shedMoves_carried.exec_or_reset hp (fun hi => shedMoves_inner hi hg) (fun _ _ => trivial) h
      with hm | ⟨d, -, ht⟩
    · exact .inl hm
    · rw [ht, complete_softReset_sru]
      exact .inr ⟨rfl, rfl⟩

/-- Settles O58: every command moves the shed sets, or is a reset that empties them. -/
theorem stepKeepsShedSets : Obligations.StepKeepsShedSets := by
  refine ⟨fun s t => step_keeps fun c s t hs h => ?_, fun s t c rest hc he hne h => ?_⟩
  · rcases exec_shed (g := False) False.elim h with hm | ⟨hu, hb⟩
    · exact hm.sound hs
    · exact shedSound_unknown hu hb
  · rcases exec_shed (g := True) (fun _ => hne) (step_front hc h) with hm | ⟨hu, -⟩
    · exact .inr (hm.grows trivial he)
    · exact .inl hu

end Sys2Proof.Machine

/-! PROOFS. What a change of every branch makes of a view of the branches, and the LEAK hold with the zone latches:
LEAK stands on exactly the branches of the ISOLATED zones (R50, R144), and a latch ends by LEAK CLEAR (R143). -/

namespace Sys2Proof.Machine

-- One proof after another: proofs that are checked side by side take a thread each.
set_option Elab.async false

/-! ## Views of the branches -/

/-- The view of a branch after a change of one branch. -/
theorem changeBranch_view {α : Type} (g : BranchCfg × Holds × Bool × Option Nat × Bool → α) (b : Nat)
    (f : Branch → Branch) (d : Part) (n : Nat) :
    ((changeBranch b f d).branch n).map (g ∘ Branch.settledView) =
      (d.branch n).map fun x => g (if n = b then f x else x).settledView := by
  unfold changeBranch
  split
  · rename_i hb
    by_cases hn : n = b
    · subst hn
      rw [hb]
      rfl
    · simp only [if_neg hn]
      rfl
  · rename_i x hx
    have hv : ((applyOutput b x (f x) d).branch n).map (g ∘ Branch.settledView) =
        ((putBranch b (f x) d).branch n).map (g ∘ Branch.settledView) := by
      by_cases hxy : x = f x
      · have hp : putBranch b (f x) d = d := by
          obtain ⟨hlt, he⟩ : ∃ h : b < d.bcu.branches.length, d.bcu.branches[b] = some x := by
            have := hx
            unfold Part.branch entry at this
            rcases he : d.bcu.branches[b]? with _ | e
            · rw [he] at this
              cases this
            · rw [he] at this
              obtain ⟨hlt, h⟩ := List.getElem?_eq_some_iff.mp he
              exact ⟨hlt, h.trans this⟩
          unfold putBranch
          rw [← hxy, ← he, List.set_getElem_self]
        unfold applyOutput
        rw [if_pos hxy, hp]
      · have hs := (applyOutput_after b x (f x) d hx hxy).branch_view n
        have := congrArg (Option.map g) hs
        simpa only [Option.map_map] using this
    rw [hv]
    by_cases hn : n = b
    · subst hn
      rw [putBranch_branch n x (f x) d hx, hx]
      simp
    · rw [putBranch_other b n (f x) d hn]
      simp only [if_neg hn]
      rfl

theorem forBranches_kept_below (f : Nat → Part → Part) (hf : ∀ b d, Kept d (f b d)) (m : Nat) (d : Part) :
    Kept d ((List.range m).foldl (fun d b => f b d) d) := foldl_kept _ (fun d b => hf b d) _ d

/-- The view of a branch after a change of every branch: the change `f` may read what no change of a branch
touches, and does to the view what `φ` says. -/
theorem forBranches_view {α : Type} (g : BranchCfg × Holds × Bool × Option Nat × Bool → α)
    (f : Part → Branch → Branch) (φ : α → α) (d : Part) (hcfg : ∀ e x, (f e x).cfg = x.cfg)
    (hφ : ∀ e x, Kept d e → g (f e x).settledView = φ (g x.settledView)) {n : Nat} (hn : n < 36) :
    ((forBranches (fun b e => changeBranch b (f e) e) d).branch n).map (g ∘ Branch.settledView) =
      (d.branch n).map fun x => φ (g x.settledView) := by
  have below (m : Nat) :
      (((List.range m).foldl (fun e b => changeBranch b (f e) e) d).branch n).map
        (g ∘ Branch.settledView) = (d.branch n).map fun x =>
          if n < m then φ (g x.settledView) else g x.settledView := by
    induction m with
    | zero => rfl
    | succ m ih =>
      rw [List.range_succ, List.foldl_append, List.foldl_cons, List.foldl_nil, changeBranch_view]
      have hk := forBranches_kept_below (fun b e => changeBranch b (f e) e)
        (fun b e => changeBranch_kept b _ (hcfg e) e) m d
      generalize (List.range m).foldl (fun e b => changeBranch b (f e) e) d = e at ih hk ⊢
      rcases hd : d.branch n with _ | y
      · rw [hd] at ih
        rw [Option.map_eq_none_iff.mp ih]
        rfl
      · rw [hd] at ih
        obtain ⟨x, hx, hxy⟩ := Option.map_eq_some_iff.mp ih
        rw [hx]
        simp only [Option.map_some, Function.comp_apply] at hxy ⊢
        by_cases he : n = m
        · subst he
          rw [if_neg (Nat.lt_irrefl n)] at hxy
          simp [hφ e x hk, hxy]
        · have hlt : n < m + 1 ↔ n < m := by omega
          simp only [if_neg he, hlt]
          rw [hxy]
  have h := below 36
  simp only [hn, if_true] at h
  exact h

/-- A view that is a function of another stands where the other stands. -/
theorem map_view {α β : Type} {u : Branch → α} (g : α → β) {l l' : List (Option Branch)}
    (h : l'.map (Option.map u) = l.map (Option.map u)) :
    l'.map (Option.map (g ∘ u)) = l.map (Option.map (g ∘ u)) := by
  have := congrArg (List.map (Option.map g)) h
  simpa only [List.map_map, Option.map_comp_map, Function.comp_def, Option.map_map] using this

/-- What an operation of the BCU leaves alone that changes no configured field, no hold, no CTRL demand and no
reading. -/
structure Viewed (d d' : Part) : Prop extends Kept d d' where
  views : d'.bcu.branches.map (Option.map Branch.settledView) =
    d.bcu.branches.map (Option.map Branch.settledView)

theorem Settled.toViewed {d d' : Part} (h : Settled d d') : Viewed d d' := ⟨h.toKept, h.views⟩

theorem Viewed.trans {a b c : Part} (h : Viewed a b) (g : Viewed b c) : Viewed a c :=
  ⟨h.toKept.trans g.toKept, g.views.trans h.views⟩

theorem Viewed.settled {a b c : Part} (h : Viewed a b) (g : Settled b c) : Viewed a c :=
  h.trans g.toViewed

theorem Viewed.put {b : Nat} {x y : Branch} {d : Part} (hx : d.branch b = some x)
    (hv : y.settledView = x.settledView) : Viewed d (putBranch b y d) :=
  ⟨putBranch_kept b x y d hx (congrArg Prod.fst hv), map_set_same _ _ _ x _ hx (by simp [hv])⟩

/-- A stored branch whose hand-off is due. -/
theorem Viewed.noted {b : Nat} {x y : Branch} {d : Part} (hx : d.branch b = some x)
    (hv : y.settledView = x.settledView) : Viewed d (signalOnce .branches (putBranch b y d)) :=
  (Viewed.put hx hv).settled (signalOnce_settled _ _)

theorem adopt_viewed (b : Nat) (x : Branch) (c : Int) (d : Part) (h : d.branch b = some x) :
    Viewed d (adopt b x c d) := by
  unfold adopt
  split
  · exact ((Viewed.noted h (by rfl)).settled (stageBranch_settled _ _ _)).settled (queueIfWanted_settled _ _)
  · split
    · exact (faultBranch_settled _ _ _).toViewed
    · have noted := Viewed.noted (y := { x with state := .on, demands := { x.demands with seq := true } })
        h rfl
      simp only
      split
      · refine noted.settled (stopBranch_settled _ _ ?_)
        apply not_faultedOut (x := { x with state := .on, demands := { x.demands with seq := true } })
        · unfold Part.branch
          rw [signalOnce_bcu]
          exact putBranch_branch b x _ d h
        · exact nofun
      · exact noted.settled (stageBranch_settled _ _ _)

theorem switchReading_viewed (b : Nat) (c : Int) (d : Part) : Viewed d (switchReading b c d) := by
  unfold switchReading
  split
  · exact (Settled.refl d).toViewed
  · rename_i x hx
    split
    · exact adopt_viewed b x c d hx
    all_goals repeat' split
    all_goals first
      | exact (Settled.refl d).toViewed
      | exact (faultBranch_settled _ _ _).toViewed
      | exact .noted hx rfl
      | exact (Viewed.noted hx (by rfl)).settled (queueIfWanted_settled _ _)

/-! ## The zone field and the LEAK hold -/

/-- The zone field and the LEAK hold, of what the delivery of hand-offs leaves alone. -/
def leakPairOf (v : BranchCfg × Holds × Bool × Option Nat × Bool) : Option Nat × Bool :=
  (v.1.zone, v.2.1.leak)

/-- The zone field and the LEAK hold of a branch. -/
def Branch.leakPair : Branch → Option Nat × Bool := leakPairOf ∘ Branch.settledView

/-- The zone fields, the LEAK holds and the zones stand. -/
structure LeakStands (d d' : Part) : Prop where
  pairs : d'.bcu.branches.map (Option.map Branch.leakPair) =
    d.bcu.branches.map (Option.map Branch.leakPair)
  zones : d'.lkm.zones = d.lkm.zones

namespace LeakStands

theorem refl (d : Part) : LeakStands d d := ⟨rfl, rfl⟩

theorem trans {a b c : Part} (h : LeakStands a b) (g : LeakStands b c) : LeakStands a c :=
  ⟨g.pairs.trans h.pairs, g.zones.trans h.zones⟩

theorem of_bcu {d d' : Part} (hb : d'.bcu.branches = d.bcu.branches)
    (hz : d'.lkm.zones = d.lkm.zones) : LeakStands d d' := ⟨by rw [hb], hz⟩

theorem pair {d d' : Part} (h : LeakStands d d') (b : Nat) :
    (d'.branch b).map Branch.leakPair = (d.branch b).map Branch.leakPair := by
  unfold Part.branch
  rw [entry_map, entry_map, h.pairs]

end LeakStands

theorem Viewed.toLeakStands {d d' : Part} (h : Viewed d d') : LeakStands d d' :=
  ⟨views_of _ h.views, congrArg _ h.lkm⟩

theorem Settled.toLeakStands {d d' : Part} (h : Settled d d') : LeakStands d d' :=
  h.toViewed.toLeakStands

theorem Sourced.toLeakStands {d d' : Part} (h : Sourced d d') : LeakStands d d' :=
  ⟨map_view (u := Branch.sourceView) (fun v => (v.1.zone, v.2.1)) h.views, congrArg _ h.lkm⟩

theorem LeakStands.change {b : Nat} {f : Branch → Branch} (d : Part)
    (hc : ∀ x, (f x).cfg = x.cfg) (hl : ∀ x, (f x).holds.leak = x.holds.leak) :
    LeakStands d (changeBranch b f d) :=
  ⟨changeBranch_views _ b f (fun x => by simp [leakPairOf, Branch.settledView, hc, hl]) d,
    congrArg _ (changeBranch_kept b f hc d).lkm⟩

theorem LeakStands.put {b : Nat} {x y : Branch} {d : Part} (hx : d.branch b = some x)
    (hc : y.cfg = x.cfg) (hl : y.holds.leak = x.holds.leak) : LeakStands d (putBranch b y d) :=
  ⟨map_set_same _ _ _ x _ hx (by simp [Branch.leakPair, leakPairOf, Branch.settledView, hc, hl]), rfl⟩

theorem leakStands_tripNode (n : Nat) (d : Part) : LeakStands d (tripNode n d) :=
  foldl_rel LeakStands.refl LeakStands.trans _ (fun d b => .change d
    (fun x => by split <;> rfl) (fun x => by split <;> rfl)) _ d

theorem leakStands_setFreshness (n : Nat) (v : Bool) (d : Part) : LeakStands d (setFreshness n v d) := by
  unfold setFreshness
  repeat' split
  · exact .refl d
  · exact .refl d
  · rename_i hx
    exact .put hx rfl rfl

theorem leakStands_powerReading (n : Nat) (v : Int) (c : ChanClass) (d : Part) :
    LeakStands d (powerReading n v c d) := by
  unfold powerReading
  repeat' split
  · exact .refl d
  · exact .refl d
  · rename_i hx
    exact .put hx rfl rfl

theorem leakStands_branchClear (b : Nat) (d : Part) : LeakStands d (branchClear b d) := by
  unfold branchClear
  split
  · exact .refl d
  · rename_i x hx
    split
    · refine .trans ?_ (queueIfWanted_settled _ _).toLeakStands
      refine .trans ?_ ((noteLoad_settled _ _).trans (signalOnce_settled _ _)).toLeakStands
      exact .put hx rfl rfl
    · exact .change d (fun _ => rfl) (fun _ => rfl)

/-! ## The relation through the part -/

theorem leakStands_powered : Powered LeakStands where
  trans := .trans
  tuned h := .of_bcu (by rw [h.bcu]) (by rw [h.lkm])
  post k s v d := (post_settled k s v d).toLeakStands
  recomputeCapacity d := (recomputeCapacity_sourced d).toLeakStands
  examineAc d := (examineAc_sourced d).toLeakStands
  qualify d _ := (qualify_sourced d).toLeakStands
  shedDecision u p d := (shedDecision_sourced u p d).toLeakStands
  deplete d _ := (deplete_sourced d).toLeakStands

section
variable {R : Part → Part → Prop} (ht : ∀ {a b c}, R a b → R b c → R a c)
  (hr : ∀ {d d'}, LeakStands d d' → R d d')
  (hz : ∀ z d, R d (examineZone z d)) (hl : ∀ d, R d (examineLine d))
include ht hr hz hl

/-- A relation that every operation keeps which leaves the LEAK holds and the zones is carried through the part,
where it holds of what the LKM does and of a Branch Table and a Leak Zone Table record. -/
theorem carried_of_leak {ok : Request → Prop}
    (hb : ∀ n ws d, R d (writeBranch n ws d).1)
    (hc : ∀ z e d, (d.zone z).state = .clear → R d (examineLine (examineZone z (putZone z
      { d.zone z with cfg := e, degraded := e.isSome && (d.zone z).degraded } d))))
    (ha : ∀ z d, R d (leakAck z d).1)
    (hk : ∀ w, ok (.leakClear w) → ∀ d, R d (leakClear w.toNat d).1) : Carried R ok where
  trans := ht
  unmoved u := hr (.of_bcu (by rw [u.bcu]) u.zones)
  deriveModules d := hr (deriveModules_sourced d).toLeakStands
  setFreshness n v d := hr (leakStands_setFreshness n v d)
  examineZone := hz
  tick d := hr ⟨by
    show (d.bcu.branches.map tickBranch).map _ = _
    rw [List.map_map]
    refine List.map_congr_left fun x _ => ?_
    cases x <;> rfl, rfl⟩
  powerReading n v c d := hr (leakStands_powerReading n v c d)
  switchReading b c d := hr (switchReading_viewed b c d).toLeakStands
  tripNode n d := hr (leakStands_tripNode n d)
  attempt d := hr (attempt_settled d).toLeakStands
  examine d := hr (examine_settled d).toLeakStands
  setCauses c d := hr (setCauses_settled c d).toLeakStands
  outcomeToBcu b n o d := hr (outcomeToBcu_settled b n o d).toLeakStands
  applyRecord t n ws d := by
    have heard : Heard R := ⟨ht, fun u => hr (.of_bcu (by rw [u.bcu]) u.zones),
      fun d => hr (deriveModules_sourced d).toLeakStands,
      fun n v d => hr (leakStands_setFreshness n v d), hz⟩
    cases t with
    | slotMap => exact heard.writeSlot n ws d
    | limit => exact heard.writeLimit n ws d
    | rectifier => exact hr (leakStands_powered.writeRect n ws d)
    | battery => exact hr (leakStands_powered.writeBatt n ws d)
    | branch => exact hb n ws d
    | sequence =>
      show R d (writeStep n ws d).1
      unfold writeStep
      split
      · exact hr (.refl d)
      · split <;> exact hr (.of_bcu rfl rfl)
    | leakPoint => exact heard.writePoint n ws d
    | leakZone =>
      show R d (writeZone n ws d).1
      rcases writeZone_cases n ws d with h | ⟨e, hs, -, h⟩ <;> rw [h]
      · exact hr (.refl d)
      · exact hc n e d hs
    | profile =>
      have P : Powered R := ⟨ht, fun h => hr (leakStands_powered.tuned h),
        fun k s v d => hr (leakStands_powered.post k s v d),
        fun d => hr (leakStands_powered.recomputeCapacity d),
        fun d => hr (leakStands_powered.examineAc d), fun d h => hr (leakStands_powered.qualify d h),
        fun u p d => hr (leakStands_powered.shedDecision u p d),
        fun d h => hr (leakStands_powered.deplete d h)⟩
      exact P.writeProfile hl ws d
  branchAction b a d := hr (.change d (fun _ => rfl) (fun _ => rfl))
  branchClear b d := hr (leakStands_branchClear b d)
  startRun _ d _ := hr (startRun_settled d).toLeakStands
  abortRun d _ := hr (abortRun_settled d).toLeakStands
  leakAck := ha
  leakClear := hk
  protect t b _ d := by
    rcases doProtect_part true t b d with e | ⟨-, _, e⟩ <;> rw [e] <;> exact hr (.of_bcu rfl rfl)
  unprotect t b _ d := by
    rcases doProtect_part false t b d with e | ⟨-, _, e⟩ <;> rw [e] <;> exact hr (.of_bcu rfl rfl)
  freeze _ := hr (.of_bcu rfl rfl)

omit ht hz in
theorem innerEvent_of_leak {c : Instr} (hc : innerEvent c = true) (d : Part) : R d (effect c d) := by
  cases c
  case acfailInChange => exact hr (examineAc_sourced d).toLeakStands
  case leakInChange => exact hl d
  case admitTimerExpiry => exact hr (branchExpiry_settled _ _ _ d).toLeakStands
  case stopTimerExpiry => exact hr (branchExpiry_settled _ _ _ d).toLeakStands
  case spacingTimerExpiry => exact hr (spacingExpiry_settled d).toLeakStands
  case qualificationTimerExpiry => exact hr (qualificationExpiry_sourced d).toLeakStands
  case stableTimerExpiry => exact hr (stableExpiry_sourced d).toLeakStands
  case capacityPersistenceExpiry => exact hr (capacityExpiry_sourced d).toLeakStands
  case evaluation => exact hr (evaluationExpiry_sourced d).toLeakStands
  case stepTimerExpiry => exact hr (stepExpiry_settled d).toLeakStands
  all_goals cases hc

end

end Sys2Proof.Machine

/-! PROOFS. The LEAK hold and the zone latches through the LKM: LEAK stands on exactly the branches of the ISOLATED
zones (R50, R144), and a latch ends by LEAK CLEAR of its zone or a power-on reset (R143, R148). -/

namespace Sys2Proof.Machine

-- One proof after another: proofs that are checked side by side take a thread each.
set_option Elab.async false

/-! ## Zones -/

theorem zone_putZone (z n : Nat) (x : Zone) (d : Part) (hn : n ≠ z) :
    (putZone z x d).zone n = d.zone n := by
  unfold Part.zone putZone
  rw [List.getElem?_set_ne (Ne.symm hn)]

theorem zone_putZone_same (z : Nat) (x : Zone) (d : Part) (hz : z < d.lkm.zones.length) :
    (putZone z x d).zone z = x := by
  simp [Part.zone, putZone, hz]

/-- A zone outside the table is an empty entry in CLEAR. -/
theorem zone_beyond {z : Nat} {d : Part} (h : d.lkm.zones.length ≤ z) :
    d.zone z = ⟨none, .clear, false, false⟩ := by
  unfold Part.zone
  rw [List.getElem?_eq_none h]
  rfl

theorem lt_of_zone_cfg {z : Nat} {d : Part} {c : ZoneCfg} (h : (d.zone z).cfg = some c) :
    z < d.lkm.zones.length := by
  by_contra hz
  rw [zone_beyond (Nat.le_of_not_lt hz)] at h
  cases h

theorem zone_of_zones {d d' : Part} (h : d'.lkm.zones = d.lkm.zones) (z : Nat) : d'.zone z = d.zone z := by
  unfold Part.zone
  rw [h]

theorem handLatch_zones (f : Part → Part) (hf : ∀ d, (f d).lkm = d.lkm) (d : Part) :
    (handLatch f d).lkm.zones = d.lkm.zones := by
  have hs (e : Part) : (examineLeakCause e).lkm = e.lkm := (setCauses_settled _ e).lkm
  unfold handLatch
  repeat' split
  · rw [signal_lkm, hf]
  · rw [hf, hs]
  · rw [hf, hs]

/-! ## LEAK on the branches of the ISOLATED zones -/

/-- The LEAK hold of every branch but those of zone `z`, if one is named, is what R50 gives it. -/
def leakSoundBut (z : Option Nat) (d : Part) : Prop :=
  d.bcu.branches.length = 36 ∧ ∀ b p, (d.branch b).map Branch.leakPair = some p →
    (z.isSome = true → p.1 ≠ z) → p.2 = leakHold d p.1

theorem leakHold_iff (d : Part) (f : Option Nat) : leakHold d f = true ↔
    ∃ z c, f = some z ∧ (d.zone z).cfg = some c ∧ (d.zone z).state = .isolated := by
  unfold leakHold
  cases f with
  | none => simp
  | some z => simp [Option.isSome_iff_exists]

theorem isolationSound_iff (d : Part) : d.isolationSound ↔ leakSoundBut none d := by
  unfold Part.isolationSound leakSoundBut
  refine and_congr_right fun _ => ⟨fun h b p hp _ => ?_, fun h b x hx => ?_⟩
  · obtain ⟨x, hx, rfl⟩ := Option.map_eq_some_iff.mp hp
    exact Bool.eq_iff_iff.mpr ((h b x hx).trans (leakHold_iff d x.cfg.zone).symm)
  · have := h b x.leakPair (by rw [hx]; rfl) nofun
    exact (Bool.eq_iff_iff.mp this).trans (leakHold_iff d x.cfg.zone)

theorem leakHold_of_zones {d d' : Part} (h : d'.lkm.zones = d.lkm.zones) (f : Option Nat) :
    leakHold d' f = leakHold d f := by
  unfold leakHold
  cases f with
  | none => rfl
  | some z => simp only [zone_of_zones h]

theorem LeakStands.sound {z : Option Nat} {d d' : Part} (h : LeakStands d d')
    (hd : leakSoundBut z d) : leakSoundBut z d' := by
  refine ⟨?_, fun b p hp hz => ?_⟩
  · have := congrArg List.length h.pairs
    simpa [hd.1] using this
  · rw [h.pair b] at hp
    rw [hd.2 b p hp hz, leakHold_of_zones h.zones]

/-- Changing zone `z` leaves the LEAK hold of every other branch as R50 gives it. -/
theorem putZone_soundBut {z : Nat} {x : Zone} {d : Part} (h : leakSoundBut none d) :
    leakSoundBut (some z) (putZone z x d) := by
  refine ⟨h.1, fun b p hp hz => ?_⟩
  refine (h.2 b p hp nofun).trans ?_
  have hne : p.1 ≠ some z := hz rfl
  unfold leakHold
  rcases hp1 : p.1 with _ | n
  · rfl
  · simp only [zone_putZone z n x d fun he => hne (by rw [hp1, he])]

/-- A change of a zone that keeps its entry's validity and whether it is ISOLATED keeps every LEAK hold. -/
theorem putZone_sound {z : Nat} {x : Zone} {d : Part} (hc : x.cfg.isSome = (d.zone z).cfg.isSome ∨
    (d.zone z).state ≠ .isolated) (hs : x.state = .isolated ↔ (d.zone z).state = .isolated)
    (h : leakSoundBut none d) : leakSoundBut none (putZone z x d) := by
  refine ⟨h.1, fun b p hp _ => (h.2 b p hp nofun).trans ?_⟩
  unfold leakHold
  rcases p.1 with _ | n
  · rfl
  · by_cases hn : n = z
    · subst hn
      by_cases hlt : n < d.lkm.zones.length
      · simp only [zone_putZone_same n x d hlt]
        rw [Bool.eq_iff_iff]
        simp only [Bool.and_eq_true, beq_iff_eq, hs]
        rcases hc with hc | hc
        · rw [hc]
        · simp [hc]
      · have hge := Nat.le_of_not_lt hlt
        simp only [zone_beyond hge, zone_beyond (d := putZone n x d) (by simpa [putZone] using hge)]
    · simp only [zone_putZone z n x d hn]

/-- The view of the zone field and the LEAK hold once LEAK is derived for the branches of zone `z`. -/
def derivedPair (d : Part) (z : Nat) (v : Option Nat × Bool) : Option Nat × Bool :=
  if v.1 = some z then (v.1, leakHold d v.1) else v

/-- A change of every branch that gives those of zone `z` the LEAK hold of R50, and changes no other. -/
theorem forBranches_leak_sound {z : Nat} {d : Part} {f : Part → Branch → Branch}
    (hcfg : ∀ e x, (f e x).cfg = x.cfg)
    (hf : ∀ e x, Kept d e → (f e x).leakPair = derivedPair d z x.leakPair)
    (h : leakSoundBut (some z) d) :
    leakSoundBut none (forBranches (fun b e => changeBranch b (f e) e) d) := by
  have hk := forBranches_kept (fun b e => changeBranch b (f e) e)
    (fun b e => changeBranch_kept b _ (hcfg e) e) d
  have hlen : (forBranches (fun b e => changeBranch b (f e) e) d).bcu.branches.length = 36 := by
    have := congrArg List.length hk.cfgs
    simpa [h.1] using this
  refine ⟨hlen, fun b p hp _ => ?_⟩
  have hb : b < 36 := by
    by_contra hb
    unfold Part.branch entry at hp
    rw [List.getElem?_eq_none (by omega)] at hp
    cases hp
  have hv := forBranches_view leakPairOf f (derivedPair d z) d hcfg hf hb
  rw [leakHold_of_zones (congrArg Lkm.zones hk.lkm)]
  obtain ⟨x, hx, rfl⟩ := Option.map_eq_some_iff.mp (hv.symm.trans hp)
  unfold derivedPair
  by_cases hz : (leakPairOf x.settledView).1 = some z
  · simp only [hz, if_true]
  · simp only [hz, if_false]
    exact h.2 b _ (by rw [hx]; rfl) fun _ => hz

theorem deriveLeak_sound {z : Nat} {d : Part} (h : leakSoundBut (some z) d) :
    leakSoundBut none (deriveLeak z d) := by
  refine forBranches_leak_sound (f := fun e x => if x.cfg.zone = some z then
    { x with holds := { x.holds with leak := leakHold e x.cfg.zone } } else x)
    (fun e x => by split <;> rfl) (fun e x hk => ?_) h
  have he : leakHold e x.cfg.zone = leakHold d x.cfg.zone :=
    leakHold_of_zones (congrArg Lkm.zones hk.lkm) _
  by_cases hx : x.cfg.zone = some z
  · rw [hx] at he
    simp [derivedPair, Branch.leakPair, leakPairOf, Branch.settledView, hx, he]
  · simp [derivedPair, Branch.leakPair, leakPairOf, Branch.settledView, hx]

theorem clearZoneBranches_sound {z : Nat} {d : Part} (hc : leakHold d (some z) = false)
    (h : leakSoundBut (some z) d) : leakSoundBut none (clearZoneBranches z d) := by
  refine forBranches_leak_sound (f := fun _ x => if x.cfg.zone = some z then
    { x with
      holds := { x.holds with leak := false }
      demands := ⟨false, false⟩
      enrolling := none } else x)
    (fun e x => by split <;> rfl) (fun e x _ => ?_) h
  by_cases hx : x.cfg.zone = some z
  · simp [derivedPair, Branch.leakPair, leakPairOf, Branch.settledView, hx, hc]
  · simp [derivedPair, Branch.leakPair, leakPairOf, Branch.settledView, hx]

theorem examineLeakCause_stands (d : Part) : LeakStands d (examineLeakCause d) :=
  (examineLeakCause_settled d).toLeakStands

/-- The hand-over of a latch leaves the LEAK holds sound where what the BCU does with it makes them so. -/
theorem handLatch_sound {z : Option Nat} {f : Part → Part} {d : Part} (hs : leakSoundBut z d)
    (hf : ∀ e, LeakStands d e → leakSoundBut z e → leakSoundBut none (f e)) :
    leakSoundBut none (handLatch f d) := by
  have h1 : LeakStands d { d with lkm.handOffs := d.lkm.handOffs + 1 } := .of_bcu rfl rfl
  unfold handLatch
  split
  · simp only
    split
    · exact (signal_settled _ _).toLeakStands.sound (hf _ h1 (h1.sound hs))
    · have h2 := h1.trans (examineLeakCause_stands _)
      exact hf _ h2 (h2.sound hs)
  · exact hf _ (examineLeakCause_stands d) ((examineLeakCause_stands d).sound hs)

theorem post_stands (k : EventKind) (s v : Option Nat) (d : Part) : LeakStands d (post k s v d) :=
  (post_settled k s v d).toLeakStands

theorem confirmZone_sound (z : Nat) (c : ZoneCfg) (k n : Nat) {d : Part} (h : leakSoundBut none d) :
    leakSoundBut none (confirmZone z c k n d) := by
  unfold confirmZone
  simp only
  refine handLatch_sound (z := some z) ?_ fun e _ he => deriveLeak_sound he
  have put (x : Zone) : leakSoundBut (some z) (putZone z x d) := putZone_soundBut h
  split
  · exact (post_stands _ _ _ _).sound ((post_stands _ _ _ _).sound (put _))
  · exact (post_stands _ _ _ _).sound (put _)

theorem noteDegraded_sound (z : Nat) {d : Part} (h : leakSoundBut none d) :
    leakSoundBut none (noteDegraded z d) := by
  unfold noteDegraded
  simp only
  split
  · exact h
  · exact (post_stands _ _ _ _).sound (putZone_sound (.inl rfl) Iff.rfl h)

/-- DEGRADED alone changes in an examination's first part. -/
theorem noteDegraded_zone (z n : Nat) (d : Part) :
    (noteDegraded z d).zone n = d.zone n ∨
      n = z ∧ (noteDegraded z d).zone n = { d.zone n with degraded := decide (0 < faultCount z d) } := by
  unfold noteDegraded
  simp only
  split
  · exact .inl rfl
  · rw [zone_of_zones (post_stands _ _ _ _).zones]
    by_cases hn : n = z
    · subst hn
      by_cases hlt : n < d.lkm.zones.length
      · exact .inr ⟨rfl, zone_putZone_same n _ d hlt⟩
      · have hge := Nat.le_of_not_lt hlt
        exact .inl (by rw [zone_beyond hge, zone_beyond (by simpa [putZone] using hge)])
    · exact .inl (zone_putZone z n _ d hn)

theorem noteDegraded_zone_state (z n : Nat) (d : Part) :
    ((noteDegraded z d).zone n).state = (d.zone n).state := by
  rcases noteDegraded_zone z n d with h | ⟨-, h⟩ <;> rw [h]

theorem examineZone_sound (z : Nat) {d : Part} (h : leakSoundBut none d) :
    leakSoundBut none (examineZone z d) := by
  have hd := noteDegraded_sound z h
  have hst := noteDegraded_zone_state z z d
  unfold examineZone
  split
  · exact h
  · simp only
    split
    · rename_i hs
      split
      · exact confirmZone_sound _ _ _ _ hd
      · split
        · refine (post_stands _ _ _ _).sound (putZone_sound (.inl rfl) ?_ hd)
          simp [hst, hs]
        · exact hd
    · rename_i hs
      split
      · exact confirmZone_sound _ _ _ _ hd
      · split
        · refine (examineLeakCause_stands _).sound (putZone_sound (.inl rfl) ?_ hd)
          simp [hst, hs]
        · exact hd
    · exact hd

theorem examineLine_sound {d : Part} (h : leakSoundBut none d) : leakSoundBut none (examineLine d) := by
  unfold examineLine
  repeat' split
  all_goals first | exact h | exact confirmZone_sound _ _ _ _ h

theorem leakAck_sound (z : Nat) {d : Part} (h : leakSoundBut none d) : leakSoundBut none (leakAck z d).1 := by
  unfold leakAck
  split
  · split
    · exact h
    · exact (examineLeakCause_stands _).sound (putZone_sound (.inl rfl) Iff.rfl h)
  · exact h

theorem leakClear_sound (z : Nat) {d : Part} (h : leakSoundBut none d) :
    leakSoundBut none (leakClear z d).1 := by
  unfold leakClear
  split
  · exact h
  · exact h
  · exact h
  · rename_i hc _ _
    split
    · exact h
    · have hlt := lt_of_zone_cfg hc
      refine examineZone_sound z (handLatch_sound (z := some z) ?_ fun e he hs => ?_)
      · exact (post_stands _ _ _ _).sound (putZone_soundBut h)
      · refine clearZoneBranches_sound ?_ hs
        rw [leakHold_of_zones (he.zones.trans (post_stands _ _ _ _).zones)]
        simp [leakHold, zone_putZone_same z _ d hlt]

/-! ## A Branch Table record -/

theorem branch_set (n b : Nat) (e : Option Branch) (d : Part) (hn : n < d.bcu.branches.length) :
    ({ d with bcu.branches := d.bcu.branches.set n e } : Part).branch b =
      if b = n then e else d.branch b := by
  unfold Part.branch entry
  by_cases hb : b = n
  · subst hb
    simp [hn]
  · simp [List.getElem?_set_ne (Ne.symm hb), hb]

theorem set_sound {n : Nat} {e : Option Branch} {d : Part}
    (he : ∀ x, e = some x → x.holds.leak = leakHold d x.cfg.zone) (h : leakSoundBut none d) :
    leakSoundBut none { d with bcu.branches := d.bcu.branches.set n e } := by
  refine ⟨by simpa using h.1, fun b p hp _ => ?_⟩
  by_cases hn : n < d.bcu.branches.length
  · rw [branch_set n b e d hn] at hp
    by_cases hb : b = n
    · rw [if_pos hb] at hp
      obtain ⟨x, hx, rfl⟩ := Option.map_eq_some_iff.mp hp
      exact he x hx
    · rw [if_neg hb] at hp
      exact h.2 b p hp nofun
  · rw [List.set_eq_of_length_le (Nat.le_of_not_lt hn)] at hp
    exact h.2 b p hp nofun

theorem forgetStages_stands (n : Nat) (d : Part) : LeakStands d (forgetStages n d) := .of_bcu rfl rfl

theorem forgetMoved_stands (n : Nat) (x : Branch) (c : BranchCfg) (d : Part) :
    LeakStands d (forgetMoved n x c d) := by
  unfold forgetMoved
  split
  · exact .refl d
  · exact forgetStages_stands n d

theorem rewritten_leak (d : Part) (x : Branch) (c : BranchCfg) :
    (x.rewritten d c).holds.leak = leakHold d (x.rewritten d c).cfg.zone := by
  unfold Branch.rewritten
  simp only
  split <;> rfl

theorem writeBranch_sound (n : Nat) (ws : List Word) {d : Part} (h : leakSoundBut none d) :
    leakSoundBut none (writeBranch n ws d).1 := by
  have hw := writeBranch_cases n ws d
  generalize (writeBranch n ws d).1 = d' at hw ⊢
  cases hw with
  | none => exact h
  | emptied x hx _ =>
    have hset := set_sound (n := n) (e := none) (d := d) (fun _ hx => by cases hx) h
    generalize ({ d with bcu.branches := d.bcu.branches.set n none } : Part) = e at hset ⊢
    exact (signalOnce_settled _ _).toLeakStands.sound ((forgetStages_stands n e).sound hset)
  | added c _ => exact set_sound (fun x hx => by cases hx; rfl) h
  | rewritten x c hx hc =>
    refine (rewriteBranch_after hx hc).toLeakStands.sound ?_
    have hf := forgetMoved_stands n x c d
    refine set_sound (fun y hy => ?_) (hf.sound h)
    cases hy
    rw [leakHold_of_zones hf.zones]
    exact rewritten_leak d x c

/-! ## Every command -/

/-- LEAK stays on exactly the branches of the ISOLATED zones. -/
def LeakKept (d d' : Part) : Prop := leakSoundBut none d → leakSoundBut none d'

theorem carried_leakKept : Carried LeakKept fun _ => True :=
  carried_of_leak (R := LeakKept) (fun h g => g ∘ h) LeakStands.sound (fun z _ => examineZone_sound z)
    (fun _ => examineLine_sound) (fun n ws _ => writeBranch_sound n ws)
    (fun z e d hs h => examineLine_sound (examineZone_sound z (putZone_sound (.inr (by rw [hs]; nofun))
      Iff.rfl h)))
    (fun z _ => leakAck_sound z) (fun w _ _ => leakClear_sound w.toNat)

/-- A kept branch begins with the LEAK hold of the kept latches (R71). -/
theorem resetBase_sound (d : Part) (h : d.bcu.branches.length = 36) : leakSoundBut none (resetBase d) := by
  refine ⟨by simp [resetBase, ruleTable, h], fun b p hp _ => ?_⟩
  obtain ⟨x, hx, rfl⟩ := Option.map_eq_some_iff.mp hp
  unfold Part.branch at hx
  have he := entry_map (resetBranch (resetBlocks d)) (ruleTable d .branch d.bcu.branches) b
  rw [show entry (resetBase d).bcu.branches b = _ from he.symm] at hx
  obtain ⟨y, -, rfl⟩ := Option.map_eq_some_iff.mp hx
  rfl

theorem exec_leakSound {c : Instr} {s t : State} (h : exec c s = .next t)
    (hs : leakSoundBut none s.part) : leakSoundBut none t.part := by
  by_cases hp : c = .powerOnReset
  · subst hp
    rw [exec_powerOnReset h]
    refine ⟨rfl, fun b p hb _ => ?_⟩
    have hn : entry (List.replicate 36 (none : Option Branch)) b = none := entry_replicate_none 36 b
    obtain ⟨x, hx, -⟩ := Option.map_eq_some_iff.mp hb
    exact absurd (hn.symm.trans hx) nofun
  · refine carried_leakKept.exec hp
      (fun hi d => innerEvent_of_leak LeakStands.sound (fun _ => examineLine_sound) hi d)
      (fun d hd => ?_) (fun _ _ => trivial) h hs
    rw [softReset_eq]
    exact examineLine_sound (resetBase_sound d hd.1)

/-! ## A latch -/

/-- Zone `z`, once it is CONFIRMED or ISOLATED, keeps its entry and its state, and its acknowledgement stays. -/
def LatchKept (z : Nat) (d d' : Part) : Prop :=
  (d.zone z).state.latched = true → (d'.zone z).cfg = (d.zone z).cfg ∧
    (d'.zone z).state = (d.zone z).state ∧ ((d.zone z).acked = true → (d'.zone z).acked = true)

namespace LatchKept
variable {z : Nat}

theorem trans {a b c : Part} (h : LatchKept z a b) (g : LatchKept z b c) : LatchKept z a c := fun hl =>
  have ⟨hc, hs, ha⟩ := h hl
  have ⟨gc, gs, ga⟩ := g (hs ▸ hl)
  ⟨gc.trans hc, gs.trans hs, ga ∘ ha⟩

theorem of_zones {d d' : Part} (h : d'.lkm.zones = d.lkm.zones) : LatchKept z d d' := fun _ => by
  rw [zone_of_zones h]
  exact ⟨rfl, rfl, id⟩

theorem of_stands {d d' : Part} (h : LeakStands d d') : LatchKept z d d' := .of_zones h.zones

/-- A zone stored whose latch stands, or that is another zone, or that is not latched. -/
theorem put {n : Nat} {x : Zone} {d : Part} (h : z = n → (d.zone z).state.latched = true →
    x.cfg = (d.zone z).cfg ∧ x.state = (d.zone z).state ∧ ((d.zone z).acked = true → x.acked = true)) :
    LatchKept z d (putZone n x d) := fun hl => by
  by_cases hn : z = n
  · subst hn
    have hlt : z < d.lkm.zones.length := by
      by_contra hge
      rw [zone_beyond (Nat.le_of_not_lt hge)] at hl
      cases hl
    rw [zone_putZone_same z x d hlt]
    exact h rfl hl
  · rw [zone_putZone n z x d hn]
    exact ⟨rfl, rfl, id⟩

theorem post (k : EventKind) (s v : Option Nat) (d : Part) : LatchKept z d (post k s v d) :=
  .of_stands (post_stands k s v d)

theorem confirmZone (n : Nat) (c : ZoneCfg) (k w : Nat) (d : Part)
    (h : (d.zone n).state.latched = false) : LatchKept z d (confirmZone n c k w d) := by
  have first (x : Zone) : LatchKept z d (putZone n x d) :=
    .put fun he hl => by rw [he, h] at hl; cases hl
  unfold Machine.confirmZone
  simp only
  refine LatchKept.trans ?_ (.of_zones (handLatch_zones _ (fun e => (deriveLeak_kept n e).lkm) _))
  split
  · exact ((first _).trans (.post _ _ _ _)).trans (.post _ _ _ _)
  · exact (first _).trans (.post _ _ _ _)

theorem noteDegraded (n : Nat) (d : Part) : LatchKept z d (noteDegraded n d) := fun _ => by
  rcases noteDegraded_zone n z d with h | ⟨-, h⟩ <;> rw [h] <;> exact ⟨rfl, rfl, id⟩

theorem examineZone (n : Nat) (d : Part) : LatchKept z d (examineZone n d) := by
  have hn := LatchKept.noteDegraded (z := z) n d
  have hst := noteDegraded_zone_state n n d
  have open' (x : Zone) (h : (d.zone n).state.latched = false) :
      LatchKept z (Machine.noteDegraded n d) (putZone n x (Machine.noteDegraded n d)) :=
    .put fun he hl => by rw [he, hst, h] at hl; cases hl
  unfold Machine.examineZone
  split
  · exact .of_zones rfl
  · simp only
    split
    · rename_i hs
      have hl : (d.zone n).state.latched = false := by rw [hs]; rfl
      split
      · exact hn.trans (.confirmZone _ _ _ _ _ (by rw [hst, hl]))
      · split
        · exact (hn.trans (open' _ hl)).trans (.post _ _ _ _)
        · exact hn
    · rename_i hs
      have hl : (d.zone n).state.latched = false := by rw [hs]; rfl
      split
      · exact hn.trans (.confirmZone _ _ _ _ _ (by rw [hst, hl]))
      · split
        · exact (hn.trans (open' _ hl)).trans (.of_stands (examineLeakCause_stands _))
        · exact hn
    · exact hn

theorem examineLine (d : Part) : LatchKept z d (examineLine d) := by
  unfold Machine.examineLine
  split
  · split
    · exact .confirmZone _ _ _ _ _ (by simp [*, ZoneState.latched])
    · exact .confirmZone _ _ _ _ _ (by simp [*, ZoneState.latched])
    · exact .of_zones rfl
  · exact .of_zones rfl

theorem leakAck (n : Nat) (d : Part) : LatchKept z d (leakAck n d).1 := by
  unfold Machine.leakAck
  split
  · split
    · exact .of_zones rfl
    · exact LatchKept.trans (.put fun he _ => by rw [he]; exact ⟨rfl, rfl, fun _ => rfl⟩)
        (.of_stands (examineLeakCause_stands _))
  · exact .of_zones rfl

/-- LEAK CLEAR of another zone leaves the latch (R147). -/
theorem leakClear {n : Nat} (h : n ≠ z) (d : Part) : LatchKept z d (leakClear n d).1 := by
  unfold Machine.leakClear
  split
  · exact .of_zones rfl
  · exact .of_zones rfl
  · exact .of_zones rfl
  · split
    · exact .of_zones rfl
    · refine LatchKept.trans ?_ (.examineZone n _)
      refine LatchKept.trans ?_
        (.of_zones (handLatch_zones _ (fun e => (clearZoneBranches_kept n e).lkm) _))
      exact LatchKept.trans (.put fun he => absurd he.symm h) (.post _ _ _ _)

theorem writeBranch (n : Nat) (ws : List Word) (d : Part) : LatchKept z d (writeBranch n ws d).1 := by
  have hw := writeBranch_cases n ws d
  generalize (Machine.writeBranch n ws d).1 = d' at hw ⊢
  cases hw with
  | none => exact .of_zones rfl
  | emptied => exact .of_zones (congrArg Lkm.zones (signalOnce_settled _ _).lkm)
  | added => exact .of_zones rfl
  | rewritten x c hx hc =>
    exact .of_zones ((congrArg Lkm.zones (rewriteBranch_after hx hc).lkm).trans
      (forgetMoved_stands n x c d).zones)

/-- A soft reset keeps a latch with its acknowledgement (R152). -/
theorem softReset (d : Part) : LatchKept z d (softReset d) := by
  rw [softReset_eq]
  refine LatchKept.trans (fun hl => ?_) (.examineLine _)
  have hz : (resetBase d).zone z = resetZone d z (d.zone z) := by
    unfold Part.zone
    rw [show (resetBase d).lkm.zones[z]? = _ from List.getElem?_mapIdx]
    rcases hx : d.lkm.zones[z]? with _ | x
    · unfold Part.zone at hl
      rw [hx] at hl
      cases hl
    · rfl
  rw [hz]
  unfold resetZone
  rw [if_pos hl]
  exact ⟨rfl, rfl, id⟩

end LatchKept

theorem carried_latchKept (z : Nat) :
    Carried (LatchKept z) fun q => ∀ w, q = .leakClear w → w.toNat ≠ z :=
  carried_of_leak .trans .of_stands LatchKept.examineZone LatchKept.examineLine LatchKept.writeBranch
    (fun n e d hs => LatchKept.trans (LatchKept.trans
      (.put fun he hl => by rw [he, hs] at hl; cases hl) (.examineZone _ _)) (.examineLine _))
    LatchKept.leakAck (fun w h d => .leakClear (h w rfl) d)

/-- Settles O57: the LEAK holds by the relation that every operation keeps them sound, and the latch by the relation
that every operation but its LEAK CLEAR keeps it. -/
theorem stepKeepsIsolation : Obligations.StepKeepsIsolation := by
  refine ⟨fun s t hs h => ?_, fun s t c rest z hc hp hl hd h => ?_⟩
  · rw [isolationSound_iff] at hs ⊢
    exact step_keeps (P := leakSoundBut none) (fun _ _ _ hs h => exec_leakSound h hs) hs h
  · exact (carried_latchKept z).exec (s := { s with pending := rest }) hp
      (fun hi d => innerEvent_of_leak .of_stands LatchKept.examineLine hi d)
      LatchKept.softReset hd (step_front hc h) hl

end Sys2Proof.Machine

/-! PROOFS. The release to the front (R64): which branches it takes, in which order, and what it leaves. -/

namespace Sys2Proof.Machine

-- One proof after another: proofs that are checked side by side take a thread each.
set_option Elab.async false

/-! ## A fold over the branches -/

/-- A fold over the branch numbers in which step `b` changes branch `b` alone, from what it was, by `φ b`, as long
as the part satisfies what each step keeps. -/
theorem forBranches_branch {P : Part → Prop} {f : Nat → Part → Part} {φ : Nat → Branch → Branch}
    {d : Part} (hf : ∀ b e, P e → e.branch b = d.branch b → P (f b e) ∧
      ∀ n, (f b e).branch n = if n = b then (d.branch b).map (φ b) else e.branch n) (hd : P d) :
    P (forBranches f d) ∧ ∀ n < 36, (forBranches f d).branch n = (d.branch n).map (φ n) := by
  have below (m : Nat) : P ((List.range m).foldl (fun e b => f b e) d) ∧
      ∀ n, ((List.range m).foldl (fun e b => f b e) d).branch n =
        if n < m then (d.branch n).map (φ n) else d.branch n := by
    induction m with
    | zero => exact ⟨hd, fun n => rfl⟩
    | succ m ih =>
      obtain ⟨hP, hb⟩ := ih
      rw [List.range_succ, List.foldl_append]
      obtain ⟨hP', hm⟩ := hf m _ hP ((hb m).trans (if_neg (Nat.lt_irrefl m)))
      refine ⟨hP', fun n => ?_⟩
      rw [List.foldl_cons, List.foldl_nil, hm n, hb n]
      rcases Nat.lt_trichotomy n m with h | h | h
      · simp [h, h.ne, Nat.lt_succ_of_lt h]
      · subst h
        simp
      · simp [h.ne', Nat.not_lt.mpr h.le, Nat.not_lt.mpr (Nat.succ_le_of_lt h)]
  refine ⟨(below 36).1, fun n hn => ?_⟩
  have h := (below 36).2 n
  rw [if_pos hn] at h
  exact h

/-- Storing a branch in place of one changes that entry alone. -/
theorem branch_put {b : Nat} {x y : Branch} {d : Part} (h : d.branch b = some x) (n : Nat) :
    (putBranch b y d).branch n = if n = b then some y else d.branch n := by
  by_cases hn : n = b
  · subst hn
    rw [if_pos rfl, putBranch_branch n x y d h]
  · rw [if_neg hn, putBranch_other b n y d hn]

/-- A part whose branches stand has the branches it had. -/
theorem branch_of_bcu {d d' : Part} (h : d'.bcu.branches = d.bcu.branches) (n : Nat) :
    d'.branch n = d.branch n := by
  unfold Part.branch
  rw [h]

/-! ## The branches that are released -/

theorem mem_freed {d : Part} {b : Nat} : b ∈ freed d ↔ b < 36 ∧ ∃ x, d.branch b = some x ∧
    x.holds.shed = true ∧ shedHold d x.cfg.tier = false ∧ x.state = .off ∧
    (x.withShed d).wanted = true := by
  unfold freed
  rw [List.mem_filter, List.mem_range]
  refine and_congr_right fun _ => ?_
  rcases d.branch b with _ | x
  · simp
  · simp [and_assoc]

theorem mem_byTier {d : Part} {bs : List Nat} {b : Nat} : b ∈ byTier d bs ↔ b ∈ bs ∧
    ∃ x, d.branch b = some x ∧ x.cfg.tier < 8 := by
  unfold byTier
  simp only [List.mem_flatMap, List.mem_range, List.mem_filter]
  constructor
  · rintro ⟨t, ht, hb, hm⟩
    rcases hx : d.branch b with _ | x
    · rw [hx] at hm
      cases hm
    · rw [hx] at hm
      exact ⟨hb, x, rfl, (beq_iff_eq.mp hm) ▸ ht⟩
  · rintro ⟨hb, x, hx, ht⟩
    exact ⟨x.cfg.tier, ht, hb, by rw [hx]; exact beq_self_eq_true _⟩

/-- Ascending tier and, within a tier, ascending branch number. -/
def tierOrder (d : Part) (a b : Nat) : Prop := ∀ x y, d.branch a = some x → d.branch b = some y →
  x.cfg.tier < y.cfg.tier ∨ (x.cfg.tier = y.cfg.tier ∧ a < b)

theorem byTier_order {d : Part} {bs : List Nat} (h : bs.Pairwise (· < ·)) :
    (byTier d bs).Pairwise (tierOrder d) := by
  have tierOf {t b : Nat} {x : Branch} (hb : b ∈ bs.filter fun b => match d.branch b with
        | some x => x.cfg.tier == t
        | none => false) (hx : d.branch b = some x) : x.cfg.tier = t := by
    have := (List.mem_filter.mp hb).2
    rw [hx] at this
    exact beq_iff_eq.mp this
  unfold byTier
  rw [List.pairwise_flatMap]
  refine ⟨fun t _ => ?_, List.pairwise_lt_range.imp fun hst a ha b hb x y hx hy => ?_⟩
  · exact (h.filter _).imp_of_mem fun ha hb hlt x y hx hy =>
      .inr ⟨(tierOf ha hx).trans (tierOf hb hy).symm, hlt⟩
  · exact .inl (by rw [tierOf ha hx, tierOf hb hy]; exact hst)

theorem freed_order (d : Part) : (freed d).Pairwise (· < ·) := List.pairwise_lt_range.filter _

theorem mem_byTier_valid {d : Part} {bs : List Nat} {b : Nat} (h : b ∈ byTier d bs) :
    ∃ x, d.branch b = some x := by
  obtain ⟨-, x, hx, -⟩ := mem_byTier.mp h
  exact ⟨x, hx⟩

theorem byTier_nodup {d : Part} {bs : List Nat} (h : bs.Pairwise (· < ·)) : (byTier d bs).Nodup := by
  refine (byTier_order h).imp_of_mem (R := tierOrder d) fun ha _ ho he => ?_
  subst he
  obtain ⟨x, hx⟩ := mem_byTier_valid ha
  rcases ho x x hx hx with hlt | ⟨-, hlt⟩
  · exact Nat.lt_irrefl _ hlt
  · exact Nat.lt_irrefl _ hlt

/-! ## The release -/

/-- The branches that a release takes to the front. -/
def releasedFront (d : Part) : List Nat := byTier d (freed d)

/-- What the release makes of a branch. -/
def releasedBranch (d : Part) (b : Nat) (x : Branch) : Branch :=
  if b ∈ releasedFront d then { x.withShed d with state := .queued } else x.withShed d

/-- What the release does to one branch. -/
def releaseOne (front : List Nat) (b : Nat) (d : Part) : Part :=
  match d.branch b with
  | some x =>
    let y := x.withShed d
    if x = y then d
    else signalOnce .branches (putBranch b (if b ∈ front then { y with state := .queued } else y) d)
  | none => d

theorem releaseShed_eq (d : Part) : releaseShed d =
    setQueue (releasedFront d ++ (forBranches (releaseOne (releasedFront d)) d).bcu.queue)
      (forBranches (releaseOne (releasedFront d)) d) := by
  unfold releaseShed
  refine congrArg (fun f => setQueue (releasedFront d ++ (forBranches f d).bcu.queue)
    (forBranches f d)) (?_ : _ = releaseOne (releasedFront d))
  funext b e
  unfold releaseOne releasedFront
  rfl

theorem withShed_of_sru {d d' : Part} (h : d'.sru = d.sru) (x : Branch) :
    x.withShed d' = x.withShed d := by
  unfold Branch.withShed shedHold
  rw [h]

/-- A branch that is released loses its SHED hold. -/
theorem withShed_ne_of_front {d : Part} {b : Nat} {x : Branch} (h : d.branch b = some x)
    (hb : b ∈ releasedFront d) : x ≠ x.withShed d := by
  obtain ⟨-, y, hy, hs, hn, -⟩ := mem_freed.mp (mem_byTier.mp hb).1
  cases h.symm.trans hy
  intro he
  have := congrArg (·.holds.shed) he
  simp [Branch.withShed, hs, hn] at this

/-- The release changes every branch as it says, and leaves the queue and the SRU till then. -/
theorem releaseOne_fold (d : Part) :
    let e := forBranches (releaseOne (releasedFront d)) d
    (e.bcu.queue = d.bcu.queue ∧ e.sru = d.sru) ∧
      ∀ n < 36, e.branch n = (d.branch n).map (releasedBranch d n) := by
  refine forBranches_branch (P := fun e => e.bcu.queue = d.bcu.queue ∧ e.sru = d.sru)
    (fun b e ⟨hq, hs⟩ hb => ?_) ⟨rfl, rfl⟩
  unfold releaseOne
  rcases hx : e.branch b with _ | x
  · refine ⟨⟨hq, hs⟩, fun n => ?_⟩
    by_cases hn : n = b
    · simp only [hn, if_true, hx, ← hb, Option.map_none]
    · simp only [hn, if_false]
  · have hd : d.branch b = some x := hb ▸ hx
    simp only [withShed_of_sru hs]
    by_cases hxy : x = x.withShed d
    · rw [if_pos hxy]
      refine ⟨⟨hq, hs⟩, fun n => ?_⟩
      by_cases hn : n = b
      · have hnf : b ∉ releasedFront d := fun h => withShed_ne_of_front hd h hxy
        simp only [hn, if_true, hx, hd, Option.map_some, releasedBranch, if_neg hnf]
        rw [← hxy]
      · simp only [hn, if_false]
    · rw [if_neg hxy]
      refine ⟨⟨by rw [signalOnce_bcu]; exact hq, (signalOnce_settled _ _).sru.trans hs⟩, fun n => ?_⟩
      rw [branch_of_bcu (d := putBranch b _ e) (by rw [signalOnce_bcu]), branch_put hx, hd]
      rfl

theorem setQueue_queue (q : List Nat) (d : Part) : (setQueue q d).bcu.queue = q := by
  unfold setQueue
  split
  · rfl
  · rw [signalOnce_bcu]

theorem releaseShed_queue (d : Part) : (releaseShed d).bcu.queue = releasedFront d ++ d.bcu.queue := by
  rw [releaseShed_eq, setQueue_queue, (releaseOne_fold d).1.1]

theorem releaseShed_branch (d : Part) {n : Nat} (hn : n < 36) :
    (releaseShed d).branch n = (d.branch n).map (releasedBranch d n) := by
  rw [releaseShed_eq, branch_of_bcu (setQueue_branches _ _), (releaseOne_fold d).2 n hn]

/-- A branch has a number below the length of the Branch Table. -/
theorem lt_of_branch {d : Part} {b : Nat} {x : Branch} (h : d.branch b = some x) :
    b < d.bcu.branches.length := by
  by_contra hb
  unfold Part.branch entry at h
  rw [List.getElem?_eq_none (Nat.le_of_not_lt hb)] at h
  cases h

/-- Settles O21, by the front, its order, and what the release makes of each branch. -/
theorem releaseToFront : Obligations.ReleaseToFront := by
  intro d hlen htier
  refine ⟨releasedFront d, releaseShed_queue d, fun b => ?_, byTier_order (freed_order d),
    fun b x hx => ?_⟩
  · unfold releasedFront
    rw [mem_byTier, mem_freed]
    constructor
    · rintro ⟨⟨-, x, hx, hs, hn, ho, hw⟩, -⟩
      simp [Branch.wanted, Branch.withShed, Holds.any, hn] at hw
      exact ⟨x, hx, ho, hs, hn, hw.1, hw.2.1.1, hw.2.1.2, hw.2.2⟩
    · rintro ⟨x, hx, ho, hs, hn, hd, hl, ht, hf⟩
      have hn' : shedHold d x.cfg.tier = false := hn
      refine ⟨⟨hlen ▸ lt_of_branch hx, x, hx, hs, hn', ho, ?_⟩, x, hx, htier b x hx⟩
      simp [Branch.wanted, Branch.withShed, Holds.any, hn', hd, hl, ht, hf]
  · simp only
    rw [releaseShed_branch d (hlen ▸ lt_of_branch hx), hx]
    rfl

end Sys2Proof.Machine

/-! PROOFS. The Admission Queue (R63): its members are the QUEUED branches, each with a demand and no hold, and SHED is
what the shed sets say (R50); every operation keeps that. -/

namespace Sys2Proof.Machine

-- One proof after another: proofs that are checked side by side take a thread each.
set_option Elab.async false

/-! ## The queue and the branches -/

/-- The queue holds no branch twice, and every branch but those that `b` names is in it exactly while it is QUEUED,
and then holds a demand and no hold. -/
structure QueueBut (b : Option Nat) (d : Part) : Prop where
  length : d.bcu.branches.length = 36
  nodup : d.bcu.queue.Nodup
  members : ∀ n, some n ≠ b → (n ∈ d.bcu.queue ↔ ∃ x, d.branch n = some x ∧ x.state = .queued)
  wanted : ∀ n x, some n ≠ b → d.branch n = some x → x.state = .queued → x.wanted = true

/-- The Admission Queue is sound. -/
def queueSound (d : Part) : Prop := QueueBut none d

/-- The SHED hold of every branch is what the shed sets say. -/
def shedHeld (d : Part) : Prop :=
  ∀ n x, d.branch n = some x → x.holds.shed = d.sru.shed.getLsbD x.cfg.tier

theorem admissionSound_iff (d : Part) : d.admissionSound ↔ queueSound d ∧ shedHeld d := by
  constructor
  · rintro ⟨hl, hn, hm, hw, hs⟩
    exact ⟨⟨hl, hn, fun n _ => hm n, fun n x _ => hw n x⟩, hs⟩
  · rintro ⟨⟨hl, hn, hm, hw⟩, hs⟩
    exact ⟨hl, hn, fun n => hm n nofun, fun n x => hw n x nofun, hs⟩

/-- The queue is sound where the branches and the queue stand. -/
theorem QueueBut.of_bcu {b : Option Nat} {d d' : Part} (hb : d'.bcu.branches = d.bcu.branches)
    (hq : d'.bcu.queue = d.bcu.queue) (h : QueueBut b d) : QueueBut b d' where
  length := hb ▸ h.length
  nodup := hq ▸ h.nodup
  members n hn := by rw [hq, branch_of_bcu hb]; exact h.members n hn
  wanted n x hn := by rw [branch_of_bcu hb]; exact h.wanted n x hn

theorem QueueBut.of_same {b : Option Nat} {d d' : Part} (hb : d'.bcu = d.bcu) (h : QueueBut b d) :
    QueueBut b d' := h.of_bcu (by rw [hb]) (by rw [hb])

theorem QueueBut.signalOnce {b : Option Nat} {d : Part} {s : Signal} (h : QueueBut b d) :
    QueueBut b (signalOnce s d) := h.of_same (signalOnce_bcu s d)

theorem QueueBut.post {b : Option Nat} {d : Part} (k : EventKind) (s v : Option Nat)
    (h : QueueBut b d) : QueueBut b (post k s v d) := h.of_same (post_unmoved k s v d).bcu

/-- The queue is sound where it is sound but for `b`, and `b` too is in it exactly while it is QUEUED. -/
theorem QueueBut.sound {b : Nat} {d : Part} (h : QueueBut (some b) d)
    (hm : b ∈ d.bcu.queue ↔ ∃ x, d.branch b = some x ∧ x.state = .queued)
    (hw : ∀ x, d.branch b = some x → x.state = .queued → x.wanted = true) : queueSound d where
  length := h.length
  nodup := h.nodup
  members n _ := by
    by_cases hn : n = b
    · subst hn
      exact hm
    · exact h.members n (by simpa using hn)
  wanted n x _ := by
    by_cases hn : n = b
    · subst hn
      exact hw x
    · exact h.wanted n x (by simpa using hn)

/-- A branch that is not QUEUED, in no queue. -/
theorem QueueBut.sound_of_out {b : Nat} {d : Part} (h : QueueBut (some b) d)
    (hq : b ∉ d.bcu.queue) (hs : ∀ x, d.branch b = some x → x.state ≠ .queued) : queueSound d :=
  h.sound ⟨fun hb => absurd hb hq, fun ⟨x, hx, hxs⟩ => absurd hxs (hs x hx)⟩
    fun x hx hxs => absurd hxs (hs x hx)

/-- Storing branch `b` leaves the queue sound but for `b`. -/
theorem QueueBut.put {b : Nat} {y : Branch} {d : Part} (h : QueueBut (some b) d) :
    QueueBut (some b) (putBranch b y d) where
  length := by simpa using h.length
  nodup := h.nodup
  members n hn := by
    rw [putBranch_other b n y d (by simpa using hn)]
    exact h.members n hn
  wanted n x hn := by
    rw [putBranch_other b n y d (by simpa using hn)]
    exact h.wanted n x hn

theorem queueSound.but {d : Part} (h : queueSound d) (b : Nat) : QueueBut (some b) d where
  length := h.length
  nodup := h.nodup
  members n _ := h.members n nofun
  wanted n x _ := h.wanted n x nofun

/-- A new queue that holds the other members as they were. -/
theorem QueueBut.setQueue {b : Nat} {q : List Nat} {d : Part} (h : QueueBut (some b) d) (hn : q.Nodup)
    (hm : ∀ n, n ≠ b → (n ∈ q ↔ n ∈ d.bcu.queue)) : QueueBut (some b) (setQueue q d) where
  length := by rw [setQueue_branches]; exact h.length
  nodup := by rw [setQueue_queue]; exact hn
  members n hnb := by
    rw [setQueue_queue, branch_of_bcu (setQueue_branches q d), hm n (by simpa using hnb)]
    exact h.members n hnb
  wanted n x hnb := by
    rw [branch_of_bcu (setQueue_branches q d)]
    exact h.wanted n x hnb

theorem leaveQueue_queue (b : Nat) (d : Part) :
    (leaveQueue b d).bcu.queue = d.bcu.queue.filter (· != b) := setQueue_queue _ d

theorem QueueBut.leaveQueue {b : Nat} {d : Part} (h : QueueBut (some b) d) :
    QueueBut (some b) (leaveQueue b d) :=
  h.setQueue (h.nodup.filter _) fun n hn => by simp [hn]

/-- Once branch `b`, not QUEUED, has left the queue, the queue is sound. -/
theorem QueueBut.left {b : Nat} {d : Part} (h : QueueBut (some b) d)
    (hs : ∀ x, d.branch b = some x → x.state ≠ .queued) : queueSound (Machine.leaveQueue b d) :=
  h.leaveQueue.sound_of_out (by rw [leaveQueue_queue]; simp)
    fun x hx => hs x (by rwa [← branch_of_bcu (setQueue_branches _ d)])

theorem queueSound.not_mem {d : Part} {b : Nat} {x : Branch} (h : queueSound d)
    (hx : d.branch b = some x) (hs : x.state ≠ .queued) : b ∉ d.bcu.queue := fun hb => by
  obtain ⟨y, hy, hys⟩ := (h.members b nofun).mp hb
  cases hx.symm.trans hy
  exact hs hys

/-! ## The operations of the BCU -/

theorem noteFaulted_bcu (b : Nat) (x : Branch) (d : Part) : (noteFaulted b x d).bcu = d.bcu := by
  unfold noteFaulted
  repeat' split
  all_goals rfl

theorem stage_bcu (w : Writer) (b : Option Nat) (n : Nat) (v : Word) (d : Part) :
    (stage w b n v d).1.bcu = d.bcu := (stage_still w b n v d).bcu

theorem noteLoad_bcu (n : Nat) (d : Part) : (noteLoad n d).bcu = d.bcu := by
  unfold noteLoad
  split
  · exact signalOnce_bcu _ _
  · rfl

/-- A fault leaves the queue sound, whatever its branch was. -/
theorem faultBranch_sound {c : BranchCause} {b : Nat} {d : Part} (h : QueueBut (some b) d)
    (hb : d.branch b = none → b ∉ d.bcu.queue) : queueSound (faultBranch c b d) := by
  unfold faultBranch
  split
  · rename_i hn
    exact h.sound_of_out (hb hn) fun x hx => by rw [hn] at hx; cases hx
  · rename_i x hx
    have left := (h.put (y := { x with
      state := .fault, timer := .stopped, foundFaulted := decide (x.state = .unknown) })).left
      fun y hy => by
        rw [putBranch_branch b x _ d hx] at hy
        cases hy
        exact nofun
    refine QueueBut.signalOnce (QueueBut.post _ _ _ (QueueBut.of_same (noteFaulted_bcu _ _ _) ?_))
    split
    · exact left
    · exact left.of_same (stage_bcu _ _ _ _ _)

theorem queueSound.fault {d : Part} (h : queueSound d) (c : BranchCause) (b : Nat) :
    queueSound (faultBranch c b d) := by
  refine faultBranch_sound (h.but b) fun hn hb => ?_
  obtain ⟨x, hx, -⟩ := (h.members b nofun).mp hb
  rw [hn] at hx
  cases hx

theorem queueSound.stage {d : Part} (h : queueSound d) (b : Nat) (v : Word) :
    queueSound (stageBranch b v d) := by
  unfold stageBranch
  split
  · exact h
  · rename_i x _
    have hs := h.of_same (stage_bcu .bcu (some b) x.cfg.node v d)
    split <;> (rename_i he; rw [he] at hs)
    · split
      · exact hs
      · exact queueSound.fault hs _ _
    · exact hs

/-- A branch that is in no queue stops. -/
theorem QueueBut.stop {b : Nat} {x : Branch} {d : Part} (h : QueueBut (some b) d)
    (hx : d.branch b = some x) (hq : b ∉ d.bcu.queue) : queueSound (stopBranch b d) := by
  unfold stopBranch
  rw [hx]
  simp only
  refine queueSound.stage (QueueBut.signalOnce (QueueBut.of_same (noteLoad_bcu _ _) ?_)) _ _
  refine h.put.sound_of_out hq fun y hy => ?_
  rw [putBranch_branch b x _ d hx] at hy
  cases hy
  exact nofun

theorem queueSound.queueIfWanted {d : Part} (h : queueSound d) (b : Nat) :
    queueSound (queueIfWanted b d) := by
  unfold Machine.queueIfWanted
  split
  · exact h
  · rename_i x hx
    split
    · rename_i hw
      have hq := h.not_mem hx (by rw [hw.1]; exact nofun)
      unfold enqueueBack
      rw [hx]
      refine QueueBut.signalOnce ?_
      have hput := (h.but b).put (y := { x with state := .queued })
      refine QueueBut.sound (b := b) (hput.setQueue ?_ fun n hn => by simp [hn]) ?_ fun y hy _ => ?_
      · exact List.nodup_append.mpr ⟨h.nodup, by simp, fun a ha c hc => by
          rw [List.mem_singleton.mp hc]
          exact fun he => hq (he ▸ ha)⟩
      · rw [setQueue_queue, branch_of_bcu (setQueue_branches _ _), putBranch_branch b x _ d hx]
        simp
      · rw [branch_of_bcu (setQueue_branches _ _), putBranch_branch b x _ d hx] at hy
        cases hy
        exact hw.2
    · exact h

/-- The output rule keeps the queue sound: the branch keeps its state, or is QUEUED neither before nor after. -/
theorem queueSound.applyOutput {d : Part} (h : queueSound d) {b : Nat} {x y : Branch}
    (hx : d.branch b = some x)
    (hs : y.state = x.state ∨ x.state ≠ .queued ∧ y.state ≠ .queued) :
    queueSound (applyOutput b x y d) := by
  unfold Machine.applyOutput
  split
  · exact h
  · have hput := (h.but b).put (y := y)
    have hnoted := hput.signalOnce (s := .branches)
    have hbr : (Machine.signalOnce .branches (putBranch b y d)).branch b = some y := by
      rw [branch_of_bcu (d := putBranch b y d) (by rw [signalOnce_bcu]), putBranch_branch b x y d hx]
    have hqueue : (Machine.signalOnce .branches (putBranch b y d)).bcu.queue = d.bcu.queue := by
      rw [signalOnce_bcu]
      rfl
    generalize Machine.signalOnce .branches (putBranch b y d) = d1 at hnoted hbr hqueue
    have out (hy : y.state ≠ .queued) : b ∉ d1.bcu.queue := by
      rw [hqueue]
      refine h.not_mem hx ?_
      rcases hs with hs | ⟨hs, -⟩
      · exact hs ▸ hy
      · exact hs
    have rest (hy : y.state ≠ .queued) : queueSound d1 :=
      hnoted.sound_of_out (out hy) fun z hz => by
        rw [hbr] at hz
        cases hz
        exact hy
    simp only
    split
    · split
      · refine hnoted.put.left fun z hz => ?_
        rw [putBranch_branch b y _ d1 hbr] at hz
        cases hz
        exact nofun
      · exact hnoted.stop hbr (out (by simp [*]))
      · exact hnoted.stop hbr (out (by simp [*]))
      · exact rest (by assumption)
    · rename_i hl
      refine queueSound.queueIfWanted ?_ b
      by_cases hy : y.state = .queued
      · have hxs : x.state = .queued := by
          rcases hs with hs | ⟨-, hs⟩
          · exact hs ▸ hy
          · exact absurd hy hs
        have hxw := h.wanted b x nofun hx hxs
        have hyw : y.wanted = true := by
          simp only [Branch.wanted, Bool.and_eq_true, Bool.not_eq_true'] at hxw ⊢
          simp only [loses, hxw, Bool.not_false, Bool.true_and, Bool.or_eq_true, Bool.and_eq_true,
            Bool.not_eq_true', not_or, not_and, Bool.not_eq_false, and_true] at hl
          exact ⟨hl.2 (by simpa using hl.1), by simpa using hl.1⟩
        refine hnoted.sound ?_ fun z hz _ => ?_
        · rw [hqueue, hbr]
          exact ⟨fun _ => ⟨y, rfl, hy⟩, fun _ => (h.members b nofun).mpr ⟨x, hx, hxs⟩⟩
        · rw [hbr] at hz
          cases hz
          exact hyw
      · exact rest hy

end Sys2Proof.Machine

/-! PROOFS. The Admission Queue through the part: samples, admission, requests, records, and the shed sets. -/

namespace Sys2Proof.Machine

-- One proof after another: proofs that are checked side by side take a thread each.
set_option Elab.async false

theorem queueSound.changeBranch {d : Part} (h : queueSound d) {b : Nat} {f : Branch → Branch}
    (hf : ∀ x, (f x).state = x.state) : queueSound (changeBranch b f d) := by
  unfold Machine.changeBranch
  split
  · exact h
  · exact h.applyOutput ‹_› (.inl (hf _))

/-- Storing a branch of the same state, with a demand and no hold where it had them, keeps the queue sound. -/
theorem queueSound.put_same {d : Part} (h : queueSound d) {b : Nat} {x y : Branch}
    (hx : d.branch b = some x) (hs : y.state = x.state) (hw : x.wanted = true → y.wanted = true) :
    queueSound (putBranch b y d) := by
  have hy := putBranch_branch b x y d hx
  refine (h.but b).put.sound ?_ fun z hz hq => ?_
  · rw [hy]
    refine (h.members b nofun).trans ?_
    rw [hx]
    simp [hs]
  · rw [hy] at hz
    cases hz
    exact hw (h.wanted b x nofun hx (hs ▸ hq))

/-- Storing a branch that is QUEUED neither before nor after keeps the queue sound. -/
theorem queueSound.put_out {d : Part} (h : queueSound d) {b : Nat} {x y : Branch}
    (hx : d.branch b = some x) (hxs : x.state ≠ .queued) (hys : y.state ≠ .queued) :
    queueSound (putBranch b y d) := by
  refine (h.but b).put.sound_of_out (h.not_mem hx hxs) fun z hz => ?_
  rw [putBranch_branch b x y d hx] at hz
  cases hz
  exact hys

theorem queueSound.signalOnce {d : Part} (h : queueSound d) (s : Signal) :
    queueSound (signalOnce s d) := QueueBut.signalOnce h

/-! ## Samples, outcomes and admission -/

theorem queueSound.adopt {d : Part} (h : queueSound d) {b : Nat} {x : Branch} (c : Int)
    (hx : d.branch b = some x) (hs : x.state = .unknown) : queueSound (adopt b x c d) := by
  have hxs : x.state ≠ .queued := by rw [hs]; exact nofun
  unfold Machine.adopt
  split
  · exact (((h.put_out hx hxs (by exact nofun)).signalOnce _).stage _ _).queueIfWanted _
  · split
    · exact h.fault _ _
    · have hon := (h.put_out (y := { x with state := .on, demands := { x.demands with seq := true } })
        hx hxs (by exact nofun)).signalOnce .branches
      simp only
      split
      · have hb : (Machine.signalOnce .branches (putBranch b { x with
            state := .on, demands := { x.demands with seq := true } } d)).branch b =
              some { x with state := .on, demands := { x.demands with seq := true } } := by
          rw [branch_of_bcu (d := putBranch b _ d) (by rw [signalOnce_bcu]), putBranch_branch b x _ d hx]
        exact (hon.but b).stop hb (hon.not_mem hb (by simp))
      · exact hon.stage _ _

theorem queueSound.switchReading {d : Part} (h : queueSound d) (b : Nat) (c : Int) :
    queueSound (switchReading b c d) := by
  unfold Machine.switchReading
  split
  · exact h
  · rename_i x hx
    have moved (y : Branch) (hxs : x.state ≠ .queued) (hys : y.state ≠ .queued) :
        queueSound (Machine.signalOnce .branches (putBranch b y d)) :=
      (h.put_out hx hxs hys).signalOnce _
    split
    · exact h.adopt c hx ‹_›
    all_goals rename_i hs
    all_goals repeat' split
    all_goals first
      | exact h
      | exact h.fault _ _
      | exact moved _ (by rw [hs]; exact nofun) (by exact nofun)
      | exact (moved _ (by rw [hs]; exact nofun) (by exact nofun)).queueIfWanted _

theorem queueSound.setFreshness {d : Part} (h : queueSound d) (n : Nat) (v : Bool) :
    queueSound (setFreshness n v d) := by
  unfold Machine.setFreshness
  repeat' split
  · exact h
  · exact h
  · rename_i hx
    exact h.put_same hx rfl id

theorem queueSound.powerReading {d : Part} (h : queueSound d) (n : Nat) (v : Int) (c : ChanClass) :
    queueSound (powerReading n v c d) := by
  unfold Machine.powerReading
  repeat' split
  · exact h
  · exact h
  · rename_i hx
    exact h.put_same hx rfl id

theorem queueSound.outcomeToBcu {d : Part} (h : queueSound d) (b : Option Nat) (n : Nat) (o : Delivery) :
    queueSound (outcomeToBcu b n o d) := by
  unfold Machine.outcomeToBcu
  repeat' split
  all_goals first | exact h | exact h.fault _ _

theorem queueSound.attempt {d : Part} (h : queueSound d) : queueSound (attempt d) := by
  unfold Machine.attempt
  split
  · exact h
  · split
    · split
      · exact h
      · rename_i b _ _ _ _ x hx
        split
        · have left : queueSound (leaveQueue b (putBranch b { x with
              state := .admitting, timer := .running d.sru.profile.admitTimeoutMs } d)) :=
            (h.but b).put.left fun y hy => by
              rw [putBranch_branch b x _ d hx] at hy
              cases hy
              exact nofun
          exact queueSound.stage (QueueBut.signalOnce (left.of_bcu (by rfl) (by rfl))) _ _
        · exact h.of_bcu (by rfl) (by rfl)
    · exact h

theorem queueSound.branchExpiry {d : Part} (h : queueSound d) (s : BranchState) (c : BranchCause)
    (b : Nat) : queueSound (branchExpiry s c b d) := by
  unfold Machine.branchExpiry
  repeat' split
  all_goals first | exact h | exact h.fault _ _

theorem queueSound.branchClear {d : Part} (h : queueSound d) (b : Nat) : queueSound (branchClear b d) := by
  unfold Machine.branchClear
  split
  · exact h
  · rename_i x hx
    split
    · rename_i hs
      refine queueSound.queueIfWanted (QueueBut.signalOnce (QueueBut.of_same (noteLoad_bcu _ _) ?_)) b
      exact h.put_out hx (by rw [hs]; exact nofun) (by exact nofun)
    · exact h.changeBranch fun _ => rfl

theorem queueSound.tick {d : Part} (h : queueSound d) : queueSound (tick d) := by
  have hb (n : Nat) : (Machine.tick d).branch n =
      (d.branch n).map fun x => { x with timer := x.timer.tick } := by
    unfold Part.branch
    rw [entry_map]
    congr 1
    refine List.map_congr_left fun e _ => ?_
    cases e <;> rfl
  refine ⟨by simpa [Machine.tick] using h.length, h.nodup, fun n hn => ?_, fun n x hn hx hs => ?_⟩
  · refine (h.members n hn).trans ?_
    rw [hb]
    rcases d.branch n with _ | x <;> simp
  · rw [hb] at hx
    obtain ⟨y, hy, rfl⟩ := Option.map_eq_some_iff.mp hx
    exact h.wanted n y hn hy hs

/-! ## The SQE and the LKM -/

/-- Every operation that keeps the queue sound, as a relation. -/
def QueueKept (d d' : Part) : Prop := queueSound d → queueSound d'

theorem queueKept_changed : Posting QueueKept where
  trans h g := g ∘ h
  still h _ hq := hq.of_same h.bcu
  post k s v _ hq := hq.post k s v
  changeBranch _ _ _ hf hq := hq.changeBranch fun x => (hf x).2

theorem queueKept_sqe (d : Part) (q : Sqe) (_ : Advances d.sqe q) : QueueKept d { d with sqe := q } :=
  fun h => h.of_same (by rfl)

theorem queueKept_setCauses (c : Causes) (d : Part) : QueueKept d (setCauses c d) :=
  queueKept_changed.setCauses queueKept_sqe c d

theorem queueSound.startRun {d : Part} (h : queueSound d) : queueSound (startRun d) := by
  have cleared : queueSound (forBranches (fun b e => match e.branch b with
      | some x => putBranch b { x with enrolling := none } e
      | none => e) d) := by
    refine foldl_rel (R := QueueKept) (fun _ => id) (fun f g => g ∘ f) _ (fun e b he => ?_) _ d h
    dsimp only
    split
    · rename_i hx
      exact he.put_same hx rfl id
    · exact he
  unfold Machine.startRun
  generalize forBranches _ d = e at cleared ⊢
  have begun (q : Sqe) : queueSound { e with sqe := q } := cleared.of_same (by rfl)
  simp only
  split
  · exact QueueBut.post _ _ _ (begun _)
  · exact queueKept_changed.runSteps queueKept_sqe _ _ (begun _)

/-! ## A Branch Table record -/

/-- Another entry at a place that is in no queue keeps the queue sound, if it is not QUEUED. -/
theorem queueSound.set {d : Part} (h : queueSound d) {n : Nat} {e : Option Branch}
    (hq : n ∉ d.bcu.queue) (he : ∀ x, e = some x → x.state ≠ .queued) :
    queueSound { d with bcu.branches := d.bcu.branches.set n e } := by
  by_cases hn : n < d.bcu.branches.length
  · have hb := fun b => branch_set n b e d hn
    have hx (x : Branch) (hx : (if n = n then e else d.branch n) = some x) : x.state ≠ .queued :=
      he x (by rwa [if_pos rfl] at hx)
    refine QueueBut.sound_of_out (b := n) ⟨by simpa using h.length, h.nodup, fun m hm => ?_,
      fun m x hm hmx => ?_⟩ hq fun x hnx => hx x (hb n ▸ hnx)
    · rw [hb m, if_neg (by simpa using hm)]
      exact h.members m nofun
    · rw [hb m, if_neg (by simpa using hm)] at hmx
      exact h.wanted m x nofun hmx
  · rw [List.set_eq_of_length_le (Nat.le_of_not_lt hn)]
    exact h

theorem queueSound.not_mem_none {d : Part} (h : queueSound d) {n : Nat} (hn : d.branch n = none) :
    n ∉ d.bcu.queue := fun hq => by
  obtain ⟨x, hx, -⟩ := (h.members n nofun).mp hq
  rw [hn] at hx
  cases hx

theorem queueSound.rewriteBranch {d : Part} (h : queueSound d) {n : Nat} {x : Branch} {c : BranchCfg}
    (hx : d.branch n = some x) (hs : c.node ≠ x.cfg.node → x.state = .off) :
    queueSound (rewriteBranch n x c d) := by
  have hf : queueSound (forgetMoved n x c d) := by
    unfold forgetMoved
    split
    · exact h
    · exact h.of_same (by rfl)
  have he : (x.rewritten d c).state = x.state ∨
      x.state ≠ .queued ∧ (x.rewritten d c).state ≠ .queued := by
    unfold Branch.rewritten
    by_cases hc : c.node = x.cfg.node
    · exact .inl (by simp only [if_pos hc]; rfl)
    · refine .inr ⟨by rw [hs hc]; exact nofun, by simp only [if_neg hc]; exact nofun⟩
  have ha := hf.applyOutput (by rw [forgetMoved_branch]; exact hx) he
  rw [← rewritten_forgetMoved n x c d] at ha
  unfold Machine.rewriteBranch
  simp only
  split
  · exact ha.signalOnce _
  · exact ha

theorem queueSound.writeBranch {d : Part} (h : queueSound d) (n : Nat) (ws : List Word) :
    queueSound (writeBranch n ws d).1 := by
  have hw := writeBranch_cases n ws d
  generalize (Machine.writeBranch n ws d).1 = d' at hw ⊢
  cases hw with
  | none => exact h
  | emptied x hx hs =>
    have hset := h.set (n := n) (e := none) (h.not_mem hx (by rw [hs]; exact nofun))
      fun _ he => by cases he
    generalize ({ d with bcu.branches := d.bcu.branches.set n none } : Part) = e at hset ⊢
    have hf : queueSound (forgetStages n e) := hset.of_same (by rfl)
    exact hf.signalOnce _
  | added c hn =>
    exact h.set (e := some (Branch.begin d c)) (h.not_mem_none hn) fun _ he => by
      cases he
      exact nofun
  | rewritten x c hx _ hs _ => exact h.rewriteBranch hx hs

end Sys2Proof.Machine

/-! PROOFS. The SHED hold as the shed sets say (R50), and with it the soundness of the Admission Queue through
every operation of the part. -/

namespace Sys2Proof.Machine

-- One proof after another: proofs that are checked side by side take a thread each.
set_option Elab.async false

/-! ## The tier and the SHED hold -/

/-- The tier and the SHED hold, of what the delivery of hand-offs leaves alone. -/
def shedPairOf (v : BranchCfg × Holds × Bool × Option Nat × Bool) : Nat × Bool := (v.1.tier, v.2.1.shed)

/-- The tier and the SHED hold of a branch. -/
def Branch.shedPair : Branch → Nat × Bool := shedPairOf ∘ Branch.settledView

/-- The tiers and the SHED holds of the branches, and the tiers of the two shed sets, stand. -/
structure ShedStands (d d' : Part) : Prop where
  pairs : d'.bcu.branches.map (Option.map Branch.shedPair) =
    d.bcu.branches.map (Option.map Branch.shedPair)
  shed : d'.sru.shed = d.sru.shed

theorem shedHeld_iff (d : Part) : shedHeld d ↔
    ∀ n p, (d.branch n).map Branch.shedPair = some p → p.2 = d.sru.shed.getLsbD p.1 := by
  constructor
  · intro h n p hp
    obtain ⟨x, hx, rfl⟩ := Option.map_eq_some_iff.mp hp
    exact h n x hx
  · exact fun h n x hx => h n x.shedPair (by rw [hx]; rfl)

namespace ShedStands

theorem refl (d : Part) : ShedStands d d := ⟨rfl, rfl⟩

theorem trans {a b c : Part} (h : ShedStands a b) (g : ShedStands b c) : ShedStands a c :=
  ⟨g.pairs.trans h.pairs, g.shed.trans h.shed⟩

theorem held {d d' : Part} (h : ShedStands d d') (hd : shedHeld d) : shedHeld d' := by
  rw [shedHeld_iff] at hd ⊢
  intro n p hp
  rw [h.shed]
  refine hd n p ?_
  rw [← hp]
  unfold Part.branch
  rw [entry_map, entry_map, h.pairs]

theorem put {b : Nat} {x y : Branch} {d : Part} (hx : d.branch b = some x)
    (hp : y.shedPair = x.shedPair) : ShedStands d (putBranch b y d) :=
  ⟨map_set_same _ _ _ x _ hx (by simp [hp]), rfl⟩

theorem change {b : Nat} {f : Branch → Branch} (d : Part) (hc : ∀ x, (f x).cfg = x.cfg)
    (hs : ∀ x, (f x).holds.shed = x.holds.shed) : ShedStands d (changeBranch b f d) :=
  ⟨changeBranch_views _ b f (fun x => by simp [shedPairOf, Branch.settledView, hc, hs]) d,
    congrArg _ (changeBranch_kept b f hc d).sru⟩

end ShedStands

theorem Viewed.toShedStands {d d' : Part} (h : Viewed d d') : ShedStands d d' :=
  ⟨views_of _ h.views, congrArg _ h.sru⟩

theorem Settled.toShedStands {d d' : Part} (h : Settled d d') : ShedStands d d' :=
  h.toViewed.toShedStands

theorem Leaked.toShedStands {d d' : Part} (h : Leaked d d') : ShedStands d d' :=
  ⟨map_view (u := Branch.leakView) (fun v => (v.1.tier, v.2.2.1)) h.views, congrArg _ h.sru⟩

/-! ## The relation -/

/-- The Admission Queue stays sound. -/
structure AdmKept (d d' : Part) : Prop where
  kept : queueSound d ∧ shedHeld d → queueSound d' ∧ shedHeld d'

namespace AdmKept

theorem refl (d : Part) : AdmKept d d := ⟨id⟩

theorem trans {a b c : Part} (h : AdmKept a b) (g : AdmKept b c) : AdmKept a c := ⟨g.kept ∘ h.kept⟩

theorem of {d d' : Part} (hq : queueSound d → queueSound d') (hs : ShedStands d d') : AdmKept d d' :=
  ⟨fun ⟨q, s⟩ => ⟨hq q, hs.held s⟩⟩

theorem of_same {d d' : Part} (hb : d'.bcu = d.bcu) (hs : d'.sru.shed = d.sru.shed) : AdmKept d d' :=
  .of (fun h => h.of_same hb) ⟨by rw [hb], hs⟩

end AdmKept

theorem admKept_post (k : EventKind) (s v : Option Nat) (d : Part) : AdmKept d (post k s v d) :=
  .of_same (post_unmoved k s v d).bcu (congrArg _ (post_unmoved k s v d).sru)

theorem postShed_bcu (k : Nat) (l : List Nat) (d : Part) : (postShed k l d).bcu = d.bcu :=
  foldl_rel (R := fun d d' => d'.bcu = d.bcu) (fun _ => rfl) (fun h k => k.trans h) _
    (fun d _ => (post_unmoved _ _ _ d).bcu) l d

/-! ## The derivation of SHED, and the release -/

/-- A derivation of SHED makes the holds what the sets say, and keeps the queue sound. -/
theorem queueSound.deriveShed {d : Part} (h : queueSound d) :
    queueSound (deriveShed d) ∧ shedHeld (deriveShed d) := by
  have hq : queueSound (Machine.deriveShed d) := queueKept_changed.deriveShed d h
  refine ⟨hq, (shedHeld_iff _).mpr fun n p hp => ?_⟩
  have hn : n < 36 := by
    obtain ⟨x, hx, -⟩ := Option.map_eq_some_iff.mp hp
    exact hq.length ▸ lt_of_branch hx
  have hv := forBranches_view shedPairOf Branch.withShed (fun p => (p.1, shedHold d p.1)) d
    (fun _ _ => rfl) (fun e x he => by
      have hs : shedHold e x.cfg.tier = shedHold d x.cfg.tier := by
        unfold shedHold
        rw [he.sru]
      simp [shedPairOf, Branch.settledView, Branch.withShed, hs]) hn
  obtain ⟨x, -, rfl⟩ := Option.map_eq_some_iff.mp (hv.symm.trans hp)
  rw [(deriveShed_kept d).sru]
  rfl

theorem not_mem_released {d : Part} (h : queueSound d) {n : Nat} (hn : n ∈ releasedFront d) :
    n ∉ d.bcu.queue := by
  obtain ⟨-, x, hx, -, -, ho, -⟩ := mem_freed.mp (mem_byTier.mp hn).1
  exact h.not_mem hx (by rw [ho]; exact nofun)

theorem releaseShed_length (d : Part) :
    (releaseShed d).bcu.branches.length = d.bcu.branches.length := by
  have := congrArg List.length (releaseShed_views d)
  simpa using this

theorem releasedBranch_state (d : Part) (n : Nat) (x : Branch) :
    (releasedBranch d n x).state = if n ∈ releasedFront d then .queued else x.state := by
  unfold releasedBranch
  split <;> rfl

/-- A release, where no branch of a shed tier is without SHED, makes the holds what the sets say, and keeps the
queue sound. -/
theorem queueSound.releaseShed {d : Part} (h : queueSound d)
    (hc : ∀ n x, d.branch n = some x → shedHold d x.cfg.tier = true → x.holds.shed = true) :
    queueSound (releaseShed d) ∧ shedHeld (releaseShed d) := by
  have hlen := (releaseShed_length d).trans h.length
  have lt {n : Nat} {x : Branch} (hx : (Machine.releaseShed d).branch n = some x) : n < 36 :=
    hlen ▸ lt_of_branch hx
  have from' {n : Nat} {x : Branch} (hx : (Machine.releaseShed d).branch n = some x) :
      ∃ y, d.branch n = some y ∧ releasedBranch d n y = x :=
    Option.map_eq_some_iff.mp (releaseShed_branch d (lt hx) ▸ hx)
  refine ⟨⟨hlen, ?_, fun n _ => ?_, fun n x _ hx hs => ?_⟩, fun n x hx => ?_⟩
  · rw [releaseShed_queue]
    refine List.nodup_append.mpr ⟨byTier_nodup (freed_order d), h.nodup, fun a ha c hq he => ?_⟩
    exact not_mem_released h ha (he ▸ hq)
  · rw [releaseShed_queue, List.mem_append]
    constructor
    · intro hm
      have ⟨y, hy, hst⟩ : ∃ y, d.branch n = some y ∧ (releasedBranch d n y).state = .queued := by
        rcases hm with hm | hm
        · obtain ⟨-, y, hy, -⟩ := mem_byTier.mp hm
          exact ⟨y, hy, by rw [releasedBranch_state, if_pos hm]⟩
        · obtain ⟨y, hy, hs⟩ := (h.members n nofun).mp hm
          exact ⟨y, hy, by rw [releasedBranch_state, hs]; split <;> rfl⟩
      exact ⟨_, by rw [releaseShed_branch d (h.length ▸ lt_of_branch hy), hy]; rfl, hst⟩
    · rintro ⟨x, hx, hs⟩
      obtain ⟨y, hy, rfl⟩ := from' hx
      by_cases hm : n ∈ releasedFront d
      · exact .inl hm
      · rw [releasedBranch_state, if_neg hm] at hs
        exact .inr ((h.members n nofun).mpr ⟨y, hy, hs⟩)
  · obtain ⟨y, hy, rfl⟩ := from' hx
    by_cases hm : n ∈ releasedFront d
    · obtain ⟨-, z, hz, -, -, -, hw⟩ := mem_freed.mp (mem_byTier.mp hm).1
      cases hy.symm.trans hz
      unfold releasedBranch
      rw [if_pos hm]
      exact hw
    · rw [releasedBranch_state, if_neg hm] at hs
      have hw := h.wanted n y nofun hy hs
      unfold releasedBranch
      rw [if_neg hm]
      simp only [Branch.wanted, Holds.any, Bool.and_eq_true, Bool.not_eq_true', Bool.or_eq_false_iff] at hw
      obtain ⟨hd, ⟨⟨hl, ht⟩, hsh⟩, hf⟩ := hw
      have hz : shedHold d y.cfg.tier = false := by
        by_contra hne
        rw [hc n y hy (by simpa using hne)] at hsh
        cases hsh
      simp [Branch.wanted, Holds.any, Branch.withShed, hd, hl, ht, hf, hz]
  · obtain ⟨y, hy, rfl⟩ := from' hx
    rw [(releaseShed_kept d).sru]
    unfold releasedBranch
    split <;> rfl

/-! ## The SRU -/

/-- A release after some tiers have left the shed sets keeps the Admission Queue sound. -/
theorem admKept_release {d e : Part} (hb : e.bcu = d.bcu)
    (hs : ∀ k, e.sru.shed.getLsbD k = true → d.sru.shed.getLsbD k = true) :
    AdmKept d (releaseShed e) := by
  refine ⟨fun ⟨hq, hh⟩ => queueSound.releaseShed (hq.of_same hb) fun n x hx ht => ?_⟩
  rw [branch_of_bcu (congrArg _ hb)] at hx
  rw [hh n x hx]
  exact hs _ ht

theorem admKept_derive {d e : Part} (hb : e.bcu = d.bcu) : AdmKept d (deriveShed e) :=
  ⟨fun ⟨hq, _⟩ => queueSound.deriveShed (hq.of_same hb)⟩

theorem admKept_tuned {d d' : Part} (h : Tuned d d') : AdmKept d d' := by
  have he := h.shed
  simp only [Prod.mk.injEq] at he
  obtain ⟨-, hb, hc, -⟩ := he
  exact .of_same h.bcu (by unfold Sru.shed; rw [hb, hc])

theorem admKept_capacityRelease (d : Part) : AdmKept d (capacityRelease d) := by
  have h : AdmKept d (releaseShed { d with sru.capShed := 0, sru.capDeficitPosted := false }) := by
    refine admKept_release (by rfl) fun k hk => ?_
    simp only [Sru.shed, BitVec.getLsbD_or, Bool.or_eq_true] at hk ⊢
    exact hk.elim .inl fun h => by simp at h
  unfold capacityRelease
  simp only
  split
  · exact h
  · exact h.trans (admKept_post _ _ _ _)

theorem admKept_recomputeCapacity (d : Part) : AdmKept d (recomputeCapacity d) := by
  unfold recomputeCapacity
  simp only
  split
  · exact .refl d
  · refine .trans ?_ (admKept_tuned (examineCapacity_tuned _))
    refine .trans ?_ (admKept_tuned (signalOnce_tuned _ _))
    split
    · exact .trans (.of_same (by rfl) (by rfl)) (admKept_capacityRelease _)
    · exact .of_same (by rfl) (by rfl)

theorem admKept_beginEpisode (s : SourceState) (d : Part) : AdmKept d (beginEpisode s d) := by
  unfold beginEpisode
  exact .trans (admKept_derive (by rfl)) (admKept_post _ _ _ _)

theorem admKept_enterOnAc (d : Part) : AdmKept d (enterOnAc d) := by
  have h : AdmKept d (releaseShed { d with
      sru.source := .onAc, sru.stableTimer := .stopped, sru.tBattCounts := false
      sru.depletedFlag := false, sru.evaluatedOnAc := false
      sru.battShed := 0, sru.capShed := 0, sru.capDeficitPosted := false }) :=
    admKept_release (by rfl) fun k hk => by simp [Sru.shed] at hk
  exact (h.trans (admKept_tuned (signalOnce_tuned .attempt _))).trans (.of_same (by rfl) (by rfl))

theorem admKept_examineAc (d : Part) : AdmKept d (examineAc d) := by
  unfold examineAc
  split
  · exact .refl d
  · split
    · exact admKept_beginEpisode _ d
    · exact .refl d
  · split
    · exact .of_same (by rfl) (by rfl)
    · exact .refl d
  · split
    · exact .of_same (by rfl) (by rfl)
    · exact .refl d
  · split
    · exact .refl d
    · exact .trans (.of_same (by rfl) (by rfl)) (admKept_post _ _ _ _)

theorem admKept_qualify (d : Part) : AdmKept d (qualify d) := by
  unfold qualify
  simp only
  split
  · exact .trans (.trans (.of_same (by rfl) (by rfl)) (admKept_enterOnAc _)) (admKept_post _ _ _ _)
  · refine .trans (.trans ?_ (admKept_post _ _ _ _)) (admKept_beginEpisode _ _)
    exact .of_same (by rfl) (by rfl)

theorem admKept_shedDecision (u p : Nat) (d : Part) : AdmKept d (shedDecision u p d) := by
  unfold shedDecision
  split
  · simp only
    generalize selectTiers _ _ _ _ _ _ = r
    obtain ⟨sel, left, met⟩ := r
    refine admKept_derive ?_
    have h : (postShed 0 sel { d with sru.battShed := addTiers d.sru.battShed sel }).bcu = d.bcu :=
      postShed_bcu _ _ _
    simp only
    split
    · exact (post_unmoved _ _ _ _).bcu.trans h
    · exact h
  · exact .refl d

theorem admKept_deplete (d : Part) : AdmKept d (deplete d) := by
  unfold deplete
  refine .trans (.trans ?_ (admKept_post _ _ _ _)) (admKept_examineAc _)
  exact admKept_derive (by rfl)

theorem admKept_powered : Powered AdmKept where
  trans := .trans
  tuned := admKept_tuned
  post := admKept_post
  recomputeCapacity := admKept_recomputeCapacity
  examineAc := admKept_examineAc
  qualify d _ := admKept_qualify d
  shedDecision := admKept_shedDecision
  deplete d _ := admKept_deplete d

theorem admKept_capacityExpiry (d : Part) : AdmKept d (capacityExpiry d) := by
  unfold capacityExpiry
  split
  · simp only
    split
    · exact .of_same (by rfl) (by rfl)
    · generalize selectTiers _ _ _ _ _ _ = r
      obtain ⟨sel, left, met⟩ := r
      refine admKept_derive ?_
      have h : (postShed 1 sel { d with
          sru.capTimer := .stopped, sru.capShed := addTiers d.sru.capShed sel }).bcu = d.bcu :=
        postShed_bcu _ _ _
      simp only
      split
      · exact (post_unmoved _ _ _ _).bcu.trans h
      · exact h
  · exact .refl d

theorem admKept_stableExpiry (d : Part) : AdmKept d (stableExpiry d) := by
  unfold stableExpiry
  split
  · exact .trans (.trans (admKept_enterOnAc d) (admKept_post _ _ _ _)) (admKept_post _ _ _ _)
  · exact .refl d

/-! ## The BCU, the LKM and the SQE -/

theorem admKept_setFreshness (n : Nat) (v : Bool) (d : Part) : AdmKept d (setFreshness n v d) := by
  refine .of (fun h => h.setFreshness n v) ?_
  unfold setFreshness
  repeat' split
  · exact .refl d
  · exact .refl d
  · rename_i hx
    exact .put hx rfl

theorem admKept_powerReading (n : Nat) (v : Int) (c : ChanClass) (d : Part) :
    AdmKept d (powerReading n v c d) := by
  refine .of (fun h => h.powerReading n v c) ?_
  unfold powerReading
  repeat' split
  · exact .refl d
  · exact .refl d
  · rename_i hx
    exact .put hx rfl

theorem shedStands_tripNode (n : Nat) (d : Part) : ShedStands d (tripNode n d) :=
  foldl_rel ShedStands.refl ShedStands.trans _ (fun d b => .change d
    (fun x => by split <;> rfl) (fun x => by split <;> rfl)) _ d

theorem shedStands_branchClear (b : Nat) (d : Part) : ShedStands d (branchClear b d) := by
  unfold branchClear
  split
  · exact .refl d
  · rename_i x hx
    split
    · refine .trans ?_ (queueIfWanted_settled _ _).toShedStands
      refine .trans ?_ ((noteLoad_settled _ _).trans (signalOnce_settled _ _)).toShedStands
      exact .put hx rfl
    · exact .change d (fun _ => rfl) (fun _ => rfl)

/-- A fold over the branches that stores branches of the same tier and hold. -/
theorem admKept_tick (d : Part) : AdmKept d (tick d) := by
  refine .of (fun h => h.tick) ⟨?_, rfl⟩
  show (d.bcu.branches.map tickBranch).map _ = _
  rw [List.map_map]
  refine List.map_congr_left fun x _ => ?_
  cases x <;> rfl

/-! ## A Branch Table record -/

/-- Another entry at a place, with SHED as the sets say, keeps the holds what they say. -/
theorem shedHeld.set {d : Part} (h : shedHeld d) {n : Nat} {e : Option Branch}
    (he : ∀ x, e = some x → x.holds.shed = d.sru.shed.getLsbD x.cfg.tier) :
    shedHeld { d with bcu.branches := d.bcu.branches.set n e } := by
  by_cases hn : n < d.bcu.branches.length
  · intro m x hx
    rw [branch_set n m e d hn] at hx
    split at hx
    · exact he x hx
    · exact h m x hx
  · rw [List.set_eq_of_length_le (Nat.le_of_not_lt hn)]
    exact h

theorem rewritten_shed (d : Part) (x : Branch) (c : BranchCfg) :
    (x.rewritten d c).holds.shed = d.sru.shed.getLsbD c.tier := by
  unfold Branch.rewritten
  simp only
  split <;> rfl

theorem admKept_writeBranch (n : Nat) (ws : List Word) (d : Part) :
    AdmKept d (writeBranch n ws d).1 := by
  refine ⟨fun ⟨hq, hs⟩ => ⟨hq.writeBranch n ws, ?_⟩⟩
  have hw := writeBranch_cases n ws d
  generalize (writeBranch n ws d).1 = d' at hw ⊢
  cases hw with
  | none => exact hs
  | emptied x hx ho =>
    have hset : shedHeld { d with bcu.branches := d.bcu.branches.set n none } :=
      hs.set fun _ he => by cases he
    generalize ({ d with bcu.branches := d.bcu.branches.set n none } : Part) = e at hset ⊢
    have hf : shedHeld (forgetStages n e) := hset
    exact (signalOnce_settled _ _).toShedStands.held hf
  | added c hn => exact hs.set fun x he => by cases he; rfl
  | rewritten x c hx hc =>
    refine (rewriteBranch_after hx hc).toShedStands.held ?_
    have hf : shedHeld (forgetMoved n x c d) := by
      unfold forgetMoved
      split <;> exact hs
    refine hf.set fun y he => ?_
    cases he
    rw [rewritten_shed, Branch.rewritten_cfg]
    unfold forgetMoved
    split <;> rfl

/-! ## Every command -/

theorem admKept_heard : Heard AdmKept where
  trans := .trans
  unmoved h := .of_same h.bcu (by rw [h.sru])
  deriveModules := admKept_powered.deriveModules
  setFreshness := admKept_setFreshness
  examineZone z d := .of (queueKept_changed.examineZone queueKept_setCauses z d)
    (examineZone_leaked z d).toShedStands

theorem admKept_examineLine (d : Part) : AdmKept d (examineLine d) :=
  .of (queueKept_changed.examineLine queueKept_setCauses d) (examineLine_leaked d).toShedStands

theorem admKept_applyRecord (t : TableId) (n : Nat) (ws : List Word) (d : Part) :
    AdmKept d (applyRecord t n ws d).1 := by
  cases t with
  | slotMap => exact admKept_heard.writeSlot n ws d
  | limit => exact admKept_heard.writeLimit n ws d
  | rectifier => exact admKept_powered.writeRect n ws d
  | battery => exact admKept_powered.writeBatt n ws d
  | branch => exact admKept_writeBranch n ws d
  | sequence =>
    show AdmKept d (writeStep n ws d).1
    unfold writeStep
    split
    · exact .refl d
    · split <;> exact .of_same rfl rfl
  | leakPoint => exact admKept_heard.writePoint n ws d
  | leakZone =>
    show AdmKept d (writeZone n ws d).1
    rcases writeZone_cases n ws d with h | ⟨e, -, -, h⟩ <;> rw [h]
    · exact .refl d
    · refine .trans (.trans ?_ (admKept_heard.examineZone _ _)) (admKept_examineLine _)
      exact .of_same (by rfl) (by rfl)
  | profile => exact admKept_powered.writeProfile admKept_examineLine ws d

theorem admKept_protect (v : Bool) (table : Word) (banks : List Word) (d : Part) :
    AdmKept d (doProtect v table banks d).1 := by
  rcases doProtect_part v table banks d with e | ⟨-, _, e⟩ <;> rw [e] <;> exact .of_same rfl rfl

theorem admKept_carried : Carried AdmKept fun _ => True where
  toHeard := admKept_heard
  tick := admKept_tick
  powerReading := admKept_powerReading
  switchReading b c d := .of (fun h => h.switchReading b c) (switchReading_viewed b c d).toShedStands
  tripNode n d := .of (queueKept_changed.tripNode n d) (shedStands_tripNode n d)
  attempt d := .of (fun h => h.attempt) (attempt_settled d).toShedStands
  examine d := .of (queueKept_changed.examine queueKept_sqe d) (examine_settled d).toShedStands
  setCauses c d := .of (queueKept_setCauses c d) (setCauses_settled c d).toShedStands
  outcomeToBcu b n o d := .of (fun h => h.outcomeToBcu b n o) (outcomeToBcu_settled b n o d).toShedStands
  applyRecord := admKept_applyRecord
  branchAction b a d := .of (queueKept_changed.branchAction b a d)
    (.change d (fun _ => rfl) (fun _ => rfl))
  branchClear b d := .of (fun h => h.branchClear b) (shedStands_branchClear b d)
  startRun _ d _ := .of (fun h => h.startRun) (startRun_settled d).toShedStands
  abortRun d _ := .of (queueKept_changed.abortRun queueKept_sqe d) (abortRun_settled d).toShedStands
  leakAck z d := .of (queueKept_changed.leakAck queueKept_setCauses z d) (leakAck_leaked z d).toShedStands
  leakClear w _ d := .of (queueKept_changed.leakClear queueKept_setCauses w.toNat d)
    (leakClear_leaked w.toNat d).toShedStands
  protect t b _ d := admKept_protect true t b d
  unprotect t b _ d := admKept_protect false t b d
  freeze _ := .of_same rfl rfl

theorem queueSound.spacingExpiry {d : Part} (h : queueSound d) : queueSound (spacingExpiry d) := by
  unfold Machine.spacingExpiry
  split
  · exact queueSound.attempt (h.of_bcu (by rfl) (by rfl))
  · exact h

theorem admKept_inner {c : Instr} (hc : innerEvent c = true) (d : Part) : AdmKept d (effect c d) := by
  cases c
  case acfailInChange => exact admKept_examineAc d
  case leakInChange => exact admKept_examineLine d
  case admitTimerExpiry b =>
    exact .of (fun h => h.branchExpiry _ _ _) (branchExpiry_settled _ _ _ d).toShedStands
  case stopTimerExpiry b =>
    exact .of (fun h => h.branchExpiry _ _ _) (branchExpiry_settled _ _ _ d).toShedStands
  case spacingTimerExpiry => exact .of (fun h => h.spacingExpiry) (spacingExpiry_settled d).toShedStands
  case qualificationTimerExpiry => exact admKept_powered.qualificationExpiry d
  case stableTimerExpiry => exact admKept_stableExpiry d
  case capacityPersistenceExpiry => exact admKept_capacityExpiry d
  case evaluation => exact admKept_powered.evaluationExpiry d
  case stepTimerExpiry =>
    exact .of (queueKept_changed.stepExpiry queueKept_sqe d) (stepExpiry_settled d).toShedStands
  all_goals cases hc

/-- With no branch QUEUED and none SHED, an empty queue and empty shed sets the Admission Queue is sound. -/
theorem admissionSound_empty {d : Part} (hl : d.bcu.branches.length = 36) (hq : d.bcu.queue = [])
    (hs : d.sru.battShed = 0 ∧ d.sru.capShed = 0)
    (hb : ∀ n x, d.branch n = some x → x.state = .unknown ∧ x.holds.shed = false) :
    queueSound d ∧ shedHeld d := by
  refine ⟨⟨hl, by simp [hq], fun n _ => ?_, fun n x _ hx hst => ?_⟩, fun n x hx => ?_⟩
  · simp only [hq, List.not_mem_nil, false_iff]
    rintro ⟨x, hx, hst⟩
    rw [(hb n x hx).1] at hst
    cases hst
  · rw [(hb n x hx).1] at hst
    cases hst
  · simp [(hb n x hx).2, Sru.shed, hs.1, hs.2]

theorem softReset_admission {d : Part} (h : d.bcu.branches.length = 36) :
    queueSound (softReset d) ∧ shedHeld (softReset d) := by
  rw [softReset_eq]
  refine (admKept_examineLine _).kept (admissionSound_empty ?_ rfl ⟨rfl, rfl⟩ fun n x hx => ?_)
  · show ((ruleTable d .branch d.bcu.branches).map _).length = 36
    simp [ruleTable, h]
  · have hx' : entry ((ruleTable d .branch d.bcu.branches).map
        (Option.map (resetBranch (resetBlocks d)))) n = some x := hx
    rw [← entry_map] at hx'
    obtain ⟨y, -, rfl⟩ := Option.map_eq_some_iff.mp hx'
    exact ⟨rfl, by simp [resetBranch, Branch.begin, shedHold, Sru.shed, resetBlocks, resetSru, Sru.powerOn]⟩

/-- Settles O56: every command keeps the Admission Queue sound, or is a reset that empties it. -/
theorem stepKeepsAdmissionQueue : Obligations.StepKeepsAdmissionQueue := by
  intro s t
  refine step_keeps fun c s t hs h => ?_
  rw [admissionSound_iff] at hs ⊢
  by_cases hp : c = .powerOnReset
  · subst hp
    rw [exec_powerOnReset h]
    refine admissionSound_empty (by rfl) rfl ⟨rfl, rfl⟩ fun n x hx => ?_
    have : entry (List.replicate 36 (none : Option Branch)) n = some x := hx
    rw [entry_replicate_none] at this
    cases this
  · rcases admKept_carried.exec_or_reset hp (fun hi => admKept_inner hi) (fun _ _ => trivial) h
      with hm | ⟨d, hd, ht⟩
    · exact hm.kept hs
    · have hr := softReset_admission (d := d) (by rw [hd.bcu]; exact hs.1.length)
      rw [ht, complete_softReset, ← softReset_eq]
      have hset := (admKept_carried.settleAll (softReset d)).kept hr
      exact (AdmKept.of_same (by rfl) (by rfl)).kept hset

end Sys2Proof.Machine

/-! PROOFS. Table records as words: when a record parses, and that the words of an entry parse to it (R174, R181);
the RANGE refusals of each table (R173). -/

namespace Sys2Proof.Machine

-- One proof after another: proofs that are checked side by side take a thread each.
set_option Elab.async false

/-! ## Parsers that fail -/

/-- The parser refuses a field. -/
def Fails {α : Type} (e : Except Nat α) : Prop := ∃ f, e = .error f

section
variable {α β : Type}

@[simp] theorem fails_ok (a : α) : ¬ Fails (.ok a : Except Nat α) := by
  rintro ⟨f, h⟩
  cases h

@[simp] theorem fails_pure (a : α) : ¬ Fails (pure a : Except Nat α) := fails_ok a

@[simp] theorem fails_error (f : Nat) : Fails (.error f : Except Nat α) := ⟨f, rfl⟩

@[simp] theorem ok_bind (b : β) (g : β → Except Nat α) : (.ok b >>= g) = g b := rfl

@[simp] theorem fails_error_bind (f : Nat) (g : β → Except Nat α) : Fails (.error f >>= g) := ⟨f, rfl⟩

@[simp] theorem fails_need (i : Nat) (c : Bool) (g : Unit → Except Nat α) :
    Fails (need i c >>= g) ↔ c = false ∨ Fails (g ()) := by
  cases c with
  | false => exact ⟨fun _ => .inl rfl, fun _ => ⟨i, rfl⟩⟩
  | true => exact ⟨.inr, fun h => h.elim nofun id⟩

@[simp] theorem fails_needSome (i : Nat) (o : Option β) (g : β → Except Nat α) :
    Fails (needSome i o >>= g) ↔ o = none ∨ ∃ b, o = some b ∧ Fails (g b) := by
  cases o with
  | none => exact ⟨fun _ => .inl rfl, fun _ => ⟨i, rfl⟩⟩
  | some b => exact ⟨fun h => .inr ⟨b, rfl, h⟩, by rintro (h | ⟨c, h, hc⟩) <;> cases h; exact hc⟩

@[simp] theorem fails_flagOf (i n : Nat) (g : Bool → Except Nat α) :
    Fails (flagOf i n >>= g) ↔ 1 < n ∨ Fails (g (n == 1)) := by
  unfold flagOf
  rcases n with _ | _ | n
  · exact ⟨.inr, fun h => h.elim (by omega) id⟩
  · exact ⟨.inr, fun h => h.elim (by omega) id⟩
  · exact ⟨fun _ => .inl (by omega), fun _ => ⟨i, rfl⟩⟩

@[simp] theorem fails_ifValid (ws : List Word) (e : Except Nat α) :
    Fails (ifValid ws e) ↔ validBit ws = true ∧ Fails e := by
  unfold ifValid
  split
  · rename_i hv
    cases e <;> simp [hv, Fails, Except.map]
  · rename_i hv
    simp [hv]

theorem needBranch_eq (ws : List Word) (i : Nat) (c : Bool) :
    needBranch ws i c = need i (c || (!validBit ws && word ws i == 0xFFFF)) := rfl

end

@[simp] theorem isNode_eq_false (n : Nat) : isNode n = false ↔ ¬ (1 ≤ n ∧ n ≤ 62) := by
  unfold isNode
  simp

theorem isNode_of {n : Nat} (h : 1 ≤ n) (h' : n ≤ 62) : isNode n = true := by
  simp [isNode, h, h']

/-! ## Codes that are none -/

theorem channelKind_ofCode_none (n : Nat) : ChannelKind.ofCode n = none ↔ 10 < n :=
  List.getElem?_eq_none_iff

theorem forwardMode_ofCode_none (n : Nat) : ForwardMode.ofCode n = none ↔ 3 < n :=
  List.getElem?_eq_none_iff

theorem tripAction_ofCode_none (n : Nat) : TripAction.ofCode n = none ↔ 2 < n :=
  List.getElem?_eq_none_iff

theorem stepKind_ofCode_none (n : Nat) : StepKind.ofCode n = none ↔ 5 < n :=
  List.getElem?_eq_none_iff

theorem policy_ofCode_none (n : Nat) : Policy.ofCode n = none ↔ 1 < n :=
  List.getElem?_eq_none_iff

theorem stepKind_usesGroup {n : Nat} {k : StepKind} (h : StepKind.ofCode n = some k) :
    k.usesGroup = true ↔ n ≤ 2 := by
  obtain ⟨hlt, rfl⟩ := List.getElem?_eq_some_iff.mp h
  revert n
  decide

/-- What is asked of the value of a code, and does not depend on it. -/
theorem exists_code {α : Type} {o : Option α} {q : Prop} : (∃ b, o = some b ∧ q) ↔ ¬ o = none ∧ q := by
  cases o <;> simp

/-! ## The thresholds of a Limit Table record -/

/-- The check of the order passes exactly when the present thresholds are in order. -/
theorem lastOutOfOrder_none (i : Nat) (top : Option Int) (ts : List (Option Int)) :
    lastOutOfOrder i top ts = none ↔
      (∀ m, top = some m → ∀ t ∈ ts.filterMap id, m ≤ t) ∧ (ts.filterMap id).Pairwise (· ≤ ·) := by
  induction ts generalizing i top with
  | nil => simp [lastOutOfOrder]
  | cons t ts ih =>
    cases t with
    | none => simpa [lastOutOfOrder] using ih (i + 1) top
    | some t =>
      unfold lastOutOfOrder
      cases top with
      | none => simp [ih]
      | some m =>
        by_cases hlt : t < m
        · have hne : ∀ o : Option Nat, (o.orElse fun _ => some i) ≠ none := by
            intro o
            cases o <;> simp
          simp only [hlt, if_true, hne, false_iff, Option.some.injEq, forall_eq']
          intro h
          have := h.1 t (by simp)
          omega
        · simp only [if_neg hlt, ih, Option.some.injEq, forall_eq', id_eq, List.filterMap_cons_some,
            List.mem_cons, forall_eq_or_imp, List.pairwise_cons]
          constructor
          · rintro ⟨h, hp⟩
            exact ⟨⟨by omega, fun a ha => le_trans (by omega) (h a ha)⟩, h, hp⟩
          · rintro ⟨-, h, hp⟩
            exact ⟨h, hp⟩

/-- Two present thresholds of a record are out of order. -/
def outOfOrder (ws : List Word) : Prop :=
  ∃ i j, 1 ≤ i ∧ i < j ∧ j ≤ 4 ∧ (ws[0]?.getD 0).getLsbD i = true ∧
    (ws[0]?.getD 0).getLsbD j = true ∧ (ws[j]?.getD 0).toInt < (ws[i]?.getD 0).toInt

/-- The thresholds of a record, in the order of its words. -/
def thresholds (ws : List Word) : List (Option Int) :=
  [threshold ws 1, threshold ws 2, threshold ws 3, threshold ws 4]

theorem thresholds_getElem (ws : List Word) {i : Nat} (h : i < 4) :
    (thresholds ws)[i]'h = threshold ws (i + 1) := by
  interval_cases i <;> rfl

theorem threshold_some {ws : List Word} {i : Nat} {t : Int} : threshold ws i = some t ↔
    (ws[0]?.getD 0).getLsbD i = true ∧ (ws[i]?.getD 0).toInt = t := by
  unfold threshold
  split
  · exact ⟨fun h => ⟨‹_›, Option.some.inj h⟩, fun h => congrArg some h.2⟩
  · exact ⟨nofun, fun h => absurd h.1 ‹_›⟩

theorem outOfOrder_iff (ws : List Word) :
    (∃ i, lastOutOfOrder 1 none (thresholds ws) = some i) ↔ outOfOrder ws := by
  rw [← Option.isSome_iff_exists, ← Option.ne_none_iff_isSome, ne_eq, lastOutOfOrder_none,
    List.pairwise_filterMap, List.pairwise_iff_getElem]
  simp only [reduceCtorEq, false_implies, implies_true, true_and, not_forall, id_eq]
  constructor
  · rintro ⟨i, j, hi, hj, hij, t, ht, u, hu, hlt⟩
    rw [thresholds_getElem ws hi, threshold_some] at ht
    rw [thresholds_getElem ws hj, threshold_some] at hu
    obtain ⟨hbi, rfl⟩ := ht
    obtain ⟨hbj, rfl⟩ := hu
    have hj' : j < 4 := hj
    exact ⟨i + 1, j + 1, by omega, by omega, by omega, hbi, hbj, by omega⟩
  · rintro ⟨i, j, hi, hij, hj, hbi, hbj, hlt⟩
    obtain ⟨i, rfl⟩ : ∃ k, i = k + 1 := ⟨i - 1, by omega⟩
    obtain ⟨j, rfl⟩ : ∃ k, j = k + 1 := ⟨j - 1, by omega⟩
    have hi4 : i < (thresholds ws).length := by show i < 4; omega
    have hj4 : j < (thresholds ws).length := by show j < 4; omega
    refine ⟨i, j, hi4, hj4, by omega, _, (thresholds_getElem ws hi4).trans
      (threshold_some.mpr ⟨hbi, rfl⟩), _, (thresholds_getElem ws hj4).trans
      (threshold_some.mpr ⟨hbj, rfl⟩), by omega⟩

/-! ## When a record is refused -/

theorem parseSlot_fails (ws : List Word) : Fails (parseSlot ws) ↔ validBit ws = true ∧
    (1 < word ws 1 ∨ ¬ (1 ≤ word ws 2 ∧ word ws 2 ≤ 62) ∨
      (word ws 1 = 0 ∧ (10 < word ws 3 ∨ (word ws 4 ≠ 65535 ∧ 47 < word ws 4))) ∨
      (word ws 1 = 1 ∧ (word ws 3 ≠ 65535 ∨ word ws 4 ≠ 65535))) := by
  unfold parseSlot
  rw [fails_ifValid]
  refine and_congr_right fun _ => ?_
  simp only [fails_need, decide_eq_false_iff_not, not_le, isNode_eq_false]
  refine or_congr_right' fun h1 => or_congr_right ?_
  split
  · rename_i h0
    simp only [fails_needSome, fails_need, fails_pure, or_false, exists_code, channelKind_ofCode_none,
      decide_eq_false_iff_not, h0,
      true_and, zero_ne_one, false_and]
    omega
  · simp only [fails_need, fails_pure, or_false, decide_eq_false_iff_not]
    omega

theorem parseLimit_fails (ws : List Word) : Fails (parseLimit ws) ↔ validBit ws = true ∧
    (32767 < word ws 5 ∨ word ws 6 < 1 ∨ 255 < word ws 6 ∨ word ws 7 < 1 ∨ 1000 < word ws 7 ∨
      3 < word ws 8 ∨ 32767 < word ws 9 ∨ 2 < word ws 10 ∨ outOfOrder ws) := by
  unfold parseLimit
  rw [fails_ifValid, ← outOfOrder_iff]
  refine and_congr_right fun _ => ?_
  dsimp only
  rw [show [threshold ws 1, threshold ws 2, threshold ws 3, threshold ws 4] = thresholds ws from rfl]
  cases lastOutOfOrder 1 none (thresholds ws) with
  | some i => simp
  | none =>
    simp only [ok_bind, reduceCtorEq, exists_false, fails_needSome, fails_need, fails_pure, exists_code,
      forwardMode_ofCode_none, tripAction_ofCode_none, decide_eq_false_iff_not, and_false, or_false]
    omega

theorem parseRect_fails (ws : List Word) : Fails (parseRect ws) ↔ validBit ws = true ∧
    (¬ (1 ≤ word ws 1 ∧ word ws 1 ≤ 62) ∨ word ws 2 < 500 ∨ 8000 < word ws 2) := by
  unfold parseRect
  simp only [fails_ifValid, fails_need, fails_pure, or_false, isNode_eq_false, decide_eq_false_iff_not]
  refine and_congr_right fun _ => ?_
  omega

theorem parseBatt_fails (ws : List Word) : Fails (parseBatt ws) ↔ validBit ws = true ∧
    ¬ (1 ≤ word ws 1 ∧ word ws 1 ≤ 62) := by
  unfold parseBatt
  simp only [fails_ifValid, fails_need, fails_pure, or_false, isNode_eq_false]

theorem parseBranch_fails (ws : List Word) :
    let excused := fun i => ¬ validBit ws = true ∧ word ws i = 65535
    Fails (parseBranch ws) ↔ (¬ (1 ≤ word ws 1 ∧ word ws 1 ≤ 62) ∧ ¬ excused 1) ∨
      (8000 < word ws 2 ∧ ¬ excused 2) ∨ (8 < word ws 3 ∧ ¬ excused 3) ∨
      (7 < word ws 4 ∧ ¬ excused 4) ∨ (15 < word ws 5 ∧ ¬ excused 5) := by
  unfold parseBranch
  simp only [needBranch_eq, fails_need, fails_pure, or_false, Bool.or_eq_false_iff, isNode_eq_false,
    decide_eq_false_iff_not, Bool.and_eq_false_iff, Bool.not_eq_false', beq_eq_false_iff_ne, not_le,
    not_and_or, not_not, ne_eq]

theorem parseStep_fails (ws : List Word) : Fails (parseStep ws) ↔ validBit ws = true ∧
    (5 < word ws 1 ∨ 15 < word ws 2 ∨ (word ws 1 ≤ 2 ∧ word ws 2 = 0) ∨ 1 < word ws 4 ∨
      255 < word ws 5) := by
  unfold parseStep
  rw [fails_ifValid]
  refine and_congr_right fun _ => ?_
  simp only [fails_needSome, fails_need, fails_pure, or_false, decide_eq_false_iff_not, exists_code,
    policy_ofCode_none, ← stepKind_ofCode_none (word ws 1)]
  refine or_congr_right' fun h => ?_
  obtain ⟨k, hk⟩ := Option.ne_none_iff_exists'.mp h
  simp only [hk, Option.some.injEq, exists_eq_left', stepKind_usesGroup hk]
  omega

theorem parsePoint_fails (ws : List Word) : Fails (parsePoint ws) ↔ validBit ws = true ∧
    (¬ (1 ≤ word ws 1 ∧ word ws 1 ≤ 62) ∨ 95 < word ws 2 ∨ 7 < word ws 3 ∨ 4095 < word ws 4 ∨
      word ws 5 < 1 ∨ 4095 < word ws 5 ∨ word ws 5 ≤ word ws 4 ∨ word ws 6 < 1 ∨ 255 < word ws 6) := by
  unfold parsePoint
  simp only [fails_ifValid, fails_need, fails_pure, or_false, isNode_eq_false, decide_eq_false_iff_not]
  refine and_congr_right fun _ => ?_
  omega

theorem parseZone_fails (ws : List Word) : Fails (parseZone ws) ↔ validBit ws = true ∧
    (word ws 1 < 1 ∨ 4 < word ws 1 ∨ 1 < word ws 2 ∨ 1 < word ws 3 ∨ 1 < word ws 4) := by
  unfold parseZone
  simp only [fails_ifValid, fails_need, fails_flagOf, fails_pure, or_false, decide_eq_false_iff_not]
  refine and_congr_right fun _ => ?_
  omega

end Sys2Proof.Machine

/-! PROOFS. The RANGE refusals of the nine tables, and the clamping of the Power Profile (R173). -/

namespace Sys2Proof.Machine

-- One proof after another: proofs that are checked side by side take a thread each.
set_option Elab.async false

/-- The record is refused with RANGE and leaves the part alone. -/
def refusesRange (d : Part) (o : Part × Verdict) : Prop := ∃ f, o = (d, .refused .range (some f))

/-- A record is refused with RANGE exactly when it does not parse: no later check answers RANGE. -/
theorem refusesRange_iff {α : Type} {e : Except Nat α} {d : Part} {o : Part × Verdict}
    (herr : ∀ f, e = .error f → o = (d, .refused .range (some f)))
    (hok : ∀ a, e = .ok a → ∀ f, o.2 ≠ .refused .range f) : refusesRange d o ↔ Fails e := by
  cases e with
  | error f => exact ⟨fun _ => ⟨f, rfl⟩, fun _ => ⟨f, herr f rfl⟩⟩
  | ok a =>
    refine ⟨fun ⟨f, h⟩ => absurd (by rw [h]) (hok a rfl (some f)), fun h => absurd h (fails_ok a)⟩

section
variable (d : Part) (n : Nat) (ws : List Word)

theorem writeSlot_refuses : refusesRange d (writeSlot n ws d) ↔ Fails (parseSlot ws) := by
  refine refusesRange_iff (fun f h => by simp [writeSlot, h]) fun e h f => ?_
  unfold writeSlot
  rw [h]
  rcases e with _ | ⟨_ | _⟩ <;> simp only <;> (try split) <;> simp

theorem writeLimit_refuses : refusesRange d (writeLimit n ws d) ↔ Fails (parseLimit ws) := by
  refine refusesRange_iff (fun f h => by simp [writeLimit, h]) fun e h f => ?_
  unfold writeLimit
  rw [h]
  simp only
  split <;> simp

theorem writeRect_refuses : refusesRange d (writeRect n ws d) ↔ Fails (parseRect ws) := by
  refine refusesRange_iff (fun f h => by simp [writeRect, h]) fun e h f => ?_
  unfold writeRect
  rw [h]
  rcases e with _ | ⟨node, rated⟩ <;> simp only <;> repeat' split
  all_goals simp

theorem writeBatt_refuses : refusesRange d (writeBatt n ws d) ↔ Fails (parseBatt ws) := by
  refine refusesRange_iff (fun f h => by simp [writeBatt, h]) fun e h f => ?_
  unfold writeBatt
  rw [h]
  rcases e with _ | node <;> simp only <;> repeat' split
  all_goals simp

theorem writeBranch_refuses : refusesRange d (writeBranch n ws d) ↔ Fails (parseBranch ws) := by
  refine refusesRange_iff (fun f h => by simp [writeBranch, h]) fun e h f => ?_
  unfold writeBranch
  rw [h]
  rcases e with _ | c <;> simp only <;> repeat' split
  all_goals simp

theorem writeStep_refuses : refusesRange d (writeStep n ws d) ↔ Fails (parseStep ws) := by
  refine refusesRange_iff (fun f h => by simp [writeStep, h]) fun e h f => ?_
  unfold writeStep
  rw [h]
  simp only
  split <;> simp

theorem writePoint_refuses : refusesRange d (writePoint n ws d) ↔ Fails (parsePoint ws) := by
  refine refusesRange_iff (fun f h => by simp [writePoint, h]) fun e h f => ?_
  unfold writePoint
  rw [h]
  rcases e with _ | c <;> simp only <;> repeat' split
  all_goals simp

theorem writeZone_refuses : refusesRange d (writeZone n ws d) ↔ Fails (parseZone ws) := by
  refine refusesRange_iff (fun f h => by simp [writeZone, h]) fun e h f => ?_
  unfold writeZone
  rw [h]
  simp only
  repeat' split
  all_goals simp

end

/-! ## The Power Profile -/

/-- A changed Power Profile field acts through operations that leave the profile as it was written. -/
theorem profileChanged_profile (p : Profile) (d : Part) :
    (profileChanged p d).sru.profile = d.sru.profile := by
  have keepOr (c : Prop) [Decidable c] {a b e : Part} (h : b.sru.config = a.sru.config)
      (g : e.sru.config = b.sru.config) : (if c then b else e).sru.config = a.sru.config := by
    split
    · exact h
    · exact g.trans h
  have whenever (c : Prop) [Decidable c] {a b e : Part} (h : b.sru.config = a.sru.config)
      (g : e.sru.config = b.sru.config) : (if c then e else b).sru.config = a.sru.config := by
    split
    · exact g.trans h
    · exact h
  refine congrArg Prod.fst (?_ : (profileChanged p d).sru.config = d.sru.config)
  unfold profileChanged
  simp only
  refine keepOr _ ?_ (examineLine_leaked _).sruConfig
  refine whenever _ ?_ (signalOnce_settled _ _).sruConfig
  refine keepOr _ ?_ (deriveBatts_sourced _).sruConfig
  refine keepOr _ ?_ (examineAc_sourced _).sruConfig
  exact keepOr _ rfl (recomputeCapacity_sourced d).sruConfig

theorem writeProfile_profile (ws : List Word) (d : Part) :
    (writeProfile ws d).1.sru.profile = (parseProfile ws).1 := by
  unfold writeProfile
  generalize parseProfile ws = r
  obtain ⟨p, f⟩ := r
  cases f <;> exact profileChanged_profile _ _

theorem writeProfile_verdict (ws : List Word) (d : Part) : (writeProfile ws d).2 =
    match (parseProfile ws).2 with
    | some f => .clamped f
    | none => .accepted := by
  unfold writeProfile
  generalize parseProfile ws = r
  obtain ⟨p, f⟩ := r
  cases f <;> rfl

theorem parseProfile_valid {ws : List Word} (h : validBit ws = true) :
    (parseProfile ws).1 = ⟨clampWord ws 1 2 10000, clampWord ws 2 2 16, clampWord ws 3 0 15,
      clampWord ws 4 100 30000, clampWord ws 5 0 5000, word ws 6 != 0, clampWord ws 7 0 5000,
      if word ws 8 = 0 then .plain else .nPlusOne, clampWord ws 9 1 8, clampWord ws 10 50 30000,
      clampWord ws 11 100 60000, clampWord ws 12 10 10000, clampWord ws 13 10 1000, word ws 14,
      clampWord ws 15 500 1000, clampWord ws 16 1 3600, clampWord ws 17 0 500,
      clampWord ws 18 0 3600, if word ws 19 < 8 then some (word ws 19) else none⟩ := by
  unfold parseProfile
  rw [if_pos h]

theorem parseProfile_invalid {ws : List Word} (h : ¬ validBit ws = true) :
    parseProfile ws = (Profile.default, none) := by
  unfold parseProfile
  rw [if_neg h]

/-- Settles O47: a record is refused with RANGE where it does not parse, and the profile is clamped. -/
theorem recordRanges : Obligations.RecordRanges := by
  intro d n ws
  refine ⟨(writeSlot_refuses d n ws).trans (parseSlot_fails ws),
    (writeLimit_refuses d n ws).trans (parseLimit_fails ws),
    (writeRect_refuses d n ws).trans (parseRect_fails ws),
    (writeBatt_refuses d n ws).trans (parseBatt_fails ws),
    (writeBranch_refuses d n ws).trans (parseBranch_fails ws),
    (writeStep_refuses d n ws).trans (parseStep_fails ws),
    (writePoint_refuses d n ws).trans (parsePoint_fails ws),
    (writeZone_refuses d n ws).trans (parseZone_fails ws), ?_, fun hv => ?_, fun hv => ?_⟩
  · intro st f
    rw [writeProfile_verdict]
    split <;> exact nofun
  · rw [writeProfile_profile, writeProfile_verdict, parseProfile_invalid hv]
    exact ⟨rfl, rfl⟩
  · rw [writeProfile_profile, parseProfile_valid hv]
    have h19 : (word ws 19 < 8) = (word ws 19 ≤ 7) := propext Nat.lt_succ_iff
    simp only [h19]
    rfl

end Sys2Proof.Machine

/-! PROOFS. The words of an entry parse to the entry (R174, R181). -/

namespace Sys2Proof.Machine

-- One proof after another: proofs that are checked side by side take a thread each.
set_option Elab.async false

/-! ## Words of a record -/

theorem natWord_toNat {n : Nat} (h : n < 65536) : (natWord n).toNat = n := by
  simp [natWord, Nat.mod_eq_of_lt h]

@[simp] theorem need_true (i : Nat) : need i true = .ok () := rfl

@[simp] theorem needSome_some {α : Type} (i : Nat) (a : α) : needSome i (some a) = .ok a := rfl

@[simp] theorem flagOf_flag (i : Nat) (b : Bool) : flagOf i (flag b) = .ok b := by cases b <;> rfl

theorem flag_le (b : Bool) : flag b ≤ 1 := by cases b <;> decide

theorem ifValid_ok {α : Type} {ws : List Word} {e : Except Nat α} {a : α} (h : validBit ws = true)
    (he : e = .ok a) : ifValid ws e = .ok (some a) := by
  subst he
  simp [ifValid, h, Except.map]

theorem validBit_one (ws : List Word) : validBit (1 :: ws) = true := by
  show (1#16).getLsbD 0 = true
  decide

theorem ifValid_empty {α : Type} {ws : List Word} {e : Except Nat α} (h : validBit ws = false) :
    ifValid ws e = .ok none := by
  simp [ifValid, h]

/-- Word `i` of a record in which a number stands there. -/
theorem word_natWord {ws : List Word} {i n : Nat} (h : ws[i]? = some (natWord n)) (hn : n < 65536) :
    word ws i = n := by
  simp [word, h, natWord_toNat hn]

theorem word_absent {ws : List Word} {i : Nat} (h : ws[i]? = some absentWord) : word ws i = 65535 := by
  simp [word, h, absentWord]

theorem word_optWord {ws : List Word} {i : Nat} {o : Option Nat} (h : ws[i]? = some (optWord o))
    (ho : ∀ n, o = some n → n < 65536) : word ws i = o.getD 65535 := by
  cases o with
  | none => exact word_absent h
  | some n => exact word_natWord h (ho n rfl)

@[simp] theorem channelKind_ofCode_code (k : ChannelKind) : ChannelKind.ofCode k.code = some k := by
  cases k <;> rfl

@[simp] theorem forwardMode_ofCode_code (m : ForwardMode) : ForwardMode.ofCode m.code = some m := by
  cases m <;> rfl

@[simp] theorem tripAction_ofCode_code (a : TripAction) : TripAction.ofCode a.code = some a := by
  cases a <;> rfl

@[simp] theorem stepKind_ofCode_code (k : StepKind) : StepKind.ofCode k.code = some k := by
  cases k <;> rfl

@[simp] theorem policy_ofCode_code (p : Policy) : Policy.ofCode p.code = some p := by
  cases p <;> rfl

theorem channelKind_code_lt (k : ChannelKind) : k.code < 65536 := by cases k <;> decide

theorem forwardMode_code_lt (m : ForwardMode) : m.code < 65536 := by cases m <;> decide

theorem tripAction_code_lt (a : TripAction) : a.code < 65536 := by cases a <;> decide

theorem stepKind_code_lt (k : StepKind) : k.code < 65536 := by cases k <;> decide

theorem policy_code_lt (p : Policy) : p.code < 65536 := by cases p <;> decide

/-! ## The tables without thresholds -/

theorem parseSlot_input {node : Nat} {kind : ChannelKind} {limit : Option Nat} (h : 1 ≤ node)
    (h' : node ≤ 62) (hl : ∀ n, limit = some n → n < 48) :
    parseSlot (slotWords (some (.input node kind limit))) = .ok (some (.input node kind limit)) := by
  have hn : node < 65536 := by omega
  refine ifValid_ok (validBit_one _) ?_
  generalize hw : slotWords (some (.input node kind limit)) = ws
  have h1 : word ws 1 = 0 := by subst hw; rfl
  have h2 : word ws 2 = node := word_natWord (by subst hw; rfl) hn
  have h3 : word ws 3 = kind.code := word_natWord (by subst hw; rfl) (channelKind_code_lt kind)
  have h4 : word ws 4 = limit.getD 65535 :=
    word_optWord (by subst hw; rfl) fun n hn => (hl n hn).trans (by decide)
  rw [h1, h2, h3, h4, isNode_of h h', channelKind_ofCode_code]
  cases limit with
  | none => rfl
  | some n =>
    have := hl n rfl
    have hne : n ≠ 65535 := by omega
    simp only [need_true, ok_bind, decide_true, zero_le, if_true, needSome_some, Option.getD_some, hne, this,
      false_or, if_false]
    rfl

theorem parseSlot_output {node : Nat} (h : 1 ≤ node) (h' : node ≤ 62) :
    parseSlot (slotWords (some (.output node))) = .ok (some (.output node)) := by
  have hn : node < 65536 := by omega
  refine ifValid_ok (validBit_one _) ?_
  generalize hw : slotWords (some (.output node)) = ws
  have h1 : word ws 1 = 1 := by subst hw; rfl
  have h2 : word ws 2 = node := word_natWord (by subst hw; rfl) hn
  have h3 : word ws 3 = 65535 := by subst hw; rfl
  have h4 : word ws 4 = 65535 := by subst hw; rfl
  rw [h1, h2, h3, h4, isNode_of h h']
  rfl

theorem parseRect_words {r : Rectifier} (h : 1 ≤ r.node) (h' : r.node ≤ 62) (hr : 500 ≤ r.ratedW)
    (hr' : r.ratedW ≤ 8000) : parseRect (rectWords (some r)) = .ok (some (r.node, r.ratedW)) := by
  refine ifValid_ok (validBit_one _) ?_
  have h1 : word (rectWords (some r)) 1 = r.node := word_natWord rfl (by omega)
  have h2 : word (rectWords (some r)) 2 = r.ratedW := word_natWord rfl (by omega)
  simp only [h1, h2, isNode_of h h', hr, hr', and_self, decide_true, need_true]
  rfl

theorem parseBatt_words {b : Battery} (h : 1 ≤ b.node) (h' : b.node ≤ 62) :
    parseBatt (battWords (some b)) = .ok (some b.node) := by
  refine ifValid_ok (validBit_one _) ?_
  have h1 : word (battWords (some b)) 1 = b.node := word_natWord rfl (by omega)
  simp only [h1, isNode_of h h', need_true]
  rfl

theorem parseBranch_words {x : Branch} (h : 1 ≤ x.cfg.node) (h' : x.cfg.node ≤ 62)
    (hr : x.cfg.ratedW ≤ 8000) (hz : ∀ z, x.cfg.zone = some z → z ≤ 7) (ht : x.cfg.tier ≤ 7)
    (hg : x.cfg.group ≤ 15) : parseBranch (branchWords (some x)) = .ok (some x.cfg) := by
  have hz8 : x.cfg.zone.getD 8 ≤ 8 := by
    rcases hx : x.cfg.zone with _ | z
    · exact le_refl 8
    · exact (hz z hx).trans (by decide)
  have hv : validBit (branchWords (some x)) = true := validBit_one _
  have h1 : word (branchWords (some x)) 1 = x.cfg.node := word_natWord rfl (by omega)
  have h2 : word (branchWords (some x)) 2 = x.cfg.ratedW := word_natWord rfl (by omega)
  have h3 : word (branchWords (some x)) 3 = x.cfg.zone.getD 8 := word_natWord rfl (by omega)
  have h4 : word (branchWords (some x)) 4 = x.cfg.tier := word_natWord rfl (by omega)
  have h5 : word (branchWords (some x)) 5 = x.cfg.group := word_natWord rfl (by omega)
  have hzone : (if x.cfg.zone.getD 8 = 8 then none else some (x.cfg.zone.getD 8)) = x.cfg.zone := by
    rcases hx : x.cfg.zone with _ | z
    · rfl
    · have := hz z hx
      have hne : z ≠ 8 := by omega
      simp [hne]
  simp only [parseBranch, needBranch, branchFields, h1, h2, h3, h4, h5, hv, isNode_of h h', hr, hz8, ht, hg,
    hzone, decide_true, Bool.true_or, need_true, ok_bind, if_true]
  rfl

theorem parseStep_words {e : SeqStep} (hg : e.group ≤ 15) (hu : e.kind.usesGroup = true → 1 ≤ e.group)
    (ht : e.timeMs ≤ 65535) (hc : e.code ≤ 255) : parseStep (stepWords (some e)) = .ok (some e) := by
  refine ifValid_ok (validBit_one _) ?_
  have h1 : word (stepWords (some e)) 1 = e.kind.code := word_natWord rfl (stepKind_code_lt _)
  have h2 : word (stepWords (some e)) 2 = e.group := word_natWord rfl (by omega)
  have h3 : word (stepWords (some e)) 3 = e.timeMs := word_natWord rfl (by omega)
  have h4 : word (stepWords (some e)) 4 = e.policy.code := word_natWord rfl (policy_code_lt _)
  have h5 : word (stepWords (some e)) 5 = e.code := word_natWord rfl (by omega)
  have hgu : ¬ (e.kind.usesGroup = true ∧ e.group = 0) := fun ⟨hk, h0⟩ => by
    have := hu hk
    omega
  simp only [h1, h2, h3, h4, h5, stepKind_ofCode_code, policy_ofCode_code, hg, hgu, hc, not_false_eq_true,
    and_self, decide_true, need_true, needSome_some, ok_bind]
  rfl

theorem parsePoint_words {p : Point} (h : 1 ≤ p.cfg.node) (h' : p.cfg.node ≤ 62) (hs : p.cfg.slot ≤ 95)
    (hz : p.cfg.zone ≤ 7) (hwf : p.cfg.wetLevel < p.cfg.faultLevel) (hf : p.cfg.faultLevel ≤ 4095)
    (hd : 1 ≤ p.cfg.debounce) (hd' : p.cfg.debounce ≤ 255) :
    parsePoint (pointWords (some p)) = .ok (some p.cfg) := by
  refine ifValid_ok (validBit_one _) ?_
  have h1 : word (pointWords (some p)) 1 = p.cfg.node := word_natWord rfl (by omega)
  have h2 : word (pointWords (some p)) 2 = p.cfg.slot := word_natWord rfl (by omega)
  have h3 : word (pointWords (some p)) 3 = p.cfg.zone := word_natWord rfl (by omega)
  have h4 : word (pointWords (some p)) 4 = p.cfg.wetLevel := word_natWord rfl (by omega)
  have h5 : word (pointWords (some p)) 5 = p.cfg.faultLevel := word_natWord rfl (by omega)
  have h6 : word (pointWords (some p)) 6 = p.cfg.debounce := word_natWord rfl (by omega)
  have hw : p.cfg.wetLevel ≤ 4095 := by omega
  have hf1 : 1 ≤ p.cfg.faultLevel := by omega
  simp only [h1, h2, h3, h4, h5, h6, isNode_of h h', hs, hz, hw, hf1, hf, hwf, hd, hd', and_self,
    decide_true, need_true]
  rfl

theorem parseZone_words {z : ZoneCfg} (h : 1 ≤ z.vote) (h' : z.vote ≤ 4) :
    parseZone (zoneWords (some z)) = .ok (some z) := by
  have hb (b : Bool) : flag b < 65536 := (flag_le b).trans_lt (by decide)
  refine ifValid_ok (validBit_one _) ?_
  have h1 : word (zoneWords (some z)) 1 = z.vote := word_natWord rfl (by omega)
  have h2 : word (zoneWords (some z)) 2 = flag z.isolate := word_natWord rfl (hb _)
  have h3 : word (zoneWords (some z)) 3 = flag z.valve := word_natWord rfl (hb _)
  have h4 : word (zoneWords (some z)) 4 = flag z.suspend := word_natWord rfl (hb _)
  simp only [h1, h2, h3, h4, h, h', flagOf_flag, and_self, decide_true, need_true]
  rfl

/-! ## The Limit Table -/

theorem ofInt_toInt {x : Int} (h : -32768 ≤ x) (h' : x ≤ 32767) : (BitVec.ofInt 16 x).toInt = x := by
  rw [BitVec.toInt_ofInt]
  exact Int.bmod_eq_of_le (by omega) (by omega)

/-- The valid word of a Limit Table record: bit 0 is set, and bit `i` says that threshold `i` is present. -/
theorem limit_validWord (a b c d : Bool) :
    let w := natWord (1 + 2 * flag a + 4 * flag b + 8 * flag c + 16 * flag d)
    w.getLsbD 0 = true ∧ w.getLsbD 1 = a ∧ w.getLsbD 2 = b ∧ w.getLsbD 3 = c ∧ w.getLsbD 4 = d := by
  revert a b c d
  decide

/-- A threshold is read back from its bit and its word. -/
theorem threshold_words {ws : List Word} {i : Nat} {t : Option Int}
    (hb : (ws[0]?.getD 0).getLsbD i = t.isSome) (hw : ws[i]? = some (thresholdWord t))
    (ht : ∀ x, t = some x → -32768 ≤ x ∧ x ≤ 32767) : threshold ws i = t := by
  unfold threshold
  cases t with
  | none => rw [if_neg (by rw [hb]; exact nofun)]
  | some x =>
    rw [if_pos (by rw [hb]; rfl), hw]
    exact congrArg some (ofInt_toInt (ht x rfl).1 (ht x rfl).2)

theorem parseLimit_words {e : LimitEntry}
    (ht : ∀ x, e.lowTrip = some x ∨ e.lowWarn = some x ∨ e.highWarn = some x ∨ e.highTrip = some x →
      -32768 ≤ x ∧ x ≤ 32767)
    (ho : ([e.lowTrip, e.lowWarn, e.highWarn, e.highTrip].filterMap id).Pairwise (· ≤ ·))
    (hh : e.hysteresis ≤ 32767) (hp : 1 ≤ e.persistence) (hp' : e.persistence ≤ 255)
    (hs : 1 ≤ e.staleLimit) (hs' : e.staleLimit ≤ 1000) (hd : e.deadband ≤ 32767) :
    parseLimit (limitWords (some e)) = .ok (some e) := by
  obtain ⟨b0, b1, b2, b3, b4⟩ :=
    limit_validWord e.lowTrip.isSome e.lowWarn.isSome e.highWarn.isSome e.highTrip.isSome
  have t1 : threshold (limitWords (some e)) 1 = e.lowTrip :=
    threshold_words b1 rfl fun x h => ht x (.inl h)
  have t2 : threshold (limitWords (some e)) 2 = e.lowWarn :=
    threshold_words b2 rfl fun x h => ht x (.inr (.inl h))
  have t3 : threshold (limitWords (some e)) 3 = e.highWarn :=
    threshold_words b3 rfl fun x h => ht x (.inr (.inr (.inl h)))
  have t4 : threshold (limitWords (some e)) 4 = e.highTrip :=
    threshold_words b4 rfl fun x h => ht x (.inr (.inr (.inr h)))
  have h5 : word (limitWords (some e)) 5 = e.hysteresis := word_natWord rfl (by omega)
  have h6 : word (limitWords (some e)) 6 = e.persistence := word_natWord rfl (by omega)
  have h7 : word (limitWords (some e)) 7 = e.staleLimit := word_natWord rfl (by omega)
  have h8 : word (limitWords (some e)) 8 = e.forward.code := word_natWord rfl (forwardMode_code_lt _)
  have h9 : word (limitWords (some e)) 9 = e.deadband := word_natWord rfl (by omega)
  have h10 : word (limitWords (some e)) 10 = e.tripAction.code := word_natWord rfl (tripAction_code_lt _)
  have horder : lastOutOfOrder 1 none [e.lowTrip, e.lowWarn, e.highWarn, e.highTrip] = none :=
    (lastOutOfOrder_none _ _ _).mpr ⟨nofun, ho⟩
  refine ifValid_ok b0 ?_
  simp only [t1, t2, t3, t4, h5, h6, h7, h8, h9, h10, horder, hh, hp, hp', hs, hs', hd, and_self, decide_true,
    need_true, needSome_some, forwardMode_ofCode_code, tripAction_ofCode_code]
  rfl

/-! ## The Power Profile -/

/-- Every field of a profile lies in its range (R92). -/
structure Profile.InRange (p : Profile) : Prop where
  nodeSilence : 2 ≤ p.nodeSilence ∧ p.nodeSilence ≤ 10000
  ackWindow : 2 ≤ p.ackWindow ∧ p.ackWindow ≤ 16
  retryLimit : p.retryLimit ≤ 15
  admitTimeoutMs : 100 ≤ p.admitTimeoutMs ∧ p.admitTimeoutMs ≤ 30000
  spacingMs : p.spacingMs ≤ 5000
  overheadW : p.overheadW ≤ 5000
  minRect : 1 ≤ p.minRect ∧ p.minRect ≤ 8
  qualMs : 50 ≤ p.qualMs ∧ p.qualMs ≤ 30000
  acStableMs : 100 ≤ p.acStableMs ∧ p.acStableMs ≤ 60000
  capPersistMs : 10 ≤ p.capPersistMs ∧ p.capPersistMs ≤ 10000
  evalMs : 10 ≤ p.evalMs ∧ p.evalMs ≤ 1000
  floor : p.floor ≤ 65535
  effPm : 500 ≤ p.effPm ∧ p.effPm ≤ 1000
  tReqS : 1 ≤ p.tReqS ∧ p.tReqS ≤ 3600
  marginPm : p.marginPm ≤ 500
  warnS : p.warnS ≤ 3600
  leakLineZone : ∀ z, p.leakLineZone = some z → z ≤ 7

theorem clampWord_range (ws : List Word) (i : Nat) {lo hi : Nat} (h : lo ≤ hi) :
    lo ≤ clampWord ws i lo hi ∧ clampWord ws i lo hi ≤ hi := by
  unfold clampWord
  omega

theorem clampWord_le (ws : List Word) (i hi : Nat) : clampWord ws i 0 hi ≤ hi :=
  (clampWord_range ws i (Nat.zero_le hi)).2

/-- A stored profile lies in its ranges. -/
theorem parseProfile_inRange (ws : List Word) : (parseProfile ws).1.InRange := by
  by_cases hv : validBit ws = true
  · rw [parseProfile_valid hv]
    refine ⟨clampWord_range _ _ (by decide), clampWord_range _ _ (by decide), clampWord_le _ _ _,
      clampWord_range _ _ (by decide), clampWord_le _ _ _, clampWord_le _ _ _,
      clampWord_range _ _ (by decide), clampWord_range _ _ (by decide), clampWord_range _ _ (by decide),
      clampWord_range _ _ (by decide), clampWord_range _ _ (by decide), ?_,
      clampWord_range _ _ (by decide), clampWord_range _ _ (by decide), clampWord_le _ _ _,
      clampWord_le _ _ _, fun z hz => ?_⟩
    · exact Nat.lt_succ_iff.mp (ws[14]?.getD 0).isLt
    · simp only at hz
      split at hz
      · cases hz
        exact Nat.lt_succ_iff.mp ‹_›
      · cases hz
  · rw [parseProfile_invalid hv]
    constructor <;> decide

theorem clampWord_of_range {ws : List Word} {i n lo hi : Nat} (hw : word ws i = n) (h : lo ≤ n ∧ n ≤ hi) :
    clampWord ws i lo hi = n := by
  unfold clampWord
  omega

/-- A profile in its ranges is read back from its words, and no field of it is clamped. -/
theorem parseProfile_words {p : Profile} (h : p.InRange) : parseProfile (profileWords p) = (p, none) := by
  have hw {i n : Nat} (hi : (profileWords p)[i]? = some (natWord n)) (hn : n ≤ 65535) :
      word (profileWords p) i = n := word_natWord hi (by omega)
  have hz8 : p.leakLineZone.getD 8 ≤ 8 := by
    rcases hx : p.leakLineZone with _ | z
    · exact le_refl 8
    · exact (h.leakLineZone z hx).trans (by decide)
  have hred : p.redundancy.code ≤ 1 := by cases p.redundancy <;> decide
  have hgate := flag_le p.readinessGate
  obtain ⟨b1, b2, b3, b4, b5, b7, b9, b10, b11, b12, b13, b14, b15, b16, b17, b18, b19⟩ := h
  have w1 : word (profileWords p) 1 = p.nodeSilence := hw rfl (by omega)
  have w2 : word (profileWords p) 2 = p.ackWindow := hw rfl (by omega)
  have w3 : word (profileWords p) 3 = p.retryLimit := hw rfl (by omega)
  have w4 : word (profileWords p) 4 = p.admitTimeoutMs := hw rfl (by omega)
  have w5 : word (profileWords p) 5 = p.spacingMs := hw rfl (by omega)
  have w6 : word (profileWords p) 6 = flag p.readinessGate := hw rfl (by omega)
  have w7 : word (profileWords p) 7 = p.overheadW := hw rfl (by omega)
  have w8 : word (profileWords p) 8 = p.redundancy.code := hw rfl (by omega)
  have w9 : word (profileWords p) 9 = p.minRect := hw rfl (by omega)
  have w10 : word (profileWords p) 10 = p.qualMs := hw rfl (by omega)
  have w11 : word (profileWords p) 11 = p.acStableMs := hw rfl (by omega)
  have w12 : word (profileWords p) 12 = p.capPersistMs := hw rfl (by omega)
  have w13 : word (profileWords p) 13 = p.evalMs := hw rfl (by omega)
  have w14 : word (profileWords p) 14 = p.floor := hw rfl (by omega)
  have w15 : word (profileWords p) 15 = p.effPm := hw rfl (by omega)
  have w16 : word (profileWords p) 16 = p.tReqS := hw rfl (by omega)
  have w17 : word (profileWords p) 17 = p.marginPm := hw rfl (by omega)
  have w18 : word (profileWords p) 18 = p.warnS := hw rfl (by omega)
  have w19 : word (profileWords p) 19 = p.leakLineZone.getD 8 := hw rfl (by omega)
  have hv : validBit (profileWords p) = true := validBit_one _
  refine Prod.ext ?_ ?_
  · rw [parseProfile_valid hv, clampWord_of_range w1 b1, clampWord_of_range w2 b2,
      clampWord_of_range w3 ⟨Nat.zero_le _, b3⟩, clampWord_of_range w4 b4,
      clampWord_of_range w5 ⟨Nat.zero_le _, b5⟩, clampWord_of_range w7 ⟨Nat.zero_le _, b7⟩,
      clampWord_of_range w9 b9, clampWord_of_range w10 b10, clampWord_of_range w11 b11,
      clampWord_of_range w12 b12, clampWord_of_range w13 b13, clampWord_of_range w15 b15,
      clampWord_of_range w16 b16, clampWord_of_range w17 ⟨Nat.zero_le _, b17⟩,
      clampWord_of_range w18 ⟨Nat.zero_le _, b18⟩, w6, w8, w14, w19]
    have hg : (flag p.readinessGate != 0) = p.readinessGate := by cases p.readinessGate <;> rfl
    have hr : (if p.redundancy.code = 0 then Redundancy.plain else .nPlusOne) = p.redundancy := by
      cases p.redundancy <;> rfl
    have hz : (if p.leakLineZone.getD 8 < 8 then some (p.leakLineZone.getD 8) else none) =
        p.leakLineZone := by
      rcases hx : p.leakLineZone with _ | z
      · rfl
      · exact if_pos (Nat.lt_succ_iff.mpr (b19 z hx))
    rw [hg, hr, hz]
  · rw [parseProfile, if_pos hv]
    simp only [firstClamped, List.findSome?_eq_none_iff, List.mem_range]
    intro i hi
    interval_cases i <;>
      simp only [profileRanges, List.getElem?_cons_zero, List.getElem?_cons_succ, w1, w2, w3, w4, w5, w6, w7,
        w8, w9, w10, w11, w12, w13, w14, w15, w16, w17, w18, w19, Nat.reduceAdd] <;>
      exact if_neg (by omega)

/-- Settles O46, table by table. -/
theorem recordRoundTrip : Obligations.RecordRoundTrip :=
  ⟨fun _ _ _ h h' hl => ⟨parseSlot_input h h' hl, parseSlot_output h h'⟩,
    fun _ ht ho hh hp hp' hs hs' hd => parseLimit_words ht ho hh hp hp' hs hs' hd,
    fun _ => parseRect_words, fun _ => parseBatt_words, fun _ => parseBranch_words,
    fun _ => parseStep_words, fun _ => parsePoint_words, fun _ => parseZone_words,
    fun ws => parseProfile_words (parseProfile_inRange ws),
    ifValid_empty rfl, ifValid_empty rfl, ifValid_empty rfl, ifValid_empty rfl, rfl,
    ifValid_empty rfl, ifValid_empty rfl, ifValid_empty rfl⟩

end Sys2Proof.Machine

/-! PROOFS. The whole write: its checks (R170), and the records of a Sequence Table write in turn (R172). -/

namespace Sys2Proof.Machine

-- One proof after another: proofs that are checked side by side take a thread each.
set_option Elab.async false

/-! ## The checks of a write -/

section
variable {table start : Word} {words : List Word} {d : Part}

theorem writeTable_unknown (h : TableId.ofCode table.toNat = none) :
    writeTable table start words d = (d, Answer.refuse .range none (some 0) 0) := by
  simp only [writeTable, h]

variable {t : TableId} (ht : TableId.ofCode table.toNat = some t)
include ht

theorem writeTable_badCount (h : recordsOf t words = none) :
    writeTable table start words d = (d, Answer.refuse .badRequest none none 0) := by
  simp only [writeTable, ht, h]

variable {recs : List (List Word)} (hr : recordsOf t words = some recs)
include hr

theorem writeTable_start (h : tableSize t ≤ start.toNat) : writeTable table start words d =
    (d, Answer.refuse .range (some start.toNat) (some 1) recs.length) := by
  simp only [writeTable, ht, hr, if_pos h]

variable (hn : start.toNat < tableSize t)
include hn

theorem writeTable_protected (h : bankProtected t start.toNat d = true) :
    writeTable table start words d =
      (d, Answer.refuse .isProtected (some start.toNat) none recs.length) := by
  simp only [writeTable, ht, hr, if_neg (Nat.not_le.mpr hn), if_pos h]

variable (hp : bankProtected t start.toNat d = false)
include hp

theorem writeTable_profile (h : t = .profile) (hs : d.sru.source.allowsProfile = false) :
    writeTable table start words d = (d, Answer.refuse .notAllowed (some 0) none recs.length) := by
  simp only [writeTable, ht, hr, if_neg (Nat.not_le.mpr hn), hp, Bool.false_eq_true, if_false,
    if_pos (And.intro h hs)]

theorem writeTable_records (h : t ≠ .profile ∨ d.sru.source.allowsProfile = true) :
    writeTable table start words d = applyRecords t start.toNat 0 none recs d := by
  have hc : ¬ (t = .profile ∧ d.sru.source.allowsProfile = false) := by
    rintro ⟨h1, h2⟩
    rcases h with h | h
    · exact h h1
    · rw [h] at h2
      cases h2
  simp only [writeTable, ht, hr, if_neg (Nat.not_le.mpr hn), hp, Bool.false_eq_true, if_false, if_neg hc]

end

theorem allowsProfile_eq_false {s : SourceState} (h : s ≠ .onAc) (h' : s ≠ .unknown) :
    s.allowsProfile = false := by
  cases s <;> first | rfl | contradiction

/-! ## The records of a write -/

theorem recordsOf_none {t : TableId} {ws : List Word} (h : ws.length % recordLength t ≠ 0 ∨
    ws.length / recordLength t < 1 ∨ 16 < ws.length / recordLength t) : recordsOf t ws = none := by
  unfold recordsOf
  exact if_neg (by omega)

/-- A body of whole records is cut into them. -/
theorem cutRecords_eq {n : Nat} (hn : 0 < n) (fuel count : Nat) (ws : List Word) (hf : count ≤ fuel)
    (hl : ws.length = count * n) :
    cutRecords n fuel ws = (List.range count).map fun j => (ws.drop (n * j)).take n := by
  induction count generalizing fuel ws with
  | zero =>
    have : ws = [] := List.eq_nil_of_length_eq_zero (by simpa using hl)
    subst this
    cases fuel <;> rfl
  | succ k ih =>
    obtain ⟨fuel, rfl⟩ : ∃ f, fuel = f + 1 := ⟨fuel - 1, by omega⟩
    have hne : ws ≠ [] := fun h => by
      subst h
      have : 0 < (k + 1) * n := Nat.mul_pos (Nat.succ_pos k) hn
      simp only [List.length_nil] at hl
      omega
    obtain ⟨w, rest, rfl⟩ := List.exists_cons_of_ne_nil hne
    have hdrop : ((w :: rest).drop n).length = k * n := by
      rw [List.length_drop, hl, Nat.succ_mul, Nat.add_sub_cancel]
    show (w :: rest).take n :: cutRecords n fuel ((w :: rest).drop n) = _
    rw [ih fuel _ (by omega) hdrop, List.range_succ_eq_map]
    simp only [List.map_cons, Nat.mul_zero, List.drop_zero, List.map_map, List.cons.injEq, true_and]
    refine List.map_congr_left fun j _ => ?_
    simp only [Function.comp_apply, List.drop_drop, Nat.mul_succ, Nat.add_comm]

theorem recordLength_pos (t : TableId) : 0 < recordLength t := by cases t <;> decide

/-- The records of a body of `count` whole records. -/
theorem recordsOf_some {t : TableId} {ws : List Word} {count : Nat}
    (hl : ws.length = count * recordLength t) (h1 : 1 ≤ count) (h16 : count ≤ 16) :
    recordsOf t ws = some ((List.range count).map fun j =>
      (ws.drop (recordLength t * j)).take (recordLength t)) := by
  have hp := recordLength_pos t
  have hdiv : ws.length / recordLength t = count := by rw [hl, Nat.mul_div_cancel _ hp]
  unfold recordsOf
  rw [if_pos ⟨by rw [hl, Nat.mul_mod_left], by rw [hdiv]; exact ⟨h1, h16⟩⟩]
  exact congrArg some (cutRecords_eq hp 16 count ws h16 hl)

/-! ## A write to the Sequence Table -/

/-- One step record stored where it belongs, if it is in range. -/
def storeStep (n : Nat) (record : Nat → List Word) (l : List (Option SeqStep)) (j : Nat) :
    List (Option SeqStep) :=
  match parseStep (record j) with
  | .ok e => l.set (placeOf .sequence n j) e
  | .error _ => l

/-- With no run under way and nothing due, records in range are stored one after another, and the rest of the write
goes on from there. -/
theorem applyRecords_steps (n : Nat) (record : Nat → List Word) (rest : List (List Word)) (k j : Nat)
    (d : Part) (hidle : d.sqe.underWay = false) (hq : d.agenda = [])
    (hok : ∀ i, j ≤ i → i < j + k → (parseStep (record i)).isOk = true) :
    applyRecords .sequence n j none ((List.range' j k).map record ++ rest) d =
      applyRecords .sequence n (j + k) none rest
        { d with sqe.steps := (List.range' j k).foldl (storeStep n record) d.sqe.steps } := by
  induction k generalizing j d with
  | zero => rfl
  | succ k ih =>
    obtain ⟨e, he⟩ : ∃ e, parseStep (record j) = .ok e := by
      have := hok j (le_refl j) (by omega)
      rcases h : parseStep (record j) with f | e
      · rw [h] at this
        cases this
      · exact ⟨e, rfl⟩
    have hstore : storeStep n record d.sqe.steps j = d.sqe.steps.set (placeOf .sequence n j) e := by
      simp only [storeStep, he]
    have hacc : applyRecord .sequence (placeOf .sequence n j) (record j) d =
        ({ d with sqe.steps := d.sqe.steps.set (placeOf .sequence n j) e }, .accepted) :=
      writeStep_idle hidle he
    rw [List.range'_succ, List.map_cons, List.cons_append, applyRecords_accepted _ _ hacc, 
      settleAll_nil { d with sqe.steps := d.sqe.steps.set (placeOf .sequence n j) e } hq,
      ih (j + 1) { d with sqe.steps := d.sqe.steps.set (placeOf .sequence n j) e } hidle hq
        (fun i h h' => hok i (by omega) (by omega)),
      List.foldl_cons, hstore, Nat.add_right_comm, Nat.add_assoc j k 1]

/-- A step record out of range ends the write. -/
theorem applyRecords_stepRange {n j f : Nat} {ws : List Word} (rest : List (List Word)) {d : Part}
    (h : parseStep ws = .error f) : applyRecords .sequence n j none (ws :: rest) d =
      (d, Answer.refuse .range (some (placeOf .sequence n j)) (some f) (rest.length + 1)) := by
  have hw : applyRecord .sequence (placeOf .sequence n j) ws d = (d, .refused .range (some f)) := by
    simp only [applyRecord, writeStep, h]
  rw [applyRecords_cons, hw]

/-- A write that only stores steps answers at once. -/
theorem exec_writeSteps {s : State} {tag table start : Word} {words : List Word} {a : Answer}
    {l : List (Option SeqStep)} (hs : s.part.ready)
    (h : writeTable table start words (s.part.opened ⟨tag, .writeTable table start words⟩) =
      (({ s.part with sqe.steps := l } : Part).opened ⟨tag, .writeTable table start words⟩, a)) :
    exec (.writeTable tag table start words) s = .next { s with
      part := answeredBy a ⟨tag, .writeTable table start words⟩ { s.part with sqe.steps := l } } :=
  exec_answers rfl hs { s.part with sqe.steps := l } hs.1.2 hs.2.2 (congrArg answered h)

/-- Settles O48: the checks in their order, and the records of a Sequence Table write up to the first that is out
of range. -/
theorem writeTableActs : Obligations.WriteTableActs := by
  intro s tag table start words hs
  have same {a : Answer} (h : writeTable table start words
        (s.part.opened ⟨tag, .writeTable table start words⟩) =
        (s.part.opened ⟨tag, .writeTable table start words⟩, a)) :
      exec (.writeTable tag table start words) s =
        .next { s with part := answeredBy a ⟨tag, .writeTable table start words⟩ s.part } :=
    exec_answers_same rfl hs (congrArg answered h)
  refine ⟨fun h => same (writeTable_unknown h), fun t ht => ⟨fun h => same
    (writeTable_badCount ht (recordsOf_none h)), fun hl h1 h16 => ?_⟩⟩
  generalize words.length / recordLength t = count at hl h1 h16 ⊢
  have hrecs := recordsOf_some hl h1 h16
  have hlen : ((List.range count).map fun j =>
      (words.drop (recordLength t * j)).take (recordLength t)).length = count := by simp
  refine ⟨fun h => ?_, fun h hp => ?_, fun h hp ht' h1 h2 => ?_, fun h hp ht' h1 h2 _ => ?_⟩
  · have := same (writeTable_start ht hrecs h)
    rwa [hlen] at this
  · have := same (writeTable_protected ht hrecs h hp)
    rwa [hlen] at this
  · have := same (writeTable_profile ht hrecs h hp ht' (allowsProfile_eq_false h1 h2))
    rwa [hlen] at this
  · subst ht'
    intro record store
    have hidle := underWay_eq_false h1 h2
    have hwrite : writeTable table start words
        (s.part.opened ⟨tag, .writeTable table start words⟩) = applyRecords .sequence start.toNat 0 none
          ((List.range' 0 count).map record) (s.part.opened ⟨tag, .writeTable table start words⟩) := by
      have hp' : bankProtected .sequence start.toNat
          (s.part.opened ⟨tag, .writeTable table start words⟩) = false := hp
      rw [writeTable_records ht hrecs h hp' (.inl nofun), List.range_eq_range']
      rfl
    have stored (m : Nat) : (List.range' 0 m).foldl (storeStep start.toNat record)
        (s.part.opened ⟨tag, .writeTable table start words⟩).sqe.steps = store m := by
      rw [← List.range_eq_range']
      rfl
    refine ⟨fun hok => ?_, fun m f hm hok hf => ?_⟩
    · refine exec_writeSteps hs ?_
      rw [hwrite, ← List.append_nil (List.map record _), applyRecords_steps _ _ [] count 0 (s.part.opened _) hidle hs.1.2.1
        (fun i _ hi => hok i (by omega)), stored count]
      rfl
    · refine exec_writeSteps hs ?_
      obtain ⟨k, rfl⟩ : ∃ k, count = m + (k + 1) := ⟨count - m - 1, by omega⟩
      rw [hwrite, ← List.range'_append_1, List.map_append, applyRecords_steps _ _ _ m 0 (s.part.opened _) hidle hs.1.2.1
        (fun i _ hi => hok i (by omega)), stored m, Nat.zero_add, List.range'_succ, List.map_cons,
        applyRecords_stepRange _ hf, List.length_map, List.length_range', Nat.add_sub_cancel_left]
      rfl

end Sys2Proof.Machine

/-! PROOFS. What the owning blocks make of one record (R172): duplicates, entries in use, records that change
nothing, and the records that store at once. -/

namespace Sys2Proof.Machine

-- One proof after another: proofs that are checked side by side take a thread each.
set_option Elab.async false

/-! ## Another entry -/

theorem entry_lt {α : Type} {l : List (Option α)} {m : Nat} {x : α} (h : entry l m = some x) : m < l.length := by
  by_contra hm
  unfold entry at h
  rw [List.getElem?_eq_none (Nat.le_of_not_lt hm)] at h
  cases h

theorem otherEntry_iff {α : Type} {l : List (Option α)} {n : Nat} {f : α → Bool} :
    otherEntry l n f = true ↔ ∃ m x, m ≠ n ∧ entry l m = some x ∧ f x = true := by
  unfold otherEntry
  simp only [List.any_eq_true, List.mem_range, Bool.and_eq_true, bne_iff_ne]
  constructor
  · rintro ⟨m, -, hm, hf⟩
    split at hf
    · exact ⟨m, _, hm, ‹_›, hf⟩
    · cases hf
  · rintro ⟨m, x, hm, hx, hf⟩
    exact ⟨m, entry_lt hx, hm, by rw [hx]; exact hf⟩

/-! ## The records of each table -/

section
variable {d : Part} {n : Nat} {ws : List Word}

/-- Another IN entry of the written map has the node and the kind. -/
def inputTaken (d : Part) (n node : Nat) (kind : ChannelKind) : Prop :=
  ∃ m l, m ≠ n ∧ entry d.slc.written m = some (.input node kind l)

theorem otherInput_iff {node : Nat} {kind : ChannelKind} : otherEntry d.slc.written n (fun x => match x with
    | .input m k _ => m == node && k == kind
    | .output _ => false) = true ↔ inputTaken d n node kind := by
  rw [otherEntry_iff]
  constructor
  · rintro ⟨m, x, hm, hx, hf⟩
    cases x with
    | input node' kind' l =>
      simp only [Bool.and_eq_true, beq_iff_eq] at hf
      obtain ⟨rfl, rfl⟩ := hf
      exact ⟨m, l, hm, hx⟩
    | output => cases hf
  · rintro ⟨m, l, hm, hx⟩
    exact ⟨m, _, hm, hx, by simp⟩

/-- Another OUT entry of the written map has the node. -/
def outputTaken (d : Part) (n node : Nat) : Prop :=
  ∃ m, m ≠ n ∧ entry d.slc.written m = some (.output node)

theorem otherOutput_iff {node : Nat} :
    otherEntry d.slc.written n (· == .output node) = true ↔ outputTaken d n node := by
  rw [otherEntry_iff]
  constructor
  · rintro ⟨m, x, hm, hx, hf⟩
    cases beq_iff_eq.mp hf
    exact ⟨m, hm, hx⟩
  · rintro ⟨m, hm, hx⟩
    exact ⟨m, _, hm, hx, by simp⟩

/-- Another valid branch has the switch node. -/
def nodeTaken (d : Part) (n node : Nat) : Prop := ∃ m x, m ≠ n ∧ d.branch m = some x ∧ x.cfg.node = node

theorem otherBranch_iff {node : Nat} :
    otherEntry d.bcu.branches n (·.cfg.node == node) = true ↔ nodeTaken d n node := by
  simp only [otherEntry_iff, beq_iff_eq]
  rfl

theorem writeBranch_taken {c : BranchCfg} (h : parseBranch ws = .ok (some c)) (ht : nodeTaken d n c.node) :
    writeBranch n ws d = (d, .refused .conflict (some 1)) := by
  simp only [writeBranch, h, otherBranch_iff.mpr ht, if_true]

section
variable {c : BranchCfg} (h : parseBranch ws = .ok (some c)) (ht : ¬ nodeTaken d n c.node)
include h ht

theorem writeBranch_new (hn : d.branch n = none) :
    writeBranch n ws d = (putBranch n (Branch.begin d c) d, .accepted) := by
  have hf : ¬ otherEntry d.bcu.branches n (·.cfg.node == c.node) = true := mt otherBranch_iff.mp ht
  simp only [writeBranch, h, hf, hn]
  rfl

/-- A record for a valid branch, by the two conditions of use and by whether it changes anything. -/
theorem writeBranch_valid {x : Branch} (hn : d.branch n = some x) : writeBranch n ws d =
    if c.node ≠ x.cfg.node ∧ x.state ≠ .off then (d, .refused .inUse (some 1))
    else if c.zone ≠ x.cfg.zone ∧ x.holds.leak = true then (d, .refused .inUse (some 3))
    else if c = x.cfg then (d, .accepted)
    else (rewriteBranch n x c d, .accepted) := by
  have hf : ¬ otherEntry d.bcu.branches n (·.cfg.node == c.node) = true := mt otherBranch_iff.mp ht
  simp only [writeBranch, h, hf, hn]
  rfl

end

/-- Another valid rectifier has the node. -/
def rectTaken (d : Part) (n node : Nat) : Prop :=
  ∃ m r, m ≠ n ∧ entry d.sru.rects m = some r ∧ r.node = node

theorem otherRect_iff {node : Nat} :
    otherEntry d.sru.rects n (·.node == node) = true ↔ rectTaken d n node := by
  simp only [otherEntry_iff, beq_iff_eq]
  rfl

/-- Another valid battery has the node. -/
def battTaken (d : Part) (n node : Nat) : Prop :=
  ∃ m b, m ≠ n ∧ entry d.sru.batts m = some b ∧ b.node = node

theorem otherBatt_iff {node : Nat} :
    otherEntry d.sru.batts n (·.node == node) = true ↔ battTaken d n node := by
  simp only [otherEntry_iff, beq_iff_eq]
  rfl

/-- Another valid point names the node and the slot. -/
def pointTaken (d : Part) (n : Nat) (c : PointCfg) : Prop :=
  ∃ m p, m ≠ n ∧ entry d.lkm.points m = some p ∧ p.cfg.node = c.node ∧ p.cfg.slot = c.slot

theorem otherPoint_iff {c : PointCfg} : otherEntry d.lkm.points n
    (fun p => p.cfg.node == c.node && p.cfg.slot == c.slot) = true ↔ pointTaken d n c := by
  simp only [otherEntry_iff, Bool.and_eq_true, beq_iff_eq]
  rfl

theorem zoneBusy_iff {z : Nat} : zoneBusy d z = true ↔ (d.zone z).state ≠ .clear := by
  simp [zoneBusy]

theorem writePoint_taken {c : PointCfg} (h : parsePoint ws = .ok (some c)) (ht : pointTaken d n c) :
    writePoint n ws d = (d, .refused .conflict (some 1)) := by
  simp only [writePoint, h, otherPoint_iff.mpr ht, if_true]

theorem writePoint_busy {c : PointCfg} (h : parsePoint ws = .ok (some c)) (ht : ¬ pointTaken d n c)
    (hz : (d.zone c.zone).state ≠ .clear) : writePoint n ws d = (d, .refused .inUse none) := by
  have hf := mt otherPoint_iff.mp ht
  simp only [writePoint, h, if_neg hf, zoneBusy_iff.mpr hz, Bool.or_true, if_true]

theorem writePoint_same {c : PointCfg} {p : Point} (h : parsePoint ws = .ok (some c))
    (ht : ¬ pointTaken d n c) (hz : (d.zone c.zone).state = .clear) (hn : entry d.lkm.points n = some p)
    (hp : p.cfg = c) : writePoint n ws d = (d, .accepted) := by
  have hf := mt otherPoint_iff.mp ht
  have hb : zoneBusy d c.zone = false := by simp [zoneBusy, hz]
  simp only [writePoint, h, if_neg hf, hn, hp, hb, Bool.or_self, Option.map_some, Bool.false_eq_true,
    if_false, if_true]

end

/-- Settles O49, table by table. -/
theorem recordsApplied : Obligations.RecordsApplied := by
  intro d n ws
  refine ⟨fun node kind limit h => ⟨fun hd => ?_, fun hd => ?_⟩, fun node h => ⟨fun hd => ?_, fun hd => ?_⟩,
    fun c h hn _ => ⟨fun hd => writeBranch_taken h hd, fun hd => ?_⟩, fun x hx hs h => ?_,
    fun x c hx h ht => ⟨fun hc hs => ?_, fun hc hz hl => ?_⟩, fun p hp hz h => ?_, fun hr e h => ?_,
    fun hz e h => ?_, fun h => ?_, fun h hz => ?_, fun x hx h ht => ?_,
    fun node w h => ⟨fun hd => ?_, fun hd s hs => ?_⟩, fun node h => ⟨fun hd => ?_, fun hd s hs => ?_⟩,
    fun c h => ⟨fun hd => writePoint_taken h hd, fun hd hz => writePoint_busy h hd hz,
      fun hd hz p hp hc => writePoint_same h hd hz hp hc⟩,
    writeProfile_profile ws d, fun f h => ?_, fun h => ?_⟩
  · simp only [writeSlot, h]
    exact if_pos (otherInput_iff.mpr hd)
  · simp only [writeSlot, h]
    exact if_neg (mt otherInput_iff.mp hd)
  · simp only [writeSlot, h, otherOutput_iff.mpr hd, if_true]
  · simp only [writeSlot, h, if_neg (mt otherOutput_iff.mp hd)]
  · exact writeBranch_new h hd hn
  · simp only [writeBranch, h, hx, if_pos hs]
  · have hn : ¬ nodeTaken d n c.node := fun ⟨m, y, hm, hy, he⟩ => ht m y hm hy he
    rw [writeBranch_valid h hn hx, if_pos ⟨hc, hs⟩]
  · have hn : ¬ nodeTaken d n c.node := fun ⟨m, y, hm, hy, he⟩ => ht m y hm hy he
    rw [writeBranch_valid h hn hx, if_neg fun hu => hc.elim hu.1 hu.2, if_pos ⟨hz, hl⟩]
  · simp only [writePoint, h, hp, zoneBusy_iff.mpr hz, if_true]
  · have hu : d.sqe.underWay = true := by rw [underWay_iff]; exact hr
    simp only [writeStep, h, hu, if_true]
  · simp only [writeZone, h, zoneBusy_iff.mpr hz, if_true]
  · simp only [writeLimit, h, if_true]
  · have hb : ¬ zoneBusy d n = true := fun hb => zoneBusy_iff.mp hb hz
    simp only [writeZone, h, if_neg hb, if_true]
  · have hn : ¬ nodeTaken d n x.cfg.node := fun ⟨m, y, hm, hy, he⟩ => ht m y hm hy he
    rw [writeBranch_valid h hn hx, if_neg fun hu => hu.1 rfl, if_neg fun hu => hu.1 rfl, if_pos rfl]
  · simp only [writeRect, h, otherRect_iff.mpr hd, if_true]
  · simp only [writeRect, h, if_neg (mt otherRect_iff.mp hd), hs, and_self, if_true]
  · simp only [writeBatt, h, otherBatt_iff.mpr hd, if_true]
  · simp only [writeBatt, h, if_neg (mt otherBatt_iff.mp hd), hs, Option.map_some, Option.getD_some, if_true]
  · rw [writeProfile_verdict, h]
  · rw [writeProfile_verdict, h]

end Sys2Proof.Machine

/-! PROOFS. The rack link: what an uplink decision leaves alone, the arrival of a request (R155), the bytes that
carry one (R154, R180), and the moves of the Response Queue (R156, R157, R164, R167). -/

namespace Sys2Proof.Machine

-- One proof after another: proofs that are checked side by side take a thread each.
set_option Elab.async false

/-! ## The uplink -/

/-- Nothing changed but the Telemetry Queue, the two uplink queues of the RLP, and what the arbiter keeps for
itself. -/
structure Uplinked (d d' : Part) : Prop where
  eq : d' = { d with
    tlf := { d.tlf with queue := d'.tlf.queue, drops := d'.tlf.drops }
    rlp := { d.rlp with
      responses := d'.rlp.responses, events := d'.rlp.events, tx := d'.rlp.tx
      eventTag := d'.rlp.eventTag, batchTag := d'.rlp.batchTag, side := d'.rlp.side
      run := d'.rlp.run, eventOverflow := d'.rlp.eventOverflow } }

namespace Uplinked
variable {d d' : Part} (h : Uplinked d d')
include h

theorem slc : d'.slc = d.slc := by rw [h.eq]

theorem bcu : d'.bcu = d.bcu := by rw [h.eq]

theorem sru : d'.sru = d.sru := by rw [h.eq]

theorem sqe : d'.sqe = d.sqe := by rw [h.eq]

theorem lkm : d'.lkm = d.lkm := by rw [h.eq]

theorem lines : d'.lines = d.lines := by rw [h.eq]

theorem agenda : d'.agenda = d.agenda := by rw [h.eq]

theorem requests : d'.rlp.requests = d.rlp.requests := by rw [h.eq]

theorem phase : d'.rlp.phase = d.rlp.phase := by rw [h.eq]

theorem channels : d'.tlf.channels = d.tlf.channels := by rw [h.eq]

theorem quiet (hq : d.quiet) : d'.quiet := by rw [h.eq]; exact hq

theorem linesFollow (hl : d.linesFollow) : d'.linesFollow := by rw [h.eq]; exact hl

theorem tablesStand : TablesStand d d' := by rw [h.eq]; exact {}

theorem linkStands : LinkStands d d' := by rw [h.eq]; exact {}

theorem requestsStand : RequestsStand d d' := by rw [h.eq]; exact {}

theorem trans {e : Part} (g : Uplinked d' e) : Uplinked d e := ⟨by rw [g.eq, h.eq]⟩

end Uplinked

theorem arbitrate_uplinked (d : Part) : Uplinked d (arbitrate d) := by
  unfold arbitrate
  repeat' split
  all_goals exact ⟨by rfl⟩

theorem appendResponse_uplinked (m : Uplink) (d : Part) : Uplinked d (appendResponse m d) :=
  Uplinked.trans (d' := { d with rlp.responses := d.rlp.responses ++ [m] }) ⟨by rfl⟩ (arbitrate_uplinked _)

theorem post_uplinked (k : EventKind) (s v : Option Nat) (d : Part) : Uplinked d (post k s v d) := by
  unfold post
  split
  · exact Uplinked.trans (d' := { d with rlp.events := d.rlp.events ++ [⟨k, s, v, d.slc.cycle⟩] })
      ⟨by rfl⟩ (arbitrate_uplinked _)
  · exact ⟨by rfl⟩

/-- A decision loses no message. -/
theorem arbitrate_holdsMessage {m : Uplink} {d : Part} (h : d.holdsMessage m) :
    (arbitrate d).holdsMessage m := by
  unfold arbitrate
  split
  · exact h
  · rename_i ht
    have hm : m ∈ d.rlp.responses := h.resolve_left (by rw [ht]; exact nofun)
    have served {x : Uplink} {rest : List Uplink} (run : Nat) (hr : d.rlp.responses = x :: rest) :
        (serveResponse x rest run d).holdsMessage m := by
      rw [hr] at hm
      rcases List.mem_cons.mp hm with rfl | hm
      · exact .inl rfl
      · exact .inr hm
    split
    · exact .inr hm
    · split
      · exact h
      · exact served _ ‹_›
      · exact .inr hm
      · split <;> split
        · exact served _ ‹_›
        · exact .inr hm
        · exact .inr hm
        · exact served _ ‹_›

/-- A message that is appended waits or is sent. -/
theorem appendResponse_holds (m : Uplink) (d : Part) : (appendResponse m d).holdsMessage m :=
  arbitrate_holdsMessage (.inr (by simp))

theorem appendResponse_busy {m x : Uplink} {d : Part} (h : d.rlp.tx = some x) :
    appendResponse m d = { d with rlp.responses := d.rlp.responses ++ [m] } :=
  arbitrate_busy (m := x) (by exact h)

/-! ## The arrival of a request -/

section
variable {q : Queued} {d : Part}

theorem arrive_first (h : d.rlp.requests = []) : arrive q d =
    pumpAll { d with rlp.requests := [q], rlp.phase := .fresh } := by
  unfold arrive
  rw [h]

theorem arrive_behind (h : d.rlp.requests ≠ []) (hl : d.rlp.requests.length < 4) :
    arrive q d = { d with rlp.requests := d.rlp.requests ++ [q] } := by
  obtain ⟨r, rs, hr⟩ := List.exists_cons_of_ne_nil h
  unfold arrive
  rw [hr] at hl ⊢
  exact if_pos hl

theorem arrive_full (h : d.rlp.requests.length = 4) : arrive q d =
    if d.rlp.responses.length < 8 then appendResponse (busyResponse q.tag) d else discardRx d := by
  obtain ⟨r, rs, hr⟩ : ∃ r rs, d.rlp.requests = r :: rs :=
    List.exists_cons_of_ne_nil fun hn => by rw [hn] at h; cases h
  unfold arrive
  rw [hr]
  exact if_neg (by rw [← hr, h]; decide)

end

/-- Settles O39: a request that arrives, by the two queues. -/
theorem arrivalTable : Obligations.ArrivalTable := by
  intro c q s hc hr hl
  refine ⟨fun hq => ⟨moveHead_fresh _ q [] rfl rfl, ?_⟩, fun hq hlt => ?_, fun hq hlt => ?_, fun hq hlt => ?_⟩
  · rw [exec_request hc, act_running _ _ hr.1, arrive_first hq]
    unfold pumpAll pumpFuel
    rw [pump_some 63 _ _ (moveHead_fresh _ q [] rfl rfl)]
  · rw [exec_request hc]
    exact act_same _ s _ hr (arrive_behind hq hlt) hr.2 hl
  · have hu := appendResponse_uplinked (busyResponse q.tag) s.part
    refine ⟨_, (exec_request hc s).trans (act_same _ s _ hr ((arrive_full hq).trans (if_pos hlt))
      (hu.quiet hr.2) (hu.linesFollow hl)), rfl, hu.tablesStand, hu.linkStands, hu.requestsStand, hu.bcu,
      hu.sru, hu.sqe, hu.lkm, appendResponse_holds _ _⟩
  · rw [exec_request hc]
    exact act_same _ s _ hr ((arrive_full hq).trans (if_neg (by omega))) hr.2 hl

/-! ## The bytes of a request -/

/-- Bytes that are read as words are the bytes of those words. -/
theorem wordsOf_some {bytes : List Byte} {ws : List Word} (h : wordsOf bytes = some ws) :
    bytes = ws.flatMap wordBytes := by
  induction bytes using wordsOf.induct generalizing ws with
  | case1 =>
    cases h
    rfl
  | case2 => cases h
  | case3 hi lo rest ih =>
    unfold wordsOf at h
    obtain ⟨vs, hv, rfl⟩ := Option.map_eq_some_iff.mp h
    rw [ih hv, List.flatMap_cons, wordBytes_ofBytes]
    rfl

theorem requestOf_unknown {k : Byte} (h : 19 ≤ k.toNat) (ws : List Word) : requestOf k ws = .bad (some k) := by
  obtain ⟨m, hm⟩ : ∃ m, k.toNat = m + 19 := ⟨k.toNat - 19, by omega⟩
  unfold requestOf
  rw [hm]
  rfl

/-- A known kind with words that suit it is a request of that kind with those words; the number of words, up to
four, says which kinds they suit. -/
theorem requestOf_known {n : Nat} (h : n < 19) (ws : List Word) :
    let k := BitVec.ofNat 8 n
    requestOf k ws = .bad (some k) ∨ (requestOf k ws).kind = some k ∧ (requestOf k ws).words = ws ∧
      ∀ j, requestOf k ws ≠ .bad j := by
  rcases ws with _ | ⟨a, _ | ⟨b, _ | ⟨c, _ | ⟨e, l⟩⟩⟩⟩ <;> interval_cases n <;>
    first
    | exact .inl rfl
    | exact .inr ⟨rfl, rfl, fun _ => nofun⟩

theorem requestOf_spec (k : Byte) (ws : List Word) : requestOf k ws = .bad (some k) ∨
    (requestOf k ws).kind = some k ∧ (requestOf k ws).words = ws ∧ ∀ j, requestOf k ws ≠ .bad j := by
  rcases Nat.lt_or_ge k.toNat 19 with h | h
  · have := requestOf_known h ws
    rwa [BitVec.ofNat_toNat, BitVec.setWidth_eq] at this
  · exact .inl (requestOf_unknown h ws)

/-- Some row carries each request that is not bad. -/
theorem request_of (tag : Word) {r : Request} (h : ∀ j, r ≠ .bad j) : ∃ c, request c = some ⟨tag, r⟩ := by
  cases r with
  | readStatus => exact ⟨.readStatus tag, rfl⟩
  | writeTable => exact ⟨.writeTable tag _ _ _, rfl⟩
  | readTable => exact ⟨.readTable tag _ _ _, rfl⟩
  | locateBranch => exact ⟨.locateBranch tag _, rfl⟩
  | branchRequest => exact ⟨.branchRequest tag _ _, rfl⟩
  | branchClear => exact ⟨.branchClear tag _, rfl⟩
  | sequenceStart => exact ⟨.sequenceStart tag, rfl⟩
  | sequenceSuspend => exact ⟨.sequenceSuspend tag, rfl⟩
  | sequenceResume => exact ⟨.sequenceResume tag, rfl⟩
  | sequenceAbort => exact ⟨.sequenceAbort tag, rfl⟩
  | leakAck => exact ⟨.leakAck tag _, rfl⟩
  | leakClear => exact ⟨.leakClear tag _, rfl⟩
  | nodePass => exact ⟨.nodePass tag _ _, rfl⟩
  | protect => exact ⟨.protect tag _ _, rfl⟩
  | unprotect => exact ⟨.unprotect tag _ _, rfl⟩
  | freezeProtection => exact ⟨.freezeProtection tag, rfl⟩
  | setFeature => exact ⟨.setFeature tag _ _, rfl⟩
  | getDetail => exact ⟨.getDetail tag, rfl⟩
  | reset => exact ⟨.reset tag, rfl⟩
  | bad j => exact absurd rfl (h j)

/-- A body is bad, or is the body of the request that it is read as, which some row carries. -/
theorem parseBody_spec (body : List Byte) : parseBody body = .bad body.head? ∨
    (parseBody body).body = body ∧ ∀ tag, ∃ c, request c = some ⟨tag, parseBody body⟩ := by
  cases body with
  | nil => exact .inl rfl
  | cons k rest =>
    rcases hw : wordsOf rest with _ | ws
    · exact .inl (by simp only [parseBody, hw]; rfl)
    · have he : parseBody (k :: rest) = requestOf k ws := by simp only [parseBody, hw]
      rw [he]
      rcases requestOf_spec k ws with h | ⟨hk, hws, hc⟩
      · exact .inl h
      · refine .inr ⟨?_, fun tag => request_of tag hc⟩
        unfold Request.body
        rw [hk, hws, wordsOf_some hw]
        rfl

/-- The request of a row is read back from its body. -/
theorem parseBody_body {c : Instr} {q : Queued} (h : request c = some q) : parseBody q.req.body = q.req := by
  have hk : ∃ k, q.req.kind = some k ∧ requestOf k q.req.words = q.req := by
    cases c <;> simp only [request, Option.some.injEq, reduceCtorEq] at h <;> subst h <;>
      exact ⟨_, rfl, rfl⟩
  obtain ⟨k, hkind, hr⟩ := hk
  unfold Request.body
  rw [hkind]
  show (match wordsOf (q.req.words.flatMap wordBytes) with
    | some ws => requestOf k ws
    | none => .bad (some k)) = _
  rw [wordsOf_flat]
  exact hr

theorem receiveMessage_some {bytes : List Byte} {q : Queued} (h : receive bytes = some q) (d : Part) :
    receiveMessage bytes d = arrive q d := by
  simp only [receiveMessage, h]

/-- Two effects that agree on the part are the same command. -/
theorem act_congr {f g : Part → Part} {s : State} (h : f s.part = g s.part) : act f s = act g s := by
  unfold act
  rw [h]

/-- Settles O38: the receive check both ways, and the body both ways. -/
theorem messagesReceived : Obligations.MessagesReceived := by
  refine ⟨fun s bytes hr hl hb => ?_, fun c q s hc hlen => ?_, fun s tag body hs hlen hb => ?_⟩
  · have hn : receive bytes = none := by
      rcases h : receive bytes with _ | q
      · rfl
      · obtain ⟨body, hlen, he, -⟩ := receive_some bytes q h
        exact absurd he (hb q.tag body hlen)
    exact act_same _ s _ hr (by simp only [receiveMessage, hn]; rfl) hr.2 hl
  · have hq : receive (q.req.message q.tag) = some q := by
      unfold Request.message
      rw [receive_frame _ _ hlen, parseBody_body hc]
    refine ⟨hq, _, rfl, ?_⟩
    rw [exec_request hc]
    exact act_congr (receiveMessage_some hq _).symm
  · have hp : parseBody body = .bad body.head? := by
      rcases parseBody_spec body with h | ⟨h, hc⟩
      · exact h
      · obtain ⟨c, hc⟩ := hc tag
        exact absurd h (hb c _ hc)
    have hq : receive (frame 0 tag 0 body) = some ⟨tag, .bad body.head?⟩ := by
      rw [receive_frame _ _ hlen, hp]
    refine (act_congr (receiveMessage_some hq _)).trans ?_
    exact exec_answered ⟨tag, .bad body.head?⟩ _ s (s.part.opened _) hs rfl rfl hs.2.2 rfl hs.1.2.1 hs.1.2.2

end Sys2Proof.Machine

/-! PROOFS. The moves of the head of the Request Queue one by one: the Response Queue (R156, R157), the end of a
transmission (R164, R167), NODE PASS and its outcome (R161, R162), and READ TABLE (R174). -/

namespace Sys2Proof.Machine

-- One proof after another: proofs that are checked side by side take a thread each.
set_option Elab.async false

/-! ## Moves of the head -/

theorem pumpAll_idle {d : Part} (h : moveHead d = none) : pumpAll d = d := pump_none _ d h

theorem moveHead_reading {d : Part} {t : TableId} {next left block : Nat} {r : Response}
    (hp : d.rlp.phase = .reading t next left block r) (hl : d.rlp.responses.length < 8) :
    moveHead d = some (appendData t next left block r d) := by
  unfold moveHead
  rw [hp]
  simp [hl]

theorem moveHead_readingFull {d : Part} {t : TableId} {next left block : Nat} {r : Response}
    (hp : d.rlp.phase = .reading t next left block r) (hl : 8 ≤ d.rlp.responses.length) :
    moveHead d = none := by
  unfold moveHead
  rw [hp]
  simp [Nat.not_lt.mpr hl]

theorem moveHead_resetting {d : Part} (hp : d.rlp.phase = .resetting) : moveHead d = none := by
  unfold moveHead
  rw [hp]

theorem moveHead_passing {d : Part} {n : Nat} (hp : d.rlp.phase = .passing n) : moveHead d = none := by
  unfold moveHead
  rw [hp]

/-- The only request of the queue begins at once (R155, R156). -/
theorem arrive_begins {q : Queued} {d e : Part} (h : d.rlp.requests = [])
    (he : beginHead q { d with rlp.requests := [q], rlp.phase := .fresh } = e) :
    arrive q d = pump 63 e := by
  rw [arrive_first h]
  unfold pumpAll pumpFuel
  rw [pump_some 63 _ _ (moveHead_fresh _ q [] rfl rfl), he]

/-- A final response with room is appended, and the only request leaves (R156). -/
theorem pumpAll_answering {q : Queued} {r : Response} {d : Part} (hq : d.rlp.requests = [q])
    (hp : d.rlp.phase = .answering r) (hl : d.rlp.responses.length < 8) (hr : r.resets = false) :
    pumpAll d = appendResponse (.response r) { d with rlp.requests := [], rlp.phase := .fresh } := by
  unfold pumpAll pumpFuel
  rw [pump_some 63 d _ (moveHead_answering d r hp hl), pump_none _ _ (appendFinal_idle r d q hr hq)]
  unfold appendFinal
  rw [if_neg (by simp [hr]), hq]
  rfl

/-- Commands that have the same effect answer the same. -/
theorem act_eq {f g : Part → Part} {s s' : State} (hr : s.part.lines.resetIn = false)
    (hr' : s'.part.lines.resetIn = false) (h : f s.part = g s'.part) (hp : s.pending = s'.pending) :
    act f s = act g s' := by
  rw [act_running _ _ hr, act_running _ _ hr', h, hp]

theorem uplinkDone_sent {d : Part} {m : Uplink} (h : d.rlp.tx = some m) (hm : m.resets = false) :
    uplinkDone d = pumpAll (arbitrate { d with rlp.tx := none }) := by
  unfold uplinkDone
  rw [h]
  exact if_neg (by simp [hm])

theorem uplinkDone_reset {d : Part} {m : Uplink} (h : d.rlp.tx = some m) (hm : m.resets = true) :
    uplinkDone d = softReset d := by
  unfold uplinkDone
  rw [h]
  exact if_pos hm

/-- The next DATA message of a read behind a message that is being sent (R174). -/
theorem appendData_busy {d : Part} {t : TableId} {first left block : Nat} {r : Response} {x : Uplink}
    (hb : d.rlp.tx = some x) : appendData t first left block r d = { d with rlp := { d.rlp with
      responses := d.rlp.responses ++ [Uplink.data r.tag t first
        ((List.range (min block left)).map fun i => readEntry t (first + i) d)]
      phase := if left ≤ block then .answering r
        else .reading t (first + block) (left - block) block r } } := by
  unfold appendData
  rw [appendResponse_busy (x := x) (by exact hb)]
  by_cases h : left ≤ block
  · simp only [setPhase, Nat.min_eq_right h, le_refl, if_true, h]
    rfl
  · have hlt : block < left := Nat.lt_of_not_le h
    simp only [setPhase, Nat.min_eq_left hlt.le, h, if_false]
    rfl

/-- The next DATA message takes the last place of the Response Queue of a busy transmitter. -/
theorem pumpAll_reading {d : Part} {t : TableId} {first left block : Nat} {r : Response} {x : Uplink}
    (hp : d.rlp.phase = .reading t first left block r) (hb : d.rlp.tx = some x)
    (hl : d.rlp.responses.length = 7) : pumpAll d = { d with rlp := { d.rlp with
      responses := d.rlp.responses ++ [Uplink.data r.tag t first
        ((List.range (min block left)).map fun i => readEntry t (first + i) d)]
      phase := if left ≤ block then .answering r
        else .reading t (first + block) (left - block) block r } } := by
  unfold pumpAll pumpFuel
  rw [pump_some 63 d _ (moveHead_reading hp (by omega)), appendData_busy hb]
  refine pump_none _ _ ?_
  by_cases h : left ≤ block
  · refine moveHead_full _ r (by exact if_pos h) ?_
    simp [hl]
  · exact moveHead_readingFull (by exact if_neg h) (by simp [hl])

/-- Settles O52, by the moves of the head. -/
theorem responsesMove : Obligations.ResponsesMove := by
  intro s hr hl
  have still (h : moveHead s.part = none) : exec .responseAppend s = .next s :=
    act_same _ s _ hr (pumpAll_idle h) hr.2 hl
  refine ⟨fun q r hq hp => ⟨fun hlt hn => ?_, fun hge => still (moveHead_full _ r hp (by omega))⟩,
    fun q t first left block r hq hp _ htx => ⟨fun h7 => ?_, fun hge => still (moveHead_readingFull hp hge)⟩,
    fun hq hp => ⟨still (moveHead_idle _ hp hq), fun htx => ?_, fun m htx hm => ?_⟩, fun m htx hm => ?_,
    fun m htx hm => ?_, fun tag hs => ?_⟩
  · have hu := appendResponse_uplinked (.response r)
      { s.part with rlp.requests := [], rlp.phase := .fresh }
    exact act_same _ s _ hr (pumpAll_answering hq hp hlt hn) (hu.quiet hr.2) (hu.linesFollow hl)
  · obtain ⟨x, hx⟩ := Option.ne_none_iff_exists'.mp htx
    exact act_same _ s _ hr (pumpAll_reading hp hx h7) hr.2 hl
  · exact act_same _ s _ hr (by simp only [uplinkDone, htx]) hr.2 hl
  · have hu := arbitrate_uplinked { s.part with rlp.tx := none }
    refine act_same _ s _ hr ?_ (hu.quiet hr.2) (hu.linesFollow hl)
    rw [uplinkDone_sent htx hm]
    exact pumpAll_idle (moveHead_idle _ (hu.phase.trans hp) (hu.requests.trans hq))
  · exact act_eq hr.1 (by rw [(arbitrate_uplinked _).lines]; exact hr.1) (uplinkDone_sent htx hm) rfl
  · exact act_congr (uplinkDone_reset htx hm)
  · have hu := appendResponse_uplinked (.response (resetResponse tag)) { s.part with rlp := { s.part.rlp with
      requests := [⟨tag, .reset⟩], phase := .resetting, detail := none } }
    refine act_same _ s _ hr ?_ (hu.quiet hr.2) (hu.linesFollow hl)
    have hb : beginHead ⟨tag, .reset⟩ { s.part with rlp.requests := [⟨tag, .reset⟩], rlp.phase := .fresh } =
        setPhase (.answering (resetResponse tag)) (s.part.opened ⟨tag, .reset⟩) := by
      show setPhase _ (settleAll (s.part.opened ⟨tag, .reset⟩)) = _
      rw [settleAll_nil (s.part.opened ⟨tag, .reset⟩) hr.2.1]
    have hm : moveHead (setPhase (.answering (resetResponse tag)) (s.part.opened ⟨tag, .reset⟩)) =
        some (appendFinal (resetResponse tag) (setPhase (.answering (resetResponse tag))
          (s.part.opened ⟨tag, .reset⟩))) := moveHead_answering _ _ (by rfl) hs.2.2
    rw [arrive_begins hs.2.1 hb, pump_some 62 _ _ hm, pump_none]
    · rfl
    · refine moveHead_resetting ?_
      unfold appendFinal
      rw [if_pos (show (resetResponse tag).resets = true from rfl), (appendResponse_uplinked _ _).phase]
      rfl

end Sys2Proof.Machine

/-! PROOFS. NODE PASS: its checks, the outcome of its own stage, and its completion (R161, R162). -/

namespace Sys2Proof.Machine

-- One proof after another: proofs that are checked side by side take a thread each.
set_option Elab.async false

/-- A node is the switch node of some valid branch, or of none. -/
theorem branchAt_isSome_iff {d : Part} {n : Nat} :
    (d.branchAt n).isSome = true ↔ ∃ b x, d.branch b = some x ∧ x.cfg.node = n := by
  unfold Part.branchAt Part.branch
  rw [List.findIdx?_isSome, List.any_eq_true]
  constructor
  · rintro ⟨e, he, hn⟩
    obtain ⟨b, hb⟩ := List.mem_iff_getElem?.mp he
    split at hn
    · exact ⟨b, _, by unfold entry; rw [hb]; rfl, beq_iff_eq.mp hn⟩
    · cases hn
  · rintro ⟨b, x, hx, hn⟩
    refine ⟨some x, ?_, beq_iff_eq.mpr hn⟩
    unfold entry at hx
    exact List.mem_iff_getElem?.mpr ⟨b, Option.join_eq_some_iff.mp hx⟩

/-! ## The checks -/

section
variable {d : Part} {n : Nat}

theorem passRefusal_range (h : ¬ (1 ≤ n ∧ n ≤ 62)) :
    passRefusal n d = some (Answer.refuse .range (some n) (some 0) 0) :=
  if_pos ((isNode_eq_false n).mpr h)

variable (hn : 1 ≤ n) (hn' : n ≤ 62)
include hn hn'

theorem passRefusal_noSlot (h : d.outSlot n = none) :
    passRefusal n d = some (Answer.refuse .noRoute (some n) none 0) := by
  simp only [passRefusal, isNode_of hn hn', h, Bool.true_eq_false, if_false]

variable {k : Nat} (hk : d.outSlot n = some k)
include hk

theorem passRefusal_written (h : entry d.slc.written k ≠ some (.output n)) :
    passRefusal n d = some (Answer.refuse .noRoute (some n) none 0) := by
  simp only [passRefusal, isNode_of hn hn', hk, Bool.true_eq_false, if_false]
  exact if_pos h

variable (hw : entry d.slc.written k = some (.output n))
include hw

theorem passRefusal_owned {b : Nat} {x : Branch} (hb : d.branch b = some x) (hx : x.cfg.node = n) :
    passRefusal n d = some (Answer.refuse .owned (some n) none 0) := by
  simp only [passRefusal, isNode_of hn hn', hk, Bool.true_eq_false, if_false, hw, ne_eq, not_true_eq_false,
    branchAt_isSome_iff.mpr ⟨b, x, hb, hx⟩, if_true]

theorem passRefusal_none (h : ∀ b x, d.branch b = some x → x.cfg.node ≠ n) : passRefusal n d = none := by
  have hb : ¬ (d.branchAt n).isSome = true := fun hs => by
    obtain ⟨b, x, hx, he⟩ := branchAt_isSome_iff.mp hs
    exact h b x hx he
  simp only [passRefusal, isNode_of hn hn', hk, Bool.true_eq_false, if_false, hw, ne_eq, not_true_eq_false,
    hb, Bool.false_eq_true]

end

/-! ## The stage and its outcome -/

/-- A stage into a record that exists, of a writer that takes nobody's place. -/
theorem stage_own {b : Option Nat} {n k : Nat} {v : Word} {d : Part} {r : OutRecord}
    (hk : d.outSlot n = some k) (hr : entry d.slc.out k = some r) :
    stage .rlp b n v d = ({ d with slc.out := d.slc.out.set k (some { r with
      staged := some v, lastWriter := some .rlp, owed := true, forBranch := b }) }, false) := by
  simp only [stage, hk, hr, tellSuperseded, ne_eq, not_true_eq_false, and_false, if_false]

/-- A stage of another writer takes the place of a NODE PASS that is owed its outcome. -/
def supersedes (w : Writer) (n : Nat) (d : Part) : Prop :=
  ∃ k r, d.outSlot n = some k ∧ entry d.slc.out k = some r ∧ r.owed = true ∧
    r.lastWriter = some .rlp ∧ w ≠ .rlp

theorem stage_rlp_superseded {w : Writer} {b : Option Nat} {n : Nat} {v : Word} {d : Part}
    (h : supersedes w n d) : (stage w b n v d).1.rlp = (noteOutcome n .superseded d).rlp := by
  obtain ⟨k, r, hk, hr, ho, hl, hw⟩ := h
  simp only [stage, hk, hr, tellSuperseded, ho, hl, ne_eq, hw, not_false_eq_true, and_self, if_true]

theorem stage_rlp_other {w : Writer} {b : Option Nat} {n : Nat} {v : Word} {d : Part}
    (h : ¬ supersedes w n d) : (stage w b n v d).1.rlp = d.rlp := by
  unfold stage
  split
  · rfl
  · split
    · rfl
    · rename_i k hk _ r hr
      have hn : ¬ (r.owed = true ∧ r.lastWriter = some .rlp ∧ w ≠ .rlp) := fun ⟨ho, hl, hw⟩ =>
        h ⟨k, r, hk, hr, ho, hl, hw⟩
      simp only [tellSuperseded, if_neg hn]

theorem noteOutcome_waiting {n : Nat} {o : Delivery} {d : Part} (hp : d.rlp.phase = .passing n)
    (ho : d.rlp.passOutcome = none) : noteOutcome n o d = { d with rlp.passOutcome := some o } := by
  simp only [noteOutcome, completePass, hp, ho, if_true]

/-- The first outcome stands. -/
theorem noteOutcome_first {n : Nat} {o first : Delivery} {d : Part} (ho : d.rlp.passOutcome = some first) :
    noteOutcome n o d = d := by
  unfold noteOutcome completePass
  rw [ho]
  repeat' split
  all_goals first | rfl | contradiction

theorem doNodePass_staged {node value : Word} {k : Nat} {r : OutRecord} {d : Part}
    (hf : passRefusal node.toNat d = none) (hk : d.outSlot node.toNat = some k)
    (hr : entry d.slc.out k = some r) (ho : d.rlp.passOutcome = none) :
    doNodePass node value d = ({ d with slc.out := d.slc.out.set k (some { r with
      staged := some value, lastWriter := some .rlp, owed := true, forBranch := none }) },
      .pass node.toNat) := by
  have hd : ({ d with rlp.passOutcome := none } : Part) = d := by rw [← ho]
  simp only [doNodePass, hf, hd, stage_own hk hr]

/-! ## The completion -/

/-- A NODE PASS at the head, its outcome known, is answered, and the request leaves (R162). -/
theorem deliverPass_waiting {n : Nat} {o : Delivery} {q : Queued} {d : Part}
    (hp : d.rlp.phase = .passing n) (ho : d.rlp.passOutcome = some o) (hq : d.rlp.requests = [q])
    (hd : d.rlp.detail = none) (hl : d.rlp.responses.length < 8) :
    deliverPass d = appendResponse (.response ((passAnswer n o).response q.tag)) { d with rlp := { d.rlp with
      requests := [], phase := .fresh, detail := detailAfter (passAnswer n o) q, passOutcome := none } } := by
  have hnote : noteDetail (passAnswer n o) q { d with rlp.passOutcome := none } =
      { d with rlp := { d.rlp with detail := detailAfter (passAnswer n o) q, passOutcome := none } } := by
    unfold noteDetail detailAfter
    split
    · rw [← hd]
    · rfl
  unfold deliverPass
  rw [hp, ho, hq]
  simp only
  rw [pumpAll_answering (q := q) (r := (passAnswer n o).response q.tag), answerHead, hnote]
  · rfl
  · rw [answerHead, hnote]
    exact hq
  · rfl
  · rw [answerHead, hnote]
    exact hl
  · rfl

theorem exec_passComplete {s : State} {n : Nat} {o : Delivery} {q : Queued} (hr : s.part.running)
    (hp : s.part.rlp.phase = .passing n) (hq : s.part.rlp.requests = [q]) (hd : s.part.rlp.detail = none)
    (hl : s.part.rlp.responses.length < 8) :
    exec (.nodePassComplete o) s = .next { s with part := answeredBy (passAnswer n o) q s.part } := by
  obtain ⟨hres, hag, hout⟩ := hr
  have hc : completePass o s.part = { s.part with rlp.passOutcome := some o } := by
    simp only [completePass, hp, hout]
  have hu := appendResponse_uplinked (.response ((passAnswer n o).response q.tag)) { s.part with
    rlp := { s.part.rlp with
      requests := [], phase := .fresh, detail := detailAfter (passAnswer n o) q, passOutcome := none } }
  refine (act_running _ _ hres).trans ?_
  rw [hc]
  unfold complete
  rw [settleAll_nil { s.part with rlp.passOutcome := some o } hag,
    deliverPass_waiting (d := { s.part with rlp.passOutcome := some o }) hp rfl hq hd hl,
    quieten_quiet _ (hu.quiet ⟨hag, rfl⟩)]
  unfold answeredBy
  congr 4
  rw [← hout]

/-- Settles O51: the checks in their order, the stage, and the outcome that completes the request. -/
theorem nodePassActs : Obligations.NodePassActs := by
  refine ⟨fun s tag node value hs => ?_, fun d b node o w v => ⟨fun hp => ?_, fun hp ho => ?_, fun first ho => ?_⟩,
    fun s o hr hl => ⟨fun n q hp hq hd hlen => ?_, fun hp => ?_⟩⟩
  · have refused {a : Answer} (h : passRefusal node.toNat (s.part.opened ⟨tag, .nodePass node value⟩) =
        some a) : exec (.nodePass tag node value) s =
          .next { s with part := answeredBy a ⟨tag, .nodePass node value⟩ s.part } :=
      exec_answers_same rfl hs (by simp only [execRequest, doNodePass, h])
    refine ⟨fun h => refused (passRefusal_range (by omega)),
      fun h h' hk => refused (passRefusal_noSlot h h' hk), fun k h h' hk =>
        ⟨fun hw => refused (passRefusal_written h h' hk hw),
          fun hw => ⟨fun b x hb hx => refused (passRefusal_owned h h' hk hw hb hx), fun hfree hl r hr => ?_⟩⟩⟩
    have hb : beginHead ⟨tag, .nodePass node value⟩ { s.part with
          rlp.requests := [⟨tag, .nodePass node value⟩], rlp.phase := .fresh } =
        { s.part with
          slc.out := s.part.slc.out.set k (some { r with
            staged := some value, lastWriter := some .rlp, owed := true, forBranch := none })
          rlp := { s.part.rlp with
            requests := [⟨tag, .nodePass node value⟩], phase := .passing node.toNat, detail := none } } := by
      show replyHead (doNodePass node value (s.part.opened ⟨tag, .nodePass node value⟩)).2 _
        (settleAll (doNodePass node value (s.part.opened ⟨tag, .nodePass node value⟩)).1) = _
      rw [doNodePass_staged (d := s.part.opened _) (passRefusal_none h h' hk hw hfree) hk hr hs.1.2.2, settleAll_nil _ (by exact hs.1.2.1)]
      rfl
    refine act_same _ s _ hs.1 ?_ (by exact hs.1.2) (by exact hl)
    rw [arrive_begins hs.2.1 hb]
    exact pump_none _ _ (moveHead_passing rfl)
  · exact ⟨noteOutcome_other hp, by
      by_cases h : supersedes w node d
      · rw [stage_rlp_superseded h, noteOutcome_other hp]
      · exact stage_rlp_other h⟩
  · refine ⟨noteOutcome_waiting hp ho, fun h => ?_, stage_rlp_other⟩
    exact (stage_rlp_superseded h).trans (by rw [noteOutcome_waiting hp ho])
  · exact ⟨noteOutcome_first ho, by
      by_cases h : supersedes w node d
      · rw [stage_rlp_superseded h, noteOutcome_first ho]
      · exact stage_rlp_other h⟩
  · rw [exec_passComplete hr hp hq hd hlen]
    cases o <;> rfl
  · refine act_same _ s _ hr ?_ hr.2 hl
    unfold completePass
    split
    · exact absurd ‹_› (hp _)
    · rfl

end Sys2Proof.Machine

/-! PROOFS. READ TABLE (R174): its checks, a read of one block, and a read of several behind a busy transmitter. -/

namespace Sys2Proof.Machine

-- One proof after another: proofs that are checked side by side take a thread each.
set_option Elab.async false

/-! ## The checks -/

section
variable {table start count : Word} {d : Part}

theorem doReadTable_unknown (h : TableId.ofCode table.toNat = none) :
    doReadTable table start count d = (d, .answer (Answer.refuse .range none (some 0) count.toNat)) := by
  simp only [doReadTable, h]

variable {t : TableId} (ht : TableId.ofCode table.toNat = some t)
include ht

theorem doReadTable_count (h : count.toNat < 1 ∨ 256 < count.toNat) : doReadTable table start count d =
    (d, .answer (Answer.refuse .range none (some 2) count.toNat)) := by
  simp only [doReadTable, ht, if_pos h]

variable (h1 : 1 ≤ count.toNat) (h256 : count.toNat ≤ 256)
include h1 h256

theorem doReadTable_start (h : tableSize t ≤ start.toNat) : doReadTable table start count d =
    (d, .answer (Answer.refuse .range (some start.toNat) (some 1) count.toNat)) := by
  simp only [doReadTable, ht, if_neg (show ¬ (count.toNat < 1 ∨ 256 < count.toNat) by omega), if_pos h]

/-- The final answer of a read: DONE, or END_OF_TABLE where the table ends first. -/
def readAnswer (t : TableId) (start count : Nat) : Answer :=
  if start + count ≤ tableSize t then Answer.done []
  else Answer.refuse .endOfTable (some (tableSize t - 1)) none
    (count - min count (tableSize t - start))

theorem doReadTable_read (h : start.toNat < tableSize t) : doReadTable table start count d =
    (d, .read t start.toNat (min count.toNat (tableSize t - start.toNat))
      (readAnswer t start.toNat count.toNat)) := by
  have hiff : (min count.toNat (tableSize t - start.toNat) = count.toNat) =
      (start.toNat + count.toNat ≤ tableSize t) := propext (by omega)
  simp only [doReadTable, ht, if_neg (show ¬ (count.toNat < 1 ∨ 256 < count.toNat) by omega),
    if_neg (Nat.not_le.mpr h), hiff, readAnswer]

end

/-! ## A read begins -/

/-- The part in which a read with the final answer `a` has begun (R174, R159). -/
def readBegun (q : Queued) (a : Answer) (d : Part) : Part :=
  { d with rlp := { d.rlp with requests := [q], phase := .fresh, detail := detailAfter a q } }

theorem beginHead_read {q : Queued} {t : TableId} {start n : Nat} {a : Answer} {d : Part}
    (hq : d.agenda = []) (he : execRequest d.rlp.detail q.req (d.opened q) =
      (d.opened q, .read t start n a)) :
    beginHead q { d with rlp.requests := [q], rlp.phase := .fresh } =
      setPhase (.reading t start n d.rlp.features.readBlock (a.response q.tag)) (readBegun q a d) := by
  show replyHead (execRequest d.rlp.detail q.req (d.opened q)).2 q
    (settleAll (execRequest d.rlp.detail q.req (d.opened q)).1) = _
  rw [he, settleAll_nil _ (by exact hq)]
  show setPhase _ (noteDetail a q (d.opened q)) = _
  unfold noteDetail readBegun detailAfter
  split <;> rfl

/-! ## One block -/

/-- What the arbiter does not read may be set before its decision or after it. -/
theorem arbitrate_head (rq : List Queued) (p : HeadPhase) (x : Option FaultDetail) (d : Part) :
    arbitrate { d with rlp := { d.rlp with requests := rq, phase := p, detail := x } } =
      { arbitrate d with rlp := { (arbitrate d).rlp with requests := rq, phase := p, detail := x } } := by
  unfold arbitrate
  dsimp only
  repeat' split
  all_goals rfl

theorem arbitrate_responses_length (d : Part) :
    (arbitrate d).rlp.responses.length ≤ d.rlp.responses.length := (arbitrate_settled d).responses

theorem appendResponse_length (m : Uplink) (d : Part) :
    (appendResponse m d).rlp.responses.length ≤ d.rlp.responses.length + 1 := by
  refine (arbitrate_responses_length _).trans ?_
  simp

/-- A read whose records fit one block, with room for its DATA message and its final response. -/
theorem pump_oneBlock {q : Queued} {t : TableId} {start n block : Nat} {a : Answer} {d : Part}
    (hn : n ≤ block) (hl : d.rlp.responses.length ≤ 6) (k : Nat) :
    pump (k + 2) (setPhase (.reading t start n block (a.response q.tag)) (readBegun q a d)) =
      appendResponse (.response (a.response q.tag)) { appendResponse (.data q.tag t start
          ((List.range n).map fun i => readEntry t (start + i) d)) d with
        rlp := { (appendResponse (.data q.tag t start
            ((List.range n).map fun i => readEntry t (start + i) d)) d).rlp with
          requests := [], phase := .fresh, detail := detailAfter a q } } := by
  have hdata : appendData t start n block (a.response q.tag)
      (setPhase (.reading t start n block (a.response q.tag)) (readBegun q a d)) =
      { appendResponse (.data q.tag t start ((List.range n).map fun i => readEntry t (start + i) d)) d with
        rlp := { (appendResponse (.data q.tag t start
            ((List.range n).map fun i => readEntry t (start + i) d)) d).rlp with
          requests := [q], phase := .answering (a.response q.tag), detail := detailAfter a q } } := by
    unfold appendData
    simp only [Nat.min_eq_right hn, le_refl, if_true]
    exact arbitrate_head [q] (.answering (a.response q.tag)) (detailAfter a q) { d with
      rlp.responses := d.rlp.responses ++ [.data q.tag t start
        ((List.range n).map fun i => readEntry t (start + i) d)] }
  have hlen := appendResponse_length (.data q.tag t start
    ((List.range n).map fun i => readEntry t (start + i) d)) d
  rw [pump_some (k + 1) _ _ (moveHead_reading rfl (by show d.rlp.responses.length < 8; omega)), hdata]
  generalize appendResponse (.data q.tag t start
    ((List.range n).map fun i => readEntry t (start + i) d)) d = e at hlen ⊢
  rw [pump_some k _ _ (moveHead_answering _ (a.response q.tag) (by rfl) (by dsimp only; omega)),
    pump_none _ _ (appendFinal_idle _ _ q rfl (by rfl))]
  rfl

/-! ## Several blocks -/

/-- DATA message `i` of a read. -/
def readData (tag : Word) (t : TableId) (start n block : Nat) (d : Part) (i : Nat) : Uplink :=
  .data tag t (start + i * block) ((List.range (min block (n - i * block))).map fun x =>
    readEntry t (start + i * block + x) d)

/-- The part after `m` DATA messages of a read behind a message that is being sent. -/
def readAfter (r : Response) (t : TableId) (start n block m : Nat) (d : Part) : Part :=
  { d with rlp := { d.rlp with
    responses := d.rlp.responses ++ (List.range m).map (readData r.tag t start n block d)
    phase := if n ≤ m * block then .answering r
      else .reading t (start + m * block) (n - m * block) block r } }

section
variable {r : Response} {t : TableId} {start n block : Nat} {d : Part} {x : Uplink}

theorem readAfter_zero (hn : 1 ≤ n) :
    setPhase (.reading t start n block r) d = readAfter r t start n block 0 d := by
  have h0 : ¬ n ≤ 0 := by omega
  simp [readAfter, setPhase, h0]

theorem readAfter_length (m : Nat) :
    (readAfter r t start n block m d).rlp.responses.length = d.rlp.responses.length + m := by
  simp [readAfter]

theorem moveHead_readAfter (htx : d.rlp.tx = some x) {m : Nat} (hm : m * block < n)
    (hl : d.rlp.responses.length + m < 8) :
    moveHead (readAfter r t start n block m d) = some (readAfter r t start n block (m + 1) d) := by
  have hp : (readAfter r t start n block m d).rlp.phase =
      .reading t (start + m * block) (n - m * block) block r := if_neg (Nat.not_le.mpr hm)
  rw [moveHead_reading hp (by rw [readAfter_length]; exact hl), appendData_busy (x := x) (by exact htx)]
  have hle : (n - m * block ≤ block) = (n ≤ (m + 1) * block) := by
    rw [Nat.succ_mul]
    exact propext (by omega)
  have hfirst : start + m * block + block = start + (m + 1) * block := by rw [Nat.succ_mul, Nat.add_assoc]
  have hleft : n - m * block - block = n - (m + 1) * block := by rw [Nat.succ_mul, Nat.sub_sub]
  have hresp : d.rlp.responses ++ (List.range m).map (readData r.tag t start n block d) ++
      [readData r.tag t start n block d m] =
      d.rlp.responses ++ (List.range (m + 1)).map (readData r.tag t start n block d) := by
    rw [List.range_succ, List.map_append, List.append_assoc]
    rfl
  simp only [hle, hfirst, hleft]
  unfold readAfter
  rw [← hresp]
  rfl

/-- The head appends its DATA messages as long as the Response Queue has room. -/
theorem pump_readAfter (htx : d.rlp.tx = some x) (k m : Nat)
    (hm : ∀ j < m, j * block < n ∧ d.rlp.responses.length + j < 8) :
    pump (k + m) (readAfter r t start n block 0 d) = pump k (readAfter r t start n block m d) := by
  induction m generalizing k with
  | zero => rfl
  | succ m ih =>
    obtain ⟨hlt, hlen⟩ := hm m (Nat.lt_succ_self m)
    rw [show k + (m + 1) = (k + 1) + m by omega, ih (k + 1) fun j hj => hm j (by omega),
      pump_some k _ _ (moveHead_readAfter htx hlt hlen)]

end

/-- The number of DATA messages of a read. -/
theorem lt_blocks_iff {n block m : Nat} (hb : 1 ≤ block) :
    m < (n + block - 1) / block ↔ m * block < n := by
  rw [Nat.lt_div_iff_mul_lt (by omega)]
  have := Nat.mul_comm block m
  omega

/-- Settles O44, by the blocks. -/
theorem readTableActs : Obligations.ReadTableActs := by
  intro s tag table start count hs
  obtain ⟨⟨hres, hqu⟩, hreq, hlen⟩ := hs
  have refused {a : Answer} (h : doReadTable table start count
        (s.part.opened ⟨tag, .readTable table start count⟩) =
        (s.part.opened ⟨tag, .readTable table start count⟩, .answer a)) :
      exec (.readTable tag table start count) s =
        .next { s with part := answeredBy a ⟨tag, .readTable table start count⟩ s.part } :=
    exec_answers_same rfl ⟨⟨hres, hqu⟩, hreq, hlen⟩ h
  refine ⟨fun h => refused (doReadTable_unknown h), fun t ht => ⟨fun h => refused (doReadTable_count ht h),
    fun h1 h256 h => refused (doReadTable_start ht h1 h256 h), fun h1 h256 hlt hfit hl => ?_,
    fun h1 h256 hlt hblock htx => ?_⟩⟩
  all_goals
    intro n
    have hread : beginHead ⟨tag, .readTable table start count⟩ { s.part with
        rlp.requests := [⟨tag, .readTable table start count⟩], rlp.phase := .fresh } =
        setPhase (.reading t start.toNat n s.part.rlp.features.readBlock
          ((readAnswer t start.toNat count.toNat).response tag))
          (readBegun ⟨tag, .readTable table start count⟩ (readAnswer t start.toNat count.toNat) s.part) :=
      beginHead_read hqu.1 (doReadTable_read ht h1 h256 hlt)
    have hact {d : Part} (h : pump 63 (setPhase (.reading t start.toNat n s.part.rlp.features.readBlock
          ((readAnswer t start.toNat count.toNat).response tag))
          (readBegun ⟨tag, .readTable table start count⟩ (readAnswer t start.toNat count.toNat) s.part)) = d)
        (hq : d.quiet) : exec (.readTable tag table start count) s =
          .next { s with part := refreshLines d } := by
      refine (act_running _ _ hres).trans ?_
      rw [arrive_begins hreq hread, h, complete_quiet _ hq]
  · intro a data
    have hu := (appendResponse_uplinked data s.part)
    refine hact (pump_oneBlock hfit hl 61) ?_
    exact (appendResponse_uplinked _ _).quiet (hu.quiet hqu)
  · intro block blocks a data queued room reads
    obtain ⟨x, hx⟩ := Option.ne_none_iff_exists'.mp htx
    let q : Queued := ⟨tag, .readTable table start count⟩
    let base := readBegun q (readAnswer t start.toNat count.toNat) s.part
    let r := (readAnswer t start.toNat count.toNat).response tag
    have hn : 1 ≤ n := by omega
    have hroom8 : room = 8 - s.part.rlp.responses.length := rfl
    have hlast : n ≤ blocks * block := Nat.not_lt.mp fun h => Nat.lt_irrefl _ ((lt_blocks_iff hblock).mpr h)
    have stepped (m : Nat) (hm : m ≤ blocks) (hm8 : m ≤ room) (k : Nat) (hk : k + m = 63) :
        pump 63 (setPhase (.reading t start.toNat n block r) base) =
          pump k (readAfter r t start.toNat n block m base) := by
      rw [readAfter_zero hn, ← hk]
      refine pump_readAfter (d := base) (x := x) hx k m fun j hj => ⟨(lt_blocks_iff hblock).mp (show j < blocks by omega), ?_⟩
      show s.part.rlp.responses.length + j < 8
      omega
    have waits (d : Part) (h : pump 63 (setPhase (.reading t start.toNat n block r) base) = d)
        (hq : d.quiet) : exec (.readTable tag table start count) s =
          .next { s with part := refreshLines d } := hact h hq
    refine ⟨fun hroom => ?_, fun hroom => ?_, fun hroom => ?_⟩
    · refine waits _ ?_ hqu
      rw [stepped blocks (le_refl _) (by omega) (62 - blocks + 1) (by omega)]
      have hp : (readAfter r t start.toNat n block blocks base).rlp.phase = .answering r := if_pos hlast
      have hl : (readAfter r t start.toNat n block blocks base).rlp.responses.length < 8 := by
        rw [readAfter_length]
        show s.part.rlp.responses.length + blocks < 8
        omega
      rw [pump_some _ _ _ (moveHead_answering _ r hp hl), pump_none _ _ (appendFinal_idle r _ q rfl rfl)]
      unfold appendFinal
      rw [if_neg (by exact nofun), appendResponse_busy (x := x) (by exact hx)]
      simp only [← List.append_assoc]
      rfl
    · refine waits _ ?_ hqu
      rw [stepped blocks (le_refl _) (by omega) (63 - blocks) (by omega)]
      have hp : (readAfter r t start.toNat n block blocks base).rlp.phase = .answering r := if_pos hlast
      rw [pump_none _ _ (moveHead_full _ r hp ?_)]
      · unfold readAfter
        rw [if_pos hlast]
        rfl
      · rw [readAfter_length]
        show ¬ s.part.rlp.responses.length + blocks < 8
        omega
    · refine waits _ ?_ hqu
      have hmore : ¬ n ≤ room * block := Nat.not_le.mpr ((lt_blocks_iff hblock).mp hroom)
      rw [stepped room hroom.le (le_refl _) (63 - room) (by omega)]
      have hp : (readAfter r t start.toNat n block room base).rlp.phase =
          .reading t (start.toNat + room * block) (n - room * block) block r := if_neg hmore
      rw [pump_none _ _ (moveHead_readingFull hp ?_)]
      · unfold readAfter
        rw [if_neg hmore]
        rfl
      · rw [readAfter_length]
        show 8 ≤ s.part.rlp.responses.length + room
        omega

end Sys2Proof.Machine

/-! PROOFS. The classification of a channel over a run of samples (R30, R31, R34), and what a class change brings
about: its event and its trip action (R36 to R38). -/

namespace Sys2Proof.Machine

-- One proof after another: proofs that are checked side by side take a thread each.
set_option Elab.async false

/-! ## A run of persistence samples -/

/-- A channel that is `n` samples into a run of raw class `r` (R30): before the run's first sample its candidate is
another class or none. -/
def midRun (x : ChannelState) (r : ChanClass) (n : Nat) : Prop :=
  (x.candidate = some r ∧ x.count = n) ∨ (x.candidate ≠ some r ∧ n = 0)

section
variable {p : Params} {x : ChannelState} {v : Int} {r : ChanClass} {n : Nat} (hx : x.cls ≠ .stale)
  (hr : r ≠ x.cls) (hv : rawClass p.limits x.cls v = r) (hn : midRun x r n)
include hx hr hv hn

theorem classify_settles (h : p.persistence ≤ n + 1) : classify p x v =
    ({ x with cls := r, last := some v, candidate := none, count := 0, miss := 0 }, true) := by
  rcases hn with ⟨hc, hk⟩ | ⟨hc, hk⟩ <;> subst hk <;> simp [classify, hx, hv, hr, hc, h]

theorem classify_goesOn (h : n + 1 < p.persistence) : classify p x v =
    ({ x with last := some v, candidate := some r, count := n + 1, miss := 0 }, false) := by
  rcases hn with ⟨hc, hk⟩ | ⟨hc, hk⟩ <;> subst hk <;>
    simp only [classify, hx, hv, hr, hc, if_false, if_true] <;> rw [if_neg (by omega)]

end

theorem classify_run (p : Params) (r : ChanClass) (vs : List Int) (x : ChannelState) (n : Nat)
    (hx : x.cls ≠ .stale) (hr : r ≠ x.cls) (hn : midRun x r n)
    (hv : ∀ v ∈ vs, rawClass p.limits x.cls v = r) (hne : vs ≠ []) (hlen : n + vs.length ≤ p.persistence) :
    vs.foldl (fun z v => (classify p z v).1) x = { x with
      cls := if n + vs.length = p.persistence then r else x.cls
      last := vs.getLast?
      candidate := if n + vs.length = p.persistence then none else some r
      count := if n + vs.length = p.persistence then 0 else n + vs.length
      miss := 0 } := by
  induction vs generalizing x n with
  | nil => exact absurd rfl hne
  | cons v rest ih =>
    have hfirst : rawClass p.limits x.cls v = r := hv v (by simp)
    rw [List.length_cons] at hlen
    rw [List.foldl_cons]
    cases rest with
    | nil =>
      rw [List.length_nil] at hlen
      by_cases hlast : n + 1 = p.persistence
      · simp [classify_settles hx hr hfirst hn hlast.ge, hlast]
      · simp [classify_goesOn hx hr hfirst hn (by omega), hlast]
    | cons w more =>
      rw [List.length_cons] at hlen
      rw [classify_goesOn hx hr hfirst hn (by omega)]
      simp only
      rw [ih { x with last := some v, candidate := some r, count := n + 1, miss := 0 } (n + 1) hx hr (.inl ⟨rfl, rfl⟩) (fun u hu => hv u (List.mem_cons_of_mem _ hu)) (by simp)
        (by simp only [List.length_cons]; omega)]
      have hlen' : n + 1 + (w :: more).length = n + (v :: w :: more).length := by
        simp only [List.length_cons]
        omega
      rw [hlen']
      simp [List.getLast?_cons_cons]

/-- Settles O13, by induction on the run. -/
theorem persistenceRun : Obligations.PersistenceRun := by
  unfold Obligations.PersistenceRun
  refine ⟨fun p x r vs hx hr hc _ hv hne hlen => ?_, fun p x v => ⟨?_, ?_, ?_⟩⟩
  · simp only [classify_run p r vs x 0 hx hr (.inr ⟨by simp [hc], rfl⟩) hv hne (by omega), Nat.zero_add]
    refine ⟨trivial, trivial, trivial, ?_⟩
    split <;> exact ⟨rfl, rfl, rfl⟩
  · intro hx
    simp [classify, hx]
  · intro hx hr
    simp [classify, hx, hr]
  · intro hx hr hc hp
    exact classify_goesOn (n := 0) hx hr rfl (.inr ⟨hc, rfl⟩) (by omega)

/-! ## Trips -/

/-- A branch's configured fields and its TRIP hold. -/
def tripPairOf (v : BranchCfg × Holds × Bool × Option Nat × Bool) : BranchCfg × Bool := (v.1, v.2.1.trip)

/-- What a trip is told by. -/
def Branch.tripPair : Branch → BranchCfg × Bool := tripPairOf ∘ Branch.settledView

/-- No TRIP hold comes or goes. -/
def TripsStand (d d' : Part) : Prop :=
  d'.bcu.branches.map (Option.map Branch.tripPair) = d.bcu.branches.map (Option.map Branch.tripPair)

namespace TripsStand

theorem trans {a b c : Part} (h : TripsStand a b) (g : TripsStand b c) : TripsStand a c := Eq.trans g h

theorem of_bcu {d d' : Part} (h : d'.bcu = d.bcu) : TripsStand d d' := by
  unfold TripsStand
  rw [h]

theorem of_settled {d d' : Part} (h : Settled d d') : TripsStand d d' := map_view tripPairOf h.views

theorem of_sourced {d d' : Part} (h : Sourced d d') : TripsStand d d' :=
  map_view (u := Branch.sourceView) (fun v => (v.1, v.2.2.1)) h.views

theorem of_leaked {d d' : Part} (h : Leaked d d') : TripsStand d d' :=
  map_view (u := Branch.leakView) (fun v => (v.1, v.2.1)) h.views

theorem branch {d d' : Part} (h : TripsStand d d') (b : Nat) :
    (d'.branch b).map Branch.tripPair = (d.branch b).map Branch.tripPair := by
  unfold Part.branch
  rw [entry_map, entry_map, h]

theorem setFreshness (n : Nat) (v : Bool) (d : Part) : TripsStand d (setFreshness n v d) := by
  unfold Machine.setFreshness
  split
  · rfl
  · split
    · rfl
    · rename_i x hx
      exact map_set_same _ _ _ x _ hx rfl

theorem handClass (k n : Nat) (kind : ChannelKind) (c : ChanClass) (d : Part) :
    TripsStand d (handClass k n kind c d) := by
  unfold Machine.handClass
  split
  · rfl
  · rfl
  · exact .setFreshness _ _ d
  · split
    · exact of_leaked (pointsStale_leaked _ _ d)
    · exact of_leaked (pointsUnseen_leaked _ _ d)
    · rfl
  · exact of_sourced (deriveModules_sourced d)

theorem handSample (k n : Nat) (kind : ChannelKind) (c : ChanClass) (changed : Bool) (d : Part) :
    TripsStand d (handSample k n kind c changed d) := by
  unfold Machine.handSample
  split
  · exact .handClass _ _ _ _ d
  · rfl

end TripsStand

/-- A branch as the trip of a node leaves its configured fields, its holds and its CTRL demand. -/
def trippedView (node : Nat) (v : BranchCfg × Holds × Bool × Option Nat × Bool) :
    BranchCfg × Holds × Bool × Option Nat × Bool :=
  (v.1, if v.1.node = node then { v.2.1 with trip := true } else v.2.1, v.2.2)

theorem tripNode_view (node : Nat) (d : Part) {b : Nat} (hb : b < 36) :
    ((tripNode node d).branch b).map Branch.settledView =
      (d.branch b).map fun x => trippedView node x.settledView := by
  refine forBranches_view id (fun _ x => if x.cfg.node = node then x.withTrip true else x) (trippedView node) d
    (fun _ x => ?_) (fun _ x _ => ?_) hb
  · split <;> rfl
  · by_cases h : x.cfg.node = node <;> simp [trippedView, Branch.settledView, Branch.withTrip, h]

/-- A trip action that trips the branches of the node (R37, R38). -/
def trips (a : TripAction) (node : Nat) (d : Part) : Prop :=
  a = .branchTrip ∨ (a = .nodeStandby ∧ (d.branchAt node).isSome)

theorem takeTrip_trips {a : TripAction} {node : Nat} {d : Part} (h : trips a node d) :
    takeTrip a node d = tripNode node d := by
  rcases h with rfl | ⟨rfl, hs⟩
  · rfl
  · obtain ⟨b, hb⟩ := Option.isSome_iff_exists.mp hs
    simp only [takeTrip, standbyNode, hb]

theorem stage_tlf {b : Option Nat} {n k : Nat} {v : Word} {w : Writer} {d : Part} {r : OutRecord}
    (hk : d.outSlot n = some k) (hr : entry d.slc.out k = some r) : stage w b n v d =
      ({ tellSuperseded w n r d with slc.out := d.slc.out.set k (some { r with
        staged := some v, lastWriter := some w, owed := true, forBranch := b }) }, false) := by
  simp only [stage, hk, hr, tellSuperseded_slc]

/-- An entry that is replaced in a table that has it. -/
theorem entry_set_same {α : Type} {l : List (Option α)} {k : Nat} {x y : α} (h : entry l k = some x) :
    entry (l.set k (some y)) k = some y := by
  simp [entry, entry_lt h]

theorem takeTrip_standby {node k : Nat} {d : Part} {r : OutRecord} (h : d.branchAt node = none)
    (hk : d.outSlot node = some k) (hr : entry d.slc.out k = some r) :
    entry (takeTrip .nodeStandby node d).slc.out k =
      some { r with staged := some 2, lastWriter := some .tlf, owed := true, forBranch := none } := by
  simp only [takeTrip, standbyNode, h, stage_tlf hk hr]
  exact entry_set_same hr

/-- The TRIP holds that a trip action leaves. -/
theorem takeTrip_tripPair (a : TripAction) (node : Nat) (d : Part) {b : Nat} {x : Branch}
    (hb : b < 36) (hx : d.branch b = some x) : ((takeTrip a node d).branch b).map Branch.tripPair =
      some (x.cfg, if x.cfg.node = node ∧ a ≠ .never then true else x.holds.trip) := by
  by_cases ha : trips a node d
  · have hne : a ≠ .never := by
      rcases ha with rfl | ⟨rfl, -⟩ <;> exact nofun
    have h := congrArg (Option.map tripPairOf) (tripNode_view node d hb)
    rw [takeTrip_trips ha]
    rw [hx] at h
    simp only [Option.map_map, Option.map_some] at h
    refine h.trans ?_
    by_cases hn : x.cfg.node = node <;> simp [tripPairOf, trippedView, Branch.settledView, hn, hne]
  · cases a with
    | never => simp [takeTrip, hx, Branch.tripPair, tripPairOf, Branch.settledView]
    | branchTrip => exact absurd (.inl rfl) ha
    | nodeStandby =>
      have hnone : d.branchAt node = none := by
        by_contra hne
        exact ha (.inr ⟨rfl, Option.isSome_iff_ne_none.mpr hne⟩)
      have hnode : x.cfg.node ≠ node := fun hn => by
        have := branchAt_isSome_iff.mpr ⟨b, x, hx, hn⟩
        simp [hnone] at this
      have hbcu : (takeTrip .nodeStandby node d).bcu = d.bcu := by
        have hs := stage_bcu .tlf none node ctlStandby d
        simp only [takeTrip, standbyNode, hnone]
        split
        · rename_i e he
          rw [he] at hs
          exact (post_uplinked _ _ _ _).bcu.trans hs
        · rename_i e he
          rw [he] at hs
          exact hs
      rw [branch_of_bcu (congrArg Bcu.branches hbcu)]
      simp [hx, hnode, Branch.tripPair, tripPairOf, Branch.settledView]

/-! ## What a GOOD sample does -/

theorem arbitrate_events (d : Part) : (arbitrate d).rlp.events.length ≤ d.rlp.events.length := by
  unfold arbitrate
  split
  · exact le_refl _
  · split
    · rename_i he
      simp [serveEvent, he]
    · repeat' split
      all_goals exact le_refl _

theorem forward_events (r : SampleRecord) (d : Part) :
    (forward r d).rlp.events.length ≤ d.rlp.events.length := by
  unfold forward
  split <;> exact arbitrate_events _

theorem forward_uplinked (r : SampleRecord) (d : Part) : Uplinked d (forward r d) := by
  unfold forward
  split
  · exact Uplinked.trans (d' := { d with tlf.queue := d.tlf.queue ++ [r] }) ⟨by rfl⟩ (arbitrate_uplinked _)
  · exact Uplinked.trans (d' := { d with
      tlf.queue := d.tlf.queue.drop 1 ++ [r], tlf.drops := satInc d.tlf.drops }) ⟨by rfl⟩ (arbitrate_uplinked _)

/-- The part with a classified sample stored, and forwarded where it is to be. -/
def stored (k : Nat) (x : ChannelState) (fwd : Bool) (r : SampleRecord) (d : Part) : Part :=
  if fwd then forward r (putChannel k x d) else putChannel k x d

theorem stored_uplinked (k : Nat) (x : ChannelState) (fwd : Bool) (r : SampleRecord) (d : Part) :
    Uplinked (putChannel k x d) (stored k x fwd r d) := by
  unfold stored
  split
  · exact forward_uplinked r _
  · exact ⟨by rfl⟩

theorem stored_events (k : Nat) (x : ChannelState) (fwd : Bool) (r : SampleRecord) (d : Part) :
    (stored k x fwd r d).rlp.events.length ≤ d.rlp.events.length := by
  unfold stored
  split
  · exact forward_events r _
  · exact le_refl _

/-- Whether a sample is forwarded (R39, R41). -/
def isForwarded (p : Params) (x : ChannelState) (v : Int) (d : Part) : Bool :=
  d.rlp.features.forwarding && forwards p x (classify p x v).2 v

/-- The Channel State record that a GOOD sample leaves. -/
def sampled (p : Params) (x : ChannelState) (v : Int) (d : Part) : ChannelState :=
  if isForwarded p x v d then { (classify p x v).1 with lastForwarded := some v } else (classify p x v).1

/-- What a GOOD sample does up to the hand-off to the owner of the channel's kind. -/
def acted (k node : Nat) (p : Params) (x : ChannelState) (kind : ChannelKind) (v : Int) (d : Part) : Part :=
  let y := classify p x v
  let e := stored k (sampled p x v d) (isForwarded p x v d) ⟨node, kind, v, y.1.cls, d.slc.cycle⟩ d
  let f := if y.2 then postClass k node x.cls y.1.cls e else e
  if y.2 && y.1.cls.isTrip then takeTrip p.action node f else f

theorem goodSample_eq {k node : Nat} {kind : ChannelKind} {limit : Option Nat} {v : Int} {d : Part}
    {x : ChannelState} (h : entry d.tlf.channels k = some x) : goodSample k node kind limit v d =
      handSample k node kind (classify (paramsOf d kind limit) x v).1.cls
        (classify (paramsOf d kind limit) x v).2 (acted k node (paramsOf d kind limit) x kind v d) := by
  simp only [goodSample, h]
  rfl

theorem handSample_frame (k n : Nat) (kind : ChannelKind) (c : ChanClass) (changed : Bool) (d : Part) :
    Frame d (handSample k n kind c changed d) := by
  unfold handSample
  split
  · exact handClass_frame k n kind c d
  · exact .refl d

theorem postClass_eq {old new : ChanClass} {e : EventKind} (h : limitEvent old new = some e) (k node : Nat)
    (d : Part) : postClass k node old new d = post e (some node) (some (k * 256 + new.code)) d := by
  simp only [postClass, h]

section
variable {k node : Nat} {p : Params} {x : ChannelState} {kind : ChannelKind} {v : Int} {d : Part}

theorem acted_holds (hc : (classify p x v).2 = true) {e : EventKind}
    (he : limitEvent x.cls (classify p x v).1.cls = some e) (hr : d.rlp.events.length < 64) :
    (acted k node p x kind v d).holdsEvent
      ⟨e, some node, some (k * 256 + (classify p x v).1.cls.code), d.slc.cycle⟩ := by
  simp only [acted, hc, if_true, Bool.true_and, postClass_eq he]
  have hu := stored_uplinked k (sampled p x v d) (isForwarded p x v d)
    ⟨node, kind, v, (classify p x v).1.cls, d.slc.cycle⟩ d
  have hl := stored_events k (sampled p x v d) (isForwarded p x v d)
    ⟨node, kind, v, (classify p x v).1.cls, d.slc.cycle⟩ d
  generalize stored k _ _ _ d = f at hu hl
  have posted := post_holds e (some node) (some (k * 256 + (classify p x v).1.cls.code)) f (by omega)
  rw [hu.slc] at posted
  split
  · exact (takeTrip_kept _ _ _).holds _ posted
  · exact posted

theorem isTrip_iff (c : ChanClass) : c.isTrip = true ↔ c = .tripLow ∨ c = .tripHigh := by
  cases c <;> decide

theorem acted_tripPair {b : Nat} {z : Branch} (hb : b < 36) (hz : d.branch b = some z) :
    ((acted k node p x kind v d).branch b).map Branch.tripPair = some (z.cfg,
      if ((classify p x v).2 = true ∧ (classify p x v).1.cls.isTrip = true) ∧ z.cfg.node = node ∧
        p.action ≠ .never then true else z.holds.trip) := by
  have hu := stored_uplinked k (sampled p x v d) (isForwarded p x v d)
    ⟨node, kind, v, (classify p x v).1.cls, d.slc.cycle⟩ d
  unfold acted
  simp only
  generalize stored k _ _ _ d = e at hu
  have hbranch : (if (classify p x v).2 = true then postClass k node x.cls (classify p x v).1.cls e
      else e).branch b = some z := by
    refine Eq.trans (branch_of_bcu ?_ b) hz
    split
    · exact congrArg Bcu.branches ((postClass_unmoved _ _ _ _ e).bcu.trans hu.bcu)
    · exact congrArg Bcu.branches hu.bcu
  split
  · rename_i ht
    rw [takeTrip_tripPair p.action node _ hb hbranch]
    rw [Bool.and_eq_true] at ht
    simp only [ht, and_self, true_and]
  · rename_i ht
    rw [Bool.and_eq_true] at ht
    simp only [ht, false_and, if_false, hbranch]
    rfl

end

/-- Settles O14: the trips by the view of every branch that they leave, the sample step by step. -/
theorem classChangeActs : Obligations.ClassChangeActs := by
  unfold Obligations.ClassChangeActs
  refine ⟨fun d node hlen => ⟨rfl, fun a ha b x hx => ?_, fun hn k r hk hr => takeTrip_standby hn hk hr⟩,
    fun d k node old new => ?_, fun d k node kind limit x v hx hlen => ⟨fun hc e he hr => ?_, fun b z hz => ?_⟩⟩
  · have h := tripNode_view node d (hlen ▸ lt_of_branch hx)
    rw [← takeTrip_trips ha, hx] at h
    obtain ⟨y, hy, hview⟩ := Option.map_eq_some_iff.mp h
    simp only [Branch.settledView, trippedView, Prod.mk.injEq] at hview
    exact ⟨y, hy, hview.1, hview.2.2.1, hview.2.1⟩
  · refine ⟨?_, ?_, ?_, ?_, ?_, ?_, ?_⟩
    · rintro (rfl | rfl) <;> exact postClass_eq rfl k node d
    · rintro (rfl | rfl) <;> exact postClass_eq rfl k node d
    · rintro rfl ho
      exact postClass_eq (by simp [limitEvent, ho]) k node d
    · rintro rfl rfl
      exact postClass_eq rfl k node d
    · rintro rfl
      exact postClass_eq rfl k node d
    · rintro (rfl | rfl) rfl <;> rfl
    · rintro rfl
      rfl
  · rw [goodSample_eq hx]
    exact (handSample_frame _ _ _ _ _ _).holds _ (acted_holds hc he hr)
  · have h := (TripsStand.handSample k node kind (classify (paramsOf d kind limit) x v).1.cls
      (classify (paramsOf d kind limit) x v).2 (acted k node (paramsOf d kind limit) x kind v d)).branch b
    rw [← goodSample_eq hx, acted_tripPair (hlen ▸ lt_of_branch hz) hz] at h
    obtain ⟨w, hw, hpair⟩ := Option.map_eq_some_iff.mp h
    simp only [isTrip_iff] at hpair
    exact ⟨w, hw, congrArg Prod.snd hpair⟩

end Sys2Proof.Machine

/-! PROOFS. How a command ends whose hand-offs are still due: what their delivery leaves (`Delivered`), and where they
do nothing at all (`stilled`, `Noted`). -/

namespace Sys2Proof.Machine

-- One proof after another: proofs that are checked side by side take a thread each.
set_option Elab.async false

/-! ## What the delivery of the hand-offs leaves -/

/-- What the delivery of hand-offs leaves, the lines and the head of the Request Queue aside. -/
structure Delivered (d d' : Part) : Prop extends TablesStand d d', LinkStands d d' where
  sru : d'.sru = d.sru := by rfl
  lkm : d'.lkm = d.lkm := by rfl
  views : d'.bcu.branches.map (Option.map Branch.settledView) =
    d.bcu.branches.map (Option.map Branch.settledView) := by rfl
  stays : ∀ b, d.faultedOut b → d'.faultedOut b := by exact fun _ h => h
  holds : ∀ e, d.holdsEvent e → d'.holdsEvent e := by exact fun _ h => h

namespace Delivered

theorem refl (d : Part) : Delivered d d := {}

theorem trans {a b c : Part} (h : Delivered a b) (g : Delivered b c) : Delivered a c where
  toTablesStand := h.toTablesStand.trans g.toTablesStand
  toLinkStands := h.toLinkStands.trans g.toLinkStands
  sru := g.sru.trans h.sru
  lkm := g.lkm.trans h.lkm
  views := g.views.trans h.views
  stays b hb := g.stays b (h.stays b hb)
  holds e he := g.holds e (h.holds e he)

theorem branch_view {d d' : Part} (h : Delivered d d') (b : Nat) :
    (d'.branch b).map Branch.settledView = (d.branch b).map Branch.settledView := by
  unfold Part.branch
  rw [entry_map, entry_map, h.views]

end Delivered

theorem Settled.delivered {d d' : Part} (h : Settled d d') : Delivered d d' :=
  { toTablesStand := h.toTablesStand, toLinkStands := h.toLinkStands, sru := h.sru, lkm := h.lkm
    views := h.views, stays := h.stays, holds := h.holds }

/-- The end of a command leaves the lines at their levels and nothing due. -/
theorem finished_delivered (d : Part) : Delivered d (refreshLines (quieten d)) := {}

theorem complete_delivered {d : Part} (h : ∀ node, d.rlp.phase ≠ .passing node) : Delivered d (complete d) := by
  rw [complete_calm d h]
  exact (settleAll_settled d).delivered.trans (finished_delivered _)

theorem complete_requestsStand {d : Part} (h : ∀ node, d.rlp.phase ≠ .passing node) :
    RequestsStand d (complete d) := by
  rw [complete_calm d h]
  exact (settleAll_settled d).toRequestsStand.trans {}

/-! ## Hand-offs that do nothing -/

/-- Neither an admission attempt nor an examination of the current step does anything. -/
def stilled (d : Part) : Prop := d.sqe.run ≠ .running ∧ (d.sru.source ≠ .onAc ∨ d.bcu.spacing ≠ .stopped)

/-- Admission attempts and examinations of the step alone are due, each at most once. -/
def Noted (d : Part) : Prop := d.agenda.Nodup ∧ ∀ s ∈ d.agenda, s = .attempt ∨ s = .branches

theorem noted_of_nil {d : Part} (h : d.agenda = []) : Noted d := by
  simp [Noted, h]

theorem Noted.of_agenda {d d' : Part} (h : d'.agenda = d.agenda) (hd : Noted d) : Noted d' := by
  unfold Noted
  rw [h]
  exact hd

/-- Admission attempts and examinations of the step that were not due before have become due, and nothing else. -/
def Notes (d d' : Part) : Prop :=
  ∃ l, d'.agenda = d.agenda ++ l ∧ l.Nodup ∧ ∀ s ∈ l, (s = .attempt ∨ s = .branches) ∧ s ∉ d.agenda

namespace Notes
variable {a d e : Part}

theorem of_agenda (h : e.agenda = d.agenda) : Notes d e := ⟨[], by simp [h]⟩

theorem trans (h : Notes a d) (g : Notes d e) : Notes a e := by
  obtain ⟨l, hl, hnl, hsl⟩ := h
  obtain ⟨m, hm, hnm, hsm⟩ := g
  rw [hl] at hm hsm
  refine ⟨l ++ m, by rw [hm, List.append_assoc], List.nodup_append.mpr ⟨hnl, hnm, ?_⟩, fun s hs => ?_⟩
  · rintro s hs _ ht rfl
    exact (hsm s ht).2 (List.mem_append_right _ hs)
  · rcases List.mem_append.mp hs with hs | hs
    · exact hsl s hs
    · exact ⟨(hsm s hs).1, fun ha => (hsm s hs).2 (List.mem_append_left _ ha)⟩

theorem noted (h : Notes d e) (hd : Noted d) : Noted e := by
  obtain ⟨l, hl, hn, hs⟩ := h
  obtain ⟨hnd, had⟩ := hd
  unfold Noted
  rw [hl]
  refine ⟨List.nodup_append.mpr ⟨hnd, hn, ?_⟩, fun s hm => ?_⟩
  · rintro s hd' _ ht rfl
    exact (hs s ht).2 hd'
  · rcases List.mem_append.mp hm with hm | hm
    · exact had s hm
    · exact (hs s hm).1

end Notes

theorem signalOnce_notes {s : Signal} (hs : s = .attempt ∨ s = .branches) (d : Part) : Notes d (signalOnce s d) := by
  unfold signalOnce
  split
  · exact .of_agenda rfl
  · rename_i hmem
    exact ⟨[s], rfl, by simp, fun t ht => by rw [List.mem_singleton.mp ht]; exact ⟨hs, hmem⟩⟩

theorem signalOnce_noted {s : Signal} (hs : s = .attempt ∨ s = .branches) {d : Part} (h : Noted d) :
    Noted (signalOnce s d) := (signalOnce_notes hs d).noted h

theorem Noted.length_le {d : Part} (h : Noted d) : d.agenda.length ≤ 2 := by
  have : d.agenda ⊆ [.attempt, .branches] := fun s hs => by simpa using h.2 s hs
  simpa using (h.1.subperm this).length_le

theorem attempt_eq_self {d : Part} (h : d.bcu.queue = [] ∨ d.sru.source ≠ .onAc ∨ d.bcu.spacing ≠ .stopped) :
    attempt d = d := by
  unfold attempt
  split
  · rfl
  · rename_i b rest hq
    rw [if_neg]
    rintro ⟨hs, ht⟩
    rcases h with h | h | h
    · rw [hq] at h
      cases h
    · exact h hs
    · exact h ht

theorem examine_eq_self {d : Part} (h : d.sqe.run ≠ .running) : examine d = d :=
  if_neg fun hr => h hr.1

theorem handle_stilled {s : Signal} {d : Part} (h : stilled d) (hs : s = .attempt ∨ s = .branches) :
    handle s d = d := by
  rcases hs with rfl | rfl
  · exact attempt_eq_self (.inr h.2)
  · exact examine_eq_self h.1

theorem settle_stilled (n : Nat) {d : Part} (h : stilled d) (ha : ∀ s ∈ d.agenda, s = .attempt ∨ s = .branches)
    (hn : d.agenda.length ≤ n) : settle n d = { d with agenda := [] } := by
  induction n generalizing d with
  | zero =>
    have hnil := List.length_eq_zero_iff.mp (Nat.le_zero.mp hn)
    rw [settle_nil 0 d hnil, ← hnil]
  | succ n ih =>
    rcases hd : d.agenda with _ | ⟨s, rest⟩
    · rw [settle_nil _ d hd, ← hd]
    · rw [hd] at ha hn
      unfold settle
      rw [hd]
      simp only
      rw [handle_stilled (by exact h) (ha s (by simp)), ih (by exact h)
        (fun x hx => ha x (List.mem_cons_of_mem _ hx)) (by simpa using hn)]

theorem settleAll_stilled {d : Part} (h : stilled d) (hn : Noted d) : settleAll d = { d with agenda := [] } :=
  settle_stilled _ h hn.2 (hn.length_le.trans (by decide))

theorem complete_stilled {d : Part} (hp : ∀ node, d.rlp.phase ≠ .passing node) (h : stilled d) (hn : Noted d) :
    complete d = refreshLines (quieten d) := by
  rw [complete_calm d hp, settleAll_stilled h hn]
  rfl

/-! ## A request that is answered with hand-offs due -/

/-- The part once a request has been answered whose effect was `d`. -/
def answeredAfter (a : Answer) (q : Queued) (d : Part) : Part :=
  refreshLines (quieten (settleAll (appendResponse (.response (a.response q.tag))
    { settleAll d with rlp.requests := [], rlp.phase := .fresh, rlp.detail := detailAfter a q })))

/-- A request that executes at once, with the hand-offs that its effect leaves due. -/
theorem exec_settles {c : Instr} {q : Queued} {a : Answer} {s : State} (hc : request c = some q) (hs : s.part.ready)
    (d : Part) (he : execRequest s.part.rlp.detail q.req (s.part.opened q) = (d, .answer a)) :
    exec c s = .next { s with part := answeredAfter a q d } := by
  have hw : Within (s.part.opened q) d := by
    have := execRequest_within s.part.rlp.detail q.req (s.part.opened q)
    rwa [he] at this
  rw [exec_request hc, act_running _ _ hs.1.1]
  have hr : d.rlp.requests = [q] := hw.requests
  have harrive : arrive q s.part = appendFinal (a.response q.tag) (answerHead a q (settleAll d)) := by
    unfold arrive
    rw [hs.2.1]
    exact pumpAll_answer q a _ d rfl rfl he hr (lt_of_le_of_lt hw.responses hs.2.2)
  have hsettled := settleAll_settled d
  have hfinal : appendFinal (a.response q.tag) (answerHead a q (settleAll d)) =
      appendResponse (.response (a.response q.tag))
        { settleAll d with rlp.requests := [], rlp.phase := .fresh, rlp.detail := detailAfter a q } := by
    have hreq : (settleAll d).rlp.requests = [q] := hsettled.requests.trans hr
    have hdet : (settleAll d).rlp.detail = none := hsettled.detail.trans hw.detail
    unfold appendFinal
    rw [if_neg (by simp [Answer.response])]
    congr 1
    unfold answerHead noteDetail detailAfter
    split
    · simp [setPhase, hreq, ← hdet]
    · simp [setPhase, hreq]
  have hphase : ∀ node, (appendResponse (.response (a.response q.tag))
      { settleAll d with rlp.requests := [], rlp.phase := .fresh
                         rlp.detail := detailAfter a q }).rlp.phase ≠ .passing node := fun node => by
    rw [(appendResponse_uplinked _ _).phase]
    exact nofun
  rw [harrive, hfinal, complete_calm _ hphase]
  rfl

theorem appendResponse_tx (m : Uplink) (d : Part) : ∃ x, (appendResponse m d).rlp.tx = some x := by
  unfold appendResponse arbitrate
  split
  · exact ⟨_, ‹_›⟩
  · split
    · exact ⟨_, rfl⟩
    · split
      · rename_i h _
        simp at h
      · exact ⟨_, rfl⟩
      · exact ⟨_, rfl⟩
      · repeat' split
        all_goals exact ⟨_, rfl⟩

/-- A message that waits or is sent while another is sent is not lost by the delivery of hand-offs. -/
theorem Settled.holdsMessage {d d' : Part} (h : Settled d d') {x m : Uplink} (ht : d.rlp.tx = some x)
    (hm : d.holdsMessage m) : d'.holdsMessage m := by
  obtain ⟨htx, hr⟩ := h.busy x ht
  rcases hm with hm | hm
  · left
    rw [htx, ← ht, hm]
  · right
    rw [hr]
    exact hm

section
variable (a : Answer) (q : Queued) (d : Part)

theorem answeredAfter_answered : Answered a q (answeredAfter a q d) := by
  have hs := settleAll_settled (appendResponse (.response (a.response q.tag))
    { settleAll d with rlp.requests := [], rlp.phase := .fresh, rlp.detail := detailAfter a q })
  have hu := appendResponse_uplinked (.response (a.response q.tag))
    { settleAll d with rlp.requests := [], rlp.phase := .fresh, rlp.detail := detailAfter a q }
  obtain ⟨x, hx⟩ := appendResponse_tx (.response (a.response q.tag))
    { settleAll d with rlp.requests := [], rlp.phase := .fresh, rlp.detail := detailAfter a q }
  exact
    { requests := hs.requests.trans hu.requests
      phase := hs.phase.trans hu.phase
      detail := hs.detail.trans hu.requestsStand.detail
      message := hs.holdsMessage hx (appendResponse_holds _ _) }

theorem answeredAfter_delivered : Delivered d (answeredAfter a q d) := by
  have answered : Delivered (settleAll d) { settleAll d with
      rlp.requests := [], rlp.phase := .fresh, rlp.detail := detailAfter a q } := {}
  have appended (m : Uplink) (e : Part) : Delivered e (appendResponse m e) :=
    Delivered.trans (b := { e with rlp.responses := e.rlp.responses ++ [m] }) {}
      (arbitrate_settled _).delivered
  exact (settleAll_settled d).delivered.trans (answered.trans ((appended _ _).trans
    ((settleAll_settled _).delivered.trans (finished_delivered _))))

theorem answeredAfter_stilled (h : stilled d) (hn : Noted d) : Uplinked { d with
    rlp.requests := [], rlp.phase := .fresh, rlp.detail := detailAfter a q, agenda := []
    rlp.passOutcome := none, lines := (answeredAfter a q d).lines } (answeredAfter a q d) := by
  have hu := appendResponse_uplinked (.response (a.response q.tag))
    { d with rlp.requests := [], rlp.phase := .fresh, rlp.detail := detailAfter a q, agenda := [] }
  unfold answeredAfter
  rw [settleAll_stilled h hn, settleAll_nil _ hu.agenda]
  generalize appendResponse _ _ = e at hu ⊢
  exact ⟨by rw [hu.eq]; rfl⟩

end

end Sys2Proof.Machine

/-! PROOFS. The operations of the BCU on one branch: what they touch at all (`Touches`), and what they make of the
branch, the Admission Queue and what is staged (`Becomes`); the entry into FAULT (R60) and the expiry of a branch
timer (R58). -/

namespace Sys2Proof.Machine

-- One proof after another: proofs that are checked side by side take a thread each.
set_option Elab.async false

/-! ## What an operation on one branch touches -/

/-- What an operation on branch `b` leaves alone. -/
structure Touches (b : Nat) (d d' : Part) : Prop where
  others : ∀ n, n ≠ b → d'.branch n = d.branch n
  spacing : d'.bcu.spacing = d.bcu.spacing
  sru : d'.sru = d.sru
  run : d'.sqe.run = d.sqe.run
  slc : d'.slc = { d.slc with out := d'.slc.out }
  notes : Notes d d'

namespace Touches
variable {b : Nat} {a d e : Part}

theorem refl (b : Nat) (d : Part) : Touches b d d := ⟨fun _ _ => rfl, rfl, rfl, rfl, rfl, .of_agenda rfl⟩

theorem trans (h : Touches b a d) (g : Touches b d e) : Touches b a e where
  others n hn := (g.others n hn).trans (h.others n hn)
  spacing := g.spacing.trans h.spacing
  sru := g.sru.trans h.sru
  run := g.run.trans h.run
  slc := by rw [g.slc, h.slc]
  notes := h.notes.trans g.notes

theorem noted (h : Touches b a d) (ha : Noted a) : Noted d := h.notes.noted ha

theorem outSlot (h : Touches b d e) (node : Nat) : e.outSlot node = d.outSlot node := by
  unfold Part.outSlot Part.findSlot
  rw [h.slc]

theorem stilled (h : Touches b d e) (hd : stilled d) : stilled e := by
  unfold Machine.stilled
  rw [h.run, h.sru, h.spacing]
  exact hd

theorem put (y : Branch) (d : Part) : Touches b d (putBranch b y d) :=
  ⟨fun n hn => putBranch_other b n y d hn, rfl, rfl, rfl, rfl, .of_agenda rfl⟩

theorem signalOnce {s : Signal} (hs : s = .attempt ∨ s = .branches) (d : Part) :
    Touches b d (signalOnce s d) where
  others n _ := branch_of_bcu (by rw [signalOnce_bcu]) n
  spacing := by rw [signalOnce_bcu]
  sru := (signalOnce_settled s d).sru
  run := by rw [(signalOnce_fixed s d).sqe]
  slc := (signalOnce_fixed s d).slc
  notes := signalOnce_notes hs d

theorem setQueue (q : List Nat) (d : Part) : Touches b d (setQueue q d) := by
  unfold Machine.setQueue
  split
  · exact ⟨fun _ _ => rfl, rfl, rfl, rfl, rfl, .of_agenda rfl⟩
  · exact trans (d := { d with bcu.queue := q, bcu.headBlocked := false })
      ⟨fun _ _ => rfl, rfl, rfl, rfl, rfl, .of_agenda rfl⟩ (signalOnce (.inl rfl) _)

theorem noteLoad (n : Nat) (d : Part) : Touches b d (noteLoad n d) := by
  unfold Machine.noteLoad
  split
  · exact signalOnce (.inl rfl) d
  · exact refl b d

theorem noteFaulted (x : Branch) (d : Part) : Touches b d (noteFaulted b x d) := by
  unfold Machine.noteFaulted
  repeat' split
  all_goals exact ⟨fun _ _ => rfl, rfl, rfl, rfl, rfl, .of_agenda rfl⟩

theorem stage (w : Writer) (m : Option Nat) (node : Nat) (v : Word) (d : Part) :
    Touches b d (stage w m node v d).1 := by
  unfold Machine.stage
  split
  · exact refl b d
  · split
    · exact refl b d
    · rename_i r _
      rcases tellSuperseded_eq w node r d with h | ⟨-, h⟩ <;> rw [h] <;>
        exact ⟨fun _ _ => rfl, rfl, rfl, rfl, rfl, .of_agenda rfl⟩

theorem of_uplinked (h : Uplinked d e) : Touches b d e where
  others n _ := branch_of_bcu (by rw [h.bcu]) n
  spacing := by rw [h.bcu]
  sru := h.sru
  run := by rw [h.sqe]
  slc := by rw [h.slc]
  notes := .of_agenda h.agenda

theorem post (k : EventKind) (s v : Option Nat) (d : Part) : Touches b d (post k s v d) :=
  of_uplinked (post_uplinked k s v d)

theorem faultBranch (c : BranchCause) (d : Part) : Touches b d (faultBranch c b d) := by
  unfold Machine.faultBranch
  split
  · exact refl b d
  · refine trans ?_ (signalOnce (.inr rfl) _)
    refine trans ?_ (post _ _ _ _)
    refine trans ?_ (noteFaulted _ _)
    split
    · exact (put _ d).trans (setQueue _ _)
    · exact ((put _ d).trans (setQueue _ _)).trans (stage _ _ _ _ _)

theorem stageBranch (v : Word) (d : Part) : Touches b d (stageBranch b v d) := by
  unfold Machine.stageBranch
  split
  · exact refl b d
  · rename_i x _
    have hs := Touches.stage (b := b) .bcu (some b) x.cfg.node v d
    split <;> (rename_i he; rw [he] at hs)
    · split
      · exact hs
      · exact hs.trans (faultBranch _ _)
    · exact hs

theorem stopBranch (d : Part) : Touches b d (stopBranch b d) := by
  unfold Machine.stopBranch
  split
  · exact refl b d
  · exact (((put _ d).trans (noteLoad _ _)).trans (signalOnce (.inr rfl) _)).trans (stageBranch _ _)

theorem enqueueBack (d : Part) : Touches b d (enqueueBack b d) := by
  unfold Machine.enqueueBack
  split
  · exact refl b d
  · exact ((put _ d).trans (setQueue _ _)).trans (signalOnce (.inr rfl) _)

theorem queueIfWanted (d : Part) : Touches b d (queueIfWanted b d) := by
  unfold Machine.queueIfWanted
  split
  · exact refl b d
  · split
    · exact enqueueBack d
    · exact refl b d

theorem stored (y : Branch) (d : Part) : Touches b d (Machine.signalOnce .branches (putBranch b y d)) :=
  (put y d).trans (signalOnce (.inr rfl) _)

theorem applyOutput (x y : Branch) (d : Part) : Touches b d (applyOutput b x y d) := by
  unfold Machine.applyOutput
  split
  · exact refl b d
  · refine (stored y d).trans ?_
    split
    · split
      · exact (put _ _).trans (setQueue _ _)
      · exact stopBranch _
      · exact stopBranch _
      · exact refl b _
    · exact queueIfWanted _

theorem changeBranch (f : Branch → Branch) (d : Part) : Touches b d (changeBranch b f d) := by
  unfold Machine.changeBranch
  split
  · exact refl b d
  · exact applyOutput _ _ d

theorem adopt (x : Branch) (code : Int) (d : Part) : Touches b d (adopt b x code d) := by
  unfold Machine.adopt
  split
  · exact ((stored _ d).trans (stageBranch _ _)).trans (queueIfWanted _)
  · split
    · exact faultBranch _ d
    · simp only
      split
      · exact (stored _ d).trans (stopBranch _)
      · exact (stored _ d).trans (stageBranch _ _)

theorem switchReading (code : Int) (d : Part) : Touches b d (switchReading b code d) := by
  have read (y : Branch) := stored (b := b) y d
  unfold Machine.switchReading
  split
  · exact refl b d
  · split
    · exact adopt _ code d
    · split
      · exact refl b d
      · exact faultBranch _ d
    · split
      · exact refl b d
      · exact faultBranch _ d
    · split
      · exact faultBranch _ d
      · split
        · exact read _
        · exact refl b d
    · split
      · exact faultBranch _ d
      · split
        · exact faultBranch _ d
        · exact refl b d
    · split
      · exact faultBranch _ d
      · split
        · exact (read _).trans (queueIfWanted _)
        · exact refl b d
    · exact refl b d

theorem branchClear (d : Part) : Touches b d (branchClear b d) := by
  unfold Machine.branchClear
  split
  · exact refl b d
  · split
    · exact (((put _ d).trans (noteLoad _ _)).trans (signalOnce (.inr rfl) _)).trans (queueIfWanted _)
    · exact changeBranch _ d

end Touches

/-! ## What it makes of the branch -/

/-- A record with a value that the BCU stages for branch `b` (R16). -/
def OutRecord.ownStage (b : Nat) (v : Word) (r : OutRecord) : OutRecord :=
  { r with staged := some v, lastWriter := some .bcu, owed := true, forBranch := some b }

/-- The Outbound Slot records once the BCU has staged a value for branch `b` and its switch node (R16). -/
def stagedOut (d : Part) (b node : Nat) (v : Word) (o : List (Option OutRecord)) : List (Option OutRecord) :=
  match d.outSlot node with
  | none => o
  | some k => match entry o k with
    | none => o
    | some r => o.set k (some (r.ownStage b v))

theorem stagedOut_eq {d : Part} {b node k : Nat} {v : Word} {o : List (Option OutRecord)} {r : OutRecord}
    (hk : d.outSlot node = some k) (hr : entry o k = some r) :
    stagedOut d b node v o = o.set k (some (r.ownStage b v)) := by
  simp only [stagedOut, hk, hr]

theorem stage_out (b node : Nat) (v : Word) (d : Part) :
    (stage .bcu (some b) node v d).1.slc.out = stagedOut d b node v d.slc.out := by
  unfold stage stagedOut
  cases d.outSlot node with
  | none => rfl
  | some k =>
    simp only
    cases entry d.slc.out k with
    | none => rfl
    | some r =>
      simp only [tellSuperseded_slc]
      rfl

/-- An operation on branch `b` leaves it as `y`, the Admission Queue as `q` and the Outbound Slot records as `o`. -/
structure Becomes (b : Nat) (y : Branch) (q : List Nat) (o : List (Option OutRecord)) (d d' : Part) : Prop
    extends Touches b d d' where
  branches : d'.bcu.branches = d.bcu.branches.set b (some y)
  valid : b < d.bcu.branches.length
  queue : d'.bcu.queue = q
  out : d'.slc.out = o

namespace Becomes
variable {b : Nat} {x y : Branch} {q : List Nat} {o : List (Option OutRecord)} {d e : Part}

theorem refl (hx : d.branch b = some x) : Becomes b x d.bcu.queue d.slc.out d d where
  toTouches := .refl b d
  branches := by
    have hlt := lt_of_branch hx
    have he : d.bcu.branches[b] = some x := by
      simpa [Part.branch, entry, hlt] using hx
    rw [← he, List.set_getElem_self]
  valid := lt_of_branch hx
  queue := rfl
  out := rfl

theorem branch (h : Becomes b y q o d e) : e.branch b = some y := by
  simp [Part.branch, entry, h.branches, h.valid]

theorem of_eq {l : List Signal} (h : Becomes b y q o d e) (ht : Touches b e { e with agenda := l }) :
    Becomes b y q o d { e with agenda := l } :=
  ⟨h.toTouches.trans ht, h.branches, h.valid, h.queue, h.out⟩

theorem of_uplinked {e' : Part} (h : Becomes b y q o d e) (hu : Uplinked e e') : Becomes b y q o d e' :=
  ⟨h.toTouches.trans (.of_uplinked hu), by rw [hu.bcu]; exact h.branches, h.valid,
    by rw [hu.bcu]; exact h.queue, by rw [hu.slc]; exact h.out⟩

section
variable (h : Becomes b y q o d e)
include h

theorem put (z : Branch) : Becomes b z q o d (putBranch b z e) :=
  ⟨h.toTouches.trans (.put z e), by simp [putBranch, h.branches], h.valid, h.queue, h.out⟩

theorem signalOnce {s : Signal} (hs : s = .attempt ∨ s = .branches) : Becomes b y q o d (signalOnce s e) := by
  have ht := Touches.signalOnce (b := b) hs e
  unfold Machine.signalOnce at ht ⊢
  split
  · exact h
  · rename_i hn
    rw [if_neg hn] at ht
    exact h.of_eq ht

theorem noteLoad (n : Nat) : Becomes b y q o d (noteLoad n e) := by
  unfold Machine.noteLoad
  split
  · exact h.signalOnce (.inl rfl)
  · exact h

theorem setQueue (p : List Nat) : Becomes b y p o d (setQueue p e) := by
  unfold Machine.setQueue
  split
  · exact ⟨h.toTouches.trans ⟨fun _ _ => rfl, rfl, rfl, rfl, rfl, .of_agenda rfl⟩, h.branches, h.valid, rfl, h.out⟩
  · refine Becomes.signalOnce (e := { e with bcu.queue := p, bcu.headBlocked := false }) ?_ (.inl rfl)
    exact ⟨h.toTouches.trans ⟨fun _ _ => rfl, rfl, rfl, rfl, rfl, .of_agenda rfl⟩, h.branches, h.valid, rfl, h.out⟩

theorem leaveQueue : Becomes b y (q.filter (· != b)) o d (leaveQueue b e) := by
  rw [← h.queue]
  exact h.setQueue _

theorem post (k : EventKind) (s v : Option Nat) : Becomes b y q o d (post k s v e) :=
  h.of_uplinked (post_uplinked k s v e)

theorem noteFaulted (x : Branch) : Becomes b y q o d (noteFaulted b x e) := by
  have ht := Touches.noteFaulted (b := b) x e
  refine ⟨h.toTouches.trans ht, by rw [noteFaulted_bcu]; exact h.branches, h.valid,
    by rw [noteFaulted_bcu]; exact h.queue, Eq.trans ?_ h.out⟩
  unfold Machine.noteFaulted
  repeat' split
  all_goals rfl

theorem stage (node : Nat) (v : Word) :
    Becomes b y q (stagedOut d b node v o) d (stage .bcu (some b) node v e).1 :=
  ⟨h.toTouches.trans (.stage _ _ _ _ e), by rw [stage_bcu]; exact h.branches, h.valid,
    by rw [stage_bcu]; exact h.queue, by
      rw [stage_out, h.out]
      unfold stagedOut
      rw [h.outSlot]⟩

theorem stageBranch {k : Nat} {r : OutRecord} (v : Word) (hk : d.outSlot y.cfg.node = some k)
    (hr : entry o k = some r) :
    Becomes b y q (o.set k (some (r.ownStage b v))) d (stageBranch b v e) := by
  have hs := h.stage y.cfg.node v
  rw [stagedOut_eq hk hr] at hs
  have hflag : (Machine.stage .bcu (some b) y.cfg.node v e).2 = false := by
    unfold Machine.stage
    rw [h.outSlot, hk]
    simp only [h.out, hr]
  unfold Machine.stageBranch
  rw [h.branch]
  simp only
  split <;> (rename_i he; rw [he] at hs hflag)
  · cases hflag
  · exact hs

theorem stopBranch {k : Nat} {r : OutRecord} (hk : d.outSlot y.cfg.node = some k) (hr : entry o k = some r) :
    Becomes b { y with state := .stopping, timer := .running d.sru.profile.admitTimeoutMs } q
      (o.set k (some (r.ownStage b ctlOff))) d (stopBranch b e) := by
  unfold Machine.stopBranch
  rw [h.branch]
  simp only [h.sru]
  exact (((h.put _).noteLoad _).signalOnce (.inr rfl)).stageBranch ctlOff hk hr

theorem enqueueBack : Becomes b { y with state := .queued } (q ++ [b]) o d (enqueueBack b e) := by
  unfold Machine.enqueueBack
  rw [h.branch]
  simp only [h.queue]
  exact ((h.put _).setQueue _).signalOnce (.inr rfl)

theorem queueIfWanted (hs : y.state = .off) (hw : y.wanted = true) :
    Becomes b { y with state := .queued } (q ++ [b]) o d (queueIfWanted b e) := by
  unfold Machine.queueIfWanted
  rw [h.branch]
  simp only [hs, hw, and_self, if_true]
  exact h.enqueueBack

theorem queueIfWanted_not (hn : ¬ (y.state = .off ∧ y.wanted = true)) :
    Becomes b y q o d (Machine.queueIfWanted b e) := by
  unfold Machine.queueIfWanted
  rw [h.branch]
  simp only [if_neg hn]
  exact h

theorem faultBranch (c : BranchCause) :
    Becomes b { y with state := .fault, timer := .stopped, foundFaulted := decide (y.state = .unknown) }
      (q.filter (· != b)) (if y.state = .unknown then o else stagedOut d b y.cfg.node ctlOff o) d
      (faultBranch c b e) := by
  unfold Machine.faultBranch
  rw [h.branch]
  simp only
  refine Becomes.signalOnce (Becomes.post (Becomes.noteFaulted ?_ _) _ _ _) (.inr rfl)
  by_cases hu : y.state = .unknown
  · simp only [hu, if_true, decide_true]
    exact (h.put _).leaveQueue
  · simp only [hu, if_false, decide_false]
    exact ((h.put _).leaveQueue).stage _ _

end
end Becomes

/-! ## The output rule (R54, R55) -/

theorem loses_self (x : Branch) : loses x x = false := by
  unfold loses
  rcases x.holds.any with _ | _ <;> rcases x.demands.any with _ | _ <;> rfl

section
variable {b : Nat} {x y : Branch} {d : Part} (hx : d.branch b = some x)
include hx

/-- The branch as stored, its hand-off due. -/
theorem stored_becomes (y : Branch) :
    Becomes b y d.bcu.queue d.slc.out d (signalOnce .branches (putBranch b y d)) :=
  ((Becomes.refl hx).put y).signalOnce (.inr rfl)

section
variable (hl : loses x y = true)
include hl

omit hx in
theorem ne_of_loses : x ≠ y := by
  rintro rfl
  rw [loses_self] at hl
  cases hl

theorem applyOutput_queued (hs : y.state = .queued) :
    Becomes b { y with state := .off } (d.bcu.queue.filter (· != b)) d.slc.out d (applyOutput b x y d) := by
  simp only [applyOutput, if_neg (ne_of_loses hl), hl, if_true, hs]
  exact ((stored_becomes hx y).put _).leaveQueue

theorem applyOutput_stops {k : Nat} {r : OutRecord} (hs : y.state = .admitting ∨ y.state = .on)
    (hk : d.outSlot y.cfg.node = some k) (hr : entry d.slc.out k = some r) :
    Becomes b { y with state := .stopping, timer := .running d.sru.profile.admitTimeoutMs } d.bcu.queue
      (d.slc.out.set k (some (r.ownStage b ctlOff))) d (applyOutput b x y d) := by
  have hstop := (stored_becomes hx y).stopBranch hk hr
  rcases hs with hs | hs <;> simp only [applyOutput, if_neg (ne_of_loses hl), hl, if_true, hs] <;> exact hstop

theorem applyOutput_loses (hs : y.state ≠ .queued ∧ y.state ≠ .admitting ∧ y.state ≠ .on) :
    Becomes b y d.bcu.queue d.slc.out d (applyOutput b x y d) := by
  obtain ⟨hq, ha, ho⟩ := hs
  simp only [applyOutput, if_neg (ne_of_loses hl), hl, if_true]
  exact stored_becomes hx y

end

section
variable (hl : loses x y = false)
include hl

theorem applyOutput_wanted (hne : x ≠ y) (hs : y.state = .off) (hw : y.wanted = true) :
    Becomes b { y with state := .queued } (d.bcu.queue ++ [b]) d.slc.out d (applyOutput b x y d) := by
  simp only [applyOutput, if_neg hne, hl, Bool.false_eq_true, if_false]
  exact (stored_becomes hx y).queueIfWanted hs hw

theorem applyOutput_stands (hn : ¬ (y.state = .off ∧ y.wanted = true)) :
    Becomes b y d.bcu.queue d.slc.out d (applyOutput b x y d) := by
  by_cases hne : x = y
  · subst hne
    rw [applyOutput, if_pos rfl]
    exact .refl hx
  · simp only [applyOutput, if_neg hne, hl, Bool.false_eq_true, if_false]
    exact (stored_becomes hx y).queueIfWanted_not hn

end

/-! ## The entry into FAULT (R60) -/

omit hx in
theorem setQueue_rlp (q : List Nat) (d : Part) : (setQueue q d).rlp = d.rlp := by
  unfold setQueue signalOnce
  repeat' split
  all_goals rfl

omit hx in
theorem noteFaulted_rlp (m : Nat) (z : Branch) (d : Part) : (noteFaulted m z d).rlp = d.rlp := by
  unfold noteFaulted
  repeat' split
  all_goals rfl

omit hx in
theorem stage_events (w : Writer) (m : Option Nat) (n : Nat) (v : Word) (d : Part) :
    (stage w m n v d).1.rlp.events = d.rlp.events := by
  rw [(stage_still w m n v d).rlp]

/-- The part as a fault posts its record. -/
def faultPrelude (b : Nat) (x : Branch) (d : Part) : Part :=
  let left := leaveQueue b (putBranch b
    { x with state := .fault, timer := .stopped, foundFaulted := decide (x.state = .unknown) } d)
  noteFaulted b x (if x.state = .unknown then left else (stage .bcu (some b) x.cfg.node ctlOff left).1)

theorem faultBranch_eq (c : BranchCause) : faultBranch c b d =
    signalOnce .branches (post .branchFault (some b) (some c.code) (faultPrelude b x d)) := by
  unfold faultBranch faultPrelude
  rw [hx]

omit hx in
theorem faultPrelude_events (b : Nat) (x : Branch) (d : Part) :
    (faultPrelude b x d).rlp.events = d.rlp.events := by
  unfold faultPrelude
  rw [noteFaulted_rlp]
  split
  · exact congrArg Rlp.events (setQueue_rlp _ _)
  · rw [stage_events]
    exact congrArg Rlp.events (setQueue_rlp _ _)

omit hx in
theorem faultPrelude_touches (b : Nat) (x : Branch) (d : Part) : Touches b d (faultPrelude b x d) := by
  unfold faultPrelude
  refine Touches.trans ?_ (.noteFaulted _ _)
  split
  · exact (Touches.put _ d).trans (.setQueue _ _)
  · exact ((Touches.put _ d).trans (.setQueue _ _)).trans (.stage _ _ _ _ _)

theorem faultBranch_enters (c : BranchCause) : EntersFault c b x d (faultBranch c b d) := by
  have h := (Becomes.refl hx).faultBranch c
  refine ⟨h.branch, h.others, h.queue, fun hr => ?_, fun hs k r hk hr => ?_, fun hs => ?_⟩
  · rw [faultBranch_eq hx]
    have posted := post_holds .branchFault (some b) (some c.code) (faultPrelude b x d)
      (by rw [faultPrelude_events]; exact hr)
    rw [(faultPrelude_touches b x d).slc] at posted
    exact (signalOnce_settled _ _).holds _ posted
  · rw [h.out, if_neg hs, stagedOut_eq hk hr]
    exact entry_set_same hr
  · rw [h.out, if_pos hs]

end

/-! ## The expiry of a branch timer (R58) -/

theorem EntersFault.faultedOut {c : BranchCause} {b : Nat} {x : Branch} {d d' : Part}
    (h : EntersFault c b x d d') : d'.faultedOut b :=
  ⟨⟨_, h.entry, rfl⟩, by simp [h.queue]⟩

section
variable {b : Nat} {x : Branch} {d : Part} (hx : d.branch b = some x) {st : BranchState} {cause : BranchCause}
include hx

theorem branchExpiry_expires {n : Nat} (ht : x.timer = .running n) (hs : x.state = st) :
    branchExpiry st cause b d = faultBranch cause b d := by
  simp only [branchExpiry, hx, ht, hs, if_true]

theorem branchExpiry_idle (h : (∀ n, x.timer ≠ .running n) ∨ x.state ≠ st) :
    branchExpiry st cause b d = d := by
  unfold branchExpiry
  rw [hx]
  simp only
  split
  · rename_i n hn
    exact if_neg (h.resolve_left fun hr => hr n hn)
  · rfl

end

/-- Settles O16: the entry into FAULT, which the hand-offs leave. -/
theorem branchTimerExpiryFaults : Obligations.BranchTimerExpiryFaults := by
  unfold Obligations.BranchTimerExpiryFaults
  intro s b x hcalm hx c st cause hc
  have hexec : exec c s = act (branchExpiry st cause b) s := by
    simp only [List.mem_cons, Prod.mk.injEq, List.not_mem_nil, or_false] at hc
    rcases hc with ⟨rfl, rfl, rfl⟩ | ⟨rfl, rfl, rfl⟩ <;> rfl
  rw [hexec]
  refine ⟨fun n ht hs => ?_, fun h hl => act_same _ s _ hcalm.1 (branchExpiry_idle hx h) hcalm.1.2 hl⟩
  have hset := faultBranch_settled cause b s.part
  have henter := faultBranch_enters hx cause
  have hphase : ∀ node, (faultBranch cause b s.part).rlp.phase ≠ .passing node := by
    rw [hset.phase]
    exact hcalm.2
  have hend := hset.delivered.trans (complete_delivered hphase)
  have hout := (complete_delivered hphase).stays b henter.faultedOut
  refine ⟨_, act_running _ _ hcalm.1.1, rfl, ?_⟩
  simp only [branchExpiry_expires hx ht hs]
  refine ⟨hend.toTablesStand, hend.toLinkStands, hset.toRequestsStand.trans (complete_requestsStand hphase),
    hend.sru, hend.lkm, hout.1, hout.2, fun m => ?_, fun hr => ?_⟩
  · have hv := congrArg (Option.map fun v => (v.1, v.2.1, v.2.2.1)) (hend.branch_view m)
    rw [Option.map_map, Option.map_map] at hv
    exact hv
  · exact (complete_delivered hphase).holds _ (henter.event hr)

end Sys2Proof.Machine

/-! PROOFS. Admission attempts and the inrush spacing timer (R66 to R69). -/

namespace Sys2Proof.Machine

-- One proof after another: proofs that are checked side by side take a thread each.
set_option Elab.async false

/-! ## The checks of the head (R67, R68) -/

theorem any_isSome_iff {α : Type} {l : List (Option α)} :
    l.any Option.isSome = false ↔ ∀ e ∈ l, e = none := by
  simp [List.any_eq_false]

theorem ready_iff (d : Part) (x : Nat) : ready d x = true ↔
    d.sru.profile.readinessGate = false ∨ (∀ e ∈ d.sru.batts, e = none) ∨
      ∃ u p, d.sru.u = some u ∧ d.sru.p = some p ∧
        (d.sru.profile.tReqS * (1000 + d.sru.profile.marginPm) + 999) / 1000 ≤
          min 65535 (u * 360 / (p + x)) := by
  unfold ready withMargin seconds
  rw [← any_isSome_iff]
  rcases d.sru.profile.readinessGate with _ | _
  · simp
  · rcases d.sru.batts.any Option.isSome with _ | _
    · simp
    · rcases d.sru.u with _ | u <;> rcases d.sru.p with _ | p <;> simp

section
variable {d : Part} {b : Nat} {rest : List Nat} {x : Branch} (hq : d.bcu.queue = b :: rest)
  (hs : d.sru.source = .onAc) (ht : d.bcu.spacing = .stopped) (hx : d.branch b = some x)
include hq hs ht hx

theorem attempt_blocked (h : ¬ (committedLoad d + x.cfg.ratedW ≤ d.sru.capacity ∧
    ready d x.cfg.ratedW = true)) : attempt d = { d with bcu := { d.bcu with headBlocked := true } } := by
  simp only [attempt, hq, hs, ht, hx, admissible, Bool.and_eq_true, decide_eq_true_eq, if_neg h, and_self,
    if_true]

theorem attempt_admits (hc : committedLoad d + x.cfg.ratedW ≤ d.sru.capacity)
    (hr : ready d x.cfg.ratedW = true) : attempt d = admitHead b x d := by
  simp only [attempt, hq, hs, ht, hx, admissible, Bool.and_eq_true, decide_eq_true_eq, hc, hr, and_self,
    if_true]

end

/-! ## The admission of the head (R67) -/

theorem stageBranch_staged {d : Part} {b k : Nat} {x : Branch} {r : OutRecord} (v : Word)
    (hx : d.branch b = some x) (hk : d.outSlot x.cfg.node = some k) (hr : entry d.slc.out k = some r) :
    stageBranch b v d = (stage .bcu (some b) x.cfg.node v d).1 := by
  have hflag : (stage .bcu (some b) x.cfg.node v d).2 = false := by
    rw [stage_tlf hk hr]
  unfold stageBranch
  rw [hx]
  simp only
  split <;> (rename_i he; rw [he] at hflag)
  · cases hflag
  · rw [he]

/-- A head as admitted. -/
def Branch.admitted (d : Part) (x : Branch) : Branch :=
  { x with state := .admitting, timer := .running d.sru.profile.admitTimeoutMs }

/-- The part as the admission of its head stages ON. -/
def admitPrelude (b : Nat) (x : Branch) (d : Part) : Part :=
  let left := leaveQueue b (putBranch b (x.admitted d) d)
  signalOnce .branches { left with
    bcu.spacing := startTimer d.sru.profile.spacingMs, bcu.headBlocked := false }

theorem admitHead_eq (b : Nat) (x : Branch) (d : Part) :
    admitHead b x d = stageBranch b ctlOn (admitPrelude b x d) := rfl

theorem setQueue_sqe (q : List Nat) (d : Part) : (setQueue q d).sqe = d.sqe := by
  unfold setQueue signalOnce
  repeat' split
  all_goals rfl

theorem signalOnce_slc (s : Signal) (d : Part) : (signalOnce s d).slc = d.slc := by
  unfold signalOnce
  split <;> rfl

section
variable {d : Part} {b : Nat} {rest : List Nat} {x : Branch} (hq : d.bcu.queue = b :: rest)
  (hx : d.branch b = some x) (hb : b ∉ rest)
include hq hx hb

/-- The head leaves the queue as ADMITTING, with the spacing timer started. -/
theorem admitPrelude_bcu : (admitPrelude b x d).bcu = ⟨d.bcu.branches.set b (some (x.admitted d)), rest,
    startTimer d.sru.profile.spacingMs, false⟩ := by
  have h := ((Becomes.refl hx).put (x.admitted d)).leaveQueue
  have hfilter : d.bcu.queue.filter (· != b) = rest := by
    rw [hq, List.filter_cons, if_neg (by simp)]
    exact List.filter_eq_self.mpr fun n hn => by simpa using fun he : n = b => hb (he ▸ hn)
  unfold admitPrelude
  simp only [signalOnce_bcu]
  have hbr := h.branches
  have hqu := h.queue
  rw [hfilter] at hqu
  generalize leaveQueue b (putBranch b (x.admitted d) d) = e at hbr hqu
  rw [← hbr, ← hqu]

omit hq hb in
theorem admitPrelude_slc : (admitPrelude b x d).slc = d.slc := by
  have h := ((Becomes.refl hx).put (x.admitted d)).leaveQueue
  have hs : (admitPrelude b x d).slc = (leaveQueue b (putBranch b (x.admitted d) d)).slc := signalOnce_slc _ _
  rw [hs, h.slc, h.out]

omit hq hx hb in
theorem admitPrelude_sqe : (admitPrelude b x d).sqe = d.sqe := by
  unfold admitPrelude
  rw [(signalOnce_fixed _ _).sqe]
  exact setQueue_sqe _ _

omit hq hx hb in
theorem admitPrelude_noted (h : Noted d) : Noted (admitPrelude b x d) :=
  signalOnce_noted (.inr rfl)
    (((Touches.put (b := b) (x.admitted d) d).trans (.setQueue _ _)).noted h)

variable {k : Nat} {r : OutRecord} (hk : d.outSlot x.cfg.node = some k) (hr : entry d.slc.out k = some r)
include hk hr

/-- What an admission makes of the part: the head is ADMITTING with ON staged for its switch node. -/
theorem admitHead_staged :
    admitHead b x d = (stage .bcu (some b) x.cfg.node ctlOn (admitPrelude b x d)).1 := by
  have hslc := admitPrelude_slc (d := d) hx
  rw [admitHead_eq]
  refine stageBranch_staged (x := x.admitted d) (k := k) (r := r) ctlOn ?_ ?_ ?_
  · unfold Part.branch
    rw [admitPrelude_bcu hq hx hb]
    simp [entry, lt_of_branch hx]
  · unfold Part.outSlot Part.findSlot
    rw [hslc]
    exact hk
  · rw [hslc]
    exact hr

theorem admitHead_bcu : (admitHead b x d).bcu = ⟨d.bcu.branches.set b (some (x.admitted d)), rest,
    startTimer d.sru.profile.spacingMs, false⟩ := by
  rw [admitHead_staged hq hx hb hk hr, stage_bcu, admitPrelude_bcu hq hx hb]

theorem admitHead_out : (admitHead b x d).slc.out = d.slc.out.set k (some (r.ownStage b ctlOn)) := by
  have hslc := admitPrelude_slc (d := d) hx
  have hslot : (admitPrelude b x d).outSlot x.cfg.node = some k := by
    unfold Part.outSlot Part.findSlot
    rw [hslc]
    exact hk
  rw [admitHead_staged hq hx hb hk hr, stage_out, hslc, stagedOut_eq hslot hr]

theorem admitHead_sqe : (admitHead b x d).sqe = d.sqe := by
  rw [admitHead_staged hq hx hb hk hr, (stage_still _ _ _ _ _).sqe, admitPrelude_sqe]

theorem admitHead_noted (h : Noted d) : Noted (admitHead b x d) := by
  rw [admitHead_staged hq hx hb hk hr]
  exact (Touches.stage (b := b) _ _ _ _ _).noted (admitPrelude_noted h)

theorem admitHead_branch (n : Nat) :
    (admitHead b x d).branch n = if n = b then some (x.admitted d) else d.branch n := by
  have hbr : (admitHead b x d).bcu.branches = (putBranch b (x.admitted d) d).bcu.branches := by
    rw [admitHead_bcu hq hx hb hk hr]
    rfl
  rw [branch_of_bcu hbr]
  split
  · rename_i hn
    subst hn
    exact putBranch_branch n x _ d hx
  · exact putBranch_other b n _ d ‹_›

end

/-- A sum over a table after the change of one entry. -/
theorem sum_map_set {α : Type} (f : Option α → Nat) (l : List (Option α)) {i : Nat} {x : α} (y : α)
    (h : entry l i = some x) : ((l.set i (some y)).map f).sum + f (some x) = (l.map f).sum + f (some y) := by
  induction l generalizing i with
  | nil => simp [entry] at h
  | cons e rest ih =>
    cases i with
    | zero =>
      have he : e = some x := by simpa [entry] using h
      subst he
      simp only [List.set_cons_zero, List.map_cons, List.sum_cons]
      omega
    | succ i =>
      have hrest := ih (i := i) (by simpa [entry] using h)
      simp only [List.set_cons_succ, List.map_cons, List.sum_cons]
      omega

/-- The admission of a QUEUED head raises committed load by its rated_w. -/
theorem committedLoad_admitted {d d' : Part} {b : Nat} {x : Branch} (hx : d.branch b = some x)
    (hs : x.state = .queued) (hp : d'.sru = d.sru)
    (hb : d'.bcu.branches = d.bcu.branches.set b (some (x.admitted d))) :
    committedLoad d' = committedLoad d + x.cfg.ratedW := by
  have h := sum_map_set committedOf d.bcu.branches (x.admitted d) hx
  unfold committedLoad
  rw [hp, hb]
  have hbefore : committedOf (some x) = 0 := by simp [committedOf, hs, BranchState.counts]
  have hafter : committedOf (some (x.admitted d)) = x.cfg.ratedW := rfl
  omega

/-! ## The spacing timer -/

theorem spacingExpiry_running {d : Part} {n : Nat} (h : d.bcu.spacing = .running n) :
    spacingExpiry d = attempt { d with bcu := { d.bcu with spacing := .stopped } } := by
  simp only [spacingExpiry, h]

/-- The part as the spacing timer has run out. -/
def Part.spaced (d : Part) : Part := { d with bcu := { d.bcu with spacing := .stopped } }

theorem spaced_settled (d : Part) : Settled d d.spaced := bcu_settled d _ rfl fun _ hn => hn.2

/-- An admission at the expiry of the spacing timer is all that the expiry does, since the timer runs again. -/
theorem exec_spacing_admits {s : State} {left b k : Nat} {rest : List Nat} {x : Branch} {r : OutRecord}
    (hc : committedLoad s.part + x.cfg.ratedW ≤ s.part.sru.capacity)
    (hr : ready s.part x.cfg.ratedW = true) (hsp : 0 < s.part.sru.profile.spacingMs) (hb : b ∉ rest)
    (hrun : s.part.sqe.run ≠ .running) (hk : s.part.outSlot x.cfg.node = some k)
    (ho : entry s.part.slc.out k = some r) (hcalm : s.part.calm) (ht : s.part.bcu.spacing = .running left)
    (hq : s.part.bcu.queue = b :: rest) (hs : s.part.sru.source = .onAc) (hx : s.part.branch b = some x) :
    exec .spacingTimerExpiry s =
      .next { s with part := refreshLines (quieten (admitHead b x s.part.spaced)) } ∧
    Settled s.part (admitHead b x s.part.spaced) := by
  have hset := (spaced_settled s.part).trans
    (admit_settled b x s.part.spaced hx (hq ▸ List.mem_cons_self : b ∈ s.part.spaced.bcu.queue))
  have hbcu := admitHead_bcu (d := s.part.spaced) hq hx hb hk ho
  have hstill : stilled (admitHead b x s.part.spaced) := by
    refine ⟨?_, .inr ?_⟩
    · rw [admitHead_sqe (d := s.part.spaced) hq hx hb hk ho]
      exact hrun
    · rw [hbcu]
      simp [startTimer, Part.spaced, Nat.pos_iff_ne_zero.mp hsp]
  have hnoted : Noted (admitHead b x s.part.spaced) :=
    admitHead_noted (d := s.part.spaced) hq hx hb hk ho (noted_of_nil hcalm.1.2.1)
  have hphase : ∀ node, (admitHead b x s.part.spaced).rlp.phase ≠ .passing node := by
    rw [hset.phase]
    exact hcalm.2
  refine ⟨?_, hset⟩
  have hexec : exec .spacingTimerExpiry s = act spacingExpiry s := rfl
  rw [hexec, act_running _ _ hcalm.1.1, spacingExpiry_running ht,
    ← complete_stilled hphase hstill hnoted]
  exact congrArg (fun d => Host.Outcome.next { s with part := complete d })
    (attempt_admits (d := s.part.spaced) hq hs rfl hx hc hr)

/-- Settles O17: the attempt by its checks; after an admission the spacing timer runs, so that no other follows. -/
theorem admissionAttempts : Obligations.AdmissionAttempts := by
  unfold Obligations.AdmissionAttempts
  refine ⟨fun d => ⟨attempt_eq_self, fun b rest x hq hs ht hx => ⟨fun hn => ?_, fun hc hp hst hb ⟨k, r, hk, hr⟩ => ?_⟩⟩,
    fun s left hcalm hleft => ?_⟩
  · rw [← ready_iff] at hn
    exact attempt_blocked hq hs ht hx hn
  · rw [← ready_iff] at hp
    rw [attempt_admits hq hs ht hx hc hp]
    have hbcu := admitHead_bcu hq hx hb hk hr
    have hset := admit_settled b x d hx (by simp [hq])
    have hload := committedLoad_admitted hx hst hset.sru (congrArg Bcu.branches hbcu)
    refine ⟨?_, fun n hn => ?_, congrArg Bcu.queue hbcu, congrArg Bcu.headBlocked hbcu,
      congrArg Bcu.spacing hbcu, hload, hload ▸ hc⟩
    · rw [admitHead_branch hq hx hb hk hr, if_pos rfl]
      rfl
    · rw [admitHead_branch hq hx hb hk hr, if_neg hn]
  · have hexec : exec .spacingTimerExpiry s = act spacingExpiry s := rfl
    have hexp := spacingExpiry_running hleft
    refine ⟨fun h hl => ?_, fun b rest x hq hs hx => ⟨fun hn hl => ?_, fun k r hc hp hsp hb hrun hk hr => ?_⟩⟩
    · rw [hexec]
      exact act_same _ s s.part.spaced hcalm.1 (hexp.trans (attempt_eq_self (h.imp id .inl))) hcalm.1.2 hl
    · rw [hexec]
      exact act_same _ s { s.part with bcu := { s.part.bcu with spacing := .stopped, headBlocked := true } } hcalm.1
        (hexp.trans (attempt_blocked (d := s.part.spaced) hq hs rfl hx hn)) hcalm.1.2 hl
    · obtain ⟨hnext, hset⟩ := exec_spacing_admits hc hp hsp hb hrun hk hr hcalm hleft hq hs hx
      have hbcu := admitHead_bcu (d := s.part.spaced) hq hx hb hk hr
      have hbranch := admitHead_branch (d := s.part.spaced) hq hx hb hk hr
      have hout := admitHead_out (d := s.part.spaced) hq hx hb hk hr
      have hsqe := admitHead_sqe (d := s.part.spaced) hq hx hb hk hr
      generalize admitHead b x s.part.spaced = e at hnext hset hbcu hbranch hout hsqe
      have hend := hset.delivered.trans (finished_delivered e)
      refine ⟨_, hnext, rfl, hend.toTablesStand, hend.toLinkStands, hset.toRequestsStand.trans {}, hset.sru, hsqe,
        hset.lkm, (hbranch b).trans (if_pos rfl), fun n hn => (hbranch n).trans (if_neg hn), congrArg Bcu.queue hbcu,
        (congrArg Bcu.spacing hbcu).trans (if_neg (Nat.pos_iff_ne_zero.mp hsp)), congrArg Bcu.headBlocked hbcu,
        (congrArg (entry · k) hout).trans (entry_set_same hr), fun j hj => (congrArg (entry · j) hout).trans ?_⟩
      simp [Part.spaced, entry, List.getElem?_set_ne (Ne.symm hj)]

end Sys2Proof.Machine

/-! PROOFS. BRANCH REQUEST and BRANCH CLEAR on a valid branch (R51, R52), with the output rule (R53 to R55). -/

namespace Sys2Proof.Machine

-- One proof after another: proofs that are checked side by side take a thread each.
set_option Elab.async false

/-! ## What a request makes of a branch -/

/-- What an operation on branch `b` makes of the fields that no delivery of hand-offs touches. -/
def Views (b : Nat) (f : Branch → Branch) (d d' : Part) : Prop := ∀ n,
  (d'.branch n).map Branch.settledView = (d.branch n).map fun x => (if n = b then f x else x).settledView

theorem Views.settled {b : Nat} {f : Branch → Branch} {d d' e : Part} (h : Views b f d d') (hs : Settled d' e) :
    Views b f d e := fun n => (hs.branch_view n).trans (h n)

theorem Views.delivered {b : Nat} {f : Branch → Branch} {d d' e : Part} (h : Views b f d d')
    (hs : Delivered d' e) : Views b f d e := fun n => (hs.branch_view n).trans (h n)

theorem putBranch_views (b : Nat) (x : Branch) (f : Branch → Branch) (d : Part) (hx : d.branch b = some x) :
    Views b f d (putBranch b (f x) d) := fun n => by
  by_cases hn : n = b
  · subst hn
    rw [putBranch_branch n x _ d hx, hx]
    simp
  · rw [putBranch_other b n _ d hn]
    simp only [if_neg hn]

theorem changeBranch_views_id (b : Nat) (f : Branch → Branch) (d : Part) : Views b f d (changeBranch b f d) :=
  fun n => changeBranch_view id b f d n

/-- A branch as BRANCH CLEAR takes it out of FAULT. -/
def Branch.cleared (x : Branch) : Branch :=
  { x with state := .off, timer := .stopped, foundFaulted := false }.withTrip false

theorem branchClear_views (b : Nat) (d : Part) : Views b (Branch.withTrip false) d (branchClear b d) := by
  intro n
  unfold branchClear
  split
  · rename_i hb
    by_cases hn : n = b
    · subst hn
      rw [hb]
      rfl
    · simp only [if_neg hn]
  · rename_i x hx
    split
    · refine Views.settled (d' := putBranch b x.cleared d) ?_ ?_ n
      · intro m
        rw [putBranch_views b x Branch.cleared d hx m]
        congr 1
        funext z
        by_cases hm : m = b <;> simp [hm, Branch.settledView, Branch.cleared, Branch.withTrip]
      · exact (noteLoad_settled _ _).trans ((signalOnce_settled _ _).trans (queueIfWanted_settled _ _))
    · exact changeBranch_views_id b _ d n

/-- A request that does something to one branch is answered, and leaves what no delivery touches. -/
theorem exec_branch {c : Instr} {q : Queued} {a : Answer} {s : State} {b : Nat} {f : Branch → Branch} {d : Part}
    (hc : request c = some q) (hs : s.part.ready)
    (he : execRequest s.part.rlp.detail q.req (s.part.opened q) = (d, .answer a))
    (hk : Kept (s.part.opened q) d) (hv : Views b f (s.part.opened q) d) :
    exec c s = .next { s with part := answeredAfter a q d } ∧
      TablesStand s.part (answeredAfter a q d) ∧ LinkStands s.part (answeredAfter a q d) ∧
      (answeredAfter a q d).sru = s.part.sru ∧ (answeredAfter a q d).lkm = s.part.lkm ∧
      Views b f s.part (answeredAfter a q d) := by
  have hd := answeredAfter_delivered a q d
  refine ⟨exec_settles hc hs d he, ?_, ?_, hd.sru.trans hk.sru, hd.lkm.trans hk.lkm, hv.delivered hd⟩
  · exact TablesStand.trans (b := s.part.opened q) {} (hk.toTablesStand.trans hd.toTablesStand)
  · exact LinkStands.trans (b := s.part.opened q) {} (hk.toLinkStands.trans hd.toLinkStands)

theorem Views.branch {b : Nat} {f : Branch → Branch} {d d' : Part} {x : Branch} (h : Views b f d d')
    (hx : d.branch b = some x) : ∃ y, d'.branch b = some y ∧ y.settledView = (f x).settledView := by
  have hb := h b
  rw [hx] at hb
  obtain ⟨y, hy, hv⟩ := Option.map_eq_some_iff.mp hb
  exact ⟨y, hy, by simpa using hv⟩

theorem Views.others {b : Nat} {f : Branch → Branch} {d d' : Part} (h : Views b f d d') {n : Nat} (hn : n ≠ b) :
    (d'.branch n).map Branch.settledView = (d.branch n).map Branch.settledView := by
  rw [h n]
  simp only [if_neg hn]

theorem settledView_eq_iff {x y : Branch} : y.settledView = x.settledView ↔ y.cfg = x.cfg ∧ y.holds = x.holds ∧
    y.demands.ctrl = x.demands.ctrl ∧ y.reading = x.reading ∧ y.fresh = x.fresh := by
  simp [Branch.settledView]

/-! ## BRANCH REQUEST (R51) -/

theorem carriesHold_branchAction {branch action : Word} {x : Branch} {d : Part} (hd : d.branch branch.toNat = some x) :
    carriesHold branch.toNat (changeBranch branch.toNat (branchAction action.toNat) d) =
      (x.holds.leak || x.holds.trip || x.holds.shed || action.toNat == 1) := by
  obtain ⟨y, hy, hv⟩ := (changeBranch_views_id branch.toNat (branchAction action.toNat) d).branch hd
  unfold carriesHold
  rw [hy]
  simp only
  rw [(settledView_eq_iff.mp hv).2.1]
  rfl

/-- The answer of an accepted BRANCH REQUEST. -/
def branchAnswer (x : Branch) (action : Nat) : Answer :=
  { Answer.done [] with held := x.holds.leak || x.holds.trip || x.holds.shed || action == 1 }

theorem execRequest_branchRequest {s : State} {branch action : Word} {x : Branch} (hb : branch.toNat < 36)
    (hx : s.part.branch branch.toNat = some x) (ha : action.toNat ≤ 2) (copy : Option FaultDetail) (q : Queued) :
    execRequest copy (.branchRequest branch action) (s.part.opened q) =
      (changeBranch branch.toNat (branchAction action.toNat) (s.part.opened q),
        .answer (branchAnswer x action.toNat)) := by
  have hcarry := carriesHold_branchAction (action := action) (d := s.part.opened q) hx
  unfold execRequest
  simp only [doBranchRequest_action ha, withBranch_valid (d := s.part.opened q) hb hx, hcarry]
  rfl

theorem changeBranch_eq {b : Nat} {f : Branch → Branch} {d : Part} {x : Branch} (hx : d.branch b = some x) :
    changeBranch b f d = applyOutput b x (f x) d := by
  unfold changeBranch
  rw [hx]

theorem loses_iff (x y : Branch) : loses x y = true ↔ (x.holds.any = false ∧ y.holds.any = true) ∨
    (y.holds.any = false ∧ x.demands.any = true ∧ y.demands.any = false) := by
  unfold loses
  rcases x.holds.any with _ | _ <;> rcases y.holds.any with _ | _ <;> rcases x.demands.any with _ | _ <;>
    rcases y.demands.any with _ | _ <;> simp

/-- A branch that comes to be wanted loses nothing. -/
theorem not_loses_of_wanted {x y : Branch} (h : y.wanted = true) : loses x y = false := by
  unfold Branch.wanted at h
  unfold loses
  rcases x.holds.any with _ | _ <;> rcases hy : y.holds.any with _ | _ <;> rcases x.demands.any with _ | _ <;>
    rcases hd : y.demands.any with _ | _ <;> simp [hy, hd] at h ⊢

/-- Settles O18: the views by what no delivery touches, the output rule where the hand-offs do nothing. -/
theorem branchRequestActs : Obligations.BranchRequestActs := by
  unfold Obligations.BranchRequestActs
  intro s tag branch action x hs hb hx ha
  obtain ⟨q, hq⟩ : ∃ q : Queued, q = ⟨tag, .branchRequest branch action⟩ := ⟨_, rfl⟩
  rw [← hq]
  have hc : request (.branchRequest tag branch action) = some q := by rw [hq]; rfl
  have he : execRequest s.part.rlp.detail q.req (s.part.opened q) =
      (changeBranch branch.toNat (branchAction action.toNat) (s.part.opened q),
        .answer (branchAnswer x action.toNat)) := by
    rw [hq]
    exact execRequest_branchRequest hb hx ha _ _
  obtain ⟨hexec, htables, hlinks, hsru, hlkm, hviews⟩ := exec_branch hc hs he
    (changeBranch_kept _ (branchAction action.toNat) (fun _ => rfl) _)
    (changeBranch_views_id _ (branchAction action.toNat) _)
  refine ⟨_, hexec, rfl, htables, hlinks, hsru, hlkm, answeredAfter_answered _ _ _, ?_, fun n hn => ?_,
    fun hrun hsp => ?_⟩
  · obtain ⟨y, hy, hv⟩ := hviews.branch hx
    obtain ⟨hcfg, hholds, hctrl, hread, hfresh⟩ := settledView_eq_iff.mp hv
    exact ⟨y, hy, hcfg, hread, hfresh, hctrl, hholds⟩
  · have hv := congrArg (Option.map fun v => (v.1, v.2.1, v.2.2.1, v.2.2.2.1, v.2.2.2.2)) (hviews.others hn)
    rw [Option.map_map, Option.map_map] at hv
    exact hv
  · have ht := Touches.changeBranch (b := branch.toNat) (branchAction action.toNat) (s.part.opened q)
    have hu := answeredAfter_stilled (branchAnswer x action.toNat) q _
      (ht.stilled (d := s.part.opened q) ⟨hrun, hsp⟩)
      (ht.noted (noted_of_nil (d := s.part.opened q) hs.1.2.1))
    rw [changeBranch_eq (d := s.part.opened q) hx] at hu ⊢
    generalize hd : applyOutput branch.toNat x (branchAction action.toNat x) (s.part.opened q) = d at hu
    generalize answeredAfter (branchAnswer x action.toNat) q d = e at hu
    have becomes {y : Branch} {p : List Nat} {o : List (Option OutRecord)}
        (h : Becomes branch.toNat y p o (s.part.opened q)
          (applyOutput branch.toNat x (branchAction action.toNat x) (s.part.opened q))) :
        (e.branch branch.toNat = some y ∧ e.bcu.queue = p) ∧ e.slc.out = o := by
      rw [hd] at h
      refine ⟨⟨(branch_of_bcu (d := d) ?_ _).trans h.branch, Eq.trans ?_ h.queue⟩, Eq.trans ?_ h.out⟩
      · rw [hu.bcu]
      · rw [hu.bcu]
      · rw [hu.slc]
    refine ⟨fun hl hst => ?_, fun hl hst k r hk hr => ?_, fun hst hw hw' => ?_, fun h => ?_⟩
    · exact becomes (applyOutput_queued (d := s.part.opened q) (y := branchAction action.toNat x) hx ((loses_iff _ _).mpr hl) hst)
    · exact becomes (applyOutput_stops (d := s.part.opened q) (y := branchAction action.toNat x) hx ((loses_iff _ _).mpr hl) hst hk hr)
    · refine becomes (applyOutput_wanted (d := s.part.opened q) (y := branchAction action.toNat x) hx (not_loses_of_wanted hw') ?_ hst hw')
      intro he
      rw [he] at hw
      rw [show (branchAction action.toNat x).wanted = true from hw'] at hw
      cases hw
    · by_cases hl : loses x (branchAction action.toNat x) = true
      · refine becomes (applyOutput_loses (d := s.part.opened q) (y := branchAction action.toNat x) hx hl ?_)
        rw [loses_iff] at hl
        show x.state ≠ _ ∧ x.state ≠ _ ∧ x.state ≠ _
        rcases h with ⟨hn, -⟩ | ⟨-, h⟩ | h | h | h
        · exact absurd hl hn
        all_goals rw [h]; decide
      · have hl' := Bool.eq_false_iff.mpr hl
        refine becomes (applyOutput_stands (d := s.part.opened q) (y := branchAction action.toNat x) hx hl' ?_)
        rintro ⟨hst, hw⟩
        change x.state = _ at hst
        rw [loses_iff] at hl
        rcases h with ⟨-, h | h⟩ | ⟨h, -⟩ | h | h | h
        · exact h hst
        · rw [show (branchAction action.toNat x).wanted = false from h] at hw
          cases hw
        · exact hl h
        all_goals rw [hst] at h; cases h

/-! ## BRANCH CLEAR (R52) -/

section
variable {d : Part} {b : Nat} {x : Branch} (hx : d.branch b = some x) (hs : x.state = .fault)
include hx hs

theorem branchClear_wanted (hw : x.cleared.wanted = true) :
    Becomes b { x.cleared with state := .queued } (d.bcu.queue ++ [b]) d.slc.out d (branchClear b d) := by
  simp only [branchClear, hx, hs, if_true]
  exact ((((Becomes.refl hx).put x.cleared).noteLoad _).signalOnce (.inr rfl)).queueIfWanted rfl hw

theorem branchClear_off (hw : x.cleared.wanted = false) :
    Becomes b x.cleared d.bcu.queue d.slc.out d (branchClear b d) := by
  simp only [branchClear, hx, hs, if_true]
  exact ((((Becomes.refl hx).put x.cleared).noteLoad _).signalOnce (.inr rfl)).queueIfWanted_not
    (by simp [hw])

end

/-- A branch out of FAULT is wanted where it holds a demand and no hold but TRIP, which has gone. -/
theorem cleared_wanted_iff (x : Branch) : x.cleared.wanted = true ↔
    (x.demands.seq = true ∨ x.demands.ctrl = true) ∧ x.holds.leak = false ∧ x.holds.shed = false ∧
      x.holds.forceOff = false := by
  simp [Branch.cleared, Branch.wanted, Branch.withTrip, Demands.any, Holds.any, and_assoc]

theorem execRequest_branchClear {s : State} {branch : Word} {x : Branch} (hb : branch.toNat < 36)
    (hx : s.part.branch branch.toNat = some x) (copy : Option FaultDetail) (q : Queued) :
    execRequest copy (.branchClear branch) (s.part.opened q) =
      (branchClear branch.toNat (s.part.opened q), .answer (Answer.done [])) := by
  unfold execRequest
  simp only [doBranchClear, withBranch_valid (d := s.part.opened q) hb hx]
  rfl

/-- Settles O19: the views as for a request, the way out of FAULT by what it makes of the branch. -/
theorem branchClearActs : Obligations.BranchClearActs := by
  unfold Obligations.BranchClearActs
  refine ⟨fun s tag branch x hs hb hx => ?_, fun d b x hx hst => ?_⟩
  · obtain ⟨q, hq⟩ : ∃ q : Queued, q = ⟨tag, .branchClear branch⟩ := ⟨_, rfl⟩
    rw [← hq]
    have hc : request (.branchClear tag branch) = some q := by rw [hq]; rfl
    have he : execRequest s.part.rlp.detail q.req (s.part.opened q) =
        (branchClear branch.toNat (s.part.opened q), .answer (Answer.done [])) := by
      rw [hq]
      exact execRequest_branchClear hb hx _ _
    obtain ⟨hexec, htables, hlinks, hsru, hlkm, hviews⟩ := exec_branch hc hs he (branchClear_kept _ _)
      (branchClear_views _ _)
    refine ⟨_, hexec, rfl, htables, hlinks, hsru, hlkm, answeredAfter_answered _ _ _, ?_, fun n hn => ?_⟩
    · obtain ⟨y, hy, hv⟩ := hviews.branch hx
      obtain ⟨hcfg, hholds, hctrl, -⟩ := settledView_eq_iff.mp hv
      exact ⟨y, hy, hcfg, hctrl, hholds⟩
    · have hv := congrArg (Option.map fun v => (v.1, v.2.1, v.2.2.1)) (hviews.others hn)
      rw [Option.map_map, Option.map_map] at hv
      exact hv
  · refine ⟨?_, fun hw => ?_, fun hw => ?_⟩
    · rcases hw : x.cleared.wanted with _ | _
      · have h := branchClear_off hx hst hw
        rw [h.slc, h.out]
      · have h := branchClear_wanted hx hst hw
        rw [h.slc, h.out]
    · have h := branchClear_wanted hx hst ((cleared_wanted_iff x).mpr hw)
      exact ⟨h.branch, h.queue⟩
    · have h := branchClear_off hx hst (Bool.eq_false_iff.mpr (mt (cleared_wanted_iff x).mp hw))
      exact ⟨h.branch, h.queue⟩

end Sys2Proof.Machine

/-! PROOFS. A switch reading (R56, R57): what it makes of its branch, and that it does the same in two parts that
differ in the telemetry and the uplink alone (`Beside`). -/

namespace Sys2Proof.Machine

-- One proof after another: proofs that are checked side by side take a thread each.
set_option Elab.async false

/-! ## The table of R56 and R57 -/

section
variable {d : Part} {b : Nat} {x : Branch} (hx : d.branch b = some x)
include hx

theorem switchReading_fault (hs : x.state = .fault) (code : Int) : switchReading b code d = d := by
  simp only [switchReading, hx, hs]

theorem switchReading_idle (hs : x.state = .off ∨ x.state = .queued) :
    switchReading b 0 d = d ∧ ∀ code, code = 1 ∨ code = 2 →
      switchReading b code d = faultBranch .uncommandedOn b d := by
  rcases hs with hs | hs <;> simp only [switchReading, hx, hs] <;>
    exact ⟨rfl, fun code hc => by rcases hc with rfl | rfl <;> rfl⟩

theorem switchReading_admitting (hs : x.state = .admitting) : switchReading b 0 d = d ∧
    switchReading b 1 d = d ∧ Becomes b { x with state := .on, timer := .stopped } d.bcu.queue d.slc.out d
      (switchReading b 2 d) := by
  simp only [switchReading, hx, hs]
  exact ⟨rfl, rfl, stored_becomes hx _⟩

theorem switchReading_on (hs : x.state = .on) : switchReading b 0 d = faultBranch .uncommandedOff b d ∧
    switchReading b 1 d = d ∧ switchReading b 2 d = d := by
  simp only [switchReading, hx, hs]
  exact ⟨rfl, rfl, rfl⟩

theorem switchReading_stopping (hs : x.state = .stopping) : switchReading b 1 d = d ∧ switchReading b 2 d = d ∧
    switchReading b 0 d = queueIfWanted b
      (signalOnce .branches (putBranch b { x with state := .off, timer := .stopped } d)) := by
  simp only [switchReading, hx, hs]
  exact ⟨rfl, rfl, rfl⟩

theorem switchReading_switchFault (hs : x.state ≠ .fault) :
    switchReading b 3 d = faultBranch .switchFault b d := by
  cases hst : x.state <;> simp only [switchReading, hx, hst]
  case fault => exact absurd hst hs
  all_goals rfl

theorem switchReading_unknown (hs : x.state = .unknown) (code : Int) : switchReading b code d = adopt b x code d := by
  simp only [switchReading, hx, hs]

/-- A branch as an adoption finds it switched on. -/
def Branch.adopted (x : Branch) : Branch := { x with demands := { x.demands with seq := true } }

variable {k : Nat} {r : OutRecord} (hk : d.outSlot x.cfg.node = some k) (hr : entry d.slc.out k = some r)
include hk hr

/-- A branch adopted as OFF has OFF staged. -/
theorem adopt_stagesOff : Becomes b { x with state := .off } d.bcu.queue (d.slc.out.set k (some (r.ownStage b ctlOff))) d
    (stageBranch b ctlOff (signalOnce .branches (putBranch b { x with state := .off } d))) :=
  (stored_becomes hx _).stageBranch ctlOff hk hr

theorem adopt_off_wanted (hw : x.wanted = true) : Becomes b { x with state := .queued } (d.bcu.queue ++ [b])
    (d.slc.out.set k (some (r.ownStage b ctlOff))) d (adopt b x 0 d) :=
  (adopt_stagesOff hx hk hr).queueIfWanted rfl hw

theorem adopt_off (hw : x.wanted = false) : Becomes b { x with state := .off } d.bcu.queue
    (d.slc.out.set k (some (r.ownStage b ctlOff))) d (adopt b x 0 d) :=
  (adopt_stagesOff hx hk hr).queueIfWanted_not
    (by rw [show ({ x with state := .off } : Branch).wanted = x.wanted from rfl, hw]; exact nofun)

theorem adopt_on {code : Int} (hc : code = 1 ∨ code = 2) (hh : x.holds.any = false) :
    Becomes b { x.adopted with state := .on } d.bcu.queue (d.slc.out.set k (some (r.ownStage b ctlOn))) d
      (adopt b x code d) := by
  have h := (stored_becomes hx { x with state := .on, demands := { x.demands with seq := true } }).stageBranch
    ctlOn hk hr
  rcases hc with rfl | rfl <;> simp only [adopt, hh] <;> exact h

theorem adopt_stops {code : Int} (hc : code = 1 ∨ code = 2) (hh : x.holds.any = true) :
    Becomes b { x.adopted with state := .stopping, timer := .running d.sru.profile.admitTimeoutMs } d.bcu.queue
      (d.slc.out.set k (some (r.ownStage b ctlOff))) d (adopt b x code d) := by
  have h := (stored_becomes hx { x with state := .on, demands := { x.demands with seq := true } }).stopBranch
    hk hr
  rcases hc with rfl | rfl <;> simp only [adopt, hh] <;> exact h

end

/-! ## Two parts that differ in the telemetry and the uplink -/

/-- The part `e` beside `d`, both reached from `a`: the same but for what is not the BCU's, and with the records of
`d` posted in `e` too, unless one was lost since `a`. -/
structure Beside (a d e : Part) : Prop where
  active : e.slc.active = d.slc.active
  out : e.slc.out = d.slc.out
  cycle : e.slc.cycle = d.slc.cycle
  bcu : e.bcu = d.bcu
  sru : e.sru = d.sru
  sqe : e.sqe = d.sqe
  overflow : a.rlp.eventOverflow ≤ e.rlp.eventOverflow
  posted : NoRecordLost a e → ∀ r, d.holdsEvent r → e.holdsEvent r

theorem mem_posted {d : Part} {r : EventRecord} : r ∈ d.posted ↔ d.holdsEvent r := by
  unfold Part.posted Part.holdsEvent
  rw [List.mem_append]
  refine or_congr_left ?_
  rcases d.rlp.tx with _ | m
  · simp
  · cases m <;> simp [eq_comm]

/-- The record that a post would append. -/
def newRecord (k : EventKind) (s v : Option Nat) (d : Part) : EventRecord := ⟨k, s, v, d.slc.cycle⟩

/-- A post brings the new record alone. -/
theorem holdsEvent_of_post {k : EventKind} {s v : Option Nat} {d : Part} {r : EventRecord}
    (h : (post k s v d).holdsEvent r) : d.holdsEvent r ∨ r = newRecord k s v d := by
  unfold post at h
  split at h
  · unfold arbitrate at h
    split at h
    · rcases h with h | h
      · exact .inl (.inl h)
      · rcases List.mem_append.mp h with h | h
        · exact .inl (.inr h)
        · exact .inr (List.mem_singleton.mp h)
    · simp only at h
      split at h
      · rename_i e rest he
        have hr : r ∈ d.rlp.events ++ [newRecord k s v d] := by
          show r ∈ d.rlp.events ++ [⟨k, s, v, d.slc.cycle⟩]
          rw [he]
          rcases h with ⟨tag, ht⟩ | h
          · simp only [serveEvent, Option.some.injEq, Uplink.event.injEq] at ht
            rw [← ht.2]
            exact List.mem_cons_self
          · exact List.mem_cons_of_mem _ h
        rcases List.mem_append.mp hr with hr | hr
        · exact .inl (.inr hr)
        · exact .inr (List.mem_singleton.mp hr)
      · rename_i he
        simp at he
  · exact .inl h

theorem arbitrate_overflow (d : Part) : (arbitrate d).rlp.eventOverflow = d.rlp.eventOverflow := by
  unfold arbitrate
  repeat' split
  all_goals rfl

theorem satInc_ge (n : Nat) : n ≤ satInc n := by
  unfold satInc
  split <;> omega

theorem post_overflow (k : EventKind) (s v : Option Nat) (d : Part) :
    d.rlp.eventOverflow ≤ (post k s v d).rlp.eventOverflow := by
  unfold post
  split
  · rw [arbitrate_overflow]
  · exact satInc_ge _

/-- Where no record is lost, the record that is posted waits or is sent. -/
theorem post_noRecordLost {a d : Part} {k : EventKind} {s v : Option Nat}
    (ha : a.rlp.eventOverflow ≤ d.rlp.eventOverflow) (h : NoRecordLost a (post k s v d)) :
    NoRecordLost a d ∧ (post k s v d).holdsEvent (newRecord k s v d) := by
  obtain ⟨hlt, heq⟩ := h
  have hge := post_overflow k s v d
  refine ⟨⟨hlt, by omega⟩, post_holds k s v d ?_⟩
  by_contra hroom
  unfold post at heq
  rw [if_neg hroom] at heq
  simp only [satInc] at heq
  split at heq <;> omega

namespace Beside
variable {a d e : Part} {b : Nat}

theorem branch (h : Beside a d e) (n : Nat) : e.branch n = d.branch n := branch_of_bcu (by rw [h.bcu]) n

theorem outSlot (h : Beside a d e) (n : Nat) : e.outSlot n = d.outSlot n := by
  unfold Part.outSlot Part.findSlot
  rw [h.active]

theorem committedLoad (h : Beside a d e) : Machine.committedLoad e = Machine.committedLoad d := by
  unfold Machine.committedLoad
  rw [h.bcu, h.sru]

section
variable (h : Beside a d e)
include h

theorem put (y : Branch) : Beside a (putBranch b y d) (putBranch b y e) :=
  ⟨h.active, h.out, h.cycle, by simp [putBranch, h.bcu], h.sru, h.sqe, h.overflow, h.posted⟩

theorem signalOnce (s : Signal) : Beside a (signalOnce s d) (signalOnce s e) := by
  unfold Machine.signalOnce
  split <;> split <;> exact ⟨h.active, h.out, h.cycle, h.bcu, h.sru, h.sqe, h.overflow, h.posted⟩

theorem setQueue (q : List Nat) : Beside a (setQueue q d) (setQueue q e) := by
  unfold Machine.setQueue
  rw [h.bcu]
  split
  · exact ⟨h.active, h.out, h.cycle, rfl, h.sru, h.sqe, h.overflow, h.posted⟩
  · refine Beside.signalOnce (d := { d with bcu.queue := q, bcu.headBlocked := false })
      (e := { e with bcu := { d.bcu with queue := q, headBlocked := false } }) ?_ .attempt
    exact ⟨h.active, h.out, h.cycle, rfl, h.sru, h.sqe, h.overflow, h.posted⟩

theorem leaveQueue : Beside a (leaveQueue b d) (leaveQueue b e) := by
  unfold Machine.leaveQueue
  rw [h.bcu]
  exact h.setQueue _

theorem noteLoad (n : Nat) : Beside a (noteLoad n d) (noteLoad n e) := by
  unfold Machine.noteLoad
  rw [h.committedLoad]
  split
  · exact h.signalOnce _
  · exact h

theorem noteFaulted (x : Branch) : Beside a (noteFaulted b x d) (noteFaulted b x e) := by
  unfold Machine.noteFaulted
  rw [h.sqe]
  repeat' split
  · exact ⟨h.active, h.out, h.cycle, h.bcu, h.sru, rfl, h.overflow, h.posted⟩
  · exact h
  · exact h

theorem post (k : EventKind) (s v : Option Nat) : Beside a (post k s v d) (post k s v e) := by
  have hd := post_uplinked k s v d
  have he := post_uplinked k s v e
  refine ⟨?_, ?_, ?_, ?_, ?_, ?_, h.overflow.trans (post_overflow k s v e), fun hn r hr => ?_⟩
  · rw [he.slc, hd.slc, h.active]
  · rw [he.slc, hd.slc, h.out]
  · rw [he.slc, hd.slc, h.cycle]
  · rw [he.bcu, hd.bcu, h.bcu]
  · rw [he.sru, hd.sru, h.sru]
  · rw [he.sqe, hd.sqe, h.sqe]
  · obtain ⟨hlost, hnew⟩ := post_noRecordLost h.overflow hn
    rcases holdsEvent_of_post hr with hr | rfl
    · exact (post_settled k s v e).holds r (h.posted hlost r hr)
    · unfold newRecord at hnew ⊢
      rw [h.cycle] at hnew
      exact hnew

theorem stage (w : Writer) (m : Option Nat) (n : Nat) (v : Word) :
    Beside a (stage w m n v d).1 (stage w m n v e).1 ∧ (stage w m n v e).2 = (stage w m n v d).2 := by
  unfold Machine.stage
  rw [h.outSlot, h.out]
  split
  · exact ⟨h, rfl⟩
  · split
    · exact ⟨h, rfl⟩
    · rename_i r _
      refine ⟨?_, rfl⟩
      rcases tellSuperseded_eq w n r d with hd | ⟨-, hd⟩ <;> rw [hd] <;>
        rcases tellSuperseded_eq w n r e with he | ⟨-, he⟩ <;> rw [he] <;>
        exact ⟨h.active, by simp only [h.out], h.cycle, h.bcu, h.sru, h.sqe, h.overflow, h.posted⟩

theorem faultBranch (c : BranchCause) : Beside a (faultBranch c b d) (faultBranch c b e) := by
  unfold Machine.faultBranch
  rw [h.branch]
  split
  · exact h
  · refine Beside.signalOnce (Beside.post (Beside.noteFaulted ?_ _) _ _ _) _
    have left := fun y : Branch => (h.put (b := b) y).leaveQueue (b := b)
    split
    · exact left _
    · exact ((left _).stage _ _ _ _).1

theorem stageBranch (v : Word) : Beside a (stageBranch b v d) (stageBranch b v e) := by
  unfold Machine.stageBranch
  rw [h.branch]
  split
  · exact h
  · rename_i x _
    obtain ⟨hs, hflag⟩ := h.stage .bcu (some b) x.cfg.node v
    rcases hd : Machine.stage .bcu (some b) x.cfg.node v d with ⟨d', fd⟩
    rcases he : Machine.stage .bcu (some b) x.cfg.node v e with ⟨e', fe⟩
    rw [hd, he] at hs hflag
    simp only at hs hflag
    subst hflag
    cases fe
    · exact hs
    · simp only
      split
      · exact hs
      · exact hs.faultBranch _

theorem stopBranch : Beside a (stopBranch b d) (stopBranch b e) := by
  unfold Machine.stopBranch
  rw [h.branch]
  split
  · exact h
  · simp only [h.sru, h.committedLoad]
    exact (((h.put _).noteLoad _).signalOnce _).stageBranch _

theorem enqueueBack : Beside a (enqueueBack b d) (enqueueBack b e) := by
  unfold Machine.enqueueBack
  rw [h.branch]
  split
  · exact h
  · rw [h.bcu]
    exact ((h.put _).setQueue _).signalOnce _

theorem queueIfWanted : Beside a (queueIfWanted b d) (queueIfWanted b e) := by
  unfold Machine.queueIfWanted
  rw [h.branch]
  split
  · exact h
  · split
    · exact h.enqueueBack
    · exact h

theorem stored (y : Branch) : Beside a (Machine.signalOnce .branches (putBranch b y d))
    (Machine.signalOnce .branches (putBranch b y e)) := (h.put y).signalOnce _

theorem adopt (x : Branch) (code : Int) : Beside a (adopt b x code d) (adopt b x code e) := by
  unfold Machine.adopt
  split
  · exact ((h.stored _).stageBranch _).queueIfWanted
  · split
    · exact h.faultBranch _
    · simp only
      split
      · exact (h.stored _).stopBranch
      · exact (h.stored _).stageBranch _

theorem switchReading (code : Int) : Beside a (switchReading b code d) (switchReading b code e) := by
  unfold Machine.switchReading
  rw [h.branch]
  split
  · exact h
  · split
    · exact h.adopt _ code
    · split
      · exact h
      · exact h.faultBranch _
    · split
      · exact h
      · exact h.faultBranch _
    · split
      · exact h.faultBranch _
      · split
        · exact h.stored _
        · exact h
    · split
      · exact h.faultBranch _
      · split
        · exact h.faultBranch _
        · exact h
    · split
      · exact h.faultBranch _
      · split
        · exact (h.stored _).queueIfWanted
        · exact h
    · exact h

end
end Beside

end Sys2Proof.Machine

/-! PROOFS. A cell of a live node (R8 to R12), hand-offs that do nothing, and the cell that brings a switch reading
(R56, R57). -/

namespace Sys2Proof.Machine

-- One proof after another: proofs that are checked side by side take a thread each.
set_option Elab.async false

/-! ## Hand-offs that do nothing -/

/-- A hand-off whose delivery changes nothing in `d`. -/
def Idle (d : Part) (s : Signal) : Prop := ∀ l, handle s { d with agenda := l } = { d with agenda := l }

theorem settle_idle (n : Nat) {d : Part} (h : ∀ s ∈ d.agenda, Idle d s) (hn : d.agenda.length ≤ n) :
    settle n d = { d with agenda := [] } := by
  induction n generalizing d with
  | zero =>
    have hnil := List.length_eq_zero_iff.mp (Nat.le_zero.mp hn)
    rw [settle_nil 0 d hnil, ← hnil]
  | succ n ih =>
    rcases hd : d.agenda with _ | ⟨s, rest⟩
    · rw [settle_nil _ d hd, ← hd]
    · rw [hd] at h hn
      unfold settle
      rw [hd]
      simp only
      rw [h s (by simp) rest, ih (d := { d with agenda := rest }) (fun x hx => h x (List.mem_cons_of_mem _ hx))
        (by simpa using hn)]

theorem complete_idle {d : Part} (hp : ∀ node, d.rlp.phase ≠ .passing node) (h : ∀ s ∈ d.agenda, Idle d s)
    (hn : d.agenda.length ≤ settleFuel) : complete d = refreshLines (quieten d) := by
  rw [complete_calm d hp, settleAll, settle_idle _ h hn]
  rfl

theorem idle_of_stilled {d : Part} {s : Signal} (h : stilled d) (hs : s = .attempt ∨ s = .branches) : Idle d s :=
  fun l => handle_stilled (d := { d with agenda := l }) h hs

/-- An acknowledgement acts on nobody where no NODE PASS waits (R38, R59, R162). -/
theorem idle_ack {d : Part} (hp : ∀ node, d.rlp.phase ≠ .passing node) (w : Writer) (b : Option Nat) (n : Nat) :
    Idle d (.outcome w b n .ack) := fun l => by
  cases w with
  | bcu => cases b <;> rfl
  | tlf => rfl
  | rlp => exact noteOutcome_other (d := { d with agenda := l }) (hp n)

/-! ## An accepted cell -/

theorem cellFate_accepts {node : Nat} {kind : ChannelKind} {limit : Option Nat} {c : InCell} {q : Quality}
    (hcrc : crc8 [c.node, c.kind, hiByte c.value, loByte c.value, c.status] = c.check)
    (hq : Quality.ofCode (c.status >>> 6).toNat = some q) (hn : c.node.toNat = node)
    (hk : c.kind.toNat = kind.code) :
    cellFate (some (.input node kind limit)) c = .accepted node kind limit q := by
  rw [cellFate_input, hq]
  simp only [ne_eq, hcrc, not_true_eq_false, if_false, hn, hk, or_self]

theorem receiveCell_accepts {d : Part} {k node : Nat} {kind : ChannelKind} {limit : Option Nat} {c : InCell}
    {q : Quality} (he : entry d.slc.active k = some (.input node kind limit))
    (h : cellFate (some (.input node kind limit)) c = .accepted node kind limit q) :
    receiveCell k c d = acceptCell k node kind limit q c d := by
  simp only [receiveCell, he, h]

/-- The nodes once a node has been heard. -/
def heardNode (node : Nat) (d : Part) : Part :=
  { d with slc.nodes := d.slc.nodes.set (node - 1) ⟨.live, some d.slc.cycle⟩ }

theorem hearNode_live {node : Nat} {d : Part} (h : (d.nodeRecord node).state = .live) :
    hearNode node d = heardNode node d := by
  simp only [hearNode, h]
  rfl

/-- A slot that a sample satisfies is among the satisfied ones; nothing else changes. -/
theorem noteSatisfied_eq (k : Nat) (x : Sample) (d : Part) :
    ∃ l, noteSatisfied k x d = { d with slc.satisfied := l } := by
  unfold noteSatisfied
  repeat' split
  all_goals exact ⟨_, rfl⟩

/-! ## A sample of a status channel -/

theorem paramsOf_status {d : Part} {kind : ChannelKind} {limit : Option Nat} (h : kind.isStatus = true) :
    (paramsOf d kind limit).action = .never := by
  unfold paramsOf
  cases limit.bind (entry d.tlf.limits) with
  | none => rfl
  | some e => simp [h]

theorem postClass_overflow (k n : Nat) (o c : ChanClass) (d : Part) :
    d.rlp.eventOverflow ≤ (postClass k n o c d).rlp.eventOverflow := by
  unfold postClass
  split
  · exact post_overflow _ _ _ d
  · exact le_refl _

theorem postClass_uplinked (k n : Nat) (o c : ChanClass) (d : Part) : Uplinked d (postClass k n o c d) := by
  unfold postClass
  split
  · exact post_uplinked _ _ _ d
  · exact ⟨by rfl⟩

theorem forward_overflow (r : SampleRecord) (d : Part) :
    (forward r d).rlp.eventOverflow = d.rlp.eventOverflow := by
  unfold forward
  split <;> exact arbitrate_overflow _

theorem stored_overflow (k : Nat) (x : ChannelState) (fwd : Bool) (r : SampleRecord) (d : Part) :
    (stored k x fwd r d).rlp.eventOverflow = d.rlp.eventOverflow := by
  unfold stored
  split
  · exact forward_overflow _ _
  · rfl

theorem stored_holds (k : Nat) (x : ChannelState) (fwd : Bool) (r : SampleRecord) (d : Part) {e : EventRecord}
    (h : d.holdsEvent e) : (stored k x fwd r d).holdsEvent e := by
  unfold stored
  split
  · exact (forward_frame r (putChannel k x d)).holds e h
  · exact h

/-- What a sample of a status channel does ends with the event of its class change. -/
theorem goodSample_status {k node : Nat} {kind : ChannelKind} {limit : Option Nat} {v : Int} {d : Part}
    {x : ChannelState} (hk : kind = .brStatus) (hx : entry d.tlf.channels k = some x) :
    ∃ y fwd r new, goodSample k node kind limit v d = stored k y fwd r d ∨
      goodSample k node kind limit v d = postClass k node x.cls new (stored k y fwd r d) := by
  subst hk
  refine ⟨sampled (paramsOf d .brStatus limit) x v d, isForwarded (paramsOf d .brStatus limit) x v d,
    ⟨node, .brStatus, v, (classify (paramsOf d .brStatus limit) x v).1.cls, d.slc.cycle⟩,
    (classify (paramsOf d .brStatus limit) x v).1.cls, ?_⟩
  have hhand (c : ChanClass) (changed : Bool) (e : Part) : handSample k node .brStatus c changed e = e := by
    unfold handSample
    split <;> rfl
  have htrip (c : Bool) (e : Part) :
      (if c = true then takeTrip (paramsOf d .brStatus limit).action node e else e) = e := by
    rw [paramsOf_status rfl]
    split <;> rfl
  rw [goodSample_eq hx, hhand]
  unfold acted
  simp only [htrip]
  split
  · exact .inr rfl
  · exact .inl rfl

theorem goodSample_none {k node : Nat} {kind : ChannelKind} {limit : Option Nat} {v : Int} {d : Part}
    (h : entry d.tlf.channels k = none) : goodSample k node kind limit v d = d := by
  simp only [goodSample, h]

/-- A sample of a switch node's status channel, up to its delivery to the BCU, leaves the part beside what it was. -/
theorem goodSample_beside {a : Part} (k node : Nat) (limit : Option Nat) (v : Int) (d : Part) (h : Beside a a d) :
    Beside a a (goodSample k node .brStatus limit v d) ∧
      (goodSample k node .brStatus limit v d).agenda = d.agenda := by
  rcases hx : entry d.tlf.channels k with _ | x
  · rw [goodSample_none hx]
    exact ⟨h, rfl⟩
  · have kept {e : Part} (hu : Uplinked (putChannel k x d) e ∨ ∃ z, Uplinked (putChannel k z d) e)
        (ho : d.rlp.eventOverflow ≤ e.rlp.eventOverflow) (hh : ∀ r, d.holdsEvent r → e.holdsEvent r) :
        Beside a a e ∧ e.agenda = d.agenda := by
      obtain ⟨z, hz⟩ : ∃ z, Uplinked (putChannel k z d) e := hu.elim (fun h => ⟨x, h⟩) id
      refine ⟨⟨?_, ?_, ?_, ?_, ?_, ?_, h.overflow.trans ho, fun hn r hr => ?_⟩, hz.agenda⟩
      · rw [hz.slc]; exact h.active
      · rw [hz.slc]; exact h.out
      · rw [hz.slc]; exact h.cycle
      · rw [hz.bcu]; exact h.bcu
      · rw [hz.sru]; exact h.sru
      · rw [hz.sqe]; exact h.sqe
      · have := h.overflow
        exact hh r (h.posted ⟨hn.1, by have := hn.2; omega⟩ r hr)
    obtain ⟨y, fwd, r, new, hs | hs⟩ := goodSample_status (node := node) (limit := limit) (v := v) rfl hx <;>
      rw [hs]
    · exact kept (.inr ⟨y, stored_uplinked k y fwd r d⟩) (stored_overflow k y fwd r d).ge
        fun e he => stored_holds k y fwd r d he
    · exact kept (.inr ⟨y, (stored_uplinked k y fwd r d).trans (postClass_uplinked _ _ _ _ _)⟩)
        ((stored_overflow k y fwd r d).ge.trans (postClass_overflow _ _ _ _ _))
        fun e he => (postClass_settled _ _ _ _ _).holds e (stored_holds k y fwd r d he)

/-! ## The echo -/

/-- The fields of an Outbound Slot record by which a stage is told. -/
def OutRecord.stageOf (r : OutRecord) : Option Word × Option Writer × Option Nat := (r.staged, r.lastWriter, r.forBranch)

/-- What reading an echo does: no staged value changes, and one acknowledgement at most is due. -/
structure Echoed (d d' : Part) : Prop where
  eq : d' = { d with slc.out := d'.slc.out, agenda := d'.agenda }
  stages : d'.slc.out.map (Option.map OutRecord.stageOf) = d.slc.out.map (Option.map OutRecord.stageOf)
  agenda : d'.agenda = d.agenda ∨ ∃ w b n, d'.agenda = d.agenda ++ [.outcome w b n .ack]

theorem putOut_echoed {j : Nat} {r r' : OutRecord} {d : Part} (hr : entry d.slc.out j = some r)
    (h : r'.stageOf = r.stageOf) : Echoed d (putOut j r' d) :=
  ⟨rfl, map_set_same _ _ _ r _ hr (by simp [h]), .inl rfl⟩

theorem readEcho_echoed (k node : Nat) (kind : ChannelKind) (e : BitVec 2) (d : Part) :
    Echoed d (readEcho k node kind e d) := by
  have none : Echoed d d := ⟨rfl, rfl, .inl rfl⟩
  unfold readEcho
  split
  · split
    · split
      · rename_i j _ r hr
        unfold echoRecord
        repeat' split
        · have hput := putOut_echoed (r' := { r with awaiting := false, owed := false }) hr rfl
          unfold tellWriter
          split
          · split
            · exact ⟨rfl, hput.stages, .inr ⟨_, _, _, rfl⟩⟩
            · exact hput
          · exact hput
        · exact putOut_echoed hr rfl
        · exact none
        · exact putOut_echoed hr rfl
      · exact none
    · exact none
  · exact none

/-! ## The cell that brings a switch reading -/

section
variable {s : State} {slot node b : Nat} {limit : Option Nat} {c : InCell} {code : Int}

/-- What a switch reading of a live node does before its echo is read. -/
def readingPart (slot node b : Nat) (limit : Option Nat) (code : Int) (d : Part) : Part :=
  switchReading b code (goodSample slot node .brStatus limit code
    (noteSatisfied slot (.good code) (heardNode node d)))

theorem acceptCell_reading {d : Part} (hlive : (d.nodeRecord node).state = .live)
    (hv : sampleOf .brStatus .good c.value = .good code) (hb : d.branchAt node = some b) :
    acceptCell slot node .brStatus limit .good c d =
      readEcho slot node .brStatus (cellEcho c) (readingPart slot node b limit code d) := by
  obtain ⟨l, hl⟩ := noteSatisfied_eq slot (.good code) (heardNode node d)
  have hbcu : (goodSample slot node .brStatus limit code
      (noteSatisfied slot (.good code) (heardNode node d))).bcu = d.bcu := by
    have h := (goodSample_beside (a := d) slot node limit code
      (noteSatisfied slot (.good code) (heardNode node d)) (by
        rw [hl]
        exact ⟨rfl, rfl, rfl, rfl, rfl, rfl, le_refl _, fun _ _ h => h⟩)).1
    exact h.bcu
  have hat : (goodSample slot node .brStatus limit code
      (noteSatisfied slot (.good code) (heardNode node d))).branchAt node = some b := by
    unfold Part.branchAt
    rw [hbcu]
    exact hb
  unfold acceptCell
  simp only [hv, hearNode_live hlive, channelSample, deliverSample, hat]
  rfl

theorem readingPart_beside (d : Part) : Beside d (switchReading b code d) (readingPart slot node b limit code d) ∧
    (Noted d → Noted (readingPart slot node b limit code d)) := by
  obtain ⟨l, hl⟩ := noteSatisfied_eq slot (.good code) (heardNode node d)
  obtain ⟨hbeside, hagenda⟩ := goodSample_beside (a := d) slot node limit code
    (noteSatisfied slot (.good code) (heardNode node d)) (by
      rw [hl]
      exact ⟨rfl, rfl, rfl, rfl, rfl, rfl, le_refl _, fun _ _ h => h⟩)
  refine ⟨hbeside.switchReading code, fun h => (Touches.switchReading code _).noted (h.of_agenda ?_)⟩
  rw [hagenda, hl]
  rfl

end

theorem entry_map_map {α β : Type} {f : α → β} {l l' : List (Option α)}
    (h : l'.map (Option.map f) = l.map (Option.map f)) (k : Nat) : (entry l' k).map f = (entry l k).map f := by
  rw [entry_map, entry_map, h]

theorem EntersFault.of_eq {c : BranchCause} {b : Nat} {x : Branch} {d d' : Part} (hx : d.branch b = some x)
    (h : d' = faultBranch c b d) : EntersFault c b x d d' := by
  rw [h]
  exact faultBranch_enters hx c

/-- Settles O20: the table case by case; the cell's sample reads the same in a part beside, and what is due after it
does nothing. -/
theorem switchReadingTable : Obligations.SwitchReadingTable := by
  unfold Obligations.SwitchReadingTable
  refine ⟨fun d b x hx => ⟨fun hs code => switchReading_fault hx hs code, fun hs => ?_, fun hs => ?_, fun hs => ?_,
    fun hs => ?_, fun hs => ?_, fun hs k r hk hr => ?_⟩,
    fun s slot node b limit c code hcalm he hcrc hq hv hn hk hlive hb hrun hsp => ?_⟩
  · obtain ⟨h0, h1⟩ := switchReading_idle hx hs
    exact ⟨h0, fun code hc => EntersFault.of_eq hx (h1 code hc)⟩
  · obtain ⟨h0, h1, h2⟩ := switchReading_admitting hx hs
    exact ⟨h0, h1, h2.branch, h2.queue, by rw [h2.slc, h2.out]⟩
  · obtain ⟨h0, h1, h2⟩ := switchReading_on hx hs
    exact ⟨EntersFault.of_eq hx h0, h1, h2⟩
  · obtain ⟨h1, h2, h0⟩ := switchReading_stopping hx hs
    have stored := stored_becomes hx { x with state := .off, timer := .stopped }
    refine ⟨h1, h2, ?_, ?_⟩
    · show (switchReading b 0 d).slc = d.slc
      rw [h0]
      rcases hw : x.wanted with _ | _
      · have h := stored.queueIfWanted_not (by
          rw [show ({ x with state := .off, timer := .stopped } : Branch).wanted = x.wanted from rfl, hw]
          exact nofun)
        rw [h.slc, h.out]
      · have h := stored.queueIfWanted rfl hw
        rw [h.slc, h.out]
    · simp only [h0]
      split
      · rename_i hw
        have h := stored.queueIfWanted rfl hw
        exact ⟨h.branch, h.queue⟩
      · rename_i hw
        have h := stored.queueIfWanted_not (fun hc => hw hc.2)
        exact ⟨h.branch, h.queue⟩
  · exact EntersFault.of_eq hx (switchReading_switchFault hx hs)
  · simp only [switchReading_unknown hx hs]
    have staged {y : Branch} {q : List Nat} {v : Word} {d' : Part}
        (h : Becomes b y q (d.slc.out.set k (some (r.ownStage b v))) d d') :
        entry d'.slc.out k = some (r.ownStage b v) := by
      rw [h.out]
      exact entry_set_same hr
    refine ⟨?_, ?_, fun code hc => ?_⟩
    · rcases hw : x.wanted with _ | _
      · exact staged (adopt_off hx hk hr hw)
      · exact staged (adopt_off_wanted hx hk hr hw)
    · split
      · have h := adopt_off_wanted hx hk hr ‹_›
        exact ⟨h.branch, h.queue⟩
      · have h := adopt_off hx hk hr (Bool.eq_false_iff.mpr ‹_›)
        exact ⟨h.branch, h.queue⟩
    · split
      · have h := adopt_stops hx hk hr hc ‹_›
        exact ⟨staged h, h.branch⟩
      · have h := adopt_on hx hk hr hc (Bool.eq_false_iff.mpr ‹_›)
        exact ⟨staged h, h.branch⟩
  · obtain ⟨hbeside, hnoted⟩ := readingPart_beside (slot := slot) (node := node) (b := b) (limit := limit)
      (code := code) s.part
    have hecho := readEcho_echoed slot node .brStatus (cellEcho c) (readingPart slot node b limit code s.part)
    have heff : receiveCell slot c s.part =
        readEcho slot node .brStatus (cellEcho c) (readingPart slot node b limit code s.part) := by
      rw [receiveCell_accepts he (cellFate_accepts hcrc hq hn hk), acceptCell_reading hlive hv hb]
    have houter := receiveCell_outer slot c s.part
    have hphase : ∀ n, (receiveCell slot c s.part).rlp.phase ≠ .passing n := by
      rw [houter.phase]
      exact hcalm.2
    have htouch := Touches.switchReading (b := b) code s.part
    have hstill := htouch.stilled ⟨hrun, hsp⟩
    have hagenda := hnoted (noted_of_nil hcalm.1.2.1)
    rw [heff] at hphase
    generalize readingPart slot node b limit code s.part = e at hbeside hnoted hecho heff hphase hagenda
    generalize readEcho slot node .brStatus (cellEcho c) e = f at hecho heff hphase
    have hfstill : stilled f := by
      unfold stilled at hstill ⊢
      rw [hecho.eq]
      simp only [hbeside.sqe, hbeside.sru, hbeside.bcu]
      exact hstill
    have hidle : ∀ g ∈ f.agenda, Idle f g := fun g hg => by
      rcases hecho.agenda with ha | ⟨w, m, n, ha⟩ <;> rw [ha] at hg
      · exact idle_of_stilled hfstill (hagenda.2 g hg)
      · rcases List.mem_append.mp hg with hg | hg
        · exact idle_of_stilled hfstill (hagenda.2 g hg)
        · rw [List.mem_singleton.mp hg]
          exact idle_ack hphase w m n
    have hlen : f.agenda.length ≤ settleFuel := by
      have := hagenda.length_le
      unfold settleFuel
      rcases hecho.agenda with ha | ⟨w, m, n, ha⟩ <;> rw [ha]
      · omega
      · rw [List.length_append, List.length_singleton]
        omega
    have hexec : exec (.cellReceive slot c) s = act (receiveCell slot c) s := rfl
    have hbcu : f.bcu = e.bcu := by rw [hecho.eq]
    have hrlp : f.rlp = e.rlp := by rw [hecho.eq]
    refine ⟨{ s with part := refreshLines (quieten f) }, ?_, rfl, ?_, fun n hn => ?_, ?_, fun k => ?_, fun hlost r hr => ?_⟩
    · rw [hexec, act_running _ _ hcalm.1.1, heff, complete_idle hphase hidle hlen]
    · exact branch_of_bcu (congrArg Bcu.branches (hbcu.trans hbeside.bcu)) b
    · exact (branch_of_bcu (congrArg Bcu.branches (hbcu.trans hbeside.bcu)) n).trans (htouch.others n hn)
    · exact congrArg Bcu.queue (hbcu.trans hbeside.bcu)
    · have hout := entry_map_map hecho.stages k
      rw [hbeside.out] at hout
      exact hout
    · have hlost' : NoRecordLost s.part e := ⟨hlost.1, (congrArg Rlp.eventOverflow hrlp).symm.trans hlost.2⟩
      have hheld := hbeside.posted hlost' r (mem_posted.mp hr)
      unfold Part.holdsEvent at hheld ⊢
      rw [← hrlp] at hheld
      exact hheld

end Sys2Proof.Machine

/-! PROOFS. The values after a soft reset (R152, R164, R168, R178), with the LEAK_IN line examined (R145). -/

namespace Sys2Proof.Machine

-- One proof after another: proofs that are checked side by side take a thread each.
set_option Elab.async false

/-! ## The table rule (R178) -/

theorem keptByRule_iff (d : Part) (t : TableId) (n : Nat) : keptByRule d t n = true ↔
    ¬ (d.rlp.features.clearTables = true ∧ bankProtected t n d = false) := by
  unfold keptByRule
  rcases d.rlp.features.clearTables with _ | _ <;> rcases bankProtected t n d with _ | _ <;> simp

/-- An entry after the table rule, and what a reset makes of it. -/
theorem entry_ruleTable {α β : Type} (d : Part) (t : TableId) (l : List (Option α)) (f : α → β) (n : Nat) :
    entry ((ruleTable d t l).map (Option.map f)) n =
      if d.rlp.features.clearTables = true ∧ bankProtected t n d = false then none
      else (entry l n).map f := by
  have hk := keptByRule_iff d t n
  unfold entry ruleTable
  rw [List.getElem?_map, List.getElem?_mapIdx]
  rcases l[n]? with _ | e
  · simp
  · by_cases h : d.rlp.features.clearTables = true ∧ bankProtected t n d = false
    · have : keptByRule d t n = false := Bool.eq_false_iff.mpr fun hc => hk.mp hc h
      simp [h, this]
    · have : keptByRule d t n = true := hk.mpr h
      cases e <;> simp [h, this]

theorem entry_ruleTable_id {α : Type} (d : Part) (t : TableId) (l : List (Option α)) (n : Nat) :
    entry (ruleTable d t l) n =
      if d.rlp.features.clearTables = true ∧ bankProtected t n d = false then none else entry l n := by
  have h := entry_ruleTable d t l id n
  simpa using h

/-- The table of the views of a kept table. -/
theorem map_map_entry {α β γ : Type} (f : α → β) (g : β → γ) (l : List (Option α)) (n : Nat) :
    (entry (l.map (Option.map f)) n).map g = entry (l.map (Option.map (g ∘ f))) n := by
  rw [entry_map, List.map_map, Option.map_comp_map]

theorem zone_resetBase (d : Part) (z : Nat) : (resetBase d).zone z =
    if z < d.lkm.zones.length then resetZone d z (d.zone z) else ⟨none, .clear, false, false⟩ := by
  unfold Part.zone resetBase resetBlocks resetLkm
  simp only [List.getElem?_mapIdx]
  split
  · rename_i h
    simp [h]
  · rename_i h
    simp [List.getElem?_eq_none (Nat.not_lt.mp h)]

theorem zone_length_of_latched {d : Part} {z : Nat} (h : (d.zone z).state.latched = true) :
    z < d.lkm.zones.length := by
  by_contra hz
  rw [zone_beyond (Nat.not_lt.mp hz)] at h
  cases h

theorem zone_resetBase_latched {d : Part} {z : Nat} (h : (d.zone z).state.latched = true) :
    (resetBase d).zone z = { d.zone z with degraded := false } := by
  rw [zone_resetBase, if_pos (zone_length_of_latched h)]
  exact if_pos h

theorem zone_resetBase_clear {d : Part} {z : Nat} (h : (d.zone z).state.latched = false) :
    ((resetBase d).zone z).state = .clear ∧ ((resetBase d).zone z).acked = false := by
  rw [zone_resetBase]
  split
  · unfold resetZone
    rw [if_neg (by simp [h])]
    exact ⟨rfl, rfl⟩
  · exact ⟨rfl, rfl⟩

theorem zone_resetBase_degraded (d : Part) (z : Nat) : ((resetBase d).zone z).degraded = false := by
  rw [zone_resetBase]
  split
  · unfold resetZone
    split <;> rfl
  · rfl

theorem zone_resetBase_cfg (d : Part) (z : Nat) : ((resetBase d).zone z).cfg =
    if d.rlp.features.clearTables = true ∧ bankProtected .leakZone z d = false ∧
      (d.zone z).state.latched = false then none else (d.zone z).cfg := by
  have hk := keptByRule_iff d .leakZone z
  rw [zone_resetBase]
  by_cases hz : z < d.lkm.zones.length
  · rw [if_pos hz]
    unfold resetZone
    rcases hl : (d.zone z).state.latched with _ | _
    · simp only [Bool.false_eq_true, if_false, and_true]
      by_cases h : d.rlp.features.clearTables = true ∧ bankProtected .leakZone z d = false
      · rw [if_pos h, if_neg fun hc => hk.mp hc h]
      · rw [if_neg h, if_pos (hk.mpr h)]
    · simp
  · rw [if_neg hz, zone_beyond (Nat.not_lt.mp hz)]
    simp

/-- LEAK follows the kept latches. -/
theorem leakHold_resetBase (d : Part) (f : Option Nat) : leakHold (resetBase d) f = leakHold d f := by
  cases f with
  | none => rfl
  | some z =>
    unfold leakHold
    simp only
    rcases hl : (d.zone z).state.latched with _ | _
    · have hs : (d.zone z).state ≠ .isolated := by
        intro h
        rw [h] at hl
        cases hl
      rw [(zone_resetBase_clear hl).1, beq_eq_false_iff_ne.mpr hs, Bool.and_false]
      exact Bool.and_false _
    · rw [zone_resetBase_latched hl]

theorem branch_resetBase (d : Part) (n : Nat) : (resetBase d).branch n =
    if d.rlp.features.clearTables = true ∧ bankProtected .branch n d = false then none
    else (d.branch n).map (resetBranch (resetBlocks d)) := entry_ruleTable _ _ _ _ n

theorem resetBranch_eq (d : Part) (y : Branch) : resetBranch (resetBlocks d) y =
    ⟨y.cfg, .unknown, ⟨false, false⟩, ⟨leakHold d y.cfg.zone, false, false, false⟩, none, false, none,
      .stopped, false, false⟩ := by
  have hl : leakHold (resetBlocks d) y.cfg.zone = leakHold d y.cfg.zone := leakHold_resetBase d y.cfg.zone
  have hs : shedHold (resetBlocks d) y.cfg.tier = false := by
    simp [shedHold, Sru.shed, resetBlocks, resetSru, Sru.powerOn]
  unfold resetBranch Branch.begin
  rw [hl, hs]

/-! ## UNKNOWN branches let a confirmation do nothing more -/

/-- Branches and hand-offs alone have changed, and every branch is UNKNOWN. -/
structure Dormant (d e : Part) : Prop where
  eq : e = { d with bcu.branches := e.bcu.branches, agenda := e.agenda }
  unknown : ∀ b x, e.branch b = some x → x.state = .unknown
  noted : Noted e

theorem Dormant.change {d e : Part} (h : Dormant d e) (b : Nat) (f : Branch → Branch)
    (hf : ∀ x, (f x).state = x.state) : Dormant d (changeBranch b f e) := by
  unfold changeBranch
  split
  · exact h
  · rename_i x hx
    have hu : (f x).state = .unknown := (hf x).trans (h.unknown b x hx)
    have stored : Dormant d (signalOnce .branches (putBranch b (f x) e)) := by
      have hn : Noted (signalOnce .branches (putBranch b (f x) e)) :=
        signalOnce_noted (.inr rfl) (h.noted.of_agenda rfl)
      have hb (n : Nat) : (signalOnce .branches (putBranch b (f x) e)).branch n =
          (putBranch b (f x) e).branch n := branch_of_bcu (by rw [signalOnce_bcu]) n
      refine ⟨?_, fun n y hy => ?_, hn⟩
      · unfold signalOnce putBranch
        rw [h.eq]
        split <;> rfl
      · rw [hb, branch_put hx] at hy
        split at hy
        · cases hy
          exact hu
        · exact h.unknown n y hy
    unfold applyOutput
    split
    · exact h
    · simp only [hu]
      split
      · exact stored
      · unfold queueIfWanted
        split
        · exact stored
        · rename_i y hy
          rw [if_neg fun hc => by rw [stored.unknown b y hy] at hc; cases hc.1]
          exact stored

theorem Dormant.deriveLeak {d : Part} (z : Nat) (hu : ∀ b x, d.branch b = some x → x.state = .unknown)
    (hn : Noted d) : Dormant d (deriveLeak z d) := by
  unfold Machine.deriveLeak forBranches
  have hstart : Dormant d d := ⟨rfl, hu, hn⟩
  generalize List.range 36 = l
  have step (l : List Nat) (e : Part) (h : Dormant d e) : Dormant d (l.foldl (fun e b => changeBranch b
      (fun x => if x.cfg.zone = some z then
        { x with holds := { x.holds with leak := leakHold e x.cfg.zone } } else x) e) e) := by
    induction l generalizing e with
    | nil => exact h
    | cons b rest ih => exact ih _ (h.change b _ fun x => by split <;> rfl)
  exact step l d hstart

theorem setCauses_idle {d : Part} {c : Causes} (h : d.sqe.run = .idle) :
    setCauses c d = { d with sqe.causes := c } := by
  unfold setCauses
  simp only [h, reduceCtorEq, false_and, if_false]

/-! ## The LEAK_IN line at a soft reset (R145, R152) -/

/-- The part as a confirmation of zone `z` by the line has posted its records, after a soft reset. -/
def confirmPosted (z : Nat) (c : ZoneCfg) (d : Part) : Part :=
  let d2 := post .leakConfirmed (some z) (some 256) (putZone z { d.zone z with
    state := if c.isolate then .isolated else .confirmed, acked := false } d)
  let d3 := if c.isolate then post .leakIsolated (some z) (some (zoneBranches z d).length) d2 else d2
  { d3 with sqe.causes := { d3.sqe.causes with leak := leakCause d3 } }

theorem confirmZone_idle {z : Nat} {c : ZoneCfg} {d : Part} (hr : d.sqe.run = .idle) :
    confirmZone z c byLine 0 d = deriveLeak z (confirmPosted z c d) := by
  have hrun (e : Part) (he : e.sqe = d.sqe) :
      handLatch (deriveLeak z) e =
        deriveLeak z { e with sqe.causes := { e.sqe.causes with leak := leakCause e } } := by
    have hu : e.sqe.underWay = false := by
      rw [he]
      unfold Sqe.underWay
      simp [hr]
    unfold handLatch
    rw [if_neg (by simp [hu]), examineLeakCause, setCauses_idle (by rw [he]; exact hr)]
  unfold confirmZone confirmPosted
  simp only
  rw [hrun]
  · rfl
  · rcases c.isolate with _ | _
    · exact (post_uplinked _ _ _ _).sqe
    · exact (post_uplinked _ _ _ _).sqe.trans (post_uplinked _ _ _ _).sqe

/-- The line finds no zone to confirm at a soft reset. -/
def lineSilent (d : Part) : Prop := ∀ z c, d.lines.leakIn = true → (resetSru d).profile.leakLineZone = some z →
  ((resetBase d).zone z).cfg = some c → (d.zone z).state.latched = true

/-- The examination of the line at a soft reset confirms a zone that is then CLEAR, or does nothing. -/
theorem examineLine_resetBase (d : Part) :
    (examineLine (resetBase d) = resetBase d ∧ lineSilent d) ∨ ∃ z c, d.lines.leakIn = true ∧
      (resetSru d).profile.leakLineZone = some z ∧ ((resetBase d).zone z).cfg = some c ∧
      (d.zone z).state.latched = false ∧
      examineLine (resetBase d) = deriveLeak z (confirmPosted z c (resetBase d)) := by
  rcases hl : d.lines.leakIn with _ | _
  · refine .inl ⟨examineLine_eq_self (.inl hl), fun z c h => ?_⟩
    rw [hl] at h
    cases h
  rcases hz : (resetSru d).profile.leakLineZone with _ | z
  · refine .inl ⟨examineLine_eq_self (.inr hz), fun z c _ h => ?_⟩
    rw [hz] at h
    cases h
  have hl' : (resetBase d).lines.leakIn = true := hl
  have hz' : (resetBase d).sru.profile.leakLineZone = some z := hz
  rcases hc : ((resetBase d).zone z).cfg with _ | c
  · refine .inl ⟨by simp only [examineLine, hl', hz', hc], fun n c _ hn h => ?_⟩
    rw [hz] at hn
    cases hn
    rw [hc] at h
    cases h
  rcases hlatch : (d.zone z).state.latched with _ | _
  · refine .inr ⟨z, c, rfl, rfl, hc, hlatch, ?_⟩
    simp only [examineLine, hl', hz', hc, (zone_resetBase_clear hlatch).1]
    exact confirmZone_idle rfl
  · have hs : ((resetBase d).zone z).state = (d.zone z).state := by rw [zone_resetBase_latched hlatch]
    refine .inl ⟨?_, fun n c _ hn _ => ?_⟩
    swap
    · rw [hz] at hn
      cases hn
      exact hlatch
    simp only [examineLine, hl', hz', hc, hs]
    cases hst : (d.zone z).state <;> rw [hst] at hlatch
    · cases hlatch
    · cases hlatch

/-- What the line's confirmation leaves of a soft reset: its two records alone have been posted. -/
theorem confirmPosted_resetBase (z : Nat) (c : ZoneCfg) (d : Part) : ∃ l causes,
    confirmPosted z c (resetBase d) = { resetBase d with
      lkm := { resetLkm d with zones := (resetLkm d).zones.set z { (resetBase d).zone z with
        state := if c.isolate then .isolated else .confirmed, acked := false } }
      rlp := { resetRlp d with
        tx := some (.event 0 ⟨.leakConfirmed, some z, some 256, 0⟩), eventTag := 1, events := l }
      sqe := { (resetBase d).sqe with causes := causes } } := by
  unfold confirmPosted
  rcases c.isolate with _ | _
  · exact ⟨_, _, rfl⟩
  · exact ⟨_, _, rfl⟩

/-- What stands after a soft reset before the hand-offs are taken away, whether the line has confirmed a zone or
not. -/
structure ResetLeft (d e : Part) : Prop where
  slc : e.slc = resetSlc d
  tlf : e.tlf = resetTlf d
  sru : e.sru = resetSru d
  prot : e.prot = d.prot
  points : e.lkm.points = (resetLkm d).points
  steps : e.sqe.steps = ruleTable d .sequence d.sqe.steps
  rlp : ∃ l m n, e.rlp = { resetRlp d with events := l, tx := m, eventTag := n }
  cfgs : e.bcu.branches.map (Option.map Branch.cfg) = (resetBase d).bcu.branches.map (Option.map Branch.cfg)
  zoneCfgs : ∀ z, (e.zone z).cfg = ((resetBase d).zone z).cfg
  latched : ∀ z, (d.zone z).state.latched = true → e.zone z = (resetBase d).zone z

/-- The line confirms zone `z`. -/
structure LineConfirms (d e : Part) (z : Nat) (c : ZoneCfg) : Prop where
  line : d.lines.leakIn = true
  named : (resetSru d).profile.leakLineZone = some z
  clear : (d.zone z).state.latched = false
  zone : e.zone z = { (resetBase d).zone z with state := if c.isolate then .isolated else .confirmed, acked := false }
  posted : e.holdsEvent ⟨.leakConfirmed, some z, some 256, 0⟩

theorem resetBase_left (d : Part) : ResetLeft d (resetBase d) :=
  ⟨rfl, rfl, rfl, rfl, rfl, rfl, ⟨_, _, _, rfl⟩, rfl, fun _ => rfl, fun _ _ => rfl⟩

theorem unknown_resetBase (d : Part) (b : Nat) (x : Branch) (h : (resetBase d).branch b = some x) :
    x.state = .unknown := by
  rw [branch_resetBase] at h
  split at h
  · cases h
  · obtain ⟨y, -, rfl⟩ := Option.map_eq_some_iff.mp h
    rfl

/-- How a soft reset ends. -/
theorem complete_softReset_left (d : Part) : ∃ e, complete (softReset d) = refreshLines (quieten e) ∧
    ResetLeft d e ∧ ((e = resetBase d ∧ lineSilent d) ∨ ∃ z c, ((resetBase d).zone z).cfg = some c ∧ LineConfirms d e z c) := by
  rw [complete_softReset]
  rcases examineLine_resetBase d with ⟨h, hsilent⟩ | ⟨z, c, hline, hz, hc, hlatch, h⟩
  · refine ⟨resetBase d, ?_, resetBase_left d, .inl ⟨rfl, hsilent⟩⟩
    rw [h, settleAll_nil _ rfl]
  · obtain ⟨l, causes, hposted⟩ := confirmPosted_resetBase z c d
    have hdorm : Dormant (confirmPosted z c (resetBase d)) (deriveLeak z (confirmPosted z c (resetBase d))) := by
      refine .deriveLeak z (fun b x hx => unknown_resetBase d b x ?_) (noted_of_nil ?_)
      · rw [hposted] at hx
        exact hx
      · rw [hposted]
        rfl
    have hcfgs : (deriveLeak z (confirmPosted z c (resetBase d))).bcu.branches.map (Option.map Branch.cfg) =
        (resetBase d).bcu.branches.map (Option.map Branch.cfg) := by
      rw [(deriveLeak_leaked z _).cfgs, hposted]
    rw [h]
    generalize deriveLeak z (confirmPosted z c (resetBase d)) = e at hdorm hcfgs
    have heq := hdorm.eq
    rw [hposted] at heq
    have hstill : stilled e := by
      rw [heq]
      exact ⟨(by simp : RunState.idle ≠ .running), .inl (by simp : SourceState.unknown ≠ .onAc)⟩
    have hzlt : z < (resetBase d).lkm.zones.length := lt_of_zone_cfg hc
    have hzones : e.lkm.zones = (putZone z { (resetBase d).zone z with
        state := if c.isolate then .isolated else .confirmed, acked := false } (resetBase d)).lkm.zones := by
      rw [heq]
      rfl
    have hzone := zone_of_zones hzones
    have hother (n : Nat) (hn : n ≠ z) : e.zone n = (resetBase d).zone n := by
      rw [hzone, zone_putZone _ _ _ _ hn]
    have hsame := (hzone z).trans (zone_putZone_same z _ _ hzlt)
    refine ⟨e, ?_, ⟨?_, ?_, ?_, ?_, ?_, ?_, ?_, hcfgs, fun n => ?_, fun n hn => ?_⟩,
      .inr ⟨z, c, hc, hline, hz, hlatch, hsame, ?_⟩⟩
    · rw [settleAll_stilled hstill hdorm.noted]
      rfl
    · rw [heq]; rfl
    · rw [heq]; rfl
    · rw [heq]; rfl
    · rw [heq]; rfl
    · rw [heq]
    · rw [heq]; rfl
    · rw [heq]; exact ⟨_, _, _, rfl⟩
    · by_cases hn : n = z
      · rw [hn, hsame]
      · rw [hother n hn]
    · refine hother n fun he => ?_
      rw [he, hlatch] at hn
      cases hn
    · rw [heq]
      exact .inl ⟨0, rfl⟩

/-- An entry of a table of which each entry is made. -/
theorem entry_map_some {α β : Type} {l : List (Option α)} {k : Nat} {x : α} (f : Option α → Option β)
    (h : entry l k = some x) : entry (l.map f) k = f (some x) := by
  unfold entry at h ⊢
  rw [List.getElem?_map]
  rcases hl : l[k]? with _ | e <;> rw [hl] at h
  · cases h
  · cases h
    rfl

/-- Settles O4: the blocks as the reset leaves them, with the zone that the line confirms. -/
theorem softResetValues : Obligations.SoftResetValues := by
  unfold Obligations.SoftResetValues
  intro s hr
  obtain ⟨e, hend, hleft, hcase⟩ := complete_softReset_left s.part
  obtain ⟨hslc, htlf, hsru, hprot, hpoints, hsteps, ⟨l, m, tag, hrlp⟩, hcfgs, hzcfg, hlatched⟩ := hleft
  generalize hd : s.part = d at *
  have hexec : exec .softReset s = .next { s with part := refreshLines (quieten e) } := by
    have h : exec .softReset s = act softReset s := rfl
    rw [h, act_running _ _ (by rw [hd]; exact hr), hd, hend]
  refine ⟨_, hexec, rfl, fun n => ?_, ?_, fun n => ?_, fun n => ?_, fun n => ?_, fun n => ?_, fun n => ?_, fun n => ?_,
    fun z => ?_, ?_, ?_, ?_, ?_, fun z hz => ?_, ?_, ?_, ?_, fun k x hx => ?_, fun hline => ?_, fun hline z c hz hc hclear => ?_⟩
  · refine (congrArg (fun u : Slc => entry u.written n) hslc).trans (entry_ruleTable_id _ _ _ _)
  · show e.slc.active = e.slc.written
    rw [hslc]
    rfl
  · exact (congrArg (fun u : Tlf => entry u.limits n) htlf).trans (entry_ruleTable_id _ _ _ _)
  · exact (congrArg (fun u : Sru => entry u.rects n) hsru).trans (entry_ruleTable _ _ _ _ _)
  · exact (congrArg (fun u : Sru => entry u.batts n) hsru).trans (entry_ruleTable _ _ _ _ _)
  · have hb : (e.branch n).map Branch.cfg = ((resetBase d).branch n).map Branch.cfg := entry_map_map hcfgs n
    refine hb.trans ?_
    rw [branch_resetBase]
    split
    · rfl
    · rw [Option.map_map]
      rfl
  · exact (congrArg (entry · n) hsteps).trans (entry_ruleTable_id _ _ _ _)
  · refine (congrArg (fun u => (entry u n).map Point.cfg) hpoints).trans ?_
    refine (congrArg (Option.map Point.cfg) (entry_ruleTable d .leakPoint d.lkm.points
      (fun p => { p with state := .unseen, count := 0 }) n)).trans ?_
    split
    · rfl
    · rw [Option.map_map]
      rfl
  · exact (hzcfg z).trans (zone_resetBase_cfg d z)
  · refine (congrArg Sru.profile hsru).trans ?_
    have hk := keptByRule_iff d .profile 0
    show ruleProfile d = _
    unfold ruleProfile
    split
    · rw [if_neg (hk.mp ‹_›)]
    · rename_i h
      rw [if_pos (not_not.mp fun hc => h (hk.mpr hc))]
  · show e.slc.cycle = 0 ∧ e.slc.nodes = _ ∧ e.slc.checkErrors = 0 ∧ e.slc.misplaced = 0 ∧ e.slc.retries = 0 ∧
      e.slc.noAcks = 0 ∧ e.slc.sending = [] ∧ e.slc.satisfied = []
    rw [hslc]
    exact ⟨rfl, rfl, rfl, rfl, rfl, rfl, rfl, rfl⟩
  · show e.tlf.drops = 0 ∧ e.tlf.queue = [] ∧ e.rlp.requests = [] ∧ e.rlp.responses = [] ∧ e.rlp.phase = .fresh ∧
      e.rlp.detail = none ∧ e.rlp.rxDiscards = 0 ∧ e.rlp.eventOverflow = 0 ∧ e.rlp.batchTag = 0 ∧
      e.rlp.side = .rsp ∧ e.rlp.run = 0
    rw [htlf, hrlp]
    exact ⟨rfl, rfl, rfl, rfl, rfl, rfl, rfl, rfl, rfl, rfl, rfl⟩
  · have hsru' : (refreshLines (quieten e)).sru = resetSru d := hsru
    simp only [hsru']
    exact ⟨rfl, rfl, rfl, rfl, rfl, rfl, rfl, rfl, rfl, rfl, rfl, rfl, rfl, rfl, rfl, rfl, rfl, rfl, rfl, rfl, rfl⟩
  · have hzone : (refreshLines (quieten e)).zone z = { d.zone z with degraded := false } :=
      (hlatched z hz).trans (zone_resetBase_latched hz)
    simp only [hzone, and_self]
  · show e.rlp.features = d.rlp.features
    rw [hrlp]
    rfl
  · exact hprot
  · show alertLevel (quieten e) = true
    unfold alertLevel
    rw [show (quieten e).sru = resetSru d from hsru]
    simp [resetSru, Sru.powerOn]
  · have hout : (refreshLines (quieten e)).slc = resetSlc d := hslc
    have hch : (refreshLines (quieten e)).tlf = resetTlf d := htlf
    simp only [hout, hch] at hx ⊢
    have hentry {β : Type} (f : Option SlotEntry → Option β) : entry ((resetSlc d).active.map f) k = f (some x) :=
      entry_map_some f hx
    cases x with
    | input node kind limit => exact hentry channelBegin
    | output node => exact hentry outBegin
  · rcases hcase with ⟨rfl, -⟩ | ⟨z, c, -, hconf⟩
    · refine ⟨fun n x hx => ?_, rfl, rfl, rfl, rfl, fun n p hp => ?_, fun z _ => ⟨zone_resetBase_degraded d z, fun hz => zone_resetBase_clear hz⟩, rfl, rfl, rfl⟩
      · have hb := branch_resetBase d n
        rw [show (resetBase d).branch n = some x from hx] at hb
        split at hb
        · cases hb
        · obtain ⟨y, hy, hxy⟩ := Option.map_eq_some_iff.mp hb.symm
          exact ⟨y, hy, hxy.symm.trans (resetBranch_eq d y)⟩
      · have hb := entry_ruleTable d .leakPoint d.lkm.points (fun p => { p with state := .unseen, count := 0 }) n
        replace hb := (show entry _ n = some p from hp).symm.trans hb
        split at hb
        · cases hb
        · obtain ⟨y, -, rfl⟩ := Option.map_eq_some_iff.mp hb.symm
          exact ⟨rfl, rfl⟩
    · exfalso
      rcases hline with h | h
      · rw [hconf.line] at h
        cases h
      · have hp : (resetSru d).profile.leakLineZone = none := by rw [← hsru]; exact h
        rw [hconf.named] at hp
        cases hp
  · have hp : (resetSru d).profile.leakLineZone = some z := by rw [← hsru]; exact hz
    have hbase : ((resetBase d).zone z).cfg = some c := (hzcfg z).symm.trans hc
    rcases hcase with ⟨-, hsilent⟩ | ⟨z', c', hc', hconf⟩
    · have := hsilent z c hline hp hbase
      rw [hclear] at this
      cases this
    · obtain rfl : z' = z := by
        rw [hconf.named] at hp
        exact Option.some.inj hp
      obtain rfl : c' = c := by
        rw [hc'] at hbase
        exact Option.some.inj hbase
      have hzone : (refreshLines (quieten e)).zone z' = _ := hconf.zone
      rw [hzone]
      exact ⟨rfl, rfl, hconf.posted⟩

end Sys2Proof.Machine

/-! PROOFS. The examination of a leak zone (R142, R143): what it makes of the zone, and the records it posts. -/

namespace Sys2Proof.Machine

-- One proof after another: proofs that are checked side by side take a thread each.
set_option Elab.async false

theorem post_events (k : EventKind) (s v : Option Nat) (d : Part) :
    (post k s v d).rlp.events.length ≤ d.rlp.events.length + 1 := by
  unfold post
  split
  · refine (arbitrate_events _).trans ?_
    simp
  · exact Nat.le_add_right _ 1

/-! ## The zones -/

theorem zones_set_same {d : Part} {z : Nat} (hz : z < d.lkm.zones.length) :
    d.lkm.zones.set z (d.zone z) = d.lkm.zones := by
  have h : d.zone z = d.lkm.zones[z] := by simp [Part.zone, hz]
  rw [h, List.set_getElem_self]

/-- The zone as `noteDegraded` leaves it. -/
def degradedZone (z : Nat) (d : Part) : Zone := { d.zone z with degraded := decide (0 < faultCount z d) }

theorem noteDegraded_zones {d : Part} {z : Nat} (hz : z < d.lkm.zones.length) :
    (noteDegraded z d).lkm.zones = d.lkm.zones.set z (degradedZone z d) := by
  unfold noteDegraded degradedZone
  simp only
  split
  · rename_i h
    rw [← h, zones_set_same hz]
  · rw [(post_uplinked _ _ _ _).lkm]
    rfl

theorem noteDegraded_points (z : Nat) (d : Part) : (noteDegraded z d).lkm.points = d.lkm.points := by
  unfold noteDegraded
  simp only
  split
  · rfl
  · rw [(post_uplinked _ _ _ _).lkm]
    rfl

theorem examineLeakCause_lkm (d : Part) : (examineLeakCause d).lkm = d.lkm := (examineLeakCause_settled d).lkm

/-- The hand-off of a latch leaves the points and the zones. -/
theorem handLatch_stands {f : Part → Part} (hf : ∀ d, (f d).lkm = d.lkm) (d : Part) :
    (handLatch f d).lkm.zones = d.lkm.zones ∧ (handLatch f d).lkm.points = d.lkm.points := by
  unfold handLatch
  split
  · simp only
    split
    · rw [show ∀ e, (signal .leak e).lkm = e.lkm from fun _ => rfl, hf]
      exact ⟨rfl, rfl⟩
    · rw [hf, examineLeakCause_lkm]
      exact ⟨rfl, rfl⟩
  · rw [hf, examineLeakCause_lkm]
    exact ⟨rfl, rfl⟩

/-- The part as a confirmation has posted its records. -/
def confirmRecords (z : Nat) (c : ZoneCfg) (k n : Nat) (d : Part) : Part :=
  let d2 := post .leakConfirmed (some z) (some (k * 256 + n)) (putZone z { d.zone z with
    state := if c.isolate then .isolated else .confirmed, acked := false } d)
  if c.isolate then post .leakIsolated (some z) (some (zoneBranches z d).length) d2 else d2

theorem confirmZone_eq (z : Nat) (c : ZoneCfg) (k n : Nat) (d : Part) :
    confirmZone z c k n d = handLatch (deriveLeak z) (confirmRecords z c k n d) := rfl

theorem confirmRecords_lkm (z : Nat) (c : ZoneCfg) (k n : Nat) (d : Part) :
    (confirmRecords z c k n d).lkm = { d.lkm with zones := d.lkm.zones.set z { d.zone z with
      state := if c.isolate then .isolated else .confirmed, acked := false } } := by
  unfold confirmRecords
  simp only
  split
  · rw [(post_uplinked _ _ _ _).lkm, (post_uplinked _ _ _ _).lkm]
    rfl
  · rw [(post_uplinked _ _ _ _).lkm]
    rfl

theorem confirmZone_zones (z : Nat) (c : ZoneCfg) (k n : Nat) (d : Part) :
    (confirmZone z c k n d).lkm.zones = d.lkm.zones.set z { d.zone z with
      state := if c.isolate then .isolated else .confirmed, acked := false } ∧
    (confirmZone z c k n d).lkm.points = d.lkm.points := by
  rw [confirmZone_eq]
  have h := handLatch_stands (fun e => (deriveLeak_kept z e).lkm) (confirmRecords z c k n d)
  rw [h.1, h.2, confirmRecords_lkm]
  exact ⟨rfl, rfl⟩

/-! ## The examination, state by state -/

/-- The zone is confirmed by its points (R142, R143). -/
def confirms (z : Nat) (c : ZoneCfg) (d : Part) : Prop := 0 < (zonePoints z d).length ∧
  effectiveVote c.vote (zonePoints z d).length (faultCount z d) ≤ wetCount z d

section
variable {d : Part} {z : Nat} {c : ZoneCfg} (hc : (d.zone z).cfg = some c)
include hc

theorem examineZone_latched (hs : (d.zone z).state = .confirmed ∨ (d.zone z).state = .isolated) :
    examineZone z d = noteDegraded z d := by
  rcases hs with hs | hs <;> simp only [examineZone, hc, hs]

theorem examineZone_confirms (hs : (d.zone z).state = .clear ∨ (d.zone z).state = .alert)
    (h : confirms z c d) : examineZone z d = confirmZone z c byPoints (wetCount z d) (noteDegraded z d) := by
  have h' : 0 < (zonePoints z d).length ∧
    effectiveVote c.vote (zonePoints z d).length (faultCount z d) ≤ wetCount z d := h
  rcases hs with hs | hs <;> simp only [examineZone, hc, hs, h', and_self, if_true]

theorem examineZone_alerts (hs : (d.zone z).state = .clear) (h : ¬ confirms z c d) (hw : 1 ≤ wetCount z d) :
    examineZone z d = post .leakAlert (some z) (some (wetCount z d))
      (putZone z { (noteDegraded z d).zone z with state := .alert } (noteDegraded z d)) := by
  have h' : ¬ (0 < (zonePoints z d).length ∧
    effectiveVote c.vote (zonePoints z d).length (faultCount z d) ≤ wetCount z d) := h
  simp only [examineZone, hc, hs, if_neg h', if_pos hw]

theorem examineZone_clear (hs : (d.zone z).state = .clear) (h : ¬ confirms z c d) (hw : wetCount z d = 0) :
    examineZone z d = noteDegraded z d := by
  have h' : ¬ (0 < (zonePoints z d).length ∧
    effectiveVote c.vote (zonePoints z d).length (faultCount z d) ≤ wetCount z d) := h
  have hw' : ¬ 1 ≤ wetCount z d := by omega
  simp only [examineZone, hc, hs, if_neg h', if_neg hw']

theorem examineZone_dries (hs : (d.zone z).state = .alert) (h : ¬ confirms z c d) (hw : wetCount z d = 0) :
    examineZone z d = examineLeakCause
      (putZone z { (noteDegraded z d).zone z with state := .clear } (noteDegraded z d)) := by
  have h' : ¬ (0 < (zonePoints z d).length ∧
    effectiveVote c.vote (zonePoints z d).length (faultCount z d) ≤ wetCount z d) := h
  simp only [examineZone, hc, hs, if_neg h', if_pos hw]

theorem examineZone_alert (hs : (d.zone z).state = .alert) (h : ¬ confirms z c d) (hw : 1 ≤ wetCount z d) :
    examineZone z d = noteDegraded z d := by
  have h' : ¬ (0 < (zonePoints z d).length ∧
    effectiveVote c.vote (zonePoints z d).length (faultCount z d) ≤ wetCount z d) := h
  have hw' : ¬ wetCount z d = 0 := by omega
  simp only [examineZone, hc, hs, if_neg h', if_neg hw']

end

/-! ## The zones after an examination -/

section
variable {d : Part} {z : Nat} {c : ZoneCfg} (hz : z < d.lkm.zones.length) (hc : (d.zone z).cfg = some c)
include hz

theorem noteDegraded_zone_same : (noteDegraded z d).zone z = degradedZone z d := by
  unfold Part.zone
  rw [noteDegraded_zones hz]
  simp [hz]

theorem putZone_noteDegraded (x : Zone) :
    (putZone z x (noteDegraded z d)).lkm.zones = d.lkm.zones.set z x := by
  simp [putZone, noteDegraded_zones hz]

theorem confirmZone_noteDegraded (k n : Nat) :
    (confirmZone z c k n (noteDegraded z d)).lkm.zones = d.lkm.zones.set z { degradedZone z d with
      state := if c.isolate then .isolated else .confirmed, acked := false } := by
  rw [(confirmZone_zones z c k n _).1, noteDegraded_zones hz, noteDegraded_zone_same hz, List.set_set]

include hc

omit hz in
/-- The examined zone with a state and an acked flag. -/
theorem degradedZone_with (s : ZoneState) (a : Bool) : { degradedZone z d with state := s, acked := a } =
    (⟨some c, s, a, decide (0 < faultCount z d)⟩ : Zone) := by
  simp [degradedZone, hc]

omit hz in
theorem examineZone_points : (examineZone z d).lkm.points = d.lkm.points := by
  have hn := noteDegraded_points z d
  unfold examineZone
  rw [hc]
  simp only
  have hput (x : Zone) : (putZone z x (noteDegraded z d)).lkm.points = d.lkm.points := hn
  split
  · split
    · exact (confirmZone_zones _ _ _ _ _).2.trans hn
    · split
      · rw [(post_uplinked _ _ _ _).lkm]
        exact hput _
      · exact hn
  · split
    · exact (confirmZone_zones _ _ _ _ _).2.trans hn
    · split
      · rw [examineLeakCause_lkm]
        exact hput _
      · exact hn
  · exact hn

end

/-! ## The records -/

theorem noteDegraded_events (z : Nat) (d : Part) :
    (noteDegraded z d).rlp.events.length ≤ d.rlp.events.length + 1 := by
  unfold noteDegraded
  simp only
  split
  · exact Nat.le_add_right _ 1
  · exact post_events _ _ _ _

theorem noteDegraded_posts {d : Part} {z : Nat} (h : (d.zone z).degraded ≠ decide (0 < faultCount z d))
    (hr : d.rlp.events.length < 64) :
    (noteDegraded z d).holdsEvent ⟨.zoneDegraded, some z, some (faultCount z d), d.slc.cycle⟩ := by
  simp only [noteDegraded, if_neg h]
  exact post_holds _ _ _ (putZone z _ d) hr

theorem confirmZone_posts (z : Nat) (c : ZoneCfg) (k n : Nat) (d : Part) (hr : d.rlp.events.length + 2 ≤ 64) :
    (confirmZone z c k n d).holdsEvent ⟨.leakConfirmed, some z, some (k * 256 + n), d.slc.cycle⟩ ∧
    (c.isolate = true → (confirmZone z c k n d).holdsEvent
      ⟨.leakIsolated, some z, some (zoneBranches z d).length, d.slc.cycle⟩) := by
  rw [confirmZone_eq]
  have hholds := (handLatch_leaked _ (deriveLeak_leaked z) (confirmRecords z c k n d)).holds
  have hfirst := post_holds .leakConfirmed (some z) (some (k * 256 + n)) (putZone z { d.zone z with
    state := if c.isolate then .isolated else .confirmed, acked := false } d) (by exact (by omega : d.rlp.events.length < 64))
  have hroom := post_events .leakConfirmed (some z) (some (k * 256 + n)) (putZone z { d.zone z with
    state := if c.isolate then .isolated else .confirmed, acked := false } d)
  have hcycle := (post_uplinked .leakConfirmed (some z) (some (k * 256 + n)) (putZone z { d.zone z with
    state := if c.isolate then .isolated else .confirmed, acked := false } d)).slc
  unfold confirmRecords at hholds ⊢
  simp only at hholds ⊢
  generalize post .leakConfirmed (some z) (some (k * 256 + n)) _ = e at *
  refine ⟨hholds _ ?_, fun hi => hholds _ ?_⟩
  · split
    · exact (post_settled _ _ _ _).holds _ hfirst
    · exact hfirst
  · rw [if_pos hi]
    have hsecond := post_holds .leakIsolated (some z) (some (zoneBranches z d).length) e
      (lt_of_le_of_lt hroom (by exact (by omega : d.rlp.events.length + 1 < 64)))
    rw [hcycle] at hsecond
    exact hsecond

/-- An examination keeps what `noteDegraded` posts. -/
theorem examineZone_holds {d : Part} {z : Nat} {c : ZoneCfg} (hc : (d.zone z).cfg = some c) {e : EventRecord}
    (h : (noteDegraded z d).holdsEvent e) : (examineZone z d).holdsEvent e := by
  have hput (x : Zone) : (putZone z x (noteDegraded z d)).holdsEvent e := h
  unfold examineZone
  rw [hc]
  simp only
  split
  · split
    · exact (confirmZone_leaked _ _ _ _ _).holds _ h
    · split
      · exact (post_settled _ _ _ _).holds _ (hput _)
      · exact h
  · split
    · exact (confirmZone_leaked _ _ _ _ _).holds _ h
    · split
      · exact (examineLeakCause_leaked _).holds _ (hput _)
      · exact h
  · exact h

theorem noteDegraded_bcu (z : Nat) (d : Part) : (noteDegraded z d).bcu = d.bcu := by
  unfold noteDegraded
  simp only
  split
  · rfl
  · rw [(post_uplinked _ _ _ _).bcu]
    rfl

/-- Settles O36: the zone by its state and its vote, the records where the queue has room. -/
theorem zoneExamination : Obligations.ZoneExamination := by
  unfold Obligations.ZoneExamination
  intro d z c hz hc
  have same {e : Part} (a : ZoneState) (h : e.lkm.zones = d.lkm.zones.set z { degradedZone z d with state := a }) :
      e.lkm.zones = d.lkm.zones.set z ⟨some c, a, (d.zone z).acked, decide (0 < faultCount z d)⟩ :=
    h.trans (congrArg _ (degradedZone_with hc a (d.zone z).acked))
  have still (a : ZoneState) (hs : (d.zone z).state = a) :
      (noteDegraded z d).lkm.zones =
        d.lkm.zones.set z ⟨some c, a, (d.zone z).acked, decide (0 < faultCount z d)⟩ :=
    same a ((noteDegraded_zones hz).trans (by rw [← hs]; rfl))
  refine ⟨examineZone_points hc, fun hs => ?_, fun hs h => ?_, fun hs h hw => ?_, fun hs h hw => ?_, fun hs h hw => ?_,
    fun hs h hw => ?_, fun hr => ⟨fun hd => ?_, fun hs h hw => ?_, fun hs h => ?_⟩⟩
  · rw [examineZone_latched hc hs]
    exact still _ rfl
  · rw [examineZone_confirms hc hs h, confirmZone_noteDegraded hz]
    exact congrArg _ (degradedZone_with hc _ false)
  · rw [examineZone_alerts hc hs h hw]
    refine same .alert ?_
    rw [(post_uplinked _ _ _ _).lkm, putZone_noteDegraded hz, noteDegraded_zone_same hz]
  · rw [examineZone_clear hc hs h hw]
    exact still _ hs
  · rw [examineZone_dries hc hs h hw]
    refine same .clear ?_
    rw [examineLeakCause_lkm, putZone_noteDegraded hz, noteDegraded_zone_same hz]
  · rw [examineZone_alert hc hs h hw]
    exact still _ hs
  · exact examineZone_holds hc (noteDegraded_posts hd (by omega))
  · rw [examineZone_alerts hc hs h hw]
    have hn := noteDegraded_events z d
    have hcycle := (noteDegraded_leaked z d).cycle
    rw [← hcycle]
    exact post_holds _ _ _ (putZone z _ (noteDegraded z d)) (by exact (by omega : (noteDegraded z d).rlp.events.length < 64))
  · rw [examineZone_confirms hc hs h]
    have hn := noteDegraded_events z d
    have hcycle := (noteDegraded_leaked z d).cycle
    have hposts := confirmZone_posts z c byPoints (wetCount z d) (noteDegraded z d) (by omega)
    have hbranches : zoneBranches z (noteDegraded z d) = zoneBranches z d := by
      unfold zoneBranches branchesWith Part.branch
      rw [noteDegraded_bcu]
    rw [hcycle, hbranches, show byPoints * 256 + wetCount z d = wetCount z d from by simp [byPoints]] at hposts
    exact hposts

end Sys2Proof.Machine

/-! PROOFS. The LEAK_IN line, LEAK ACK and LEAK CLEAR (R144 to R150), and the run record where no run is under way. -/

namespace Sys2Proof.Machine

-- One proof after another: proofs that are checked side by side take a thread each.
set_option Elab.async false

/-! ## The run record where no run is under way -/

/-- An operation of the BCU leaves the run record where no run is under way. -/
def Parked (d d' : Part) : Prop := d.sqe.underWay = false → d'.sqe = d.sqe

theorem parked_built : Built Parked where
  trans h g hu := by
    have hb := h hu
    exact (g (by rw [hb]; exact hu)).trans hb
  still h _ := h.sqe
  post k s v d _ := (post_uplinked k s v d).sqe
  putBranch _ _ _ _ := rfl
  emptied _ _ _ := rfl
  bcu _ _ _ _ := rfl
  noteFaulted b x d hu := by
    unfold noteFaulted
    split
    · rw [if_neg fun h => by rw [hu] at h; cases h.1]
    · rfl

theorem attempt_noted {d : Part} (h : Noted d) : Noted (attempt d) := by
  unfold attempt
  split
  · exact h
  · rename_i b _ _
    split
    · split
      · exact h
      · split
        · rw [admitHead_eq]
          exact (Touches.stageBranch (b := b) _ _).noted (admitPrelude_noted h)
        · exact h
    · exact h

theorem not_running_of_parked {d : Part} (h : d.sqe.underWay = false) : d.sqe.run ≠ .running := by
  intro hr
  unfold Sqe.underWay at h
  simp [hr] at h

/-- Where no run is under way, neither an attempt nor an examination that is due moves the run record. -/
theorem settle_parked (n : Nat) {d : Part} (hu : d.sqe.underWay = false) (hn : Noted d) :
    (settle n d).sqe = d.sqe ∧ Noted (settle n d) := by
  induction n generalizing d with
  | zero => exact ⟨rfl, hn⟩
  | succ n ih =>
    unfold settle
    rcases hd : d.agenda with _ | ⟨s, rest⟩
    · exact ⟨rfl, hn⟩
    · have hrest : Noted { d with agenda := rest } := by
        obtain ⟨hnd, ha⟩ := hn
        rw [hd] at hnd ha
        exact ⟨(List.nodup_cons.mp hnd).2, fun x hx => ha x (List.mem_cons_of_mem _ hx)⟩
      simp only
      rcases hn.2 s (by simp [hd]) with rfl | rfl
      · have hsqe : (attempt { d with agenda := rest }).sqe = d.sqe := parked_built.attempt _ hu
        obtain ⟨h, hn'⟩ := ih (d := handle .attempt { d with agenda := rest }) (by rw [← hu]; exact congrArg _ hsqe)
          (attempt_noted hrest)
        exact ⟨h.trans hsqe, hn'⟩
      · rw [show handle .branches { d with agenda := rest } = { d with agenda := rest } from
          examine_eq_self (not_running_of_parked (d := { d with agenda := rest }) hu)]
        exact ih (by exact hu) hrest

theorem settleAll_parked {d : Part} (hu : d.sqe.underWay = false) (hn : Noted d) :
    (settleAll d).sqe = d.sqe ∧ Noted (settleAll d) :=
  settle_parked _ hu hn

/-- The hand-offs and the answer of a request leave the run record where no run is under way. -/
theorem answeredAfter_parked {a : Answer} {q : Queued} {d : Part} (hu : d.sqe.underWay = false) (hn : Noted d) :
    (answeredAfter a q d).sqe = d.sqe := by
  obtain ⟨h1, hn1⟩ := settleAll_parked hu hn
  have hr := appendResponse_uplinked (.response (a.response q.tag))
    { settleAll d with rlp.requests := [], rlp.phase := .fresh, rlp.detail := detailAfter a q }
  obtain ⟨h2, -⟩ := settleAll_parked (d := appendResponse (.response (a.response q.tag))
    { settleAll d with rlp.requests := [], rlp.phase := .fresh, rlp.detail := detailAfter a q })
    (by rw [hr.sqe]; exact (congrArg Sqe.underWay h1).trans hu) (hn1.of_agenda hr.agenda)
  exact h2.trans (hr.sqe.trans h1)

/-- No run is under way outside RUNNING and SUSPENDED. -/
theorem parked_of {d : Part} (hr : d.sqe.run ≠ .running) (hs : d.sqe.run ≠ .suspended) :
    d.sqe.underWay = false := by
  unfold Sqe.underWay
  simp [hr, hs]

theorem setCauses_parked {d : Part} {c : Causes} (h : d.sqe.underWay = false) :
    setCauses c d = { d with sqe.causes := c } := by
  unfold Sqe.underWay at h
  have hr : d.sqe.run ≠ .running := fun hr => by simp [hr] at h
  have hs : d.sqe.run ≠ .suspended := fun hs => by simp [hs] at h
  unfold setCauses
  simp only [hr, hs, false_and, if_false]

/-! ## LEAK on the branches of a confirmed zone -/

/-- A branch's view with LEAK as the zone's latch says. -/
def leakedView (z : Nat) (v : Bool) (w : BranchCfg × Holds × Bool × Option Nat × Bool) :
    BranchCfg × Holds × Bool × Option Nat × Bool :=
  (w.1, if w.1.zone = some z then { w.2.1 with leak := v } else w.2.1, w.2.2)

theorem deriveLeak_branch (z : Nat) (d : Part) {n : Nat} (hn : n < 36) :
    ((deriveLeak z d).branch n).map Branch.settledView =
      (d.branch n).map fun x => leakedView z (leakHold d (some z)) x.settledView := by
  refine forBranches_view id
    (fun e x => if x.cfg.zone = some z then
      { x with holds := { x.holds with leak := leakHold e x.cfg.zone } } else x)
    (leakedView z (leakHold d (some z))) d (fun _ x => ?_) (fun e x hk => ?_) hn
  · split <;> rfl
  · have hl : leakHold e (some z) = leakHold d (some z) := leakHold_of_zones (congrArg Lkm.zones hk.lkm) _
    by_cases h : x.cfg.zone = some z <;> simp [leakedView, Branch.settledView, h, hl]

/-- The view of a branch after a latch has been handed on. -/
theorem handLatch_branch {f : Part → Part} {φ : BranchCfg × Holds × Bool × Option Nat × Bool →
      BranchCfg × Holds × Bool × Option Nat × Bool} {d : Part} {n : Nat}
    (hf : ∀ e, e.lkm.zones = d.lkm.zones → ((f e).branch n).map Branch.settledView =
      (e.branch n).map fun x => φ x.settledView) :
    ((handLatch f d).branch n).map Branch.settledView = (d.branch n).map fun x => φ x.settledView := by
  have after (e : Part) (he : e.lkm.zones = d.lkm.zones)
      (hb : (e.branch n).map Branch.settledView = (d.branch n).map Branch.settledView) :
      ((f e).branch n).map Branch.settledView = (d.branch n).map fun x => φ x.settledView := by
    have h := congrArg (Option.map φ) hb
    rw [Option.map_map, Option.map_map] at h
    exact (hf e he).trans h
  have caused (e : Part) (he : e.lkm.zones = d.lkm.zones)
      (hb : (e.branch n).map Branch.settledView = (d.branch n).map Branch.settledView) :=
    after (examineLeakCause e) ((congrArg Lkm.zones (examineLeakCause_lkm e)).trans he)
      (((examineLeakCause_settled e).branch_view n).trans hb)
  unfold handLatch
  split
  · simp only
    split
    · exact after _ rfl rfl
    · exact caused _ rfl rfl
  · exact caused _ rfl rfl

/-- Where no run is under way, the BCU and the SQE are handed a latch one after the other. -/
theorem handLatch_parked {f : Part → Part} {d : Part} (h : d.sqe.underWay = false) :
    handLatch f d = f { d with sqe.causes := { d.sqe.causes with leak := leakCause d } } := by
  unfold handLatch
  rw [if_neg (by simp [h]), examineLeakCause, setCauses_parked h]

theorem confirmRecords_uplinked (z : Nat) (c : ZoneCfg) (k n : Nat) (d : Part) :
    Uplinked (putZone z { d.zone z with state := if c.isolate then .isolated else .confirmed, acked := false } d)
      (confirmRecords z c k n d) := by
  unfold confirmRecords
  simp only
  split
  · exact (post_uplinked _ _ _ _).trans (post_uplinked _ _ _ _)
  · exact post_uplinked _ _ _ _

theorem forBranches_change_noted (f : Part → Branch → Branch) {d : Part} (h : Noted d) :
    Noted (forBranches (fun b e => changeBranch b (f e) e) d) := by
  unfold forBranches
  generalize List.range 36 = l
  induction l generalizing d with
  | nil => exact h
  | cons b rest ih => exact ih ((Touches.changeBranch (b := b) (f d) d).noted h)

theorem deriveLeak_noted (z : Nat) {d : Part} (h : Noted d) : Noted (deriveLeak z d) :=
  forBranches_change_noted _ h

section
variable {z : Nat} {c : ZoneCfg} {k n : Nat} {d : Part} (hz : z < d.lkm.zones.length)
include hz

theorem confirmZone_zone : (confirmZone z c k n d).zone z = { d.zone z with
    state := if c.isolate then .isolated else .confirmed, acked := false } := by
  rw [zone_of_zones (d := putZone z { d.zone z with
    state := if c.isolate then .isolated else .confirmed, acked := false } d) (confirmZone_zones z c k n d).1]
  exact zone_putZone_same z _ d hz

/-- The branches of a confirmed zone carry LEAK exactly where the zone is isolated. -/
theorem confirmZone_branch (hc : (d.zone z).cfg = some c) {b : Nat} (hb : b < 36) :
    ((confirmZone z c k n d).branch b).map Branch.settledView =
      (d.branch b).map fun x => leakedView z c.isolate x.settledView := by
  have hu := confirmRecords_uplinked z c k n d
  have hleak (e : Part) (he : e.lkm.zones = (confirmRecords z c k n d).lkm.zones) :
      leakHold e (some z) = c.isolate := by
    have hzone : e.zone z = { d.zone z with
        state := if c.isolate then .isolated else .confirmed, acked := false } := by
      rw [zone_of_zones (he.trans (congrArg Lkm.zones hu.lkm))]
      exact zone_putZone_same z _ d hz
    unfold leakHold
    simp only [hzone, hc]
    rcases c.isolate with _ | _ <;> rfl
  rw [confirmZone_eq, handLatch_branch (φ := leakedView z c.isolate) fun e he => by
    rw [deriveLeak_branch z e hb, hleak e he]]
  rw [branch_of_bcu (d := d) (by rw [hu.bcu]; rfl)]

omit hz in
/-- Where no run is under way, a confirmation moves the LEAK cause of the run record alone. -/
theorem confirmZone_parked (hp : d.sqe.underWay = false) (hn : Noted d) :
    (confirmZone z c k n d).sqe = { d.sqe with causes := { d.sqe.causes with
      leak := (confirmZone z c k n d).lkm.zones.any Zone.suspends } } ∧ Noted (confirmZone z c k n d) := by
  have hu := confirmRecords_uplinked z c k n d
  have hsqe : (confirmRecords z c k n d).sqe = d.sqe := hu.sqe
  have hnr : Noted (confirmRecords z c k n d) := hn.of_agenda hu.agenda
  have hparked : (confirmRecords z c k n d).sqe.underWay = false := by rw [hsqe]; exact hp
  have hzones : (confirmZone z c k n d).lkm.zones = (confirmRecords z c k n d).lkm.zones := by
    rw [(confirmZone_zones z c k n d).1, hu.lkm]
    rfl
  rw [hzones, confirmZone_eq, handLatch_parked hparked]
  refine ⟨?_, deriveLeak_noted z (by exact hnr)⟩
  have h := parked_built.driven.toChanged.deriveLeak z { confirmRecords z c k n d with
    sqe.causes := { (confirmRecords z c k n d).sqe.causes with leak := leakCause (confirmRecords z c k n d) } }
    (by exact hparked)
  refine h.trans ?_
  show ({ (confirmRecords z c k n d).sqe with causes := { (confirmRecords z c k n d).sqe.causes with
    leak := leakCause (confirmRecords z c k n d) } } : Sqe) = _
  rw [hsqe]
  rfl

end

/-! ## LEAK_IN -/

theorem examineLine_confirms {d : Part} {z : Nat} {c : ZoneCfg} (hl : d.lines.leakIn = true)
    (hz : d.sru.profile.leakLineZone = some z) (hc : (d.zone z).cfg = some c)
    (hs : (d.zone z).state.latched = false) : examineLine d = confirmZone z c byLine 0 d := by
  unfold examineLine
  rw [hl, hz]
  simp only [hc]
  cases hst : (d.zone z).state <;> simp only [hst, ZoneState.latched, Bool.true_eq_false] at hs ⊢

theorem examineLine_silent {d : Part} (h : d.lines.leakIn = false ∨ ∀ z c,
    ¬ (d.sru.profile.leakLineZone = some z ∧ z < d.lkm.zones.length ∧ (d.zone z).cfg = some c ∧
      (d.zone z).state.latched = false)) : examineLine d = d := by
  rcases h with h | h
  · exact examineLine_eq_self (.inl h)
  · unfold examineLine
    split
    · rename_i z hl hz
      have named (c : ZoneCfg) (hc : (d.zone z).cfg = some c) (hs : (d.zone z).state.latched = false) : False :=
        h z c ⟨hz, lt_of_zone_cfg hc, hc, hs⟩
      split
      · rename_i c hc hs
        exact (named c hc (by rw [hs]; rfl)).elim
      · rename_i c hc hs
        exact (named c hc (by rw [hs]; rfl)).elim
      · rfl
    · rfl

/-- A zone of the table. -/
theorem zone_mem {d : Part} {z : Nat} (hz : z < d.lkm.zones.length) : d.zone z ∈ d.lkm.zones := by
  have h : d.zone z = d.lkm.zones[z] := by simp [Part.zone, hz]
  rw [h]
  exact List.getElem_mem hz

/-- A latched zone of the table raises the alert, and its valve where it has one (R148, R149). -/
theorem lines_of_latched {d : Part} {z : Nat} {c : ZoneCfg} (hz : z < d.lkm.zones.length)
    (hc : (d.zone z).cfg = some c) (hs : (d.zone z).state.latched = true) (hr : d.lines.resetIn = false) :
    alertLevel d = true ∧ (c.valve = true → valveLevel d = true) := by
  have hmem := zone_mem hz
  constructor
  · have : d.lkm.zones.any Zone.latched = true :=
      List.any_eq_true.mpr ⟨_, hmem, by simp [Zone.latched, hc, hs]⟩
    simp [alertLevel, this]
  · intro hv
    have : d.lkm.zones.any Zone.drivesValve = true :=
      List.any_eq_true.mpr ⟨_, hmem, by simp [Zone.drivesValve, hc, hv, hs]⟩
    simp [valveLevel, this, hr]

/-- Settles O34: an assertion that names a zone confirms it, and the hand-offs leave the latch. -/
theorem leakInChangeActs : Obligations.LeakInChangeActs := by
  unfold Obligations.LeakInChangeActs
  intro s a hcalm
  have hexec : exec (.leakInChange a) s = act examineLine { s with part := setLeakIn a s.part } := rfl
  refine ⟨fun h hl => ?_, fun z c ha hnamed => ?_⟩
  · rw [hexec]
    exact act_same examineLine { s with part := setLeakIn a s.part } _ hcalm.1
      (examineLine_silent (d := setLeakIn a s.part) h) hcalm.1.2 hl
  · obtain ⟨hname, hz, hc, hclear⟩ := hnamed
    subst ha
    have hline : examineLine (setLeakIn true s.part) = confirmZone z c byLine 0 (setLeakIn true s.part) :=
      examineLine_confirms (d := setLeakIn true s.part) rfl hname hc hclear
    have hleaked := examineLine_leaked (setLeakIn true s.part)
    have hzones := (confirmZone_zones z c byLine 0 (setLeakIn true s.part))
    have hzone := confirmZone_zone (c := c) (k := byLine) (n := 0) (d := setLeakIn true s.part) hz
    have hbranch {b : Nat} (hb : b < 36) := confirmZone_branch (k := byLine) (n := 0) (d := setLeakIn true s.part) hz hc hb
    have hposts := confirmZone_posts z c byLine 0 (setLeakIn true s.part)
    have hparked := confirmZone_parked (z := z) (c := c) (k := byLine) (n := 0) (d := setLeakIn true s.part)
    rw [← hline] at hzones hzone hposts hparked
    simp only [← hline] at hbranch
    have hphase : ∀ node, (examineLine (setLeakIn true s.part)).rlp.phase ≠ .passing node := by
      rw [hleaked.phase]
      exact hcalm.2
    refine ⟨_, hexec.trans (act_running _ _ hcalm.1.1), rfl, ?_⟩
    simp only
    generalize examineLine (setLeakIn true s.part) = e at *
    have hdel := complete_delivered hphase
    have hreq := complete_requestsStand hphase
    have hlen : z < e.lkm.zones.length := by
      rw [hzones.1, List.length_set]
      exact hz
    have hsame : (quieten (settleAll e)).zone z = e.zone z :=
      zone_of_zones (d := e) (congrArg Lkm.zones (settleAll_settled e).lkm) z
    have hlines := lines_of_latched (d := quieten (settleAll e)) (z := z) (c := c)
      (by rw [show (quieten (settleAll e)).lkm = e.lkm from (settleAll_settled e).lkm]; exact hlen)
      (by rw [hsame, hzone]; exact hc)
      (by
        rw [hsame, hzone]
        rcases c.isolate with _ | _ <;> rfl)
      ((settleAll_settled e).resetIn.trans (hleaked.resetIn.trans hcalm.1.1))
    have hend := complete_calm e hphase
    have hview {b : Nat} (hb : b < 36) : ((complete e).branch b).map Branch.settledView =
        (s.part.branch b).map fun x => leakedView z c.isolate x.settledView :=
      (hdel.branch_view b).trans (hbranch hb)
    refine ⟨hleaked.toTablesStand.trans hdel.toTablesStand, hleaked.toLinkStands.trans hdel.toLinkStands,
      hleaked.toRequestsStand.trans hreq, hdel.sru.trans hleaked.sru,
      (congrArg Lkm.points hdel.lkm).trans hzones.2, ?_, ?_, fun hv => ?_, fun hr hs => ?_, fun b hb => ?_,
      fun b x y hb hx hy => ?_, fun hroom => ?_⟩
    · rw [hdel.lkm, hzones.1]
      exact congrArg (s.part.lkm.zones.set z) (show ({ s.part.zone z with
        state := if c.isolate then .isolated else .confirmed, acked := false } : Zone) = _ by rw [← hc])
    · rw [hend]
      exact hlines.1
    · rw [hend]
      exact hlines.2 hv
    · have hp := parked_of hr hs
      obtain ⟨hsqe, hnoted⟩ := hparked hp (noted_of_nil hcalm.1.2.1)
      have hpe : e.sqe.underWay = false := by
        rw [hsqe]
        exact hp
      rw [hdel.lkm, hend]
      exact (settleAll_parked hpe hnoted).1.trans hsqe
    · have h := congrArg (Option.map fun v => (v.1, v.2.1.trip, v.2.1.shed, v.2.1.forceOff, v.2.2.1)) (hview hb)
      rw [Option.map_map, Option.map_map] at h
      refine h.trans (congrArg (Option.map · _) (funext fun x => ?_))
      by_cases hx : x.cfg.zone = some z <;> simp [leakedView, Branch.settledView, hx]
    · have h := hview hb
      rw [hx, hy] at h
      have hholds := congrArg (fun v => v.2.1.leak) (Option.some.inj h)
      refine ⟨fun hxz hi => ?_, fun hxz => ?_⟩
      · simpa [leakedView, Branch.settledView, hxz, hi] using hholds
      · simpa [leakedView, Branch.settledView, hxz] using hholds
    · obtain ⟨hconf, hiso⟩ := hposts hroom
      exact ⟨hdel.holds _ hconf, fun hi => hdel.holds _ (hiso hi)⟩

/-! ## LEAK ACK (R146) -/

theorem withZone_range {w : Word} {f : Nat → Part → Part × Status} {d : Part} (h : 8 ≤ w.toNat) :
    withZone w f d = (d, Answer.refuse .range (some w.toNat) (some 0) 0) := if_pos h

theorem withZone_refused {w : Word} {f : Nat → Part → Part × Status} {d : Part} {x : Status} (h : w.toNat < 8)
    (hf : f w.toNat d = (d, x)) (hx : x ≠ .done) :
    withZone w f d = (d, Answer.refuse x (some w.toNat) none 0) := by
  unfold withZone
  rw [if_neg (by omega), hf]
  split
  · rename_i heq
    exact absurd (congrArg Prod.snd heq) hx
  · rename_i heq
    rw [Prod.mk.injEq] at heq
    rw [← heq.1, ← heq.2]

theorem withZone_done {w : Word} {f : Nat → Part → Part × Status} {d e : Part} (h : w.toNat < 8)
    (hf : f w.toNat d = (e, .done)) : withZone w f d = (e, Answer.done []) := by
  unfold withZone
  rw [if_neg (by omega), hf]

theorem execRequest_leakAck {copy : Option FaultDetail} {w : Word} {d e : Part} {a : Answer}
    (h : withZone w leakAck d = (e, a)) : execRequest copy (.leakAck w) d = (e, .answer a) := by
  show ((withZone w leakAck d).1, Reply.answer (withZone w leakAck d).2) = _
  rw [h]

theorem execRequest_leakClear {copy : Option FaultDetail} {w : Word} {d e : Part} {a : Answer}
    (h : withZone w leakClear d = (e, a)) : execRequest copy (.leakClear w) d = (e, .answer a) := by
  show ((withZone w leakClear d).1, Reply.answer (withZone w leakClear d).2) = _
  rw [h]

/-- What LEAK ACK makes of a latched zone (R146). -/
def acknowledged (z : Nat) (d : Part) : Part :=
  if (d.zone z).acked then d else examineLeakCause (putZone z { d.zone z with acked := true } d)

theorem leakAck_latched {z : Nat} {d : Part} (h : (d.zone z).latched = true) :
    leakAck z d = (acknowledged z d, .done) := by
  unfold leakAck acknowledged
  rw [if_pos h]
  split <;> rfl

theorem leakAck_refused {z : Nat} {d : Part} (h : (d.zone z).latched = false) : leakAck z d = (d, .notAllowed) := by
  unfold leakAck
  rw [if_neg (by simp [h])]

theorem Zone.latched_iff (x : Zone) : x.latched = true ↔ x.cfg ≠ none ∧ x.state.latched = true := by
  simp [Zone.latched, Option.isSome_iff_ne_none]

theorem acknowledged_leaked (z : Nat) (d : Part) : Leaked d (acknowledged z d) := by
  unfold acknowledged
  split
  · exact .refl d
  · refine Leaked.trans ?_ (examineLeakCause_leaked _)
    exact putZone_leaked z _ d rfl

theorem acknowledged_lkm {z : Nat} {d : Part} (hz : z < d.lkm.zones.length) : (acknowledged z d).lkm =
    { d.lkm with zones := d.lkm.zones.set z { d.zone z with acked := true } } := by
  unfold acknowledged
  split
  · rename_i h
    rw [show ({ d.zone z with acked := true } : Zone) = d.zone z by rw [← h], zones_set_same hz]
  · rw [examineLeakCause_lkm]
    rfl

theorem acknowledged_branch (z n : Nat) (d : Part) :
    ((acknowledged z d).branch n).map Branch.settledView = (d.branch n).map Branch.settledView := by
  unfold acknowledged
  split
  · rfl
  · exact (examineLeakCause_settled _).branch_view n

theorem acknowledged_parked {z : Nat} {d : Part} (ha : (d.zone z).acked = false) (hp : d.sqe.underWay = false) :
    acknowledged z d = { putZone z { d.zone z with acked := true } d with sqe.causes :=
      { d.sqe.causes with leak := (d.lkm.zones.set z { d.zone z with acked := true }).any Zone.suspends } } := by
  unfold acknowledged
  rw [if_neg (by simp [ha]), examineLeakCause, setCauses_parked (by exact hp)]
  rfl

/-! ## LEAK CLEAR (R147) -/

/-- What LEAK CLEAR makes of a latched zone that is dry (R147). -/
def clearedZone (z : Nat) (d : Part) : Part :=
  examineZone z (handLatch (clearZoneBranches z) (post .leakCleared (some z) none
    (putZone z { d.zone z with state := .clear, acked := false } d)))

/-- A point of the zone is WET or DRY_PENDING. -/
theorem wetCount_pos_iff {z : Nat} {d : Part} : 0 < wetCount z d ↔
    ∃ i p, entry d.lkm.points i = some p ∧ p.cfg.zone = z ∧ (p.state = .wet ∨ p.state = .dryPending) := by
  have hmem : 0 < wetCount z d ↔ ∃ p, some p ∈ d.lkm.points ∧ p.cfg.zone = z ∧ p.isWet = true := by
    unfold wetCount zonePoints
    rw [List.length_pos_iff_exists_mem]
    simp only [List.mem_filter, List.mem_filterMap, id_eq, exists_eq_right, beq_iff_eq, and_assoc]
  rw [hmem]
  constructor
  · rintro ⟨p, hp, hz, hw⟩
    obtain ⟨i, hi, h⟩ := List.getElem_of_mem hp
    exact ⟨i, p, by simp [entry, hi, h], hz, by simpa [Point.isWet] using hw⟩
  · rintro ⟨i, p, hp, hz, hw⟩
    refine ⟨p, ?_, hz, by simpa [Point.isWet] using hw⟩
    exact List.mem_of_getElem? (i := i) (by
      unfold entry at hp
      rcases h : d.lkm.points[i]? with _ | x <;> simp_all)

theorem lineHolds_iff {z : Nat} {d : Part} :
    lineHolds z d = true ↔ d.lines.leakIn = true ∧ d.sru.profile.leakLineZone = some z := by
  simp [lineHolds]

section
variable {z : Nat} {d : Part}

theorem leakClear_notAllowed (h : (d.zone z).cfg = none ∨ (d.zone z).state = .clear) :
    leakClear z d = (d, .notAllowed) := by
  unfold leakClear
  rcases hc : (d.zone z).cfg with _ | c
  · rfl
  · rcases h with h | h
    · rw [hc] at h
      cases h
    · rw [h]

theorem leakClear_wet (hc : (d.zone z).cfg ≠ none) (h : (d.zone z).state = .alert ∨
    (d.zone z).state.latched = true ∧ (0 < wetCount z d ∨ lineHolds z d = true)) :
    leakClear z d = (d, .notDry) := by
  obtain ⟨c, hc⟩ := Option.ne_none_iff_exists'.mp hc
  unfold leakClear
  rw [hc]
  rcases h with h | ⟨hs, h⟩
  · rw [h]
  · rcases hst : (d.zone z).state <;> rw [hst] at hs <;> simp [ZoneState.latched] at hs <;> exact if_pos h

theorem leakClear_dry {c : ZoneCfg} (hc : (d.zone z).cfg = some c) (hs : (d.zone z).state.latched = true)
    (h : ¬ (0 < wetCount z d ∨ lineHolds z d = true)) : leakClear z d = (clearedZone z d, .done) := by
  unfold leakClear clearedZone
  rw [hc]
  rcases hst : (d.zone z).state <;> rw [hst] at hs <;> simp [ZoneState.latched] at hs <;> exact if_neg h

theorem clearedZone_leaked (z : Nat) (d : Part) : Leaked d (clearedZone z d) := by
  unfold clearedZone
  refine Leaked.trans ?_ (examineZone_leaked z _)
  refine Leaked.trans ?_ (handLatch_leaked _ (clearZoneBranches_leaked z) _)
  refine Leaked.trans ?_ (post_leaked _ _ _ _)
  exact putZone_leaked z _ d rfl

theorem clearedZone_posts (h : d.rlp.events.length < 64) :
    (clearedZone z d).holdsEvent ⟨.leakCleared, some z, none, d.slc.cycle⟩ :=
  ((handLatch_leaked _ (clearZoneBranches_leaked z) _).trans (examineZone_leaked z _)).holds _
    (post_holds _ _ _ (putZone z { d.zone z with state := .clear, acked := false } d) h)

/-- A branch's view once its zone is cleared: no LEAK, and no CTRL. -/
def clearedView (z : Nat) (w : BranchCfg × Holds × Bool × Option Nat × Bool) :
    BranchCfg × Holds × Bool × Option Nat × Bool :=
  if w.1.zone = some z then (w.1, { w.2.1 with leak := false }, false, w.2.2.2) else w

theorem clearZoneBranches_branch (z : Nat) (d : Part) {n : Nat} (hn : n < 36) :
    ((clearZoneBranches z d).branch n).map Branch.settledView =
      (d.branch n).map fun x => clearedView z x.settledView := by
  refine forBranches_view id
    (fun _ x => if x.cfg.zone = some z then
      { x with holds := { x.holds with leak := false }, demands := ⟨false, false⟩, enrolling := none } else x)
    (clearedView z) d (fun _ x => ?_) (fun e x _ => ?_) hn
  · split <;> rfl
  · by_cases h : x.cfg.zone = some z <;> simp [clearedView, Branch.settledView, h]

/-- LEAK CLEAR is handed on, and the examination then finds the zone CLEAR and dry. -/
theorem clearedZone_handed {c : ZoneCfg} (hz : z < d.lkm.zones.length) (hc : (d.zone z).cfg = some c)
    (hw : wetCount z d = 0) : ∃ e, clearedZone z d = noteDegraded z e ∧ e.lkm.points = d.lkm.points ∧
      e.lkm.zones = d.lkm.zones.set z { d.zone z with state := .clear, acked := false } ∧
      ∀ b, b < 36 → (e.branch b).map Branch.settledView =
        (d.branch b).map fun x => clearedView z x.settledView := by
  have hu := post_uplinked .leakCleared (some z) none
    (putZone z { d.zone z with state := .clear, acked := false } d)
  have hst := handLatch_stands (f := clearZoneBranches z) (fun e => (clearZoneBranches_kept z e).lkm)
    (post .leakCleared (some z) none (putZone z { d.zone z with state := .clear, acked := false } d))
  rw [hu.lkm] at hst
  obtain ⟨hzones, hpoints⟩ := hst
  refine ⟨_, ?_, hpoints, hzones, fun b hb => ?_⟩
  · unfold clearedZone
    generalize handLatch _ _ = e at hzones hpoints ⊢
    have hzone : e.zone z = { d.zone z with state := .clear, acked := false } := by
      rw [zone_of_zones (d := putZone z { d.zone z with state := .clear, acked := false } d) hzones]
      exact zone_putZone_same z _ d hz
    have hwet : wetCount z e = 0 := by
      unfold wetCount zonePoints
      rw [show e.lkm.points = d.lkm.points from hpoints]
      exact hw
    refine examineZone_clear (c := c) (by rw [hzone]; exact hc) (by rw [hzone]) (fun h => ?_) hwet
    have hvote := h.2
    rw [hwet] at hvote
    unfold effectiveVote at hvote
    omega
  · rw [handLatch_branch (φ := clearedView z) fun e _ => clearZoneBranches_branch z e hb]
    rw [branch_of_bcu (d := d) (by rw [hu.bcu]; rfl)]

end

/-- Settles O35: the refusals in their order, the acknowledgement, and the zone that is cleared. -/
theorem leakRequestsAct : Obligations.LeakRequestsAct := by
  unfold Obligations.LeakRequestsAct
  refine ⟨fun s tag zone hs hlen => ?_, fun s tag zone hs hlen => ?_⟩
  · have hc : request (.leakAck tag zone) = some ⟨tag, .leakAck zone⟩ := rfl
    have opened : Delivered s.part (s.part.opened ⟨tag, .leakAck zone⟩) := {}
    refine ⟨fun h => exec_answers_same hc hs (execRequest_leakAck (withZone_range h)), fun h hx => ?_, fun h hcfg hl => ?_⟩
    · refine exec_answers_same hc hs (execRequest_leakAck <| withZone_refused h (leakAck_refused ?_) (by decide))
      rw [Bool.eq_false_iff, ne_eq, Zone.latched_iff]
      rintro ⟨hcfg, hl⟩
      rcases hx with hx | hx
      · exact hcfg hx
      · rw [show s.part.zone zone.toNat = (s.part.opened ⟨tag, .leakAck zone⟩).zone zone.toNat from rfl, hl] at hx
        cases hx
    · have he : execRequest s.part.rlp.detail (.leakAck zone) (s.part.opened ⟨tag, .leakAck zone⟩) = _ :=
        execRequest_leakAck <| withZone_done h (leakAck_latched ((Zone.latched_iff _).mpr ⟨hcfg, hl⟩))
      have hk := acknowledged_leaked zone.toNat (s.part.opened ⟨tag, .leakAck zone⟩)
      have hd := answeredAfter_delivered (a := Answer.done []) (q := ⟨tag, .leakAck zone⟩)
        (d := acknowledged zone.toNat (s.part.opened ⟨tag, .leakAck zone⟩))
      have hlkm := acknowledged_lkm (z := zone.toNat) (d := s.part.opened ⟨tag, .leakAck zone⟩)
        (by rw [show (s.part.opened ⟨tag, .leakAck zone⟩).lkm = s.part.lkm from rfl, hlen]; exact h)
      refine ⟨_, exec_settles hc hs _ he, rfl,
        opened.toTablesStand.trans (hk.toTablesStand.trans hd.toTablesStand),
        opened.toLinkStands.trans (hk.toLinkStands.trans hd.toLinkStands), hd.sru.trans hk.sru,
        answeredAfter_answered _ _ _, hd.lkm.trans hlkm, fun b => ?_, fun ha hr hsus => ?_⟩
      · have hv := congrArg (Option.map fun v => (v.1, v.2.1)) ((hd.branch_view b).trans (acknowledged_branch _ b _))
        rw [Option.map_map, Option.map_map] at hv
        exact hv
      · have hp : (s.part.opened ⟨tag, .leakAck zone⟩).sqe.underWay = false := parked_of hr hsus
        have hack := acknowledged_parked (z := zone.toNat) (d := s.part.opened ⟨tag, .leakAck zone⟩) ha hp
        have hsqe : (acknowledged zone.toNat (s.part.opened ⟨tag, .leakAck zone⟩)).sqe = _ := congrArg Part.sqe hack
        refine (answeredAfter_parked ?_ (noted_of_nil ?_)).trans (hsqe.trans ?_)
        · rw [hsqe]
          exact hp
        · rw [hack]
          exact hs.1.2.1
        · rw [show _ = _ from hd.lkm.trans hlkm]
          rfl
  · have hc : request (.leakClear tag zone) = some ⟨tag, .leakClear zone⟩ := rfl
    have opened : Delivered s.part (s.part.opened ⟨tag, .leakClear zone⟩) := {}
    refine ⟨fun h => exec_answers_same hc hs (execRequest_leakClear (withZone_range h)), fun h hx => ?_, fun h hcfg hx => ?_,
      fun c h hcfg hl hwet hline => ?_⟩
    · exact exec_answers_same hc hs (execRequest_leakClear <| withZone_refused h (leakClear_notAllowed hx) (by decide))
    · refine exec_answers_same hc hs (execRequest_leakClear <| withZone_refused h (leakClear_wet hcfg ?_) (by decide))
      rcases hx with hx | ⟨hl, hx | hx⟩
      · exact .inl hx
      · exact .inr ⟨hl, .inl (wetCount_pos_iff.mpr hx)⟩
      · exact .inr ⟨hl, .inr (lineHolds_iff.mpr hx)⟩
    · have hdry : ¬ (0 < wetCount zone.toNat (s.part.opened ⟨tag, .leakClear zone⟩) ∨
          lineHolds zone.toNat (s.part.opened ⟨tag, .leakClear zone⟩) = true) := by
        rw [wetCount_pos_iff, lineHolds_iff]
        exact fun hor => hor.elim hwet hline
      have he : execRequest s.part.rlp.detail (.leakClear zone) (s.part.opened ⟨tag, .leakClear zone⟩) = _ :=
        execRequest_leakClear <| withZone_done h (leakClear_dry hcfg hl hdry)
      have hk := clearedZone_leaked zone.toNat (s.part.opened ⟨tag, .leakClear zone⟩)
      have hd := answeredAfter_delivered (a := Answer.done []) (q := ⟨tag, .leakClear zone⟩)
        (d := clearedZone zone.toNat (s.part.opened ⟨tag, .leakClear zone⟩))
      have hposts := clearedZone_posts (z := zone.toNat) (d := s.part.opened ⟨tag, .leakClear zone⟩)
      obtain ⟨e, heq, hpoints, hzones, hviews⟩ := clearedZone_handed (d := s.part.opened ⟨tag, .leakClear zone⟩)
        (by rw [show (s.part.opened ⟨tag, .leakClear zone⟩).lkm = s.part.lkm from rfl, hlen]; exact h) hcfg (by omega)
      have hlen' : zone.toNat < s.part.lkm.zones.length := by rw [hlen]; exact h
      refine ⟨_, exec_settles hc hs _ he, rfl,
        opened.toTablesStand.trans (hk.toTablesStand.trans hd.toTablesStand),
        opened.toLinkStands.trans (hk.toLinkStands.trans hd.toLinkStands), hd.sru.trans hk.sru,
        answeredAfter_answered _ _ _, ?_, ?_, fun b hb => ?_, fun hroom => hd.holds _ (hposts hroom)⟩
      · rw [hd.lkm, heq, noteDegraded_points]
        exact hpoints
      · have hez : e.zone zone.toNat = { s.part.zone zone.toNat with state := .clear, acked := false } := by
          rw [zone_of_zones (d := putZone zone.toNat { s.part.zone zone.toNat with
            state := .clear, acked := false } s.part) hzones]
          exact zone_putZone_same _ _ s.part hlen'
        have hfault : faultCount zone.toNat e = faultCount zone.toNat s.part := by
          unfold faultCount zonePoints
          rw [hpoints]
          rfl
        rw [hd.lkm, heq, noteDegraded_zones (by rw [hzones, List.length_set]; exact hlen'), hzones, List.set_set]
        refine congrArg (s.part.lkm.zones.set zone.toNat) ?_
        unfold degradedZone
        rw [hez, hfault]
        show ({ s.part.zone zone.toNat with
          state := .clear, acked := false, degraded := _ } : Zone) = _
        rw [← show (s.part.zone zone.toNat).cfg = some c from hcfg]
      · rw [heq]
        have hv := hd.branch_view b
        rw [heq, branch_of_bcu (d := e) (d' := noteDegraded zone.toNat e)
          (congrArg Bcu.branches (noteDegraded_bcu _ _))] at hv
        have h := congrArg (Option.map fun v => (v.1, v.2.2.1, v.2.1)) (hv.trans (hviews b hb))
        rw [Option.map_map, Option.map_map] at h
        refine h.trans (congrArg (Option.map · _) (funext fun x => ?_))
        by_cases hx : x.cfg.zone = some zone.toNat
        · simp [clearedView, Branch.settledView, hx]
        · have hb : (x.cfg.zone == some zone.toNat) = false := beq_eq_false_iff_ne.mpr hx
          simp [clearedView, Branch.settledView, hx, hb]

end Sys2Proof.Machine

/-! PROOFS. An accepted cell: what it makes of its node, its slot and its channel (R11, R12, R30 to R42). -/

namespace Sys2Proof.Machine

-- One proof after another: proofs that are checked side by side take a thread each.
set_option Elab.async false

/-! ## The transmitter and the Telemetry Queue -/

/-- While the transmitter is busy, the Telemetry Queue stands. -/
def QueueHeld (d d' : Part) : Prop :=
  ∀ m, d.rlp.tx = some m → d'.rlp.tx = some m ∧ d'.tlf.queue = d.tlf.queue

theorem arbitrate_transmitting {d : Part} {m : Uplink} (h : d.rlp.tx = some m) : arbitrate d = d := by
  unfold arbitrate
  rw [h]

theorem queueHeld_built : Built QueueHeld where
  trans h g m hm := by
    obtain ⟨h1, h2⟩ := h m hm
    obtain ⟨g1, g2⟩ := g m h1
    exact ⟨g1, g2.trans h2⟩
  still h m hm := ⟨by rw [h.rlp]; exact hm, by rw [h.tlf]⟩
  post k s v d m hm := by
    unfold post
    split
    · rw [arbitrate_transmitting (m := m) (by exact hm)]
      exact ⟨hm, rfl⟩
    · exact ⟨hm, rfl⟩
  putBranch _ _ _ _ hm := ⟨hm, rfl⟩
  emptied _ _ _ hm := ⟨hm, rfl⟩
  bcu _ _ _ _ hm := ⟨hm, rfl⟩
  noteFaulted b x d m hm := by
    have h : (noteFaulted b x d).rlp = d.rlp ∧ (noteFaulted b x d).tlf = d.tlf := by
      unfold noteFaulted
      split
      · split <;> exact ⟨rfl, rfl⟩
      · exact ⟨rfl, rfl⟩
    rw [h.1, h.2]
    exact ⟨hm, rfl⟩

/-- A relation of the BCU that no move of the run record breaks is kept by every hand-off. -/
theorem Operated.settleAll {R : Part → Part → Prop} (B : Operated R)
    (hq : ∀ d q, Advances d.sqe q → R d { d with sqe := q }) (d : Part) : R d (settleAll d) := by
  have handle (s : Signal) (d : Part) : R d (handle s d) := by
    cases s with
    | attempt => exact B.attempt d
    | branches => exact B.changed.examine hq d
    | source s => exact B.changed.setCauses hq _ d
    | leak => exact B.changed.setCauses hq _ d
    | outcome w b n o =>
      cases w with
      | bcu => exact B.outcomeToBcu b n o d
      | tlf =>
        show R d (if o = .noAck then _ else _)
        split
        · exact B.posted _ _ _ d (by decide)
        · exact B.refl d
      | rlp =>
        show R d (noteOutcome n o d)
        unfold noteOutcome completePass
        repeat' split
        all_goals exact B.fixed {}
  unfold Machine.settleAll
  generalize settleFuel = n
  induction n generalizing d with
  | zero => exact B.refl d
  | succ n ih =>
    unfold settle
    split
    · exact B.refl d
    · exact B.trans (B.trans (B.fixed {}) (handle _ _)) (ih _)

namespace Built
section
variable {R : Part → Part → Prop} (B : Built R)
include B

theorem deriveModules (d : Part) : R d (deriveModules d) := B.driven.powered.deriveModules d

theorem foldl {α : Type} (f : Part → α → Part) (hf : ∀ d a, R d (f d a)) (l : List α) (d : Part) :
    R d (l.foldl f d) := foldl_rel B.refl B.trans f hf l d

section
variable (hq : ∀ d q, Advances d.sqe q → R d { d with sqe := q })
include hq

theorem setPoint (i : Nat) (p : Point) (s : PointState) (n : Nat) (c : PointCause) (d : Part) :
    R d (setPoint i p s n c d) := by
  have put (x : Point) : R d { d with lkm.points := d.lkm.points.set i (some x) } := B.still {}
  have examineZone (z : Nat) (e : Part) : R e (examineZone z e) :=
    B.driven.examineZone (B.driven.toChanged.setCauses hq) z e
  unfold Machine.setPoint
  simp only
  split
  · exact put _
  · split
    · exact B.trans (put _) (B.trans (B.post _ _ _ _) (examineZone _ _))
    · exact B.trans (put _) (examineZone _ _)

omit hq in
theorem forPoints (node slot : Nat) (f : Nat → Point → Part → Part) (hf : ∀ i p d, R d (f i p d))
    (d : Part) : R d (forPoints node slot f d) := by
  unfold Machine.forPoints
  refine B.foldl _ (fun d i => ?_) _ d
  split
  · split
    · exact hf _ _ d
    · exact B.refl d
  · exact B.refl d

theorem handClass (k n : Nat) (kind : ChannelKind) (c : ChanClass) (d : Part) : R d (handClass k n kind c d) := by
  have points (s : PointState) (x : PointCause) : R d (Machine.forPoints n k (fun i p => Machine.setPoint i p s 0 x) d) :=
    B.forPoints _ _ _ (fun _ _ => B.setPoint hq _ _ _ _ _) d
  unfold Machine.handClass
  split
  · exact B.refl d
  · exact B.refl d
  · exact B.setFreshness _ _ d
  · split
    · exact points _ _
    · exact points _ _
    · exact B.refl d
  · exact B.deriveModules d

theorem handSample (k n : Nat) (kind : ChannelKind) (c : ChanClass) (changed : Bool) (d : Part) :
    R d (handSample k n kind c changed d) := by
  unfold Machine.handSample
  split
  · exact B.handClass hq _ _ _ _ d
  · exact B.refl d

theorem deliverSample (k n : Nat) (kind : ChannelKind) (x : Sample) (d : Part) :
    R d (deliverSample k n kind x d) := by
  unfold Machine.deliverSample
  split
  · split
    · exact B.switchReading _ _ d
    · exact B.refl d
  · exact B.powerReading _ _ _ d
  · exact B.forPoints _ _ _ (fun _ _ => B.setPoint hq _ _ _ _ _) d
  · exact B.refl d

end
end
end Built

theorem Built.takeTrip {R : Part → Part → Prop} (B : Built R) (a : TripAction) (n : Nat) (d : Part) : R d (takeTrip a n d) := by
  cases a with
  | never => exact B.refl d
  | branchTrip => exact B.driven.tripNode n d
  | nodeStandby =>
    show R d (standbyNode n d)
    unfold standbyNode
    split
    · exact B.driven.tripNode n d
    · have h := stage_still .tlf none n ctlStandby d
      split <;> (rename_i he; rw [he] at h)
      · exact B.trans (B.still h) (B.post _ _ _ _)
      · exact B.still h

theorem queueHeld_sqe (d : Part) (q : Sqe) (_ : Advances d.sqe q) : QueueHeld d { d with sqe := q } :=
  fun _ hm => ⟨hm, rfl⟩

/-! ## What an accepted cell makes of the link -/

/-- The Channel State record that a sample leaves (R30 to R34, R39). -/
def channelAfter (kind : ChannelKind) (limit : Option Nat) (x : ChannelState) (d : Part) : Sample → ChannelState
  | .good v => sampled (paramsOf d kind limit) x v d
  | _ => x

/-- The Telemetry Queue that a sample leaves while the transmitter is busy (R40, R42). -/
def queueAfter (node : Nat) (kind : ChannelKind) (limit : Option Nat) (x : ChannelState) (d : Part) :
    Sample → List SampleRecord
  | .good v =>
    if isForwarded (paramsOf d kind limit) x v d then
      (if d.tlf.queue.length < 128 then d.tlf.queue else d.tlf.queue.tail) ++
        [⟨node, kind, v, (classify (paramsOf d kind limit) x v).1.cls, d.slc.cycle⟩]
    else d.tlf.queue
  | _ => d.tlf.queue

theorem hearNode_frame (n : Nat) (d : Part) : Frame (heardNode n d) (hearNode n d) := by
  unfold hearNode
  simp only
  split
  · exact .refl _
  · exact (deriveModules_sourced _).toFrame
  · exact (post_settled _ _ _ _).toFrame.trans (deriveModules_sourced _).toFrame

theorem hearNode_queueHeld (n : Nat) (d : Part) : QueueHeld d (hearNode n d) := by
  have heard : QueueHeld d (heardNode n d) := fun _ hm => ⟨hm, rfl⟩
  unfold hearNode
  simp only
  split
  · exact heard
  · show QueueHeld d (deriveModules (heardNode n d))
    exact queueHeld_built.trans heard (queueHeld_built.deriveModules _)
  · show QueueHeld d (deriveModules (post .nodeLive (some n) none (heardNode n d)))
    exact queueHeld_built.trans heard (queueHeld_built.trans (queueHeld_built.post _ _ _ _)
      (queueHeld_built.deriveModules _))

theorem stored_queue {k : Nat} {x : ChannelState} {fwd : Bool} {r : SampleRecord} {d : Part} {m : Uplink}
    (h : d.rlp.tx = some m) : (stored k x fwd r d).rlp.tx = some m ∧ (stored k x fwd r d).tlf.queue =
      if fwd then (if d.tlf.queue.length < 128 then d.tlf.queue else d.tlf.queue.tail) ++ [r] else d.tlf.queue := by
  unfold stored
  cases fwd
  · exact ⟨h, rfl⟩
  · simp only [if_true]
    unfold forward
    rw [show (putChannel k x d).tlf.queue = d.tlf.queue from rfl]
    by_cases hl : d.tlf.queue.length < 128
    · rw [if_pos hl, if_pos hl, arbitrate_transmitting (m := m) (by exact h)]
      exact ⟨h, rfl⟩
    · rw [if_neg hl, if_neg hl, arbitrate_transmitting (m := m) (by exact h), List.drop_one]
      exact ⟨h, rfl⟩

theorem acted_frame {k node : Nat} {p : Params} {x : ChannelState} {kind : ChannelKind} {v : Int} {d : Part} :
    Frame (putChannel k (sampled p x v d) d) (acted k node p x kind v d) := by
  have hstored : Frame (putChannel k (sampled p x v d) d) (stored k (sampled p x v d) (isForwarded p x v d)
      ⟨node, kind, v, (classify p x v).1.cls, d.slc.cycle⟩ d) := by
    unfold stored
    split
    · exact forward_frame _ _
    · exact .refl _
  unfold acted
  simp only
  refine hstored.trans ?_
  generalize stored _ _ _ _ _ = e
  have hclass : Frame e (if (classify p x v).2 then postClass k node x.cls (classify p x v).1.cls e else e) := by
    split
    · exact (postClass_settled _ _ _ _ _).toFrame
    · exact .refl _
  generalize (if (classify p x v).2 then postClass k node x.cls (classify p x v).1.cls e else e) = f at hclass ⊢
  refine hclass.trans ?_
  split
  · exact (takeTrip_kept _ _ _).toFrame
  · exact .refl _

/-- A class change and its trip action leave the Telemetry Queue of a busy part. -/
theorem acted_queueHeld {k node : Nat} {p : Params} {x : ChannelState} {kind : ChannelKind} {v : Int} {d : Part} :
    QueueHeld (stored k (sampled p x v d) (isForwarded p x v d)
      ⟨node, kind, v, (classify p x v).1.cls, d.slc.cycle⟩ d) (acted k node p x kind v d) := by
  unfold acted
  simp only
  generalize stored _ _ _ _ _ = e
  have hclass : QueueHeld e (if (classify p x v).2 then postClass k node x.cls (classify p x v).1.cls e else e) := by
    split
    · unfold postClass
      split
      · exact queueHeld_built.post _ _ _ _
      · exact queueHeld_built.refl _
    · exact queueHeld_built.refl _
  generalize (if (classify p x v).2 then postClass k node x.cls (classify p x v).1.cls e else e) = f at hclass ⊢
  refine queueHeld_built.trans hclass ?_
  split
  · exact queueHeld_built.takeTrip _ _ _
  · exact queueHeld_built.refl _

theorem entry_set_ne {α : Type} (l : List (Option α)) (y : Option α) {i k : Nat} (h : k ≠ i) :
    entry (l.set i y) k = entry l k := by
  simp [entry, h.symm]

theorem set_entry_same {α : Type} {l : List (Option α)} {i : Nat} {x : α} (h : entry l i = some x) :
    l.set i (some x) = l := by
  refine List.ext_getElem? fun n => ?_
  rw [List.getElem?_set]
  split
  · rename_i hn
    subst hn
    unfold entry at h
    rcases hl : l[i]? with _ | y
    · rw [hl] at h
      cases h
    · rw [hl] at h
      rw [if_pos (List.getElem?_eq_some_iff.mp hl).1]
      exact congrArg some h.symm
  · rfl

section
variable {k node : Nat} {kind : ChannelKind} {limit : Option Nat} {x : ChannelState} {d : Part}

/-- A sample leaves the link but the record of its channel, which it classifies. -/
theorem channelSample_frame (w : Sample) (hx : entry d.tlf.channels k = some x) :
    Frame (putChannel k (channelAfter kind limit x d w) d) (channelSample k node kind limit w d) := by
  have same : putChannel k x d = d := by
    unfold putChannel
    rw [set_entry_same hx]
  cases w with
  | good v =>
    show Frame _ (goodSample k node kind limit v d)
    rw [goodSample_eq hx]
    exact acted_frame.trans (handSample_frame _ _ _ _ _ _)
  | invalid =>
    show Frame (putChannel k x d) d
    rw [same]
    exact .refl d
  | sensorFault =>
    show Frame (putChannel k x d) d
    rw [same]
    exact .refl d

theorem channelSample_queue (w : Sample) (hx : entry d.tlf.channels k = some x) {m : Uplink}
    (hm : d.rlp.tx = some m) : (channelSample k node kind limit w d).rlp.tx = some m ∧
      (channelSample k node kind limit w d).tlf.queue = queueAfter node kind limit x d w := by
  cases w with
  | good v =>
    show (goodSample k node kind limit v d).rlp.tx = some m ∧ (goodSample k node kind limit v d).tlf.queue = _
    rw [goodSample_eq hx]
    obtain ⟨h1, h2⟩ := stored_queue (k := k) (x := sampled (paramsOf d kind limit) x v d)
      (fwd := isForwarded (paramsOf d kind limit) x v d)
      (r := ⟨node, kind, v, (classify (paramsOf d kind limit) x v).1.cls, d.slc.cycle⟩) hm
    obtain ⟨h3, h4⟩ := (queueHeld_built.trans acted_queueHeld
      (queueHeld_built.handSample queueHeld_sqe k node kind _ _ _)) m h1
    exact ⟨h3, h4.trans h2⟩
  | invalid => exact ⟨hm, rfl⟩
  | sensorFault => exact ⟨hm, rfl⟩

theorem mem_noteSatisfied {n : Nat} {w : Sample} : n ∈ (noteSatisfied k w d).slc.satisfied ↔
    n ∈ d.slc.satisfied ∨ (n = k ∧ ∃ v, w = .good v) := by
  cases w with
  | good v =>
    show n ∈ (if k ∈ d.slc.satisfied then d
      else { d with slc.satisfied := d.slc.satisfied ++ [k] }).slc.satisfied ↔ _
    split
    · rename_i h
      exact ⟨.inl, fun hor => hor.elim id fun hn => hn.1 ▸ h⟩
    · simp
  | invalid => simp [noteSatisfied]
  | sensorFault => simp [noteSatisfied]

end

theorem paramsOf_of_limits {d d' : Part} (h : d'.tlf.limits = d.tlf.limits) (kind : ChannelKind) (limit : Option Nat) :
    paramsOf d' kind limit = paramsOf d kind limit := by
  unfold paramsOf
  rw [h]

theorem isForwarded_of {d d' : Part} {p : Params} {x : ChannelState} {v : Int}
    (h : d'.rlp.features = d.rlp.features) : isForwarded p x v d' = isForwarded p x v d := by
  unfold isForwarded
  rw [h]

theorem channelAfter_of {d d' : Part} {kind : ChannelKind} {limit : Option Nat} {x : ChannelState}
    (hl : d'.tlf.limits = d.tlf.limits) (hf : d'.rlp.features = d.rlp.features) (w : Sample) :
    channelAfter kind limit x d' w = channelAfter kind limit x d w := by
  cases w with
  | good v =>
    unfold channelAfter sampled
    simp only [paramsOf_of_limits hl, isForwarded_of hf]
  | invalid => rfl
  | sensorFault => rfl

theorem queueAfter_of {d d' : Part} {node : Nat} {kind : ChannelKind} {limit : Option Nat} {x : ChannelState}
    (hl : d'.tlf.limits = d.tlf.limits) (hf : d'.rlp.features = d.rlp.features)
    (hq : d'.tlf.queue = d.tlf.queue) (hc : d'.slc.cycle = d.slc.cycle) (w : Sample) :
    queueAfter node kind limit x d' w = queueAfter node kind limit x d w := by
  cases w with
  | good v =>
    unfold queueAfter
    simp only [paramsOf_of_limits hl, isForwarded_of hf, hq, hc]
  | invalid => exact hq
  | sensorFault => exact hq

/-- What an accepted cell makes of the link (R10 to R12). -/
structure CellTaken (k node : Nat) (kind : ChannelKind) (limit : Option Nat) (w : Sample) (x : ChannelState)
    (d d' : Part) : Prop where
  nodes : d'.slc.nodes = (heardNode node d).slc.nodes
  satisfied : ∀ n, n ∈ d'.slc.satisfied ↔ n ∈ d.slc.satisfied ∨ (n = k ∧ ∃ v, w = .good v)
  channels : d'.tlf.channels = d.tlf.channels.set k (some (channelAfter kind limit x d w))
  telemetry : ∀ m, d.rlp.tx = some m → d'.rlp.tx = some m ∧ d'.tlf.queue = queueAfter node kind limit x d w
  cycle : d'.slc.cycle = d.slc.cycle
  active : d'.slc.active = d.slc.active
  sending : d'.slc.sending = d.slc.sending
  counters : d'.slc.checkErrors = d.slc.checkErrors ∧ d'.slc.misplaced = d.slc.misplaced ∧
    d'.slc.retries = d.slc.retries ∧ d'.slc.noAcks = d.slc.noAcks

theorem acceptCell_taken {k node : Nat} {kind : ChannelKind} {limit : Option Nat} {q : Quality} {c : InCell}
    {x : ChannelState} {d : Part} (hx : entry d.tlf.channels k = some x) :
    CellTaken k node kind limit (sampleOf kind q c.value) x d (acceptCell k node kind limit q c d) := by
  unfold acceptCell
  simp only
  generalize sampleOf kind q c.value = w
  have h1 := hearNode_frame node d
  have o1 := hearNode_outer node d
  have t1 := hearNode_queueHeld node d
  generalize hearNode node d = d1 at h1 o1 t1 ⊢
  have s2 := fun n => mem_noteSatisfied (k := k) (d := d1) (n := n) (w := w)
  obtain ⟨l, hl⟩ := noteSatisfied_eq k w d1
  generalize noteSatisfied k w d1 = d2 at hl s2 ⊢
  have hx2 : entry d2.tlf.channels k = some x := by
    rw [hl]
    exact (congrArg (entry · k) h1.channels).trans hx
  have hlim : d2.tlf.limits = d.tlf.limits := by
    rw [hl]
    exact o1.limits
  have hfeat : d2.rlp.features = d.rlp.features := by
    rw [hl]
    exact o1.features
  have hchan : d2.tlf.channels = d.tlf.channels := by
    rw [hl]
    exact h1.channels
  have hcyc : d2.slc.cycle = d.slc.cycle := by
    rw [hl]
    exact h1.cycle
  have f3 := (channelSample_frame (node := node) (kind := kind) (limit := limit) w hx2).trans
    (deliverSample_frame k node kind w _)
  have q3 : ∀ m, d.rlp.tx = some m →
      (deliverSample k node kind w (channelSample k node kind limit w d2)).rlp.tx = some m ∧
      (deliverSample k node kind w (channelSample k node kind limit w d2)).tlf.queue =
        queueAfter node kind limit x d w := by
    intro m hm
    obtain ⟨b1, b2⟩ := t1 m hm
    have hq2 : d2.tlf.queue = d.tlf.queue := by
      rw [hl]
      exact b2
    obtain ⟨c1, c2⟩ := channelSample_queue (node := node) (kind := kind) (limit := limit) w hx2 (m := m) (by
      rw [hl]
      exact b1)
    obtain ⟨e1, e2⟩ := queueHeld_built.deliverSample queueHeld_sqe k node kind w _ m c1
    exact ⟨e1, e2.trans (c2.trans (queueAfter_of hlim hfeat hq2 hcyc w))⟩
  generalize deliverSample k node kind w (channelSample k node kind limit w d2) = d4 at f3 q3 ⊢
  have he := readEcho_echoed k node kind (cellEcho c) d4
  generalize readEcho k node kind (cellEcho c) d4 = e at he ⊢
  have hslc : d2.slc = { d1.slc with satisfied := l } := by rw [hl]
  rw [he.eq]
  exact
    { nodes := f3.nodes.trans ((congrArg Slc.nodes hslc).trans h1.nodes)
      satisfied := fun n => by
        rw [show _ = _ from f3.satisfied]
        refine (s2 n).trans ?_
        rw [h1.satisfied]
        rfl
      channels := by
        rw [show _ = _ from f3.channels]
        show d2.tlf.channels.set k _ = _
        rw [channelAfter_of hlim hfeat, hchan]
      telemetry := q3
      cycle := f3.cycle.trans hcyc
      active := f3.active.trans ((congrArg Slc.active hslc).trans h1.active)
      sending := f3.sending.trans ((congrArg Slc.sending hslc).trans h1.sending)
      counters := ⟨f3.checkErrors.trans ((congrArg Slc.checkErrors hslc).trans h1.checkErrors),
        f3.misplaced.trans ((congrArg Slc.misplaced hslc).trans h1.misplaced),
        f3.retries.trans ((congrArg Slc.retries hslc).trans h1.retries),
        f3.noAcks.trans ((congrArg Slc.noAcks hslc).trans h1.noAcks)⟩ }

theorem complete_queueHeld {d : Part} (h : ∀ node, d.rlp.phase ≠ .passing node) : QueueHeld d (complete d) := by
  rw [complete_calm d h]
  exact queueHeld_built.trans (queueHeld_built.settleAll queueHeld_sqe d) fun _ hm => ⟨hm, rfl⟩

theorem nodeRecord_heard {node n : Nat} {d d' : Part} (h : d'.slc.nodes = (heardNode node d).slc.nodes)
    (h1 : 1 ≤ node) (h2 : node ≤ d.slc.nodes.length) :
    d'.nodeRecord n = if n = node then ⟨.live, some d.slc.cycle⟩ else d.nodeRecord n := by
  unfold Part.nodeRecord
  rw [h]
  by_cases hn : n = node
  · subst hn
    rw [if_neg (by omega), if_pos rfl]
    simp [heardNode, show n - 1 < d.slc.nodes.length by omega]
  · rw [if_neg hn]
    by_cases h0 : n = 0
    · rw [if_pos h0, if_pos h0]
    · rw [if_neg h0, if_neg h0]
      simp only [heardNode]
      rw [List.getElem?_set_ne (by omega)]

/-- Settles O10: the deliveries of the cell and the hand-offs leave the link as the cell made it. -/
theorem cellAccepted : Obligations.CellAccepted := by
  unfold Obligations.CellAccepted
  intro s slot node kind limit q c x hcalm h1 h2 he hx hcrc hq hn hk
  have heff := receiveCell_accepts (d := s.part) he (cellFate_accepts (limit := limit) hcrc hq hn hk)
  have houter := receiveCell_outer slot c s.part
  have htaken : CellTaken slot node kind limit (sampleOf kind q c.value) x s.part (receiveCell slot c s.part) := by
    rw [heff]
    exact acceptCell_taken hx
  have hexec : exec (.cellReceive slot c) s = .next { s with part := complete (receiveCell slot c s.part) } :=
    act_running (receiveCell slot c) s hcalm.1.1
  generalize receiveCell slot c s.part = e at houter htaken hexec
  have hphase : ∀ n, e.rlp.phase ≠ .passing n := by
    rw [houter.phase]
    exact hcalm.2
  have hd := complete_delivered hphase
  have hheld := complete_queueHeld hphase
  have hreq := complete_requestsStand hphase
  have hnodes := hd.nodes.trans htaken.nodes
  have hchannels := hd.channels.trans htaken.channels
  refine ⟨_, hexec, rfl, houter.toTablesStand.trans hd.toTablesStand, houter.toRequestsStand.trans hreq,
    ?_, fun n hn' => ?_, fun n => ?_, fun n hn' => ?_, ?_, fun m hm => ?_, hd.cycle.trans htaken.cycle,
    hd.active.trans htaken.active, hd.sending.trans htaken.sending,
    hd.checkErrors.trans htaken.counters.1, hd.misplaced.trans htaken.counters.2.1,
    hd.retries.trans htaken.counters.2.2.1, hd.noAcks.trans htaken.counters.2.2.2⟩
  · rw [nodeRecord_heard hnodes h1 h2, if_pos rfl]
  · rw [nodeRecord_heard hnodes h1 h2, if_neg hn']
  · rw [show _ = _ from hd.satisfied]
    exact htaken.satisfied n
  · rw [hchannels]
    exact entry_set_ne _ _ hn'
  · rw [hchannels, entry_set_same hx]
    cases sampleOf kind q c.value <;> rfl
  · obtain ⟨hm', htel⟩ := htaken.telemetry m hm
    rw [(hheld m hm').2, htel]
    cases sampleOf kind q c.value <;> rfl

end Sys2Proof.Machine

/-! PROOFS. The load P and the BR_POWER reading (R61, R100, R101). -/

namespace Sys2Proof.Machine

-- One proof after another: proofs that are checked side by side take a thread each.
set_option Elab.async false

/-! ## The load -/

theorem map_eq_range {α β : Type} (l : List (Option α)) (f : Option α → β) :
    l.map f = (List.range l.length).map fun i => f (entry l i) := by
  refine List.ext_getElem (by simp) fun i h1 h2 => ?_
  have hi : i < l.length := by simpa using h1
  simp [entry, hi]

theorem sum_contributions {d : Part} (h : d.bcu.branches.length = 36) (f : Branch → Bool) :
    (d.bcu.branches.map (contributionIf f)).sum = ((List.range 36).map fun b => contributionIf f (d.branch b)).sum := by
  rw [map_eq_range, h]
  rfl

/-- The tiers' contributions make up that of a branch whose tier is one of the eight. -/
theorem sum_tiers {x : Option Branch} (h : ∀ y, x = some y → y.cfg.tier ≤ 7) :
    ((List.range 8).map fun k => contributionIf (fun y => y.cfg.tier == k) x).sum = contributionIf (fun _ => true) x := by
  rcases x with _ | y
  · rfl
  · have ht := h y rfl
    have hk (k : Nat) : contributionIf (fun z => z.cfg.tier == k) (some y) = if y.cfg.tier = k then y.contribution else 0 := by
      simp [contributionIf]
    simp only [hk]
    show _ = y.contribution
    generalize y.contribution = c
    generalize y.cfg.tier = t at ht ⊢
    interval_cases t <;> simp [List.range_succ]

theorem sum_swap {α : Type} (g : Nat → α → Nat) (ks : List Nat) (l : List α) :
    (ks.map fun k => (l.map (g k)).sum).sum = (l.map fun x => (ks.map fun k => g k x).sum).sum := by
  induction l with
  | nil => simp
  | cons x rest ih =>
    simp only [List.map_cons, List.sum_cons, ← ih]
    exact List.sum_map_add

theorem sum_tierLoad {d : Part} (h : ∀ b x, d.branch b = some x → x.cfg.tier ≤ 7) :
    ((List.range 8).map (tierLoad d)).sum = (d.bcu.branches.map (contributionIf fun _ => true)).sum := by
  unfold tierLoad
  rw [sum_swap (fun k => contributionIf fun x => x.cfg.tier == k)]
  refine congrArg List.sum (List.map_congr_left fun x hx => sum_tiers fun y hy => ?_)
  subst hy
  obtain ⟨b, hb, hget⟩ := List.getElem_of_mem hx
  exact h b y (by simp [Part.branch, entry, hb, hget])

theorem Branch.present_eq (x : Branch) : x.present =
    if x.fresh = true ∧ (x.state ≠ .unknown ∨ x.moved = true) then x.reading.getD x.cfg.ratedW else x.cfg.ratedW := by
  unfold Branch.present Branch.counted
  simp

theorem Branch.contribution_eq (x : Branch) : x.contribution = if x.state = .off ∨ x.state = .queued then 0
    else if x.state = .fault ∨ x.holds.shed = false then x.present else 0 := by
  unfold Branch.contribution
  cases x.state <;> cases x.holds.shed <;> simp

/-- SHED takes a branch outside FAULT out of the load. -/
theorem contribution_shed {x : Branch} (h : x.state ≠ .fault) :
    { x with holds := { x.holds with shed := true } }.contribution = 0 := by
  rw [Branch.contribution_eq]
  simp [h]

theorem load_shed {d : Part} {b : Nat} {x : Branch} (hb : d.branch b = some x) (hs : x.state ≠ .fault) :
    load (putBranch b { x with holds := { x.holds with shed := true } } d) =
      max 1 (d.sru.profile.overheadW + (d.bcu.branches.map (contributionIf fun _ => true)).sum - x.contribution) := by
  have h := sum_map_set (contributionIf fun _ => true) d.bcu.branches
    { x with holds := { x.holds with shed := true } } hb
  rw [show contributionIf (fun _ => true) (some { x with holds := { x.holds with shed := true } }) = 0 from
    contribution_shed hs] at h
  have hx : contributionIf (fun _ => true) (some x) = x.contribution := rfl
  show max 1 (d.sru.profile.overheadW + ((d.bcu.branches.set b _).map (contributionIf fun _ => true)).sum) = _
  omega

/-! ## The BR_POWER reading -/

theorem branchAt_of_cfgs {d d' : Part} (h : d'.bcu.branches.map (Option.map Branch.cfg) =
    d.bcu.branches.map (Option.map Branch.cfg)) (node : Nat) : d'.branchAt node = d.branchAt node := by
  have at' (e : Part) : e.branchAt node = (e.bcu.branches.map (Option.map Branch.cfg)).findIdx? fun c =>
      match c with
      | some x => x.node == node
      | none => false := by
    unfold Part.branchAt
    rw [List.findIdx?_map]
    refine congrArg (fun p => List.findIdx? p e.bcu.branches) (funext fun x => ?_)
    cases x <;> rfl
  rw [at', at', h]

/-- The power reading of a branch and its freshness. -/
def Branch.powerView (x : Branch) : Option Nat × Bool := (x.reading, x.fresh)

theorem hearNode_power (node n : Nat) (d : Part) :
    ((hearNode node d).branch n).map Branch.powerView = (d.branch n).map Branch.powerView := by
  have sourced (e : Part) (h : Sourced e (hearNode node d))
      (he : (e.branch n).map Branch.powerView = (d.branch n).map Branch.powerView) :
      ((hearNode node d).branch n).map Branch.powerView = (d.branch n).map Branch.powerView := by
    refine Eq.trans ?_ he
    have hv : (hearNode node d).bcu.branches.map (Option.map Branch.powerView) =
        e.bcu.branches.map (Option.map Branch.powerView) :=
      map_view (u := Branch.sourceView) (fun v => (v.2.2.2.2.2.1, v.2.2.2.2.2.2)) h.views
    unfold Part.branch
    rw [entry_map, entry_map, hv]
  unfold hearNode at sourced ⊢
  simp only at sourced ⊢
  split
  · rfl
  · rename_i ho
    rw [ho] at sourced
    exact sourced (heardNode node d) (deriveModules_sourced _) rfl
  · rename_i ho
    rw [ho] at sourced
    refine sourced (post .nodeLive (some node) none (heardNode node d)) (deriveModules_sourced _) ?_
    rw [branch_of_bcu (congrArg Bcu.branches (post_uplinked _ _ _ _).bcu)]
    rfl

theorem readEcho_power (k node : Nat) (e : BitVec 2) (d : Part) : readEcho k node .brPower e d = d := rfl

/-- A BR_POWER sample that is not GOOD leaves the readings. -/
theorem acceptCell_power_same {k node n : Nat} {limit : Option Nat} {q : Quality} {c : InCell} {d : Part}
    (h : ∀ v, sampleOf .brPower q c.value ≠ .good v) :
    ((acceptCell k node .brPower limit q c d).branch n).map Branch.powerView = (d.branch n).map Branch.powerView := by
  have hd : acceptCell k node .brPower limit q c d = hearNode node d := by
    unfold acceptCell
    rw [readEcho_power]
    rcases hw : sampleOf .brPower q c.value with v | _ | _
    · exact absurd hw (h v)
    · rfl
    · rfl
  rw [hd, hearNode_power]

/-- A GOOD BR_POWER sample sets the reading of its branch, and the freshness that its class gives. -/
theorem acceptCell_power {k node b : Nat} {limit : Option Nat} {q : Quality} {c : InCell} {d : Part} {v : Int}
    {x : ChannelState} {y : Branch} (hw : sampleOf .brPower q c.value = .good v)
    (hx : entry d.tlf.channels k = some x) (hb : d.branchAt node = some b) (hy : d.branch b = some y) :
    ((acceptCell k node .brPower limit q c d).branch b).map Branch.powerView = some (some v.toNat,
      (channelAfter .brPower limit x d (.good v)).cls != .stale &&
      (channelAfter .brPower limit x d (.good v)).cls != .unseen) := by
  have houter := (hearNode_outer node d).trans ((noteSatisfied_outer k (.good v) _).trans
    (channelSample_outer k node .brPower limit (.good v) _))
  have hchan := (acceptCell_taken (node := node) (kind := .brPower) (limit := limit) (q := q) (c := c) hx).channels
  unfold acceptCell at hchan ⊢
  rw [readEcho_power] at hchan ⊢
  rw [hw] at hchan ⊢
  generalize channelSample k node .brPower limit (.good v) (noteSatisfied k (.good v) (hearNode node d)) = e
    at houter hchan ⊢
  have hbe : e.branchAt node = some b := (branchAt_of_cfgs houter.cfgs node).trans hb
  have hbr : (e.branch b).map Branch.cfg = some y.cfg := by
    unfold Part.branch at hy ⊢
    rw [entry_map, houter.cfgs, ← entry_map, hy]
    rfl
  obtain ⟨z, hz, -⟩ := Option.map_eq_some_iff.mp hbr
  have hcls : e.tlf.channels = d.tlf.channels.set k (some (channelAfter .brPower limit x d (.good v))) := by
    have hk : (deliverSample k node .brPower (.good v) e).tlf.channels = e.tlf.channels :=
      (deliverSample_frame k node .brPower (.good v) e).channels
    exact hk.symm.trans hchan
  show ((powerReading node v _ e).branch b).map Branch.powerView = _
  rw [hcls, entry_set_same hx]
  simp only [powerReading, hbe, hz, branch_put hz, if_true]
  rfl

/-- Settles O29: the sum branch by branch, and the reading that the cell brings. -/
theorem loadContributions : Obligations.LoadContributions := by
  unfold Obligations.LoadContributions
  refine ⟨fun d hlen => ?_, ?_⟩
  · have hadds (f : Branch → Bool) := sum_contributions hlen f
    have hif (f : Branch → Bool) (e : Option Branch) : contributionIf f e = (match e with
        | some x => if f x then (if x.state = .off ∨ x.state = .queued then 0
          else if x.state = .fault ∨ x.holds.shed = false then
            (if x.fresh = true ∧ (x.state ≠ .unknown ∨ x.moved = true) then x.reading.getD x.cfg.ratedW
              else x.cfg.ratedW) else 0) else 0
        | none => 0) := by
      rcases e with _ | x
      · rfl
      · simp only [contributionIf, Branch.contribution_eq, Branch.present_eq]
    simp only [hif] at hadds
    refine ⟨?_, fun k => hadds _, fun ht => ?_, fun b x _ hb hf hs => ?_⟩
    · exact congrArg (fun n => max 1 (d.sru.profile.overheadW + n)) (hadds fun _ => true)
    · rw [sum_tierLoad ht]
      rfl
    · rw [load_shed hb hf, Branch.contribution_eq, Branch.present_eq]
      exact congrArg (fun n => max 1 (d.sru.profile.overheadW + n - _)) (hadds fun _ => true)
  · intro s slot node b limit q c x y hcalm h1 h2 he hx hcrc hq hn hk hb hy
    have heff := receiveCell_accepts (d := s.part) he (cellFate_accepts (limit := limit) hcrc hq hn hk)
    have houter := receiveCell_outer slot c s.part
    have hexec : exec (.cellReceive slot c) s = .next { s with part := complete (receiveCell slot c s.part) } :=
      act_running (receiveCell slot c) s hcalm.1.1
    rw [heff] at houter hexec
    have hphase : ∀ n, (acceptCell slot node .brPower limit q c s.part).rlp.phase ≠ .passing n := by
      rw [houter.phase]
      exact hcalm.2
    have hd := complete_delivered hphase
    have hviews := hd.branch_view b
    have hpower {w : Option Nat × Bool} (h : ((acceptCell slot node .brPower limit q c s.part).branch b).map
        Branch.powerView = some w) : ∃ z, (complete (acceptCell slot node .brPower limit q c s.part)).branch b = some z ∧
          z.reading = w.1 ∧ z.fresh = w.2 := by
      have hv := congrArg (Option.map fun v => v.2.2.2) hviews
      rw [Option.map_map, Option.map_map] at hv
      obtain ⟨z, hz, hzw⟩ := Option.map_eq_some_iff.mp (hv.trans h)
      exact ⟨z, hz, congrArg Prod.fst hzw, congrArg Prod.snd hzw⟩
    have hgood : sampleOf .brPower .good c.value = .good (max 0 c.value.toInt) := rfl
    have hother (hne : q ≠ .good) : ∀ v, sampleOf .brPower q c.value ≠ .good v := by
      cases q
      case good => exact absurd rfl hne
      all_goals exact fun _ h => by cases h
    by_cases hqg : q = .good
    · subst hqg
      obtain ⟨z, hz, hr, hf⟩ := hpower (acceptCell_power (limit := limit) hgood hx hb hy)
      refine ⟨_, z, hexec, hz, hr, fun h => absurd rfl h,
        fun _ => ⟨channelAfter .brPower limit x s.part (.good (max 0 c.value.toInt)), ?_, ?_⟩⟩
      · rw [hd.channels, (acceptCell_taken hx).channels, hgood]
        exact entry_set_same hx
      · rw [hf]
        simp
    · have hpv := acceptCell_power_same (k := slot) (node := node) (n := b) (limit := limit) (d := s.part) (hother hqg)
      rw [hy] at hpv
      obtain ⟨z, hz, hr, hf⟩ := hpower hpv
      refine ⟨_, z, hexec, hz, ?_, fun _ => hf, fun h => absurd h hqg⟩
      rw [hr]
      split
      · rename_i v hv
        exact absurd hv (hother hqg v)
      · rfl

end Sys2Proof.Machine

/-! PROOFS. The acknowledgement of a control by a status-channel cell (R19, R20). -/

namespace Sys2Proof.Machine

-- One proof after another: proofs that are checked side by side take a thread each.
set_option Elab.async false

/-- The echo acknowledges the control that the record awaits (R19). -/
abbrev acknowledges (k j : Nat) (echo : BitVec 2) (r : OutRecord) : Prop :=
  echo = r.seq ∧ (r.firstSent = false ∨ j < k)

/-- A record whose control is acknowledged: no outcome is owed where the staged value is the live one. -/
def OutRecord.settled (r : OutRecord) : OutRecord :=
  { r with awaiting := false, owed := r.owed && !(r.staged == r.live) }

/-- A record after the echo of a status cell in slot `k` (R19, R20). -/
def echoedRecord (k j : Nat) (echo : BitVec 2) (r : OutRecord) : OutRecord :=
  if r.awaiting then if acknowledges k j echo r then r.settled else r else { r with seq := echo }

theorem tellWriter_told (r : OutRecord) (node : Nat) (o : Delivery) (d : Part) :
    tellWriter r node o d = { d with agenda := d.agenda ++ r.told node o } := by
  unfold tellWriter OutRecord.told
  rcases r.owed <;> rcases r.lastWriter <;> simp [signal]

theorem echoRecord_heard {k j node : Nat} {echo : BitVec 2} {r : OutRecord} (ha : r.awaiting = true)
    (hh : acknowledges k j echo r) (d : Part) : echoRecord k j node echo r d = { d with
      slc := { d.slc with out := d.slc.out.set j (some r.settled) }
      agenda := d.agenda ++ (if r.staged = r.live then r.told node .ack else []) } := by
  unfold echoRecord
  rw [if_pos ha, if_pos hh]
  unfold OutRecord.settled
  split
  · rename_i h
    rw [tellWriter_told]
    simp [putOut, h]
  · rename_i h
    have hb : (r.staged == r.live) = false := beq_eq_false_iff_ne.mpr h
    simp [putOut, hb]

section
variable {k j node : Nat} {echo : BitVec 2} {r : OutRecord} {d : Part} (hr : entry d.slc.out j = some r)
include hr

/-- An echo touches the record of its slot and what is due alone; where it acknowledges nothing, nobody is told. -/
theorem echoRecord_eq : ∃ l, (∀ s ∈ l, ∃ w b, s = Signal.outcome w b node .ack) ∧ l.length ≤ 1 ∧
    echoRecord k j node echo r d = { d with
      slc := { d.slc with out := d.slc.out.set j (some (echoedRecord k j echo r)) }, agenda := d.agenda ++ l } := by
  have told : ∀ s ∈ r.told node .ack, ∃ w b, s = Signal.outcome w b node .ack := by
    unfold OutRecord.told
    split <;> simp
  have length : (r.told node .ack).length ≤ 1 := by
    unfold OutRecord.told
    split <;> simp
  unfold echoedRecord
  split
  · rename_i ha
    split
    · rename_i hh
      refine ⟨_, ?_, ?_, echoRecord_heard ha hh d⟩
      · split
        · exact told
        · exact fun _ h => absurd h List.not_mem_nil
      · split
        · exact length
        · exact Nat.zero_le 1
    · rename_i hh
      refine ⟨[], by simp, by simp, ?_⟩
      rw [set_entry_same hr]
      unfold echoRecord
      rw [if_pos ha, if_neg hh]
      simp
  · rename_i ha
    refine ⟨[], by simp, by simp, ?_⟩
    unfold echoRecord
    rw [if_neg ha]
    simp [putOut]

theorem readEcho_status {kind : ChannelKind} (hk : kind.isStatus = true) (hj : d.outSlot node = some j) :
    readEcho k node kind echo d = echoRecord k j node echo r d := by
  unfold readEcho
  rw [if_pos hk, hj]
  simp only [hr]

end

theorem outSlot_of_active {d d' : Part} (h : d'.slc.active = d.slc.active) (node : Nat) :
    d'.outSlot node = d.outSlot node := by
  unfold Part.outSlot Part.findSlot
  rw [h]

/-- What stands of the Outbound Slot records until the echo of a cell is read. -/
theorem beforeEcho_core (k node : Nat) (kind : ChannelKind) (limit : Option Nat) (w : Sample) (d : Part) :
    let e := deliverSample k node kind w (channelSample k node kind limit w (noteSatisfied k w (hearNode node d)))
    e.slc.out.map (Option.map OutRecord.core) = d.slc.out.map (Option.map OutRecord.core) ∧
      e.slc.active = d.slc.active := by
  have h1 := hearNode_frame node d
  obtain ⟨l, hl⟩ := noteSatisfied_eq k w (hearNode node d)
  have h2 : (noteSatisfied k w (hearNode node d)).slc = { (hearNode node d).slc with satisfied := l } := by rw [hl]
  have h3 (e : Part) : (channelSample k node kind limit w e).slc.out.map (Option.map OutRecord.core) =
      e.slc.out.map (Option.map OutRecord.core) ∧ (channelSample k node kind limit w e).slc.active = e.slc.active := by
    rcases hx : entry e.tlf.channels k with _ | x
    · have hsame : channelSample k node kind limit w e = e := by
        cases w with
        | good v => exact goodSample_none hx
        | invalid => rfl
        | sensorFault => rfl
      rw [hsame]
      exact ⟨rfl, rfl⟩
    · have hf := channelSample_frame (node := node) (kind := kind) (limit := limit) w hx
      exact ⟨hf.out, hf.active⟩
  have h4 := deliverSample_frame k node kind w
    (channelSample k node kind limit w (noteSatisfied k w (hearNode node d)))
  obtain ⟨ho, ha⟩ := h3 (noteSatisfied k w (hearNode node d))
  rw [h2] at ho ha
  exact ⟨h4.out.trans (ho.trans h1.out), h4.active.trans (ha.trans h1.active)⟩

theorem echoedRecord_core (k j : Nat) (echo : BitVec 2) (r : OutRecord) : (echoedRecord k j echo r).core =
    if r.awaiting then
      if acknowledges k j echo r then (r.live, r.seq, false, r.cyclesSince, r.retries, r.firstSent)
      else (r.live, r.seq, true, r.cyclesSince, r.retries, r.firstSent)
    else (r.live, echo, false, r.cyclesSince, r.retries, r.firstSent) := by
  unfold echoedRecord
  rcases ha : r.awaiting
  · simp [OutRecord.core]
  · simp only [if_true]
    split <;> simp [OutRecord.core, OutRecord.settled, ha]

/-- The echo reads of a record only what staging does not touch. -/
theorem echoedRecord_core_of {k j : Nat} {echo : BitVec 2} {r r' : OutRecord} (h : r'.core = r.core) :
    (echoedRecord k j echo r').core = (echoedRecord k j echo r).core := by
  simp only [OutRecord.core, Prod.mk.injEq] at h
  obtain ⟨hl, hs, ha, hc, ht, hf⟩ := h
  have hack : acknowledges k j echo r' ↔ acknowledges k j echo r := by
    simp only [acknowledges, hs, hf]
  simp only [echoedRecord_core, hl, hs, ha, hc, ht, hf, hack]

section
variable {s : State} {slot node j : Nat} {kind : ChannelKind} {limit : Option Nat} {q : Quality} {c : InCell}
  {r : OutRecord}

theorem isStatus_of {kind : ChannelKind} (h : kind = .rmStatus ∨ kind = .bmStatus ∨ kind = .brStatus) :
    kind.isStatus = true := by
  rcases h with rfl | rfl | rfl <;> rfl

/-- A status cell that is not GOOD, of a live node, is heard and its echo is read. -/
theorem acceptCell_echo {d : Part} (hk : kind = .rmStatus ∨ kind = .bmStatus ∨ kind = .brStatus)
    (hlive : (d.nodeRecord node).state = .live) (hq : q ≠ .good) :
    acceptCell slot node kind limit q c d = readEcho slot node kind (cellEcho c) (heardNode node d) := by
  have hw : ∀ v, sampleOf kind q c.value ≠ .good v := by
    intro v h
    unfold sampleOf at h
    split at h
    · cases h
    · exact hq rfl
    · cases h
    · cases h
  unfold acceptCell
  rw [hearNode_live hlive]
  rcases h : sampleOf kind q c.value with v | _ | _
  · exact absurd h (hw v)
  all_goals rcases hk with rfl | rfl | rfl <;> rfl

/-- The part once the node of an echo has been heard and the record of its slot has taken the echo. -/
def echoPart (node j : Nat) (r : OutRecord) (d : Part) : Part :=
  { d with slc := { d.slc with
    nodes := d.slc.nodes.set (node - 1) ⟨.live, some d.slc.cycle⟩, out := d.slc.out.set j (some r) } }

theorem receiveCell_echo {d : Part} (he : entry d.slc.active slot = some (.input node kind limit))
    (hfate : cellFate (some (.input node kind limit)) c = .accepted node kind limit q)
    (hk : kind = .rmStatus ∨ kind = .bmStatus ∨ kind = .brStatus) (hlive : (d.nodeRecord node).state = .live)
    (hq : q ≠ .good) (hj : d.outSlot node = some j) (hr : entry d.slc.out j = some r) :
    receiveCell slot c d = echoRecord slot j node (cellEcho c) r (heardNode node d) := by
  rw [receiveCell_accepts he hfate, acceptCell_echo hk hlive hq,
    readEcho_status (d := heardNode node d) hr (isStatus_of hk) hj]

end

/-- A command ends in a part that is quiet and whose lines stand. -/
theorem finished_same {d u : Part} (h : d = { u with agenda := d.agenda }) (hq : u.quiet) (hl : u.linesFollow) :
    refreshLines (quieten d) = u := by
  have hu : quieten d = u := by
    rw [h]
    exact quieten_quiet u hq
  rw [hu, linesFollow_refresh u hl]

theorem deliver_ack_passing {n : Nat} {b : Option Nat} {d : Part} (hp : d.rlp.phase = .passing n)
    (ho : d.rlp.passOutcome = none) (ha : d.agenda = [.outcome .rlp b n .ack]) :
    settleAll d = { d with rlp.passOutcome := some .ack, agenda := [] } := by
  unfold settleAll
  rw [show settleFuel = (settleFuel - 1) + 1 from rfl]
  unfold settle
  rw [ha]
  simp only
  rw [show handle (.outcome .rlp b n .ack) { d with agenda := [] } =
    noteOutcome n .ack { d with agenda := [] } from rfl,
    noteOutcome_waiting (d := { d with agenda := [] }) hp ho, settle_nil _ _ rfl]

/-- An acknowledgement of its own stage answers the NODE PASS that waits (R162). -/
theorem complete_acked {n : Nat} {b : Option Nat} {q : Queued} {u : Part} (hp : u.rlp.phase = .passing n)
    (hu : u.quiet) (hq : u.rlp.requests = [q]) (hd : u.rlp.detail = none) (hl : u.rlp.responses.length < 8) :
    complete { u with agenda := [.outcome .rlp b n .ack] } = answeredBy (Answer.done []) q u := by
  obtain ⟨hag, hout⟩ := hu
  have happ := appendResponse_uplinked (.response ((passAnswer n .ack).response q.tag)) { u with
    rlp := { u.rlp with
      requests := [], phase := .fresh, detail := detailAfter (passAnswer n .ack) q, passOutcome := none }, agenda := [] }
  unfold complete
  rw [deliver_ack_passing (d := { u with agenda := [.outcome .rlp b n .ack] }) hp hout rfl,
    deliverPass_waiting (d := { u with rlp.passOutcome := some .ack, agenda := [] }) hp rfl hq hd hl,
    quieten_quiet _ (happ.quiet ⟨rfl, rfl⟩)]
  unfold answeredBy
  congr 2
  rw [← hout, ← hag]
  rfl

/-- An acknowledgement for another node finds nobody waiting. -/
theorem complete_ack_other {n m : Nat} {b : Option Nat} {u : Part} (hp : u.rlp.phase = .passing n) (hnm : n ≠ m)
    (hu : u.quiet) (hl : u.linesFollow) : complete { u with agenda := [.outcome .rlp b m .ack] } = u := by
  obtain ⟨hag, hout⟩ := hu
  have hidle : ∀ s ∈ [Signal.outcome .rlp b m .ack], Idle { u with agenda := [.outcome .rlp b m .ack] } s := by
    intro s hs l
    rw [List.mem_singleton.mp hs]
    exact noteOutcome_other (d := { u with agenda := l }) (by
      show u.rlp.phase ≠ .passing m
      rw [hp]
      exact fun h => hnm (by injection h))
  unfold complete settleAll
  rw [settle_idle _ hidle (show 1 ≤ settleFuel by decide)]
  have hsame : ({ u with agenda := [] } : Part) = u := by rw [← hag]
  show refreshLines (quieten (deliverPass { u with agenda := [] })) = u
  rw [hsame, deliverPass_none u hout, quieten_quiet u ⟨hag, hout⟩, linesFollow_refresh u hl]

/-- Settles O11: the deliveries leave the record to its echo, and the outcome reaches the NODE PASS that waits. -/
theorem statusCellAcknowledges : Obligations.StatusCellAcknowledges := by
  unfold Obligations.StatusCellAcknowledges
  intro s slot node j kind limit q c r hcalm he hkind hcrc hq hn hk hj hr
  have hfate := cellFate_accepts (limit := limit) hcrc hq hn hk
  have hst := isStatus_of hkind
  refine ⟨?_, fun hlive hng hlines => ?_, fun ha hh => ⟨echoRecord_heard ha hh, ?_⟩⟩
  · have heff := receiveCell_accepts (d := s.part) he hfate
    have houter := receiveCell_outer slot c s.part
    have hexec : exec (.cellReceive slot c) s = .next { s with part := complete (receiveCell slot c s.part) } :=
      act_running (receiveCell slot c) s hcalm.1.1
    obtain ⟨hcore, hact⟩ := beforeEcho_core slot node kind limit (sampleOf kind q c.value) s.part
    rw [heff] at houter hexec
    unfold acceptCell at houter hexec
    simp only at houter hexec hcore hact
    generalize deliverSample slot node kind (sampleOf kind q c.value) _ = e at houter hexec hcore hact
    have hje : e.outSlot node = some j := (outSlot_of_active hact node).trans hj
    have hre : (entry e.slc.out j).map OutRecord.core = some r.core := by
      rw [entry_map, hcore, ← entry_map, hr]
      rfl
    obtain ⟨r', hr', hrc⟩ := Option.map_eq_some_iff.mp hre
    have hphase : ∀ n, (readEcho slot node kind (cellEcho c) e).rlp.phase ≠ .passing n := by
      rw [houter.phase]
      exact hcalm.2
    have hd := complete_delivered hphase
    obtain ⟨l, -, -, heq⟩ := echoRecord_eq (k := slot) (node := node) (echo := cellEcho c) hr'
    have hout : (readEcho slot node kind (cellEcho c) e).slc.out =
        e.slc.out.set j (some (echoedRecord slot j (cellEcho c) r')) := by
      rw [readEcho_status hr' hst hje, heq]
    have hend (k : Nat) : (entry (complete (readEcho slot node kind (cellEcho c) e)).slc.out k).map OutRecord.core =
        (entry (e.slc.out.set j (some (echoedRecord slot j (cellEcho c) r'))) k).map OutRecord.core := by
      rw [entry_map, hd.out, ← entry_map, hout]
    refine ⟨_, hexec, fun k hkj => ?_, ?_⟩
    · rw [hend, entry_set_ne _ _ hkj, entry_map, hcore, ← entry_map]
    · rw [hend, entry_set_same hr', Option.map_some, echoedRecord_core_of hrc, echoedRecord_core]
      rfl
  · obtain ⟨l, hl, hlen, heq⟩ := echoRecord_eq (k := slot) (node := node) (echo := cellEcho c)
      (d := heardNode node s.part) hr
    have heff : receiveCell slot c s.part =
        { echoPart node j (echoedRecord slot j (cellEcho c) r) s.part with agenda := l } := by
      rw [receiveCell_echo he hfate hkind hlive hng hj hr, heq,
        show (heardNode node s.part).agenda = [] from hcalm.1.2.1]
      rfl
    refine (act_running (receiveCell slot c) s hcalm.1.1).trans ?_
    rw [heff, complete_idle (d := { echoPart node j (echoedRecord slot j (cellEcho c) r) s.part with agenda := l })
      hcalm.2 (fun x hx => ?_) (hlen.trans (by decide)),
      finished_same (u := echoPart node j (echoedRecord slot j (cellEcho c) r) s.part) rfl hcalm.1.2 hlines]
    · rfl
    · obtain ⟨w, b, rfl⟩ := hl x hx
      exact idle_ack (d := { echoPart node j (echoedRecord slot j (cellEcho c) r) s.part with agenda := l })
        hcalm.2 w b node
  · intro p n pass hp hlive hng hlen ho hw hs
    have hpass : p.rlp.phase = .passing n := by rw [hp]
    have hreq : p.rlp.requests = [pass] := by rw [hp]
    have hdet : p.rlp.detail = none := by rw [hp]
    have hslc : p.slc = s.part.slc := by rw [hp]
    have hres : p.lines.resetIn = false := by rw [hp]; exact hcalm.1.1
    have hag : p.agenda = [] := by rw [hp]; exact hcalm.1.2.1
    have hpo : p.rlp.passOutcome = none := by rw [hp]; exact hcalm.1.2.2
    have heff : receiveCell slot c p =
        { echoPart node j r.settled p with agenda := [.outcome .rlp r.forBranch node .ack] } := by
      rw [receiveCell_echo (by rw [hslc]; exact he) hfate hkind hlive hng (by rw [outSlot_of_active (congrArg _ hslc)]; exact hj)
        (by rw [hslc]; exact hr), echoRecord_heard (echo := cellEcho c) ha hh, show (heardNode node p).agenda = [] from hag, if_pos hs]
      unfold OutRecord.told
      rw [ho, hw]
      rfl
    refine ⟨fun hnn => ?_, fun hnn hlines => ?_⟩
    · subst hnn
      refine (act_running (receiveCell slot c) { s with part := p } hres).trans ?_
      rw [heff, complete_acked (u := echoPart n j r.settled p) hpass ⟨hag, hpo⟩ hreq hdet hlen]
      rfl
    · refine (act_running (receiveCell slot c) { s with part := p } hres).trans ?_
      rw [heff, complete_ack_other (u := echoPart node j r.settled p) hpass hnn ⟨hag, hpo⟩ hlines]
      rfl

end Sys2Proof.Machine

/-! PROOFS. SEQUENCE SUSPEND, SEQUENCE RESUME and SEQUENCE ABORT (R129, R132), and what of a branch the output rule and
an admission attempt leave. -/

namespace Sys2Proof.Machine

-- One proof after another: proofs that are checked side by side take a thread each.
set_option Elab.async false

/-! ## What of a branch only a request changes -/

/-- The fields of a branch that neither the output rule nor an attempt touches. -/
def Branch.lasting (x : Branch) : BranchCfg × Demands × Holds × Option Nat × Bool × Option Nat × Bool :=
  (x.cfg, x.demands, x.holds, x.reading, x.fresh, x.enrolling, x.moved)

/-- Of the branches only states, timers and what FAULT was found in changed. -/
def Restated (d d' : Part) : Prop :=
  d'.bcu.branches.map (Option.map Branch.lasting) = d.bcu.branches.map (Option.map Branch.lasting)

namespace Restated
variable {a d e : Part}

theorem refl (d : Part) : Restated d d := rfl

theorem trans (h : Restated a d) (g : Restated d e) : Restated a e := Eq.trans g h

theorem of_bcu (h : e.bcu = d.bcu) : Restated d e := by
  unfold Restated
  rw [h]

theorem branch (h : Restated d e) (b : Nat) : (e.branch b).map Branch.lasting = (d.branch b).map Branch.lasting := by
  unfold Part.branch
  rw [entry_map, entry_map, h]

theorem putBranch {b : Nat} {x y : Branch} (hx : d.branch b = some x) (h : y.lasting = x.lasting) :
    Restated d (putBranch b y d) := by
  show (d.bcu.branches.set b (some y)).map (Option.map Branch.lasting) = _
  exact map_set_same _ _ _ x _ hx (by simp [h])

theorem signalOnce (s : Signal) (d : Part) : Restated d (signalOnce s d) := .of_bcu (signalOnce_bcu s d)

theorem setQueue (q : List Nat) (d : Part) : Restated d (setQueue q d) := by
  unfold Restated
  rw [setQueue_branches]

theorem noteLoad (n : Nat) (d : Part) : Restated d (noteLoad n d) := .of_bcu (noteLoad_bcu n d)

theorem stage (w : Writer) (b : Option Nat) (n : Nat) (v : Word) (d : Part) : Restated d (stage w b n v d).1 :=
  .of_bcu (stage_bcu w b n v d)

theorem post (k : EventKind) (s v : Option Nat) (d : Part) : Restated d (post k s v d) :=
  .of_bcu (post_uplinked k s v d).bcu

theorem faultBranch (c : BranchCause) (b : Nat) (d : Part) : Restated d (faultBranch c b d) := by
  unfold Machine.faultBranch
  split
  · exact refl d
  · rename_i x hx
    simp only
    have h1 : Restated d (leaveQueue b (Machine.putBranch b
        { x with state := .fault, timer := .stopped, foundFaulted := decide (x.state = .unknown) } d)) :=
      (Restated.putBranch (y := { x with
        state := .fault, timer := .stopped, foundFaulted := decide (x.state = .unknown) }) hx rfl).trans (setQueue _ _)
    generalize leaveQueue b _ = f at h1 ⊢
    have h2 : Restated d (if x.state = .unknown then f else (Machine.stage .bcu (some b) x.cfg.node ctlOff f).1) := by
      split
      · exact h1
      · exact h1.trans (stage _ _ _ _ f)
    refine h2.trans (Restated.trans ?_ (signalOnce _ _))
    exact (of_bcu (noteFaulted_bcu _ _ _)).trans (post _ _ _ _)

theorem stageBranch (b : Nat) (v : Word) (d : Part) : Restated d (stageBranch b v d) := by
  unfold Machine.stageBranch
  split
  · exact refl d
  · rename_i x _
    have h := stage .bcu (some b) x.cfg.node v d
    split <;> (rename_i he; rw [he] at h)
    · split
      · exact h
      · exact h.trans (faultBranch _ _ _)
    · exact h

theorem stopBranch (b : Nat) (d : Part) : Restated d (stopBranch b d) := by
  unfold Machine.stopBranch
  split
  · exact refl d
  · rename_i x hx
    simp only
    refine Restated.trans ?_ (stageBranch _ _ _)
    refine Restated.trans ?_ (signalOnce _ _)
    refine Restated.trans ?_ (noteLoad _ _)
    exact putBranch hx rfl

theorem enqueueBack (b : Nat) (d : Part) : Restated d (enqueueBack b d) := by
  unfold Machine.enqueueBack
  split
  · exact refl d
  · rename_i x hx
    refine Restated.trans ?_ (signalOnce _ _)
    refine Restated.trans ?_ (setQueue _ _)
    exact putBranch hx rfl

theorem queueIfWanted (b : Nat) (d : Part) : Restated d (queueIfWanted b d) := by
  unfold Machine.queueIfWanted
  split
  · exact refl d
  · split
    · exact enqueueBack b d
    · exact refl d

/-- The output rule leaves of the branch what the change gave it. -/
theorem applyOutput {b : Nat} {x : Branch} (hx : d.branch b = some x) (y : Branch) :
    Restated (Machine.putBranch b y d) (applyOutput b x y d) := by
  have hput (z : Branch) : (Machine.putBranch b z d).branch b = some z := putBranch_branch b x z d hx
  have noted : Restated (Machine.putBranch b y d) (Machine.signalOnce .branches (Machine.putBranch b y d)) := signalOnce _ _
  unfold Machine.applyOutput
  split
  · rename_i h
    subst h
    refine of_bcu ?_
    show d.bcu = { d.bcu with branches := d.bcu.branches.set b (some x) }
    rw [set_entry_same hx]
  · simp only
    split
    · split
      · refine noted.trans ?_
        refine Restated.trans ?_ (setQueue _ _)
        refine putBranch (x := y) ?_ rfl
        rw [branch_of_bcu (congrArg Bcu.branches (signalOnce_bcu _ _))]
        exact hput y
      · exact noted.trans (stopBranch _ _)
      · exact noted.trans (stopBranch _ _)
      · exact noted
    · exact noted.trans (queueIfWanted _ _)

theorem attempt (d : Part) : Restated d (attempt d) := by
  unfold Machine.attempt
  split
  · exact refl d
  · split
    · split
      · exact refl d
      · rename_i x hx
        split
        · rw [admitHead_eq]
          refine Restated.trans ?_ (stageBranch _ _ _)
          unfold admitPrelude
          simp only
          refine Restated.trans ?_ (signalOnce _ _)
          refine Restated.trans (d := leaveQueue _ (Machine.putBranch _ (x.admitted d) d)) ?_ rfl
          exact (putBranch (y := x.admitted d) hx rfl).trans (setQueue _ _)
        · rfl
    · exact refl d

end Restated

/-- A change of a branch leaves of it what the change gave it, and every other branch. -/
theorem changeBranch_lasting {b : Nat} {f : Branch → Branch} {d : Part} {x : Branch} (hx : d.branch b = some x) :
    ((changeBranch b f d).branch b).map Branch.lasting = some (f x).lasting := by
  rw [changeBranch_eq hx, (Restated.applyOutput hx (f x)).branch, putBranch_branch b x _ d hx]
  rfl

/-- Where every branch is changed in turn, each is changed as it stood at first. -/
theorem forBranches_lasting (f : Nat → Branch → Branch) (d : Part) {n : Nat} (hn : n < 36) :
    ((forBranches (fun b => changeBranch b (f b)) d).branch n).map Branch.lasting =
      (d.branch n).map fun x => (f n x).lasting := by
  have below (m : Nat) (k : Nat) : (k < m → (((List.range m).foldl (fun e b => changeBranch b (f b) e) d).branch k).map
        Branch.lasting = (d.branch k).map fun x => (f k x).lasting) ∧
      (m ≤ k → ((List.range m).foldl (fun e b => changeBranch b (f b) e) d).branch k = d.branch k) := by
    induction m with
    | zero => exact ⟨fun h => absurd h (Nat.not_lt_zero k), fun _ => rfl⟩
    | succ m ih =>
      rw [List.range_succ, List.foldl_append, List.foldl_cons, List.foldl_nil]
      generalize (List.range m).foldl (fun e b => changeBranch b (f b) e) d = e at ih ⊢
      have hothers := (Touches.changeBranch (b := m) (f m) e).others k
      refine ⟨fun hk => ?_, fun hk => ?_⟩
      · rcases Nat.lt_succ_iff_lt_or_eq.mp hk with h | h
        · rw [hothers h.ne, ih.1 h]
        · subst h
          have he := ih.2 (Nat.le_refl _)
          rcases hd : d.branch k with _ | x
          · rw [hd] at he
            rw [show changeBranch k (f k) e = e by unfold changeBranch; rw [he], he]
            rfl
          · rw [hd] at he
            rw [changeBranch_lasting he]
            rfl
      · rw [hothers (by omega), ih.2 (by omega)]
  exact (below 36 n).1 hn

/-! ## The hand-offs of a request while no run is under way -/

section
variable {R : Part → Part → Prop} (hrefl : ∀ d, R d d) (htrans : ∀ {a b c}, R a b → R b c → R a c)
  (hdue : ∀ d l, R d { d with agenda := l }) (hattempt : ∀ d, R d (attempt d))
include hrefl htrans hdue hattempt

/-- Where no run is under way, what an attempt keeps is kept by all that is due. -/
theorem settle_parked_keeps (n : Nat) {d : Part} (hu : d.sqe.underWay = false) (hn : Noted d) : R d (settle n d) := by
  induction n generalizing d with
  | zero => exact hrefl d
  | succ n ih =>
    unfold settle
    rcases hd : d.agenda with _ | ⟨s, rest⟩
    · exact hrefl d
    · have hrest : Noted { d with agenda := rest } := by
        obtain ⟨hnd, ha⟩ := hn
        rw [hd] at hnd ha
        exact ⟨(List.nodup_cons.mp hnd).2, fun x hx => ha x (List.mem_cons_of_mem _ hx)⟩
      simp only
      refine htrans (hdue d rest) ?_
      rcases hn.2 s (by simp [hd]) with rfl | rfl
      · refine htrans (hattempt _) (ih ?_ (attempt_noted hrest))
        exact (congrArg Sqe.underWay (parked_built.attempt { d with agenda := rest } hu)).trans hu
      · rw [show handle .branches { d with agenda := rest } = { d with agenda := rest } from
          examine_eq_self (not_running_of_parked (d := { d with agenda := rest }) hu)]
        exact ih (by exact hu) hrest

end

/-- The hand-offs and the answer of a request change of the branches only what an attempt changes. -/
theorem answeredAfter_restated {a : Answer} {q : Queued} {d : Part} (hu : d.sqe.underWay = false) (hn : Noted d) :
    Restated d (answeredAfter a q d) := by
  obtain ⟨h1, hn1⟩ := settleAll_parked hu hn
  have hr := appendResponse_uplinked (.response (a.response q.tag))
    { settleAll d with rlp.requests := [], rlp.phase := .fresh, rlp.detail := detailAfter a q }
  have keeps {d : Part} (hu : d.sqe.underWay = false) (hn : Noted d) : Restated d (settleAll d) :=
    settle_parked_keeps Restated.refl Restated.trans (fun _ _ => rfl) Restated.attempt settleFuel hu hn
  have h2 := keeps (d := appendResponse (.response (a.response q.tag))
    { settleAll d with rlp.requests := [], rlp.phase := .fresh, rlp.detail := detailAfter a q })
    (by rw [hr.sqe]; exact (congrArg Sqe.underWay h1).trans hu) (hn1.of_agenda hr.agenda)
  exact (keeps hu hn).trans ((Restated.of_bcu hr.bcu).trans h2)

/-- An effect that leaves nothing due is answered as it stands. -/
theorem answeredAfter_nothing (a : Answer) (q : Queued) {d : Part} (h : d.agenda = []) : Uplinked { d with
    rlp.requests := [], rlp.phase := .fresh, rlp.detail := detailAfter a q
    rlp.passOutcome := none, lines := (answeredAfter a q d).lines } (answeredAfter a q d) := by
  have hu := appendResponse_uplinked (.response (a.response q.tag))
    { d with rlp.requests := [], rlp.phase := .fresh, rlp.detail := detailAfter a q }
  unfold answeredAfter
  rw [settleAll_nil d h, settleAll_nil _ (hu.agenda.trans h)]
  generalize appendResponse _ _ = e at hu ⊢
  exact ⟨by rw [hu.eq]; simp [quieten, refreshLines, h]⟩

/-! ## Suspend causes -/

theorem setCauses_suspends {c : Causes} {d : Part} (hr : d.sqe.run = .running) (hc : c.any = true) :
    setCauses c d = postStep .runSuspended (some c.code) { d with
      sqe.causes := c, sqe.run := .suspended, sqe.timer := d.sqe.timer.freeze } := by
  unfold setCauses
  rw [if_pos ⟨hr, hc⟩]

theorem setCauses_running {c : Causes} {d : Part} (hr : d.sqe.run = .running) (hc : c.any = false) :
    setCauses c d = { d with sqe.causes := c } := by
  unfold setCauses
  rw [if_neg (by simp [hc]), if_neg (by simp [hr])]

theorem setCauses_held {c : Causes} {d : Part} (hr : d.sqe.run = .suspended) (hc : c.any = true) :
    setCauses c d = { d with sqe.causes := c } := by
  unfold setCauses
  rw [if_neg (by simp [hr]), if_neg (by simp [hc])]

/-- A run without a cause that stands in a DELAY goes on with the remaining time (R129, R130). -/
theorem setCauses_resumes {c : Causes} {d : Part} {e : SeqStep} (hr : d.sqe.run = .suspended) (hc : c.any = false)
    (he : d.sqe.current = some e) (hk : e.kind = .delay) (hp : d.sqe.phase = .active) :
    ∃ p, Uplinked { d with sqe.causes := c, sqe.run := .running } p ∧
      p = postStep .runResumed none { d with sqe.causes := c, sqe.run := .running } ∧
      setCauses c d = { p with sqe.timer := p.sqe.timer.thaw } := by
  have hu := post_uplinked .runResumed (some d.sqe.index) none { d with sqe.causes := c, sqe.run := .running }
  refine ⟨_, hu, rfl, ?_⟩
  unfold setCauses
  rw [if_neg (by simp [hr]), if_pos ⟨hr, hc⟩]
  simp only
  unfold postStep
  simp only
  generalize post .runResumed _ _ _ = p at hu ⊢
  have hsqe : p.sqe = { d.sqe with causes := c, run := .running } := hu.sqe
  rw [if_neg (by simp [hsqe, hp])]
  have hcur : p.sqe.current = some e := by
    rw [hsqe]
    exact he
  unfold examine
  rw [show ({ p with sqe.timer := p.sqe.timer.thaw } : Part).sqe.current = p.sqe.current from rfl, hcur]
  simp only [hk]
  split <;> rfl

/-! ## SEQUENCE ABORT (R132) -/

/-- A branch as an abandoned run leaves it. -/
def Branch.abandoned (x : Branch) : Branch :=
  if x.enrolling = none then x else if x.state = .queued then x.clearSeq else { x with enrolling := none }

/-- The run record of an abandoned run. -/
def Sqe.abandoned (s : Sqe) : Sqe := { s with run := .idle, timer := .stopped, causes := { s.causes with request := false } }

theorem abortRun_eq (d : Part) : abortRun d = forBranches (fun b => changeBranch b Branch.abandoned)
    { d with sqe := d.sqe.abandoned } := rfl

theorem abortRun_sqe (d : Part) : (abortRun d).sqe = d.sqe.abandoned :=
  parked_built.forBranches (fun b => changeBranch b Branch.abandoned) (fun _ _ => parked_built.changeBranch _ _ _)
    { d with sqe := d.sqe.abandoned } rfl

theorem abortRun_noted {d : Part} (h : Noted d) : Noted (abortRun d) :=
  forBranches_change_noted (fun _ => Branch.abandoned) (d := { d with sqe := d.sqe.abandoned }) h

/-! ## The requests of the SQE -/

theorem ifAllowed_true {c : Bool} (f : Part → Part) (d : Part) (h : c = true) : ifAllowed c f d = (f d, Answer.done []) := by
  unfold ifAllowed
  rw [if_pos h]

theorem ifAllowed_false {c : Bool} (f : Part → Part) (d : Part) (h : c = false) :
    ifAllowed c f d = (d, Answer.refuse .notAllowed none none 0) := by
  unfold ifAllowed
  rw [if_neg (by simp [h])]

theorem execRequest_suspend {copy : Option FaultDetail} {d e : Part} {a : Answer} (h : doSuspend d = (e, a)) :
    execRequest copy .sequenceSuspend d = (e, .answer a) := by
  show ((doSuspend d).1, Reply.answer (doSuspend d).2) = _
  rw [h]

theorem execRequest_resume {copy : Option FaultDetail} {d e : Part} {a : Answer} (h : doResume d = (e, a)) :
    execRequest copy .sequenceResume d = (e, .answer a) := by
  show ((doResume d).1, Reply.answer (doResume d).2) = _
  rw [h]

theorem execRequest_abort {copy : Option FaultDetail} {d e : Part} {a : Answer} (h : doAbort d = (e, a)) :
    execRequest copy .sequenceAbort d = (e, .answer a) := by
  show ((doAbort d).1, Reply.answer (doAbort d).2) = _
  rw [h]

theorem underWay_running {s : Sqe} (h : s.run = .running) : s.underWay = true := by
  unfold Sqe.underWay
  simp [h]

theorem underWay_suspended {s : Sqe} (h : s.run = .suspended) : s.underWay = true := by
  unfold Sqe.underWay
  simp [h]

/-- A request whose effect leaves nothing due is answered, and the effect stands. -/
theorem answered_undisturbed {c : Instr} {q : Queued} {a : Answer} {s : State} {d : Part} (hc : request c = some q)
    (hs : s.part.ready) (he : execRequest s.part.rlp.detail q.req (s.part.opened q) = (d, .answer a))
    (hf : Frame (s.part.opened q) d) (h : d.agenda = []) :
    exec c s = .next { s with part := answeredAfter a q d } ∧
      TablesStand s.part (answeredAfter a q d) ∧ LinkStands s.part (answeredAfter a q d) ∧
      (answeredAfter a q d).bcu = d.bcu ∧ (answeredAfter a q d).sru = d.sru ∧
      (answeredAfter a q d).lkm = d.lkm ∧ (answeredAfter a q d).sqe = d.sqe ∧ Answered a q (answeredAfter a q d) ∧
      ∀ e, d.holdsEvent e → (answeredAfter a q d).holdsEvent e := by
  have hu := answeredAfter_nothing a q h
  have hd := answeredAfter_delivered a q d
  exact ⟨exec_settles hc hs d he, TablesStand.trans (b := s.part.opened q) {} (hf.toTablesStand.trans hd.toTablesStand),
    LinkStands.trans (b := s.part.opened q) {} (hf.toLinkStands.trans hd.toLinkStands),
    hu.bcu, hu.sru, hu.lkm, hu.sqe, answeredAfter_answered _ _ _, hd.holds⟩

/-- Settles O32: the refusals, the causes that move the run, and the run that is abandoned. -/
theorem sequenceRequestsAct : Obligations.SequenceRequestsAct := by
  unfold Obligations.SequenceRequestsAct
  refine ⟨fun s tag hs => ⟨fun hr hsus => ?_, fun hsus => ?_, fun hr => ?_⟩, fun s tag hs => ⟨fun h => ?_, fun hi hd => ?_⟩⟩
  · have hu := parked_of hr hsus
    exact ⟨exec_answers_same rfl hs (execRequest_suspend (ifAllowed_false _ _ hu)),
      exec_answers_same rfl hs (execRequest_resume (ifAllowed_false _ _ hu))⟩
  · have hu := underWay_suspended hsus
    have stays (c : Causes) : ({ s.part with sqe.causes := c } : Part).quiet := hs.1.2
    refine ⟨?_, fun hc => ?_, fun hac hleak e he hk hp => ?_⟩
    · refine exec_answers rfl hs { s.part with sqe.causes := { s.part.sqe.causes with request := true } }
        (stays _) hs.2.2 (execRequest_suspend ?_)
      refine (ifAllowed_true _ (s.part.opened _) hu).trans (congrArg (·, Answer.done []) ?_)
      exact setCauses_held (d := s.part.opened _) hsus (by simp [Causes.any])
    · refine exec_answers rfl hs { s.part with sqe.causes := { s.part.sqe.causes with request := false } }
        (stays _) hs.2.2 (execRequest_resume ?_)
      refine (ifAllowed_true _ (s.part.opened _) hu).trans (congrArg (·, Answer.done []) ?_)
      exact setCauses_held (d := s.part.opened _) hsus (by
        rcases hc with h | h <;> simp [Causes.any, Part.opened, h])
    · obtain ⟨p, hu', hpost, heff⟩ := setCauses_resumes (c := { s.part.sqe.causes with request := false })
        (d := s.part.opened ⟨tag, .sequenceResume⟩) (e := e) hsus (by simp [Causes.any, hac, hleak]) he hk hp
      have hset := setCauses_settled { s.part.sqe.causes with request := false }
        (s.part.opened ⟨tag, .sequenceResume⟩)
      rw [heff] at hset
      obtain ⟨hexec, htab, hlink, hbcu, hsru, hlkm, hsqe, hans, hholds⟩ := answered_undisturbed
        (c := .sequenceResume tag) rfl hs (execRequest_resume ((ifAllowed_true _ (s.part.opened _) hu).trans
          (congrArg (·, Answer.done []) heff))) hset.toFrame (hu'.agenda.trans hs.1.2.1)
      refine ⟨_, hexec, rfl, htab, hlink, hbcu.trans hu'.bcu, hsru.trans hset.sru, hlkm.trans hset.lkm, hans,
        hsqe.trans ?_, fun hroom => hholds _ ?_⟩
      · show ({ p.sqe with timer := p.sqe.timer.thaw } : Sqe) = _
        rw [show p.sqe = _ from hu'.sqe]
        rfl
      · rw [hpost]
        exact post_holds _ _ _ { s.part.opened ⟨tag, .sequenceResume⟩ with
          sqe.causes := { s.part.sqe.causes with request := false }, sqe.run := .running } hroom
  · have hu := underWay_running hr
    refine ⟨fun hc => ?_, ?_⟩
    · refine exec_answers rfl hs { s.part with sqe := s.part.sqe } hs.1.2 hs.2.2 (execRequest_resume ?_)
      refine (ifAllowed_true _ (s.part.opened _) hu).trans (congrArg (·, Answer.done []) ?_)
      refine (setCauses_running (d := s.part.opened ⟨tag, .sequenceResume⟩) hr (by
        simp [Causes.any, Part.opened, hc])).trans ?_
      rw [show ({ (s.part.opened ⟨tag, .sequenceResume⟩).sqe.causes with request := false } : Causes) =
        s.part.sqe.causes by simp [Part.opened, hc]]
      rfl
    · have heff := setCauses_suspends (c := { s.part.sqe.causes with request := true })
        (d := s.part.opened ⟨tag, .sequenceSuspend⟩) hr (by simp [Causes.any])
      have hu' := post_uplinked .runSuspended (some s.part.sqe.index)
        (some ({ s.part.sqe.causes with request := true } : Causes).code) { s.part.opened ⟨tag, .sequenceSuspend⟩ with
          sqe.causes := { s.part.sqe.causes with request := true }, sqe.run := .suspended
          sqe.timer := s.part.sqe.timer.freeze }
      have hset := setCauses_settled { s.part.sqe.causes with request := true }
        (s.part.opened ⟨tag, .sequenceSuspend⟩)
      rw [heff] at hset
      obtain ⟨hexec, htab, hlink, hbcu, hsru, hlkm, hsqe, hans, hholds⟩ := answered_undisturbed
        (c := .sequenceSuspend tag) rfl hs (execRequest_suspend ((ifAllowed_true _ (s.part.opened _) hu).trans
          (congrArg (·, Answer.done []) heff))) hset.toFrame (hu'.agenda.trans hs.1.2.1)
      refine ⟨_, hexec, rfl, htab, hlink, hbcu.trans hu'.bcu, hsru.trans hset.sru, hlkm.trans hset.lkm, hans,
        hsqe.trans hu'.sqe, fun hroom => hholds _ ?_⟩
      exact post_holds _ _ _ { s.part.opened ⟨tag, .sequenceSuspend⟩ with
        sqe.causes := { s.part.sqe.causes with request := true }, sqe.run := .suspended
        sqe.timer := s.part.sqe.timer.freeze } hroom
  · refine exec_answers_same rfl hs (execRequest_abort (ifAllowed_false _ _ ?_))
    unfold Sqe.underWay
    rcases h with h | h <;> simp [Part.opened, h]
  · have hex : execRequest s.part.rlp.detail .sequenceAbort (s.part.opened ⟨tag, .sequenceAbort⟩) = _ :=
      execRequest_abort (ifAllowed_true _ _ (by
        unfold Sqe.underWay
        rw [show (s.part.opened ⟨tag, .sequenceAbort⟩).sqe = s.part.sqe from rfl]
        rcases hrun : s.part.sqe.run <;> simp_all))
    have hset := abortRun_settled (s.part.opened ⟨tag, .sequenceAbort⟩)
    have hsqe := abortRun_sqe (s.part.opened ⟨tag, .sequenceAbort⟩)
    have hn := abortRun_noted (d := s.part.opened ⟨tag, .sequenceAbort⟩) (noted_of_nil hs.1.2.1)
    have hu : (abortRun (s.part.opened ⟨tag, .sequenceAbort⟩)).sqe.underWay = false := by
      rw [hsqe]
      rfl
    have hd' := answeredAfter_delivered (Answer.done []) ⟨tag, .sequenceAbort⟩
      (abortRun (s.part.opened ⟨tag, .sequenceAbort⟩))
    refine ⟨_, exec_settles rfl hs _ hex, rfl,
      TablesStand.trans (b := s.part.opened ⟨tag, .sequenceAbort⟩) {} (hset.toTablesStand.trans hd'.toTablesStand),
      LinkStands.trans (b := s.part.opened ⟨tag, .sequenceAbort⟩) {} (hset.toLinkStands.trans hd'.toLinkStands),
      hd'.sru.trans hset.sru, hd'.lkm.trans hset.lkm, answeredAfter_answered _ _ _,
      (answeredAfter_parked hu hn).trans hsqe, fun b hb => ?_⟩
    have hl := ((answeredAfter_restated (a := Answer.done []) (q := ⟨tag, .sequenceAbort⟩) hu hn).branch b).trans
      ((congrArg (Option.map Branch.lasting ∘ (Part.branch · b)) (abortRun_eq _)).trans
        (forBranches_lasting (fun _ => Branch.abandoned) _ hb))
    have hv := congrArg (Option.map fun v => (v.1, v.2.1, v.2.2.1, v.2.2.2.2.2.1)) hl
    rw [Option.map_map, Option.map_map] at hv
    refine hv.trans (congrArg (Option.map · (s.part.branch b)) (funext fun x => ?_))
    simp only [Function.comp_apply, Branch.lasting, Branch.abandoned]
    rcases he : x.enrolling with _ | n
    · simp [he]
    · by_cases hq : x.state = .queued <;> simp [hq, Branch.clearSeq]

end Sys2Proof.Machine

/-! PROOFS. The cycle end: the slot-missed notices and the silence tests (R11, R13, R33). -/

namespace Sys2Proof.Machine

-- One proof after another: proofs that are checked side by side take a thread each.
set_option Elab.async false

/-! ## Steps taken one after the other -/

/-- Where step `i` changes item `i` alone, by `φ i`, and keeps `P`, the first `m` steps change the first `m` items. -/
theorem foldl_items {α : Type} {get : Part → Nat → α} {f : Part → Nat → Part} {P : Part → Prop} {φ : Nat → α → α}
    (hf : ∀ i e, P e → P (f e i) ∧ ∀ n, get (f e i) n = if n = i then φ i (get e i) else get e n)
    {d : Part} (hd : P d) (m : Nat) : P ((List.range m).foldl f d) ∧
      ∀ n, get ((List.range m).foldl f d) n = if n < m then φ n (get d n) else get d n := by
  induction m with
  | zero => exact ⟨hd, fun n => rfl⟩
  | succ m ih =>
    obtain ⟨hP, hget⟩ := ih
    rw [List.range_succ, List.foldl_append, List.foldl_cons, List.foldl_nil]
    obtain ⟨hP', hm⟩ := hf m _ hP
    refine ⟨hP', fun n => ?_⟩
    rw [hm n]
    rcases Nat.lt_trichotomy n m with h | h | h
    · rw [if_neg h.ne, if_pos (Nat.lt_succ_of_lt h), hget n, if_pos h]
    · subst h
      rw [if_pos rfl, if_pos (Nat.lt_succ_self n), hget n, if_neg (Nat.lt_irrefl n)]
    · rw [if_neg h.ne', if_neg (by omega), hget n, if_neg (by omega)]

/-! ## What the cycle end leaves of the link -/

/-- Of the link only nodes and channels changed. -/
structure LinkRests (d d' : Part) : Prop where
  cycle : d'.slc.cycle = d.slc.cycle
  active : d'.slc.active = d.slc.active
  satisfied : d'.slc.satisfied = d.slc.satisfied
  sending : d'.slc.sending = d.slc.sending
  checkErrors : d'.slc.checkErrors = d.slc.checkErrors
  misplaced : d'.slc.misplaced = d.slc.misplaced
  retries : d'.slc.retries = d.slc.retries
  noAcks : d'.slc.noAcks = d.slc.noAcks
  out : d'.slc.out.map (Option.map OutRecord.core) = d.slc.out.map (Option.map OutRecord.core)

theorem LinkStands.rests {d d' : Part} (h : LinkStands d d') : LinkRests d d' :=
  ⟨h.cycle, h.active, h.satisfied, h.sending, h.checkErrors, h.misplaced, h.retries, h.noAcks, h.out⟩

theorem LinkRests.trans {a b c : Part} (h : LinkRests a b) (g : LinkRests b c) : LinkRests a c :=
  ⟨g.cycle.trans h.cycle, g.active.trans h.active, g.satisfied.trans h.satisfied, g.sending.trans h.sending,
    g.checkErrors.trans h.checkErrors, g.misplaced.trans h.misplaced, g.retries.trans h.retries,
    g.noAcks.trans h.noAcks, g.out.trans h.out⟩

theorem LinkRests.refl (d : Part) : LinkRests d d := ⟨rfl, rfl, rfl, rfl, rfl, rfl, rfl, rfl, rfl⟩

/-! ## The slot-missed notices -/

/-- The record of a channel after a slot-missed notice (R33). -/
def ChannelState.missed (staleLimit : Nat) (x : ChannelState) : ChannelState :=
  if x.cls ≠ .unseen ∧ x.cls ≠ .stale ∧ staleLimit ≤ satInc x.miss then
    { x with cls := .stale, candidate := none, count := 0, miss := satInc x.miss }
  else { x with miss := satInc x.miss }

/-- The record of slot `k` after a cycle end. -/
def noticed (d : Part) (k : Nat) (c : Option ChannelState) : Option ChannelState :=
  match entry d.slc.active k with
  | some (.input _ kind limit) =>
    if k ∈ d.slc.satisfied then c else c.map (ChannelState.missed (paramsOf d kind limit).staleLimit)
  | _ => c

theorem missNotice_frame {k node : Nat} {kind : ChannelKind} {limit : Option Nat} {d : Part} {x : ChannelState}
    (hx : entry d.tlf.channels k = some x) :
    Frame (putChannel k (x.missed (paramsOf d kind limit).staleLimit) d) (missNotice k node kind limit d) := by
  unfold missNotice ChannelState.missed
  rw [hx]
  simp only
  split
  · exact (postClass_settled _ _ _ _ _).toFrame.trans (handClass_frame _ _ _ _ _)
  · exact .refl _

theorem noticeSlot_link (k : Nat) (d : Part) : LinkRests d (noticeSlot k d) ∧
    (noticeSlot k d).slc.nodes = d.slc.nodes ∧ ∀ n, entry (noticeSlot k d).tlf.channels n =
      if n = k then noticed d k (entry d.tlf.channels k) else entry d.tlf.channels n := by
  have same (h : noticed d k (entry d.tlf.channels k) = entry d.tlf.channels k) : LinkRests d d ∧
      d.slc.nodes = d.slc.nodes ∧ ∀ n, entry d.tlf.channels n =
        if n = k then noticed d k (entry d.tlf.channels k) else entry d.tlf.channels n := by
    refine ⟨.refl d, rfl, fun n => ?_⟩
    split
    · rename_i hn
      rw [h, hn]
    · rfl
  unfold noticeSlot
  split
  · rename_i node kind limit he
    split
    · rename_i hs
      refine same ?_
      unfold noticed
      rw [he]
      exact if_pos hs
    · rename_i hs
      have hnot (c : Option ChannelState) :
          noticed d k c = c.map (ChannelState.missed (paramsOf d kind limit).staleLimit) := by
        unfold noticed
        rw [he]
        exact if_neg hs
      rcases hx : entry d.tlf.channels k with _ | x
      · rw [hx] at same
        have hd : missNotice k node kind limit d = d := by
          unfold missNotice
          rw [hx]
        rw [hd]
        exact same (by rw [hnot]; rfl)
      · have hf := missNotice_frame (node := node) (kind := kind) (limit := limit) hx
        refine ⟨?_, hf.nodes, fun n => ?_⟩
        · have hput : LinkRests d (putChannel k (x.missed (paramsOf d kind limit).staleLimit) d) :=
            ⟨rfl, rfl, rfl, rfl, rfl, rfl, rfl, rfl, rfl⟩
          exact hput.trans hf.toLinkStands.rests
        · rw [hf.channels, hnot]
          show entry (d.tlf.channels.set k (some _)) n = _
          split
          · rename_i hn
            rw [hn, entry_set_same hx]
            rfl
          · exact entry_set_ne _ _ ‹_›
  · rename_i hne
    refine same ?_
    unfold noticed
    split
    · rename_i node kind limit he
      exact absurd he (hne node kind limit)
    · rfl

theorem noticed_of {d d' : Part} (h : LinkRests d d') (hl : d'.tlf.limits = d.tlf.limits) (k : Nat)
    (c : Option ChannelState) : noticed d' k c = noticed d k c := by
  have hp (kind : ChannelKind) (limit : Option Nat) := paramsOf_of_limits hl kind limit
  unfold noticed
  simp only [h.active, h.satisfied, hp]

theorem forSlots_eq (f : Nat → Part → Part) (d : Part) :
    forSlots f d = (List.range 96).foldl (fun d k => f k d) d := rfl

/-- The slot-missed notices of one cycle end. -/
theorem notices_link (d : Part) : Outer d (forSlots noticeSlot d) ∧ LinkRests d (forSlots noticeSlot d) ∧
    (forSlots noticeSlot d).slc.nodes = d.slc.nodes ∧ ∀ n, entry (forSlots noticeSlot d).tlf.channels n =
      if n < 96 then noticed d n (entry d.tlf.channels n) else entry d.tlf.channels n := by
  obtain ⟨⟨ho, hr, hn⟩, hget⟩ := foldl_items (get := fun d n => entry d.tlf.channels n)
    (f := fun d k => noticeSlot k d) (P := fun e => Outer d e ∧ LinkRests d e ∧ e.slc.nodes = d.slc.nodes)
    (φ := noticed d) (fun k e ⟨ho, hr, hn⟩ => by
      obtain ⟨hr', hn', hc⟩ := noticeSlot_link k e
      refine ⟨⟨ho.trans (noticeSlot_outer k e), hr.trans hr', hn'.trans hn⟩, fun n => ?_⟩
      rw [hc n, noticed_of hr ho.limits])
    ⟨.refl d, .refl d, rfl⟩ 96
  rw [← forSlots_eq] at ho hr hn hget
  exact ⟨ho, hr, hn, hget⟩

/-! ## The silence tests -/

/-- The record of a node after the silence test (R13). -/
def NodeRecord.tested (now : Cycle) (silence : Nat) (r : NodeRecord) : NodeRecord :=
  if r.isSilent now silence then { r with state := .silent } else r

/-- The part once node `i + 1` is found silent. -/
def silenced (i : Nat) (d : Part) : Part :=
  { d with slc.nodes := d.slc.nodes.set i { d.nodeRecord (i + 1) with state := .silent } }

theorem silenced_rests (i : Nat) (d : Part) : LinkRests d (silenced i d) :=
  ⟨rfl, rfl, rfl, rfl, rfl, rfl, rfl, rfl, rfl⟩

theorem testNode_eq (i : Nat) (d : Part) : testNode (i + 1) d =
    if (d.nodeRecord (i + 1)).isSilent d.slc.cycle d.sru.profile.nodeSilence then
      deriveModules (post .nodeSilent (some (i + 1)) none (silenced i d)) else d := rfl

theorem nodeRecord_succ (d : Part) (i : Nat) :
    d.nodeRecord (i + 1) = (d.slc.nodes[i]?).getD ⟨.unheard, none⟩ := rfl

theorem nodeRecord_silenced {i : Nat} {d : Part} {now : Cycle} {silence : Nat}
    (hs : (d.nodeRecord (i + 1)).isSilent now silence = true) (n : Nat) : (silenced i d).nodeRecord (n + 1) =
      if n = i then { d.nodeRecord (i + 1) with state := .silent } else d.nodeRecord (n + 1) := by
  have hi : i < d.slc.nodes.length := by
    by_contra h
    rw [nodeRecord_succ, List.getElem?_eq_none (by omega)] at hs
    cases hs
  rw [nodeRecord_succ]
  show ((d.slc.nodes.set i _)[n]?).getD _ = _
  split
  · rename_i hn
    rw [hn, List.getElem?_set_self hi]
    rfl
  · rw [List.getElem?_set_ne (Ne.symm ‹_›)]
    rfl

theorem testNode_link (i : Nat) (d : Part) : LinkRests d (testNode (i + 1) d) ∧
    (testNode (i + 1) d).tlf.channels = d.tlf.channels ∧ ∀ n, (testNode (i + 1) d).nodeRecord (n + 1) =
      if n = i then (d.nodeRecord (i + 1)).tested d.slc.cycle d.sru.profile.nodeSilence
      else d.nodeRecord (n + 1) := by
  rw [testNode_eq]
  unfold NodeRecord.tested
  split
  · rename_i hs
    have hf := (post_settled .nodeSilent (some (i + 1)) none (silenced i d)).toFrame.trans
      (deriveModules_sourced _).toFrame
    generalize deriveModules (post .nodeSilent (some (i + 1)) none (silenced i d)) = e at hf ⊢
    refine ⟨(silenced_rests i d).trans hf.toLinkStands.rests, hf.channels, fun n => ?_⟩
    rw [nodeRecord_succ, hf.nodes]
    exact nodeRecord_silenced hs n
  · refine ⟨.refl d, rfl, fun n => ?_⟩
    split
    · rename_i hn
      rw [hn]
    · rfl

/-- A cycle end: the notices, then the silence tests. -/
theorem endCycle_link (d : Part) : LinkRests d (endCycle d) ∧
    (∀ n, entry (endCycle d).tlf.channels n =
      if n < 96 then noticed d n (entry d.tlf.channels n) else entry d.tlf.channels n) ∧
    ∀ n, (endCycle d).nodeRecord (n + 1) = if n < 62 then
      (d.nodeRecord (n + 1)).tested d.slc.cycle d.sru.profile.nodeSilence else d.nodeRecord (n + 1) := by
  obtain ⟨ho, hr, hn, hc⟩ := notices_link d
  have hnode (n : Nat) : (forSlots noticeSlot d).nodeRecord n = d.nodeRecord n := by
    unfold Part.nodeRecord
    rw [hn]
  have heq : endCycle d = (List.range 62).foldl (fun d i => testNode (i + 1) d) (forSlots noticeSlot d) := rfl
  obtain ⟨⟨-, hr', hc'⟩, hget⟩ := foldl_items (get := fun d n => d.nodeRecord (n + 1))
    (f := fun d i => testNode (i + 1) d)
    (P := fun g => Outer d g ∧ LinkRests d g ∧ g.tlf.channels = (forSlots noticeSlot d).tlf.channels)
    (φ := fun _ => NodeRecord.tested d.slc.cycle d.sru.profile.nodeSilence) (fun i g ⟨ho, hr, hc⟩ => by
      obtain ⟨hr', hc', hg⟩ := testNode_link i g
      refine ⟨⟨ho.trans (testNode_outer (i + 1) g), hr.trans hr', hc'.trans hc⟩, fun n => ?_⟩
      rw [hg n, hr.cycle, show g.sru.profile = d.sru.profile from congrArg Prod.fst ho.sruConfig])
    ⟨ho, hr, rfl⟩ 62
  rw [← heq] at hr' hc' hget
  refine ⟨hr', fun n => by rw [hc', hc n], fun n => ?_⟩
  rw [hget n]
  simp only [hnode]

/-- Settles O8: the notices slot by slot and the tests node by node; what is due afterwards leaves the link. -/
theorem cycleEndNoticesAndSilence : Obligations.CycleEndNoticesAndSilence := by
  unfold Obligations.CycleEndNoticesAndSilence
  intro s hcalm hlen hnodes
  have houter := endCycle_outer s.part
  obtain ⟨hrests, hchannels, hrecords⟩ := endCycle_link s.part
  have hexec : exec .cycleEnd s = .next { s with part := complete (endCycle s.part) } :=
    act_running endCycle s hcalm.1.1
  generalize endCycle s.part = e at houter hrests hchannels hrecords hexec
  have hphase : ∀ n, e.rlp.phase ≠ .passing n := by
    rw [houter.phase]
    exact hcalm.2
  have hd := complete_delivered hphase
  have hr := hrests.trans hd.toLinkStands.rests
  refine ⟨_, hexec, rfl, houter.toTablesStand.trans hd.toTablesStand,
    houter.toRequestsStand.trans (complete_requestsStand hphase), hr.cycle, hr.active, hr.satisfied, hr.sending,
    hr.out, ⟨hr.checkErrors, hr.misplaced, hr.retries, hr.noAcks⟩, fun k hk => ?_, fun n h1 h2 => ?_⟩
  · have hck : entry (complete e).tlf.channels k = noticed s.part k (entry s.part.tlf.channels k) := by
      rw [hd.channels, hchannels k, if_pos hk]
    unfold noticed at hck
    split
    · rename_i node kind limit x ha hx
      rw [ha, hx] at hck
      refine hck.trans ?_
      simp only
      split <;> rfl
    · rename_i hne
      rw [hck]
      split
      · rename_i node kind limit ha
        rcases hx : entry s.part.tlf.channels k with _ | x
        · split <;> rfl
        · exact absurd hx (hne node kind limit x ha)
      · rfl
  · obtain ⟨m, rfl⟩ : ∃ m, n = m + 1 := ⟨n - 1, by omega⟩
    have hnr : (complete e).nodeRecord (m + 1) =
        (s.part.nodeRecord (m + 1)).tested s.part.slc.cycle s.part.sru.profile.nodeSilence := by
      rw [nodeRecord_succ, hd.nodes, ← nodeRecord_succ, hrecords m, if_pos (by omega)]
    refine hnr.trans ?_
    obtain ⟨state, heard⟩ := s.part.nodeRecord (m + 1)
    cases state
    case live =>
      rcases heard with _ | h
      · rfl
      · simp only [NodeRecord.tested, NodeRecord.isSilent, decide_eq_true_eq]
    all_goals rfl

end Sys2Proof.Machine

/-! PROOFS. The derived states of the modules, C and the AC conditions (R73 to R79). -/

namespace Sys2Proof.Machine

-- One proof after another: proofs that are checked side by side take a thread each.
set_option Elab.async false

/-! ## C and the AC conditions -/

theorem foldl_max_eq {l : List Nat} {m : Nat} (hm : m ∈ l) (h : ∀ n ∈ l, n ≤ m) : l.foldl max 0 = m := by
  have le (l : List Nat) (a : Nat) (ha : a ≤ m) (hl : ∀ n ∈ l, n ≤ m) : l.foldl max a ≤ m := by
    induction l generalizing a with
    | nil => exact ha
    | cons x rest ih =>
      exact ih (max a x) (max_le ha (hl x (by simp))) fun n hn => hl n (List.mem_cons_of_mem _ hn)
  have start (l : List Nat) (a : Nat) : a ≤ l.foldl max a := by
    induction l generalizing a with
    | nil => exact le_refl a
    | cons x rest ih => exact (le_max_left a x).trans (ih (max a x))
  have ge (l : List Nat) (a : Nat) (n : Nat) (hn : n ∈ l) : n ≤ l.foldl max a := by
    induction l generalizing a with
    | nil => cases hn
    | cons x rest ih =>
      rcases List.mem_cons.mp hn with rfl | hn
      · exact (le_max_right a n).trans (start rest _)
      · exact ih (max a x) hn
  exact Nat.le_antisymm (le l 0 (Nat.zero_le m) h) (ge l 0 m hm)

theorem okRatings_isEmpty_iff {d : Part} : okRatings d = [] ↔ ∀ r ∈ validRects d, r.state ≠ .ok := by
  simp [okRatings, List.filter_eq_nil_iff]

theorem acLost_iff {d : Part} : acLost d = true ↔ d.lines.acfailIn = true ∨ (validRects d ≠ [] ∧ okRatings d = []) := by
  rw [okRatings_isEmpty_iff]
  simp [acLost]

theorem acGood_iff {d : Part} :
    acGood d = true ↔ d.lines.acfailIn = false ∧ d.sru.profile.minRect ≤ (okRatings d).length := by
  simp [acGood]

/-! ## What the derivations read -/

/-- What a derivation reads of a channel. -/
def ChannelState.inputs (c : ChannelState) : ChanClass × Option Int := (c.cls, c.last)

/-- The derived states read the same in both parts. -/
def SameInputs (d d' : Part) : Prop :=
  ∀ node, rectStateOf node d' = rectStateOf node d ∧ battStateOf node d' = battStateOf node d

theorem SameInputs.trans {a b c : Part} (h : SameInputs a b) (g : SameInputs b c) : SameInputs a c :=
  fun n => ⟨(g n).1.trans (h n).1, (g n).2.trans (h n).2⟩

theorem inSlot_some {d : Part} {node k : Nat} {kind : ChannelKind} (h : d.inSlot node kind = some k) :
    ∃ limit, entry d.slc.active k = some (.input node kind limit) := by
  unfold Part.inSlot Part.findSlot at h
  obtain ⟨hk, hp, -⟩ := List.findIdx?_eq_some_iff_getElem.mp h
  rcases he : d.slc.active[k] with _ | e
  · simp [he] at hp
  · rw [he] at hp
    rcases e with ⟨n, kd, l⟩ | n
    · simp only [Bool.and_eq_true, beq_iff_eq] at hp
      obtain ⟨rfl, rfl⟩ := hp
      exact ⟨l, by simp [entry, hk, he]⟩
    · simp at hp

theorem channelOf_of {d d' : Part} (ha : d'.slc.active = d.slc.active)
    (hc : ∀ k node kind limit, entry d.slc.active k = some (.input node kind limit) → kind.isModule = true →
      (entry d'.tlf.channels k).map ChannelState.inputs = (entry d.tlf.channels k).map ChannelState.inputs)
    (node : Nat) {kind : ChannelKind} (hk : kind.isModule = true) :
    (d'.channelOf node kind).map ChannelState.inputs = (d.channelOf node kind).map ChannelState.inputs := by
  have hin : d'.inSlot node kind = d.inSlot node kind := by
    unfold Part.inSlot Part.findSlot
    rw [ha]
  unfold Part.channelOf
  rw [hin]
  rcases hi : d.inSlot node kind with _ | k
  · rfl
  · obtain ⟨limit, he⟩ := inSlot_some hi
    exact hc k node kind limit he hk

/-- The derivations read the nodes, the floor, and class and last value of the channels of their kinds. -/
theorem sameInputs_of {d d' : Part} (hn : d'.slc.nodes = d.slc.nodes) (ha : d'.slc.active = d.slc.active)
    (hf : d'.sru.profile.floor = d.sru.profile.floor)
    (hc : ∀ k node kind limit, entry d.slc.active k = some (.input node kind limit) → kind.isModule = true →
      (entry d'.tlf.channels k).map ChannelState.inputs = (entry d.tlf.channels k).map ChannelState.inputs) :
    SameInputs d d' := by
  intro node
  have hnode : d'.nodeRecord node = d.nodeRecord node := by
    unfold Part.nodeRecord
    rw [hn]
  have channel {kind : ChannelKind} (hk : kind.isModule = true) := channelOf_of ha hc node hk
  have hcls {kind : ChannelKind} (hk : kind.isModule = true) :
      (d'.channelOf node kind).map (·.cls) = (d.channelOf node kind).map (·.cls) := by
    have h := congrArg (Option.map Prod.fst) (channel hk)
    rwa [Option.map_map, Option.map_map] at h
  have hlast {kind : ChannelKind} (hk : kind.isModule = true) : d'.lastOf node kind = d.lastOf node kind := by
    have h := congrArg (fun o => Option.bind o Prod.snd) (channel hk)
    unfold Part.lastOf
    generalize d'.channelOf node kind = c' at h
    generalize d.channelOf node kind = c at h
    rcases c' <;> rcases c <;> exact h
  constructor
  · unfold rectStateOf
    rw [hnode, hcls (kind := .rmInVolt) rfl]
    have h := channel (kind := .rmStatus) rfl
    rcases h1 : d'.channelOf node .rmStatus with _ | c' <;> rcases h2 : d.channelOf node .rmStatus with _ | c <;>
      rw [h1, h2] at h
    · cases h
    · cases h
    · simp only [Option.map_some, Option.some.injEq, ChannelState.inputs, Prod.mk.injEq] at h
      obtain ⟨cls, last, _, _, _, _⟩ := c
      obtain ⟨cls', last', _, _, _, _⟩ := c'
      obtain ⟨rfl, rfl⟩ := h
      rfl
  · unfold battStateOf
    rw [hnode, hlast (kind := .bmStatus) rfl, hf]
    have h := channel (kind := .bmEnergy) rfl
    rcases h1 : d'.channelOf node .bmEnergy with _ | c' <;> rcases h2 : d.channelOf node .bmEnergy with _ | c <;>
      rw [h1, h2] at h
    · cases h
    · cases h
    · simp only [Option.map_some, Option.some.injEq, ChannelState.inputs, Prod.mk.injEq] at h
      obtain ⟨cls, last, _, _, _, _⟩ := c
      obtain ⟨cls', last', _, _, _, _⟩ := c'
      obtain ⟨rfl, rfl⟩ := h
      rfl

theorem sameInputs_of_link {d d' : Part} (hn : d'.slc.nodes = d.slc.nodes) (ha : d'.slc.active = d.slc.active)
    (hf : d'.sru.profile = d.sru.profile) (hc : d'.tlf.channels = d.tlf.channels) : SameInputs d d' :=
  sameInputs_of hn ha (congrArg Profile.floor hf) fun _ _ _ _ _ _ => by rw [hc]

/-! ## What the source state machine leaves of the modules -/

/-- The modules, C and the profile stand. -/
structure ModulesHeld (d d' : Part) : Prop where
  rects : d'.sru.rects = d.sru.rects
  batts : d'.sru.batts = d.sru.batts
  capacity : d'.sru.capacity = d.sru.capacity
  profile : d'.sru.profile = d.sru.profile

theorem ModulesHeld.refl (d : Part) : ModulesHeld d d := ⟨rfl, rfl, rfl, rfl⟩

theorem ModulesHeld.trans {a b c : Part} (h : ModulesHeld a b) (g : ModulesHeld b c) : ModulesHeld a c :=
  ⟨g.rects.trans h.rects, g.batts.trans h.batts, g.capacity.trans h.capacity, g.profile.trans h.profile⟩

theorem ModulesHeld.of_sru {d d' : Part} (h : d'.sru = d.sru) : ModulesHeld d d' :=
  ⟨by rw [h], by rw [h], by rw [h], by rw [h]⟩

theorem modulesHeld_post (k : EventKind) (s v : Option Nat) (d : Part) : ModulesHeld d (post k s v d) :=
  .of_sru (post_uplinked k s v d).sru

theorem modulesHeld_postSru (k : EventKind) (v : Nat) (d : Part) : ModulesHeld d (postSru k v d) :=
  modulesHeld_post k none (some v) d

theorem modulesHeld_capacityRelease (d : Part) : ModulesHeld d (capacityRelease d) := by
  have h := capacityRelease_sru d
  exact ⟨by rw [h], by rw [h], by rw [h], by rw [h]⟩

theorem modulesHeld_beginEpisode (s : SourceState) (d : Part) : ModulesHeld d (beginEpisode s d) := by
  have h := beginEpisode_sru s d
  exact ⟨by rw [h], by rw [h], by rw [h], by rw [h]⟩

theorem modulesHeld_enterOnAc (d : Part) : ModulesHeld d (enterOnAc d) := by
  have h := enterOnAc_sru d
  exact ⟨by rw [h], by rw [h], by rw [h], by rw [h]⟩

theorem modulesHeld_signalOnce (s : Signal) (d : Part) : ModulesHeld d (signalOnce s d) := by
  unfold signalOnce
  split <;> exact ⟨rfl, rfl, rfl, rfl⟩

theorem modulesHeld_examineCapacity (d : Part) : ModulesHeld d (examineCapacity d) := by
  unfold examineCapacity
  repeat' split
  all_goals exact ⟨rfl, rfl, rfl, rfl⟩

theorem modulesHeld_examineAc (d : Part) : ModulesHeld d (examineAc d) := by
  have returns (e : Part) : ModulesHeld e (beginReturn e) := ⟨rfl, rfl, rfl, rfl⟩
  unfold examineAc
  split
  · exact .refl d
  · split
    · exact modulesHeld_beginEpisode _ d
    · exact .refl d
  · split
    · exact returns d
    · exact .refl d
  · split
    · exact returns d
    · exact .refl d
  · split
    · exact .refl d
    · refine ModulesHeld.trans ?_ (modulesHeld_postSru _ _ _)
      exact ⟨rfl, rfl, rfl, rfl⟩

theorem modulesHeld_qualifyIfHeard (d : Part) : ModulesHeld d (qualifyIfHeard d) := by
  unfold qualifyIfHeard qualify
  split
  · simp only
    split
    · refine ModulesHeld.trans ?_ (modulesHeld_postSru _ _ _)
      refine ModulesHeld.trans ?_ (modulesHeld_enterOnAc _)
      exact ⟨rfl, rfl, rfl, rfl⟩
    · refine ModulesHeld.trans ?_ (modulesHeld_beginEpisode _ _)
      refine ModulesHeld.trans ?_ (modulesHeld_postSru _ _ _)
      exact ⟨rfl, rfl, rfl, rfl⟩
  · exact .refl d

theorem capacityOf_of {d d' : Part} (hr : d'.sru.rects = d.sru.rects) (hp : d'.sru.profile = d.sru.profile) :
    capacityOf d' = capacityOf d := by
  unfold capacityOf okRatings validRects
  rw [hr, hp]

/-- C is recomputed, and the modules stand. -/
theorem recomputeCapacity_held (d : Part) :
    ModulesHeld { d with sru.capacity := capacityOf d } (recomputeCapacity d) := by
  unfold recomputeCapacity
  simp only
  split
  · rename_i h
    exact ⟨rfl, rfl, h.symm, rfl⟩
  · refine ModulesHeld.trans ?_ (modulesHeld_examineCapacity _)
    refine ModulesHeld.trans ?_ (modulesHeld_signalOnce _ _)
    split
    · exact modulesHeld_capacityRelease _
    · exact .refl _

/-! ## One derivation -/

/-- A rectifier with the state that is derived for it. -/
def Rectifier.derived (d : Part) (r : Rectifier) : Rectifier := { r with state := rectStateOf r.node d }

/-- A battery with the state that is derived for it. -/
def Battery.derived (d : Part) (r : Battery) : Battery := { r with state := battStateOf r.node d }

theorem deriveRect_none {i : Nat} {d : Part} (h : entry d.sru.rects i = none) : deriveRect i d = d := by
  unfold deriveRect
  rw [h]

theorem deriveBatt_none {i : Nat} {d : Part} (h : entry d.sru.batts i = none) : deriveBatt i d = d := by
  unfold deriveBatt
  rw [h]

section
variable {i : Nat} {d : Part}

theorem deriveRect_same {r : Rectifier} (hr : entry d.sru.rects i = some r) (h : rectStateOf r.node d = r.state) :
    deriveRect i d = d := by
  unfold deriveRect
  rw [hr]
  exact if_pos h

theorem deriveBatt_same {r : Battery} (hr : entry d.sru.batts i = some r) (h : battStateOf r.node d = r.state) :
    deriveBatt i d = d := by
  unfold deriveBatt
  rw [hr]
  exact if_pos h

/-- The part in which a derived state has been taken and is posted. -/
def rectDerived (i : Nat) (r : Rectifier) (d : Part) : Part :=
  { d with sru.rects := d.sru.rects.set i (some (r.derived d)) }

/-- The part in which a derived state has been taken. -/
def battDerived (i : Nat) (r : Battery) (d : Part) : Part :=
  { d with sru.batts := d.sru.batts.set i (some (r.derived d)) }

theorem deriveRect_changes {r : Rectifier} (hr : entry d.sru.rects i = some r) (h : rectStateOf r.node d ≠ r.state) :
    deriveRect i d = examineAc (recomputeCapacity
      (post .rectState (some r.node) (some (rectStateOf r.node d).code) (rectDerived i r d))) := by
  unfold deriveRect
  rw [hr]
  exact if_neg h

theorem deriveBatt_changes {r : Battery} (hr : entry d.sru.batts i = some r) (h : battStateOf r.node d ≠ r.state) :
    deriveBatt i d = post .batteryState (some r.node) (some (battStateOf r.node d).code) (battDerived i r d) := by
  unfold deriveBatt
  rw [hr]
  exact if_neg h

/-- After a derivation that changes a rectifier, its state has been taken and C is that of the rectifiers. -/
theorem deriveRect_held {r : Rectifier} (hr : entry d.sru.rects i = some r) (h : rectStateOf r.node d ≠ r.state) :
    ModulesHeld { rectDerived i r d with sru.capacity := capacityOf (rectDerived i r d) } (deriveRect i d) := by
  rw [deriveRect_changes hr h]
  have hp := modulesHeld_post .rectState (some r.node) (some (rectStateOf r.node d).code) (rectDerived i r d)
  have hc := recomputeCapacity_held (post .rectState (some r.node) (some (rectStateOf r.node d).code) (rectDerived i r d))
  refine ModulesHeld.trans ?_ (hc.trans (modulesHeld_examineAc _))
  exact ⟨hp.rects, hp.batts, capacityOf_of hp.rects hp.profile, hp.profile⟩

end

end Sys2Proof.Machine

/-! PROOFS. The commands that derive the modules: a cell and a cycle end (R74, R76). -/

namespace Sys2Proof.Machine

-- One proof after another: proofs that are checked side by side take a thread each.
set_option Elab.async false

/-! ## EVENT_OVERFLOW -/

/-- EVENT_OVERFLOW does not fall. -/
def OverflowUp (d d' : Part) : Prop := d.rlp.eventOverflow ≤ d'.rlp.eventOverflow

theorem overflowUp_built : Built OverflowUp where
  trans h g := Nat.le_trans h g
  still h := (by rw [h.rlp] : _ = _).le
  post k s v d := post_overflow k s v d
  putBranch _ _ _ := Nat.le_refl _
  emptied _ _ := Nat.le_refl _
  bcu _ _ _ := Nat.le_refl _
  noteFaulted b x d := by
    unfold noteFaulted
    split
    · split <;> exact Nat.le_refl _
    · exact Nat.le_refl _

theorem overflowUp_sqe (d : Part) (q : Sqe) (_ : Advances d.sqe q) : OverflowUp d { d with sqe := q } := Nat.le_refl _

/-! ## What a derivation leaves -/

/-- The fields with which a rectifier was configured. -/
def Rectifier.cfg (r : Rectifier) : Nat × Nat := (r.node, r.ratedW)

/-- From `d` to `d'` the modules have been derived afresh or left: their entries keep the fields with which they were
configured, C is as it was or that of the rectifiers, and a state that changed was posted (R74, R76). -/
structure Rederived (d d' : Part) : Prop where
  cycle : d'.slc.cycle = d.slc.cycle
  profile : d'.sru.profile = d.sru.profile
  rects : ∀ i, (entry d'.sru.rects i).map Rectifier.cfg = (entry d.sru.rects i).map Rectifier.cfg
  batts : ∀ i, (entry d'.sru.batts i).map Battery.node = (entry d.sru.batts i).map Battery.node
  capacity : (d'.sru.rects = d.sru.rects ∧ d'.sru.capacity = d.sru.capacity) ∨ d'.sru.capacity = capacityOf d'
  overflow : OverflowUp d d'
  holds : ∀ e, d.holdsEvent e → d'.holdsEvent e
  rectPosted : NoRecordLost d d' → ∀ i r r', entry d.sru.rects i = some r → entry d'.sru.rects i = some r' →
    r'.state ≠ r.state → d'.holdsEvent ⟨.rectState, some r'.node, some r'.state.code, d'.slc.cycle⟩
  battPosted : NoRecordLost d d' → ∀ i r r', entry d.sru.batts i = some r → entry d'.sru.batts i = some r' →
    r'.state ≠ r.state → d'.holdsEvent ⟨.batteryState, some r'.node, some r'.state.code, d'.slc.cycle⟩

theorem NoRecordLost.split {a b c : Part} (hab : OverflowUp a b) (hbc : OverflowUp b c) (h : NoRecordLost a c) :
    NoRecordLost a b ∧ NoRecordLost b c := by
  obtain ⟨hlt, heq⟩ := h
  unfold OverflowUp at hab hbc
  exact ⟨⟨hlt, by omega⟩, by omega, by omega⟩

namespace Rederived

/-- Where the modules stand, nothing was derived. -/
theorem of_held {d d' : Part} (h : ModulesHeld d d') (hc : d'.slc.cycle = d.slc.cycle) (ho : OverflowUp d d')
    (hh : ∀ e, d.holdsEvent e → d'.holdsEvent e) : Rederived d d' where
  cycle := hc
  profile := h.profile
  rects i := by rw [h.rects]
  batts i := by rw [h.batts]
  capacity := .inl ⟨h.rects, h.capacity⟩
  overflow := ho
  holds := hh
  rectPosted _ i r r' hr hr' hne := by
    rw [h.rects, hr] at hr'
    exact absurd (by rw [Option.some.inj hr']) hne
  battPosted _ i r r' hr hr' hne := by
    rw [h.batts, hr] at hr'
    exact absurd (by rw [Option.some.inj hr']) hne

theorem of_frame {d d' : Part} (h : Frame d d') (hs : d'.sru = d.sru) (ho : OverflowUp d d') : Rederived d d' :=
  .of_held (.of_sru hs) h.cycle ho h.holds

theorem refl (d : Part) : Rederived d d := .of_held (.refl d) rfl (Nat.le_refl _) fun _ h => h

theorem trans {a b c : Part} (h : Rederived a b) (g : Rederived b c) : Rederived a c where
  cycle := g.cycle.trans h.cycle
  profile := g.profile.trans h.profile
  rects i := (g.rects i).trans (h.rects i)
  batts i := (g.batts i).trans (h.batts i)
  capacity := by
    rcases g.capacity with ⟨hr, hc⟩ | hc
    · rcases h.capacity with ⟨hr', hc'⟩ | hc'
      · exact .inl ⟨hr.trans hr', hc.trans hc'⟩
      · exact .inr (hc.trans (hc'.trans (capacityOf_of hr g.profile).symm))
    · exact .inr hc
  overflow := Nat.le_trans h.overflow g.overflow
  holds e he := g.holds e (h.holds e he)
  rectPosted hn i r r' hr hr' hne := by
    obtain ⟨hab, hbc⟩ := hn.split h.overflow g.overflow
    obtain ⟨m, hm, -⟩ := Option.map_eq_some_iff.mp ((h.rects i).trans (congrArg (Option.map _) hr))
    by_cases hsame : r'.state = m.state
    · have hcfg := g.rects i
      rw [hr', hm] at hcfg
      have hnode : r'.node = m.node := congrArg Prod.fst (Option.some.inj hcfg)
      have hp := h.rectPosted hab i r m hr hm (by rw [← hsame]; exact hne)
      rw [hnode, hsame, g.cycle]
      exact g.holds _ hp
    · exact g.rectPosted hbc i m r' hm hr' hsame
  battPosted hn i r r' hr hr' hne := by
    obtain ⟨hab, hbc⟩ := hn.split h.overflow g.overflow
    obtain ⟨m, hm, -⟩ := Option.map_eq_some_iff.mp ((h.batts i).trans (congrArg (Option.map _) hr))
    by_cases hsame : r'.state = m.state
    · have hcfg := g.batts i
      rw [hr', hm] at hcfg
      have hnode : r'.node = m.node := Option.some.inj hcfg
      have hp := h.battPosted hab i r m hr hm (by rw [← hsame]; exact hne)
      rw [hnode, hsame, g.cycle]
      exact g.holds _ hp
    · exact g.battPosted hbc i m r' hm hr' hsame

theorem foldl {f : Part → Nat → Part} (hf : ∀ d i, Rederived d (f d i)) (l : List Nat) (d : Part) :
    Rederived d (l.foldl f d) := foldl_rel refl trans f hf l d

theorem deriveRect (i : Nat) (d : Part) : Rederived d (deriveRect i d) := by
  rcases hr : entry d.sru.rects i with _ | r
  · rw [deriveRect_none hr]
    exact refl d
  by_cases hs : rectStateOf r.node d = r.state
  · rw [deriveRect_same hr hs]
    exact refl d
  have hheld := deriveRect_held hr hs
  have hup : OverflowUp d (Machine.deriveRect i d) := overflowUp_built.driven.powered.deriveRect i d
  have hframe := (deriveRect_sourced i d).toFrame
  have hrects : (Machine.deriveRect i d).sru.rects = d.sru.rects.set i (some (r.derived d)) := hheld.rects
  have hent (n : Nat) : entry (Machine.deriveRect i d).sru.rects n =
      if n = i then some (r.derived d) else entry d.sru.rects n := by
    rw [hrects]
    split
    · rename_i hn
      rw [hn, entry_set_same hr]
    · exact entry_set_ne _ _ ‹_›
  exact
    { cycle := hframe.cycle
      profile := hheld.profile
      rects := fun n => by
        rw [hent]
        split
        · rename_i hn
          rw [hn, hr]
          rfl
        · rfl
      batts := fun n => by rw [show _ = _ from hheld.batts]; rfl
      capacity := .inr (hheld.capacity.trans (capacityOf_of hheld.rects hheld.profile).symm)
      overflow := hup
      holds := hframe.holds
      rectPosted := fun hn n x x' hx hx' hne => by
        rw [hent] at hx'
        split at hx'
        · rename_i hni
          subst hni
          rw [hr] at hx
          obtain rfl := Option.some.inj hx
          obtain rfl := Option.some.inj hx'
          rw [hframe.cycle]
          rw [deriveRect_changes hr hs] at hn ⊢
          have h2 := (recomputeCapacity_sourced (post .rectState (some r.node)
            (some (rectStateOf r.node d).code) (rectDerived n r d))).trans (examineAc_sourced _)
          obtain ⟨hpost, -⟩ := hn.split (b := post .rectState (some r.node)
            (some (rectStateOf r.node d).code) (rectDerived n r d)) (post_overflow _ _ _ (rectDerived n r d))
            (overflowUp_built.trans (overflowUp_built.driven.recomputeCapacity _) (overflowUp_built.driven.examineAc _))
          exact h2.holds _ (post_noRecordLost (a := d) (d := rectDerived n r d) (Nat.le_refl _) hpost).2
        · rw [hx] at hx'
          exact absurd (by rw [Option.some.inj hx']) hne
      battPosted := fun _ n x x' hx hx' hne => by
        rw [show _ = _ from hheld.batts] at hx'
        exact absurd (by rw [Option.some.inj (hx'.symm.trans hx)]) hne }

theorem deriveBatt (i : Nat) (d : Part) : Rederived d (deriveBatt i d) := by
  rcases hr : entry d.sru.batts i with _ | r
  · rw [deriveBatt_none hr]
    exact refl d
  by_cases hs : battStateOf r.node d = r.state
  · rw [deriveBatt_same hr hs]
    exact refl d
  rw [deriveBatt_changes hr hs]
  have hheld := modulesHeld_post .batteryState (some r.node) (some (battStateOf r.node d).code) (battDerived i r d)
  have hframe := (post_settled .batteryState (some r.node) (some (battStateOf r.node d).code) (battDerived i r d)).toFrame
  have hup := post_overflow .batteryState (some r.node) (some (battStateOf r.node d).code) (battDerived i r d)
  have hent (n : Nat) : entry (battDerived i r d).sru.batts n =
      if n = i then some (r.derived d) else entry d.sru.batts n := by
    show entry (d.sru.batts.set i _) n = _
    split
    · rename_i hn
      rw [hn, entry_set_same hr]
    · exact entry_set_ne _ _ ‹_›
  exact
    { cycle := hframe.cycle
      profile := hheld.profile
      rects := fun n => by rw [show _ = _ from hheld.rects]; rfl
      batts := fun n => by
        rw [show _ = _ from hheld.batts, hent]
        split
        · rename_i hn
          rw [hn, hr]
          rfl
        · rfl
      capacity := .inl ⟨hheld.rects, hheld.capacity⟩
      overflow := hup
      holds := hframe.holds
      rectPosted := fun _ n x x' hx hx' hne => by
        rw [show _ = _ from hheld.rects] at hx'
        exact absurd (by rw [Option.some.inj (hx'.symm.trans hx)]) hne
      battPosted := fun hn n x x' hx hx' hne => by
        rw [show _ = _ from hheld.batts, hent] at hx'
        split at hx'
        · rename_i hni
          subst hni
          obtain rfl := Option.some.inj hx'
          rw [hframe.cycle]
          exact (post_noRecordLost (a := d) (d := battDerived n r d) (Nat.le_refl _) hn).2
        · exact absurd (by rw [Option.some.inj (hx'.symm.trans hx)]) hne }

theorem qualifyIfHeard (d : Part) : Rederived d (qualifyIfHeard d) :=
  have hf := (qualifyIfHeard_sourced d).toFrame
  .of_held (modulesHeld_qualifyIfHeard d) hf.cycle (overflowUp_built.driven.powered.qualifyIfHeard d) hf.holds

theorem deriveModules (d : Part) : Rederived d (deriveModules d) :=
  (foldl (f := fun d i => Machine.qualifyIfHeard (Machine.deriveRect i d))
    (fun d i => (deriveRect i d).trans (qualifyIfHeard _)) _ d).trans
    (foldl (f := fun d i => Machine.deriveBatt i d) (fun d i => deriveBatt i d) _ _)

theorem post (k : EventKind) (s v : Option Nat) (d : Part) : Rederived d (post k s v d) :=
  .of_frame (post_settled k s v d).toFrame (post_uplinked k s v d).sru (post_overflow k s v d)

end Rederived

/-! ## The derived states -/

/-- Every module has the state that is derived for it. -/
structure Derived (d : Part) : Prop where
  rects : ∀ i < 8, ∀ r, entry d.sru.rects i = some r → r.state = rectStateOf r.node d
  batts : ∀ i < 6, ∀ r, entry d.sru.batts i = some r → r.state = battStateOf r.node d

theorem Derived.of {d d' : Part} (h : Derived d) (hm : ModulesHeld d d') (hi : SameInputs d d') : Derived d' where
  rects i hi' r hr := by
    rw [(hi r.node).1]
    exact h.rects i hi' r (by rw [← hm.rects]; exact hr)
  batts i hi' r hr := by
    rw [(hi r.node).2]
    exact h.batts i hi' r (by rw [← hm.batts]; exact hr)

theorem sameInputs_of_frame {d d' : Part} (h : Frame d d') : SameInputs d d' :=
  sameInputs_of_link h.nodes h.active (congrArg Prod.fst h.sruConfig) h.channels

/-- A derivation takes the state that is derived, and leaves the other entries. -/
theorem deriveRect_entry (i : Nat) (d : Part) (n : Nat) : entry (deriveRect i d).sru.rects n =
    if n = i then (entry d.sru.rects i).map (Rectifier.derived d) else entry d.sru.rects n := by
  rcases hr : entry d.sru.rects i with _ | r
  · rw [deriveRect_none hr]
    split
    · rename_i hn
      rw [hn, hr]
      rfl
    · rfl
  by_cases hs : rectStateOf r.node d = r.state
  · rw [deriveRect_same hr hs]
    split
    · rename_i hn
      rw [hn, hr]
      simp [Rectifier.derived, hs]
    · rfl
  · rw [show _ = _ from (deriveRect_held hr hs).rects]
    show entry (d.sru.rects.set i (some (r.derived d))) n = _
    split
    · rename_i hn
      rw [hn, entry_set_same hr]
      rfl
    · exact entry_set_ne _ _ ‹_›

theorem deriveBatt_entry (i : Nat) (d : Part) (n : Nat) : entry (deriveBatt i d).sru.batts n =
    if n = i then (entry d.sru.batts i).map (Battery.derived d) else entry d.sru.batts n := by
  rcases hr : entry d.sru.batts i with _ | r
  · rw [deriveBatt_none hr]
    split
    · rename_i hn
      rw [hn, hr]
      rfl
    · rfl
  by_cases hs : battStateOf r.node d = r.state
  · rw [deriveBatt_same hr hs]
    split
    · rename_i hn
      rw [hn, hr]
      simp [Battery.derived, hs]
    · rfl
  · rw [deriveBatt_changes hr hs, show _ = _ from (modulesHeld_post _ _ _ _).batts]
    show entry (d.sru.batts.set i (some (r.derived d))) n = _
    split
    · rename_i hn
      rw [hn, entry_set_same hr]
      rfl
    · exact entry_set_ne _ _ ‹_›

theorem Rectifier.derived_of {d d' : Part} (h : SameInputs d d') : Rectifier.derived d' = Rectifier.derived d := by
  funext r
  simp only [Rectifier.derived, (h r.node).1]

theorem Battery.derived_of {d d' : Part} (h : SameInputs d d') : Battery.derived d' = Battery.derived d := by
  funext r
  simp only [Battery.derived, (h r.node).2]

theorem SameInputs.refl (d : Part) : SameInputs d d := fun _ => ⟨rfl, rfl⟩

/-- Once every module has been derived afresh, each has the state that is derived for it. -/
theorem deriveModules_derived (d : Part) : Derived (deriveModules d) := by
  obtain ⟨hin, hrect⟩ := foldl_items (get := fun d n => entry d.sru.rects n)
    (f := fun d i => qualifyIfHeard (deriveRect i d)) (P := SameInputs d)
    (φ := fun _ => Option.map (Rectifier.derived d)) (fun i e he => by
      have hf := (deriveRect_sourced i e).trans (qualifyIfHeard_sourced (deriveRect i e))
      refine ⟨he.trans (sameInputs_of_frame hf.toFrame), fun n => ?_⟩
      rw [(modulesHeld_qualifyIfHeard _).rects, deriveRect_entry, Rectifier.derived_of he]) (.refl d) 8
  have hrects : deriveRects d = (List.range 8).foldl (fun d i => qualifyIfHeard (deriveRect i d)) d := rfl
  rw [← hrects] at hin hrect
  obtain ⟨⟨hin', hsame⟩, hbatt⟩ := foldl_items (get := fun d n => entry d.sru.batts n)
    (f := fun d i => deriveBatt i d) (P := fun e => SameInputs d e ∧ e.sru.rects = (deriveRects d).sru.rects)
    (φ := fun _ => Option.map (Battery.derived d)) (fun i e ⟨he, hs⟩ => by
      refine ⟨⟨he.trans (sameInputs_of_frame (deriveBatt_sourced i e).toFrame), ?_⟩, fun n => ?_⟩
      · refine Eq.trans ?_ hs
        unfold deriveBatt
        split
        · rfl
        · simp only
          split
          · rfl
          · exact (modulesHeld_post _ _ _ _).rects
      · rw [deriveBatt_entry, Battery.derived_of he]) ⟨hin, rfl⟩ 6
  have hmods : deriveModules d = (List.range 6).foldl (fun d i => deriveBatt i d) (deriveRects d) := rfl
  rw [← hmods] at hin' hsame hbatt
  constructor
  · intro i hi r hr
    rw [hsame, hrect i, if_pos hi] at hr
    obtain ⟨r0, -, rfl⟩ := Option.map_eq_some_iff.mp hr
    exact ((hin' r0.node).1).symm
  · intro i hi r hr
    rw [hbatt i, if_pos hi] at hr
    obtain ⟨r0, -, rfl⟩ := Option.map_eq_some_iff.mp hr
    exact ((hin' r0.node).2).symm

/-- What a command that derives the modules leaves of them. -/
theorem Rederived.modulesDerived {d d' : Part} (h : Rederived d d') (hd : Derived d') : ModulesDerived d d' where
  rects i r hi hr := by
    obtain ⟨r', hr', hc⟩ := Option.map_eq_some_iff.mp ((h.rects i).trans (congrArg (Option.map _) hr))
    rw [hr']
    obtain ⟨node, rated, state⟩ := r'
    simp only [Rectifier.cfg, Prod.mk.injEq] at hc
    obtain ⟨rfl, rfl⟩ := hc
    have hst : state = rectStateOf r.node d' := hd.rects i hi _ hr'
    rw [hst]
  batts i r hi hr := by
    obtain ⟨r', hr', hc⟩ := Option.map_eq_some_iff.mp ((h.batts i).trans (congrArg (Option.map _) hr))
    rw [hr']
    obtain ⟨node, state⟩ := r'
    simp only at hc
    subst hc
    have hst : state = battStateOf r.node d' := hd.batts i hi _ hr'
    rw [hst]
  capacity i r hi hr hne := by
    rcases h.capacity with ⟨hsame, -⟩ | hc
    · exact absurd (hd.rects i hi r (by rw [hsame]; exact hr)).symm hne
    · exact hc
  rectPosted hn i r hi hr hne := by
    obtain ⟨r', hr', hc⟩ := Option.map_eq_some_iff.mp ((h.rects i).trans (congrArg (Option.map _) hr))
    have hnode : r'.node = r.node := congrArg Prod.fst hc
    have hst := hd.rects i hi r' hr'
    have hp := h.rectPosted hn i r r' hr hr' (by rw [hst, hnode]; exact hne)
    rwa [hst, hnode] at hp
  battPosted hn i r hi hr hne := by
    obtain ⟨r', hr', hc⟩ := Option.map_eq_some_iff.mp ((h.batts i).trans (congrArg (Option.map _) hr))
    have hst := hd.batts i hi r' hr'
    have hp := h.battPosted hn i r r' hr hr' (by rw [hst, hc]; exact hne)
    rwa [hst, hc] at hp

end Sys2Proof.Machine

/-! PROOFS. The commands that derive the modules: a cell and a cycle end (R74, R76). -/

namespace Sys2Proof.Machine

-- One proof after another: proofs that are checked side by side take a thread each.
set_option Elab.async false

/-- The modules are derived afresh or left, and derived states stay the derived ones. -/
structure Refreshes (d d' : Part) : Prop extends Rederived d d' where
  derived : Derived d → Derived d'

namespace Refreshes

theorem refl (d : Part) : Refreshes d d := ⟨.refl d, id⟩

theorem trans {a b c : Part} (h : Refreshes a b) (g : Refreshes b c) : Refreshes a c :=
  ⟨h.toRederived.trans g.toRederived, g.derived ∘ h.derived⟩

/-- Where neither the modules nor what they are derived from changes, nothing does. -/
theorem of_held {d d' : Part} (h : ModulesHeld d d') (hi : SameInputs d d') (hc : d'.slc.cycle = d.slc.cycle)
    (ho : OverflowUp d d') (hh : ∀ e, d.holdsEvent e → d'.holdsEvent e) : Refreshes d d' :=
  ⟨.of_held h hc ho hh, fun hd => hd.of h hi⟩

theorem of_frame {d d' : Part} (h : Frame d d') (hs : d'.sru = d.sru) (ho : OverflowUp d d') : Refreshes d d' :=
  .of_held (.of_sru hs) (sameInputs_of_frame h) h.cycle ho h.holds

theorem deriveModules (d : Part) : Refreshes d (deriveModules d) := ⟨.deriveModules d, fun _ => deriveModules_derived d⟩

theorem post (k : EventKind) (s v : Option Nat) (d : Part) : Refreshes d (post k s v d) :=
  .of_frame (post_settled k s v d).toFrame (post_uplinked k s v d).sru (post_overflow k s v d)

/-- What the owner of a channel's kind does with its class. -/
theorem handClass (k n : Nat) (kind : ChannelKind) (c : ChanClass) (d : Part) : Refreshes d (handClass k n kind c d) := by
  have hcases : Machine.handClass k n kind c d = Machine.deriveModules d ∨
      (Machine.handClass k n kind c d).sru = d.sru := by
    unfold Machine.handClass
    split
    · exact .inr rfl
    · exact .inr rfl
    · exact .inr (setFreshness_kept _ _ d).sru
    · refine .inr ?_
      split
      · exact (pointsStale_leaked _ _ d).sru
      · exact (pointsUnseen_leaked _ _ d).sru
      · rfl
    · exact .inl rfl
  have hup := overflowUp_built.handClass overflowUp_sqe k n kind c d
  have hf := handClass_frame k n kind c d
  generalize Machine.handClass k n kind c d = e at hcases hup hf ⊢
  rcases hcases with h | h
  · rw [h]
    exact deriveModules d
  · exact of_frame hf h hup

end Refreshes

/-- The owner of a module's channel derives the modules. -/
theorem handClass_module (k n : Nat) {kind : ChannelKind} (h : kind.isModule = true) (c : ChanClass) (d : Part) :
    handClass k n kind c d = deriveModules d := by
  unfold handClass
  split
  · cases h
  · cases h
  · cases h
  · cases h
  · rfl

/-! ## A cell -/

theorem putChannel_held (k : Nat) (x : ChannelState) (d : Part) : ModulesHeld d (putChannel k x d) := ⟨rfl, rfl, rfl, rfl⟩

/-- A channel of a kind from which nothing is derived, or whose class and last value stand, changes no input. -/
theorem putChannel_inputs {k : Nat} {x y : ChannelState} {d : Part} (hx : entry d.tlf.channels k = some x)
    (h : y.inputs = x.inputs ∨ ∀ node kind limit, entry d.slc.active k = some (.input node kind limit) →
      kind.isModule = false) : SameInputs d (putChannel k y d) := by
  refine sameInputs_of (by rfl) (by rfl) (by rfl) fun n node kind limit he hm => ?_
  show (entry (d.tlf.channels.set k (some y)) n).map _ = _
  by_cases hn : n = k
  · subst hn
    rcases h with h | h
    · rw [entry_set_same hx, hx]
      exact congrArg some h
    · rw [h node kind limit he] at hm
      cases hm
  · rw [entry_set_ne _ _ hn]

theorem acted_sru {k node : Nat} {p : Params} {x : ChannelState} {kind : ChannelKind} {v : Int} {d : Part} :
    (acted k node p x kind v d).sru = d.sru ∧ OverflowUp d (acted k node p x kind v d) := by
  have hs := stored_uplinked k (sampled p x v d) (isForwarded p x v d)
    ⟨node, kind, v, (classify p x v).1.cls, d.slc.cycle⟩ d
  have ho := stored_overflow k (sampled p x v d) (isForwarded p x v d)
    ⟨node, kind, v, (classify p x v).1.cls, d.slc.cycle⟩ d
  unfold acted
  simp only
  generalize stored _ _ _ _ _ = e at hs ho ⊢
  have hclass : (if (classify p x v).2 then postClass k node x.cls (classify p x v).1.cls e else e).sru = e.sru ∧
      OverflowUp e (if (classify p x v).2 then postClass k node x.cls (classify p x v).1.cls e else e) := by
    split
    · exact ⟨(postClass_uplinked _ _ _ _ _).sru, postClass_overflow _ _ _ _ _⟩
    · exact ⟨rfl, Nat.le_refl _⟩
  generalize (if (classify p x v).2 then postClass k node x.cls (classify p x v).1.cls e else e) = f at hclass ⊢
  have htrip : ∀ c : Bool, (if c then takeTrip p.action node f else f).sru = f.sru ∧
      OverflowUp f (if c then takeTrip p.action node f else f) := by
    intro c
    split
    · exact ⟨(takeTrip_kept _ _ _).sru, overflowUp_built.takeTrip _ _ _⟩
    · exact ⟨rfl, Nat.le_refl _⟩
  obtain ⟨h1, h2⟩ := htrip ((classify p x v).2 && (classify p x v).1.cls.isTrip)
  exact ⟨h1.trans (hclass.1.trans hs.sru), ho.ge.trans (Nat.le_trans hclass.2 h2)⟩

theorem hearNode_refreshes (node : Nat) (d : Part) : Rederived d (hearNode node d) ∧
    ((d.nodeRecord node).state ≠ .live → Derived (hearNode node d)) := by
  have heard : Rederived d (heardNode node d) := .of_held ⟨rfl, rfl, rfl, rfl⟩ rfl (Nat.le_refl _) fun _ h => h
  unfold hearNode
  simp only
  split
  · rename_i h
    exact ⟨heard, fun hne => absurd h hne⟩
  · exact ⟨heard.trans (.deriveModules (heardNode node d)), fun _ => deriveModules_derived (heardNode node d)⟩
  · exact ⟨heard.trans ((Rederived.post _ _ _ (heardNode node d)).trans (.deriveModules _)),
      fun _ => deriveModules_derived (post .nodeLive (some node) none (heardNode node d))⟩

/-- A sample hands on its module, or changes nothing from which one is derived. -/
theorem channelSample_refreshes (k node : Nat) (kind : ChannelKind) (limit : Option Nat) (w : Sample) (d : Part)
    (ha : entry d.slc.active k = some (.input node kind limit)) :
    Refreshes d (channelSample k node kind limit w d) ∧
      (kind.isModule = true → (entry d.tlf.channels k).isSome = true → (∃ v, w = .good v) →
        Derived (channelSample k node kind limit w d)) := by
  have other (h : ∀ v, w ≠ .good v) : channelSample k node kind limit w d = d := by
    cases w with
    | good v => exact absurd rfl (h v)
    | invalid => rfl
    | sensorFault => rfl
  rcases w with v | _ | _
  · rcases hx : entry d.tlf.channels k with _ | x
    · have hs : channelSample k node kind limit (.good v) d = d := goodSample_none hx
      rw [hs]
      exact ⟨.refl d, fun _ h => by cases h⟩
    · show Refreshes d (goodSample k node kind limit v d) ∧ (_ → _ → _ → Derived (goodSample k node kind limit v d))
      rw [goodSample_eq hx]
      obtain ⟨hsru, hup⟩ := acted_sru (k := k) (node := node) (p := paramsOf d kind limit) (x := x) (kind := kind)
        (v := v) (d := d)
      have hf := acted_frame (k := k) (node := node) (p := paramsOf d kind limit) (x := x) (kind := kind)
        (v := v) (d := d)
      generalize acted k node (paramsOf d kind limit) x kind v d = e at hsru hup hf ⊢
      have hred : Rederived d e := .of_held (.of_sru hsru) hf.cycle hup hf.holds
      unfold handSample
      rcases hm : kind.isModule
      · have hkind : ∀ n kd l, entry d.slc.active k = some (.input n kd l) → kd.isModule = false := by
          intro n kd l h
          rw [ha] at h
          cases h
          exact hm
        have he : Refreshes d e := ⟨hred, fun hd => (hd.of (putChannel_held k (sampled _ x v d) d)
          (putChannel_inputs hx (.inr hkind))).of (.of_sru hsru) (sameInputs_of_frame hf)⟩
        refine ⟨?_, fun h => by cases h⟩
        split
        · exact he.trans (.handClass _ _ _ _ _)
        · exact he
      · simp only [Bool.or_true, if_true]
        rw [handClass_module k node hm]
        exact ⟨⟨hred.trans (.deriveModules e), fun _ => deriveModules_derived e⟩, fun _ _ _ => deriveModules_derived e⟩
  all_goals
    rw [other (fun _ h => by cases h)]
    exact ⟨.refl d, fun _ _ ⟨_, h⟩ => by cases h⟩

theorem deliverSample_refreshes (k node : Nat) (kind : ChannelKind) (w : Sample) (d : Part) :
    Refreshes d (deliverSample k node kind w d) := by
  refine .of_frame (deliverSample_frame k node kind w d) ?_ (overflowUp_built.deliverSample overflowUp_sqe k node kind w d)
  unfold deliverSample
  split
  · split
    · exact (switchReading_kept _ _ d).sru
    · rfl
  · exact (powerReading_kept _ _ _ d).sru
  · exact (levelSample_leaked _ _ _ d).sru
  · rfl

end Sys2Proof.Machine

/-! PROOFS. The derived states, C and the AC conditions at a cell and at a cycle end (R73 to R79). -/

namespace Sys2Proof.Machine

-- One proof after another: proofs that are checked side by side take a thread each.
set_option Elab.async false

/-! ## A cell -/

theorem readEcho_refreshes (k node : Nat) (kind : ChannelKind) (e : BitVec 2) (d : Part) :
    Refreshes d (readEcho k node kind e d) := by
  have he := (readEcho_echoed k node kind e d).eq
  generalize readEcho k node kind e d = f at he ⊢
  rw [he]
  exact .of_held (.of_sru rfl) (sameInputs_of_link rfl rfl rfl rfl) rfl (Nat.le_refl _) fun _ h => h

theorem complete_refreshes {d : Part} (h : ∀ node, d.rlp.phase ≠ .passing node) : Refreshes d (complete d) := by
  have hd := complete_delivered h
  have hup : OverflowUp d (complete d) := by
    rw [complete_calm d h]
    exact overflowUp_built.settleAll overflowUp_sqe d
  exact .of_held (.of_sru hd.sru) (sameInputs_of_link hd.nodes hd.active (congrArg Sru.profile hd.sru) hd.channels)
    hd.cycle hup hd.holds

theorem noteSatisfied_refreshes (k : Nat) (w : Sample) (d : Part) : Refreshes d (noteSatisfied k w d) := by
  obtain ⟨l, hl⟩ := noteSatisfied_eq k w d
  rw [hl]
  exact .of_held (.of_sru rfl) (sameInputs_of_link rfl rfl rfl rfl) rfl (Nat.le_refl _) fun _ h => h

/-- An accepted cell derives the modules where its node was not LIVE, or where it brings a module a GOOD sample. -/
theorem acceptCell_refreshes {k node : Nat} {kind : ChannelKind} {limit : Option Nat} (q : Quality) (c : InCell)
    {d : Part} (ha : entry d.slc.active k = some (.input node kind limit)) :
    Rederived d (acceptCell k node kind limit q c d) ∧
      ((kind.isModule = true ∧ (entry d.tlf.channels k).isSome = true ∧ ∃ v, sampleOf kind q c.value = .good v) ∨
        (d.nodeRecord node).state ≠ .live → Derived (acceptCell k node kind limit q c d)) := by
  unfold acceptCell
  simp only
  generalize sampleOf kind q c.value = w
  obtain ⟨h1, hl1⟩ := hearNode_refreshes node d
  have hf1 := hearNode_frame node d
  have h2 := noteSatisfied_refreshes k w (hearNode node d)
  obtain ⟨l, heq2⟩ := noteSatisfied_eq k w (hearNode node d)
  have ha2 : (noteSatisfied k w (hearNode node d)).slc.active = d.slc.active := by
    rw [heq2]
    exact hf1.active
  have hc2 : (noteSatisfied k w (hearNode node d)).tlf.channels = d.tlf.channels := by
    rw [heq2]
    exact hf1.channels
  obtain ⟨h3, hl3⟩ := channelSample_refreshes k node kind limit w (noteSatisfied k w (hearNode node d))
    (by rw [ha2]; exact ha)
  rw [hc2] at hl3
  have h4 := (deliverSample_refreshes k node kind w
    (channelSample k node kind limit w (noteSatisfied k w (hearNode node d)))).trans
    (readEcho_refreshes k node kind (cellEcho c) _)
  refine ⟨h1.trans (h2.toRederived.trans (h3.toRederived.trans h4.toRederived)), fun h => h4.derived ?_⟩
  rcases h with ⟨hm, hs, hv⟩ | hn
  · exact hl3 hm hs hv
  · exact h3.derived (h2.derived (hl1 hn))

/-! ## A cycle end -/

/-- The channel of slot `k` becomes STALE at this cycle end, and a module is derived from it. -/
def stalesModule (d : Part) (k : Nat) : Prop := ∃ node kind limit x, k ∉ d.slc.satisfied ∧
  entry d.slc.active k = some (.input node kind limit) ∧ kind.isModule = true ∧
  entry d.tlf.channels k = some x ∧ x.cls ≠ .unseen ∧ x.cls ≠ .stale ∧
  (paramsOf d kind limit).staleLimit ≤ satInc x.miss

/-- The node is found silent at this cycle end. -/
def findsSilent (d : Part) (node : Nat) : Prop :=
  (d.nodeRecord node).isSilent d.slc.cycle d.sru.profile.nodeSilence = true

/-- The record of a channel that becomes STALE (R33). -/
def ChannelState.staled (x : ChannelState) : ChannelState :=
  { x with cls := .stale, candidate := none, count := 0, miss := satInc x.miss }

section
variable {k node : Nat} {kind : ChannelKind} {limit : Option Nat} {d : Part} {x : ChannelState}
  (hx : entry d.tlf.channels k = some x)
include hx

theorem missNotice_stales
    (h : x.cls ≠ .unseen ∧ x.cls ≠ .stale ∧ (paramsOf d kind limit).staleLimit ≤ satInc x.miss) :
    missNotice k node kind limit d =
      handClass k node kind .stale (postClass k node x.cls .stale (putChannel k x.staled d)) := by
  unfold missNotice
  rw [hx]
  exact if_pos h

theorem missNotice_counts
    (h : ¬ (x.cls ≠ .unseen ∧ x.cls ≠ .stale ∧ (paramsOf d kind limit).staleLimit ≤ satInc x.miss)) :
    missNotice k node kind limit d = putChannel k { x with miss := satInc x.miss } d := by
  unfold missNotice
  rw [hx]
  exact if_neg h

end

theorem noticeSlot_refreshes (k : Nat) (d : Part) : Refreshes d (noticeSlot k d) ∧
    (stalesModule d k → Derived (noticeSlot k d)) := by
  have same (h : ¬ stalesModule d k) : Refreshes d d ∧ (stalesModule d k → Derived d) :=
    ⟨.refl d, fun hs => absurd hs h⟩
  unfold noticeSlot
  split
  · rename_i node kind limit he
    split
    · rename_i hs
      exact same fun ⟨_, _, _, _, hn, _⟩ => hn hs
    · rcases hx : entry d.tlf.channels k with _ | x
      · have hd : missNotice k node kind limit d = d := by
          unfold missNotice
          rw [hx]
        rw [hd]
        refine same fun ⟨_, _, _, x, _, _, _, hx', _⟩ => ?_
        rw [hx] at hx'
        cases hx'
      by_cases hst : x.cls ≠ .unseen ∧ x.cls ≠ .stale ∧ (paramsOf d kind limit).staleLimit ≤ satInc x.miss
      · have hput : Rederived d (putChannel k x.staled d) :=
          .of_held (putChannel_held k x.staled d) rfl (Nat.le_refl _) fun _ h => h
        have hpost : Refreshes (putChannel k x.staled d) (postClass k node x.cls .stale (putChannel k x.staled d)) :=
          .of_frame (postClass_settled _ _ _ _ _).toFrame (postClass_uplinked _ _ _ _ _).sru
            (postClass_overflow _ _ _ _ _)
        rw [missNotice_stales hx hst]
        generalize postClass k node x.cls .stale (putChannel k x.staled d) = e at hpost ⊢
        rcases hm : kind.isModule
        · have hclass := hpost.trans (.handClass k node kind .stale e)
          refine ⟨⟨hput.trans hclass.toRederived, fun hd => hclass.derived (hd.of (putChannel_held k x.staled d)
            (putChannel_inputs hx (.inr fun n kd l h => ?_)))⟩, ?_⟩
          · rw [he] at h
            cases h
            exact hm
          · rintro ⟨_, _, _, _, _, he', hm', _⟩
            rw [he] at he'
            cases he'
            rw [hm] at hm'
            cases hm'
        · rw [handClass_module k node hm]
          exact ⟨⟨hput.trans (hpost.toRederived.trans (.deriveModules e)), fun _ => deriveModules_derived e⟩,
            fun _ => deriveModules_derived e⟩
      · rw [missNotice_counts hx hst]
        refine ⟨.of_held (putChannel_held _ _ d) (putChannel_inputs hx (.inl rfl)) rfl (Nat.le_refl _) fun _ h => h, ?_⟩
        rintro ⟨_, _, _, _, _, he', _, hx', hu, hs, hl⟩
        rw [he] at he'
        cases he'
        rw [hx] at hx'
        cases hx'
        exact absurd ⟨hu, hs, hl⟩ hst
  · rename_i hne
    exact same fun ⟨n, kd, l, _, _, he, _⟩ => hne n kd l he

theorem testNode_refreshes (i : Nat) (d : Part) : Refreshes d (testNode (i + 1) d) ∧
    (findsSilent d (i + 1) → Derived (testNode (i + 1) d)) := by
  rw [testNode_eq]
  split
  · have hs : Rederived d (silenced i d) := .of_held ⟨rfl, rfl, rfl, rfl⟩ rfl (Nat.le_refl _) fun _ h => h
    exact ⟨⟨hs.trans ((Rederived.post _ _ _ _).trans (.deriveModules _)), fun _ => deriveModules_derived _⟩,
      fun _ => deriveModules_derived _⟩
  · rename_i h
    exact ⟨.refl d, fun hs => absurd hs h⟩

/-- Where each step derives the modules at a trigger that the earlier steps leave as it was, all of them do. -/
theorem foldl_derives {α : Type} {get : Part → Nat → α} {f : Part → Nat → Part} {P : Part → Prop}
    {T : Part → Nat → Prop} {d : Part}
    (hf : ∀ i e, P e → P (f e i) ∧ (∀ n, n ≠ i → get (f e i) n = get e n) ∧ Refreshes e (f e i) ∧
      (T e i → Derived (f e i)))
    (hT : ∀ i e, P e → get e i = get d i → T d i → T e i) (hd : P d) (m : Nat) :
    Refreshes d ((List.range m).foldl f d) ∧ ((∃ k < m, T d k) → Derived ((List.range m).foldl f d)) := by
  have below (m : Nat) : P ((List.range m).foldl f d) ∧
      (∀ n, m ≤ n → get ((List.range m).foldl f d) n = get d n) ∧
      Refreshes d ((List.range m).foldl f d) ∧ ((∃ k < m, T d k) → Derived ((List.range m).foldl f d)) := by
    induction m with
    | zero => exact ⟨hd, fun _ _ => rfl, .refl d, fun ⟨k, hk, _⟩ => absurd hk (Nat.not_lt_zero k)⟩
    | succ m ih =>
      rw [List.range_succ, List.foldl_append, List.foldl_cons, List.foldl_nil]
      generalize (List.range m).foldl f d = e at ih ⊢
      obtain ⟨hP, hget, href, hder⟩ := ih
      obtain ⟨hP', hget', href', hder'⟩ := hf m e hP
      refine ⟨hP', fun n hn => (hget' n (by omega)).trans (hget n (by omega)), href.trans href', ?_⟩
      rintro ⟨k, hk, ht⟩
      rcases Nat.lt_succ_iff_lt_or_eq.mp hk with h | h
      · exact href'.derived (hder ⟨k, h, ht⟩)
      · subst h
        exact hder' (hT k e hP (hget k (Nat.le_refl k)) ht)
  exact (below m).2.2

theorem profile_of_config {d d' : Part} (h : d'.sru.config = d.sru.config) : d'.sru.profile = d.sru.profile :=
  congrArg Prod.fst h

/-- A cycle end derives the modules where a channel of one becomes STALE, or a node falls silent. -/
theorem endCycle_refreshes (d : Part) : Refreshes d (endCycle d) ∧
    ((∃ k < 96, stalesModule d k) ∨ (∃ i < 62, findsSilent d (i + 1)) → Derived (endCycle d)) := by
  obtain ⟨h1, hd1⟩ := foldl_derives (get := fun e k => entry e.tlf.channels k) (f := fun e k => noticeSlot k e)
    (P := fun e => Outer d e ∧ LinkRests d e) (T := stalesModule) (d := d)
    (fun k e ⟨ho, hr⟩ => by
      obtain ⟨hr', -, hc⟩ := noticeSlot_link k e
      obtain ⟨href, hder⟩ := noticeSlot_refreshes k e
      exact ⟨⟨ho.trans (noticeSlot_outer k e), hr.trans hr'⟩, fun n hn => by rw [hc n, if_neg hn], href, hder⟩)
    (fun k e ⟨ho, hr⟩ hget ⟨node, kind, limit, x, hs, ha, hm, hx, hu, hst, hl⟩ =>
      ⟨node, kind, limit, x, by rw [hr.satisfied]; exact hs, by rw [hr.active]; exact ha, hm, hget.trans hx, hu, hst,
        by rw [paramsOf_of_limits ho.limits]; exact hl⟩)
    ⟨.refl d, .refl d⟩ 96
  rw [← forSlots_eq] at h1 hd1
  obtain ⟨ho, hr, hn, -⟩ := notices_link d
  obtain ⟨h2, hd2⟩ := foldl_derives (get := fun e i => e.nodeRecord (i + 1)) (f := fun e i => testNode (i + 1) e)
    (P := fun e => Outer d e ∧ LinkRests d e) (T := fun e i => findsSilent e (i + 1)) (d := forSlots noticeSlot d)
    (fun i e ⟨ho, hr⟩ => by
      obtain ⟨hr', -, hg⟩ := testNode_link i e
      obtain ⟨href, hder⟩ := testNode_refreshes i e
      exact ⟨⟨ho.trans (testNode_outer (i + 1) e), hr.trans hr'⟩, fun n hn => by rw [hg n, if_neg hn], href, hder⟩)
    (fun i e ⟨ho', hr'⟩ hget ht => by
      unfold findsSilent at ht ⊢
      rw [hget, hr'.cycle, ← hr.cycle, profile_of_config (ho'.sruConfig.trans ho.sruConfig.symm)]
      exact ht)
    ⟨ho, hr⟩ 62
  have heq : endCycle d = (List.range 62).foldl (fun e i => testNode (i + 1) e) (forSlots noticeSlot d) := rfl
  rw [← heq] at h2 hd2
  refine ⟨h1.trans h2, fun h => ?_⟩
  rcases h with h | ⟨i, hi, hs⟩
  · exact h2.derived (hd1 h)
  · refine hd2 ⟨i, hi, ?_⟩
    unfold findsSilent at hs ⊢
    rw [hr.cycle, profile_of_config ho.sruConfig]
    unfold Part.nodeRecord at hs ⊢
    rw [hn]
    exact hs

/-! ## The rules of R73, R76, R77 and R79 -/

theorem rectStateOf_cases (d : Part) (node : Nat) :
    let absent := (d.nodeRecord node).state ≠ .live ∨ d.channelOf node .rmStatus = none ∨
      ∃ c, d.channelOf node .rmStatus = some c ∧ (c.cls = .stale ∨ c.cls = .unseen)
    let tripLow := ∃ c, d.channelOf node .rmInVolt = some c ∧ c.cls = .tripLow
    (absent → rectStateOf node d = .absent) ∧
    (¬ absent → ∀ c, d.channelOf node .rmStatus = some c →
      (c.last = some 2 → rectStateOf node d = .fault) ∧
      (c.last = some 3 → rectStateOf node d = .standby) ∧
      (c.last = some 1 ∨ (c.last = some 0 ∧ tripLow) → rectStateOf node d = .inputFail) ∧
      (c.last = some 0 → ¬ tripLow → rectStateOf node d = .ok)) := by
  intro absent tripLow
  have htrip : (d.channelOf node .rmInVolt).map (·.cls) = some .tripLow ↔ tripLow := by
    simp [tripLow, Option.map_eq_some_iff]
  refine ⟨fun h => ?_, fun h c hc => ?_⟩
  · unfold rectStateOf
    rcases h with h | h | ⟨c, hc, h⟩
    · rw [if_pos h]
    · rw [h]
      split <;> rfl
    · rw [hc]
      have hf : c.isFresh = false := by
        unfold ChannelState.isFresh
        rcases h with h | h <;> simp [h]
      simp only [hf, if_true]
      split <;> rfl
  · have hlive : (d.nodeRecord node).state = .live := not_not.mp fun hn => h (.inl hn)
    have hf : c.isFresh = true := by
      unfold ChannelState.isFresh
      rw [Bool.and_eq_true, bne_iff_ne, bne_iff_ne]
      exact ⟨fun hu => h (.inr (.inr ⟨c, hc, .inr hu⟩)), fun hs => h (.inr (.inr ⟨c, hc, .inl hs⟩))⟩
    have hstate : rectStateOf node d = if c.last = some 2 then .fault else if c.last = some 3 then .standby
        else if c.last = some 1 ∨ (d.channelOf node .rmInVolt).map (·.cls) = some .tripLow then .inputFail else .ok := by
      unfold rectStateOf
      rw [hc]
      simp only [hlive, hf, ne_eq, not_true_eq_false, if_false, Bool.true_eq_false]
    rw [hstate]
    simp only [htrip]
    refine ⟨fun h => by simp [h], fun h => by simp [h], fun h => ?_, fun h0 hn => by simp [h0, hn]⟩
    rcases h with h | ⟨h, ht⟩
    · simp [h]
    · simp [h, ht]

theorem battStateOf_cases (d : Part) (node : Nat) :
    let status := fun v => ∃ c, d.channelOf node .bmStatus = some c ∧ c.last = some v
    let low := ∃ c e, d.channelOf node .bmEnergy = some c ∧ c.last = some e ∧ e ≤ d.sru.profile.floor
    let fresh := ∃ c, d.channelOf node .bmEnergy = some c ∧ c.cls ≠ .stale ∧ c.cls ≠ .unseen
    let live := (d.nodeRecord node).state = .live
    (¬ live → battStateOf node d = .absent) ∧
    (live → status 3 → battStateOf node d = .fault) ∧
    (live → ¬ status 3 → status 4 ∨ low → battStateOf node d = .empty) ∧
    (live → ¬ status 3 → ¬ status 4 → ¬ low →
      battStateOf node d = if fresh then .online else .stale) := by
  intro status low fresh live
  have hstatus (v : Int) : d.lastOf node .bmStatus = some v ↔ status v := by
    simp [status, Part.lastOf, Option.bind_eq_some_iff]
  refine ⟨fun h => ?_, fun hl h => ?_, fun hl h3 h => ?_, fun hl h3 h4 hlow => ?_⟩
  · unfold battStateOf
    rw [if_pos h]
  all_goals
    have hlive : (d.nodeRecord node).state = .live := hl
    unfold battStateOf
    simp only [hlive, hstatus, ne_eq, not_true_eq_false, if_false]
  · rw [if_pos h]
  · rw [if_neg h3]
    rcases h with h | ⟨c, e, hc, he, hle⟩
    · rw [if_pos h]
    · by_cases h4 : status 4
      · rw [if_pos h4]
      · rw [if_neg h4, hc]
        simp [he, hle]
  · rw [if_neg h3, if_neg h4]
    have hempty (c : ChannelState) (hc : d.channelOf node .bmEnergy = some c) (e : Int) (he : c.last = some e) :
        ¬ e ≤ (d.sru.profile.floor : Int) := fun hle => hlow ⟨c, e, hc, he, hle⟩
    by_cases hf : fresh
    · rw [if_pos hf]
      obtain ⟨c, hc, hs, hu⟩ := hf
      rw [hc]
      have hfr : c.isFresh = true := by simp [ChannelState.isFresh, hs, hu]
      rcases hlast : c.last with _ | e
      · simp [hlast, hfr]
      · simp [hlast, hfr, hempty c hc e hlast]
    · rw [if_neg hf]
      rcases hc : d.channelOf node .bmEnergy with _ | c
      · rfl
      · have hfr : c.isFresh = false := by
          rw [Bool.eq_false_iff]
          intro h
          refine hf ⟨c, hc, ?_⟩
          simpa [ChannelState.isFresh, and_comm] using h
        rcases hlast : c.last with _ | e
        · simp [hlast, hfr]
        · simp [hlast, hfr, hempty c hc e hlast]

theorem isSilent_iff {r : NodeRecord} {now : Cycle} {silence : Nat} :
    r.isSilent now silence = true ↔ ∃ h, r = ⟨.live, some h⟩ ∧ silence ≤ (now - h).toNat := by
  obtain ⟨state, heard⟩ := r
  cases state <;> rcases heard with _ | h <;> simp [NodeRecord.isSilent]

theorem findsSilent_iff {d : Part} {node : Nat} : findsSilent d node ↔ ∃ h, d.nodeRecord node = ⟨.live, some h⟩ ∧
    d.sru.profile.nodeSilence ≤ (d.slc.cycle - h).toNat := isSilent_iff

theorem rectStateOf_silent {d : Part} {node : Nat} (h : (d.nodeRecord node).state ≠ .live) :
    rectStateOf node d = .absent := (rectStateOf_cases d node).1 (.inl h)

theorem battStateOf_silent {d : Part} {node : Nat} (h : (d.nodeRecord node).state ≠ .live) :
    battStateOf node d = .absent := (battStateOf_cases d node).1 h

/-- The modules at a cell (R74, R76). -/
theorem cellReceive_derives {s : State} {slot node : Nat} {kind : ChannelKind} {limit : Option Nat} {q : Quality}
    {c : InCell} (hcalm : s.part.calm) (ha : entry s.part.slc.active slot = some (.input node kind limit))
    (hcrc : crc8 [c.node, c.kind, hiByte c.value, loByte c.value, c.status] = c.check)
    (hq : Quality.ofCode (c.status >>> 6).toNat = some q) (hn : c.node.toNat = node)
    (hk : c.kind.toNat = kind.code)
    (h : (kind.isModule = true ∧ (entry s.part.tlf.channels slot).isSome = true ∧
      ∃ v, sampleOf kind q c.value = .good v) ∨ (s.part.nodeRecord node).state ≠ .live) :
    ∃ t, exec (.cellReceive slot c) s = .next t ∧ t.pending = s.pending ∧ ModulesDerived s.part t.part := by
  have heff := receiveCell_accepts (d := s.part) ha (cellFate_accepts (limit := limit) hcrc hq hn hk)
  have houter := receiveCell_outer slot c s.part
  have hexec : exec (.cellReceive slot c) s = .next { s with part := complete (receiveCell slot c s.part) } :=
    act_running (receiveCell slot c) s hcalm.1.1
  obtain ⟨hred, hder⟩ := acceptCell_refreshes q c ha
  rw [heff] at houter hexec
  generalize acceptCell slot node kind limit q c s.part = e at houter hexec hred hder
  have hphase : ∀ n, e.rlp.phase ≠ .passing n := by
    rw [houter.phase]
    exact hcalm.2
  have hend := complete_refreshes hphase
  exact ⟨_, hexec, rfl, (hred.trans hend.toRederived).modulesDerived (hend.derived (hder h))⟩

/-- The modules at a cycle end (R74, R76). -/
theorem cycleEnd_derives {s : State} (hcalm : s.part.calm) : ∃ t, exec .cycleEnd s = .next t ∧
    t.pending = s.pending ∧
    ((∃ k < 96, stalesModule s.part k) ∨ (∃ i < 62, findsSilent s.part (i + 1)) → ModulesDerived s.part t.part) ∧
    ∀ i < 62, findsSilent s.part (i + 1) → (t.part.nodeRecord (i + 1)).state ≠ .live := by
  have houter := endCycle_outer s.part
  obtain ⟨-, -, hrecords⟩ := endCycle_link s.part
  have hexec : exec .cycleEnd s = .next { s with part := complete (endCycle s.part) } :=
    act_running endCycle s hcalm.1.1
  obtain ⟨href, hder⟩ := endCycle_refreshes s.part
  generalize endCycle s.part = e at houter hrecords hexec href hder
  have hphase : ∀ n, e.rlp.phase ≠ .passing n := by
    rw [houter.phase]
    exact hcalm.2
  have hend := complete_refreshes hphase
  refine ⟨_, hexec, rfl, fun h => (href.trans hend).toRederived.modulesDerived (hend.derived (hder h)),
    fun i hi hs => ?_⟩
  have hnr : (complete e).nodeRecord (i + 1) =
      (s.part.nodeRecord (i + 1)).tested s.part.slc.cycle s.part.sru.profile.nodeSilence := by
    rw [nodeRecord_succ, (complete_delivered hphase).nodes, ← nodeRecord_succ, hrecords i, if_pos hi]
  show ((complete e).nodeRecord (i + 1)).state ≠ .live
  rw [hnr]
  unfold NodeRecord.tested
  rw [if_pos (show _ = true from hs)]
  exact fun h => by cases h

/-- Settles O28: the rules of the derived states and of C, one derivation, and the two commands that derive. -/
theorem modulesAndCapacity : Obligations.ModulesAndCapacity := by
  unfold Obligations.ModulesAndCapacity
  refine ⟨fun d ratings hr => ?_, rectStateOf_cases, battStateOf_cases, fun d i => ⟨fun r hr => ⟨fun h =>
    deriveRect_same hr h, fun h => ?_⟩, fun r hr => ⟨fun h => deriveBatt_same hr h, fun h => ?_⟩⟩, fun s hcalm =>
    ⟨fun slot node kind limit q c ha hcrc hq hn hk h => cellReceive_derives hcalm ha hcrc hq hn hk h, ?_⟩⟩
  · have hok : okRatings d = ratings := hr.symm
    have hval : (d.sru.rects.filterMap id) = validRects d := rfl
    refine ⟨fun h => ?_, fun h => ?_, fun h m hm hmax => ?_, fun hmin => ⟨?_, fun hin hpos hlt => ⟨?_, ?_⟩, fun hnone => ⟨?_, ?_⟩⟩⟩
    · unfold capacityOf
      rw [hok, h]
      split <;> rfl
    · unfold capacityOf
      rw [h, hok]
    · unfold capacityOf
      rw [h, hok]
      simp only
      rw [foldl_max_eq hm hmax]
      exact Nat.sub_add_cancel (List.le_sum_of_mem hm)
    · rw [acLost_iff, acGood_iff, hok]
      rintro ⟨hl, hg, hlen⟩
      rcases hl with hl | ⟨-, hl⟩
      · rw [hl] at hg
        cases hg
      · rw [hl] at hlen
        exact absurd hlen (by rw [List.length_nil]; omega)
    · rw [Bool.eq_false_iff, ne_eq, acLost_iff, hok]
      rintro (hl | ⟨-, hl⟩)
      · rw [hl] at hin
        cases hin
      · rw [hl] at hpos
        cases hpos
    · rw [Bool.eq_false_iff, ne_eq, acGood_iff, hok]
      exact fun hg => absurd hg.2 (by omega)
    · rw [hval] at hnone
      simp [acLost, hnone]
    · have hnil : okRatings d = [] := okRatings_isEmpty_iff.mpr fun r h => by
        rw [hval] at hnone
        rw [hnone] at h
        cases h
      rw [Bool.eq_false_iff, ne_eq, acGood_iff, hnil]
      exact fun hg => absurd hg.2 (by rw [List.length_nil]; omega)
  · have hred := Rederived.deriveRect i d
    have hent := deriveRect_entry i d i
    rw [if_pos rfl, hr] at hent
    refine ⟨hent, (deriveRect_held hr h).capacity.trans
      (capacityOf_of (deriveRect_held hr h).rects (deriveRect_held hr h).profile).symm, fun hroom => ?_⟩
    rw [deriveRect_changes hr h]
    exact ((recomputeCapacity_sourced _).trans (examineAc_sourced _)).holds _
      (post_holds _ _ _ (rectDerived i r d) hroom)
  · have hent := deriveBatt_entry i d i
    rw [if_pos rfl, hr] at hent
    refine ⟨hent, fun hroom => ?_⟩
    rw [deriveBatt_changes hr h]
    exact post_holds _ _ _ (battDerived i r d) hroom
  · intro silent staled
    obtain ⟨t, hexec, hpend, hder, hsil⟩ := cycleEnd_derives hcalm
    have hsilent (node : Nat) (h : silent node) : ∃ i < 62, node = i + 1 ∧ findsSilent s.part (i + 1) := by
      obtain ⟨h1, h2, h3⟩ := h
      exact ⟨node - 1, by omega, by omega, by
        rw [show node - 1 + 1 = node by omega]
        exact findsSilent_iff.mpr h3⟩
    have hany (node : Nat) (h : silent node) : ModulesDerived s.part t.part := by
      obtain ⟨i, hi, -, hf⟩ := hsilent node h
      exact hder (.inr ⟨i, hi, hf⟩)
    have hdead (node : Nat) (h : silent node) : (t.part.nodeRecord node).state ≠ .live := by
      obtain ⟨i, hi, rfl, hf⟩ := hsilent node h
      exact hsil i hi hf
    refine ⟨t, hexec, hpend, fun h => ?_, fun i r hi hr h => ?_, fun i r hi hr h => ?_⟩
    · rcases h with ⟨node, h⟩ | ⟨slot, node, kind, limit, x, hslot, h⟩
      · exact hany node h
      · exact hder (.inl ⟨slot, hslot, node, kind, limit, x, h⟩)
    · rw [(hany r.node h).rects i r hi hr, rectStateOf_silent (hdead r.node h)]
    · rw [(hany r.node h).batts i r hi hr, battStateOf_silent (hdead r.node h)]

end Sys2Proof.Machine

/-! PROOFS. The SHED holds and the records of the SRU (R50, R90, R106): how many event records an operation posts at
most (`Grows`), what a derivation of SHED leaves of a branch, and the capacity shed. -/

namespace Sys2Proof.Machine

-- One proof after another: proofs that are checked side by side take a thread each.
set_option Elab.async false

/-! ## How many records an operation posts -/

/-- At most `n` more event records wait. -/
def Grows (n : Nat) (d d' : Part) : Prop := d'.rlp.events.length ≤ d.rlp.events.length + n

namespace Grows
variable {m n : Nat} {a d e : Part}

theorem of_events (h : e.rlp.events = d.rlp.events) : Grows n d e :=
  (congrArg List.length h).le.trans (Nat.le_add_right _ _)

theorem of_rlp (h : e.rlp = d.rlp) : Grows n d e := of_events (congrArg Rlp.events h)

theorem trans (h : Grows m a d) (g : Grows n d e) : Grows (m + n) a e := by
  unfold Grows at *
  omega

theorem mono (h : Grows m d e) (hmn : m ≤ n) : Grows n d e := by
  unfold Grows at *
  omega

theorem post (k : EventKind) (s v : Option Nat) (d : Part) : Grows 1 d (post k s v d) := post_events k s v d

theorem signalOnce (s : Signal) (d : Part) : Grows 0 d (signalOnce s d) := .of_events (by rw [(signalOnce_fixed s d).rlp])

theorem setQueue (q : List Nat) (d : Part) : Grows 0 d (setQueue q d) := .of_rlp (setQueue_rlp q d)

theorem stored (b : Nat) (y : Branch) (d : Part) : Grows 0 d (Machine.signalOnce .branches (putBranch b y d)) :=
  signalOnce _ (putBranch b y d)

theorem faultBranch (c : BranchCause) (b : Nat) (d : Part) : Grows 1 d (faultBranch c b d) := by
  rcases hx : d.branch b with _ | x
  · simp only [Machine.faultBranch, hx]
    exact .of_rlp rfl
  · rw [faultBranch_eq hx]
    have h : Grows 0 d (faultPrelude b x d) := .of_events (faultPrelude_events b x d)
    exact (h.trans (.post _ _ _ _)).trans (.signalOnce _ _)

theorem stageBranch (b : Nat) (v : Word) (d : Part) : Grows 1 d (stageBranch b v d) := by
  unfold Machine.stageBranch
  split
  · exact .of_rlp rfl
  · rename_i x _
    have hs := stage_events .bcu (some b) x.cfg.node v d
    rcases hd' : Machine.stage .bcu (some b) x.cfg.node v d with ⟨d', f⟩
    rw [hd'] at hs
    cases f
    · exact .of_events hs
    · simp only
      have hd : Grows 0 d d' := .of_events hs
      split
      · exact .of_events hs
      · exact hd.trans (.faultBranch _ _ _)

theorem stopBranch (b : Nat) (d : Part) : Grows 1 d (stopBranch b d) := by
  unfold Machine.stopBranch
  split
  · exact .of_rlp rfl
  · simp only
    refine Grows.trans (m := 0) ?_ (.stageBranch _ _ _)
    refine Grows.trans (m := 0) ?_ (.signalOnce _ _)
    unfold Machine.noteLoad
    split
    · exact .signalOnce .attempt (putBranch _ _ _)
    · exact .of_rlp rfl

theorem queueIfWanted (b : Nat) (d : Part) : Grows 0 d (queueIfWanted b d) := by
  unfold Machine.queueIfWanted Machine.enqueueBack
  split
  · exact .of_rlp rfl
  · split
    · split
      · exact .of_rlp rfl
      · exact Grows.trans (m := 0) (.setQueue _ (putBranch _ _ _)) (.signalOnce _ _)
    · exact .of_rlp rfl

/-- The output rule posts a record only where it stops the branch. -/
theorem applyOutput (b : Nat) (x y : Branch) (d : Part) :
    Grows (if loses x y then 1 else 0) d (applyOutput b x y d) := by
  unfold Machine.applyOutput
  by_cases hxy : x = y
  · rw [if_pos hxy]
    exact .of_rlp rfl
  · rw [if_neg hxy]
    simp only
    by_cases hl : loses x y = true
    · simp only [hl, if_true]
      split
      · exact ((Grows.stored b y d).trans (.setQueue _ (putBranch _ _ _))).mono (by decide)
      · exact (Grows.stored b y d).trans (.stopBranch b _)
      · exact (Grows.stored b y d).trans (.stopBranch b _)
      · exact (Grows.stored b y d).mono (by decide)
    · simp only [hl, if_false, Bool.false_eq_true]
      exact (Grows.stored b y d).trans (.queueIfWanted b _)

theorem postShed (k : Nat) (ks : List Nat) (d : Part) : Grows ks.length d (postShed k ks d) := by
  induction ks generalizing d with
  | nil => exact .of_rlp rfl
  | cons t ks ih =>
    show Grows (ks.length + 1) d (Machine.postShed k ks (Machine.post .shedTier (some t) (some k) d))
    exact ((Grows.post _ _ _ d).trans (ih _)).mono (by omega)

end Grows

/-- With room for all of them every SHED_TIER record waits or is sent. -/
theorem postShed_holds (k : Nat) (ks : List Nat) (d : Part) (h : d.rlp.events.length + ks.length ≤ 64) :
    ∀ t ∈ ks, (postShed k ks d).holdsEvent ⟨.shedTier, some t, some k, d.slc.cycle⟩ := by
  induction ks generalizing d with
  | nil => exact nofun
  | cons t ks ih =>
    intro u hu
    show (postShed k ks (post .shedTier (some t) (some k) d)).holdsEvent _
    have hg : Grows 1 d (post .shedTier (some t) (some k) d) := .post _ _ _ d
    unfold Grows at hg
    have hc := congrArg Slc.cycle (post_uplinked .shedTier (some t) (some k) d).slc
    simp only [List.length_cons] at h
    rcases List.mem_cons.mp hu with rfl | hu
    · exact (postShed_sourced k ks _).holds _ (post_holds _ _ _ d (by omega))
    · rw [← hc]
      exact ih _ (by omega) u hu

/-! ## The derivation of SHED -/

/-- What the shed sets make of a branch's view: SHED as they say. -/
def shedView (set : TierSet) (v : BranchCfg × Holds × Bool × Option Nat × Bool) :
    BranchCfg × Holds × Bool × Option Nat × Bool :=
  (v.1, { v.2.1 with shed := set.getLsbD v.1.tier }, v.2.2)

/-- The derivation of SHED gives every branch the hold that the shed sets say. -/
theorem deriveShed_branch (d : Part) {n : Nat} (hn : n < 36) :
    ((deriveShed d).branch n).map Branch.settledView =
      (d.branch n).map fun x => shedView d.sru.shed x.settledView :=
  forBranches_view id (fun e x => x.withShed e) (shedView d.sru.shed) d (fun _ _ => rfl)
    (fun e x hk => by
      unfold Branch.withShed shedHold
      rw [hk.sru]
      rfl) hn

/-- The derivation of SHED takes its last chance to be without a hold from branch `b`. -/
def sheds (d : Part) (b : Nat) : Bool :=
  match d.branch b with
  | some x => loses x (x.withShed d)
  | none => false

/-- A fold over branch numbers posts at most what its steps post, where a step touches its branch alone. -/
theorem foldl_grows {f : Nat → Part → Part} {p : Nat → Bool} {d : Part}
    (hf : ∀ b e, e.sru = d.sru → e.branch b = d.branch b →
      (f b e).sru = d.sru ∧ (∀ n, n ≠ b → (f b e).branch n = e.branch n) ∧
        Grows (if p b then 1 else 0) e (f b e)) (l : List Nat) (hl : l.Nodup) (e : Part)
    (hs : e.sru = d.sru) (he : ∀ b ∈ l, e.branch b = d.branch b) :
    Grows (l.countP p) e (l.foldl (fun e b => f b e) e) := by
  induction l generalizing e with
  | nil => exact .of_rlp rfl
  | cons b l ih =>
    obtain ⟨hnot, hl⟩ := List.nodup_cons.mp hl
    obtain ⟨hs', ho, hg⟩ := hf b e hs (he b List.mem_cons_self)
    have hrest := ih hl (f b e) hs' fun n hn => by
      rw [ho n (fun h => hnot (h ▸ hn))]
      exact he n (List.mem_cons_of_mem _ hn)
    refine (hg.trans hrest).mono ?_
    rw [List.countP_cons]
    omega

/-- The derivation of SHED posts at most one record for each branch that it stops. -/
theorem deriveShed_grows (d : Part) : Grows ((List.range 36).countP (sheds d)) d (deriveShed d) := by
  refine foldl_grows (f := fun b e => changeBranch b (Branch.withShed e) e) (fun b e hs hb => ?_) _
    List.nodup_range d rfl fun _ _ => rfl
  refine ⟨(changeBranch_kept b (Branch.withShed e) (fun _ => rfl) e).sru.trans hs, (Touches.changeBranch _ e).others, ?_⟩
  unfold sheds
  rw [← hb]
  rcases hx : e.branch b with _ | x
  · simp only [changeBranch, hx]
    exact .of_rlp rfl
  · rw [changeBranch_eq hx]
    have hw : x.withShed d = x.withShed e := (withShed_of_sru hs x).symm
    simp only [hw]
    exact .applyOutput b x _ e

theorem deriveShed_grows_all (d : Part) : Grows 36 d (deriveShed d) :=
  (deriveShed_grows d).mono (List.countP_le_length.trans (by simp))

end Sys2Proof.Machine

/-! PROOFS. The expiry of the capacity persistence timer (R90). -/

namespace Sys2Proof.Machine

-- One proof after another: proofs that are checked side by side take a thread each.
set_option Elab.async false

theorem postShed_cycle (k : Nat) (ks : List Nat) (d : Part) : (postShed k ks d).slc.cycle = d.slc.cycle :=
  (postShed_sourced k ks d).cycle

/-- The capacity shed of the tiers `r`, up to the derivation of SHED. -/
def capacityShed (r : List Nat × Nat × Bool) (d : Part) : Part :=
  let joined := postShed 1 r.1 { d with
    sru.capTimer := .stopped, sru.capShed := addTiers d.sru.capShed r.1 }
  if r.2.2 = false ∧ d.sru.capDeficitPosted = false then
    postSru .capacityDeficit (r.2.1 - d.sru.capacity) { joined with sru.capDeficitPosted := true }
  else joined

/-- The tiers that the expiry of the capacity persistence timer selects. -/
def capacityChoice (d : Part) : List Nat × Nat × Bool :=
  selectTiers (· ≤ d.sru.capacity) 0 d.sru.capShed (tierLoad d) shedOrder (load d)

section
variable {d : Part} {left : Nat} (ht : d.sru.capTimer = .running left)
include ht

theorem capacityExpiry_stands (h : d.sru.source ≠ .onAc ∨ load d ≤ d.sru.capacity) :
    capacityExpiry d = { d with sru.capTimer := .stopped } := by
  unfold capacityExpiry
  rw [ht]
  exact if_pos h

theorem capacityExpiry_sheds (hs : d.sru.source = .onAc) (hl : d.sru.capacity < load d) :
    capacityExpiry d = deriveShed (capacityShed (capacityChoice d) d) := by
  unfold capacityExpiry capacityShed capacityChoice
  rw [ht]
  simp only
  rw [if_neg (by rintro (h | h); exacts [h hs, absurd h (Nat.not_le.mpr hl)])]

end

section
variable (r : List Nat × Nat × Bool) (d : Part)

theorem capacityShed_bcu : (capacityShed r d).bcu = d.bcu := by
  unfold capacityShed postSru
  simp only
  split
  · exact (post_uplinked _ _ _ _).bcu.trans (postShed_bcu _ _ _)
  · exact postShed_bcu _ _ _

theorem capacityShed_sru : (capacityShed r d).sru = { d.sru with
    capTimer := .stopped, capShed := addTiers d.sru.capShed r.1
    capDeficitPosted := d.sru.capDeficitPosted || !r.2.2 } := by
  have hj := postShed_sru 1 r.1 { d with
    sru.capTimer := .stopped, sru.capShed := addTiers d.sru.capShed r.1 }
  unfold capacityShed postSru
  simp only
  split
  · rename_i h
    rw [(post_settled _ _ _ _).sru, hj]
    simp [h.1]
  · rename_i h
    rw [hj]
    rcases hp : d.sru.capDeficitPosted with _ | _
    · simp [hp] at h
      simp [h, ← hp]
    · simp [← hp]

/-- With room for all of them the records of a capacity shed wait or are sent. -/
theorem capacityShed_holds (h : d.rlp.events.length + r.1.length + 1 ≤ 64) :
    (∀ k ∈ r.1, (capacityShed r d).holdsEvent ⟨.shedTier, some k, some 1, d.slc.cycle⟩) ∧
    (r.2.2 = false → d.sru.capDeficitPosted = false → (capacityShed r d).holdsEvent
      ⟨.capacityDeficit, none, some (r.2.1 - d.sru.capacity), d.slc.cycle⟩) := by
  have hroom : d.rlp.events.length + r.1.length ≤ 64 := by omega
  have hheld := postShed_holds 1 r.1 { d with
    sru.capTimer := .stopped, sru.capShed := addTiers d.sru.capShed r.1 } hroom
  have hgrows := Grows.postShed 1 r.1 { d with
    sru.capTimer := .stopped, sru.capShed := addTiers d.sru.capShed r.1 }
  have hcycle := postShed_cycle 1 r.1 { d with
    sru.capTimer := .stopped, sru.capShed := addTiers d.sru.capShed r.1 }
  unfold capacityShed postSru
  simp only
  generalize postShed 1 r.1 _ = e at *
  refine ⟨fun k hk => ?_, fun hm hp => ?_⟩
  · split
    · exact (post_settled _ _ _ _).holds _ (hheld k hk)
    · exact hheld k hk
  · rw [if_pos ⟨hm, hp⟩]
    have := post_holds .capacityDeficit none (some (r.2.1 - d.sru.capacity))
      { e with sru.capDeficitPosted := true } (lt_of_le_of_lt hgrows (show d.rlp.events.length + r.1.length < 64 by omega))
    rw [show ({ e with sru.capDeficitPosted := true } : Part).slc.cycle = d.slc.cycle from hcycle] at this
    exact this

end

/-- The procedure selects at most the seven tiers from 7 down to 1. -/
theorem selectTiers_length (goal : Nat → Bool) (least : Nat) (set : TierSet) (part : Nat → Nat) (p : Nat) :
    (selectTiers goal least set part shedOrder p).1.length ≤ 7 :=
  (selectTiers_selection goal least set part shedOrder p).taken.length_le.trans (List.length_filter_le _ _)

/-- A branch as its configured fields, its CTRL demand and its holds. -/
theorem holds_of_view {x y : Option Branch} {set : TierSet}
    (h : y.map Branch.settledView = x.map fun x => shedView set x.settledView) :
    y.map (fun y => (y.cfg, y.demands.ctrl, y.holds)) =
      x.map fun y => (y.cfg, y.demands.ctrl, { y.holds with shed := set.getLsbD y.cfg.tier }) := by
  have hmap := congrArg (Option.map fun v => (v.1, v.2.2.1, v.2.1)) h
  rw [Option.map_map, Option.map_map] at hmap
  exact hmap

/-- Settles O24, by the shed as the timer finds it due, whose records precede the derivation of SHED. -/
theorem capacityExpirySheds : Obligations.CapacityExpirySheds := by
  intro s left hcalm ht
  obtain ⟨⟨hreset, hquiet⟩, hphase⟩ := hcalm
  refine ⟨fun h hlines => ?_, fun hs hl => ?_⟩
  · exact act_same capacityExpiry s _ ⟨hreset, hquiet⟩ (capacityExpiry_stands ht h) hquiet hlines
  · have hchoice : selectTiers (· ≤ s.part.sru.capacity) 0 s.part.sru.capShed
        (tierLoad s.part) [7, 6, 5, 4, 3, 2, 1] (load s.part) = capacityChoice s.part := rfl
    rw [hchoice]
    have hlen : (capacityChoice s.part).1.length ≤ 7 := selectTiers_length _ _ _ _ _
    generalize hr : capacityChoice s.part = r at hlen
    have heff : capacityExpiry s.part = deriveShed (capacityShed r s.part) :=
      hr ▸ capacityExpiry_sheds ht hs hl
    have hsrc := capacityExpiry_sourced s.part
    have hph : ∀ node, (capacityExpiry s.part).rlp.phase ≠ .passing node := by
      rw [hsrc.phase]
      exact hphase
    have hdel := complete_delivered hph
    have hreq := hsrc.toRequestsStand.trans (complete_requestsStand hph)
    refine ⟨_, act_running _ _ hreset, rfl, hsrc.toTablesStand.trans hdel.toTablesStand,
      hsrc.toLinkStands.trans hdel.toLinkStands, hreq, hdel.lkm.trans hsrc.lkm, ?_, fun b hb => ?_, fun hroom => ?_⟩
    · rw [hdel.sru, heff, (deriveShed_kept _).sru, capacityShed_sru]
    · apply holds_of_view
      rw [hdel.branch_view b, heff, deriveShed_branch _ hb, capacityShed_sru,
        branch_of_bcu (congrArg Bcu.branches (capacityShed_bcu r s.part))]
      rfl
    · obtain ⟨htiers, hdeficit⟩ := capacityShed_holds r s.part (by omega)
      have hkeep : ∀ e, (capacityShed r s.part).holdsEvent e → (complete (capacityExpiry s.part)).holdsEvent e :=
        fun e he => hdel.holds e (heff ▸ (deriveShed_kept _).holds e he)
      exact ⟨fun k hk => hkeep _ (htiers k hk), fun hm hp => hkeep _ (hdeficit hm hp)⟩

end Sys2Proof.Machine

/-! PROOFS. The evaluation (R97 to R112): what each stage makes of the SRU, and the figures that it publishes. -/

namespace Sys2Proof.Machine

-- One proof after another: proofs that are checked side by side take a thread each.
set_option Elab.async false

/-! ## The stages of an evaluation -/

/-- The tiers that the shed decision selects. -/
def shedChoice (u p : Nat) (d : Part) : List Nat × Nat × Bool :=
  selectTiers (fun q => goalOf d ≤ seconds u q) 1 d.sru.battShed (tierLoad d) shedOrder p

/-- A battery shed of the tiers `r`, up to the derivation of SHED. -/
def batteryShed (u : Nat) (r : List Nat × Nat × Bool) (d : Part) : Part :=
  let joined := postShed 0 r.1 { d with sru.battShed := addTiers d.sru.battShed r.1 }
  if r.2.2 = false ∧ d.sru.deficitPosted = false then
    postSru .deficit (goalOf d - seconds u r.2.1) { joined with sru.deficitPosted := true }
  else joined

theorem shedDecision_due {u p : Nat} {d : Part} (h : shedDue u p d = true) :
    shedDecision u p d = deriveShed (batteryShed u (shedChoice u p d) d) := by
  unfold shedDecision
  rw [if_pos h]
  rfl

theorem shedDecision_stands {u p : Nat} {d : Part} (h : ¬ shedDue u p d = true) : shedDecision u p d = d :=
  if_neg h

section
variable (u : Nat) (r : List Nat × Nat × Bool) (d : Part)

theorem batteryShed_bcu : (batteryShed u r d).bcu = d.bcu := by
  unfold batteryShed postSru
  simp only
  split
  · exact (post_uplinked _ _ _ _).bcu.trans (postShed_bcu _ _ _)
  · exact postShed_bcu _ _ _

theorem batteryShed_sru : (batteryShed u r d).sru = { d.sru with
    battShed := addTiers d.sru.battShed r.1, deficitPosted := d.sru.deficitPosted || !r.2.2 } := by
  have hj := postShed_sru 0 r.1 { d with sru.battShed := addTiers d.sru.battShed r.1 }
  unfold batteryShed postSru
  simp only
  split
  · rename_i h
    rw [(post_settled _ _ _ _).sru, hj]
    simp [h.1]
  · rename_i h
    rw [hj]
    rcases hp : d.sru.deficitPosted with _ | _
    · simp [hp] at h
      simp [h, ← hp]
    · simp [← hp]

end

theorem shedDecision_sru (u p : Nat) (d : Part) : (shedDecision u p d).sru =
    if shedDue u p d then { d.sru with
      battShed := addTiers d.sru.battShed (shedChoice u p d).1
      deficitPosted := d.sru.deficitPosted || !(shedChoice u p d).2.2 }
    else d.sru := by
  by_cases h : shedDue u p d = true
  · rw [shedDecision_due h, if_pos h, (deriveShed_kept _).sru, batteryShed_sru]
  · rw [shedDecision_stands h, if_neg h]

theorem warn_sru (t : Nat) (d : Part) : (warn t d).sru = { d.sru with
    holdupPosted := d.sru.holdupPosted ||
      (d.sru.source.inEpisode && decide (t ≤ d.sru.profile.warnS)) } := by
  unfold warn postSru
  split
  · rename_i h
    obtain ⟨he, hw, -⟩ := h
    rw [(post_settled _ _ _ _).sru]
    simp [he, hw]
  · rename_i h
    rcases hp : d.sru.holdupPosted with _ | _
    · have hno : (d.sru.source.inEpisode && decide (t ≤ d.sru.profile.warnS)) = false := by
        simpa [hp] using h
      rw [hno, Bool.or_self, ← hp]
    · rw [Bool.true_or, ← hp]

/-- An evaluation with the hold `isHeld` and the energy `u` depletes the part. -/
def depletes (u : Nat) (isHeld : Bool) (d : Part) : Prop :=
  isHeld = false ∧ (u = 0 ∨ someOnline d = false) ∧
    (d.sru.source = .onBattery ∨ (d.sru.source = .returnPending ∧ d.sru.depletedFlag = false))

theorem testDepletion_depletes {u : Nat} {isHeld : Bool} {d : Part} (h : depletes u isHeld d) :
    testDepletion u isHeld d = deplete d := by
  obtain ⟨hh, hu, hs⟩ := h
  unfold testDepletion
  rcases hs with hs | ⟨hs, hf⟩
  · rw [if_pos ⟨by rw [hs]; rfl, hh, hu⟩, hs]
  · rw [if_pos ⟨by rw [hs]; rfl, hh, hu⟩, hs]
    simp only
    rw [if_neg (by rw [hf]; exact nofun)]

theorem testDepletion_stands {u : Nat} {isHeld : Bool} {d : Part} (h : ¬ depletes u isHeld d) :
    testDepletion u isHeld d = d := by
  unfold testDepletion
  split
  · rename_i hc
    obtain ⟨he, hh, hu⟩ := hc
    split
    · rfl
    · rename_i hs
      rcases hf : d.sru.depletedFlag with _ | _
      · exact absurd ⟨hh, hu, .inr ⟨hs, hf⟩⟩ h
      · rfl
    · rename_i hd hr
      refine absurd ⟨hh, hu, .inl ?_⟩ h
      cases hs : d.sru.source <;> simp_all [SourceState.inEpisode]
  · rfl

theorem acGood_of {d e : Part} (hl : e.lines.acfailIn = d.lines.acfailIn) (hp : e.sru.profile = d.sru.profile)
    (hr : e.sru.rects = d.sru.rects) : acGood e = acGood d := by
  unfold acGood okRatings validRects
  rw [hl, hp, hr]

/-- The part as it is depleted, before the AC conditions are examined. -/
def drained (d : Part) : Part :=
  postSru .depleted (d.sru.tBatt / 1000) (deriveShed (setSource .depleted { d with
    sru.depletedFlag := true, sru.battShed := 0xFF, sru.stableTimer := .stopped }))

theorem drained_sru (d : Part) : (drained d).sru = { d.sru with
    source := .depleted, depletedFlag := true, battShed := 0xFF, stableTimer := .stopped } := by
  unfold drained postSru
  rw [(post_settled _ _ _ _).sru, (deriveShed_kept _).sru]
  rfl

theorem drained_frame (d : Part) : Sourced d (drained d) := by
  refine Sourced.trans ?_ (postSru_sourced _ _ _)
  refine Sourced.trans ?_ (deriveShed_sourced _)
  refine Sourced.trans ?_ (setSource_sourced _ _)
  exact sru_sourced d _ rfl

theorem deplete_eq (d : Part) : deplete d = if acGood d then beginReturn (drained d) else drained d := by
  have hg : acGood (drained d) = acGood d := acGood_of (drained_frame d).acfailIn (by rw [drained_sru])
    (by rw [drained_sru])
  have hdep : deplete d = examineAc (drained d) := by
    unfold deplete drained
    simp only
  rw [hdep]
  unfold examineAc
  rw [drained_sru]
  simp only
  rw [hg]

theorem beginReturn_sru (d : Part) : (beginReturn d).sru = { d.sru with
    source := .returnPending, stableTimer := .running d.sru.profile.acStableMs } := rfl

theorem deplete_sru (d : Part) : (deplete d).sru = { d.sru with
    source := if acGood d then .returnPending else .depleted
    depletedFlag := true, battShed := 0xFF
    stableTimer := if acGood d then .running d.sru.profile.acStableMs else .stopped } := by
  rw [deplete_eq]
  split
  · rw [beginReturn_sru, drained_sru]
  · exact drained_sru d

/-- The figures of an evaluation as they are published. -/
def Sru.publish (s : Sru) (u p tProj tNeed tGoal : Nat) (isHeld : Bool) : Sru :=
  { s with u := some u, p := some p, tProj := some tProj, tNeed := some tNeed, tGoal := some tGoal, held := isHeld }

section
variable (u p tProj tNeed tGoal : Nat) (isHeld : Bool) (d : Part)

theorem publish_sru (h : d.sru.source ≠ .onAc) :
    (publish u p tProj tNeed tGoal isHeld d).sru = d.sru.publish u p tProj tNeed tGoal isHeld := by
  unfold publish
  simp only
  rw [(signalOnce_settled _ _).sru, if_neg h]
  rfl

theorem publish_sru_onAc (h : d.sru.source = .onAc) :
    (publish u p tProj tNeed tGoal isHeld d).sru = { d.sru.publish u p tProj tNeed tGoal isHeld with
      evaluatedOnAc := true
      capTimer := if p ≤ d.sru.capacity then .stopped
        else if d.sru.capTimer = .stopped then .running d.sru.profile.capPersistMs else d.sru.capTimer } := by
  unfold publish
  simp only
  rw [(signalOnce_settled _ _).sru, if_pos h]
  unfold examineCapacity
  simp only [h]
  by_cases hp : p ≤ d.sru.capacity
  · rw [if_neg (Nat.not_lt.mpr hp), if_pos hp]
    simp only [Sru.publish, h]
  · rw [if_pos (Nat.not_le.mp hp), if_neg hp]
    cases ht : d.sru.capTimer <;> simp [Sru.publish, h, ht]

theorem publish_bcu : (publish u p tProj tNeed tGoal isHeld d).bcu = d.bcu := by
  unfold publish
  simp only
  rw [signalOnce_bcu]
  split
  · unfold examineCapacity
    repeat' split
    all_goals rfl
  · rfl

end

/-! ## The figures -/

/-- The SRU as an evaluation leaves it, the figures aside. -/
def judged (d : Part) : Part :=
  testDepletion (usableEnergy d) (holdsEnergy d)
    (warn (seconds (usableEnergy d) (load d)) (shedDecision (usableEnergy d) (load d) d))

theorem evaluate_eq (d : Part) : evaluate d = publish (usableEnergy d) (load d)
    (seconds (usableEnergy d) (load d)) (needOf d) (goalOf d) (holdsEnergy d) (judged d) := rfl

theorem shedDue_iff (u p : Nat) (d : Part) : shedDue u p d = true ↔
    (d.sru.source = .onBattery ∨ d.sru.source = .returnPending) ∧ holdsEnergy d = false ∧
      d.sru.battShed &&& 0xFE#8 ≠ 0xFE#8 ∧ seconds u p < goalOf d := by
  simp [shedDue, tiersOneToSeven, and_assoc]

/-- Outside an episode an evaluation judges nothing. -/
theorem judged_outside {d : Part} (h : d.sru.source.inEpisode = false) : judged d = d := by
  have hd : ¬ shedDue (usableEnergy d) (load d) d = true := by
    rw [shedDue_iff]
    rintro ⟨hs | hs, -⟩ <;> rw [hs] at h <;> cases h
  unfold judged
  rw [shedDecision_stands hd, warn, if_neg (fun hw => by rw [h] at hw; cases hw.1), testDepletion_stands]
  rintro ⟨-, -, hs | ⟨hs, -⟩⟩ <;> rw [hs] at h <;> cases h

/-- What the judgement of an evaluation leaves of the SRU. -/
structure Judged (s s' : Sru) : Prop where
  capacity : s'.capacity = s.capacity := by rfl
  capShed : s'.capShed = s.capShed := by rfl
  evalTimer : s'.evalTimer = s.evalTimer := by rfl
  onAc : s'.source = .onAc ↔ s.source = .onAc := by exact Iff.rfl

theorem Judged.trans {a b c : Sru} (h : Judged a b) (g : Judged b c) : Judged a c :=
  ⟨g.capacity.trans h.capacity, g.capShed.trans h.capShed, g.evalTimer.trans h.evalTimer, g.onAc.trans h.onAc⟩

theorem judged_sru (d : Part) : Judged d.sru (judged d).sru := by
  have hshed (u p : Nat) : Judged d.sru (shedDecision u p d).sru := by
    rw [shedDecision_sru]
    split
    · exact {}
    · exact {}
  have hwarn (t : Nat) (e : Part) : Judged e.sru (warn t e).sru := by
    rw [warn_sru]
    exact {}
  have htest (u : Nat) (b : Bool) (e : Part) : Judged e.sru (testDepletion u b e).sru := by
    by_cases h : depletes u b e
    · rw [testDepletion_depletes h, deplete_sru]
      refine { onAc := ?_ }
      obtain ⟨-, -, hs⟩ := h
      simp only
      rcases hs with hs | ⟨hs, -⟩ <;> rw [hs] <;> split <;> simp
    · rw [testDepletion_stands h]
      exact {}
  exact (hshed _ _).trans ((hwarn _ _).trans (htest _ _ _))

theorem onlineBatts_eq_nil (d : Part) :
    ((validBatts d).filter fun b => b.state == .online) = [] ↔ someOnline d = false := by
  unfold someOnline
  rw [List.filter_eq_nil_iff, List.any_eq_false]

theorem holdsEnergy_iff (d : Part) : holdsEnergy d = true ↔
    ((validBatts d).filter fun b => b.state == .online) = [] ∧ ∃ b ∈ validBatts d, b.state = .stale := by
  rw [onlineBatts_eq_nil]
  simp [holdsEnergy]

theorem needOf_eq (d : Part) : needOf d = if d.sru.source = .onAc ∨ d.sru.source = .unknown
    then d.sru.profile.tReqS else d.sru.profile.tReqS - d.sru.tBatt / 1000 := by
  unfold needOf
  cases d.sru.source <;> simp

/-- Settles O26, by the figures that the last stage publishes, which no earlier stage reads afresh. -/
theorem evaluationPublishes : Obligations.EvaluationPublishes := by
  intro s left hcalm ht
  obtain ⟨⟨hreset, -⟩, hphase⟩ := hcalm
  simp only
  have hsrc := evaluationExpiry_sourced s.part
  have hph : ∀ node, (evaluationExpiry s.part).rlp.phase ≠ .passing node := by
    rw [hsrc.phase]
    exact hphase
  have hdel := complete_delivered hph
  have hexp : evaluationExpiry s.part =
      evaluate { s.part with sru.evalTimer := .running s.part.sru.profile.evalMs } := by
    unfold evaluationExpiry
    rw [ht]
  refine ⟨_, act_running _ _ hreset, rfl, hsrc.toTablesStand.trans hdel.toTablesStand,
    hsrc.toLinkStands.trans hdel.toLinkStands, hsrc.toRequestsStand.trans (complete_requestsStand hph),
    hdel.lkm.trans hsrc.lkm, ?_⟩
  dsimp only
  rw [hdel.sru, hexp, evaluate_eq]
  have hj := judged_sru { s.part with sru.evalTimer := .running s.part.sru.profile.evalMs }
  have ho : s.part.sru.source = .onAc → judged { s.part with
      sru.evalTimer := .running s.part.sru.profile.evalMs } = { s.part with
      sru.evalTimer := .running s.part.sru.profile.evalMs } := fun h => judged_outside (by
    show s.part.sru.source.inEpisode = false
    rw [h]
    rfl)
  generalize judged _ = e at hj ho
  have hu : usableEnergy s.part = if ((validBatts s.part).filter fun b => b.state == .online) = [] ∧
      ∃ b ∈ validBatts s.part, b.state = .stale then heldEnergy s.part else formedEnergy s.part := by
    unfold usableEnergy
    simp only [holdsEnergy_iff]
  by_cases hon : s.part.sru.source = .onAc
  · rw [ho hon, publish_sru_onAc _ _ _ _ _ _ _ (by exact hon)]
    exact ⟨congrArg some hu, rfl, congrArg (fun u => some (min 65535 (u * 360 / load s.part))) hu, congrArg some (needOf_eq s.part), congrArg (fun n => some ((n * (1000 + s.part.sru.profile.marginPm) + 999) / 1000)) (needOf_eq s.part),
      holdsEnergy_iff s.part, rfl, rfl, rfl, fun _ => ⟨hon, rfl, rfl, rfl⟩⟩
  · rw [publish_sru _ _ _ _ _ _ _ (fun h => hon (hj.onAc.mp h))]
    exact ⟨congrArg some hu, rfl, congrArg (fun u => some (min 65535 (u * 360 / load s.part))) hu, congrArg some (needOf_eq s.part), congrArg (fun n => some ((n * (1000 + s.part.sru.profile.marginPm) + 999) / 1000)) (needOf_eq s.part),
      holdsEnergy_iff s.part, hj.evalTimer, hj.capacity, hj.capShed, fun h => absurd h hon⟩

end Sys2Proof.Machine

/-! PROOFS. What an evaluation of an episode sheds and posts (R105 to R111, R85). -/

namespace Sys2Proof.Machine

-- One proof after another: proofs that are checked side by side take a thread each.
set_option Elab.async false

/-! ## The branches that a derivation of SHED stops -/

/-- SHED stops a branch without a hold whose tier is in a shed set. -/
theorem sheds_iff {d : Part} {b : Nat} : sheds d b = true ↔
    ∃ x, d.branch b = some x ∧ x.holds.any = false ∧ d.sru.shed.getLsbD x.cfg.tier = true := by
  unfold sheds
  rcases d.branch b with _ | x
  · simp
  · simp only [Option.some.injEq, exists_eq_left', loses_iff]
    have hd : (x.withShed d).demands = x.demands := rfl
    rw [hd]
    simp only [Branch.withShed, shedHold, Holds.any]
    rcases x.demands.any <;> cases x.holds.leak <;> cases x.holds.trip <;> cases x.holds.forceOff <;> simp

/-- Every branch carries SHED as the set says. -/
def Shed (set : TierSet) (d : Part) : Prop :=
  ∀ b, b < 36 → ∀ y, d.branch b = some y → y.holds.shed = set.getLsbD y.cfg.tier

theorem shed_of_views {set : TierSet} {d e : Part} (h : Shed set d)
    (hv : ∀ b, (e.branch b).map Branch.settledView = (d.branch b).map Branch.settledView) : Shed set e := by
  intro b hb y hy
  have hvb := hv b
  rw [hy] at hvb
  obtain ⟨x, hx, hxy⟩ := Option.map_eq_some_iff.mp hvb.symm
  obtain ⟨hc, hh, -⟩ := settledView_eq_iff.mp hxy
  rw [← hc, ← hh]
  exact h b hb x hx

theorem shed_of_bcu {set : TierSet} {d e : Part} (h : Shed set d) (hb : e.bcu = d.bcu) : Shed set e :=
  shed_of_views h fun b => by rw [branch_of_bcu (congrArg Bcu.branches hb)]

theorem deriveShed_shed (d : Part) : Shed d.sru.shed (deriveShed d) := by
  intro b hb y hy
  have h := deriveShed_branch d hb
  rw [hy] at h
  obtain ⟨x, -, hxy⟩ := Option.map_eq_some_iff.mp h.symm
  have hc := congrArg Prod.fst hxy
  have hh := congrArg (·.2.1.shed) hxy
  simp only [shedView, Branch.settledView] at hc hh
  rw [← hh, ← hc]

/-- A branch that carries SHED already is not stopped by a derivation of it. -/
theorem not_sheds_of_shed {set : TierSet} {d e : Part} {b : Nat} (hd : sheds d b = true) (hset : set = d.sru.shed)
    (hs : Shed set e) (hb : b < 36) (hc : (e.branch b).map Branch.cfg = (d.branch b).map Branch.cfg) :
    ¬ sheds e b = true := by
  obtain ⟨x, hx, -, ht⟩ := sheds_iff.mp hd
  rw [sheds_iff]
  rintro ⟨y, hy, hany, -⟩
  have hyx : y.cfg = x.cfg := by simpa [hx, hy] using hc
  have hshed := hs b hb y hy
  rw [hyx, hset, ht] at hshed
  simp [Holds.any, hshed] at hany

theorem countP_add_le {p q : Nat → Bool} (l : List Nat) (h : ∀ b ∈ l, p b = true → ¬ q b = true) :
    l.countP p + l.countP q ≤ l.length := by
  induction l with
  | nil => exact le_refl _
  | cons b l ih =>
    have := ih fun c hc => h c (List.mem_cons_of_mem _ hc)
    have hb := h b List.mem_cons_self
    rw [List.countP_cons, List.countP_cons, List.length_cons]
    rcases hp : p b with _ | _ <;> rcases hq : q b with _ | _ <;> simp_all <;> omega

/-! ## The records of the stages -/

/-- With room for all of them the records of a battery shed wait or are sent. -/
theorem batteryShed_holds (u : Nat) (r : List Nat × Nat × Bool) (d : Part)
    (h : d.rlp.events.length + r.1.length + 1 ≤ 64) :
    (∀ k ∈ r.1, (batteryShed u r d).holdsEvent ⟨.shedTier, some k, some 0, d.slc.cycle⟩) ∧
    (r.2.2 = false → d.sru.deficitPosted = false → (batteryShed u r d).holdsEvent
      ⟨.deficit, none, some (goalOf d - seconds u r.2.1), d.slc.cycle⟩) := by
  have hroom : d.rlp.events.length + r.1.length ≤ 64 := by omega
  have hheld := postShed_holds 0 r.1 { d with sru.battShed := addTiers d.sru.battShed r.1 } hroom
  have hgrows := Grows.postShed 0 r.1 { d with sru.battShed := addTiers d.sru.battShed r.1 }
  have hcycle := postShed_cycle 0 r.1 { d with sru.battShed := addTiers d.sru.battShed r.1 }
  unfold batteryShed postSru
  simp only
  generalize postShed 0 r.1 _ = e at *
  refine ⟨fun k hk => ?_, fun hm hp => ?_⟩
  · split
    · exact (post_settled _ _ _ _).holds _ (hheld k hk)
    · exact hheld k hk
  · rw [if_pos ⟨hm, hp⟩]
    have := post_holds .deficit none (some (goalOf d - seconds u r.2.1))
      { e with sru.deficitPosted := true }
      (lt_of_le_of_lt hgrows (show d.rlp.events.length + r.1.length < 64 by omega))
    rw [show ({ e with sru.deficitPosted := true } : Part).slc.cycle = d.slc.cycle from hcycle] at this
    exact this

theorem batteryShed_grows (u : Nat) (r : List Nat × Nat × Bool) (d : Part) :
    Grows (r.1.length + 1) d (batteryShed u r d) := by
  have hgrows : Grows r.1.length d (postShed 0 r.1 { d with sru.battShed := addTiers d.sru.battShed r.1 }) :=
    Grows.postShed 0 r.1 { d with sru.battShed := addTiers d.sru.battShed r.1 }
  unfold batteryShed postSru
  simp only
  generalize postShed 0 r.1 _ = e at *
  split
  · exact hgrows.trans (Grows.post _ _ _ { e with sru.deficitPosted := true })
  · exact hgrows.mono (Nat.le_succ _)

theorem warn_grows (t : Nat) (d : Part) : Grows 1 d (warn t d) := by
  unfold warn postSru
  split
  · exact Grows.post _ _ _ { d with sru.holdupPosted := true }
  · exact Grows.mono (.of_rlp rfl) (by decide : 0 ≤ 1)

theorem warn_bcu (t : Nat) (d : Part) : (warn t d).bcu = d.bcu := by
  unfold warn postSru
  split
  · exact (post_uplinked _ _ _ _).bcu
  · rfl

theorem warn_holds {t : Nat} {d : Part} (he : d.sru.source.inEpisode = true) (hw : t ≤ d.sru.profile.warnS)
    (hp : d.sru.holdupPosted = false) (hroom : d.rlp.events.length < 64) :
    (warn t d).holdsEvent ⟨.holdupLow, none, some t, d.slc.cycle⟩ := by
  unfold warn postSru
  rw [if_pos ⟨he, hw, hp⟩]
  exact post_holds .holdupLow none (some t) { d with sru.holdupPosted := true } hroom

/-- The part as a depletion takes every tier. -/
def emptied (d : Part) : Part :=
  setSource .depleted { d with sru.depletedFlag := true, sru.battShed := 0xFF, sru.stableTimer := .stopped }

theorem drained_holds {d : Part} (h : d.rlp.events.length + (List.range 36).countP (sheds (emptied d)) < 64) :
    (drained d).holdsEvent ⟨.depleted, none, some (d.sru.tBatt / 1000), d.slc.cycle⟩ := by
  have hg : Grows ((List.range 36).countP (sheds (emptied d))) d (deriveShed (emptied d)) :=
    deriveShed_grows (emptied d)
  have hc : (deriveShed (emptied d)).slc.cycle = d.slc.cycle := (deriveShed_kept (emptied d)).cycle
  have := post_holds .depleted none (some (d.sru.tBatt / 1000)) (deriveShed (emptied d))
    (by unfold Grows at hg; omega)
  rw [hc] at this
  exact this

theorem drained_eq (d : Part) : drained d = post .depleted none (some (d.sru.tBatt / 1000)) (deriveShed (emptied d)) := by
  unfold drained emptied postSru
  rfl

theorem drained_shed (d : Part) : Shed (0xFF#8 ||| d.sru.capShed) (drained d) := by
  have hset : (emptied d).sru.shed = 0xFF#8 ||| d.sru.capShed := rfl
  rw [drained_eq, ← hset]
  exact shed_of_bcu (deriveShed_shed (emptied d)) (post_uplinked _ _ _ _).bcu

theorem beginReturn_bcu (d : Part) : (beginReturn d).bcu = d.bcu := rfl

theorem beginReturn_rlp (d : Part) : (beginReturn d).rlp = d.rlp := rfl

theorem holdsEvent_of_rlp {d e : Part} (h : e.rlp = d.rlp) (r : EventRecord) : e.holdsEvent r ↔ d.holdsEvent r := by
  unfold Part.holdsEvent
  rw [h]

theorem deplete_bcu (d : Part) : (deplete d).bcu = (drained d).bcu := by
  rw [deplete_eq]
  by_cases hg : acGood d = true
  · rw [if_pos hg, beginReturn_bcu]
  · rw [if_neg hg]

theorem deplete_keeps (d : Part) (e : EventRecord) (h : (drained d).holdsEvent e) : (deplete d).holdsEvent e := by
  rw [deplete_eq]
  by_cases hg : acGood d = true
  · rw [if_pos hg, holdsEvent_of_rlp (beginReturn_rlp _)]
    exact h
  · rw [if_neg hg]
    exact h

end Sys2Proof.Machine

/-! PROOFS. The evaluation of an episode as a whole (R105 to R111, R85). -/

namespace Sys2Proof.Machine

-- One proof after another: proofs that are checked side by side take a thread each.
set_option Elab.async false

/-! ## The judgement -/

/-- The part as an evaluation has warned. -/
def warned (d : Part) : Part :=
  warn (seconds (usableEnergy d) (load d)) (shedDecision (usableEnergy d) (load d) d)

/-- The evaluation sheds. -/
def dueNow (d : Part) : Bool := shedDue (usableEnergy d) (load d) d

/-- The evaluation depletes the part. -/
def drainsNow (d : Part) : Prop := depletes (usableEnergy d) (holdsEnergy d) d

/-- The tiers that the evaluation selects. -/
def chosenNow (d : Part) : List Nat × Nat × Bool := shedChoice (usableEnergy d) (load d) d

theorem warned_sru (d : Part) : (warned d).sru = { d.sru with
    battShed := if dueNow d then addTiers d.sru.battShed (chosenNow d).1 else d.sru.battShed
    deficitPosted := d.sru.deficitPosted || (dueNow d && !(chosenNow d).2.2)
    holdupPosted := d.sru.holdupPosted || (d.sru.source.inEpisode &&
      decide (seconds (usableEnergy d) (load d) ≤ d.sru.profile.warnS)) } := by
  unfold warned
  rw [warn_sru, shedDecision_sru]
  unfold dueNow chosenNow
  rcases shedDue (usableEnergy d) (load d) d with _ | _
  · simp
  · simp

theorem drainsNow_warned (d : Part) :
    depletes (usableEnergy d) (holdsEnergy d) (warned d) ↔ drainsNow d := by
  unfold drainsNow depletes someOnline validBatts
  rw [warned_sru]

theorem judged_drained {d : Part} (h : drainsNow d) : judged d = deplete (warned d) :=
  testDepletion_depletes ((drainsNow_warned d).mpr h)

theorem judged_warned {d : Part} (h : ¬ drainsNow d) : judged d = warned d :=
  testDepletion_stands fun hd => h ((drainsNow_warned d).mp hd)

theorem acGood_warned (d : Part) : acGood (warned d) = acGood d :=
  acGood_of ((shedDecision_sourced _ _ d).trans (warn_sourced _ _)).acfailIn (by rw [warned_sru]) (by rw [warned_sru])

theorem warned_shed {d : Part} (h : dueNow d = true) : Shed (warned d).sru.shed (warned d) := by
  have hw : (warned d).sru.shed = (shedDecision (usableEnergy d) (load d) d).sru.shed := by
    unfold warned
    rw [warn_sru]
    rfl
  have hs := deriveShed_shed (batteryShed (usableEnergy d) (chosenNow d) d)
  have heq : shedDecision (usableEnergy d) (load d) d =
    deriveShed (batteryShed (usableEnergy d) (chosenNow d) d) := shedDecision_due h
  rw [hw, heq, (deriveShed_kept _).sru]
  unfold warned
  rw [heq]
  exact shed_of_bcu hs (warn_bcu _ _)

theorem judged_shed {d : Part} (h : dueNow d = true ∨ drainsNow d) : Shed (judged d).sru.shed (judged d) := by
  by_cases hd : drainsNow d
  · have hset : (judged d).sru.shed = 0xFF#8 ||| (warned d).sru.capShed := by
      rw [judged_drained hd, deplete_sru]
      rfl
    rw [hset, judged_drained hd]
    exact shed_of_bcu (drained_shed _) (deplete_bcu _)
  · rw [judged_warned hd]
    exact warned_shed (h.resolve_right hd)

/-! ## The records of an evaluation -/

/-- How many branches the shed decision stops. -/
def stopped (d : Part) : Nat :=
  if dueNow d then (List.range 36).countP (sheds (batteryShed (usableEnergy d) (chosenNow d) d)) else 0

theorem shedDecision_grows (d : Part) :
    Grows (8 + stopped d) d (shedDecision (usableEnergy d) (load d) d) := by
  unfold stopped
  by_cases h : dueNow d = true
  · have hlen : (chosenNow d).1.length ≤ 7 := selectTiers_length _ _ _ _ _
    have heq : shedDecision (usableEnergy d) (load d) d =
      deriveShed (batteryShed (usableEnergy d) (chosenNow d) d) := shedDecision_due h
    rw [heq, if_pos h]
    exact (((batteryShed_grows _ _ d).mono (n := 8) (by omega)).trans (deriveShed_grows _))
  · rw [if_neg h, show shedDecision (usableEnergy d) (load d) d = d from shedDecision_stands h]
    exact (Grows.of_rlp rfl : Grows 0 d d).mono (by decide)

theorem warned_sourced (d : Part) : Sourced d (warned d) :=
  (shedDecision_sourced _ _ d).trans (warn_sourced _ _)

/-- A branch that the shed decision stops is not stopped by a depletion that follows. -/
theorem stopped_once (d : Part) : stopped d + (List.range 36).countP (sheds (emptied (warned d))) ≤ 36 := by
  unfold stopped
  by_cases h : dueNow d = true
  · rw [if_pos h]
    refine (countP_add_le (List.range 36) fun b hb hs => ?_).trans (by simp)
    have hshed : Shed (warned d).sru.shed (emptied (warned d)) := shed_of_bcu (warned_shed h) rfl
    refine not_sheds_of_shed hs ?_ hshed (List.mem_range.mp hb) ?_
    · unfold Sru.shed
      rw [warned_sru, batteryShed_sru]
      simp [h]
    · have hcfg := (warned_sourced d).cfgs
      have hbcu := batteryShed_bcu (usableEnergy d) (chosenNow d) d
      show ((warned d).branch b).map Branch.cfg = _
      unfold Part.branch
      rw [entry_map, entry_map, hcfg, hbcu]
  · rw [if_neg h, Nat.zero_add]
    exact List.countP_le_length.trans (by simp)

/-- With room for 46 records those of an evaluation wait or are sent. -/
theorem judged_holds {d : Part} (he : d.sru.source.inEpisode = true) (hroom : d.rlp.events.length + 46 ≤ 64) :
    let time := seconds (usableEnergy d) (load d)
    (dueNow d = true → ∀ k ∈ (chosenNow d).1, (judged d).holdsEvent ⟨.shedTier, some k, some 0, d.slc.cycle⟩) ∧
    (dueNow d = true → (chosenNow d).2.2 = false → d.sru.deficitPosted = false → (judged d).holdsEvent
      ⟨.deficit, none, some (goalOf d - seconds (usableEnergy d) (chosenNow d).2.1), d.slc.cycle⟩) ∧
    (time ≤ d.sru.profile.warnS → d.sru.holdupPosted = false →
      (judged d).holdsEvent ⟨.holdupLow, none, some time, d.slc.cycle⟩) ∧
    (drainsNow d → (judged d).holdsEvent ⟨.depleted, none, some (d.sru.tBatt / 1000), d.slc.cycle⟩) := by
  have hgs := shedDecision_grows d
  have hgw := hgs.trans (warn_grows (seconds (usableEnergy d) (load d)) _)
  have honce := stopped_once d
  have hlen : (chosenNow d).1.length ≤ 7 := selectTiers_length _ _ _ _ _
  unfold Grows at hgs hgw
  have htest : ∀ r, (warned d).holdsEvent r → (judged d).holdsEvent r := (testDepletion_sourced _ _ _).holds
  have hshed : dueNow d = true → ∀ r, (batteryShed (usableEnergy d) (chosenNow d) d).holdsEvent r →
      (judged d).holdsEvent r := fun h r hr => by
    have heq : shedDecision (usableEnergy d) (load d) d =
      deriveShed (batteryShed (usableEnergy d) (chosenNow d) d) := shedDecision_due h
    refine htest r ((warn_sourced _ _).holds r ?_)
    rw [heq]
    exact (deriveShed_kept _).holds r hr
  obtain ⟨htiers, hdeficit⟩ := batteryShed_holds (usableEnergy d) (chosenNow d) d (by omega)
  refine ⟨fun h k hk => hshed h _ (htiers k hk), fun h hm hp => hshed h _ (hdeficit hm hp), fun hw hp => ?_,
    fun h => ?_⟩
  · have hsru := shedDecision_sru (usableEnergy d) (load d) d
    have hcycle := (shedDecision_sourced (usableEnergy d) (load d) d).cycle
    refine htest _ ?_
    rw [← hcycle]
    refine warn_holds ?_ ?_ ?_ (by omega)
    all_goals
      rw [hsru]
      split
      · assumption
      · assumption
  · rw [judged_drained h]
    refine deplete_keeps _ _ ?_
    have hcycle := (warned_sourced d).cycle
    have hbatt : (warned d).sru.tBatt = d.sru.tBatt := by rw [warned_sru]
    rw [← hcycle, ← hbatt]
    refine drained_holds ?_
    show (warned d).rlp.events.length + _ < 64
    unfold warned at *
    omega

/-! ## The evaluation -/

theorem dueNow_iff {d : Part} (h : d.sru.source = .onBattery ∨ d.sru.source = .returnPending ∨
    d.sru.source = .depleted) : dueNow d = true ↔ d.sru.source ≠ .depleted ∧ holdsEnergy d = false ∧
      d.sru.battShed &&& 0xFE#8 ≠ 0xFE#8 ∧ seconds (usableEnergy d) (load d) < goalOf d := by
  unfold dueNow
  rw [shedDue_iff]
  rcases h with h | h | h <;> rw [h] <;> simp

theorem drainsNow_iff (d : Part) : drainsNow d ↔ holdsEnergy d = false ∧
    (usableEnergy d = 0 ∨ ∀ b ∈ validBatts d, b.state ≠ .online) ∧
    (d.sru.source = .onBattery ∨ (d.sru.source = .returnPending ∧ d.sru.depletedFlag = false)) := by
  unfold drainsNow depletes someOnline
  simp

/-- The SRU as an evaluation of an episode leaves it, the figures aside. -/
structure EpisodeJudged (d d' : Part) : Prop where
  stands : ¬ drainsNow d → d'.sru.source = d.sru.source ∧ d'.sru.depletedFlag = d.sru.depletedFlag ∧
    d'.sru.stableTimer = d.sru.stableTimer ∧
    d'.sru.battShed = if dueNow d then addTiers d.sru.battShed (chosenNow d).1 else d.sru.battShed
  drained : drainsNow d → d'.sru.battShed = 0xFF#8 ∧ d'.sru.depletedFlag = true ∧
    (acGood d = true → d'.sru.source = .returnPending ∧
      d'.sru.stableTimer = .running d.sru.profile.acStableMs) ∧
    (¬ acGood d = true → d'.sru.source = .depleted ∧ d'.sru.stableTimer = .stopped)
  deficitPosted : d'.sru.deficitPosted = (d.sru.deficitPosted || (dueNow d && !(chosenNow d).2.2))
  holdupPosted : d'.sru.holdupPosted = (d.sru.holdupPosted || (d.sru.source.inEpisode &&
    decide (seconds (usableEnergy d) (load d) ≤ d.sru.profile.warnS)))

theorem judged_episode (d : Part) : EpisodeJudged d (judged d) := by
  by_cases hd : drainsNow d
  · have hsru : (judged d).sru = _ := (congrArg Part.sru (judged_drained hd)).trans (deplete_sru (warned d))
    rw [acGood_warned, warned_sru] at hsru
    refine ⟨fun h => absurd hd h, fun _ => ?_, by rw [hsru], by rw [hsru]⟩
    rw [hsru]
    exact ⟨rfl, rfl, fun hg => by simp [hg], fun hg => by simp [hg]⟩
  · have hsru : (judged d).sru = _ := (congrArg Part.sru (judged_warned hd)).trans (warned_sru d)
    refine ⟨fun _ => ?_, fun h => absurd h hd, by rw [hsru], by rw [hsru]⟩
    rw [hsru]
    exact ⟨rfl, rfl, rfl, rfl⟩

/-- Settles O27, by the judgement of the evaluation, which the publication and the delivery leave. -/
theorem evaluationSheds : Obligations.EvaluationSheds := by
  intro s left hcalm ht hsrc
  obtain ⟨⟨hreset, -⟩, hphase⟩ := hcalm
  simp only
  have hstands := evaluationExpiry_sourced s.part
  have hph : ∀ node, (evaluationExpiry s.part).rlp.phase ≠ .passing node := by
    rw [hstands.phase]
    exact hphase
  have hdel := complete_delivered hph
  have hexp : evaluationExpiry s.part =
      evaluate { s.part with sru.evalTimer := .running s.part.sru.profile.evalMs } := by
    unfold evaluationExpiry
    rw [ht]
  have hin : s.part.sru.source.inEpisode = true := by
    rcases hsrc with h | h | h <;> rw [h] <;> rfl
  have hj := judged_episode { s.part with sru.evalTimer := .running s.part.sru.profile.evalMs }
  have hjs := judged_sru { s.part with sru.evalTimer := .running s.part.sru.profile.evalMs }
  have hshed := judged_shed (d := { s.part with sru.evalTimer := .running s.part.sru.profile.evalMs })
  have hholds := judged_holds (d := { s.part with sru.evalTimer := .running s.part.sru.profile.evalMs }) hin
  rw [evaluate_eq] at hexp
  generalize judged _ = e at hexp hj hjs hshed hholds
  have hoff : e.sru.source ≠ .onAc := fun h => by
    have : s.part.sru.source = .onAc := hjs.onAc.mp h
    rw [this] at hin
    cases hin
  have hsru : (complete (evaluationExpiry s.part)).sru = _ :=
    hdel.sru.trans ((congrArg Part.sru hexp).trans (publish_sru _ _ _ _ _ _ e hoff))
  have hcarry : ∀ r, e.holdsEvent r → (complete (evaluationExpiry s.part)).holdsEvent r := fun r hr => by
    refine hdel.holds r ?_
    rw [hexp]
    exact (publish_sourced _ _ _ _ _ _ e).holds r hr
  have hbranch (b : Nat) : ((complete (evaluationExpiry s.part)).branch b).map Branch.settledView =
      (e.branch b).map Branch.settledView := by
    rw [hdel.branch_view b, hexp, branch_of_bcu (congrArg Bcu.branches (publish_bcu _ _ _ _ _ _ e))]
  have hdue := dueNow_iff (d := s.part) hsrc
  have hdrains := drainsNow_iff s.part
  have hgood := acGood_iff (d := s.part)
  refine ⟨_, act_running _ _ hreset, ?_⟩
  dsimp only
  rw [hsru]
  refine ⟨fun h => ?_, fun h => ?_, hjs.capShed, ?_, ?_, fun b hb y hy hcase => ?_, fun hroom => ?_⟩
  · obtain ⟨hsource, hflag, htimer, hset⟩ := hj.stands fun hd => h (hdrains.mp hd)
    exact ⟨hsource, hflag, htimer, hset.trans (if_congr hdue rfl rfl)⟩
  · obtain ⟨hset, hflag, hreturn, hstay⟩ := hj.drained (hdrains.mpr h)
    exact ⟨hset, hflag, fun hg => hreturn (hgood.mpr hg), fun hg => hstay fun hg' => hg (hgood.mp hg')⟩
  · have hdec : dueNow s.part = decide _ := Bool.eq_iff_iff.mpr (hdue.trans decide_eq_true_iff.symm)
    exact hj.deficitPosted.trans
      (congrArg (fun c => s.part.sru.deficitPosted || (c && !(chosenNow s.part).2.2)) hdec)
  · exact hj.holdupPosted.trans (by
      rw [show ({ s.part with sru.evalTimer := .running s.part.sru.profile.evalMs } : Part).sru.source.inEpisode = true
        from hin, Bool.true_and]
      rfl)
  · have hset := shed_of_views (hshed (hcase.imp hdue.mpr hdrains.mpr)) hbranch
    exact hset b hb y hy
  · obtain ⟨htiers, hdeficit, hlow, hdrained⟩ := hholds hroom
    exact ⟨fun h k hk => hcarry _ (htiers (hdue.mpr h) k hk),
      fun h hm hp => hcarry _ (hdeficit (hdue.mpr h) hm hp), fun h hp => hcarry _ (hlow h hp),
      fun h => hcarry _ (hdrained (hdrains.mpr h))⟩

end Sys2Proof.Machine

/-! PROOFS. The expiries of the qualification and the stable timer (R80, R84, R88), with the order of their records. -/

namespace Sys2Proof.Machine

-- One proof after another: proofs that are checked side by side take a thread each.
set_option Elab.async false

/-! ## The records in their order -/

/-- The records posted before stand before those posted since. -/
def Extends (d d' : Part) : Prop := d.posted <+: d'.posted

theorem Extends.of_rlp {d d' : Part} (ht : d'.rlp.tx = d.rlp.tx) (he : d'.rlp.events = d.rlp.events) : Extends d d' := by
  unfold Extends Part.posted
  rw [ht, he]

theorem posted_of_none {d : Part} (h : d.rlp.tx = none) : d.posted = d.rlp.events := by
  unfold Part.posted
  rw [h]
  rfl

/-- The arbiter leaves the posted records in their order. -/
theorem arbitrate_posted {d : Part} (h : d.rlp.events ≠ []) : (arbitrate d).posted = d.posted := by
  unfold arbitrate
  rcases ht : d.rlp.tx with _ | m
  · simp only
    rcases he : d.rlp.events with _ | ⟨e, rest⟩
    · exact absurd he h
    · rw [posted_of_none ht, he]
      rfl
  · rfl

theorem post_posted (k : EventKind) (s v : Option Nat) {d : Part} (h : d.rlp.events.length < 64) :
    (post k s v d).posted = d.posted ++ [newRecord k s v d] := by
  unfold post
  rw [if_pos h, arbitrate_posted (by simp)]
  unfold Part.posted
  rw [List.append_assoc]
  rfl

theorem post_extends (k : EventKind) (s v : Option Nat) (d : Part) : Extends d (post k s v d) := by
  by_cases h : d.rlp.events.length < 64
  · unfold Extends
    rw [post_posted k s v h]
    exact List.prefix_append _ _
  · unfold post
    rw [if_neg h]
    exact .of_rlp rfl rfl

theorem extends_built : Built Extends where
  trans h g := List.IsPrefix.trans h g
  still h := .of_rlp (by rw [h.rlp]) (by rw [h.rlp])
  post := post_extends
  putBranch _ _ _ := .of_rlp rfl rfl
  emptied _ _ := .of_rlp rfl rfl
  bcu _ _ _ := .of_rlp rfl rfl
  noteFaulted b x d := .of_rlp (by rw [noteFaulted_rlp]) (by rw [noteFaulted_rlp])

theorem extends_sqe (d : Part) (q : Sqe) (_ : Advances d.sqe q) : Extends d { d with sqe := q } := .of_rlp rfl rfl

/-- The end of a command leaves the posted records in their order. -/
theorem complete_extends {d : Part} (h : ∀ node, d.rlp.phase ≠ .passing node) : Extends d (complete d) := by
  rw [complete_calm d h]
  exact extends_built.trans (extends_built.settleAll extends_sqe d) (.of_rlp rfl rfl)

/-! ## The decision that leaves SOURCE_UNKNOWN -/

/-- The part as the decision begins: the qualification timer has stopped, the evaluation timer runs. -/
def deciding (d : Part) : Part :=
  { d with sru.qualTimer := .stopped, sru.evalTimer := .running d.sru.profile.evalMs }

theorem qualify_good {d : Part} (h : acGood d = true) :
    qualify d = postSru .sourceQualified 1 (enterOnAc (deciding d)) := by
  unfold qualify deciding
  simp only
  rw [if_pos h]
  rfl

theorem qualify_lost {d : Part} (h : ¬ acGood d = true) : qualify d = beginEpisode .unknown
    (postSru .sourceQualified 2 { deciding d with sru.source := .onBattery }) := by
  unfold qualify deciding
  simp only
  rw [if_neg h]
  rfl

/-- The part as an episode takes its fields. -/
def episode (d : Part) : Part :=
  setSource .onBattery { d with
    sru.tBatt := 0, sru.tBattCounts := true, sru.depletedFlag := false
    sru.deficitPosted := false, sru.holdupPosted := false
    sru.capTimer := .stopped, sru.capShed := 0, sru.capDeficitPosted := false }

theorem beginEpisode_eq (left : SourceState) (d : Part) :
    beginEpisode left d = postSru .acLoss left.code (deriveShed (episode d)) := rfl

theorem deriveShed_extends (d : Part) : Extends d (deriveShed d) :=
  extends_built.forBranches _ (fun _ d => extends_built.changeBranch _ _ d) d

/-- With room for what the derivation of SHED posts, the record of an episode that begins is the last. -/
theorem beginEpisode_posted {left : SourceState} {d : Part} (h : d.rlp.events.length + 37 ≤ 64) :
    ∃ l, (beginEpisode left d).posted = d.posted ++ l ++ [⟨.acLoss, none, some left.code, d.slc.cycle⟩] := by
  have hgrows : Grows 36 d (deriveShed (episode d)) := deriveShed_grows_all (episode d)
  have hext : Extends d (deriveShed (episode d)) := deriveShed_extends (episode d)
  have hcycle : (deriveShed (episode d)).slc.cycle = d.slc.cycle := (deriveShed_kept (episode d)).cycle
  rw [beginEpisode_eq]
  generalize deriveShed (episode d) = e at *
  unfold Grows at hgrows
  obtain ⟨l, hl⟩ := hext
  refine ⟨l, ?_⟩
  unfold postSru
  rw [post_posted _ _ _ (by omega), ← hl]
  unfold newRecord
  rw [hcycle]

theorem signalOnce_rlp (s : Signal) (d : Part) : (signalOnce s d).rlp = d.rlp := by
  unfold signalOnce
  split <;> rfl

theorem releaseShed_rlp (d : Part) : (releaseShed d).rlp = d.rlp := by
  rw [releaseShed_eq, setQueue_rlp]
  refine foldl_rel (R := fun d d' => d'.rlp = d.rlp) (fun _ => rfl) (fun h k => k.trans h) _ (fun e b => ?_) _ d
  unfold releaseOne
  split
  · simp only
    split
    · rfl
    · exact signalOnce_rlp _ _
  · rfl

/-- The part as it enters ON_AC, before the shed sets are released. -/
def enteringOnAc (d : Part) : Part :=
  { d with
    sru.source := .onAc, sru.stableTimer := .stopped, sru.tBattCounts := false
    sru.depletedFlag := false, sru.evaluatedOnAc := false
    sru.battShed := 0, sru.capShed := 0, sru.capDeficitPosted := false }

theorem enterOnAc_eq (d : Part) :
    enterOnAc d = signal (.source .onAc) (signalOnce .attempt (releaseShed (enteringOnAc d))) := rfl

theorem enterOnAc_rlp (d : Part) : (enterOnAc d).rlp = d.rlp := by
  rw [enterOnAc_eq]
  have h := releaseShed_rlp (enteringOnAc d)
  unfold signalOnce
  split
  · exact h
  · exact h

/-- In ON_AC no branch carries SHED. -/
theorem enterOnAc_branch (d : Part) {b : Nat} (hb : b < 36) :
    ((enterOnAc d).branch b).map Branch.settledView = (d.branch b).map fun x => shedView 0 x.settledView := by
  have hbcu : (enterOnAc d).branch b = (releaseShed (enteringOnAc d)).branch b := by
    rw [enterOnAc_eq]
    exact branch_of_bcu (congrArg Bcu.branches (signalOnce_bcu _ _)) b
  rw [hbcu, releaseShed_branch _ hb, Option.map_map]
  refine Option.map_congr fun x _ => ?_
  show (releasedBranch (enteringOnAc d) b x).settledView = _
  have hview : (releasedBranch (enteringOnAc d) b x).settledView =
      (x.withShed (enteringOnAc d)).settledView := by
    unfold releasedBranch
    split <;> rfl
  have hset : (enteringOnAc d).sru.shed = 0 := (rfl : (0 : TierSet) ||| 0 = 0)
  rw [hview]
  unfold Branch.withShed shedHold
  rw [hset]
  rfl

/-! ## The timers -/

section
variable {d : Part}

theorem qualificationExpiry_empty {left : Nat} (hs : d.sru.source = .unknown) (ht : d.sru.qualTimer = .running left)
    (h : validRects d = []) : qualificationExpiry d = { d with sru.qualTimer := .stopped } := by
  unfold qualificationExpiry
  rw [hs, ht]
  simp [h]

theorem qualificationExpiry_decides {left : Nat} (hs : d.sru.source = .unknown)
    (ht : d.sru.qualTimer = .running left) (h : validRects d ≠ []) : qualificationExpiry d = qualify d := by
  unfold qualificationExpiry
  rw [hs, ht]
  simp [h]

theorem stableExpiry_returns {left : Nat} (hs : d.sru.source = .returnPending)
    (ht : d.sru.stableTimer = .running left) : stableExpiry d =
      postSru .restoreDone (tierCount d.sru.shed) (postSru .acReturn (d.sru.tBatt / 1000) (enterOnAc d)) := by
  unfold stableExpiry
  rw [hs, ht]

theorem stableExpiry_stands (h : d.sru.source ≠ .returnPending ∨ ∀ left, d.sru.stableTimer ≠ .running left) :
    stableExpiry d = d := by
  unfold stableExpiry
  split
  · rename_i left hs ht
    exact absurd ‹_› (by rcases h with h | h; exacts [fun _ => h hs, fun _ => h _ ht])
  · rfl

end

/-- Settles O23, by the decision of R80 and by the end of an episode, whose records stay in their order. -/
theorem sourceTimersExpire : Obligations.SourceTimersExpire := by
  refine ⟨fun s left hcalm hs ht => ?_, fun s hcalm => ⟨fun left hs ht => ?_, fun h hlines => ?_⟩⟩
  · obtain ⟨⟨hreset, hquiet⟩, hphase⟩ := hcalm
    have hsrc := qualificationExpiry_sourced s.part
    have hph : ∀ node, (qualificationExpiry s.part).rlp.phase ≠ .passing node := by
      rw [hsrc.phase]
      exact hphase
    have hdel := complete_delivered hph
    have hext : Extends _ _ := complete_extends hph
    have hdecides {u : Sru} {l : List EventRecord} (hu : (qualificationExpiry s.part).sru = u)
        (hl : s.part.rlp.events.length + 38 ≤ 64 → l.Sublist (qualificationExpiry s.part).posted) :
        ∃ t, exec .qualificationTimerExpiry s = .next t ∧ t.pending = s.pending ∧
          TablesStand s.part t.part ∧ LinkStands s.part t.part ∧ RequestsStand s.part t.part ∧
          t.part.lkm = s.part.lkm ∧ t.part.sru = u ∧
          (s.part.rlp.events.length + 38 ≤ 64 → l.Sublist t.part.posted) :=
      ⟨_, act_running _ _ hreset, rfl, hsrc.toTablesStand.trans hdel.toTablesStand,
        hsrc.toLinkStands.trans hdel.toLinkStands, hsrc.toRequestsStand.trans (complete_requestsStand hph),
        hdel.lkm.trans hsrc.lkm, hdel.sru.trans hu, fun h => (hl h).trans hext.sublist⟩
    refine ⟨fun h hlines => ?_, fun h hg => hdecides ?_ fun hroom => ?_, fun h hg => hdecides ?_ fun hroom => ?_⟩
    · exact act_same qualificationExpiry s _ ⟨hreset, hquiet⟩ (qualificationExpiry_empty hs ht h) hquiet hlines
    · rw [qualificationExpiry_decides hs ht h, qualify_good (acGood_iff.mpr hg)]
      exact (post_settled _ _ _ _).sru.trans (enterOnAc_sru _)
    · rw [qualificationExpiry_decides hs ht h, qualify_good (acGood_iff.mpr hg), List.singleton_sublist, mem_posted]
      have hrlp := enterOnAc_rlp (deciding s.part)
      have := post_holds .sourceQualified none (some 1) (enterOnAc (deciding s.part))
        (by rw [hrlp]; exact (by omega : s.part.rlp.events.length < 64))
      rw [(enterOnAc_sourced (deciding s.part)).cycle] at this
      exact this
    · rw [qualificationExpiry_decides hs ht h, qualify_lost (fun hg' => hg (acGood_iff.mp hg')), beginEpisode_sru,
        postSru, (post_settled _ _ _ _).sru]
      rfl
    · rw [qualificationExpiry_decides hs ht h, qualify_lost (fun hg' => hg (acGood_iff.mp hg'))]
      have hlt : s.part.rlp.events.length < 64 := by omega
      have hpost := post_posted .sourceQualified none (some 2)
        (d := { deciding s.part with sru.source := .onBattery }) hlt
      have hgrows := Grows.post .sourceQualified none (some 2) { deciding s.part with sru.source := .onBattery }
      have hcycle := (post_settled .sourceQualified none (some 2)
        { deciding s.part with sru.source := .onBattery }).cycle
      unfold postSru
      generalize post .sourceQualified none (some 2) _ = e at *
      have hle : e.rlp.events.length ≤ s.part.rlp.events.length + 1 := hgrows
      obtain ⟨l, hl⟩ := beginEpisode_posted (left := .unknown) (d := e) (by omega)
      rw [hl, hpost, show e.slc.cycle = s.part.slc.cycle from hcycle]
      show ([_] ++ [_] : List EventRecord).Sublist _
      refine List.Sublist.append ?_ (List.Sublist.refl _)
      exact ((List.sublist_append_right _ _).trans (List.sublist_append_left _ _))
  · obtain ⟨⟨hreset, hquiet⟩, hphase⟩ := hcalm
    have hsrc := stableExpiry_sourced s.part
    have hph : ∀ node, (stableExpiry s.part).rlp.phase ≠ .passing node := by
      rw [hsrc.phase]
      exact hphase
    have hdel := complete_delivered hph
    have hext : Extends _ _ := complete_extends hph
    refine ⟨_, act_running _ _ hreset, rfl, hsrc.toTablesStand.trans hdel.toTablesStand,
      hsrc.toLinkStands.trans hdel.toLinkStands, hsrc.toRequestsStand.trans (complete_requestsStand hph),
      hdel.lkm.trans hsrc.lkm, ?_, fun b hb => ?_, fun hroom => ?_⟩
    · rw [hdel.sru, stableExpiry_returns hs ht]
      exact (post_settled _ _ _ _).sru.trans ((post_settled _ _ _ _).sru.trans (enterOnAc_sru _))
    · have hview : ((complete (stableExpiry s.part)).branch b).map Branch.settledView =
          (s.part.branch b).map fun x => shedView 0 x.settledView := by
        rw [hdel.branch_view b, stableExpiry_returns hs ht, ← enterOnAc_branch s.part hb]
        exact congrArg _ (branch_of_bcu (congrArg Bcu.branches
          ((post_uplinked _ _ _ _).bcu.trans (post_uplinked _ _ _ _).bcu)) b)
      rw [holds_of_view hview]
      refine Option.map_congr fun x _ => ?_
      simp
    · refine List.Sublist.trans ?_ hext.sublist
      rw [stableExpiry_returns hs ht]
      have hrlp := enterOnAc_rlp s.part
      have hcycle := (enterOnAc_sourced s.part).cycle
      have hroom' : (enterOnAc s.part).rlp.events.length + 2 ≤ 64 := by rw [hrlp]; exact hroom
      generalize enterOnAc s.part = e at *
      have hpost := post_posted .acReturn none (some (s.part.sru.tBatt / 1000)) (d := e) (by omega)
      have hgrows := Grows.post .acReturn none (some (s.part.sru.tBatt / 1000)) e
      have hcycle' := (post_settled .acReturn none (some (s.part.sru.tBatt / 1000)) e).cycle
      unfold Grows at hgrows
      unfold postSru
      rw [post_posted _ _ _ (by omega), hpost]
      unfold newRecord
      rw [hcycle', hcycle, List.append_assoc]
      exact List.sublist_append_right _ _
  · exact act_same stableExpiry s _ hcalm.1 (stableExpiry_stands h) hcalm.1.2 hlines

end Sys2Proof.Machine

/-! PROOFS. A change of ACFAIL_IN (R79, R81 to R83), with the AC cause that a move of the source gives the run (R127). -/

namespace Sys2Proof.Machine

-- One proof after another: proofs that are checked side by side take a thread each.
set_option Elab.async false

/-! ## The run while the BCU works -/

/-- The causes, the place, the state and the timer of the run stand. -/
def RunRests (d d' : Part) : Prop := d'.sqe.causes = d.sqe.causes ∧ d'.sqe.index = d.sqe.index ∧
  d'.sqe.phase = d.sqe.phase ∧ d'.sqe.run = d.sqe.run ∧ d'.sqe.timer = d.sqe.timer

theorem RunRests.of_sqe {d d' : Part} (h : d'.sqe = d.sqe) : RunRests d d' := by
  unfold RunRests
  rw [h]
  exact ⟨rfl, rfl, rfl, rfl, rfl⟩

theorem runRests_built : Built RunRests where
  trans h g := by
    obtain ⟨h1, h2, h3, h4, h5⟩ := h
    obtain ⟨g1, g2, g3, g4, g5⟩ := g
    exact ⟨g1.trans h1, g2.trans h2, g3.trans h3, g4.trans h4, g5.trans h5⟩
  still h := .of_sqe h.sqe
  post k s v d := .of_sqe (post_uplinked k s v d).sqe
  putBranch _ _ _ := .of_sqe rfl
  emptied _ _ := .of_sqe rfl
  bcu _ _ _ := .of_sqe rfl
  noteFaulted b x d := by
    unfold noteFaulted
    repeat' split
    all_goals exact ⟨rfl, rfl, rfl, rfl, rfl⟩

theorem deriveShed_notes (d : Part) : Notes d (deriveShed d) :=
  foldl_rel (R := Notes) (fun _ => .of_agenda rfl) Notes.trans _
    (fun d b => (Touches.changeBranch (b := b) (Branch.withShed d) d).notes) _ d

/-! ## The AC cause -/

/-- A run record that takes causes of which one is held. -/
def Sqe.holding (c : Causes) (q : Sqe) : Sqe :=
  { q with causes := c, run := if q.run = .running then .suspended else q.run
           timer := if q.run = .running then q.timer.freeze else q.timer }

theorem setCauses_holding {c : Causes} (hc : c.any = true) (d : Part) :
    (setCauses c d).sqe = d.sqe.holding c ∧ (setCauses c d).agenda = d.agenda ∧ (setCauses c d).sru = d.sru := by
  by_cases hr : d.sqe.run = .running
  · rw [setCauses_suspends hr hc]
    have hu := post_uplinked .runSuspended (some d.sqe.index) (some c.code) { d with
      sqe.causes := c, sqe.run := .suspended, sqe.timer := d.sqe.timer.freeze }
    unfold postStep
    refine ⟨hu.sqe.trans ?_, hu.agenda, hu.sru⟩
    simp [Sqe.holding, hr]
  · have hsame : setCauses c d = { d with sqe.causes := c } := by
      unfold setCauses
      simp [hr, hc]
    rw [hsame]
    refine ⟨?_, rfl, rfl⟩
    simp [Sqe.holding, hr]

/-- The source has moved away from ON_AC to `σ`: its hand-off is due first, and then attempts and examinations. -/
structure SourceMoved (σ : SourceState) (d x : Part) : Prop where
  off : σ ≠ .onAc
  source : x.sru.source = σ
  notes : Notes { d with agenda := [.source σ] } x
  rests : RunRests d x

theorem settle_moved (n : Nat) {σ : SourceState} {x : Part} {l : List Signal} (hoff : σ ≠ .onAc) (hs : x.sru.source = σ)
    (hl : x.agenda = .source σ :: l) (hn : l.Nodup) (hnote : ∀ s ∈ l, s = .attempt ∨ s = .branches) (h2 : 2 ≤ n) :
    (settle (n + 1) x).sqe = x.sqe.holding { x.sqe.causes with ac := true } := by
  obtain ⟨hsqe, hagenda, hsru⟩ := setCauses_holding (c := { x.sqe.causes with ac := true }) rfl { x with agenda := l }
  have hac : acCause σ { x with agenda := l } = setCauses { x.sqe.causes with ac := true } { x with agenda := l } := by
    unfold acCause
    rw [show (σ != .onAc) = true by simpa using hoff]
  unfold settle
  rw [hl]
  show (settle n (acCause σ { x with agenda := l })).sqe = _
  rw [hac]
  generalize setCauses _ _ = e at hsqe hagenda hsru
  have hnoted : Noted e := by
    unfold Noted
    rw [hagenda]
    exact ⟨hn, hnote⟩
  rw [settle_stilled n ⟨?_, .inl ?_⟩ hnoted.2 (hnoted.length_le.trans h2)]
  · exact hsqe
  · rw [hsqe]
    unfold Sqe.holding
    dsimp only
    split
    · exact nofun
    · assumption
  · rw [hsru]
    exact fun h => hoff (hs.symm.trans h)

/-- The delivery of a move of the source gives the run the AC cause. -/
theorem SourceMoved.settleAll {σ : SourceState} {d x : Part} (h : SourceMoved σ d x) :
    (settleAll x).sqe = x.sqe.holding { x.sqe.causes with ac := true } := by
  obtain ⟨l, hl, hn, hs⟩ := h.notes
  exact settle_moved 19999 h.off h.source hl hn (fun s hm => (hs s hm).1) (by decide)

/-! ## The examination of the AC conditions -/

section
variable {d : Part}

theorem beginEpisode_moved (left : SourceState) (h : d.agenda = []) : SourceMoved .onBattery d (beginEpisode left d) where
  off := nofun
  source := by rw [beginEpisode_sru]
  notes := by
    rw [beginEpisode_eq]
    unfold postSru
    have hagenda : (episode d).agenda = [.source .onBattery] := by
      show d.agenda ++ _ = _
      rw [h]
      rfl
    have hn := deriveShed_notes (episode d)
    refine Notes.trans ?_ (hn.trans (.of_agenda (post_uplinked _ _ _ _).agenda))
    exact .of_agenda hagenda
  rests := by
    rw [beginEpisode_eq]
    unfold postSru
    have hbegun : RunRests d (episode d) := .of_sqe rfl
    have hshed : RunRests (episode d) (deriveShed (episode d)) :=
      runRests_built.forBranches _ (fun _ d => runRests_built.changeBranch _ _ d) (episode d)
    exact runRests_built.trans hbegun (runRests_built.trans hshed (runRests_built.post _ _ _ _))

theorem beginReturn_moved (h : d.agenda = []) : SourceMoved .returnPending d (beginReturn d) where
  off := nofun
  source := rfl
  notes := .of_agenda (by
    show d.agenda ++ _ = _
    rw [h]
    rfl)
  rests := .of_sqe rfl

/-- The part as a return ends: the stable timer has stopped. -/
def relapsed (d : Part) : Part :=
  setSource (if d.sru.depletedFlag then .depleted else .onBattery) { d with sru.stableTimer := .stopped }

theorem relapsed_moved (h : d.agenda = []) :
    SourceMoved (if d.sru.depletedFlag then .depleted else .onBattery) d (postSru .acLoss 3 (relapsed d)) where
  off := by split <;> exact nofun
  source := congrArg Sru.source (post_uplinked _ _ _ (relapsed d)).sru
  notes := .of_agenda ((post_uplinked _ _ _ (relapsed d)).agenda.trans (by
    show d.agenda ++ _ = _
    rw [h]
    rfl))
  rests := runRests_built.trans (.of_sqe rfl) (runRests_built.post _ _ _ (relapsed d))

theorem examineAc_unknown (h : d.sru.source = .unknown) : examineAc d = d := by
  unfold examineAc
  rw [h]

theorem examineAc_onAc (h : d.sru.source = .onAc) : examineAc d = if acLost d then beginEpisode .onAc d else d := by
  unfold examineAc
  rw [h]

theorem examineAc_off (h : d.sru.source = .onBattery ∨ d.sru.source = .depleted) :
    examineAc d = if acGood d then beginReturn d else d := by
  unfold examineAc
  rcases h with h | h <;> rw [h]

theorem examineAc_pending (h : d.sru.source = .returnPending) :
    examineAc d = if acGood d then d else postSru .acLoss 3 (relapsed d) := by
  unfold examineAc
  rw [h]
  rfl

end

/-! ## The change of the line -/

/-- The line alone changes. -/
theorem acfail_line {s : State} {a : Bool} (hr : s.part.running) (hlines : s.part.linesFollow)
    (h : examineAc (setAcfail a s.part) = setAcfail a s.part) :
    exec (.acfailInChange a) s = .next { s with part := setAcfail a s.part } := by
  have := act_same examineAc { s with part := setAcfail a s.part } (setAcfail a s.part) hr h hr.2 hlines
  exact this

/-- What a move of the source by the line leaves and brings. -/
theorem acfail_moves {s : State} {a : Bool} {σ : SourceState} {x : Part} {u : Sru} (hcalm : s.part.calm)
    (he : examineAc (setAcfail a s.part) = x) (hm : SourceMoved σ (setAcfail a s.part) x) (hu : x.sru = u) :
    ∃ t, exec (.acfailInChange a) s = .next t ∧ t.pending = s.pending ∧
      TablesStand (setAcfail a s.part) t.part ∧ LinkStands (setAcfail a s.part) t.part ∧
      RequestsStand (setAcfail a s.part) t.part ∧ t.part.sru = u ∧ t.part.lkm = s.part.lkm ∧
      t.part.lines.alertOut = true ∧ t.part.sqe.causes = { s.part.sqe.causes with ac := true } ∧
      t.part.sqe.index = s.part.sqe.index ∧ t.part.sqe.phase = s.part.sqe.phase ∧
      (if s.part.sqe.run = .running then
          t.part.sqe.run = .suspended ∧ t.part.sqe.timer = s.part.sqe.timer.freeze
        else t.part.sqe.run = s.part.sqe.run ∧ t.part.sqe.timer = s.part.sqe.timer) ∧
      ∀ b, (t.part.branch b).map (fun y => (y.cfg, y.holds.leak, y.holds.trip, y.holds.forceOff)) =
        (s.part.branch b).map fun y => (y.cfg, y.holds.leak, y.holds.trip, y.holds.forceOff) := by
  obtain ⟨⟨hreset, -⟩, hphase⟩ := hcalm
  have hsrc := he ▸ examineAc_sourced (setAcfail a s.part)
  have hph : ∀ node, x.rlp.phase ≠ .passing node := by
    rw [hsrc.phase]
    exact hphase
  have hdel := complete_delivered hph
  have hsqe : (complete x).sqe = x.sqe.holding { x.sqe.causes with ac := true } := by
    rw [complete_calm x hph]
    exact hm.settleAll
  obtain ⟨hcauses, hindex, hphase', hrun, htimer⟩ := hm.rests
  refine ⟨{ s with part := complete x }, ?_, rfl, hsrc.toTablesStand.trans hdel.toTablesStand,
    hsrc.toLinkStands.trans hdel.toLinkStands, hsrc.toRequestsStand.trans (complete_requestsStand hph),
    hdel.sru.trans hu, hdel.lkm.trans hsrc.lkm, ?_, ?_, ?_, ?_, ?_, fun b => ?_⟩
  · have := act_running examineAc { s with part := setAcfail a s.part } hreset
    rw [he] at this
    exact this
  · have hlines : (complete x).linesFollow := by
      rw [complete_calm x hph]
      exact refreshLines_follow _
    have hoff : (complete x).sru.source ≠ .onAc := by
      rw [hdel.sru, hm.source]
      exact hm.off
    show (complete x).lines.alertOut = true
    rw [hlines.2]
    simp [alertLevel, hoff]
  · show (complete x).sqe.causes = _
    rw [hsqe]
    show { x.sqe.causes with ac := true } = _
    rw [hcauses]
    rfl
  · show (complete x).sqe.index = _
    rw [hsqe]
    exact hindex
  · show (complete x).sqe.phase = _
    rw [hsqe]
    exact hphase'
  · show if s.part.sqe.run = .running then (complete x).sqe.run = _ ∧ (complete x).sqe.timer = _
      else (complete x).sqe.run = _ ∧ (complete x).sqe.timer = _
    have hrun' : x.sqe.run = s.part.sqe.run := hrun
    have htimer' : x.sqe.timer = s.part.sqe.timer := htimer
    rw [hsqe]
    unfold Sqe.holding
    rw [hrun', htimer']
    split <;> exact ⟨rfl, rfl⟩
  · have hviews := hsrc.views
    have hmap := congrArg (Option.map sourceFields) (hdel.branch_view b)
    have hview : ((complete x).branch b).map Branch.sourceView = (s.part.branch b).map Branch.sourceView := by
      have hx : (x.branch b).map Branch.sourceView = (s.part.branch b).map Branch.sourceView := by
        unfold Part.branch
        rw [entry_map, entry_map, hviews]
        rfl
      rw [← hx]
      rw [Option.map_map, Option.map_map] at hmap
      exact hmap
    have := congrArg (Option.map fun v : BranchCfg × Bool × Bool × Bool × Bool × Option Nat × Bool =>
      (v.1, v.2.1, v.2.2.1, v.2.2.2.1)) hview
    rw [Option.map_map, Option.map_map] at this
    exact this

theorem acfail_holds {s : State} {a : Bool} {x : Part} {r : EventRecord} (hcalm : s.part.calm)
    (he : examineAc (setAcfail a s.part) = x) (hr : x.holdsEvent r) :
    ∃ t, exec (.acfailInChange a) s = .next t ∧ t.part.holdsEvent r := by
  have hsrc := he ▸ examineAc_sourced (setAcfail a s.part)
  have hph : ∀ node, x.rlp.phase ≠ .passing node := by
    rw [hsrc.phase]
    exact hcalm.2
  have hexec := act_running examineAc { s with part := setAcfail a s.part } hcalm.1.1
  rw [he] at hexec
  exact ⟨_, hexec, (complete_delivered hph).holds r hr⟩

/-- Settles O22, state by state. -/
theorem acfailInChangeActs : Obligations.AcfailInChangeActs := by
  intro s a hcalm hlines
  have hnil : (setAcfail a s.part).agenda = [] := hcalm.1.2.1
  have hgood : acGood (setAcfail a s.part) = true ↔
    a = false ∧ s.part.sru.profile.minRect ≤ (okRatings s.part).length := acGood_iff
  have hon (ha : a = true) : ¬ acGood (setAcfail a s.part) = true := fun hg => by
    rw [ha] at hg
    exact absurd (acGood_iff.mp hg).1 nofun
  simp only
  rcases hs : s.part.sru.source
  case unknown =>
    exact acfail_line hcalm.1 hlines (examineAc_unknown hs)
  case onAc =>
    have hexam := examineAc_onAc (d := setAcfail a s.part) hs
    refine ⟨fun ha => ?_, fun ha hok => ?_⟩
    · have hlost : acLost (setAcfail a s.part) = true := acLost_iff.mpr (.inl ha)
      rw [if_pos hlost] at hexam
      refine ⟨acfail_moves hcalm hexam (beginEpisode_moved _ hnil) (beginEpisode_sru _ _), fun hroom => ?_⟩
      obtain ⟨l, hl⟩ := beginEpisode_posted (left := .onAc) (d := setAcfail a s.part) hroom
      refine acfail_holds hcalm hexam (mem_posted.mp ?_)
      rw [hl]
      exact List.mem_append_right _ List.mem_cons_self
    · have hkeep : ¬ acLost (setAcfail a s.part) = true := by
        rw [acLost_iff]
        rintro (h | ⟨hne, hnone⟩)
        · exact absurd (ha.symm.trans h) nofun
        · rcases hok with hok | ⟨r, hr, hrs⟩
          · exact hne hok
          · have hmem : r.ratedW ∈ okRatings s.part :=
              List.mem_map.mpr ⟨r, List.mem_filter.mpr ⟨hr, by simp [hrs]⟩, rfl⟩
            rw [show okRatings s.part = [] from hnone] at hmem
            cases hmem
      rw [if_neg hkeep] at hexam
      exact acfail_line hcalm.1 hlines hexam
  case onBattery =>
    have hexam := examineAc_off (d := setAcfail a s.part) (.inl hs)
    refine ⟨fun hg => ?_, fun hg => ?_⟩
    · rw [if_pos (hgood.mpr hg)] at hexam
      exact acfail_moves hcalm hexam (beginReturn_moved hnil) (beginReturn_sru _)
    · rw [if_neg (fun h => hg (hgood.mp h))] at hexam
      exact acfail_line hcalm.1 hlines hexam
  case depleted =>
    have hexam := examineAc_off (d := setAcfail a s.part) (.inr hs)
    refine ⟨fun hg => ?_, fun hg => ?_⟩
    · rw [if_pos (hgood.mpr hg)] at hexam
      exact acfail_moves hcalm hexam (beginReturn_moved hnil) (beginReturn_sru _)
    · rw [if_neg (fun h => hg (hgood.mp h))] at hexam
      exact acfail_line hcalm.1 hlines hexam
  case returnPending =>
    have hexam := examineAc_pending (d := setAcfail a s.part) hs
    refine ⟨fun ha => ?_, fun hg => ?_⟩
    · rw [if_neg (hon ha)] at hexam
      refine ⟨acfail_moves hcalm hexam (relapsed_moved hnil) (post_settled _ _ _ _).sru, fun hroom => ?_⟩
      exact acfail_holds hcalm hexam (post_holds .acLoss none (some 3) (relapsed (setAcfail a s.part))
        (show s.part.rlp.events.length < 64 by omega))
    · rw [if_pos (hgood.mpr hg)] at hexam
      exact acfail_line hcalm.1 hlines hexam

end Sys2Proof.Machine

/-! PROOFS. How a step of a run ends (R120, R123, R124): the run record that it leaves and the records that it posts, in
their order (`StepEnds`). -/

namespace Sys2Proof.Machine

-- One proof after another: proofs that are checked side by side take a thread each.
set_option Elab.async false

/-- From `d` the run record has become `u`, and the records `rs` have been posted in this order; nothing else has
changed but what waits for the uplink. -/
structure StepEnds (u : Sqe) (rs : List EventRecord) (d d' : Part) : Prop where
  uplinked : Uplinked { d with sqe := u } d'
  grows : Grows rs.length d d'
  extends_ : Extends d d'
  posted : d.rlp.events.length + rs.length ≤ 64 → d'.posted = d.posted ++ rs

/-- The record that the SQE posts at the step `i`. -/
def stepRecord (d : Part) (i : Nat) (k : EventKind) (v : Option Nat) : EventRecord := ⟨k, some i, v, d.slc.cycle⟩

namespace StepEnds
variable {u v : Sqe} {rs ss : List EventRecord} {a d e : Part}

theorem set (u : Sqe) (d : Part) : StepEnds u [] d { d with sqe := u } where
  uplinked := ⟨rfl⟩
  grows := .of_rlp rfl
  extends_ := .of_rlp rfl rfl
  posted _ := (List.append_nil _).symm

theorem sqe (h : StepEnds u rs d e) : e.sqe = u := h.uplinked.sqe

theorem cycle (h : StepEnds u rs d e) : e.slc.cycle = d.slc.cycle := congrArg Slc.cycle h.uplinked.slc

theorem trans (h : StepEnds u rs a d) (g : StepEnds v ss d e) : StepEnds v (rs ++ ss) a e where
  uplinked := by
    have hu := h.uplinked
    have gu := g.uplinked
    constructor
    rw [gu.eq, hu.eq]
  grows := (h.grows.trans g.grows).mono (by simp)
  extends_ := List.IsPrefix.trans h.extends_ g.extends_
  posted hroom := by
    have hg := h.grows
    unfold Grows at hg
    rw [List.length_append] at hroom
    rw [g.posted (by omega), h.posted (by omega), List.append_assoc]

theorem post (k : EventKind) (i : Nat) (w : Option Nat) (d : Part) :
    StepEnds d.sqe [stepRecord d i k w] d (post k (some i) w d) where
  uplinked := post_uplinked _ _ _ d
  grows := .post _ _ _ d
  extends_ := post_extends _ _ _ d
  posted hroom := post_posted _ _ _ (show d.rlp.events.length < 64 by simpa using hroom)

theorem postStep (k : EventKind) (w : Option Nat) (d : Part) :
    StepEnds d.sqe [stepRecord d d.sqe.index k w] d (postStep k w d) := .post k _ w d

/-- The records that were posted wait or are sent. -/
theorem holds (h : StepEnds u rs d e) (hroom : d.rlp.events.length + rs.length ≤ 64) : ∀ r ∈ rs, e.holdsEvent r :=
  fun r hr => mem_posted.mp (by rw [h.posted hroom]; exact List.mem_append_right _ hr)

theorem sublist (h : StepEnds u rs d e) (hroom : d.rlp.events.length + rs.length ≤ 64) : rs.Sublist e.posted := by
  rw [h.posted hroom]
  exact List.sublist_append_right _ _

end StepEnds

/-! ## The ends -/

/-- The run record as a run ends in the state `r`. -/
def Sqe.ended (q : Sqe) (r : RunState) : Sqe :=
  { q with run := r, timer := .stopped, causes := { q.causes with request := false } }

/-- The run record as the next step waits to begin. -/
def Sqe.next (q : Sqe) : Sqe := { q with timer := .stopped, index := q.index + 1, phase := .notBegun }

theorem haltRun_ends (c : StepCause) (d : Part) : StepEnds (d.sqe.ended .halted)
    [stepRecord d d.sqe.index .runHalted (some c.code)] d (haltRun c d) :=
  (StepEnds.set (d.sqe.ended .halted) d).trans (.postStep _ _ { d with sqe := d.sqe.ended .halted })

theorem doneRun_ends (d : Part) :
    StepEnds (d.sqe.ended .done) [stepRecord d d.sqe.index .runDone none] d (doneRun d) :=
  (StepEnds.set (d.sqe.ended .done) d).trans (.postStep _ _ { d with sqe := d.sqe.ended .done })

theorem advance_next {d : Part} (h : d.sqe.index < 63) : StepEnds d.sqe.next [] d (advance d) := by
  unfold advance
  rw [if_neg (by omega)]
  exact .set d.sqe.next d

theorem advance_done {d : Part} (h : 63 ≤ d.sqe.index) :
    StepEnds (d.sqe.ended .done) [stepRecord d d.sqe.index .runDone none] d (advance d) := by
  unfold advance
  rw [if_pos h]
  exact (StepEnds.set { d.sqe with timer := .stopped } d).trans (doneRun_ends { d with sqe.timer := .stopped })

section
variable {q : Sqe} {rs : List EventRecord} {d e : Part} (h : StepEnds q rs d e)
include h

/-- What follows the records of a step, told of the part that they were posted in. -/
theorem StepEnds.halt (c : StepCause) :
    StepEnds (q.ended .halted) (rs ++ [stepRecord d q.index .runHalted (some c.code)]) d (haltRun c e) := by
  have hg := h.trans (haltRun_ends c e)
  unfold stepRecord at *
  rw [h.sqe, h.cycle] at hg
  exact hg

theorem StepEnds.done : StepEnds (q.ended .done) (rs ++ [stepRecord d q.index .runDone none]) d (doneRun e) := by
  have hg := h.trans (doneRun_ends e)
  unfold stepRecord at *
  rw [h.sqe, h.cycle] at hg
  exact hg

theorem StepEnds.next (hi : q.index < 63) : StepEnds q.next rs d (advance e) := by
  have hg := h.trans (advance_next (d := e) (by rw [h.sqe]; exact hi))
  rw [h.sqe, List.append_nil] at hg
  exact hg

theorem StepEnds.last (hi : 63 ≤ q.index) :
    StepEnds (q.ended .done) (rs ++ [stepRecord d q.index .runDone none]) d (advance e) := by
  have hg := h.trans (advance_done (d := e) (by rw [h.sqe]; exact hi))
  unfold stepRecord at *
  rw [h.sqe, h.cycle] at hg
  exact hg

theorem StepEnds.record (k : EventKind) (w : Option Nat) :
    StepEnds q (rs ++ [stepRecord d q.index k w]) d (Machine.postStep k w e) := by
  have hg := h.trans (StepEnds.postStep k w e)
  unfold stepRecord at *
  rw [h.sqe, h.cycle] at hg
  exact hg

end

section
variable {d : Part}

theorem completeStep_next (n : Nat) (h : d.sqe.index < 63) :
    StepEnds d.sqe.next [stepRecord d d.sqe.index .stepDone (some n)] d (completeStep n d) :=
  (StepEnds.postStep _ _ d).next h

theorem completeStep_last (n : Nat) (h : 63 ≤ d.sqe.index) : StepEnds (d.sqe.ended .done)
    [stepRecord d d.sqe.index .stepDone (some n), stepRecord d d.sqe.index .runDone none] d (completeStep n d) :=
  (StepEnds.postStep _ _ d).last h

theorem failStep_halt (c : StepCause) (n : Nat) : StepEnds (d.sqe.ended .halted)
    [stepRecord d d.sqe.index .stepFailed (some (failValue c .halt n)),
      stepRecord d d.sqe.index .runHalted (some c.code)] d (failStep c .halt n d) :=
  (StepEnds.postStep _ _ d).halt c

theorem failStep_skip (c : StepCause) (n : Nat) (h : d.sqe.index < 63) : StepEnds d.sqe.next
    [stepRecord d d.sqe.index .stepFailed (some (failValue c .skip n))] d (failStep c .skip n d) :=
  (StepEnds.postStep _ _ d).next h

end

/-! ## Members -/

theorem mem_branchesWith {f : Branch → Bool} {d : Part} {b : Nat} :
    b ∈ branchesWith f d ↔ b < 36 ∧ ∃ x, d.branch b = some x ∧ f x = true := by
  unfold branchesWith
  rw [List.mem_filter, List.mem_range]
  rcases d.branch b with _ | x <;> simp

/-- Branch `b` is valid and in the state `s`. -/
def inState (d : Part) (b : Nat) (s : BranchState) : Prop := ∃ x, d.branch b = some x ∧ x.state = s

/-- Branch `b` is found valid and in the state `s`. -/
def isIn (d : Part) (s : BranchState) (b : Nat) : Bool :=
  match d.branch b with
  | some x => x.state == s
  | none => false

theorem isIn_iff {d : Part} {b : Nat} {s : BranchState} : isIn d s b = true ↔ inState d b s := by
  unfold isIn inState
  rcases d.branch b with _ | x <;> simp

theorem membersOn_eq (d : Part) : membersOn d = (stepMembers d).filter (isIn d .on) := by
  unfold membersOn stepMembers branchesWith
  rw [List.filter_filter]
  refine List.filter_congr fun b _ => ?_
  unfold isIn
  rcases d.branch b with _ | x
  · rfl
  · exact Bool.and_comm _ _

theorem tallies_eq (d : Part) : tallies d = d.sqe.enrolled * 2 ^ 18 + (membersOn d).length * 2 ^ 12 +
    d.sqe.alreadyOn * 2 ^ 6 + (d.sqe.startSkipped + (d.sqe.enrolled - ((membersOn d).length +
      (d.sqe.faultedMembers.filter (· ∉ membersOn d)).length))) := by
  unfold tallies skippedTally
  simp only [List.length_append]

/-! ## The examinations of the step -/

section
variable {d : Part} {e : SeqStep}

theorem examineEnable_waits (h : ∃ b ∈ stepMembers d, inState d b .queued ∨ inState d b .admitting) :
    examineEnable e d = d := by
  unfold examineEnable
  rw [if_pos]
  obtain ⟨b, hb, hs⟩ := h
  refine List.any_eq_true.mpr ⟨b, hb, ?_⟩
  rcases hs with ⟨x, hx, hs⟩ | ⟨x, hx, hs⟩ <;> simp [hx, hs]

theorem examineEnable_ends (h : ¬ ∃ b ∈ stepMembers d, inState d b .queued ∨ inState d b .admitting) :
    examineEnable e d = if 0 < d.sqe.faulted then failStep .branchFault e.policy (tallies d) d
      else completeStep (tallies d) d := by
  unfold examineEnable
  rw [if_neg]
  rintro hany
  obtain ⟨b, hb, hs⟩ := List.any_eq_true.mp hany
  refine h ⟨b, hb, ?_⟩
  rcases hx : d.branch b with _ | x
  · rw [hx] at hs
    cases hs
  · rw [hx] at hs
    simp only [Bool.or_eq_true, beq_iff_eq] at hs
    exact hs.imp (fun hs => ⟨x, hx, hs⟩) fun hs => ⟨x, hx, hs⟩

theorem examineWait_faulted (h : ∃ b ∈ seqHolders e.group d, inState d b .fault) :
    examineWait e d = failStep .branchFault e.policy 0 d := by
  unfold examineWait
  simp only
  rw [if_pos]
  obtain ⟨b, hb, hs⟩ := h
  exact List.any_eq_true.mpr ⟨b, hb, isIn_iff.mpr hs⟩

theorem examineWait_stands_or (h : ∀ b ∈ seqHolders e.group d, ¬ inState d b .fault) :
    examineWait e d = if (seqHolders e.group d).all (isIn d .on)
      then completeStep (seqHolders e.group d).length d else d := by
  unfold examineWait
  simp only
  refine (if_neg ?_).trans rfl
  rintro hany
  obtain ⟨b, hb, hs⟩ := List.any_eq_true.mp hany
  exact h b hb (isIn_iff.mp hs)

theorem examineWait_completes (h : ∀ b ∈ seqHolders e.group d, inState d b .on) :
    examineWait e d = completeStep (seqHolders e.group d).length d := by
  rw [examineWait_stands_or, if_pos]
  · exact List.all_eq_true.mpr fun b hb => isIn_iff.mpr (h b hb)
  · rintro b hb ⟨x, hx, hs⟩
    obtain ⟨y, hy, hon⟩ := h b hb
    rw [hx] at hy
    cases hy
    rw [hs] at hon
    cases hon

theorem examineWait_waits (h : ∀ b ∈ seqHolders e.group d, ¬ inState d b .fault)
    (hn : ∃ b ∈ seqHolders e.group d, ¬ inState d b .on) : examineWait e d = d := by
  rw [examineWait_stands_or h, if_neg]
  rintro hall
  obtain ⟨b, hb, hs⟩ := hn
  exact hs (isIn_iff.mp (List.all_eq_true.mp hall b hb))

end

end Sys2Proof.Machine

/-! PROOFS. The expiry of the step timer (R121), and what ENABLE_GROUP and DISABLE_GROUP make of one member (R122,
R125). -/

namespace Sys2Proof.Machine

-- One proof after another: proofs that are checked side by side take a thread each.
set_option Elab.async false

/-! ## Steps that begin -/

theorem runSteps_stop {d : Part} (n : Nat) (h : ¬ (d.sqe.run = .running ∧ d.sqe.phase = .notBegun)) :
    runSteps n d = d := by
  cases n with
  | zero => rfl
  | succ n => exact if_neg h

theorem runSteps_begin {d : Part} (n : Nat) (hr : d.sqe.run = .running) (hp : d.sqe.phase = .notBegun) :
    runSteps (n + 1) d = runSteps n (beginStep d) := if_pos ⟨hr, hp⟩

section
variable {d : Part} {e : SeqStep} (he : d.sqe.current = some e)
include he

theorem beginStep_endRun (hk : e.kind = .endRun) : beginStep d = doneRun { d with sqe.phase := .active } := by
  unfold beginStep
  rw [he]
  simp only [hk]

theorem beginStep_delay (hk : e.kind = .delay) (ht : 0 < e.timeMs) :
    beginStep d = { d with sqe.phase := .active, sqe.timer := .running e.timeMs } := by
  unfold beginStep
  rw [he]
  simp only [hk]
  rw [if_neg (by omega)]

end

section
variable {q : Sqe} {rs : List EventRecord} {d x : Part} (h : StepEnds q rs d x)
include h

/-- A run whose next entry is an END ends with it. -/
theorem StepEnds.begins_endRun {e : SeqStep} (n : Nat) (hr : q.run = .running) (hp : q.phase = .notBegun)
    (he : q.current = some e) (hk : e.kind = .endRun) : StepEnds ({ q with phase := .active }.ended .done)
      (rs ++ [stepRecord d q.index .runDone none]) d (runSteps (n + 1) x) := by
  have hsqe := h.sqe
  have hrun : x.sqe.run = .running := by rw [hsqe]; exact hr
  have hphase : x.sqe.phase = .notBegun := by rw [hsqe]; exact hp
  have hcur : x.sqe.current = some e := by rw [hsqe]; exact he
  rw [runSteps_begin n hrun hphase, beginStep_endRun hcur hk, runSteps_stop]
  · have hset := h.trans (StepEnds.set { x.sqe with phase := .active } x)
    rw [List.append_nil, hsqe] at hset
    have hdone := hset.done
    rw [← hsqe] at hdone ⊢
    exact hdone
  · have hdone := doneRun_ends { x with sqe.phase := .active }
    rintro ⟨hrun', -⟩
    rw [hdone.sqe] at hrun'
    cases hrun'

/-- A run whose next entry is a DELAY waits in it. -/
theorem StepEnds.begins_delay {e : SeqStep} (n : Nat) (hr : q.run = .running) (hp : q.phase = .notBegun)
    (he : q.current = some e) (hk : e.kind = .delay) (ht : 0 < e.timeMs) :
    StepEnds { q with phase := .active, timer := .running e.timeMs } rs d (runSteps (n + 1) x) := by
  have hsqe := h.sqe
  have hrun : x.sqe.run = .running := by rw [hsqe]; exact hr
  have hphase : x.sqe.phase = .notBegun := by rw [hsqe]; exact hp
  have hcur : x.sqe.current = some e := by rw [hsqe]; exact he
  rw [runSteps_begin n hrun hphase, beginStep_delay hcur hk ht, runSteps_stop _ (fun h => by cases h.2)]
  have hset := h.trans (StepEnds.set { x.sqe with phase := .active, timer := .running e.timeMs } x)
  rw [List.append_nil, hsqe] at hset
  rw [← hsqe] at hset ⊢
  exact hset

/-- A run that has ended begins no step. -/
theorem StepEnds.stops (n : Nat) (hr : q.run ≠ .running) : StepEnds q rs d (runSteps n x) := by
  rw [runSteps_stop n (by rw [h.sqe]; exact fun hr' => hr hr'.1)]
  exact h

end

/-! ## The expiry of the step timer -/

section
variable {d : Part} {e : SeqStep} {left : Nat} (hr : d.sqe.run = .running) (ht : d.sqe.timer = .running left)
  (he : d.sqe.current = some e)
include hr ht he

theorem stepExpiry_delay (hk : e.kind = .delay) : stepExpiry d = runSteps stepFuel (completeStep e.timeMs d) := by
  unfold stepExpiry
  rw [hr, ht, he]
  simp only [hk]

theorem stepExpiry_fails (hk : e.kind = .waitGood ∨ e.kind = .enableGroup) : stepExpiry d = runSteps stepFuel
    (failStep .timeout e.policy (if e.kind = .enableGroup then tallies d else 0) d) := by
  unfold stepExpiry
  rw [hr, ht, he]
  rcases hk with hk | hk <;> simp only [hk, reduceCtorEq, if_false, if_true]

end

theorem stepExpiry_stands {d : Part} (h : d.sqe.run ≠ .running ∨ ∀ n, d.sqe.timer ≠ .running n) :
    stepExpiry d = d := by
  unfold stepExpiry
  split
  · rename_i n _ hr ht _
    exact absurd hr (h.resolve_right fun h => h n ht)
  · rfl

/-- A command whose effect is the end of a step. -/
theorem exec_stepEnds {s : State} {u : Sqe} {rs : List EventRecord} (hcalm : s.part.calm)
    (h : StepEnds u rs s.part (stepExpiry s.part)) (hlen : rs.length ≤ 3) :
    ∃ t, exec .stepTimerExpiry s = .next t ∧ t.pending = s.pending ∧
      TablesStand s.part t.part ∧ LinkStands s.part t.part ∧ RequestsStand s.part t.part ∧
      t.part.bcu = s.part.bcu ∧ t.part.sru = s.part.sru ∧ t.part.lkm = s.part.lkm ∧ t.part.sqe = u ∧
      (s.part.rlp.events.length + 3 ≤ 64 → ∀ r ∈ rs, t.part.holdsEvent r) := by
  obtain ⟨⟨hreset, hagenda, -⟩, hphase⟩ := hcalm
  have hset := stepExpiry_settled s.part
  have hu := h.uplinked
  have hph : ∀ node, (stepExpiry s.part).rlp.phase ≠ .passing node := by
    rw [hset.phase]
    exact hphase
  have hnil : (stepExpiry s.part).agenda = [] := hu.agenda.trans hagenda
  have hcomplete : complete (stepExpiry s.part) = refreshLines (quieten (stepExpiry s.part)) := by
    rw [complete_calm _ hph, settleAll_nil _ hnil]
  have hdel := finished_delivered (stepExpiry s.part)
  refine ⟨_, act_running _ _ hreset, rfl, ?_⟩
  show TablesStand _ (complete _) ∧ LinkStands _ (complete _) ∧ RequestsStand _ (complete _) ∧
    (complete _).bcu = _ ∧ (complete _).sru = _ ∧ (complete _).lkm = _ ∧ (complete _).sqe = _ ∧
    (_ → ∀ r ∈ rs, (complete _).holdsEvent r)
  have hreq := complete_requestsStand hph
  rw [hcomplete] at hreq ⊢
  exact ⟨hset.toTablesStand.trans hdel.toTablesStand, hset.toLinkStands.trans hdel.toLinkStands,
    hset.toRequestsStand.trans hreq, hu.bcu, hu.sru, hu.lkm, hu.sqe,
    fun hroom r hr => hdel.holds r (h.holds (by omega) r hr)⟩

/-! ## One member of an ENABLE_GROUP -/

theorem queueIfWanted_sqe (b : Nat) (d : Part) : (queueIfWanted b d).sqe = d.sqe := by
  have hqueue (q : List Nat) (d : Part) : (setQueue q d).sqe = d.sqe := by
    unfold setQueue
    split
    · rfl
    · exact (signalOnce_fixed _ _).sqe
  unfold queueIfWanted enqueueBack
  split
  · rfl
  · split
    · split
      · rfl
      · rw [(signalOnce_fixed _ _).sqe, hqueue]
        rfl
    · rfl

/-- The output rule leaves the run record where the branch loses nothing. -/
theorem applyOutput_sqe {b : Nat} {x y : Branch} {d : Part} (h : loses x y = false) :
    (applyOutput b x y d).sqe = d.sqe := by
  unfold applyOutput
  split
  · rfl
  · simp only [h, Bool.false_eq_true, if_false]
    rw [queueIfWanted_sqe, (signalOnce_fixed _ _).sqe]
    rfl

/-- A branch that is enrolled at the step `i`. -/
def Branch.enrolled (i : Nat) (x : Branch) : Branch :=
  { x with demands := { x.demands with seq := true }, enrolling := some i }

theorem not_loses_enrolled (i : Nat) (x : Branch) : loses x (x.enrolled i) = false := by
  rw [Bool.eq_false_iff, ne_eq, loses_iff]
  rintro (⟨h1, h2⟩ | ⟨-, -, h⟩)
  · rw [show (x.enrolled i).holds = x.holds from rfl, h1] at h2
    cases h2
  · simp [Branch.enrolled, Demands.any] at h

/-- The part as the step counts a branch that it enrols. -/
def Part.counting (d : Part) : Part := { d with sqe.enrolled := d.sqe.enrolled + 1 }

section
variable {d : Part} {g b : Nat} {x : Branch} (hx : d.branch b = some x)
include hx

theorem enrol_eq : enrol b d = applyOutput b x (x.enrolled d.sqe.index) d.counting :=
  changeBranch_eq (d := d.counting) hx

theorem enrol_sqe : (enrol b d).sqe = { d.sqe with enrolled := d.sqe.enrolled + 1 } := by
  rw [enrol_eq hx, applyOutput_sqe (not_loses_enrolled _ _)]
  rfl

theorem sortMember_enrols (hg : x.cfg.group = g)
    (h : x.state = .queued ∨ (x.state = .off ∧ x.holds.leak = false ∧ x.holds.trip = false ∧ x.holds.forceOff = false)) :
    sortMember g b d = enrol b d := by
  unfold sortMember
  rw [hx]
  simp only
  rw [if_neg (by simpa using hg)]
  rcases h with h | ⟨h, hl, ht, hf⟩
  · rw [h]
  · rw [h]
    simp [hl, ht, hf]

theorem sortMember_on (hg : x.cfg.group = g) (h : x.state = .admitting ∨ x.state = .on) :
    sortMember g b d = { d with sqe.alreadyOn := d.sqe.alreadyOn + 1 } := by
  unfold sortMember
  rw [hx]
  simp only
  rw [if_neg (by simpa using hg)]
  rcases h with h | h <;> rw [h]

theorem sortMember_skips (hg : x.cfg.group = g)
    (h : (x.state = .off ∧ ¬ (x.holds.leak = false ∧ x.holds.trip = false ∧ x.holds.forceOff = false)) ∨
      x.state = .fault ∨ x.state = .stopping ∨ x.state = .unknown) :
    sortMember g b d = { d with sqe.startSkipped := d.sqe.startSkipped + 1 } := by
  unfold sortMember
  rw [hx]
  simp only
  rw [if_neg (by simpa using hg)]
  rcases h with ⟨h, hn⟩ | h | h | h
  · rw [h]
    simp only
    rw [if_pos]
    rcases hl : x.holds.leak <;> rcases ht : x.holds.trip <;> rcases hf : x.holds.forceOff <;> simp [hl, ht, hf] at hn ⊢
  all_goals rw [h]

/-- A branch that waits in the queue, or that SHED keeps OFF, is enrolled where it is. -/
theorem enrol_stands (h : x.state = .queued ∨ (x.state = .off ∧ x.holds.shed = true)) :
    Becomes b (x.enrolled d.sqe.index) d.bcu.queue d.slc.out d.counting (enrol b d) := by
  rw [enrol_eq hx]
  refine applyOutput_stands (d := d.counting) hx (not_loses_enrolled _ _) ?_
  rintro ⟨hs, hw⟩
  rcases h with h | ⟨-, h⟩
  · rw [show (x.enrolled d.sqe.index).state = x.state from rfl, h] at hs
    cases hs
  · simp [Branch.wanted, Branch.enrolled, Holds.any, h] at hw

/-- A free OFF branch that is enrolled is QUEUED at the back. -/
theorem enrol_queues (hs : x.state = .off) (hh : x.holds.any = false) (hd : x.demands.any = false) :
    Becomes b { x.enrolled d.sqe.index with state := .queued } (d.bcu.queue ++ [b]) d.slc.out d.counting (enrol b d) := by
  rw [enrol_eq hx]
  refine applyOutput_wanted (d := d.counting) (y := x.enrolled d.sqe.index) hx (not_loses_enrolled _ _) ?_ hs ?_
  · intro he
    rw [he] at hd
    simp [Branch.enrolled, Demands.any] at hd
  · simp [Branch.wanted, Branch.enrolled, hh, Demands.any]

end

end Sys2Proof.Machine

/-! PROOFS. DISABLE_GROUP (R125) on one member of its group, and the steps of a run (R120 to R125). -/

namespace Sys2Proof.Machine

-- One proof after another: proofs that are checked side by side take a thread each.
set_option Elab.async false

/-! ## One branch of a fold over the branches -/

/-- A fold over the branches, seen from branch `b`: the steps before it keep `P`, and those after it keep `Q`. -/
theorem forBranches_at {f : Nat → Part → Part} {P : Part → Prop} {b : Nat} (hb : b < 36) {d : Part} (hd : P d)
    (hP : ∀ n e, n ≠ b → P e → P (f n e)) : ∃ e, P e ∧ ∀ Q : Part → Prop, Q (f b e) →
      (∀ n e, n ≠ b → Q e → Q (f n e)) → Q (forBranches f d) := by
  have hfold {P : Part → Prop} (hP : ∀ n e, n ≠ b → P e → P (f n e)) (l : List Nat) (hl : b ∉ l) (e : Part)
      (he : P e) : P (l.foldl (fun e n => f n e) e) := by
    induction l generalizing e with
    | nil => exact he
    | cons n l ih =>
      exact ih (fun h => hl (List.mem_cons_of_mem _ h)) _ (hP n e (fun h => hl (h ▸ List.mem_cons_self)) he)
  obtain ⟨l, m, hlm⟩ := List.append_of_mem (List.mem_range.mpr hb)
  have hnodup := hlm ▸ (List.nodup_range : (List.range 36).Nodup)
  obtain ⟨-, hm, hdisj⟩ := List.nodup_append.mp hnodup
  have hnl : b ∉ l := fun h => hdisj b h b List.mem_cons_self rfl
  refine ⟨l.foldl (fun e n => f n e) d, hfold hP l hnl d hd, fun Q hQ hf => ?_⟩
  unfold forBranches
  rw [hlm, List.foldl_append, List.foldl_cons]
  exact hfold hf m (List.nodup_cons.mp hm).1 _ hQ

/-- A fold over the branches of which one step alone does anything. -/
theorem forBranches_lone {f : Nat → Part → Part} {P : Part → Prop} {b : Nat} (hb : b < 36) {d : Part} (hd : P d)
    (hs : ∀ n e, n ≠ b → P e → f n e = e) (hP : P (f b d)) : forBranches f d = f b d := by
  have hskip (l : List Nat) (hl : b ∉ l) (e : Part) (he : P e) : l.foldl (fun e n => f n e) e = e := by
    induction l with
    | nil => rfl
    | cons n l ih =>
      rw [List.foldl_cons, hs n e (fun h => hl (h ▸ List.mem_cons_self)) he]
      exact ih fun h => hl (List.mem_cons_of_mem _ h)
  obtain ⟨l, m, hlm⟩ := List.append_of_mem (List.mem_range.mpr hb)
  have hnodup := hlm ▸ (List.nodup_range : (List.range 36).Nodup)
  obtain ⟨-, hm, hdisj⟩ := List.nodup_append.mp hnodup
  have hnl : b ∉ l := fun h => hdisj b h b List.mem_cons_self rfl
  unfold forBranches
  rw [hlm, List.foldl_append, List.foldl_cons, hskip l hnl d hd, hskip m (List.nodup_cons.mp hm).1 _ hP]

/-! ## Who joins the queue -/

/-- No branch but `b` joins the Admission Queue. -/
def Recruits (b : Nat) (d d' : Part) : Prop := ∀ n, n ≠ b → n ∈ d'.bcu.queue → n ∈ d.bcu.queue

namespace Recruits
variable {b : Nat} {a d e : Part}

theorem of_queue (h : e.bcu.queue = d.bcu.queue) : Recruits b d e := fun _ _ hn => h ▸ hn

theorem of_bcu (h : e.bcu = d.bcu) : Recruits b d e := of_queue (congrArg Bcu.queue h)

theorem trans (h : Recruits b a d) (g : Recruits b d e) : Recruits b a e := fun n hn hm => h n hn (g n hn hm)

theorem signalOnce (s : Signal) (d : Part) : Recruits b d (signalOnce s d) := .of_bcu (signalOnce_bcu s d)

theorem noteLoad (n : Nat) (d : Part) : Recruits b d (noteLoad n d) := .of_bcu (noteLoad_bcu n d)

theorem leaveQueue (b : Nat) (d : Part) : Recruits b d (leaveQueue b d) := fun n _ hm => by
  rw [leaveQueue_queue] at hm
  exact List.mem_of_mem_filter hm

theorem faultBranch (c : BranchCause) (d : Part) : Recruits b d (faultBranch c b d) := by
  unfold Machine.faultBranch
  split
  · exact .of_queue rfl
  · rename_i x _
    simp only
    refine trans ?_ (signalOnce _ _)
    refine trans ?_ (.of_bcu (post_uplinked _ _ _ _).bcu)
    refine trans ?_ (.of_bcu (noteFaulted_bcu _ _ _))
    have hleave (y : Branch) : Recruits b d (Machine.leaveQueue b (putBranch b y d)) :=
      trans (d := putBranch b y d) (.of_queue rfl) (leaveQueue b _)
    split
    · exact hleave _
    · exact (hleave _).trans (.of_bcu (stage_bcu _ _ _ _ _))

theorem stageBranch (v : Word) (d : Part) : Recruits b d (stageBranch b v d) := by
  unfold Machine.stageBranch
  split
  · exact .of_queue rfl
  · rename_i x _
    have h : Recruits b d (Machine.stage .bcu (some b) x.cfg.node v d).1 := .of_bcu (stage_bcu _ _ _ _ _)
    split <;> (rename_i he; rw [he] at h)
    · split
      · exact h
      · exact h.trans (faultBranch _ _)
    · exact h

theorem stopBranch (d : Part) : Recruits b d (stopBranch b d) := by
  unfold Machine.stopBranch
  split
  · exact .of_queue rfl
  · simp only
    refine trans ?_ (stageBranch _ _)
    refine trans ?_ (signalOnce _ _)
    exact trans (d := putBranch b _ d) (.of_queue rfl) (noteLoad _ _)

theorem queueIfWanted (d : Part) : Recruits b d (queueIfWanted b d) := by
  unfold Machine.queueIfWanted Machine.enqueueBack
  split
  · exact .of_queue rfl
  · split
    · split
      · exact .of_queue rfl
      · refine trans ?_ (signalOnce _ _)
        intro n hn hm
        rw [setQueue_queue] at hm
        exact (List.mem_append.mp hm).resolve_right fun h => hn (List.mem_singleton.mp h)
    · exact .of_queue rfl

theorem applyOutput (x y : Branch) (d : Part) : Recruits b d (applyOutput b x y d) := by
  have hstored : Recruits b d (Machine.signalOnce .branches (putBranch b y d)) :=
    trans (d := putBranch b y d) (.of_queue rfl) (signalOnce _ _)
  unfold Machine.applyOutput
  by_cases hxy : x = y
  · rw [if_pos hxy]
    exact .of_queue rfl
  · rw [if_neg hxy]
    simp only
    by_cases hl : loses x y = true
    · simp only [hl, if_true]
      split
      · exact hstored.trans (trans (d := putBranch b _ _) (.of_queue rfl) (leaveQueue _ _))
      · exact hstored.trans (stopBranch _)
      · exact hstored.trans (stopBranch _)
      · exact hstored
    · simp only [hl, Bool.false_eq_true, if_false]
      exact hstored.trans (queueIfWanted _)

theorem changeBranch (b : Nat) (f : Branch → Branch) (d : Part) : Recruits b d (changeBranch b f d) := by
  unfold Machine.changeBranch
  split
  · exact .of_queue rfl
  · exact applyOutput _ _ d

end Recruits

/-! ## DISABLE_GROUP -/

/-- What DISABLE_GROUP changes in a branch. -/
def Branch.disabled (g : Nat) (x : Branch) : Branch := if x.cfg.group = g then x.clearSeq else x

theorem disableGroup_eq (g : Nat) (d : Part) :
    disableGroup g d = forBranches (fun b => changeBranch b (Branch.disabled g)) d := rfl

theorem changeBranch_same {b : Nat} {f : Branch → Branch} {d : Part} (h : ∀ x, d.branch b = some x → f x = x) :
    changeBranch b f d = d := by
  unfold changeBranch
  split
  · rfl
  · rename_i x hx
    rw [h x hx]
    exact if_pos rfl

/-- A branch that a node's OUT entry serves. -/
structure Served (b : Nat) (x : Branch) (k : Nat) (sru : Sru) (d : Part) : Prop where
  branch : d.branch b = some x
  slot : d.outSlot x.cfg.node = some k
  record : ∃ r, entry d.slc.out k = some r
  sru_eq : d.sru = sru

theorem Served.change {b k n : Nat} {x : Branch} {u : Sru} {d : Part} (f : Branch → Branch)
    (hf : ∀ x, (f x).cfg = x.cfg) (hn : n ≠ b) (h : Served b x k u d) : Served b x k u (changeBranch n f d) where
  branch := ((Touches.changeBranch f d).others b hn.symm).trans h.branch
  slot := ((Touches.changeBranch (b := n) f d).outSlot _).trans h.slot
  record := by
    obtain ⟨r, hr⟩ := h.record
    have hout := (changeBranch_kept n f hf d).out
    have hmap : (entry (changeBranch n f d).slc.out k).map OutRecord.core = (entry d.slc.out k).map OutRecord.core := by
      rw [entry_map, entry_map, hout]
    rw [hr] at hmap
    rcases hk : entry (changeBranch n f d).slc.out k with _ | r'
    · rw [hk] at hmap
      cases hmap
    · exact ⟨r', rfl⟩
  sru_eq := (Touches.changeBranch (b := n) f d).sru.trans h.sru_eq

section
variable {d : Part} {g b : Nat} {x : Branch} (hx : d.branch b = some x) (hb : b < 36) (hg : x.cfg.group = g)
include hx hb hg

omit hx hb in
theorem disabled_member : x.disabled g = x.clearSeq := if_pos hg

omit hb in
/-- The change of one member. -/
theorem disable_eq : changeBranch b (Branch.disabled g) d = applyOutput b x x.clearSeq d := by
  rw [changeBranch_eq hx, disabled_member hg]

/-- The branch after DISABLE_GROUP is what the output rule makes of it in a part that still has it. -/
theorem disableGroup_at {P : Part → Prop} (hd : P d)
    (hP : ∀ n e, n ≠ b → P e → P (changeBranch n (Branch.disabled g) e)) :
    ∃ e, (e.branch b = some x ∧ P e) ∧
      (disableGroup g d).branch b = (applyOutput b x x.clearSeq e).branch b ∧
      (b ∉ (applyOutput b x x.clearSeq e).bcu.queue → b ∉ (disableGroup g d).bcu.queue) := by
  rw [disableGroup_eq]
  have hothers (n : Nat) (e : Part) (hn : n ≠ b) : (changeBranch n (Branch.disabled g) e).branch b = e.branch b :=
    (Touches.changeBranch _ e).others b hn.symm
  obtain ⟨e, ⟨he, hPe⟩, h⟩ := forBranches_at (f := fun b => changeBranch b (Branch.disabled g))
    (P := fun e => e.branch b = some x ∧ P e) hb ⟨hx, hd⟩
    (fun n e hn ⟨he, hPe⟩ => ⟨(hothers n e hn).trans he, hP n e hn hPe⟩)
  have hstep : changeBranch b (Branch.disabled g) e = applyOutput b x x.clearSeq e := disable_eq he hg
  refine ⟨e, ⟨he, hPe⟩, ?_, fun hq => ?_⟩
  · exact h (fun e' => e'.branch b = (applyOutput b x x.clearSeq e).branch b) (by rw [hstep])
      fun n e' hn he' => (hothers n e' hn).trans he'
  · exact h (fun e' => b ∉ e'.bcu.queue) (by rw [hstep]; exact hq)
      fun n e' hn he' hm => he' (Recruits.changeBranch n _ e' b hn.symm hm)

/-- In a group of one branch nothing else changes. -/
theorem disableGroup_lone (hlone : ∀ n y, n ≠ b → d.branch n = some y → y.cfg.group ≠ g) :
    disableGroup g d = applyOutput b x x.clearSeq d := by
  rw [disableGroup_eq, forBranches_lone (f := fun b => changeBranch b (Branch.disabled g)) (P := fun e => ∀ n, n ≠ b → e.branch n = d.branch n) hb (fun _ _ => rfl)
    (fun n e hn he => changeBranch_same fun y hy => if_neg (hlone n y hn ((he n hn).symm.trans hy)))
    (Touches.changeBranch _ d).others, disable_eq hx hg]

end

/-- A branch loses its last demand with SEQ. -/
theorem loses_clearSeq (x : Branch) : loses x x.clearSeq = true ↔
    x.demands.seq = true ∧ x.demands.ctrl = false ∧ x.holds.any = false := by
  rw [loses_iff]
  simp only [Branch.clearSeq, Demands.any]
  rcases x.holds.any <;> rcases x.demands.seq <;> rcases x.demands.ctrl <;> simp

/-! ## The obligation -/

/-- What the end of a step tells. -/
theorem StepEnds.told {u : Sqe} {rs : List EventRecord} {d x : Part} (h : StepEnds u rs d x) (hlen : rs.length ≤ 2) :
    x.sqe = u ∧ x.bcu = d.bcu ∧ x.sru = d.sru ∧ x.lkm = d.lkm ∧ x.slc = d.slc ∧ x.agenda = d.agenda ∧
      (d.rlp.events.length + 2 ≤ 64 → rs.Sublist x.posted) :=
  ⟨h.uplinked.sqe, h.uplinked.bcu, h.uplinked.sru, h.uplinked.lkm, h.uplinked.slc, h.uplinked.agenda,
    fun hroom => h.sublist (by omega)⟩

theorem failValue_branchFault (n : Nat) : failValue .branchFault .halt n = n ∧
    failValue .branchFault .skip n = 2 ^ 28 + n := by
  simp [failValue, StepCause.code, Policy.code]

section
variable {d : Part} {p : Policy} (n : Nat)

theorem failStep_halt_told (hp : p = .halt) :
    (failStep .branchFault p n d).sqe = d.sqe.ended .halted ∧ (failStep .branchFault p n d).bcu = d.bcu ∧
      (failStep .branchFault p n d).sru = d.sru ∧ (failStep .branchFault p n d).lkm = d.lkm ∧
      (failStep .branchFault p n d).slc = d.slc ∧ (failStep .branchFault p n d).agenda = d.agenda ∧
      (d.rlp.events.length + 2 ≤ 64 → List.Sublist [stepRecord d d.sqe.index .stepFailed (some n),
        stepRecord d d.sqe.index .runHalted (some 0)] (failStep .branchFault p n d).posted) := by
  have h := failStep_halt (d := d) .branchFault n
  rw [(failValue_branchFault n).1] at h
  rw [hp]
  exact h.told (le_refl _)

theorem failStep_skip_told (hp : p = .skip) (hi : d.sqe.index < 63) :
    (failStep .branchFault p n d).sqe = d.sqe.next ∧ (failStep .branchFault p n d).bcu = d.bcu ∧
      (failStep .branchFault p n d).sru = d.sru ∧ (failStep .branchFault p n d).lkm = d.lkm ∧
      (failStep .branchFault p n d).slc = d.slc ∧ (failStep .branchFault p n d).agenda = d.agenda ∧
      (d.rlp.events.length + 2 ≤ 64 → List.Sublist [stepRecord d d.sqe.index .stepFailed (some (2 ^ 28 + n))]
        (failStep .branchFault p n d).posted) := by
  have h := failStep_skip (d := d) .branchFault n hi
  rw [(failValue_branchFault n).2] at h
  rw [hp]
  exact h.told (by simp)

end

theorem tallies_filter (d : Part) : tallies d = d.sqe.enrolled * 2 ^ 18 +
    ((stepMembers d).filter (isIn d .on)).length * 2 ^ 12 + d.sqe.alreadyOn * 2 ^ 6 +
      (d.sqe.startSkipped + (d.sqe.enrolled - (((stepMembers d).filter (isIn d .on)).length +
        (d.sqe.faultedMembers.filter (· ∉ (stepMembers d).filter (isIn d .on))).length))) := by
  rw [tallies_eq, membersOn_eq]

/-- Settles O33, by the ends of the steps and by the output rule on one member. -/
theorem sequenceStepsAct : Obligations.SequenceStepsAct := by
  refine ⟨fun s hcalm => ⟨fun h hlines => ?_, fun left e hr ht he => ?_⟩, fun d e => ?_, fun d g b x hx hb hg => ?_⟩
  · exact act_same stepExpiry s _ hcalm.1 (stepExpiry_stands h) hcalm.1.2 hlines
  · have hcur : s.part.sqe.current = some e := he
    refine ⟨fun hk hi => ?_, fun hk hi e' he' => ⟨fun hk' => ?_, fun hk' ht' => ?_⟩, fun hk hp => ?_⟩
    · refine exec_stepEnds hcalm ?_ (by simp)
      rw [stepExpiry_delay hr ht hcur hk]
      exact (completeStep_last e.timeMs hi).stops _ nofun
    · refine exec_stepEnds hcalm ?_ (by simp)
      rw [stepExpiry_delay hr ht hcur hk]
      exact (completeStep_next e.timeMs hi).begins_endRun 64 hr rfl he' hk'
    · refine exec_stepEnds hcalm ?_ (by simp)
      rw [stepExpiry_delay hr ht hcur hk]
      exact (completeStep_next e.timeMs hi).begins_delay 64 hr rfl he' hk' ht'
    · refine exec_stepEnds hcalm ?_ (by simp)
      rw [stepExpiry_fails hr ht hcur hk, hp]
      have h := (failStep_halt (d := s.part) .timeout (if e.kind = .enableGroup then tallies s.part else 0)).stops
        stepFuel nofun
      have hvalue : failValue .timeout .halt (if e.kind = .enableGroup then tallies s.part else 0) =
          2 ^ 24 + if e.kind = .enableGroup then tallies s.part else 0 := by
        simp [failValue, StepCause.code, Policy.code]
      rw [hvalue] at h
      exact h
  · refine ⟨fun h => examineEnable_waits h, fun hw hf => ?_, fun hw hf hi => ?_, fun h => ?_, fun h hi => ?_,
      fun h hn => examineWait_waits h hn⟩
    · have hend : examineEnable e d = failStep .branchFault e.policy (tallies d) d :=
        (examineEnable_ends hw).trans (if_pos hf)
      rw [hend, tallies_filter]
      exact ⟨fun hp => failStep_halt_told _ hp, fun hp hi => failStep_skip_told _ hp hi⟩
    · have hend : examineEnable e d = completeStep (tallies d) d :=
        (examineEnable_ends hw).trans (if_neg (by omega))
      rw [hend, tallies_filter]
      exact (completeStep_next _ hi).told (by simp)
    · have hend : examineWait e d = failStep .branchFault e.policy 0 d := examineWait_faulted h
      rw [hend]
      exact ⟨fun hp => failStep_halt_told _ hp, fun hp hi => failStep_skip_told _ hp hi⟩
    · have hend : examineWait e d = completeStep (seqHolders e.group d).length d := examineWait_completes h
      rw [hend]
      exact (completeStep_next _ hi).told (by simp)
  · have henrolls {z : Branch} {q : List Nat} (h : x.state = .queued ∨
        (x.state = .off ∧ x.holds.leak = false ∧ x.holds.trip = false ∧ x.holds.forceOff = false))
        (hbec : Becomes b z q d.slc.out d.counting (enrol b d)) :
        (sortMember g b d).branch b = some z ∧ (∀ n, n ≠ b → (sortMember g b d).branch n = d.branch n) ∧
          (sortMember g b d).bcu.queue = q ∧ (sortMember g b d).slc = d.slc ∧
          (sortMember g b d).sqe = { d.sqe with enrolled := d.sqe.enrolled + 1 } := by
      rw [sortMember_enrols hx hg h]
      refine ⟨hbec.branch, hbec.others, hbec.queue, ?_, enrol_sqe hx⟩
      rw [hbec.slc, hbec.out]
      rfl
    refine ⟨fun hs => henrolls (.inl hs) (enrol_stands hx (.inl hs)),
      fun hs hfree hsh => henrolls (.inr ⟨hs, hfree⟩) (enrol_stands hx (.inr ⟨hs, hsh⟩)),
      fun hs hfree hsh hd => henrolls (.inr ⟨hs, hfree⟩) (enrol_queues hx hs ?_ hd),
      fun h => sortMember_on hx hg h, fun h => sortMember_skips hx hg h, fun hlast hs => ?_,
      fun hlast hs k r hk hr => ?_, fun hno hcase => ?_⟩
    · obtain ⟨hl, ht, hf⟩ := hfree
      simp [Holds.any, hl, ht, hf, hsh]
    · have hloses := (loses_clearSeq x).mpr hlast
      obtain ⟨e', ⟨he', -⟩, hbranch, hqueue⟩ := disableGroup_at (P := fun _ => True) hx hb hg trivial
        fun _ _ _ _ => trivial
      have hbec := applyOutput_queued (y := x.clearSeq) he' hloses hs
      refine ⟨hbranch.trans hbec.branch, hqueue (by rw [hbec.queue]; simp), fun hlone => ?_⟩
      have hbec' := applyOutput_queued (y := x.clearSeq) hx hloses hs
      rw [disableGroup_lone hx hb hg hlone]
      exact ⟨hbec'.queue, hbec'.out⟩
    · have hloses := (loses_clearSeq x).mpr hlast
      obtain ⟨e', ⟨he', hserved⟩, hbranch, -⟩ := disableGroup_at (P := Served b x k d.sru) hx hb hg
        ⟨hx, hk, ⟨r, hr⟩, rfl⟩ fun n e hn h => h.change _ (fun y => by unfold Branch.disabled; split <;> rfl) hn
      obtain ⟨r', hr'⟩ := hserved.record
      have hbec := applyOutput_stops (y := x.clearSeq) he' hloses hs hserved.slot hr'
      rw [hserved.sru_eq] at hbec
      refine ⟨hbranch.trans hbec.branch, fun hlone => ?_⟩
      have hbec' := applyOutput_stops (y := x.clearSeq) hx hloses hs hk hr
      rw [disableGroup_lone hx hb hg hlone]
      exact ⟨hbec'.queue, hbec'.out⟩
    · obtain ⟨e', ⟨he', -⟩, hbranch, -⟩ := disableGroup_at (P := fun _ => True) hx hb hg trivial
        fun _ _ _ _ => trivial
      refine hbranch.trans ?_
      by_cases hl : loses x x.clearSeq = true
      · refine (applyOutput_loses (y := x.clearSeq) he' hl ?_).branch
        rcases hcase with h | h | h | h
        · exact absurd ((loses_clearSeq x).mp hl) h
        all_goals exact ⟨by rw [show x.clearSeq.state = x.state from rfl, h]; exact nofun,
          by rw [show x.clearSeq.state = x.state from rfl, h]; exact nofun,
          by rw [show x.clearSeq.state = x.state from rfl, h]; exact nofun⟩
      · refine (applyOutput_stands (y := x.clearSeq) he' (Bool.eq_false_iff.mpr hl) ?_).branch
        rintro ⟨hs, hw⟩
        refine hno ⟨hs, ?_⟩
        unfold Branch.wanted at hw ⊢
        simp only [Branch.clearSeq, Demands.any, Bool.false_or, Bool.and_eq_true] at hw
        obtain ⟨hctrl, hholds⟩ := hw
        simp only [Demands.any, hctrl, Bool.or_true, Bool.true_and]
        exact hholds

end Sys2Proof.Machine

/-! PROOFS. SEQUENCE START (R131): the part as a run is launched, and the first steps that touch no branch. -/

namespace Sys2Proof.Machine

-- One proof after another: proofs that are checked side by side take a thread each.
set_option Elab.async false

/-! ## The launch -/

/-- A branch that no step enrols. -/
def Branch.unenrolled (x : Branch) : Branch := { x with enrolling := none }

/-- A branch is enrolled no more. -/
def unenrol (b : Nat) (d : Part) : Part :=
  match d.branch b with
  | some x => putBranch b x.unenrolled d
  | none => d

theorem unenrol_eq (b : Nat) (d : Part) :
    unenrol b d = { d with bcu := { d.bcu with branches := (unenrol b d).bcu.branches } } := by
  unfold unenrol
  split <;> rfl

/-- The part as no branch is enrolled. -/
@[irreducible] def unenrolled (d : Part) : Part := forBranches unenrol d

theorem unenrolled_eq (d : Part) :
    unenrolled d = { d with bcu := { d.bcu with branches := (unenrolled d).bcu.branches } } := by
  unfold unenrolled forBranches
  generalize List.range 36 = l
  induction l generalizing d with
  | nil => rfl
  | cons b l ih =>
    rw [List.foldl_cons]
    refine (ih _).trans ?_
    generalize List.foldl _ _ l = e
    have h := unenrol_eq b d
    generalize unenrol b d = f at h ⊢
    conv_lhs => rw [h]

theorem unenrolled_branch (d : Part) {n : Nat} (hn : n < 36) :
    (unenrolled d).branch n = (d.branch n).map Branch.unenrolled := by
  unfold unenrolled
  refine (forBranches_branch (P := fun _ => True) (φ := fun _ => Branch.unenrolled) (fun b e _ hb => ⟨trivial, fun n => ?_⟩)
    trivial).2 n hn
  rw [← hb]
  unfold unenrol
  rcases hx : e.branch b with _ | x
  · simp only [Option.map_none]
    split
    · rename_i h
      rw [h, hx]
    · rfl
  · simp only [Option.map_some]
    exact branch_put hx n

/-- The run record as a run begins in the state `r`. -/
def Sqe.fresh (q : Sqe) (leak : Bool) (r : RunState) : Sqe :=
  { q with
    run := r, index := 0, phase := .notBegun, causes := ⟨false, false, leak⟩, timer := .stopped
    enrolled := 0, alreadyOn := 0, startSkipped := 0, faulted := 0, faultedMembers := [] }

/-- The part as a run begins in the state `r`. -/
def launched (r : RunState) (d : Part) : Part :=
  { d with
    bcu := { d.bcu with branches := (unenrolled d).bcu.branches }
    sqe := d.sqe.fresh (leakCause d) r }

theorem launched_branch (r : RunState) (d : Part) {n : Nat} (hn : n < 36) :
    (launched r d).branch n = (d.branch n).map Branch.unenrolled :=
  (branch_of_bcu (d := unenrolled d) (d' := launched r d) rfl n).trans (unenrolled_branch d hn)

/-- The launch of a run in a part without enrolled branches. -/
def launch (r : RunState) (d : Part) : Part := { d with sqe := d.sqe.fresh (leakCause d) r }

theorem launch_unenrolled (r : RunState) (d : Part) : launch r (unenrolled d) = launched r d := by
  have h := unenrolled_eq d
  unfold launch launched
  generalize unenrolled d = e at h ⊢
  have hsqe : e.sqe = d.sqe := by rw [h]
  have hleak : leakCause e = leakCause d := by rw [h]; rfl
  rw [hsqe, hleak]
  conv_lhs => rw [h]

/-- The rest of a start. -/
def startFrom (d : Part) : Part :=
  let c : Causes := ⟨false, false, leakCause d⟩
  let d2 := { d with
    sqe.index := 0, sqe.phase := .notBegun, sqe.causes := c, sqe.timer := .stopped
    sqe.enrolled := 0, sqe.alreadyOn := 0, sqe.startSkipped := 0, sqe.faulted := 0
    sqe.faultedMembers := [] }
  if c.any then postStep .runSuspended (some c.code) { d2 with sqe.run := .suspended }
  else runSteps stepFuel { d2 with sqe.run := .running }

theorem startRun_eq (d : Part) : startRun d = startFrom (unenrolled d) := by
  have hfold (f : Nat → Part → Part) (hf : f = unenrol) : forBranches f d = unenrolled d := by
    unfold unenrolled
    rw [hf]
  unfold startRun
  rw [hfold _ (by funext b e; unfold unenrol; rfl)]
  rfl

theorem startFrom_suspends {d : Part} (h : leakCause d = true) :
    startFrom d = postStep .runSuspended (some 4) (launch .suspended d) := by
  unfold startFrom launch
  rw [h]
  rfl

theorem startFrom_runs {d : Part} (h : leakCause d = false) :
    startFrom d = runSteps stepFuel (launch .running d) := by
  unfold startFrom launch
  rw [h]
  rfl

theorem startRun_suspends {d : Part} (h : leakCause d = true) :
    startRun d = postStep .runSuspended (some 4) (launched .suspended d) := by
  have hl : leakCause (unenrolled d) = true := by rw [unenrolled_eq d]; exact h
  rw [startRun_eq, startFrom_suspends hl, launch_unenrolled]

theorem startRun_runs {d : Part} (h : leakCause d = false) :
    startRun d = runSteps stepFuel (launched .running d) := by
  have hl : leakCause (unenrolled d) = false := by rw [unenrolled_eq d]; exact h
  rw [startRun_eq, startFrom_runs hl, launch_unenrolled]

theorem leakCause_iff (d : Part) : leakCause d = true ↔ ∃ z ∈ d.lkm.zones, ∃ c, z.cfg = some c ∧ c.suspend = true ∧
    z.state.latched = true ∧ z.acked = false := by
  unfold leakCause
  rw [List.any_eq_true]
  refine exists_congr fun z => and_congr_right fun _ => ?_
  unfold Zone.suspends
  rcases z.cfg with _ | c
  · simp
  · simp [and_assoc]

/-! ## Counts over the branches -/

theorem branchesWith_eq (f : Branch → Bool) (d : Part) :
    branchesWith f d = (List.range 36).filter fun b => (d.branch b).any f := by
  unfold branchesWith
  refine List.filter_congr fun b _ => ?_
  rcases d.branch b with _ | x <;> rfl

/-- The valid branches that satisfy `f`, as branches and as branch numbers. -/
theorem branchesWith_length (f : Branch → Bool) (d : Part) :
    (branchesWith f d).length = (((List.range 36).filterMap d.branch).filter f).length := by
  rw [branchesWith_eq]
  induction List.range 36 with
  | nil => rfl
  | cons b l ih =>
    rcases hb : d.branch b with _ | x
    · simpa [hb] using ih
    · rcases hf : f x with _ | _ <;> simpa [hb, hf] using ih

theorem mem_branches {d : Part} {x : Branch} : x ∈ (List.range 36).filterMap d.branch ↔ ∃ b < 36, d.branch b = some x := by
  simp [List.mem_filterMap]

/-- What a view of the branches keeps, the choice of branches keeps. -/
theorem branchesWith_of {f g : Branch → Bool} {d e : Part}
    (h : ∀ b < 36, (e.branch b).any f = (d.branch b).any g) : branchesWith f e = branchesWith g d := by
  rw [branchesWith_eq, branchesWith_eq]
  exact List.filter_congr fun b hb => h b (List.mem_range.mp hb)

theorem seqHolders_launched (r : RunState) (g : Nat) (d : Part) : seqHolders g (launched r d) = seqHolders g d :=
  branchesWith_of fun b hb => by
    rw [launched_branch r d hb]
    rcases d.branch b with _ | x <;> rfl

theorem inState_launched {r : RunState} {d : Part} {b : Nat} {s : BranchState} (hb : b < 36) :
    inState (launched r d) b s ↔ inState d b s := by
  unfold inState
  rw [launched_branch r d hb]
  rcases d.branch b with _ | x
  · simp
  · simp [Branch.unenrolled]

theorem seqHolders_length (g : Nat) (d : Part) : (seqHolders g d).length =
    ((((List.range 36).filterMap d.branch).filter fun x => x.cfg.group == g).filter fun x => x.demands.seq).length := by
  unfold seqHolders
  rw [branchesWith_length, List.filter_filter]
  congr 2
  funext x
  exact Bool.and_comm _ _

theorem mem_holders {g : Nat} {d : Part} {x : Branch} :
    x ∈ (((List.range 36).filterMap d.branch).filter fun x => x.cfg.group == g).filter (fun x => x.demands.seq) ↔
      ∃ b ∈ seqHolders g d, d.branch b = some x := by
  unfold seqHolders
  simp only [List.mem_filter, mem_branches, mem_branchesWith, Bool.and_eq_true]
  constructor
  · rintro ⟨⟨⟨b, hb, hx⟩, hg⟩, hs⟩
    exact ⟨b, ⟨hb, x, hx, hg, hs⟩, hx⟩
  · rintro ⟨b, ⟨hb, y, hy, hg, hs⟩, hx⟩
    cases hx.symm.trans hy
    exact ⟨⟨⟨b, hb, hx⟩, hg⟩, hs⟩

theorem seqHolder_valid {g : Nat} {d : Part} {b : Nat} (h : b ∈ seqHolders g d) : b < 36 ∧ ∃ x, d.branch b = some x := by
  obtain ⟨hb, x, hx, -⟩ := mem_branchesWith.mp h
  exact ⟨hb, x, hx⟩

/-! ## The answer -/

theorem appendResponse_extends (m : Uplink) (d : Part) : Extends d (appendResponse m d) := by
  unfold appendResponse
  by_cases he : d.rlp.events = []
  · rcases ht : d.rlp.tx with _ | x
    · unfold Extends
      rw [posted_of_none ht, he]
      exact List.nil_prefix
    · have : arbitrate { d with rlp.responses := d.rlp.responses ++ [m] } =
        { d with rlp.responses := d.rlp.responses ++ [m] } := by
        unfold arbitrate
        simp only [ht]
      rw [this]
      exact .of_rlp rfl rfl
  · unfold Extends
    rw [arbitrate_posted (by exact he)]
    exact List.prefix_refl _

theorem answeredAfter_extends (a : Answer) (q : Queued) (d : Part) : Extends d (answeredAfter a q d) := by
  have hsettle (d : Part) : Extends d (settleAll d) := extends_built.settleAll extends_sqe d
  refine List.IsPrefix.trans (hsettle d) ?_
  have hanswered (e : Part) : Extends e { e with
      rlp.requests := [], rlp.phase := .fresh, rlp.detail := detailAfter a q } := .of_rlp rfl rfl
  refine List.IsPrefix.trans (hanswered _) ?_
  refine List.IsPrefix.trans (appendResponse_extends (.response (a.response q.tag)) _) ?_
  exact List.IsPrefix.trans (hsettle _) (List.prefix_refl _)

/-- A run that is started, up to its first step. -/
theorem exec_start {s : State} {tag : Word} (hs : s.part.ready) (hr : s.part.sqe.run ≠ .running)
    (hsus : s.part.sqe.run ≠ .suspended) (hon : s.part.sru.source = .onAc) :
    exec (.sequenceStart tag) s = .next { s with
      part := answeredAfter (Answer.done []) ⟨tag, .sequenceStart⟩ (startRun (s.part.opened ⟨tag, .sequenceStart⟩)) } := by
  refine exec_settles rfl hs _ ?_
  have hallowed : (!(s.part.opened ⟨tag, .sequenceStart⟩).sqe.underWay &&
      (s.part.opened ⟨tag, .sequenceStart⟩).sru.source == .onAc) = true := by
    have hu := parked_of hr hsus
    show (!s.part.sqe.underWay && s.part.sru.source == .onAc) = true
    rw [hu, hon]
    rfl
  have hdo : doStart (s.part.opened ⟨tag, .sequenceStart⟩) = _ := ifAllowed_true startRun _ hallowed
  show ((doStart _).1, Reply.answer (doStart _).2) = _
  rw [hdo]

end Sys2Proof.Machine

/-! PROOFS. ENABLE_GROUP at its beginning (R122, R123): the sorting of the members of its group, one after another. -/

namespace Sys2Proof.Machine

-- One proof after another: proofs that are checked side by side take a thread each.
set_option Elab.async false

/-! ## One member -/

/-- ENABLE_GROUP enrols a member in this state. -/
def Branch.enrols (x : Branch) : Bool :=
  x.state == .queued || (x.state == .off && !x.holds.leak && !x.holds.trip && !x.holds.forceOff)

/-- ENABLE_GROUP counts a member in this state as on already. -/
def Branch.isOn (x : Branch) : Bool := x.state == .admitting || x.state == .on

/-- A member that ENABLE_GROUP enrols at the step `i`. -/
def Branch.enlisted (i : Nat) (x : Branch) : Branch :=
  { x with
    state := if x.state = .off ∧ x.holds.shed = true then .off else .queued
    demands := { x.demands with seq := true }, enrolling := some i }

/-- A branch as ENABLE_GROUP of group `g` at the step `i` leaves it. -/
def Branch.sorted (g i : Nat) (x : Branch) : Branch :=
  if x.cfg.group = g ∧ x.enrols = true then x.enlisted i else x

/-- A member that joins the queue at its back. -/
def Branch.joinsBack (g : Nat) (x : Branch) : Bool := x.cfg.group == g && x.state == .off && !x.holds.any

theorem queueIfWanted_rlp (b : Nat) (d : Part) : (queueIfWanted b d).rlp = d.rlp := by
  unfold queueIfWanted enqueueBack
  split
  · rfl
  · split
    · split
      · rfl
      · rw [signalOnce_rlp, setQueue_rlp]
        rfl
    · rfl

theorem applyOutput_rlp {b : Nat} {x y : Branch} {d : Part} (h : loses x y = false) :
    (applyOutput b x y d).rlp = d.rlp := by
  unfold applyOutput
  split
  · rfl
  · simp only [h, Bool.false_eq_true, if_false]
    rw [queueIfWanted_rlp, signalOnce_rlp]
    rfl

theorem enrols_iff (x : Branch) : x.enrols = true ↔ x.state = .queued ∨
    (x.state = .off ∧ x.holds.leak = false ∧ x.holds.trip = false ∧ x.holds.forceOff = false) := by
  simp [Branch.enrols, and_assoc]

/-- A member that is enrolled, whatever of the two rows of R122 that enrol it is. -/
theorem enrol_becomes {d : Part} {b : Nat} {x : Branch} (hx : d.branch b = some x) (hn : x.enrolling = none)
    (h : x.enrols = true) : Becomes b (x.enlisted d.sqe.index)
      (d.bcu.queue ++ if x.joinsBack x.cfg.group then [b] else []) d.slc.out d.counting (enrol b d) := by
  rcases (enrols_iff x).mp h with hs | ⟨hs, hl, ht, hf⟩
  · have hbec := enrol_stands hx (.inl hs)
    have hy : x.enrolled d.sqe.index = x.enlisted d.sqe.index := by
      simp [Branch.enrolled, Branch.enlisted, hs]
    have hj : x.joinsBack x.cfg.group = false := by simp [Branch.joinsBack, hs]
    rw [← hy, hj, if_neg nofun, List.append_nil]
    exact hbec
  · rcases hsh : x.holds.shed with _ | _
    · have hany : x.holds.any = false := by simp [Holds.any, hl, ht, hf, hsh]
      have hj : x.joinsBack x.cfg.group = true := by simp [Branch.joinsBack, hs, hany]
      have hy : { x.enrolled d.sqe.index with state := .queued } = x.enlisted d.sqe.index := by
        simp [Branch.enrolled, Branch.enlisted, hsh]
      rw [← hy, hj, if_pos rfl, enrol_eq hx]
      refine applyOutput_wanted (d := d.counting) (y := x.enrolled d.sqe.index) hx (not_loses_enrolled _ _) ?_ hs ?_
      · intro he
        rw [he] at hn
        cases hn
      · simp [Branch.wanted, Branch.enrolled, hany, Demands.any]
    · have hbec := enrol_stands hx (.inr ⟨hs, hsh⟩)
      have hy : x.enrolled d.sqe.index = x.enlisted d.sqe.index := by
        simp [Branch.enrolled, Branch.enlisted, hs, hsh]
      have hj : x.joinsBack x.cfg.group = false := by simp [Branch.joinsBack, Holds.any, hsh]
      rw [← hy, hj, if_neg nofun, List.append_nil]
      exact hbec

theorem enrol_rlp {d : Part} {b : Nat} {x : Branch} (hx : d.branch b = some x) : (enrol b d).rlp = d.rlp := by
  rw [enrol_eq hx, applyOutput_rlp (not_loses_enrolled _ _)]
  rfl

/-! ## The group -/

/-- How many of the branches `l` of `d` satisfy `f`. -/
def countOf (d : Part) (f : Branch → Bool) (l : List Nat) : Nat := l.countP fun b => (d.branch b).any f

theorem countOf_concat (d : Part) (f : Branch → Bool) (l : List Nat) (b : Nat) :
    countOf d f (l ++ [b]) = countOf d f l + if (d.branch b).any f then 1 else 0 := by
  unfold countOf
  rw [List.countP_append, List.countP_singleton]

/-- The run record with the members of `l` sorted. -/
def Sqe.sortedOf (q : Sqe) (g : Nat) (d : Part) (l : List Nat) : Sqe :=
  { q with
    enrolled := q.enrolled + countOf d (fun x => x.cfg.group == g && x.enrols) l
    alreadyOn := q.alreadyOn + countOf d (fun x => x.cfg.group == g && x.isOn) l
    startSkipped := q.startSkipped + countOf d (fun x => x.cfg.group == g && (!x.enrols && !x.isOn)) l }

/-- The part `e` with the branches `l` of `d` sorted by ENABLE_GROUP of group `g`. -/
structure Sorted (g : Nat) (d : Part) (l : List Nat) (e : Part) : Prop where
  branch : ∀ n, e.branch n = if n ∈ l then (d.branch n).map (Branch.sorted g d.sqe.index) else d.branch n
  queue : e.bcu.queue = d.bcu.queue ++ l.filter fun b => (d.branch b).any (Branch.joinsBack g)
  sqe : e.sqe = d.sqe.sortedOf g d l
  spacing : e.bcu.spacing = d.bcu.spacing
  sru : e.sru = d.sru
  slc : e.slc = d.slc
  rlp : e.rlp = d.rlp
  notes : Notes d e

/-- A step that leaves the branches and the queue, and counts what the branch counts. -/
theorem Sorted.counts {g : Nat} {d e : Part} {l : List Nat} {b : Nat} (h : Sorted g d l e) (u : Sqe)
    (hu : u = d.sqe.sortedOf g d (l ++ [b]))
    (hb : (d.branch b).map (Branch.sorted g d.sqe.index) = d.branch b)
    (hj : (d.branch b).any (Branch.joinsBack g) = false) : Sorted g d (l ++ [b]) { e with sqe := u } where
  branch n := by
    refine (h.branch n).trans ?_
    by_cases hn : n ∈ l
    · rw [if_pos hn, if_pos (List.mem_append_left _ hn)]
    · rw [if_neg hn]
      by_cases hnb : n = b
      · rw [if_pos (List.mem_append_right _ (List.mem_singleton.mpr hnb)), hnb, hb]
      · rw [if_neg (by simp [hn, hnb])]
  queue := h.queue.trans (by rw [List.filter_append]; simp [hj])
  sqe := hu
  spacing := h.spacing
  sru := h.sru
  slc := h.slc
  rlp := h.rlp
  notes := h.notes

theorem sortMember_sorted {g : Nat} {d e : Part} {l : List Nat} {b : Nat} (hb : b ∉ l)
    (hfree : ∀ x, d.branch b = some x → x.enrolling = none) (h : Sorted g d l e) :
    Sorted g d (l ++ [b]) (sortMember g b e) := by
  have heb : e.branch b = d.branch b := (h.branch b).trans (if_neg hb)
  have hindex : e.sqe.index = d.sqe.index := by rw [h.sqe]; rfl
  rcases hx : d.branch b with _ | x
  · have hsame : sortMember g b e = { e with sqe := e.sqe } := by
      unfold sortMember
      rw [heb, hx]
    rw [hsame]
    refine h.counts _ ?_ (by rw [hx]; rfl) (by rw [hx]; rfl)
    rw [h.sqe]
    simp [Sqe.sortedOf, countOf_concat, hx]
  have hex : e.branch b = some x := heb.trans hx
  by_cases hg : x.cfg.group = g
  · by_cases hen : x.enrols = true
    · have hbec := enrol_becomes hex (hfree x hx) hen
      have hrlp := enrol_rlp hex
      have hsqe := enrol_sqe hex
      rw [sortMember_enrols hex hg ((enrols_iff x).mp hen)]
      generalize enrol b e = e' at hbec hrlp hsqe
      refine ⟨fun n => ?_, ?_, ?_, hbec.spacing.trans h.spacing, hbec.sru.trans h.sru, ?_, hrlp.trans h.rlp,
        h.notes.trans hbec.notes⟩
      · by_cases hn : n = b
        · rw [hn, hbec.branch, if_pos (by simp), hx, hindex]
          simp [Branch.sorted, hg, hen]
        · rw [hbec.others n hn]
          refine (h.branch n).trans ?_
          simp [hn]
      · rw [hbec.queue, h.queue, List.filter_append, List.append_assoc, hg]
        congr 2
        simp [hx, List.filter_cons]
      · rw [hsqe, h.sqe]
        have hon : x.isOn = false := by
          rcases (enrols_iff x).mp hen with hs | ⟨hs, -⟩ <;> simp [Branch.isOn, hs]
        simp [Sqe.sortedOf, countOf_concat, hx, hg, hen, hon, Nat.add_assoc]
      · rw [hbec.slc, hbec.out]
        exact h.slc
    · have hrows : x.state ≠ .queued ∧ ¬ (x.state = .off ∧ x.holds.leak = false ∧ x.holds.trip = false ∧
          x.holds.forceOff = false) := not_or.mp fun hr => hen ((enrols_iff x).mpr hr)
      have hstands : (d.branch b).map (Branch.sorted g d.sqe.index) = d.branch b := by
        rw [hx]
        simp [Branch.sorted, hen]
      have hback : (d.branch b).any (Branch.joinsBack g) = false := by
        rw [hx]
        by_contra hj
        simp only [Option.any_some, Bool.not_eq_false, Branch.joinsBack, Bool.and_eq_true, beq_iff_eq, Holds.any,
          Bool.not_eq_true', Bool.or_eq_false_iff] at hj
        obtain ⟨⟨-, hs⟩, ⟨⟨hl, ht⟩, -⟩, hf⟩ := hj
        exact hrows.2 ⟨hs, hl, ht, hf⟩
      have henrols : x.enrols = false := Bool.eq_false_iff.mpr hen
      by_cases hon : x.isOn = true
      · have hs : x.state = .admitting ∨ x.state = .on := by simpa [Branch.isOn] using hon
        rw [sortMember_on hex hg hs]
        refine h.counts _ ?_ hstands hback
        rw [h.sqe]
        simp [Sqe.sortedOf, countOf_concat, hx, hg, henrols, hon, Nat.add_assoc]
      · have hoff : x.isOn = false := Bool.eq_false_iff.mpr hon
        have hskip : (x.state = .off ∧ ¬ (x.holds.leak = false ∧ x.holds.trip = false ∧ x.holds.forceOff = false)) ∨
            x.state = .fault ∨ x.state = .stopping ∨ x.state = .unknown := by
          have hne : x.state ≠ .admitting ∧ x.state ≠ .on := by simpa [Branch.isOn] using hoff
          rcases hs : x.state <;> simp [hs] at hne hrows ⊢
          exact hrows
        rw [sortMember_skips hex hg hskip]
        refine h.counts _ ?_ hstands hback
        rw [h.sqe]
        simp [Sqe.sortedOf, countOf_concat, hx, hg, henrols, hoff, Nat.add_assoc]
  · have hsame : sortMember g b e = { e with sqe := e.sqe } := by
      unfold sortMember
      rw [hex]
      exact if_pos hg
    rw [hsame]
    refine h.counts _ ?_ ?_ ?_
    · rw [h.sqe]
      simp [Sqe.sortedOf, countOf_concat, hx, hg]
    · rw [hx]
      simp [Branch.sorted, hg]
    · rw [hx]
      simp [Branch.joinsBack, hg]

/-- The sorting of a group. -/
theorem forBranches_sorted (g : Nat) {d : Part} (hfree : ∀ b < 36, ∀ x, d.branch b = some x → x.enrolling = none) :
    Sorted g d (List.range 36) (forBranches (sortMember g) d) := by
  have below (m : Nat) (hm : m ≤ 36) :
      Sorted g d (List.range m) ((List.range m).foldl (fun d b => sortMember g b d) d) := by
    induction m with
    | zero => exact ⟨fun _ => rfl, (List.append_nil _).symm, rfl, rfl, rfl, rfl, rfl, .of_agenda rfl⟩
    | succ m ih =>
      rw [List.range_succ, List.foldl_append]
      exact sortMember_sorted (by simp) (hfree m (by omega)) (ih (by omega))
  exact below 36 (le_refl _)

/-- A branch after the sorting, from what it was. -/
theorem Sorted.at {g : Nat} {d e : Part} (h : Sorted g d (List.range 36) e) {n : Nat} (hn : n < 36) :
    e.branch n = (d.branch n).map (Branch.sorted g d.sqe.index) :=
  (h.branch n).trans (if_pos (List.mem_range.mpr hn))

end Sys2Proof.Machine

/-! PROOFS. The first step of a run (R131, R120 to R126), by its kind. -/

namespace Sys2Proof.Machine

-- One proof after another: proofs that are checked side by side take a thread each.
set_option Elab.async false

/-! ## Hand-offs that do nothing -/

theorem settle_inert (n : Nat) {d : Part}
    (h : ∀ s ∈ d.agenda, ∀ l, handle s { d with agenda := l } = { d with agenda := l })
    (hn : d.agenda.length ≤ n) : settle n d = { d with agenda := [] } := by
  induction n generalizing d with
  | zero =>
    have hnil := List.length_eq_zero_iff.mp (Nat.le_zero.mp hn)
    rw [settle_nil 0 d hnil, ← hnil]
  | succ n ih =>
    rcases hd : d.agenda with _ | ⟨s, rest⟩
    · rw [settle_nil _ d hd, ← hd]
    · rw [hd] at h hn
      unfold settle
      rw [hd]
      simp only
      rw [h s List.mem_cons_self]
      exact ih (d := { d with agenda := rest }) (fun t ht => h t (List.mem_cons_of_mem _ ht)) (by simpa using hn)

theorem answeredAfter_settled (a : Answer) (q : Queued) {d : Part} (h : settleAll d = { d with agenda := [] }) :
    Uplinked { d with
      rlp.requests := [], rlp.phase := .fresh, rlp.detail := detailAfter a q, agenda := []
      rlp.passOutcome := none, lines := (answeredAfter a q d).lines } (answeredAfter a q d) := by
  have hu := appendResponse_uplinked (.response (a.response q.tag))
    { d with rlp.requests := [], rlp.phase := .fresh, rlp.detail := detailAfter a q, agenda := [] }
  unfold answeredAfter
  rw [h, settleAll_nil _ hu.agenda]
  generalize appendResponse _ _ = e at hu ⊢
  exact ⟨by rw [hu.eq]; rfl⟩

/-- The end of a step that leaves nothing due is answered as it stands. -/
theorem StepEnds.answered {u : Sqe} {rs : List EventRecord} {d x : Part} (h : StepEnds u rs d x) (ha : d.agenda = [])
    (a : Answer) (q : Queued) : (answeredAfter a q x).sqe = u ∧ (answeredAfter a q x).bcu = d.bcu ∧
      (d.rlp.events.length + rs.length ≤ 64 → rs.Sublist (answeredAfter a q x).posted) := by
  have hu := answeredAfter_nothing a q (h.uplinked.agenda.trans ha)
  exact ⟨hu.sqe.trans h.sqe, hu.bcu.trans h.uplinked.bcu,
    fun hroom => (h.sublist hroom).trans (answeredAfter_extends a q x).sublist⟩

/-! ## The kinds of the first step -/

/-- The run record in its first step. -/
def Sqe.entered (q : Sqe) : Sqe := { q.fresh false .running with phase := .active }

/-- The part in the first step of the run that it starts. -/
def entered (d : Part) : Part := { launched .running d with sqe := d.sqe.entered }

theorem entered_branch (d : Part) {n : Nat} (hn : n < 36) : (entered d).branch n = (d.branch n).map Branch.unenrolled :=
  (branch_of_bcu (d := launched .running d) rfl n).trans (launched_branch _ d hn)

section
variable {d : Part} (hl : leakCause d = false)
include hl

theorem launched_sqe : (launched .running d).sqe = d.sqe.fresh false .running := by
  unfold launched
  rw [hl]

theorem launched_entered : { launched .running d with sqe.phase := .active } = entered d := by
  unfold entered Sqe.entered
  rw [← launched_sqe hl]

theorem startRun_begins : startRun d = runSteps 64 (beginStep (launched .running d)) := by
  rw [startRun_runs hl]
  exact runSteps_begin 64 rfl rfl

omit hl in
theorem entered_ends : StepEnds d.sqe.entered [] (launched .running d) (entered d) := .set _ _

theorem begin_none (he : entry d.sqe.steps 0 = none) : beginStep (launched .running d) =
    haltRun .stepInvalid (postStep .stepFailed (some (failValue .stepInvalid .halt 0)) (entered d)) := by
  unfold beginStep
  rw [launched_entered hl]
  have hcur : (launched .running d).sqe.current = none := he
  rw [hcur]

variable {e : SeqStep} (he : entry d.sqe.steps 0 = some e)
include he

theorem begin_endRun (hk : e.kind = .endRun) : beginStep (launched .running d) = doneRun (entered d) := by
  have hcur : (launched .running d).sqe.current = some e := he
  rw [beginStep_endRun hcur hk, launched_entered hl]

theorem begin_delay (hk : e.kind = .delay) (ht : 0 < e.timeMs) :
    beginStep (launched .running d) = { entered d with sqe.timer := .running e.timeMs } := by
  have hcur : (launched .running d).sqe.current = some e := he
  rw [beginStep_delay hcur hk ht, ← launched_entered hl]

theorem begin_checkpoint (hk : e.kind = .checkpoint) :
    beginStep (launched .running d) = advance (postStep .checkpoint (some e.code) (entered d)) := by
  have hcur : (launched .running d).sqe.current = some e := he
  unfold beginStep
  rw [launched_entered hl, hcur]
  simp only [hk]

theorem begin_disableGroup (hk : e.kind = .disableGroup) : beginStep (launched .running d) =
    completeStep (seqHolders e.group (launched .running d)).length (disableGroup e.group (entered d)) := by
  have hcur : (launched .running d).sqe.current = some e := he
  unfold beginStep
  rw [launched_entered hl, hcur]
  simp only [hk]

theorem begin_waitGood (hk : e.kind = .waitGood) : beginStep (launched .running d) =
    examineWait e { entered d with sqe.timer := startTimer e.timeMs } := by
  have hcur : (launched .running d).sqe.current = some e := he
  unfold beginStep
  rw [launched_entered hl, hcur]
  simp only [hk]

theorem begin_enableGroup (hk : e.kind = .enableGroup) : beginStep (launched .running d) =
    examineEnable e { forBranches (sortMember e.group) (entered d) with sqe.timer := startTimer e.timeMs } := by
  have hcur : (launched .running d).sqe.current = some e := he
  have hzero : ({ entered d with
      sqe.enrolled := 0, sqe.alreadyOn := 0, sqe.startSkipped := 0, sqe.faulted := 0
      sqe.faultedMembers := [] } : Part) = entered d := rfl
  unfold beginStep
  rw [launched_entered hl, hcur]
  simp only [hk]
  rw [hzero]

end

/-! ## The first step, up to what it leaves due -/

section
variable {d : Part} (hl : leakCause d = false)
include hl

theorem startRun_none (he : entry d.sqe.steps 0 = none) : StepEnds (d.sqe.entered.ended .halted)
    [stepRecord d 0 .stepFailed (some (2 * 2 ^ 24)), stepRecord d 0 .runHalted (some 2)] (launched .running d)
    (startRun d) := by
  rw [startRun_begins hl, begin_none hl he]
  exact (((entered_ends (d := d)).record .stepFailed (some (failValue .stepInvalid .halt 0))).halt .stepInvalid).stops 64 nofun

variable {e : SeqStep} (he : entry d.sqe.steps 0 = some e)
include he

theorem startRun_endRun (hk : e.kind = .endRun) : StepEnds (d.sqe.entered.ended .done)
    [stepRecord d 0 .runDone none] (launched .running d) (startRun d) := by
  rw [startRun_begins hl, begin_endRun hl he hk]
  exact (entered_ends (d := d)).done.stops 64 nofun

theorem startRun_delay (hk : e.kind = .delay) (ht : 0 < e.timeMs) :
    startRun d = { entered d with sqe.timer := .running e.timeMs } := by
  rw [startRun_begins hl, begin_delay hl he hk ht]
  exact runSteps_stop 64 (fun h => by cases h.2)

/-- The part in a WAIT_GOOD that is its first step. -/
def waiting (e : SeqStep) (d : Part) : Part := { entered d with sqe.timer := startTimer e.timeMs }

omit hl he in
theorem waiting_ends : StepEnds { d.sqe.entered with timer := startTimer e.timeMs } [] (launched .running d)
    (waiting e d) := .set _ _

omit hl he in
theorem seqHolders_waiting (g : Nat) : seqHolders g (waiting e d) = seqHolders g d :=
  branchesWith_of fun b hb => by
    rw [branch_of_bcu (d := entered d) (d' := waiting e d) rfl, entered_branch d hb]
    rcases d.branch b with _ | x <;> rfl

omit hl he in
theorem inState_waiting {b : Nat} {s : BranchState} (hb : b < 36) : inState (waiting e d) b s ↔ inState d b s := by
  unfold inState
  rw [branch_of_bcu (d := entered d) (d' := waiting e d) rfl, entered_branch d hb]
  rcases d.branch b with _ | x
  · simp
  · simp [Branch.unenrolled]

section
variable (hk : e.kind = .waitGood)
include hk

theorem startRun_waits (hf : ∀ b ∈ seqHolders e.group d, ¬ inState d b .fault)
    (hn : ∃ b ∈ seqHolders e.group d, ¬ inState d b .on) : startRun d = waiting e d := by
  rw [startRun_begins hl, begin_waitGood hl he hk]
  have h : examineWait e (waiting e d) = waiting e d := by
    refine examineWait_waits ?_ ?_
    · rw [seqHolders_waiting]
      exact fun b hb hs => hf b hb ((inState_waiting (seqHolder_valid hb).1).mp hs)
    · rw [seqHolders_waiting]
      obtain ⟨b, hb, hs⟩ := hn
      exact ⟨b, hb, fun h => hs ((inState_waiting (seqHolder_valid hb).1).mp h)⟩
  show runSteps 64 (examineWait e (waiting e d)) = _
  rw [h]
  exact runSteps_stop 64 (fun h => by cases h.2)

theorem startRun_waitFails (hf : ∃ b ∈ seqHolders e.group d, inState d b .fault) :
    startRun d = runSteps 64 (failStep .branchFault e.policy 0 (waiting e d)) := by
  rw [startRun_begins hl, begin_waitGood hl he hk]
  refine congrArg (runSteps 64) (examineWait_faulted (d := waiting e d) ?_)
  rw [seqHolders_waiting]
  obtain ⟨b, hb, hs⟩ := hf
  exact ⟨b, hb, (inState_waiting (seqHolder_valid hb).1).mpr hs⟩

theorem startRun_waitCompletes (hf : ∀ b ∈ seqHolders e.group d, inState d b .on) :
    startRun d = runSteps 64 (completeStep (seqHolders e.group d).length (waiting e d)) := by
  rw [startRun_begins hl, begin_waitGood hl he hk]
  have h := examineWait_completes (e := e) (d := waiting e d) (by
    rw [seqHolders_waiting]
    exact fun b hb => (inState_waiting (seqHolder_valid hb).1).mpr (hf b hb))
  rw [seqHolders_waiting] at h
  exact congrArg (runSteps 64) h

end

/-- A checkpoint that is followed by an END. -/
theorem startRun_checkpoint (hk : e.kind = .checkpoint) {e' : SeqStep} (he' : entry d.sqe.steps 1 = some e')
    (hk' : e'.kind = .endRun) : StepEnds ({ d.sqe.entered with run := .done, index := 1 })
      [stepRecord d 0 .checkpoint (some e.code), stepRecord d 1 .runDone none] (launched .running d) (startRun d) := by
  rw [startRun_begins hl, begin_checkpoint hl he hk]
  exact (((entered_ends (d := d)).record .checkpoint (some e.code)).next (by exact (by decide : (0 : Nat) < 63))).begins_endRun
    63 rfl rfl he' hk'

theorem startRun_waitHalts (hk : e.kind = .waitGood) (hp : e.policy = .halt)
    (hf : ∃ b ∈ seqHolders e.group d, inState d b .fault) : StepEnds (d.sqe.entered.ended .halted)
      [stepRecord d 0 .stepFailed (some 0), stepRecord d 0 .runHalted (some 0)] (launched .running d) (startRun d) := by
  rw [startRun_waitFails hl he hk hf, hp]
  exact ((waiting_ends (d := d)).trans (failStep_halt .branchFault 0)).stops 64 nofun

theorem startRun_waitSkips (hk : e.kind = .waitGood) (hp : e.policy = .skip)
    (hf : ∃ b ∈ seqHolders e.group d, inState d b .fault) {e' : SeqStep} (he' : entry d.sqe.steps 1 = some e')
    (hk' : e'.kind = .endRun) : StepEnds ({ d.sqe.entered with run := .done, index := 1 })
      [stepRecord d 0 .stepFailed (some (2 ^ 28)), stepRecord d 1 .runDone none] (launched .running d) (startRun d) := by
  rw [startRun_waitFails hl he hk hf, hp]
  exact ((waiting_ends (d := d)).trans (failStep_skip .branchFault 0 (by exact (by decide : (0 : Nat) < 63)))).begins_endRun
    63 rfl rfl he' hk'

theorem startRun_waitDone (hk : e.kind = .waitGood) (hf : ∀ b ∈ seqHolders e.group d, inState d b .on)
    {e' : SeqStep} (he' : entry d.sqe.steps 1 = some e') (hk' : e'.kind = .endRun) :
    StepEnds ({ d.sqe.entered with run := .done, index := 1 })
      [stepRecord d 0 .stepDone (some (seqHolders e.group d).length), stepRecord d 1 .runDone none]
      (launched .running d) (startRun d) := by
  rw [startRun_waitCompletes hl he hk hf]
  exact ((waiting_ends (d := d)).trans (completeStep_next _ (by exact (by decide : (0 : Nat) < 63)))).begins_endRun
    63 rfl rfl he' hk'

end

end Sys2Proof.Machine

/-! PROOFS. A run that starts with an ENABLE_GROUP or a DISABLE_GROUP (R122, R123, R125). -/

namespace Sys2Proof.Machine

-- One proof after another: proofs that are checked side by side take a thread each.
set_option Elab.async false

/-! ## ENABLE_GROUP -/

/-- The part with the members of a group sorted one after another in the first step. -/
@[irreducible] def sortedBranches (e : SeqStep) (d : Part) : Part := forBranches (sortMember e.group) (entered d)

/-- The part with the group of an ENABLE_GROUP sorted that is the first step. -/
def sortedGroup (e : SeqStep) (d : Part) : Part := { sortedBranches e d with sqe.timer := startTimer e.timeMs }

/-- The run record with the members of a group sorted in its first step. -/
def tallied (e : SeqStep) (d : Part) : Sqe :=
  { d.sqe.entered.sortedOf e.group (entered d) (List.range 36) with timer := startTimer e.timeMs }

section
variable (e : SeqStep) (d : Part)

theorem entered_free : ∀ b < 36, ∀ x, (entered d).branch b = some x → x.enrolling = none := fun b hb x hx => by
  rw [entered_branch d hb] at hx
  obtain ⟨y, -, rfl⟩ := Option.map_eq_some_iff.mp hx
  rfl

theorem enteredSorted : Sorted e.group (entered d) (List.range 36) (sortedBranches e d) := by
  unfold sortedBranches
  exact forBranches_sorted e.group (entered_free d)

theorem sortedGroup_eq : { forBranches (sortMember e.group) (entered d) with sqe.timer := startTimer e.timeMs } =
    sortedGroup e d := by
  unfold sortedGroup sortedBranches
  rfl

theorem sortedGroup_bcu : (sortedGroup e d).bcu = (sortedBranches e d).bcu := rfl

theorem sortedGroup_branch {n : Nat} (hn : n < 36) : (sortedGroup e d).branch n =
    (d.branch n).map fun x => x.unenrolled.sorted e.group 0 := by
  have h := (enteredSorted e d).at hn
  rw [entered_branch d hn, Option.map_map] at h
  rw [branch_of_bcu (congrArg Bcu.branches (sortedGroup_bcu e d))]
  exact h

theorem sortedGroup_sqe : (sortedGroup e d).sqe = tallied e d := by
  have h := (enteredSorted e d).sqe
  show { (sortedBranches e d).sqe with timer := startTimer e.timeMs } = _
  rw [h]
  rfl

theorem sortedGroup_queue : (sortedGroup e d).bcu.queue =
    d.bcu.queue ++ (List.range 36).filter fun b => (d.branch b).any (Branch.joinsBack e.group) := by
  have h := (enteredSorted e d).queue
  rw [sortedGroup_bcu]
  refine h.trans (congrArg (d.bcu.queue ++ ·) (List.filter_congr fun b hb => ?_))
  rw [entered_branch d (List.mem_range.mp hb)]
  rcases d.branch b with _ | x <;> rfl

/-- How many members of the group satisfy `f`. -/
theorem countOf_entered (f : Branch → Bool) (hf : ∀ x : Branch, f x.unenrolled = f x) (g : Nat) :
    countOf (entered d) (fun x => x.cfg.group == g && f x) (List.range 36) =
      ((((List.range 36).filterMap d.branch).filter fun x => x.cfg.group == g).filter f).length := by
  unfold countOf
  rw [List.countP_eq_length_filter, List.filter_filter]
  have hcount := branchesWith_length (fun x => f x && x.cfg.group == g) d
  rw [← hcount, branchesWith_eq]
  congr 1
  refine List.filter_congr fun b hb => ?_
  rw [entered_branch d (List.mem_range.mp hb)]
  rcases d.branch b with _ | x
  · rfl
  · simp only [Option.map_some, Option.any_some, hf, Bool.and_comm]
    rfl

end

section
variable {e : SeqStep} {d : Part}

/-- The members of the step are the branches that it has enrolled. -/
theorem mem_sortedMembers {b : Nat} : b ∈ stepMembers (sortedGroup e d) ↔
    b < 36 ∧ ∃ x, d.branch b = some x ∧ x.cfg.group = e.group ∧ x.enrols = true := by
  have hindex : (sortedGroup e d).sqe.index = 0 := by rw [sortedGroup_sqe]; rfl
  unfold stepMembers
  rw [mem_branchesWith, hindex]
  refine and_congr_right fun hb => ?_
  rw [sortedGroup_branch e d hb]
  rcases d.branch b with _ | x
  · simp
  · simp only [Option.map_some, Option.some.injEq, exists_eq_left', Branch.sorted]
    by_cases h : x.unenrolled.cfg.group = e.group ∧ x.unenrolled.enrols = true
    · rw [if_pos h]
      exact iff_of_true rfl h
    · rw [if_neg h]
      exact iff_of_false (by simp [Branch.unenrolled]) h

/-- A member stands as the step has enrolled it. -/
theorem sortedMember_branch {b : Nat} {x : Branch} (hb : b < 36) (hx : d.branch b = some x)
    (h : x.cfg.group = e.group ∧ x.enrols = true) : (sortedGroup e d).branch b = some (x.unenrolled.enlisted 0) := by
  rw [sortedGroup_branch e d hb, hx]
  exact congrArg some (if_pos h)

/-- A branch that stands in the queue or joins it. -/
def Branch.joins (x : Branch) : Bool := x.state == .queued || (x.state == .off && !x.holds.any)

theorem enrols_of_joins {x : Branch} (h : x.joins = true) : x.enrols = true := by
  rw [enrols_iff]
  simp only [Branch.joins, Bool.or_eq_true, beq_iff_eq, Bool.and_eq_true, Bool.not_eq_true', Holds.any,
    Bool.or_eq_false_iff] at h
  rcases h with h | ⟨h, ⟨⟨hl, ht⟩, -⟩, hf⟩
  · exact .inl h
  · exact .inr ⟨h, hl, ht, hf⟩

theorem enlisted_state {x : Branch} (h : x.enrols = true) (i : Nat) :
    (x.enlisted i).state = if x.joins then .queued else .off := by
  rcases (enrols_iff x).mp h with hs | ⟨hs, hl, ht, hf⟩
  · simp [Branch.enlisted, Branch.joins, hs]
  · rcases hsh : x.holds.shed <;> simp [Branch.enlisted, Branch.joins, Holds.any, hs, hl, ht, hf, hsh]

/-- The step waits where a member is left in the queue. -/
theorem sortedGroup_waits (h : ∃ b < 36, ∃ x, d.branch b = some x ∧ x.cfg.group = e.group ∧ x.joins = true) :
    examineEnable e (sortedGroup e d) = sortedGroup e d := by
  obtain ⟨b, hb, x, hx, hg, hj⟩ := h
  have hen := enrols_of_joins hj
  refine examineEnable_waits ⟨b, mem_sortedMembers.mpr ⟨hb, x, hx, hg, hen⟩, .inl ⟨_, sortedMember_branch hb hx ⟨hg, hen⟩, ?_⟩⟩
  have := enlisted_state (x := x.unenrolled) hen 0
  rw [show x.unenrolled.joins = x.joins from rfl, hj] at this
  exact this

section
variable (h : ∀ b < 36, ∀ x, d.branch b = some x → x.cfg.group = e.group → x.joins = false)
include h

theorem sortedMember_off {b : Nat} (hb : b ∈ stepMembers (sortedGroup e d)) : inState (sortedGroup e d) b .off := by
  obtain ⟨hb, x, hx, hg, hen⟩ := mem_sortedMembers.mp hb
  refine ⟨_, sortedMember_branch hb hx ⟨hg, hen⟩, ?_⟩
  have := enlisted_state (x := x.unenrolled) hen 0
  rw [show x.unenrolled.joins = x.joins from rfl, h b hb x hx hg] at this
  exact this

theorem sortedGroup_none_on : membersOn (sortedGroup e d) = [] := by
  rw [membersOn_eq, List.filter_eq_nil_iff]
  intro b hb hon
  obtain ⟨x, hx, hs⟩ := isIn_iff.mp hon
  obtain ⟨y, hy, hoff⟩ := sortedMember_off h hb
  cases hx.symm.trans hy
  rw [hs] at hoff
  cases hoff

/-- The step completes at once where no member is left to wait for. -/
theorem sortedGroup_completes : examineEnable e (sortedGroup e d) =
    completeStep ((tallied e d).enrolled * 2 ^ 18 + (tallied e d).alreadyOn * 2 ^ 6 +
      (tallied e d).startSkipped + (tallied e d).enrolled) (sortedGroup e d) := by
  have hsqe := sortedGroup_sqe e d
  have hnone := sortedGroup_none_on h
  have hf : (tallied e d).faultedMembers = [] := rfl
  have htally : tallies (sortedGroup e d) = (tallied e d).enrolled * 2 ^ 18 + (tallied e d).alreadyOn * 2 ^ 6 +
      (tallied e d).startSkipped + (tallied e d).enrolled := by
    rw [tallies_eq, hnone, hsqe, hf]
    generalize tallied e d = u
    simp [Nat.add_assoc]
  rw [examineEnable_ends, if_neg, htally]
  · have hf : (tallied e d).faulted = 0 := rfl
    rw [hsqe, hf]
    exact Nat.lt_irrefl 0
  · rintro ⟨b, hb, hs⟩
    obtain ⟨y, hy, hoff⟩ := sortedMember_off h hb
    rcases hs with ⟨x, hx, hs⟩ | ⟨x, hx, hs⟩
    all_goals
      cases hx.symm.trans hy
      rw [hs] at hoff
      cases hoff

end

section
variable (hl : leakCause d = false) (he : entry d.sqe.steps 0 = some e) (hk : e.kind = .enableGroup)
include hl he hk

theorem startRun_enableWaits (h : ∃ b < 36, ∃ x, d.branch b = some x ∧ x.cfg.group = e.group ∧ x.joins = true) :
    startRun d = sortedGroup e d := by
  rw [startRun_begins hl, begin_enableGroup hl he hk, sortedGroup_eq, sortedGroup_waits h]
  refine runSteps_stop 64 fun hr => ?_
  rw [sortedGroup_sqe] at hr
  cases hr.2

theorem startRun_enableDone (h : ∀ b < 36, ∀ x, d.branch b = some x → x.cfg.group = e.group → x.joins = false)
    {e' : SeqStep} (he' : entry d.sqe.steps 1 = some e') (hk' : e'.kind = .endRun) :
    StepEnds { tallied e d with run := .done, index := 1, timer := .stopped }
      [stepRecord (sortedGroup e d) 0 .stepDone (some ((tallied e d).enrolled * 2 ^ 18 +
        (tallied e d).alreadyOn * 2 ^ 6 + (tallied e d).startSkipped + (tallied e d).enrolled)),
        stepRecord (sortedGroup e d) 1 .runDone none] (sortedGroup e d) (startRun d) := by
  have hsqe := sortedGroup_sqe e d
  have hend := completeStep_next (d := sortedGroup e d) ((tallied e d).enrolled * 2 ^ 18 +
    (tallied e d).alreadyOn * 2 ^ 6 + (tallied e d).startSkipped + (tallied e d).enrolled)
    (by rw [hsqe]; exact (by decide : (0 : Nat) < 63))
  rw [startRun_begins hl, begin_enableGroup hl he hk, sortedGroup_eq, sortedGroup_completes h]
  rw [hsqe] at hend
  exact hend.begins_endRun 63 rfl rfl he' hk'

omit hl in
/-- In an ENABLE_GROUP that waits, an examination and an attempt that the spacing forbids do nothing. -/
theorem sortedGroup_inert (h : ∃ b < 36, ∃ x, d.branch b = some x ∧ x.cfg.group = e.group ∧ x.joins = true)
    (hsp : d.bcu.spacing ≠ .stopped) (ha : d.agenda = []) :
    settleAll (sortedGroup e d) = { sortedGroup e d with agenda := [] } := by
  have hs := enteredSorted e d
  have hnoted : Noted (sortedGroup e d) := by
    exact hs.notes.noted (noted_of_nil (d := entered d) ha)
  refine settle_inert settleFuel (fun s hm l => ?_) (hnoted.length_le.trans (by decide))
  rcases hnoted.2 s hm with rfl | rfl
  · refine attempt_eq_self (.inr (.inr ?_))
    show (sortedGroup e d).bcu.spacing ≠ _
    rw [sortedGroup_bcu, hs.spacing]
    exact hsp
  · have hsqe := sortedGroup_sqe e d
    have hcur : (sortedGroup e d).sqe.current = some e := by
      rw [hsqe]
      exact he
    have hw : examineEnable e { sortedGroup e d with agenda := l } = { sortedGroup e d with agenda := l } := by
      obtain ⟨b, hb, x, hx, hg, hj⟩ := h
      have hen := enrols_of_joins hj
      refine examineEnable_waits (d := { sortedGroup e d with agenda := l })
        ⟨b, mem_sortedMembers.mpr ⟨hb, x, hx, hg, hen⟩, .inl ⟨_, sortedMember_branch hb hx ⟨hg, hen⟩, ?_⟩⟩
      have := enlisted_state (x := x.unenrolled) hen 0
      rw [show x.unenrolled.joins = x.joins from rfl, hj] at this
      exact this
    show examine { sortedGroup e d with agenda := l } = _
    have hphase : (sortedGroup e d).sqe.phase = .active := by
      rw [hsqe]
      rfl
    unfold examine
    rw [show ({ sortedGroup e d with agenda := l } : Part).sqe.current = some e from hcur]
    simp only [hk, hw]
    rw [runSteps_stop stepFuel (fun hr => by
      have := hphase.symm.trans hr.2
      cases this)]
    split <;> rfl

end

end

/-! ## DISABLE_GROUP -/

/-- Outside an ENABLE_GROUP step the BCU leaves the run record. -/
def Unnoted (d d' : Part) : Prop := (∀ e, d.sqe.current = some e → e.kind ≠ .enableGroup) → d'.sqe = d.sqe

theorem unnoted_built : Built Unnoted where
  trans h g hu := by
    have hb := h hu
    exact (g (by rw [hb]; exact hu)).trans hb
  still h _ := h.sqe
  post k s v d _ := (post_uplinked k s v d).sqe
  putBranch _ _ _ _ := rfl
  emptied _ _ _ := rfl
  bcu _ _ _ _ := rfl
  noteFaulted b x d hu := by
    unfold noteFaulted
    split
    · rename_i e he
      rw [if_neg]
      rintro ⟨-, -, hk, -⟩
      exact hu e he hk
    · rfl

theorem disableGroup_grows (g : Nat) (d : Part) : Grows 36 d (disableGroup g d) := by
  rw [disableGroup_eq]
  have hl (l : List Nat) (d : Part) : Grows l.length d (l.foldl (fun d b => changeBranch b (Branch.disabled g) d) d) := by
    induction l generalizing d with
    | nil => exact .of_rlp rfl
    | cons b l ih =>
      have hone : Grows 1 d (changeBranch b (Branch.disabled g) d) := by
        unfold changeBranch
        split
        · exact (Grows.of_rlp rfl : Grows 0 d d).mono (by decide)
        · exact (Grows.applyOutput b _ _ d).mono (by split <;> decide)
      exact (hone.trans (ih _)).mono (by simp; omega)
  exact (hl (List.range 36) d).mono (by simp)

/-- The part with a group disabled in the first step. -/
@[irreducible] def disabledGroup (e : SeqStep) (d : Part) : Part := disableGroup e.group (entered d)

section
variable {e : SeqStep} {d : Part}

theorem disabledGroup_eq : disableGroup e.group (entered d) = disabledGroup e d := by
  unfold disabledGroup
  rfl

theorem disabledGroup_sqe (he : entry d.sqe.steps 0 = some e) (hk : e.kind = .disableGroup) :
    (disabledGroup e d).sqe = d.sqe.entered := by
  unfold disabledGroup
  rw [disableGroup_eq]
  refine unnoted_built.forBranches _ (fun b d => unnoted_built.changeBranch b _ d) (entered d) fun e' he' => ?_
  have : (entered d).sqe.current = some e := he
  cases this.symm.trans he'
  rw [hk]
  exact nofun

theorem disabledGroup_noted (ha : d.agenda = []) : Noted (disabledGroup e d) := by
  unfold disabledGroup
  rw [disableGroup_eq]
  exact forBranches_change_noted (fun _ => Branch.disabled e.group) (noted_of_nil (d := entered d) ha)

theorem disabledGroup_cycle : (disabledGroup e d).slc.cycle = d.slc.cycle := by
  unfold disabledGroup
  rw [disableGroup_eq]
  exact (forBranches_kept (fun b => changeBranch b (Branch.disabled e.group))
    (fun b d => changeBranch_kept b _ (fun x => by unfold Branch.disabled; split <;> rfl) d) (entered d)).cycle

/-- What DISABLE_GROUP leaves of a branch. -/
theorem disabledGroup_branch {n : Nat} (hn : n < 36) : ((disabledGroup e d).branch n).map Branch.lasting =
    (d.branch n).map fun x => (x.unenrolled.disabled e.group).lasting := by
  unfold disabledGroup
  rw [disableGroup_eq, forBranches_lasting (fun _ => Branch.disabled e.group) (entered d) hn, entered_branch d hn,
    Option.map_map]
  rfl

theorem startRun_disables (hl : leakCause d = false) (he : entry d.sqe.steps 0 = some e)
    (hk : e.kind = .disableGroup) {e' : SeqStep} (he' : entry d.sqe.steps 1 = some e') (hk' : e'.kind = .endRun) :
    StepEnds { d.sqe.entered with run := .done, index := 1 }
      [stepRecord (disabledGroup e d) 0 .stepDone (some (seqHolders e.group d).length),
        stepRecord (disabledGroup e d) 1 .runDone none] (disabledGroup e d) (startRun d) := by
  have hsqe := disabledGroup_sqe he hk
  have hend := completeStep_next (d := disabledGroup e d) (seqHolders e.group d).length
    (by rw [hsqe]; exact (by decide : (0 : Nat) < 63))
  rw [startRun_begins hl, begin_disableGroup hl he hk, seqHolders_launched, disabledGroup_eq]
  rw [hsqe] at hend
  exact hend.begins_endRun 63 rfl rfl he' hk'

end

end Sys2Proof.Machine

/-! PROOFS. SEQUENCE START as a whole (R131). -/

namespace Sys2Proof.Machine

-- One proof after another: proofs that are checked side by side take a thread each.
set_option Elab.async false

section
variable (e : SeqStep) (d : Part)

/-- The run record with the members of a group sorted, by the counts of its rows. -/
theorem tallied_eq : tallied e d = { d.sqe.entered with
    enrolled := ((((List.range 36).filterMap d.branch).filter fun x => x.cfg.group == e.group).filter Branch.enrols).length
    alreadyOn := ((((List.range 36).filterMap d.branch).filter fun x => x.cfg.group == e.group).filter Branch.isOn).length
    startSkipped := ((((List.range 36).filterMap d.branch).filter fun x => x.cfg.group == e.group).filter
      fun x => !x.enrols && !x.isOn).length
    timer := startTimer e.timeMs } := by
  unfold tallied Sqe.sortedOf
  rw [countOf_entered d Branch.enrols (fun _ => rfl), countOf_entered d Branch.isOn (fun _ => rfl),
    countOf_entered d (fun x => !x.enrols && !x.isOn) (fun _ => rfl)]
  simp [Sqe.entered, Sqe.fresh]

end

section
variable {e : SeqStep} {d : Part}

/-- The valid branches of a group that hold SEQ. -/
def holdersOf (e : SeqStep) (d : Part) : List Branch :=
  (((List.range 36).filterMap d.branch).filter fun x => x.cfg.group == e.group).filter fun x => x.demands.seq

theorem holders_none_fault (h : ∀ x ∈ holdersOf e d, x.state ≠ .fault) :
    ∀ b ∈ seqHolders e.group d, ¬ inState d b .fault :=
  fun b hb ⟨x, hx, hs⟩ => h x (mem_holders.mpr ⟨b, hb, hx⟩) hs

theorem holders_some_off (h : ∃ x ∈ holdersOf e d, x.state ≠ .on) :
    ∃ b ∈ seqHolders e.group d, ¬ inState d b .on := by
  obtain ⟨x, hm, hs⟩ := h
  obtain ⟨b, hb, hx⟩ := mem_holders.mp hm
  refine ⟨b, hb, fun ⟨y, hy, hon⟩ => hs ?_⟩
  cases hx.symm.trans hy
  exact hon

theorem holders_some_fault (h : ∃ x ∈ holdersOf e d, x.state = .fault) :
    ∃ b ∈ seqHolders e.group d, inState d b .fault := by
  obtain ⟨x, hm, hs⟩ := h
  obtain ⟨b, hb, hx⟩ := mem_holders.mp hm
  exact ⟨b, hb, x, hx, hs⟩

theorem holders_all_on (h : ∀ x ∈ holdersOf e d, x.state = .on) : ∀ b ∈ seqHolders e.group d, inState d b .on := by
  intro b hb
  obtain ⟨-, x, hx⟩ := seqHolder_valid hb
  exact ⟨x, hx, h x (mem_holders.mpr ⟨b, hb, hx⟩)⟩

theorem mem_group {x : Branch} : x ∈ ((List.range 36).filterMap d.branch).filter (fun x => x.cfg.group == e.group) ↔
    ∃ b < 36, d.branch b = some x ∧ x.cfg.group = e.group := by
  rw [List.mem_filter, mem_branches]
  constructor
  · rintro ⟨⟨b, hb, hx⟩, hg⟩
    exact ⟨b, hb, hx, by simpa using hg⟩
  · rintro ⟨b, hb, hx, hg⟩
    exact ⟨⟨b, hb, hx⟩, by simpa using hg⟩

end

/-- A part that was answered while no run was under way in what it left. -/
theorem answered_parked {u : Sqe} {rs : List EventRecord} {d x : Part} (h : StepEnds u rs d x)
    (hu : u.underWay = false) (hn : Noted d) (a : Answer) (q : Queued) :
    (answeredAfter a q x).sqe = u ∧ Restated d (answeredAfter a q x) ∧
      (d.rlp.events.length + rs.length ≤ 64 → rs.Sublist (answeredAfter a q x).posted) := by
  have hux : x.sqe.underWay = false := by rw [h.sqe]; exact hu
  have hnx : Noted x := hn.of_agenda h.uplinked.agenda
  exact ⟨(answeredAfter_parked hux hnx).trans h.sqe,
    (Restated.of_bcu h.uplinked.bcu).trans (answeredAfter_restated hux hnx),
    fun hroom => (h.sublist hroom).trans (answeredAfter_extends a q x).sublist⟩

/-- A branch after a DISABLE_GROUP that begins a run. -/
theorem disabled_fields (g : Nat) (x : Branch) : ((x.unenrolled.disabled g).cfg, (x.unenrolled.disabled g).demands,
    (x.unenrolled.disabled g).holds, (x.unenrolled.disabled g).enrolling) =
      (x.cfg, { x.demands with seq := x.demands.seq && !(x.cfg.group == g) }, x.holds, none) := by
  unfold Branch.disabled
  have hcfg : x.unenrolled.cfg = x.cfg := rfl
  rw [hcfg]
  by_cases hg : x.cfg.group = g
  · rw [if_pos hg]
    simp [Branch.clearSeq, Branch.unenrolled, hg]
  · rw [if_neg hg, show (x.cfg.group == g) = false by simpa using hg]
    simp [Branch.unenrolled]

/-- Settles O31: the refusal, the launch, and the first step by its kind. -/
theorem sequenceStartActs : Obligations.SequenceStartActs := by
  intro s tag hs
  refine ⟨fun h => ?_, fun hr hsus hon => ?_⟩
  · refine exec_answers_same rfl hs ?_
    have hdo : doStart (s.part.opened ⟨tag, .sequenceStart⟩) = _ := ifAllowed_false startRun _ (by
      show (!s.part.sqe.underWay && s.part.sru.source == .onAc) = false
      rcases h with h | h | h
      · rw [underWay_running h]
        rfl
      · rw [underWay_suspended h]
        rfl
      · rw [Bool.and_eq_false_iff]
        right
        simpa using h)
    show ((doStart _).1, Reply.answer (doStart _).2) = _
    rw [hdo]
  dsimp only
  have hset := startRun_settled (s.part.opened ⟨tag, .sequenceStart⟩)
  have hdel := answeredAfter_delivered (Answer.done []) ⟨tag, .sequenceStart⟩
    (startRun (s.part.opened ⟨tag, .sequenceStart⟩))
  have hans := answeredAfter_answered (Answer.done []) ⟨tag, .sequenceStart⟩
    (startRun (s.part.opened ⟨tag, .sequenceStart⟩))
  have hnil : (s.part.opened ⟨tag, .sequenceStart⟩).agenda = [] := hs.1.2.1
  have hfree : ¬ (∃ z ∈ s.part.lkm.zones, ∃ c, z.cfg = some c ∧ c.suspend = true ∧ z.state.latched = true ∧
      z.acked = false) → leakCause (s.part.opened ⟨tag, .sequenceStart⟩) = false := fun h =>
    Bool.eq_false_iff.mpr fun hl => h ((leakCause_iff _).mp hl)
  have hsuspends (h : ∃ z ∈ s.part.lkm.zones, ∃ c, z.cfg = some c ∧ c.suspend = true ∧ z.state.latched = true ∧
      z.acked = false) : StepEnds ((s.part.opened ⟨tag, .sequenceStart⟩).sqe.fresh true .suspended)
      [stepRecord (s.part.opened ⟨tag, .sequenceStart⟩) 0 .runSuspended (some 4)]
      (launched .suspended (s.part.opened ⟨tag, .sequenceStart⟩))
      (startRun (s.part.opened ⟨tag, .sequenceStart⟩)) := by
    have hl : leakCause (s.part.opened ⟨tag, .sequenceStart⟩) = true := (leakCause_iff _).mpr h
    have hend := StepEnds.postStep .runSuspended (some 4) (launched .suspended (s.part.opened ⟨tag, .sequenceStart⟩))
    rw [← startRun_suspends hl] at hend
    have hsqe : (launched .suspended (s.part.opened ⟨tag, .sequenceStart⟩)).sqe =
        (s.part.opened ⟨tag, .sequenceStart⟩).sqe.fresh true .suspended := by
      unfold launched
      rw [hl]
    rw [hsqe] at hend
    exact hend
  have hrun := exec_start (tag := tag) hs hr hsus hon
  have htab := TablesStand.trans (b := s.part.opened ⟨tag, .sequenceStart⟩) (a := s.part) {}
    (hset.toTablesStand.trans hdel.toTablesStand)
  have hlink := LinkStands.trans (b := s.part.opened ⟨tag, .sequenceStart⟩) (a := s.part) {}
    (hset.toLinkStands.trans hdel.toLinkStands)
  have hsru := hdel.sru.trans hset.sru
  have hlkm := hdel.lkm.trans hset.lkm
  refine ⟨_, hrun, rfl, htab, hlink, hsru, hlkm, hans, fun hc => ?_, fun hc he => ?_, fun hc e he => ?_, fun hcase b hb => ?_⟩
  · obtain ⟨hsqe, -, hsub⟩ := (hsuspends hc).answered hnil (Answer.done []) ⟨tag, .sequenceStart⟩
    exact ⟨hsqe, fun hroom => mem_posted.mp ((hsub hroom).subset List.mem_cons_self)⟩
  · obtain ⟨hsqe, -, hsub⟩ := (startRun_none (hfree hc) he).answered hnil (Answer.done []) ⟨tag, .sequenceStart⟩
    exact ⟨hsqe, fun hroom => ⟨mem_posted.mp ((hsub hroom).subset List.mem_cons_self),
      mem_posted.mp ((hsub hroom).subset (List.mem_cons_of_mem _ List.mem_cons_self))⟩⟩
  · have hl := hfree hc
    generalize hq : (⟨tag, .sequenceStart⟩ : Queued) = q at *
    have hent (n : Nat) : entry (s.part.opened q).sqe.steps n = entry s.part.sqe.steps n := rfl
    have hbr (n : Nat) : (s.part.opened q).branch n = s.part.branch n := rfl
    have hsub {l m : List EventRecord} {n k : Nat} (h : n + k ≤ 64 → l.Sublist m) (hn : n ≤ s.part.rlp.events.length + 36)
        (hk : k ≤ 2) : s.part.rlp.events.length + 38 ≤ 64 → l.Sublist m := fun hroom => h (by omega)
    refine ⟨fun hk => ?_, fun hk ht => ?_, fun hk hf hn => ?_, fun hk hp hf => ?_, fun hk hsp hj => ?_,
      fun e' he' hk' => ⟨fun hk => ?_, fun hk hf => ?_, fun hk hp hf => ?_, fun hk hj => ?_, fun hk => ?_⟩⟩
    · obtain ⟨hsqe, -, hsub⟩ := (startRun_endRun hl he hk).answered hnil (Answer.done []) q
      exact ⟨hsqe, fun hroom => mem_posted.mp ((hsub hroom).subset List.mem_cons_self)⟩
    · have hend : StepEnds { (s.part.opened q).sqe.entered with timer := .running e.timeMs } []
          (launched .running (s.part.opened q)) (startRun (s.part.opened q)) := by
        rw [startRun_delay hl he hk ht]
        exact .set _ _
      exact (hend.answered hnil (Answer.done []) q).1
    · have hend : StepEnds { (s.part.opened q).sqe.entered with timer := startTimer e.timeMs } []
          (launched .running (s.part.opened q)) (startRun (s.part.opened q)) := by
        rw [startRun_waits hl he hk (holders_none_fault hf) (holders_some_off hn)]
        exact waiting_ends
      obtain ⟨hsqe, hbcu, -⟩ := hend.answered hnil (Answer.done []) q
      exact ⟨hsqe, Eq.trans (congrArg Bcu.queue hbcu) rfl⟩
    · obtain ⟨hsqe, -, hsub⟩ := (startRun_waitHalts hl he hk hp (holders_some_fault hf)).answered hnil
        (Answer.done []) q
      exact ⟨hsqe, hsub⟩
    · obtain ⟨x, hx, hjoin⟩ := hj
      obtain ⟨b, hb, hx, hg⟩ := mem_group.mp hx
      have hwait : ∃ b < 36, ∃ x, (s.part.opened q).branch b = some x ∧ x.cfg.group = e.group ∧ x.joins = true :=
        ⟨b, hb, x, hx, hg, hjoin⟩
      have hstart := startRun_enableWaits hl he hk hwait
      have hinert := sortedGroup_inert (d := s.part.opened q) he hk hwait hsp hnil
      have hu := answeredAfter_settled (Answer.done []) q hinert
      rw [hstart]
      have hbcu : (answeredAfter (Answer.done []) q (sortedGroup e (s.part.opened q))).bcu =
          (sortedGroup e (s.part.opened q)).bcu := hu.bcu
      have hsqe : (answeredAfter (Answer.done []) q (sortedGroup e (s.part.opened q))).sqe =
          (sortedGroup e (s.part.opened q)).sqe := hu.sqe
      rw [sortedGroup_sqe, tallied_eq] at hsqe
      refine ⟨hsqe, ?_, fun n y hn hy => ?_⟩
      · refine (congrArg Bcu.queue hbcu).trans ((sortedGroup_queue e _).trans ?_)
        refine congrArg (s.part.bcu.queue ++ ·) (List.filter_congr fun n _ => ?_)
        rw [hbr]
        rcases s.part.branch n with _ | y <;> rfl
      · rw [branch_of_bcu (congrArg Bcu.branches hbcu), sortedGroup_branch _ _ hn, hbr, hy]
        unfold Branch.sorted
        rw [Option.map_some]
        congr 1
    · obtain ⟨hsqe, -, hs⟩ := (startRun_checkpoint hl he hk he' hk').answered hnil (Answer.done []) q
      exact ⟨hsqe, hsub hs (Nat.le_add_right _ _) (le_refl _)⟩
    · obtain ⟨hsqe, -, hs⟩ := (startRun_waitDone hl he hk (holders_all_on hf) he' hk').answered hnil
        (Answer.done []) q
      rw [seqHolders_length] at hs
      exact ⟨hsqe, hsub hs (Nat.le_add_right _ _) (le_refl _)⟩
    · obtain ⟨hsqe, -, hs⟩ := (startRun_waitSkips hl he hk hp (holders_some_fault hf) he' hk').answered hnil
        (Answer.done []) q
      exact ⟨hsqe, hsub hs (Nat.le_add_right _ _) (le_refl _)⟩
    · have hnone : ∀ b < 36, ∀ x, (s.part.opened q).branch b = some x → x.cfg.group = e.group → x.joins = false :=
        fun b hb x hx hg => hj x (mem_group.mpr ⟨b, hb, hx, hg⟩)
      have hend := startRun_enableDone hl he hk hnone he' hk'
      have hnoted : Noted (sortedGroup e (s.part.opened q)) :=
        (enteredSorted e (s.part.opened q)).notes.noted (noted_of_nil (d := entered (s.part.opened q)) hnil)
      obtain ⟨hsqe, -, hs⟩ := answered_parked hend rfl hnoted (Answer.done []) q
      have hrlp : (sortedGroup e (s.part.opened q)).rlp = (s.part.opened q).rlp :=
        (enteredSorted e (s.part.opened q)).rlp
      have hslc : (sortedGroup e (s.part.opened q)).slc = (s.part.opened q).slc :=
        (enteredSorted e (s.part.opened q)).slc
      unfold stepRecord at hs
      rw [hrlp, hslc, tallied_eq] at hs
      rw [tallied_eq] at hsqe
      exact ⟨hsqe, hsub hs (Nat.le_add_right _ _) (le_refl _)⟩
    · have hend := startRun_disables hl he hk he' hk'
      obtain ⟨hsqe, hrest, hs⟩ := answered_parked hend rfl (disabledGroup_noted hnil) (Answer.done []) q
      have hgrows : Grows 36 (entered (s.part.opened q)) (disabledGroup e (s.part.opened q)) := by
        rw [← disabledGroup_eq]
        exact disableGroup_grows _ _
      unfold stepRecord at hs
      rw [disabledGroup_cycle, seqHolders_length] at hs
      refine ⟨⟨hsqe, hsub hs hgrows (le_refl _)⟩, fun b hb => ?_⟩
      have hview := (hrest.branch b).trans (disabledGroup_branch hb)
      have hv := congrArg (Option.map fun v => (v.1, v.2.1, v.2.2.1, v.2.2.2.2.2.1)) hview
      rw [Option.map_map, Option.map_map] at hv
      exact hv.trans (congrArg (Option.map · (s.part.branch b)) (funext fun x => disabled_fields e.group x))
  · have hbcu : (answeredAfter (Answer.done []) ⟨tag, .sequenceStart⟩
        (startRun (s.part.opened ⟨tag, .sequenceStart⟩))).bcu.branches =
        (unenrolled (s.part.opened ⟨tag, .sequenceStart⟩)).bcu.branches := by
      by_cases hc : ∃ z ∈ s.part.lkm.zones, ∃ c, z.cfg = some c ∧ c.suspend = true ∧ z.state.latched = true ∧
          z.acked = false
      · obtain ⟨-, hb, -⟩ := (hsuspends hc).answered hnil (Answer.done []) ⟨tag, .sequenceStart⟩
        rw [hb]
        rfl
      · obtain ⟨-, hb, -⟩ := (startRun_none (hfree hc) (hcase.resolve_left hc)).answered hnil (Answer.done [])
          ⟨tag, .sequenceStart⟩
        rw [hb]
        rfl
    rw [branch_of_bcu hbcu, unenrolled_branch _ hb]
    rfl

end Sys2Proof.Machine

/-! PROOFS. The treatment of the Outbound Slot records at a cycle start (R17, R18, R21), slot by slot and in all. -/

namespace Sys2Proof.Machine

-- One proof after another: proofs that are checked side by side take a thread each.
set_option Elab.async false

/-! ## One record -/

/-- How a cycle start in `d` treats a record. -/
def OutRecord.treated (d : Part) (r : OutRecord) : Treatment :=
  r.treatment d.sru.profile.ackWindow d.sru.profile.retryLimit

/-- The hand-offs that a treatment tells. -/
def OutRecord.tells (r : OutRecord) (node : Nat) : Treatment → List Signal
  | .merged => r.told node .ack
  | .givenUp => r.told node .noAck
  | _ => []

/-- An Outbound Slot record of an active OUT entry, with its slot and its node. -/
structure Outbound where
  slot : Nat
  node : Nat
  record : OutRecord

/-- The record of slot `k`, where its active entry is an OUT entry. -/
def outbound (d : Part) (k : Nat) : Option Outbound :=
  match entry d.slc.active k, entry d.slc.out k with
  | some (.output node), some r => some ⟨k, node, r⟩
  | _, _ => none

theorem outbound_eq_some {d : Part} {k : Nat} {x : Outbound} : outbound d k = some x ↔
    x.slot = k ∧ entry d.slc.active k = some (.output x.node) ∧ entry d.slc.out k = some x.record := by
  obtain ⟨slot, node, record⟩ := x
  unfold outbound
  rcases entry d.slc.active k with _ | _ | _ <;> rcases entry d.slc.out k with _ | _ <;> simp
  rename_i n r
  rintro rfl rfl
  exact eq_comm

theorem treatOut_none {d : Part} {k : Nat} (h : outbound d k = none) : treatOut k d = d := by
  unfold treatOut
  unfold outbound at h
  split
  · rename_i ha hr
    rw [ha, hr] at h
    cases h
  · rfl

/-- What the treatment of one record does. -/
theorem treatOut_some {d : Part} {k : Nat} {x : Outbound} (h : outbound d k = some x) : treatOut k d = { d with
    slc := { d.slc with
      out := d.slc.out.set k (some (x.record.after (x.record.treated d)))
      sending := d.slc.sending ++ x.record.cell k x.node (x.record.treated d)
      retries := if x.record.treated d = .again then satInc d.slc.retries else d.slc.retries
      noAcks := if x.record.treated d = .givenUp then satInc d.slc.noAcks else d.slc.noAcks }
    agenda := d.agenda ++ x.record.tells x.node (x.record.treated d) } := by
  obtain ⟨-, ha, hr⟩ := outbound_eq_some.mp h
  unfold treatOut
  rw [ha, hr]
  unfold OutRecord.treated
  simp only
  generalize x.record.treatment _ _ = t
  cases t <;> simp [concludeOut, putOut, tellWriter_told, OutRecord.tells]

/-! ## All records -/

/-- The records of the first `m` slots. -/
def outbounds (d : Part) (m : Nat) : List Outbound := (List.range m).filterMap (outbound d)

theorem outbounds_succ (d : Part) (m : Nat) : outbounds d (m + 1) = outbounds d m ++ (outbound d m).toList := by
  unfold outbounds
  rw [List.range_succ, List.filterMap_append]
  congr 1

theorem mem_outbounds {d : Part} {m : Nat} {x : Outbound} : x ∈ outbounds d m ↔ x.slot < m ∧
    entry d.slc.active x.slot = some (.output x.node) ∧ entry d.slc.out x.slot = some x.record := by
  unfold outbounds
  rw [List.mem_filterMap]
  constructor
  · rintro ⟨k, hk, hx⟩
    obtain ⟨rfl, ha, hr⟩ := outbound_eq_some.mp hx
    exact ⟨List.mem_range.mp hk, ha, hr⟩
  · rintro ⟨hk, ha, hr⟩
    exact ⟨x.slot, List.mem_range.mpr hk, outbound_eq_some.mpr ⟨rfl, ha, hr⟩⟩

/-- How many of the records of the first `m` slots have the treatment `t`. -/
def treatedCount (d : Part) (t : Treatment) (m : Nat) : Nat :=
  (outbounds d m).countP fun x => x.record.treated d == t

/-- The part after the treatment of the first `m` slots. -/
def treatedPart (d : Part) (m : Nat) (out : List (Option OutRecord)) : Part := { d with
  slc := { d.slc with
    out := out
    sending := d.slc.sending ++ (outbounds d m).flatMap fun x => x.record.cell x.slot x.node (x.record.treated d)
    retries := satInc^[treatedCount d .again m] d.slc.retries
    noAcks := satInc^[treatedCount d .givenUp m] d.slc.noAcks }
  agenda := d.agenda ++ (outbounds d m).flatMap fun x => x.record.tells x.node (x.record.treated d) }

/-- The record of slot `k` after its treatment. -/
def treatedEntry (d : Part) (k : Nat) : Option OutRecord :=
  match outbound d k with
  | some x => some (x.record.after (x.record.treated d))
  | none => entry d.slc.out k

theorem iterate_ite (p : Prop) [Decidable p] (f : Nat → Nat) (n a : Nat) :
    (if p then f (f^[n] a) else f^[n] a) = f^[n + if p then 1 else 0] a := by
  split
  · rw [Function.iterate_succ_apply']
  · rfl

theorem treatOut_foldl (d : Part) (m : Nat) :
    ∃ out, (List.range m).foldl (fun e k => treatOut k e) d = treatedPart d m out ∧
      ∀ n, entry out n = if n < m then treatedEntry d n else entry d.slc.out n := by
  induction m with
  | zero => exact ⟨d.slc.out, by simp [treatedPart, outbounds, treatedCount], fun n => rfl⟩
  | succ m ih =>
    obtain ⟨out, heq, hout⟩ := ih
    rw [List.range_succ, List.foldl_append, List.foldl_cons, List.foldl_nil, heq]
    have hm : entry out m = entry d.slc.out m := by rw [hout, if_neg (lt_irrefl m)]
    have hb : outbound (treatedPart d m out) m = outbound d m := by
      unfold outbound treatedPart
      rw [← hm]
    have hsucc := outbounds_succ d m
    rcases ho : outbound d m with _ | x
    · rw [ho] at hsucc
      refine ⟨out, ?_, fun n => ?_⟩
      · rw [treatOut_none (hb.trans ho)]
        simp only [treatedPart, treatedCount, hsucc, Option.toList_none, List.append_nil]
      · rw [hout]
        by_cases hn : n = m
        · rw [hn, if_neg (lt_irrefl m), if_pos (Nat.lt_succ_self m), treatedEntry, ho]
        · simp only [show n < m ↔ n < m + 1 by omega]
    · obtain ⟨hslot, ha, hr⟩ := outbound_eq_some.mp ho
      rw [ho] at hsucc
      have ht : x.record.treated (treatedPart d m out) = x.record.treated d := rfl
      refine ⟨out.set m (some (x.record.after (x.record.treated d))), ?_, fun n => ?_⟩
      · rw [treatOut_some (hb.trans ho), ht]
        simp only [treatedPart, treatedCount, hsucc, Option.toList_some, List.flatMap_append, List.countP_append,
          List.append_assoc, List.flatMap_cons, List.flatMap_nil, List.append_nil, List.countP_singleton,
          beq_iff_eq, ← iterate_ite, hslot]
      · by_cases hn : n = m
        · rw [hn, entry_set_same (hm.trans hr), if_pos (Nat.lt_succ_self m), treatedEntry, ho]
        · rw [entry_set_ne _ _ hn, hout]
          simp only [show n < m ↔ n < m + 1 by omega]

/-- The treatment of all slots. -/
theorem treatments (d : Part) : ∃ out, forSlots treatOut d = treatedPart d 96 out ∧
    ∀ n, entry out n = if n < 96 then treatedEntry d n else entry d.slc.out n := by
  rw [forSlots_eq]
  exact treatOut_foldl d 96

end Sys2Proof.Machine

/-! PROOFS. A cycle start makes the written map active (R5, R6, R15, R17). -/

namespace Sys2Proof.Machine

-- One proof after another: proofs that are checked side by side take a thread each.
set_option Elab.async false

/-! ## The slots that change -/

/-- The channel of slot `k`, and what staging does not touch of its Outbound Slot record. -/
def slotItem (d : Part) (k : Nat) : Option ChannelState × Option (Option Word × BitVec 2 × Bool × Nat × Nat × Bool) :=
  (entry d.tlf.channels k, (entry d.slc.out k).map OutRecord.core)

/-- The channel and the record that the new entry of a slot begins. -/
def begunItem (new : Option SlotEntry) :
    Option ChannelState × Option (Option Word × BitVec 2 × Bool × Nat × Nat × Bool) :=
  (channelBegin new, (outBegin new).map OutRecord.core)

theorem slotItem_of_link {d d' : Part} (h : LinkStands d d') (k : Nat) : slotItem d' k = slotItem d k := by
  unfold slotItem
  rw [h.channels, entry_map_map h.out]

theorem entry_set_lt {α : Type} {l : List (Option α)} {k : Nat} (y : Option α) (h : k < l.length) :
    entry (l.set k y) k = y := by
  simp [entry, h]

/-- Both lists of the slots hold 96 entries. -/
def slotsFull (d : Part) : Prop := d.tlf.channels.length = 96 ∧ d.slc.out.length = 96

theorem slotsFull_of_link {d d' : Part} (h : LinkStands d d') (hd : slotsFull d) : slotsFull d' := by
  obtain ⟨hc, ho⟩ := hd
  have hlen := congrArg List.length h.out
  rw [List.length_map, List.length_map] at hlen
  exact ⟨by rw [h.channels, hc], hlen.trans ho⟩

theorem changeSlot_item {k : Nat} {old new : Option SlotEntry} {d : Part} (hd : slotsFull d) :
    slotsFull (changeSlot k old new d) ∧ (changeSlot k old new d).slc.active = d.slc.active ∧
      ∀ n, slotItem (changeSlot k old new d) n =
        if n = k then (if k < 96 ∧ old ≠ new then begunItem new else slotItem d k) else slotItem d n := by
  obtain ⟨hc, ho⟩ := hd
  unfold changeSlot
  split
  · rename_i h
    refine ⟨⟨hc, ho⟩, rfl, fun n => ?_⟩
    split
    · rw [if_neg fun hne => hne.2 h, ‹n = k›]
    · rfl
  · rename_i hne
    have hf := (endChannel_frame k old { d with
      tlf.channels := d.tlf.channels.set k (channelBegin new)
      slc.out := d.slc.out.set k (outBegin new) }).toLinkStands
    refine ⟨slotsFull_of_link hf ⟨by simpa using hc, by simpa using ho⟩, hf.active, fun n => ?_⟩
    rw [slotItem_of_link hf]
    unfold slotItem begunItem
    by_cases hn : n = k
    · subst hn
      rw [if_pos rfl]
      by_cases hlt : n < 96
      · rw [if_pos ⟨hlt, hne⟩, entry_set_lt _ (by omega), entry_set_lt _ (by omega)]
      · rw [if_neg fun h => hlt h.1, List.set_eq_of_length_le (by omega), List.set_eq_of_length_le (by omega)]
    · rw [if_neg hn]
      exact congrArg₂ _ (entry_set_ne _ _ hn) (congrArg _ (entry_set_ne _ _ hn))

/-- The written map is active: the slots whose entry differs begin anew, and the others stand. -/
theorem activate_items {d : Part} (hd : slotsFull d) : (activate d).slc.active = d.slc.written ∧
    ∀ k, k < 96 → slotItem (activate d) k =
      if entry d.slc.written k = entry d.slc.active k then slotItem d k else begunItem (entry d.slc.written k) := by
  unfold activate
  simp only
  split
  · rename_i h
    exact ⟨h, fun k _ => by rw [h, if_pos rfl]⟩
  · obtain ⟨⟨hfull, hactive⟩, hitem⟩ := foldl_items (get := slotItem)
      (f := fun e k => changeSlot k (entry d.slc.active k) (entry d.slc.written k) e)
      (P := fun e => slotsFull e ∧ e.slc.active = d.slc.written)
      (φ := fun k x => if k < 96 ∧ entry d.slc.active k ≠ entry d.slc.written k then
        begunItem (entry d.slc.written k) else x)
      (fun i e ⟨hfull, hactive⟩ => by
        obtain ⟨hfull', hactive', hitem⟩ := changeSlot_item (k := i) (old := entry d.slc.active i)
          (new := entry d.slc.written i) hfull
        exact ⟨⟨hfull', hactive'.trans hactive⟩, hitem⟩)
      (d := { d with slc := { d.slc with active := d.slc.written } }) ⟨hd, rfl⟩ 96
    rw [← forSlots_eq (fun k => changeSlot k (entry d.slc.active k) (entry d.slc.written k))] at hactive hitem
    generalize forSlots _ _ = e at hactive hitem
    have hlink := (deriveModules_sourced e).toLinkStands
    refine ⟨hlink.active.trans hactive, fun k hk => ?_⟩
    rw [slotItem_of_link hlink, hitem k, if_pos hk]
    by_cases h : entry d.slc.written k = entry d.slc.active k
    · rw [if_pos h, if_neg fun hne => hne.2 h.symm]
      rfl
    · rw [if_neg h, if_pos ⟨hk, fun he => h he.symm⟩]

/-! ## The records that begin -/

theorem treated_begun {d : Part} {r : OutRecord} (h : r.core = OutRecord.begin.core) :
    (r.after (r.treated d)).core = (none, 0, false, 0, 0, false) ∨
      ∃ v, (r.after (r.treated d)).core = (some v, 1, true, 0, 0, true) := by
  obtain ⟨staged, live, seq, awaiting, cycles, retries, writer, owed, branch, first⟩ := r
  simp only [OutRecord.core, OutRecord.begin, Prod.mk.injEq] at h
  obtain ⟨rfl, rfl, rfl, rfl, rfl, rfl⟩ := h
  rcases staged with _ | v
  · exact .inl rfl
  · exact .inr ⟨v, rfl⟩

theorem treatedEntry_none {d : Part} {k : Nat} (h : entry d.slc.out k = none) : treatedEntry d k = none := by
  unfold treatedEntry
  have ho : outbound d k = none := by
    unfold outbound
    rw [h]
    split
    · contradiction
    · rfl
  rw [ho]
  exact h

theorem treatedEntry_output {d : Part} {k node : Nat} {r : OutRecord} (ha : entry d.slc.active k = some (.output node))
    (hr : entry d.slc.out k = some r) : treatedEntry d k = some (r.after (r.treated d)) := by
  unfold treatedEntry
  have ho : outbound d k = some ⟨k, node, r⟩ := outbound_eq_some.mpr ⟨rfl, ha, hr⟩
  rw [ho]

theorem core_of_map {o : Option OutRecord} {c : Option Word × BitVec 2 × Bool × Nat × Nat × Bool}
    (h : o.map OutRecord.core = some c) : ∃ r, o = some r ∧ r.core = c := by
  simpa using h

/-! ## The cycle start -/

/-- The part in which a cycle start makes the map active. -/
def cycleBegun (d : Part) : Part :=
  { tick d with slc := { d.slc with cycle := d.slc.cycle + 1, satisfied := [], sending := [] } }

theorem startCycle_eq (d : Part) : startCycle d = forSlots treatOut (activate (cycleBegun d)) := rfl

/-- Settles O7: the slots that change begin anew, what is staged for them meanwhile is sent as the first control of
a begun record, and what is delivered afterwards leaves channels and records. -/
theorem cycleStartActivatesMap : Obligations.CycleStartActivatesMap := by
  unfold Obligations.CycleStartActivatesMap
  intro s hcalm hchannels hout
  have houter := startCycle_outer s.part
  have hexec : exec .cycleStart s = .next { s with part := complete (startCycle s.part) } :=
    act_running startCycle s hcalm.1.1
  obtain ⟨hactive, hitems⟩ := activate_items (d := cycleBegun s.part) ⟨hchannels, hout⟩
  obtain ⟨out, htreated, hrecords⟩ := treatments (activate (cycleBegun s.part))
  rw [← startCycle_eq] at htreated
  generalize activate (cycleBegun s.part) = a at hactive hitems htreated hrecords
  have hchan (k : Nat) : entry (startCycle s.part).tlf.channels k = entry a.tlf.channels k := by rw [htreated]; rfl
  have hrec (k : Nat) (hk : k < 96) : entry (startCycle s.part).slc.out k = treatedEntry a k := by
    rw [htreated]
    exact (hrecords k).trans (if_pos hk)
  have hact : (startCycle s.part).slc.active = s.part.slc.written := by rw [htreated]; exact hactive
  generalize startCycle s.part = e at houter hexec hchan hrec hact
  have hphase : ∀ n, e.rlp.phase ≠ .passing n := by
    rw [houter.phase]
    exact hcalm.2
  have hd := complete_delivered hphase
  have hc (k : Nat) : entry (complete e).tlf.channels k = (slotItem a k).1 := by rw [hd.channels]; exact hchan k
  have ho (k : Nat) (hk : k < 96) :
      (entry (complete e).slc.out k).map OutRecord.core = (treatedEntry a k).map OutRecord.core := by
    rw [entry_map_map hd.out, hrec k hk]
  refine ⟨_, hexec, hd.active.trans hact, houter.toTablesStand.trans hd.toTablesStand,
    houter.toRequestsStand.trans (complete_requestsStand hphase), fun k hk => ?_⟩
  have hitem := hitems k hk
  rw [show (cycleBegun s.part).slc.written = s.part.slc.written from rfl,
    show (cycleBegun s.part).slc.active = s.part.slc.active from rfl] at hitem
  have hentry : entry a.slc.active k = entry s.part.slc.written k := by rw [hactive]; rfl
  split
  · rename_i hsame
    rw [if_pos hsame] at hitem
    rw [hc k, hitem]
    rfl
  · rename_i hne
    rw [if_neg hne] at hitem
    have hempty (h : outBegin (entry s.part.slc.written k) = none) : entry (complete e).slc.out k = none := by
      have hnone : entry a.slc.out k = none := by
        have h2 := congrArg Prod.snd hitem
        simpa [slotItem, begunItem, h] using h2
      have := ho k hk
      rw [treatedEntry_none hnone] at this
      simpa using this
    have hchannel : entry (complete e).tlf.channels k = channelBegin (entry s.part.slc.written k) := by
      rw [hc k, hitem]
      rfl
    split
    · rename_i he
      rw [he] at hchannel hempty
      exact ⟨hchannel, hempty rfl⟩
    · rename_i node he
      rw [he] at hchannel hitem hentry
      obtain ⟨r, hr, hcore⟩ := core_of_map (congrArg Prod.snd hitem)
      obtain ⟨r', hr', hcore'⟩ := core_of_map ((ho k hk).trans (by rw [treatedEntry_output hentry hr]; rfl))
      refine ⟨hchannel, r', hr', ?_⟩
      rw [hcore']
      exact treated_begun hcore
    · rename_i he
      rw [he] at hchannel hempty
      exact ⟨hchannel, hempty rfl⟩

end Sys2Proof.Machine

/-! PROOFS. What the delivery of hand-offs stages (`Restaged`), the conditions under which R17, R18 and R21 send, repeat
and give up, and the cells and counters of a cycle start. -/

namespace Sys2Proof.Machine

-- One proof after another: proofs that are checked side by side take a thread each.
set_option Elab.async false

/-! ## What hand-offs stage -/

/-- What staging touches of a record, the branch aside. -/
def OutRecord.writing (r : OutRecord) : Option Word × Option Writer × Bool := (r.staged, r.lastWriter, r.owed)

/-- The BCU has staged OFF or ON, and its outcome is owed. -/
def OutRecord.ofBcu (r : OutRecord) : Prop :=
  (r.staged = some 0 ∨ r.staged = some 1) ∧ r.lastWriter = some .bcu ∧ r.owed = true

theorem ofBcu_of_writing {r r' : OutRecord} (h : r'.writing = r.writing) (hr : r.ofBcu) : r'.ofBcu := by
  simp only [OutRecord.writing, Prod.mk.injEq] at h
  obtain ⟨hs, hw, ho⟩ := h
  unfold OutRecord.ofBcu
  rw [hs, hw, ho]
  exact hr

/-- Nothing was staged since but by the BCU. -/
def Restaged (d d' : Part) : Prop := ∀ k r', entry d'.slc.out k = some r' →
  ∃ r, entry d.slc.out k = some r ∧ (r'.writing = r.writing ∨ r'.ofBcu)

namespace Restaged

theorem of_out {d d' : Part} (h : d'.slc.out = d.slc.out) : Restaged d d' :=
  fun _ r' hr => ⟨r', by rw [← h]; exact hr, .inl rfl⟩

theorem trans {a b c : Part} (h : Restaged a b) (g : Restaged b c) : Restaged a c := by
  intro k r'' hr''
  obtain ⟨r', hr', hg⟩ := g k r'' hr''
  obtain ⟨r, hr, hh⟩ := h k r' hr'
  refine ⟨r, hr, ?_⟩
  rcases hg with hg | hg
  · rcases hh with hh | hh
    · exact .inl (hg.trans hh)
    · exact .inr (ofBcu_of_writing hg hh)
  · exact .inr hg

end Restaged

theorem stage_restaged (b : Option Nat) (n : Nat) {v : Word} (hv : v = ctlOff ∨ v = ctlOn) (d : Part) :
    Restaged d (stage .bcu b n v d).1 := by
  unfold stage
  split
  · exact .of_out rfl
  · rename_i k _
    split
    · exact .of_out rfl
    · rename_i r hr
      have hout : (tellSuperseded .bcu n r d).slc.out = d.slc.out := by
        rcases tellSuperseded_eq .bcu n r d with h | ⟨-, h⟩ <;> rw [h]
      intro m r' hr'
      simp only [hout] at hr'
      by_cases hm : m = k
      · rw [hm, entry_set_same hr] at hr'
        refine ⟨r, by rw [hm]; exact hr, .inr ?_⟩
        rw [← Option.some.inj hr']
        exact ⟨hv.imp (congrArg some) (congrArg some), rfl, rfl⟩
      · rw [entry_set_ne _ _ hm] at hr'
        exact ⟨r', hr', .inl rfl⟩

theorem restaged_operated : Operated Restaged where
  trans := .trans
  fixed h := .of_out h.out
  stage b n _ d hv := stage_restaged b n hv d
  posted k s v d _ := .of_out (by rw [(post_uplinked k s v d).slc])
  putBranch _ _ _ := .of_out rfl
  bcu _ _ _ := .of_out rfl
  noteFaulted b x d := by
    unfold noteFaulted
    repeat' split
    all_goals exact .of_out rfl

theorem complete_restaged {d : Part} (h : ∀ node, d.rlp.phase ≠ .passing node) : Restaged d (complete d) := by
  rw [complete_calm d h]
  exact (restaged_operated.settleAll (fun _ _ _ => .of_out rfl) d).trans (.of_out rfl)

/-! ## Outcomes that nobody acts on -/

/-- ACK and SUPERSEDED do nothing to the BCU and the TLF (R38, R59). -/
theorem deliver_idle {w : Writer} {o : Delivery} (hw : w ≠ .rlp) (ho : o ≠ .noAck) (b : Option Nat) (node : Nat)
    (d : Part) : deliver w b node o d = d := by
  cases w with
  | bcu =>
    show outcomeToBcu b node o d = d
    unfold outcomeToBcu
    split
    · exact absurd rfl ho
    · rfl
  | tlf => exact if_neg ho
  | rlp => exact absurd rfl hw

theorem deliver_ack {d : Part} (h : ∀ node, d.rlp.phase ≠ .passing node) (w : Writer) (b : Option Nat) (node : Nat) :
    deliver w b node .ack d = d := by
  by_cases hw : w = .rlp
  · rw [hw]
    exact if_neg (h node)
  · exact deliver_idle hw (by decide) b node d

/-! ## What decides a treatment -/

section
variable (window limit : Nat) (r : OutRecord)

/-- The staged value is the live one. -/
def OutRecord.held : Bool := r.staged.isSome && r.staged == r.live

theorem held_eq_true : r.held = true ↔ ∃ v, r.staged = some v ∧ r.live = some v := by
  unfold OutRecord.held
  rcases r.staged with _ | v
  · simp
  · rw [Option.isSome_some, Bool.true_and, beq_iff_eq]
    exact ⟨fun h => ⟨v, rfl, h.symm⟩, fun ⟨_, hv, hl⟩ => hv.trans hl.symm⟩

theorem treatment_sent {v : Word} (hs : r.staged = some v) (hl : r.live ≠ some v) :
    r.treatment window limit = .sent := by
  unfold OutRecord.treatment
  rw [hs]
  exact if_pos hl

theorem treatment_left (hs : r.staged = none) : r.treatment window limit = .left := by
  unfold OutRecord.treatment
  rw [hs]

theorem treatment_held {v : Word} (hs : r.staged = some v) (hl : r.live = some v) : r.treatment window limit =
    if r.awaiting = false then (if r.owed then .merged else .left)
    else if r.cyclesSince + 1 < window then .waiting
    else if r.retries < limit then .again
    else .givenUp := by
  unfold OutRecord.treatment
  rw [hs]
  exact if_neg (not_not.mpr hl)

/-- A control that awaits acknowledgement has waited for the whole window. -/
def OutRecord.due : Bool := r.held && r.awaiting && decide (window ≤ r.cyclesSince + 1)

theorem treatment_due (h : r.due window = true) :
    r.treatment window limit = if r.retries < limit then .again else .givenUp := by
  obtain ⟨⟨hh, ha⟩, hw⟩ : (r.held = true ∧ r.awaiting = true) ∧ window ≤ r.cyclesSince + 1 := by
    simpa [OutRecord.due] using h
  obtain ⟨v, hs, hl⟩ := (held_eq_true r).mp hh
  rw [treatment_held window limit r hs hl, if_neg (by simp [ha]), if_neg (not_lt.mpr hw)]

theorem treatment_not_due (h : r.due window ≠ true) :
    r.treatment window limit ≠ .again ∧ r.treatment window limit ≠ .givenUp := by
  rcases hs : r.staged with _ | v
  · rw [treatment_left window limit r hs]
    decide
  · by_cases hl : r.live = some v
    · rw [treatment_held window limit r hs hl]
      split
      · split <;> decide
      · rename_i ha
        split
        · decide
        · rename_i hw
          refine absurd ?_ h
          simp [OutRecord.due, (held_eq_true r).mpr ⟨v, hs, hl⟩, ha, not_lt.mp hw]
    · rw [treatment_sent window limit r hs hl]
      decide

theorem treatment_again : r.treatment window limit = .again ↔ r.due window = true ∧ r.retries < limit := by
  by_cases h : r.due window = true
  · rw [treatment_due window limit r h]
    simp [h]
  · simp [h, (treatment_not_due window limit r h).1]

theorem treatment_givenUp : r.treatment window limit = .givenUp ↔ r.due window = true ∧ limit ≤ r.retries := by
  by_cases h : r.due window = true
  · rw [treatment_due window limit r h]
    simp [h]
  · simp [h, (treatment_not_due window limit r h).2]

end

end Sys2Proof.Machine

/-! PROOFS. A cycle start with no change of the map (R17, R18, R21, R22, R38, R59). -/

namespace Sys2Proof.Machine

-- One proof after another: proofs that are checked side by side take a thread each.
set_option Elab.async false

/-! ## What a treatment leaves of a record -/

section
variable (window limit : Nat) (r : OutRecord)

theorem core_sent {v : Word} (hs : r.staged = some v) (hl : r.live ≠ some v) :
    (r.after (r.treatment window limit)).core = (some v, r.seq + 1, true, 0, 0, true) := by
  rw [treatment_sent window limit r hs hl, ← hs]
  rfl

theorem core_settled (h : r.staged = none ∨ (r.staged = r.live ∧ r.awaiting = false)) :
    (r.after (r.treatment window limit)).core =
      (r.live, r.seq, r.awaiting, r.cyclesSince, r.retries, false) := by
  rcases hs : r.staged with _ | v
  · rw [treatment_left window limit r hs]
    rfl
  · rw [hs] at h
    obtain ⟨hl, ha⟩ := h.resolve_left nofun
    rw [treatment_held window limit r hs hl.symm, if_pos ha]
    split <;> rfl

theorem core_awaiting (hs : r.staged ≠ none) (hl : r.staged = r.live) (ha : r.awaiting = true) :
    (r.cyclesSince + 1 < window → (r.after (r.treatment window limit)).core =
      (r.live, r.seq, true, r.cyclesSince + 1, r.retries, false)) ∧
    (window ≤ r.cyclesSince + 1 → r.retries < limit → (r.after (r.treatment window limit)).core =
      (r.live, r.seq, true, 0, r.retries + 1, false)) ∧
    (window ≤ r.cyclesSince + 1 → limit ≤ r.retries → (r.after (r.treatment window limit)).core =
      (none, r.seq, false, r.cyclesSince + 1, r.retries, false)) := by
  obtain ⟨v, hv⟩ := Option.ne_none_iff_exists'.mp hs
  rw [treatment_held window limit r hv (hl.symm.trans hv), if_neg (by simp [ha]), ← ha]
  refine ⟨fun hw => ?_, fun hw hr => ?_, fun hw hr => ?_⟩
  · rw [if_pos hw]
    rfl
  · rw [if_neg (not_lt.mpr hw), if_pos hr]
    rfl
  · rw [if_neg (not_lt.mpr hw), if_neg (not_lt.mpr hr)]
    rfl

/-- A record that is given up. -/
def OutRecord.givesUp : Bool := r.due window && decide (limit ≤ r.retries)

theorem givesUp_iff : r.givesUp window limit = true ↔ r.treatment window limit = .givenUp := by
  rw [treatment_givenUp]
  unfold OutRecord.givesUp
  simp

/-- What staging touches of a record after its treatment. -/
def OutRecord.left : Option Word × Option Writer × Bool :=
  (if r.givesUp window limit then none else r.staged, r.lastWriter,
    if r.givesUp window limit || (r.held && !r.awaiting) then false else r.owed)

theorem writing_after : (r.after (r.treatment window limit)).writing = r.left window limit := by
  unfold OutRecord.left
  by_cases hg : r.givesUp window limit = true
  · rw [hg, (givesUp_iff window limit r).mp hg]
    rfl
  · have hn := hg
    rw [Bool.not_eq_true] at hg
    rw [hg, Bool.false_or, if_neg Bool.false_ne_true]
    rcases hs : r.staged with _ | v
    · rw [treatment_left window limit r hs]
      simp [OutRecord.after, OutRecord.writing, OutRecord.held, hs]
    · by_cases hl : r.live = some v
      · have hh := (held_eq_true r).mpr ⟨v, hs, hl⟩
        rw [treatment_held window limit r hs hl, hh, Bool.true_and]
        by_cases ha : r.awaiting = true
        · rw [ha]
          rw [givesUp_iff, treatment_held window limit r hs hl, if_neg (by simp [ha])] at hn
          rw [if_neg (by simp)]
          split
          · exact congrArg (·, r.lastWriter, r.owed) hs
          · split
            · exact congrArg (·, r.lastWriter, r.owed) hs
            · rename_i hw hr
              rw [if_neg hw, if_neg hr] at hn
              exact absurd rfl hn
        · rw [Bool.not_eq_true] at ha
          rw [ha, if_pos rfl]
          rcases ho : r.owed <;> simp [OutRecord.after, OutRecord.writing, hs, ho]
      · have hh : r.held = false := by
          rw [← Bool.not_eq_true, held_eq_true]
          rintro ⟨w, hw, hlw⟩
          exact hl (hlw.trans (hw.symm.trans hs))
        rw [treatment_sent window limit r hs hl, hh]
        exact congrArg (·, r.lastWriter, r.owed) hs

theorem forBranch_after (t : Treatment) : (r.after t).forBranch = r.forBranch := by
  cases t <;> rfl

/-! ## The cells that are sent -/

theorem mem_cell (k node : Nat) (c : OutCell) : c ∈ r.cell k node (r.treatment window limit) ↔
    c.slot = k ∧ c.node = node ∧ r.staged = some c.value ∧
      ((r.live ≠ some c.value ∧ c.seq = r.seq + 1) ∨
        (r.live = some c.value ∧ r.awaiting = true ∧ c.seq = r.seq ∧ window ≤ r.cyclesSince + 1 ∧
          r.retries < limit)) := by
  obtain ⟨slot, n, value, seq⟩ := c
  rcases hs : r.staged with _ | v
  · rw [treatment_left window limit r hs]
    simp [OutRecord.cell]
  · by_cases hl : r.live = some v
    · have hother (w : Word) : r.live ≠ some w ↔ v ≠ w := by rw [hl]; simp
      by_cases ht : r.treatment window limit = .again
      · obtain ⟨hd, hr⟩ := (treatment_again window limit r).mp ht
        obtain ⟨⟨-, ha⟩, hw⟩ : (r.held = true ∧ r.awaiting = true) ∧ window ≤ r.cyclesSince + 1 := by
          simpa [OutRecord.due] using hd
        rw [ht]
        simp only [OutRecord.cell, hs, List.mem_singleton, OutCell.mk.injEq, Option.some.injEq]
        constructor
        · rintro ⟨rfl, rfl, rfl, rfl⟩
          exact ⟨rfl, rfl, rfl, .inr ⟨hl, ha, rfl, hw, hr⟩⟩
        · rintro ⟨rfl, rfl, rfl, h | h⟩
          · exact absurd hl h.1
          · exact ⟨rfl, rfl, rfl, h.2.2.1⟩
      · have hempty : r.cell k node (r.treatment window limit) = [] := by
          rw [treatment_held window limit r hs hl] at ht ⊢
          repeat' split
          all_goals first | rfl | simp_all
        rw [hempty]
        constructor
        · intro h
          cases h
        · rintro ⟨-, -, h, ⟨h1, -⟩ | ⟨-, ha, -, hw, hr⟩⟩
          · rw [Option.some.inj h] at hl
            exact absurd hl h1
          · refine absurd ((treatment_again window limit r).mpr ⟨?_, hr⟩) ht
            simp [OutRecord.due, (held_eq_true r).mpr ⟨v, hs, hl⟩, ha, hw]
    · rw [treatment_sent window limit r hs hl]
      simp only [OutRecord.cell, hs, List.mem_singleton, OutCell.mk.injEq, Option.some.injEq]
      constructor
      · rintro ⟨rfl, rfl, rfl, rfl⟩
        exact ⟨rfl, rfl, rfl, .inl ⟨hl, rfl⟩⟩
      · rintro ⟨rfl, rfl, rfl, h | h⟩
        · exact ⟨rfl, rfl, rfl, h.2⟩
        · exact absurd h.1 hl

end

/-! ## The counters -/

theorem satInc_iterate {n : Nat} (h : n ≤ 65535) (j : Nat) : satInc^[j] n = min 65535 (n + j) := by
  induction j with
  | zero => simp [h]
  | succ j ih =>
    rw [Function.iterate_succ_apply', ih]
    unfold satInc
    split <;> omega

/-! ## The outcomes that are told -/

theorem length_flatMap_le {α β : Type} {f : α → List β} (hf : ∀ x, (f x).length ≤ 1) (l : List α) :
    (l.flatMap f).length ≤ l.length := by
  induction l with
  | nil => exact le_refl _
  | cons x l ih =>
    rw [List.flatMap_cons, List.length_append, List.length_cons]
    have := hf x
    omega

theorem length_tells (r : OutRecord) (node : Nat) (t : Treatment) : (r.tells node t).length ≤ 1 := by
  unfold OutRecord.tells OutRecord.told
  repeat' split
  all_goals simp

theorem mem_tells {r : OutRecord} {node : Nat} {t : Treatment} (ht : t ≠ .givenUp) {s : Signal}
    (h : s ∈ r.tells node t) : ∃ w b, s = .outcome w b node .ack := by
  unfold OutRecord.tells OutRecord.told at h
  repeat' split at h
  all_goals first
    | contradiction
    | exact ⟨_, _, List.mem_singleton.mp h⟩

/-- Where no record is given up, nobody acts on the outcomes that a cycle start tells. -/
theorem settleAll_treated {d : Part} {out : List (Option OutRecord)} (ha : d.agenda = [])
    (hphase : ∀ node, d.rlp.phase ≠ .passing node)
    (hg : ∀ x ∈ outbounds d 96, x.record.treated d ≠ .givenUp) :
    settleAll (treatedPart d 96 out) = { treatedPart d 96 out with agenda := [] } := by
  have hagenda : (treatedPart d 96 out).agenda =
      (outbounds d 96).flatMap fun x => x.record.tells x.node (x.record.treated d) := by
    show d.agenda ++ _ = _
    rw [ha, List.nil_append]
  refine settle_inert _ (fun s hs l => ?_) ?_
  · rw [hagenda, List.mem_flatMap] at hs
    obtain ⟨x, hx, hs⟩ := hs
    obtain ⟨w, b, rfl⟩ := mem_tells (hg x hx) hs
    exact deliver_ack (by exact hphase) w b x.node
  · rw [hagenda]
    refine (length_flatMap_le (fun x => length_tells _ _ _) _).trans ?_
    refine (List.length_filterMap_le _ _).trans ?_
    rw [List.length_range]
    decide

end Sys2Proof.Machine

/-! PROOFS. A cycle start with no change of the map: the statement. -/

namespace Sys2Proof.Machine

-- One proof after another: proofs that are checked side by side take a thread each.
set_option Elab.async false

/-! ## The treatments as equations -/

section
variable {d : Part} {k node : Nat} {r : OutRecord} {v : Word} (hn : entry d.slc.active k = some (.output node))
  (hr : entry d.slc.out k = some r) (hs : r.staged = some v) (hl : r.live = some v)
include hn hr hs hl

/-- A staged value that is live already and awaits nothing is settled (R18). -/
theorem treatOut_settles (ha : r.awaiting = false) : treatOut k d = { d with
    slc := { d.slc with out := d.slc.out.set k (some { r with firstSent := false, owed := false }) }
    agenda := d.agenda ++ r.told node .ack } := by
  rw [treatOut_some (outbound_eq_some.mpr ⟨rfl, hn, hr⟩ : outbound d k = some ⟨k, node, r⟩)]
  have ht := treatment_held d.sru.profile.ackWindow d.sru.profile.retryLimit r hs hl
  rw [if_pos ha] at ht
  unfold OutRecord.treated
  simp only [ht]
  rcases ho : r.owed <;> simp [OutRecord.cell, OutRecord.after, OutRecord.tells, OutRecord.told, ho]

/-- A control that has waited through its last repeat is given up (R21). -/
theorem treatOut_givesUp (ha : r.awaiting = true) (hw : d.sru.profile.ackWindow ≤ r.cyclesSince + 1)
    (hlim : d.sru.profile.retryLimit ≤ r.retries) : treatOut k d = { d with
      slc := { d.slc with
        out := d.slc.out.set k (some { r with
          staged := none, live := none, awaiting := false, owed := false, firstSent := false
          cyclesSince := r.cyclesSince + 1 })
        noAcks := satInc d.slc.noAcks }
      agenda := d.agenda ++ r.told node .noAck } := by
  rw [treatOut_some (outbound_eq_some.mpr ⟨rfl, hn, hr⟩ : outbound d k = some ⟨k, node, r⟩)]
  have ht := treatment_held d.sru.profile.ackWindow d.sru.profile.retryLimit r hs hl
  rw [if_neg (by simp [ha]), if_neg (not_lt.mpr hw), if_neg (not_lt.mpr hlim)] at ht
  unfold OutRecord.treated
  simp only [ht]
  simp [OutRecord.cell, OutRecord.after, OutRecord.tells]

end

/-! ## The outcomes as the BCU takes them -/

theorem deliver_bcu (b : Option Nat) (node : Nat) (o : Delivery) (d : Part) :
    deliver .bcu b node o d = outcomeToBcu b node o d := rfl

theorem outcomeToBcu_faults {d : Part} {n node : Nat} {x : Branch} (hx : d.branch n = some x)
    (h : x.cfg.node = node ∧ x.state ≠ .fault ∧ x.state ≠ .unknown) :
    outcomeToBcu (some n) node .noAck d = faultBranch .noAck n d := by
  unfold outcomeToBcu
  simp only [hx]
  exact if_pos h

theorem outcomeToBcu_stands {d : Part} {n node : Nat} {x : Branch} (hx : d.branch n = some x)
    (h : ¬ (x.cfg.node = node ∧ x.state ≠ .fault ∧ x.state ≠ .unknown)) :
    outcomeToBcu (some n) node .noAck d = d := by
  unfold outcomeToBcu
  simp only [hx]
  exact if_neg h

theorem outcomeToBcu_nobody {d : Part} {b : Option Nat} {node : Nat} (h : ∀ n, b = some n → d.branch n = none) :
    outcomeToBcu b node .noAck d = d := by
  rcases b with _ | n
  · rfl
  · unfold outcomeToBcu
    simp only [h n rfl]

/-! ## The statement -/

theorem activate_same {d : Part} (h : d.slc.written = d.slc.active) : activate d = d := if_pos h.symm

theorem treatedEntry_some {d : Part} {k node : Nat} {r : OutRecord} {out : List (Option OutRecord)} (hk : k < 96)
    (hn : entry d.slc.active k = some (.output node)) (hr : entry d.slc.out k = some r)
    (hout : ∀ n, entry out n = if n < 96 then treatedEntry d n else entry d.slc.out n) :
    entry out k = some (r.after (r.treated d)) := by
  rw [hout, if_pos hk, treatedEntry_output hn hr]

theorem length_filter_outbounds (d : Part) (t : Treatment) (p : OutRecord → Bool)
    (hp : ∀ r : OutRecord, p r = true ↔ r.treated d = t) :
    (((outbounds d 96).map Outbound.record).filter p).length = treatedCount d t 96 := by
  rw [← List.countP_eq_length_filter, List.countP_map]
  unfold treatedCount
  refine List.countP_congr fun x _ => ?_
  rw [beq_iff_eq]
  exact hp x.record

/-- Settles O6: the map stands, so that a cycle start is its tick and its treatments; the delivery of the outcomes
stages for the BCU at most, and nothing at all where no record is given up. -/
theorem cycleStartTreatsControls : Obligations.CycleStartTreatsControls := by
  unfold Obligations.CycleStartTreatsControls
  refine ⟨?_, fun d k node r v hn hr hs hl => ⟨treatOut_settles hn hr hs hl, treatOut_givesUp hn hr hs hl⟩,
    fun d b node => ⟨fun w o hw ho => deliver_idle hw ho b node d, rfl, fun n x hb hx => ?_, fun h => ?_⟩⟩
  · intro s hcalm hwritten records settles due repeats givesUp
    have hrecords : records = (outbounds s.part 96).map Outbound.record := by
      unfold outbounds
      rw [List.map_filterMap]
      refine List.filterMap_congr fun k _ => ?_
      unfold outbound
      rcases entry s.part.slc.active k with _ | _ | _ <;> rcases entry s.part.slc.out k with _ | _ <;> rfl
    have hagain (r : OutRecord) : repeats r = true ↔ r.treated s.part = .again := by
      unfold OutRecord.treated
      rw [treatment_again]
      show (r.due s.part.sru.profile.ackWindow && decide (r.retries < s.part.sru.profile.retryLimit)) = true ↔ _
      simp
    have hgiven (r : OutRecord) : givesUp r = true ↔ r.treated s.part = .givenUp :=
      givesUp_iff s.part.sru.profile.ackWindow s.part.sru.profile.retryLimit r
    have hcountAgain := length_filter_outbounds s.part .again repeats hagain
    have hcountGiven := length_filter_outbounds s.part .givenUp givesUp hgiven
    rw [← hrecords] at hcountAgain hcountGiven
    have houter := startCycle_outer s.part
    have hexec : exec .cycleStart s = .next { s with part := complete (startCycle s.part) } :=
      act_running startCycle s hcalm.1.1
    obtain ⟨out, htreated, hout⟩ := treatments (cycleBegun s.part)
    have heq : startCycle s.part = treatedPart (cycleBegun s.part) 96 out := by
      rw [startCycle_eq, activate_same (by exact hwritten)]
      exact htreated
    rw [heq] at houter hexec
    have hphase : ∀ n, (treatedPart (cycleBegun s.part) 96 out).rlp.phase ≠ .passing n := hcalm.2
    have hd := complete_delivered hphase
    have hrestaged := complete_restaged hphase
    have hquiet (hg : ∀ x ∈ records, givesUp x = false) :
        (complete (treatedPart (cycleBegun s.part) 96 out)).slc.out = out := by
      rw [complete_calm _ hphase, settleAll_treated (by exact hcalm.1.2.1) (by exact hcalm.2) fun x hx hgx => ?_]
      · rfl
      · have hx' : x.record ∈ records := by
          rw [hrecords]
          exact List.mem_map_of_mem hx
        have := hg _ hx'
        rw [(hgiven _).mpr hgx] at this
        cases this
    refine ⟨_, hexec, rfl, houter.toTablesStand.trans hd.toTablesStand,
      houter.toRequestsStand.trans (complete_requestsStand hphase), hd.cycle, hd.active, hd.nodes, hd.satisfied,
      hd.checkErrors, hd.misplaced, hd.channels, hd.lkm, hd.sru, fun k node r hk hn hr => ?_, fun hle => ?_,
      fun hle => ?_, fun c => ?_⟩
    · have hat : entry (treatedPart (cycleBegun s.part) 96 out).slc.out k =
          some (r.after (r.treatment s.part.sru.profile.ackWindow s.part.sru.profile.retryLimit)) :=
        treatedEntry_some (d := cycleBegun s.part) hk hn hr hout
      obtain ⟨r', hr', hcore⟩ := core_of_map ((entry_map_map hd.out k).trans (congrArg (Option.map _) hat))
      refine ⟨r', hr', fun v hs hl => hcore.trans (core_sent _ _ r hs hl),
        fun h => hcore.trans (core_settled _ _ r h), fun hs hl ha => ?_, ?_, fun hg => ?_⟩
      · rw [hcore]
        exact core_awaiting _ _ r hs hl ha
      · obtain ⟨r₀, hr₀, hw⟩ := hrestaged k r' hr'
        rw [hat] at hr₀
        rw [← Option.some.inj hr₀, writing_after] at hw
        exact hw
      · rw [hquiet hg] at hr'
        have hsame := Option.some.inj (hr'.symm.trans hat)
        rw [hsame]
        exact ⟨writing_after _ _ r, forBranch_after r _⟩
    · rw [hd.retries]
      exact (satInc_iterate hle _).trans (by rw [hcountAgain]; rfl)
    · rw [hd.noAcks]
      exact (satInc_iterate hle _).trans (by rw [hcountGiven]; rfl)
    · rw [hd.sending]
      show c ∈ [] ++ (outbounds s.part 96).flatMap _ ↔ _
      rw [List.nil_append, List.mem_flatMap]
      constructor
      · rintro ⟨x, hx, hc⟩
        obtain ⟨hk, hn, hr⟩ := mem_outbounds.mp hx
        obtain ⟨hslot, hnode, hs, hrest⟩ := (mem_cell _ _ _ _ _ _).mp hc
        rw [hslot, hnode]
        exact ⟨hk, hn, x.record, hr, hs, hrest⟩
      · rintro ⟨hk, hn, r, hr, hs, hrest⟩
        exact ⟨⟨c.slot, c.node, r⟩, mem_outbounds.mpr ⟨hk, hn, hr⟩, (mem_cell _ _ _ _ _ _).mpr ⟨rfl, rfl, hs, hrest⟩⟩
  · rw [hb, deliver_bcu]
    refine ⟨fun hnode hfault hunknown => EntersFault.of_eq hx (outcomeToBcu_faults hx ⟨hnode, hfault, hunknown⟩),
      fun h => outcomeToBcu_stands hx ?_⟩
    rintro ⟨h1, h2, h3⟩
    rcases h with h | h | h
    · exact h h1
    · exact h2 h
    · exact h3 h
  · exact outcomeToBcu_nobody h

end Sys2Proof.Machine

/-! PROOFS. Two examinations of one leak zone side by side (R142, R143): in parts whose zones, points and branch entries
agree, they leave the same zones and post the same records, whatever else differs. -/

namespace Sys2Proof.Machine

-- One proof after another: proofs that are checked side by side take a thread each.
set_option Elab.async false

/-! ## Records of other kinds -/

/-- No record of an examination of a zone was posted. -/
def Spared (d d' : Part) : Prop := ∀ r, r.kind ∈ leakKinds → d'.holdsEvent r → d.holdsEvent r

theorem spared_of_rlp {d d' : Part} (ht : d'.rlp.tx = d.rlp.tx) (he : d'.rlp.events = d.rlp.events) : Spared d d' := by
  intro r _ h
  unfold Part.holdsEvent at h ⊢
  rw [ht, he] at h
  exact h

theorem Spared.trans {a b c : Part} (h : Spared a b) (g : Spared b c) : Spared a c :=
  fun r hr he => h r hr (g r hr he)

theorem spared_post {k : EventKind} (s v : Option Nat) (d : Part) (hk : k ∉ leakKinds) : Spared d (post k s v d) := by
  intro r hr he
  rcases holdsEvent_of_post he with he | rfl
  · exact he
  · exact absurd hr hk

theorem Still.spared {d d' : Part} (h : Still d d') : Spared d d' := by
  have hr := h.rlp
  exact spared_of_rlp (by rw [hr]) (by rw [hr])

theorem spared_operated : Operated Spared where
  trans := .trans
  fixed h := h.toStill.spared
  stage b n v d _ := (stage_still .bcu b n v d).spared
  posted _ s v d hk := spared_post s v d hk
  putBranch _ _ _ := spared_of_rlp rfl rfl
  bcu _ _ _ := spared_of_rlp rfl rfl
  noteFaulted b x d := spared_of_rlp (by rw [noteFaulted_rlp]) (by rw [noteFaulted_rlp])

theorem spared_setCauses (c : Causes) (d : Part) : Spared d (setCauses c d) :=
  spared_operated.changed.setCauses (fun _ _ _ => spared_of_rlp rfl rfl) c d

theorem overflowUp_setCauses (c : Causes) (d : Part) : OverflowUp d (setCauses c d) :=
  overflowUp_built.changed.setCauses overflowUp_sqe c d

/-! ## Aside from the zones -/

/-- What an examination of a zone reads stands. -/
structure Aside (d d' : Part) : Prop where
  zones : d'.lkm.zones = d.lkm.zones
  points : d'.lkm.points = d.lkm.points
  cycle : d'.slc.cycle = d.slc.cycle
  cfgs : d'.bcu.branches.map (Option.map Branch.cfg) = d.bcu.branches.map (Option.map Branch.cfg)

/-- What an examination of a zone reads stands, and no record that waited is gone unless it was sent. -/
structure Neutral (d d' : Part) : Prop extends Aside d d' where
  overflow : OverflowUp d d'
  holds : ∀ r, d.holdsEvent r → d'.holdsEvent r

theorem Aside.trans {a b c : Part} (h : Aside a b) (g : Aside b c) : Aside a c :=
  ⟨g.zones.trans h.zones, g.points.trans h.points, g.cycle.trans h.cycle, g.cfgs.trans h.cfgs⟩

namespace Neutral

theorem trans {a b c : Part} (h : Neutral a b) (g : Neutral b c) : Neutral a c where
  toAside := h.toAside.trans g.toAside
  overflow := Nat.le_trans h.overflow g.overflow
  holds r hr := g.holds r (h.holds r hr)

theorem refl (d : Part) : Neutral d d := ⟨⟨rfl, rfl, rfl, rfl⟩, Nat.le_refl _, fun _ h => h⟩

theorem of_frame {d d' : Part} (h : Frame d d') (hl : d'.lkm = d.lkm) (ho : OverflowUp d d') : Neutral d d' :=
  ⟨⟨by rw [hl], by rw [hl], h.cycle, h.cfgs⟩, ho, h.holds⟩

theorem post (k : EventKind) (s v : Option Nat) (d : Part) : Neutral d (post k s v d) :=
  of_frame (post_settled k s v d).toFrame (post_settled k s v d).lkm (post_overflow k s v d)

theorem foldl {α : Type} {f : Part → α → Part} (hf : ∀ d a, Neutral d (f d a)) (l : List α) (d : Part) :
    Neutral d (l.foldl f d) := foldl_rel refl trans f hf l d

end Neutral

theorem neutral_examineLeakCause (d : Part) : Neutral d (examineLeakCause d) :=
  .of_frame (examineLeakCause_settled d).toFrame (examineLeakCause_settled d).lkm (overflowUp_setCauses _ d)

theorem neutral_handLatch (z : Nat) (d : Part) : Neutral d (handLatch (deriveLeak z) d) := by
  obtain ⟨hzones, hpoints⟩ := handLatch_stands (fun e => (deriveLeak_kept z e).lkm) d
  have hk := handLatch_leaked _ (deriveLeak_leaked z) d
  exact ⟨⟨hzones, hpoints, hk.cycle, hk.cfgs⟩,
    overflowUp_built.changed.handLatch overflowUp_setCauses _ (overflowUp_built.changed.deriveLeak z) d, hk.holds⟩

theorem spared_handLatch (z : Nat) (d : Part) : Spared d (handLatch (deriveLeak z) d) :=
  spared_operated.changed.handLatch spared_setCauses _ (spared_operated.changed.deriveLeak z) d

/-! ## Two parts side by side -/

/-- What an examination reads is the same in `d` and `e`, and where no record was lost since `a`, `e` holds the records
of `d` that an examination posts. -/
structure Watches (a d e : Part) : Prop extends Aside d e where
  overflow : OverflowUp a e
  posted : NoRecordLost a e → ∀ r, r.kind ∈ leakKinds → d.holdsEvent r → e.holdsEvent r

theorem zoneBranches_of {d e : Part}
    (h : e.bcu.branches.map (Option.map Branch.cfg) = d.bcu.branches.map (Option.map Branch.cfg)) (z : Nat) :
    zoneBranches z e = zoneBranches z d := by
  refine branchesWith_of fun b _ => ?_
  have hb : (e.branch b).map Branch.cfg = (d.branch b).map Branch.cfg := entry_map_map h b
  rcases hd : d.branch b with _ | x <;> rcases he : e.branch b with _ | y <;> rw [hd, he] at hb
  · cases hb
  · cases hb
  · have hc : y.cfg = x.cfg := Option.some.inj hb
    simp only [Option.any_some, hc]

namespace Watches
variable {a d e : Part}

theorem zone (h : Watches a d e) (z : Nat) : e.zone z = d.zone z := zone_of_zones h.zones z

theorem zonePoints (h : Watches a d e) (z : Nat) : Machine.zonePoints z e = Machine.zonePoints z d := by
  unfold Machine.zonePoints
  rw [h.points]

theorem faultCount (h : Watches a d e) (z : Nat) : Machine.faultCount z e = Machine.faultCount z d := by
  unfold Machine.faultCount
  rw [h.zonePoints]

theorem wetCount (h : Watches a d e) (z : Nat) : Machine.wetCount z e = Machine.wetCount z d := by
  unfold Machine.wetCount
  rw [h.zonePoints]

theorem right {e' : Part} (h : Watches a d e) (g : Neutral e e') : Watches a d e' where
  toAside := h.toAside.trans g.toAside
  overflow := Nat.le_trans h.overflow g.overflow
  posted hn r hr hd := g.holds r (h.posted (hn.split h.overflow g.overflow).1 r hr hd)

theorem left {d' : Part} (h : Watches a d e) (g : Aside d d') (hs : Spared d d') : Watches a d' e where
  zones := h.zones.trans g.zones.symm
  points := h.points.trans g.points.symm
  cycle := h.cycle.trans g.cycle.symm
  cfgs := h.cfgs.trans g.cfgs.symm
  overflow := h.overflow
  posted hn r hr hd := h.posted hn r hr (hs r hr hd)

theorem put (h : Watches a d e) (z : Nat) (x : Zone) : Watches a (putZone z x d) (putZone z x e) :=
  ⟨⟨congrArg (List.set · z x) h.zones, h.points, h.cycle, h.cfgs⟩, h.overflow, h.posted⟩

theorem post (h : Watches a d e) (k : EventKind) (s v : Option Nat) :
    Watches a (post k s v d) (Machine.post k s v e) := by
  have g := Neutral.post k s v d
  have g' := Neutral.post k s v e
  have aside : Aside (Machine.post k s v d) (Machine.post k s v e) :=
    ⟨g'.zones.trans (h.zones.trans g.zones.symm), g'.points.trans (h.points.trans g.points.symm),
      g'.cycle.trans (h.cycle.trans g.cycle.symm), g'.cfgs.trans (h.cfgs.trans g.cfgs.symm)⟩
  refine ⟨aside, Nat.le_trans h.overflow g'.overflow, fun hn r hr hd => ?_⟩
  obtain ⟨hlost, hnew⟩ := post_noRecordLost h.overflow hn
  rcases holdsEvent_of_post hd with hd | rfl
  · exact g'.holds r (h.posted hlost r hr hd)
  · unfold newRecord at hnew ⊢
    rw [h.cycle] at hnew
    exact hnew

theorem noteDegraded (h : Watches a d e) (z : Nat) : Watches a (noteDegraded z d) (noteDegraded z e) := by
  unfold Machine.noteDegraded
  simp only [h.zone, h.faultCount]
  split
  · exact h
  · exact (h.put z _).post _ _ _

theorem confirmZone (h : Watches a d e) (z : Nat) (c : ZoneCfg) (k n : Nat) :
    Watches a (confirmZone z c k n d) (confirmZone z c k n e) := by
  have records : Watches a (confirmRecords z c k n d) (confirmRecords z c k n e) := by
    unfold confirmRecords
    simp only [h.zone, zoneBranches_of h.cfgs]
    split
    · exact ((h.put z _).post _ _ _).post _ _ _
    · exact (h.put z _).post _ _ _
  rw [confirmZone_eq, confirmZone_eq]
  exact (records.left (neutral_handLatch z _).toAside (spared_handLatch z _)).right (neutral_handLatch z _)

theorem examineZone (h : Watches a d e) (z : Nat) : Watches a (examineZone z d) (examineZone z e) := by
  have hn := h.noteDegraded z
  unfold Machine.examineZone
  simp only [h.zone, h.wetCount, h.zonePoints, h.faultCount, hn.zone]
  split
  · exact h
  · split
    · split
      · exact hn.confirmZone _ _ _ _
      · split
        · exact (hn.put z _).post _ _ _
        · exact hn
    · split
      · exact hn.confirmZone _ _ _ _
      · split
        · exact ((hn.put z _).left (neutral_examineLeakCause _).toAside (spared_setCauses _ _)).right
            (neutral_examineLeakCause _)
        · exact hn
    · exact hn

end Watches

/-! ## What an examination leaves -/

/-- The points, the cycle and the branch entries stand, the other zones too, and no record that waited is gone unless it
was sent. -/
structure Examined (z : Nat) (d d' : Part) : Prop where
  points : d'.lkm.points = d.lkm.points
  zones : ∀ n, n ≠ z → d'.zone n = d.zone n
  cycle : d'.slc.cycle = d.slc.cycle
  cfgs : d'.bcu.branches.map (Option.map Branch.cfg) = d.bcu.branches.map (Option.map Branch.cfg)
  overflow : OverflowUp d d'
  holds : ∀ r, d.holdsEvent r → d'.holdsEvent r

theorem Neutral.examined {d d' : Part} (h : Neutral d d') (z : Nat) : Examined z d d' :=
  ⟨h.points, fun n _ => zone_of_zones h.zones n, h.cycle, h.cfgs, h.overflow, h.holds⟩

namespace Examined
variable {z : Nat} {a b c d : Part}

theorem trans (h : Examined z a b) (g : Examined z b c) : Examined z a c :=
  ⟨g.points.trans h.points, fun n hn => (g.zones n hn).trans (h.zones n hn), g.cycle.trans h.cycle,
    g.cfgs.trans h.cfgs, Nat.le_trans h.overflow g.overflow, fun r hr => g.holds r (h.holds r hr)⟩

theorem put (x : Zone) (d : Part) : Examined z d (putZone z x d) :=
  ⟨rfl, fun n hn => zone_putZone z n x d hn, rfl, rfl, Nat.le_refl _, fun _ h => h⟩

theorem noteDegraded (z : Nat) (d : Part) : Examined z d (noteDegraded z d) := by
  unfold Machine.noteDegraded
  simp only
  split
  · exact (Neutral.refl d).examined z
  · exact (put _ d).trans ((Neutral.post _ _ _ _).examined z)

theorem confirmZone (z : Nat) (c : ZoneCfg) (k n : Nat) (d : Part) : Examined z d (confirmZone z c k n d) := by
  rw [confirmZone_eq]
  refine Examined.trans ?_ ((neutral_handLatch z _).examined z)
  unfold confirmRecords
  simp only
  split
  · exact ((put _ d).trans ((Neutral.post _ _ _ _).examined z)).trans ((Neutral.post _ _ _ _).examined z)
  · exact (put _ d).trans ((Neutral.post _ _ _ _).examined z)

theorem of_examineZone (z : Nat) (d : Part) : Examined z d (examineZone z d) := by
  have hn := noteDegraded z d
  unfold Machine.examineZone
  split
  · exact (Neutral.refl d).examined z
  · simp only
    split
    · split
      · exact hn.trans (confirmZone _ _ _ _ _)
      · split
        · exact (hn.trans (put _ _)).trans ((Neutral.post _ _ _ _).examined z)
        · exact hn
    · split
      · exact hn.trans (confirmZone _ _ _ _ _)
      · split
        · exact (hn.trans (put _ _)).trans ((neutral_examineLeakCause _).examined z)
        · exact hn
    · exact hn

end Examined

end Sys2Proof.Machine

/-! PROOFS. Points that move one after the other (R139, R140): what holds once the points of a set have moved
(`Following`), and that it is carried by every move and by whatever leaves the zones and points (`Neutral`). -/

namespace Sys2Proof.Machine

-- One proof after another: proofs that are checked side by side take a thread each.
set_option Elab.async false

/-- From `d` to `e` the valid points whose numbers are in `S` have moved as `next` says, and no other has. -/
structure Following (next : Point → PointState × Nat) (cause : Point → PointCause) (d : Part) (S : Nat → Prop)
    (e : Part) : Prop where
  valid : ∀ i, S i → ∃ p, entry d.lkm.points i = some p
  moved : ∀ i p, S i → entry d.lkm.points i = some p →
    entry e.lkm.points i = some { p with state := (next p).1, count := (next p).2 }
  stood : ∀ i, ¬ S i → entry e.lkm.points i = entry d.lkm.points i
  cfgs : e.bcu.branches.map (Option.map Branch.cfg) = d.bcu.branches.map (Option.map Branch.cfg)
  overflow : OverflowUp d e
  holds : ∀ r, d.holdsEvent r → e.holdsEvent r
  faulted : NoRecordLost d e → ∀ i p, S i → entry d.lkm.points i = some p → (next p).1 = .fault → p.state ≠ .fault →
    e.holdsEvent ⟨.leakPointFault, some p.cfg.zone, some (i * 256 + (cause p).code), e.slc.cycle⟩
  zones : ∀ z, (∀ i p, S i → entry d.lkm.points i = some p → p.cfg.zone = z → (next p).1 = p.state) →
    e.zone z = d.zone z
  table : (∀ i p, S i → entry d.lkm.points i = some p → (next p).1 = p.state) → e.lkm.zones = d.lkm.zones
  examined : ∀ i p, S i → entry d.lkm.points i = some p → (next p).1 ≠ p.state →
    (∀ m, m ≠ i → entry e.lkm.points m = entry d.lkm.points m) →
    Watches d (examineZone p.cfg.zone { d with slc.cycle := e.slc.cycle, lkm.points := e.lkm.points }) e

/-- The part once point `i` has taken its state and count, before its zone is examined. -/
def pointPut (i : Nat) (p : Point) (s : PointState × Nat) (e : Part) : Part :=
  { e with lkm.points := e.lkm.points.set i (some { p with state := s.1, count := s.2 }) }

theorem setPoint_same {i : Nat} {p : Point} {s : PointState × Nat} (h : s.1 = p.state) (c : PointCause) (e : Part) :
    setPoint i p s.1 s.2 c e = pointPut i p s e := if_pos h

/-- A point that changes its state has its zone examined, once its record is posted where it enters FAULT. -/
theorem setPoint_moves {i : Nat} {p : Point} {s : PointState × Nat} (h : s.1 ≠ p.state) (c : PointCause) (e : Part) :
    ∃ e₂, Neutral (pointPut i p s e) e₂ ∧ setPoint i p s.1 s.2 c e = examineZone p.cfg.zone e₂ ∧
      (s.1 = .fault → NoRecordLost (pointPut i p s e) e₂ →
        e₂.holdsEvent ⟨.leakPointFault, some p.cfg.zone, some (i * 256 + c.code), e.slc.cycle⟩) := by
  unfold setPoint
  simp only [if_neg h]
  split
  · exact ⟨_, .post _ _ _ _, rfl, fun _ hn => (post_noRecordLost (Nat.le_refl _) hn).2⟩
  · exact ⟨_, .refl _, rfl, fun hf => absurd hf ‹_›⟩

theorem pointPut_same {i : Nat} {p : Point} {s : PointState × Nat} {e : Part} (hp : entry e.lkm.points i = some p)
    (h : ({ p with state := s.1, count := s.2 } : Point) = p) : pointPut i p s e = e := by
  unfold pointPut
  rw [h, set_entry_same hp]

namespace Following
variable {next : Point → PointState × Nat} {cause : Point → PointCause} {d e : Part} {S : Nat → Prop}

theorem start (h : e.lkm.zones = d.lkm.zones ∧ e.lkm.points = d.lkm.points)
    (hc : e.bcu.branches.map (Option.map Branch.cfg) = d.bcu.branches.map (Option.map Branch.cfg))
    (ho : OverflowUp d e) (hh : ∀ r, d.holdsEvent r → e.holdsEvent r) :
    Following next cause d (fun _ => False) e where
  valid _ := False.elim
  moved _ _ := False.elim
  stood i _ := by rw [h.2]
  cfgs := hc
  overflow := ho
  holds := hh
  faulted _ _ _ := False.elim
  zones z _ := zone_of_zones h.1 z
  table _ := h.1
  examined _ _ := False.elim

theorem of_iff {S' : Nat → Prop} (h : Following next cause d S e) (hs : ∀ n, S' n ↔ S n) :
    Following next cause d S' e := by
  rw [funext fun n => propext (hs n)]
  exact h

/-- What leaves zones and points carries the moves. -/
theorem right {e' : Part} (h : Following next cause d S e) (g : Neutral e e') : Following next cause d S e' where
  valid := h.valid
  moved i p hs hp := by
    rw [g.points]
    exact h.moved i p hs hp
  stood i hs := by
    rw [g.points]
    exact h.stood i hs
  cfgs := g.cfgs.trans h.cfgs
  overflow := Nat.le_trans h.overflow g.overflow
  holds r hr := g.holds r (h.holds r hr)
  faulted hn i p hs hp hf hne := by
    rw [g.cycle]
    exact g.holds _ (h.faulted (hn.split h.overflow g.overflow).1 i p hs hp hf hne)
  zones z hz := (zone_of_zones g.zones z).trans (h.zones z hz)
  table ht := g.zones.trans (h.table ht)
  examined i p hs hp hne hothers := by
    rw [g.points] at hothers ⊢
    rw [g.cycle]
    exact (h.examined i p hs hp hne hothers).right g

/-- Point `i` takes its state and count while it keeps its state. -/
theorem keep {i : Nat} {p : Point} (h : Following next cause d S e) (hi : ¬ S i) (hp : entry e.lkm.points i = some p)
    (hsame : (next p).1 = p.state) : Following next cause d (fun n => S n ∨ n = i) (pointPut i p (next p) e) := by
  have hd : entry d.lkm.points i = some p := (h.stood i hi).symm.trans hp
  have one (m : Nat) (q : Point) (hm : m = i) (hq : entry d.lkm.points m = some q) : q = p :=
    Option.some.inj (hq.symm.trans (by rw [hm, hd]))
  exact
  { valid := fun m hm => hm.elim (h.valid m) fun hm => ⟨p, by rw [hm, hd]⟩
    moved := fun m q hm hq => by
      rcases hm with hm | rfl
      · have hne : m ≠ i := fun he => hi (he ▸ hm)
        exact (entry_set_ne _ _ hne).trans (h.moved m q hm hq)
      · rw [one m q rfl hq]
        exact entry_set_same hp
    stood := fun m hm => by
      have hne : m ≠ i := fun he => hm (.inr he)
      exact (entry_set_ne _ _ hne).trans (h.stood m fun hs => hm (.inl hs))
    cfgs := h.cfgs
    overflow := h.overflow
    holds := h.holds
    faulted := fun hn m q hm hq hf hne => by
      rcases hm with hm | hm
      · exact h.faulted hn m q hm hq hf hne
      · rw [one m q hm hq] at hf hne
        exact absurd (hsame.symm.trans hf) hne
    zones := fun z hz => h.zones z fun m q hm => hz m q (.inl hm)
    table := fun ht => h.table fun m q hm => ht m q (.inl hm)
    examined := fun m q hm hq hne hothers => by
      rcases hm with hm | hm
      · have hmi : m ≠ i := fun he => hi (he ▸ hm)
        have hstands : ({ p with state := (next p).1, count := (next p).2 } : Point) = p := by
          have := hothers i hmi.symm
          rw [hd] at this
          exact Option.some.inj ((entry_set_same hp).symm.trans this)
        rw [pointPut_same hp hstands] at hothers ⊢
        exact h.examined m q hm hq hne hothers
      · rw [one m q hm hq] at hne
        exact absurd hsame hne }

/-- Point `i` changes its state, and its zone is examined. -/
theorem change {i : Nat} {p : Point} {e₂ : Part} (h : Following next cause d S e) (hi : ¬ S i)
    (hp : entry e.lkm.points i = some p) (hne : (next p).1 ≠ p.state) (g : Neutral (pointPut i p (next p) e) e₂)
    (hf : (next p).1 = .fault → p.state ≠ .fault → NoRecordLost (pointPut i p (next p) e) e₂ →
      e₂.holdsEvent ⟨.leakPointFault, some p.cfg.zone, some (i * 256 + (cause p).code), e.slc.cycle⟩) :
    Following next cause d (fun n => S n ∨ n = i) (examineZone p.cfg.zone e₂) := by
  have hd : entry d.lkm.points i = some p := (h.stood i hi).symm.trans hp
  have one (m : Nat) (q : Point) (hm : m = i) (hq : entry d.lkm.points m = some q) : q = p :=
    Option.some.inj (hq.symm.trans (by rw [hm, hd]))
  have x := Examined.of_examineZone p.cfg.zone e₂
  have hpoints : (examineZone p.cfg.zone e₂).lkm.points =
      e.lkm.points.set i (some { p with state := (next p).1, count := (next p).2 }) := x.points.trans g.points
  have hcycle : (examineZone p.cfg.zone e₂).slc.cycle = e.slc.cycle := x.cycle.trans g.cycle
  have hover : OverflowUp e (examineZone p.cfg.zone e₂) := Nat.le_trans (by exact g.overflow) x.overflow
  have hholds (r : EventRecord) (hr : e.holdsEvent r) : (examineZone p.cfg.zone e₂).holdsEvent r :=
    x.holds r (g.holds r hr)
  exact
  { valid := fun m hm => hm.elim (h.valid m) fun hm => ⟨p, by rw [hm, hd]⟩
    moved := fun m q hm hq => by
      rw [hpoints]
      rcases hm with hm | rfl
      · have hmi : m ≠ i := fun he => hi (he ▸ hm)
        exact (entry_set_ne _ _ hmi).trans (h.moved m q hm hq)
      · rw [one m q rfl hq]
        exact entry_set_same hp
    stood := fun m hm => by
      rw [hpoints]
      have hmi : m ≠ i := fun he => hm (.inr he)
      exact (entry_set_ne _ _ hmi).trans (h.stood m fun hs => hm (.inl hs))
    cfgs := (x.cfgs.trans g.cfgs).trans h.cfgs
    overflow := Nat.le_trans h.overflow hover
    holds := fun r hr => hholds r (h.holds r hr)
    faulted := fun hn m q hm hq hfault hstate => by
      rw [hcycle]
      obtain ⟨h1, h2⟩ := hn.split h.overflow hover
      rcases hm with hm | hm
      · exact hholds _ (h.faulted h1 m q hm hq hfault hstate)
      · rw [one m q hm hq] at hfault hstate ⊢
        rw [hm]
        exact x.holds _ (hf hfault hstate (h2.split (b := e₂) (by exact g.overflow) x.overflow).1)
    zones := fun z hz => by
      have hzne : z ≠ p.cfg.zone := fun he => hne (hz i p (.inr rfl) hd he.symm)
      exact ((x.zones z hzne).trans (zone_of_zones g.zones z)).trans (h.zones z fun m q hm => hz m q (.inl hm))
    table := fun ht => absurd (ht i p (.inr rfl) hd) hne
    examined := fun m q hm hq hstate hothers => by
      rw [hpoints] at hothers ⊢
      rw [hcycle]
      rcases hm with hm | hm
      · have hmi : m ≠ i := fun he => hi (he ▸ hm)
        have := hothers i hmi.symm
        rw [hd, entry_set_same hp] at this
        exact absurd (congrArg Point.state (Option.some.inj this)) hne
      · rw [one m q hm hq]
        have hzones : e.lkm.zones = d.lkm.zones := h.table fun n y hn hy => by
          have hni : n ≠ i := fun he => hi (he ▸ hn)
          have := hothers n (by rw [hm]; exact hni)
          rw [entry_set_ne _ _ hni, h.moved n y hn hy, hy] at this
          exact congrArg Point.state (Option.some.inj this)
        have w : Watches d { d with slc.cycle := e.slc.cycle
                                    lkm.points := e.lkm.points.set i (some { p with
                                      state := (next p).1, count := (next p).2 }) } (pointPut i p (next p) e) :=
          ⟨⟨hzones, rfl, rfl, h.cfgs⟩, h.overflow, fun _ r _ hr => h.holds r hr⟩
        exact (w.right g).examineZone p.cfg.zone }

/-- Point `i` moves. -/
theorem setPoint {i : Nat} {p : Point} {c : PointCause} (h : Following next cause d S e) (hi : ¬ S i)
    (hp : entry e.lkm.points i = some p) (hc : (next p).1 = .fault → p.state ≠ .fault → c = cause p) :
    Following next cause d (fun n => S n ∨ n = i) (setPoint i p (next p).1 (next p).2 c e) := by
  by_cases hsame : (next p).1 = p.state
  · rw [setPoint_same hsame]
    exact h.keep hi hp hsame
  · obtain ⟨e₂, g, heq, hf⟩ := setPoint_moves (i := i) hsame c e
    rw [heq]
    refine h.change hi hp hsame g fun hfault hstate hn => ?_
    rw [← hc hfault hstate]
    exact hf hfault hn

/-! ## The points of one channel -/

/-- Point `i` is valid and names a node and a slot. -/
def names (d : Part) (node slot i : Nat) : Prop :=
  ∃ p, entry d.lkm.points i = some p ∧ p.cfg.node = node ∧ p.cfg.slot = slot

/-- The points that name a node and a slot move, where none of them has moved before. -/
theorem forPoints {node slot : Nat} {f : Nat → Point → Part → Part} {c : Point → PointCause}
    (h : Following next cause d S e) (hdis : ∀ i, names d node slot i → ¬ S i)
    (hf : ∀ i p e, f i p e = Machine.setPoint i p (next p).1 (next p).2 (c p) e)
    (hc : ∀ p, (next p).1 = .fault → p.state ≠ .fault → c p = cause p) :
    Following next cause d (fun n => S n ∨ n < 16 ∧ names d node slot n) (forPoints node slot f e) := by
  unfold Machine.forPoints
  generalize 16 = m
  induction m with
  | zero => exact h.of_iff fun n => by simp
  | succ m ih =>
    rw [List.range_succ, List.foldl_append, List.foldl_cons, List.foldl_nil]
    generalize (List.range m).foldl _ e = a at ih ⊢
    have fresh (hn : names d node slot m) : ¬ (S m ∨ m < m ∧ names d node slot m) := by
      rintro (hs | hlt)
      · exact hdis m hn hs
      · exact lt_irrefl m hlt.1
    have stays (hn : ¬ names d node slot m) (n : Nat) :
        (S n ∨ n < m + 1 ∧ names d node slot n) ↔ (S n ∨ n < m ∧ names d node slot n) := by
      constructor
      · rintro (hs | ⟨hlt, hnn⟩)
        · exact .inl hs
        · have hne : n ≠ m := fun he => hn (he ▸ hnn)
          exact .inr ⟨by omega, hnn⟩
      · rintro (hs | ⟨hlt, hnn⟩)
        · exact .inl hs
        · exact .inr ⟨by omega, hnn⟩
    have grows (hn : names d node slot m) (n : Nat) : (S n ∨ n < m + 1 ∧ names d node slot n) ↔
        ((S n ∨ n < m ∧ names d node slot n) ∨ n = m) := by
      constructor
      · rintro (hs | ⟨hlt, hnn⟩)
        · exact .inl (.inl hs)
        · by_cases he : n = m
          · exact .inr he
          · exact .inl (.inr ⟨by omega, hnn⟩)
      · rintro ((hs | ⟨hlt, hnn⟩) | he)
        · exact .inl hs
        · exact .inr ⟨by omega, hnn⟩
        · exact .inr ⟨by omega, he ▸ hn⟩
    have named (hn : names d node slot m) : entry a.lkm.points m = entry d.lkm.points m := ih.stood m (fresh hn)
    have reads (p : Point) (hp : entry a.lkm.points m = some p) :
        names d node slot m ↔ p.cfg.node = node ∧ p.cfg.slot = slot := by
      constructor
      · rintro ⟨q, hq, hnq⟩
        rw [named ⟨q, hq, hnq⟩, hq] at hp
        exact Option.some.inj hp ▸ hnq
      · intro hnp
        by_cases hs : S m ∨ m < m ∧ names d node slot m
        · obtain ⟨q, hq⟩ := ih.valid m hs
          have hm := ih.moved m q hs hq
          rw [hp] at hm
          rw [Option.some.inj hm] at hnp
          exact ⟨q, hq, hnp⟩
        · exact ⟨p, (ih.stood m hs).symm.trans hp, hnp⟩
    rcases hp : entry a.lkm.points m with _ | p
    · refine ih.of_iff (stays fun hn => ?_)
      rw [named hn] at hp
      obtain ⟨q, hq, -⟩ := hn
      rw [hp] at hq
      cases hq
    · simp only
      by_cases hn : p.cfg.node = node ∧ p.cfg.slot = slot
      · have hm := (reads p hp).mpr hn
        rw [if_pos hn, hf]
        exact (ih.setPoint (fresh hm) hp (hc p)).of_iff (grows hm)
      · rw [if_neg hn]
        exact ih.of_iff (stays fun hm => hn ((reads p hp).mp hm))

/-- What is left to see at the end of the command. -/
theorem pointsFollow {hit : Point → Prop}
    (h : Following next cause d (fun i => i < 16 ∧ ∃ p, entry d.lkm.points i = some p ∧ hit p) e) :
    PointsFollow hit next cause d e where
  moved i p hi hp hh := h.moved i p ⟨hi, p, hp, hh⟩ hp
  stood i p hp hh := (h.stood i fun ⟨_, q, hq, hhq⟩ => hh (Option.some.inj (hp.symm.trans hq) ▸ hhq)).trans hp
  empty i hp := (h.stood i fun ⟨_, q, hq, _⟩ => by rw [hp] at hq; cases hq).trans hp
  faulted hn i p hi hp hh hf hs := h.faulted hn i p ⟨hi, p, hp, hh⟩ hp hf hs
  examined i p hi hp hh hne hothers := by
    have w := h.examined i p ⟨hi, p, hp, hh⟩ hp hne hothers
    exact ⟨w.zones, fun hn r hr hk => w.posted hn r hk (mem_posted.mp hr)⟩
  zones z hz := h.zones z fun i p hs hp hpz => by
    obtain ⟨hi, q, hq, hhq⟩ := hs
    exact hz i p hi hp (Option.some.inj (hq.symm.trans hp) ▸ hhq) hpz

end Following

end Sys2Proof.Machine

/-! PROOFS. The debounce of a leak point (R138, R139): runs of samples of one sort. -/

namespace Sys2Proof.Machine

-- One proof after another: proofs that are checked side by side take a thread each.
set_option Elab.async false

/-- The point after a sample sorted as `k`. -/
def Point.sampled (k : PointSort) (p : Point) : Point :=
  { p with state := (movePoint p k).1, count := (movePoint p k).2 }

/-- The point after `n` samples sorted as `k`. -/
def Point.run (k : PointSort) (n : Nat) (p : Point) : Point :=
  (List.range n).foldl (fun x _ => x.sampled k) p

theorem run_succ (k : PointSort) (n : Nat) (p : Point) : p.run k (n + 1) = (p.run k n).sampled k := by
  unfold Point.run
  rw [List.range_succ, List.foldl_append, List.foldl_cons, List.foldl_nil]

theorem run_zero (k : PointSort) (p : Point) : p.run k 0 = p := rfl

/-- The point in a state that counts a run of `n`. -/
def Point.counting (p : Point) (s : PointState) (n : Nat) : Point := { p with state := s, count := n }

theorem debounced_below {c : PointCfg} {n : Nat} {s t : PointState} (h : n < c.debounce) :
    debounced c n s t = (s, n) := if_neg h.ne

theorem debounced_reached {c : PointCfg} {n : Nat} {s t : PointState} (h : n = c.debounce) :
    debounced c n s t = (t, 0) := if_pos h

section
variable {p : Point} {k : PointSort} {pending t : PointState} (hd : 1 ≤ p.cfg.debounce)
  (hfirst : movePoint p k = debounced p.cfg 1 pending t)
  (hnext : ∀ n, movePoint (p.counting pending n) k = debounced p.cfg (n + 1) pending t)
include hfirst hnext

/-- A run shorter than `debounce` is counted in the pending state. -/
theorem run_below (n : Nat) (hpos : 0 < n) (hn : n < p.cfg.debounce) : p.run k n = p.counting pending n := by
  obtain ⟨m, rfl⟩ : ∃ m, n = m + 1 := ⟨n - 1, by omega⟩
  clear hpos
  induction m with
  | zero =>
    rw [run_succ, run_zero]
    unfold Point.sampled
    rw [hfirst, debounced_below hn]
    rfl
  | succ m ih =>
    rw [run_succ, ih (by omega)]
    unfold Point.sampled
    rw [hnext, debounced_below hn]
    rfl

include hd

/-- A run of `debounce` samples settles the point. -/
theorem run_reached : (p.run k p.cfg.debounce).state = t ∧ (p.run k p.cfg.debounce).count = 0 := by
  obtain ⟨m, hm⟩ : ∃ m, p.cfg.debounce = m + 1 := ⟨p.cfg.debounce - 1, by omega⟩
  rw [hm, run_succ]
  unfold Point.sampled
  rcases Nat.eq_zero_or_pos m with rfl | hpos
  · rw [run_zero, hfirst, debounced_reached hm.symm]
    exact ⟨rfl, rfl⟩
  · rw [run_below hfirst hnext m hpos (by omega), hnext, debounced_reached hm.symm]
    exact ⟨rfl, rfl⟩

end

/-! ## The moves, state by state -/

/-- The samples that settle a point, and where. -/
theorem movePoint_counting {k : PointSort} {t s : PointState} (hk : (k, t) = (.dry, .dry) ∨ (k, t) = (.wet, .wet))
    (hs : s = .unseen ∨ s = .fault) (p : Point) (n : Nat) :
    movePoint (p.counting s n) k = debounced p.cfg (n + 1) s t := by
  rcases hk with hk | hk <;> obtain ⟨rfl, rfl⟩ := Prod.mk.inj hk <;> rcases hs with rfl | rfl <;> rfl

theorem movePoint_wetPending (p : Point) (n : Nat) :
    movePoint (p.counting .wetPending n) .wet = debounced p.cfg (n + 1) .wetPending .wet := rfl

theorem movePoint_dryPending (p : Point) (n : Nat) :
    movePoint (p.counting .dryPending n) .dry = debounced p.cfg (n + 1) .dryPending .dry := rfl

theorem counting_self {p : Point} (h : p.count = 0) : p.counting p.state 0 = p := by
  unfold Point.counting
  rw [← h]

/-- The first clause of O37: a run settles a point with the sample that makes it `debounce` long, and not before. -/
theorem point_debounces {p : Point} (hd : 1 ≤ p.cfg.debounce) :
    (∀ k t, (k, t) ∈ [(PointSort.dry, PointState.dry), (.wet, .wet)] →
      (p.state = .unseen ∨ p.state = .fault → p.count = 0 →
        (∀ n, n < p.cfg.debounce → ((p.run k n).state, (p.run k n).count) = (p.state, n)) ∧
        ((p.run k p.cfg.debounce).state, (p.run k p.cfg.debounce).count) = (t, 0)) ∧
      (p.state = t → movePoint p k = (t, 0))) ∧
    (p.state = .dry → p.count = 0 →
      (∀ n, 0 < n → n < p.cfg.debounce → ((p.run .wet n).state, (p.run .wet n).count) = (.wetPending, n)) ∧
      ((p.run .wet p.cfg.debounce).state, (p.run .wet p.cfg.debounce).count) = (.wet, 0)) ∧
    (p.state = .wet → p.count = 0 →
      (∀ n, 0 < n → n < p.cfg.debounce → ((p.run .dry n).state, (p.run .dry n).count) = (.dryPending, n)) ∧
      ((p.run .dry p.cfg.debounce).state, (p.run .dry p.cfg.debounce).count) = (.dry, 0)) := by
  have pair {x : Point} {s : PointState} (h : x.state = s ∧ x.count = 0) : (x.state, x.count) = (s, 0) := by
    rw [h.1, h.2]
  refine ⟨fun k t hk => ⟨fun hs hc => ?_, fun hs => ?_⟩, fun hs _ => ?_, fun hs _ => ?_⟩
  · have hk' : (k, t) = (.dry, .dry) ∨ (k, t) = (.wet, .wet) := by simpa using hk
    have hnext := movePoint_counting hk' hs p
    have hfirst : movePoint p k = debounced p.cfg 1 p.state t := by
      have := hnext 0
      rwa [counting_self hc] at this
    refine ⟨fun n hn => ?_, pair (run_reached hd hfirst hnext)⟩
    rcases Nat.eq_zero_or_pos n with rfl | hpos
    · rw [run_zero, hc]
    · rw [run_below hfirst hnext n hpos hn]
      rfl
  · have hk' : (k, t) = (.dry, .dry) ∨ (k, t) = (.wet, .wet) := by simpa using hk
    rcases hk' with hk' | hk' <;> obtain ⟨rfl, rfl⟩ := Prod.mk.inj hk' <;> simp only [movePoint, hs]
  · have hfirst : movePoint p .wet = debounced p.cfg 1 .wetPending .wet := by simp only [movePoint, hs]
    refine ⟨fun n hpos hn => ?_, pair (run_reached hd hfirst (movePoint_wetPending p))⟩
    rw [run_below hfirst (movePoint_wetPending p) n hpos hn]
    rfl
  · have hfirst : movePoint p .dry = debounced p.cfg 1 .dryPending .dry := by simp only [movePoint, hs]
    refine ⟨fun n hpos hn => ?_, pair (run_reached hd hfirst (movePoint_dryPending p))⟩
    rw [run_below hfirst (movePoint_dryPending p) n hpos hn]
    rfl

end Sys2Proof.Machine

/-! PROOFS. What leaves the leak zones and points alone, and the cell that brings a level (R136, R138 to R140). -/

namespace Sys2Proof.Machine

-- One proof after another: proofs that are checked side by side take a thread each.
set_option Elab.async false

/-! ## What leaves zones and points -/

namespace Neutral
variable {d d' : Part}

theorem of_eq (hl : d'.lkm = d.lkm) (hc : d'.slc.cycle = d.slc.cycle) (hb : d'.bcu = d.bcu) (hr : d'.rlp = d.rlp) :
    Neutral d d' :=
  ⟨⟨by rw [hl], by rw [hl], hc, by rw [hb]⟩, (congrArg Rlp.eventOverflow hr).ge,
    fun r h => (holdsEvent_of_rlp hr r).mpr h⟩

theorem deriveModules (d : Part) : Neutral d (deriveModules d) :=
  of_frame (deriveModules_sourced d).toFrame (deriveModules_sourced d).lkm (overflowUp_built.deriveModules d)

theorem setFreshness (n : Nat) (v : Bool) (d : Part) : Neutral d (setFreshness n v d) :=
  of_frame (setFreshness_kept n v d).toFrame (setFreshness_kept n v d).lkm (overflowUp_built.setFreshness n v d)

theorem putChannel (k : Nat) (x : ChannelState) (d : Part) : Neutral d (putChannel k x d) := of_eq rfl rfl rfl rfl

theorem postClass (k n : Nat) (o c : ChanClass) (d : Part) : Neutral d (postClass k n o c d) :=
  of_frame (postClass_settled k n o c d).toFrame (postClass_settled k n o c d).lkm (postClass_overflow k n o c d)

theorem takeTrip (a : TripAction) (n : Nat) (d : Part) : Neutral d (takeTrip a n d) :=
  of_frame (takeTrip_kept a n d).toFrame (takeTrip_kept a n d).lkm (overflowUp_built.takeTrip a n d)

/-- A class is handed to a block other than the LKM. -/
theorem handClass {kind : ChannelKind} (h : kind ≠ .lkLevel) (k n : Nat) (c : ChanClass) (d : Part) :
    Neutral d (handClass k n kind c d) := by
  unfold Machine.handClass
  split
  · exact .refl d
  · exact .refl d
  · exact .setFreshness _ _ d
  · exact absurd rfl h
  · exact .deriveModules d

theorem forward (r : SampleRecord) (d : Part) : Neutral d (forward r d) :=
  of_frame (forward_frame r d) (forward_uplinked r d).lkm (forward_overflow r d).ge

theorem complete (h : ∀ node, d.rlp.phase ≠ .passing node) : Neutral d (complete d) := by
  have hd := complete_delivered h
  have hup : OverflowUp d (Machine.complete d) := by
    rw [complete_calm d h]
    exact overflowUp_built.settleAll overflowUp_sqe d
  exact ⟨⟨by rw [hd.lkm], by rw [hd.lkm], hd.cycle, hd.cfgs⟩, hup, hd.holds⟩

theorem hearNode (n : Nat) (d : Part) : Neutral d (hearNode n d) := by
  have heard : Neutral d (heardNode n d) := of_eq rfl rfl rfl rfl
  unfold Machine.hearNode
  simp only
  split
  · exact heard
  · exact heard.trans (.deriveModules _)
  · exact heard.trans ((Neutral.post _ _ _ _).trans (.deriveModules _))

theorem noteSatisfied (k : Nat) (w : Sample) (d : Part) : Neutral d (noteSatisfied k w d) := by
  obtain ⟨l, hl⟩ := noteSatisfied_eq k w d
  rw [hl]
  exact of_eq rfl rfl rfl rfl

theorem readEcho (k node : Nat) (kind : ChannelKind) (e : BitVec 2) (d : Part) :
    Neutral d (readEcho k node kind e d) := by
  have he := (readEcho_echoed k node kind e d).eq
  generalize Machine.readEcho k node kind e d = f at he ⊢
  rw [he]
  exact of_eq rfl rfl rfl rfl

theorem acted (k node : Nat) (p : Params) (x : ChannelState) (kind : ChannelKind) (v : Int) (d : Part) :
    Neutral d (acted k node p x kind v d) := by
  have whenever (c : Prop) [Decidable c] {a b e : Part} (h : Neutral a b) (g : Neutral b e) :
      Neutral a (if c then e else b) := by
    split
    · exact h.trans g
    · exact h
  have hstored : Neutral d (stored k (sampled p x v d) (isForwarded p x v d)
      ⟨node, kind, v, (classify p x v).1.cls, d.slc.cycle⟩ d) :=
    whenever _ (.putChannel _ _ d) (.forward _ _)
  exact whenever _ (whenever _ hstored (.postClass _ _ _ _ _)) (.takeTrip _ _ _)

end Neutral

/-! ## A sample of an LK_LEVEL channel -/

theorem rawClass_shown (e : Option LimitEntry) (c : ChanClass) (v : Int) :
    rawClass e c v ≠ .stale ∧ rawClass e c v ≠ .unseen := by
  unfold rawClass
  repeat' split
  all_goals decide

/-- A sample that changes the class of a channel leaves it neither STALE nor UNSEEN. -/
theorem classify_shown {p : Params} {x : ChannelState} {v : Int} (h : (classify p x v).2 = true) :
    (classify p x v).1.cls ≠ .stale ∧ (classify p x v).1.cls ≠ .unseen := by
  have hraw := rawClass_shown p.limits x.cls v
  unfold classify at h ⊢
  simp only at h ⊢
  repeat' split
  all_goals simp_all

theorem handClass_level {k n : Nat} {c : ChanClass} (h : c ≠ .stale ∧ c ≠ .unseen) (d : Part) :
    handClass k n .lkLevel c d = d := by
  cases c
  case stale => exact absurd rfl h.1
  case unseen => exact absurd rfl h.2
  all_goals rfl

theorem handSample_level {k n : Nat} {p : Params} {x : ChannelState} {v : Int} (d : Part) :
    handSample k n .lkLevel (classify p x v).1.cls (classify p x v).2 d = d := by
  unfold handSample
  split
  · rename_i h
    exact handClass_level (classify_shown (by simpa [ChannelKind.isModule] using h)) d
  · rfl

theorem channelSample_level (k node : Nat) (limit : Option Nat) (w : Sample) (d : Part) :
    Neutral d (channelSample k node .lkLevel limit w d) := by
  cases w with
  | good v =>
    show Neutral d (goodSample k node .lkLevel limit v d)
    rcases hx : entry d.tlf.channels k with _ | x
    · have hd : goodSample k node .lkLevel limit v d = d := by
        unfold goodSample
        rw [hx]
      rw [hd]
      exact .refl d
    · rw [goodSample_eq hx, handSample_level]
      exact .acted _ _ _ _ _ _ d
  | invalid => exact .refl d
  | sensorFault => exact .refl d

/-- The cause of an entry into FAULT by a sample of quality `q`. -/
def levelCause (q : Quality) : PointCause := if q = .sensorFault then .sensor else .level

theorem debounced_not_fault {c : PointCfg} {n : Nat} {s t : PointState} (hs : s ≠ .fault) (ht : t ≠ .fault) :
    (debounced c n s t).1 ≠ .fault := by
  unfold debounced
  split
  · exact ht
  · exact hs

/-- Only a faulting sample takes a point into FAULT. -/
theorem movePoint_faults {p : Point} {k : PointSort} (h : (movePoint p k).1 = .fault) (hs : p.state ≠ .fault) :
    ∃ c, k = .faulting c := by
  cases k with
  | faulting c => exact ⟨c, rfl⟩
  | ignored => exact absurd h hs
  | dry =>
    unfold movePoint at h
    rcases hp : p.state <;> simp only [hp] at h <;> first
      | cases h
      | exact absurd hp hs
      | exact absurd h (debounced_not_fault (by decide) (by decide))
  | wet =>
    unfold movePoint at h
    rcases hp : p.state <;> simp only [hp] at h <;> first
      | cases h
      | exact absurd hp hs
      | exact absurd h (debounced_not_fault (by decide) (by decide))

theorem sortSample_cause {c : PointCfg} {q : Quality} {v : Word} {x : PointCause}
    (h : sortSample c (sampleOf .lkLevel q v) = .faulting x) : x = levelCause q := by
  unfold sampleOf at h
  split at h
  · cases h
  · unfold sortSample at h
    simp only at h
    repeat' split at h
    · cases h
    · cases h
    · cases h
      rfl
  · cases h
  · cases h
    rfl

theorem deliverSample_level (k node : Nat) (x : Sample) (d : Part) :
    deliverSample k node .lkLevel x d = levelSample node k x d := by
  cases x <;> rfl

/-- How a sample moves a point. -/
def levelMove (q : Quality) (v : Word) (p : Point) : PointState × Nat :=
  movePoint p (sortSample p.cfg (sampleOf .lkLevel q v))

theorem Following.levelSample {S : Nat → Prop} {d e : Part} {q : Quality} {v : Word} {node slot : Nat}
    (h : Following (levelMove q v) (fun _ => levelCause q) d S e) (hdis : ∀ i, names d node slot i → ¬ S i) :
    Following (levelMove q v) (fun _ => levelCause q) d (fun n => S n ∨ n < 16 ∧ names d node slot n)
      (levelSample node slot (sampleOf .lkLevel q v) e) := by
  refine h.forPoints (c := fun p => (sortSample p.cfg (sampleOf .lkLevel q v)).cause) hdis (fun _ _ _ => rfl)
    fun p hf hs => ?_
  obtain ⟨x, hx⟩ := movePoint_faults hf hs
  rw [hx]
  exact sortSample_cause hx

/-- An accepted cell of an LK_LEVEL channel moves the points that name its node and its slot (R138 to R140). -/
theorem acceptCell_points (k node : Nat) (limit : Option Nat) (q : Quality) (c : InCell) (d : Part) :
    Following (levelMove q c.value) (fun _ => levelCause q) d (fun i => i < 16 ∧ Following.names d node k i)
      (acceptCell k node .lkLevel limit q c d) := by
  have hstart : Following (levelMove q c.value) (fun _ => levelCause q) d (fun _ => False) d :=
    .start ⟨rfl, rfl⟩ rfl (Nat.le_refl _) fun _ h => h
  have hheard := hstart.right (((Neutral.hearNode node d).trans
    (.noteSatisfied k (sampleOf .lkLevel q c.value) _)).trans
    (channelSample_level k node limit (sampleOf .lkLevel q c.value) _))
  unfold acceptCell
  simp only [deliverSample_level]
  exact ((hheard.levelSample fun _ _ => id).of_iff fun n => by simp).right (.readEcho k node .lkLevel (cellEcho c) _)

end Sys2Proof.Machine

/-! PROOFS. The commands that move leak points by slots: the cycle end, the cycle start and a Limit Table record (R5, R25,
R33, R140). -/

namespace Sys2Proof.Machine

-- One proof after another: proofs that are checked side by side take a thread each.
set_option Elab.async false

namespace Following
variable {next : Point → PointState × Nat} {cause : Point → PointCause} {d e : Part} {S : Nat → Prop}
  {hit : Point → Prop}

/-- The valid points that `hit` names whose slots are below `m`. -/
def below (d : Part) (hit : Point → Prop) (m i : Nat) : Prop :=
  i < 16 ∧ ∃ p, entry d.lkm.points i = some p ∧ p.cfg.slot < m ∧ hit p

/-- The valid points that `hit` names whose slot is `m`. -/
def inSlot (d : Part) (hit : Point → Prop) (m i : Nat) : Prop :=
  i < 16 ∧ ∃ p, entry d.lkm.points i = some p ∧ p.cfg.slot = m ∧ hit p

theorem below_succ (m i : Nat) : below d hit (m + 1) i ↔ below d hit m i ∨ inSlot d hit m i := by
  constructor
  · rintro ⟨hi, p, hp, hlt, hh⟩
    rcases Nat.lt_succ_iff_lt_or_eq.mp hlt with hlt | heq
    · exact .inl ⟨hi, p, hp, hlt, hh⟩
    · exact .inr ⟨hi, p, hp, heq, hh⟩
  · rintro (⟨hi, p, hp, hlt, hh⟩ | ⟨hi, p, hp, heq, hh⟩)
    · exact ⟨hi, p, hp, by omega, hh⟩
    · exact ⟨hi, p, hp, by omega, hh⟩

/-- Where the step of each slot moves the points of that slot, the steps of the first slots move theirs. -/
theorem foldl {f : Nat → Part → Part} {e₀ : Part} (h : Following next cause d (fun _ => False) e₀) (n : Nat)
    (hf : ∀ m, m < n → Following next cause d (below d hit m) ((List.range m).foldl (fun e k => f k e) e₀) →
      Following next cause d (fun i => below d hit m i ∨ inSlot d hit m i)
        (f m ((List.range m).foldl (fun e k => f k e) e₀))) :
    Following next cause d (below d hit n) ((List.range n).foldl (fun e k => f k e) e₀) := by
  induction n with
  | zero => exact h.of_iff fun _ => ⟨fun ⟨_, _, _, hlt, _⟩ => absurd hlt (Nat.not_lt_zero _), False.elim⟩
  | succ n ih =>
    rw [List.range_succ, List.foldl_append, List.foldl_cons, List.foldl_nil]
    exact (hf n (Nat.lt_succ_self n) (ih fun m hm => hf m (by omega))).of_iff (below_succ n)

/-- The points of a channel move, where `hit` names them all and no other point of the slot. -/
theorem channel {m node : Nat} {f : Nat → Point → Part → Part} {c : Point → PointCause}
    (h : Following next cause d (below d hit m) e) (hh : ∀ p, p.cfg.slot = m → (hit p ↔ p.cfg.node = node))
    (hf : ∀ i p e, f i p e = Machine.setPoint i p (next p).1 (next p).2 (c p) e)
    (hc : ∀ p, (next p).1 = .fault → p.state ≠ .fault → c p = cause p) :
    Following next cause d (fun i => below d hit m i ∨ inSlot d hit m i) (Machine.forPoints node m f e) := by
  refine (h.forPoints (node := node) (slot := m) (fun i hi hb => ?_) hf hc).of_iff fun i => ?_
  · obtain ⟨p, hp, -, hslot⟩ := hi
    obtain ⟨-, q, hq, hlt, -⟩ := hb
    rw [Option.some.inj (hq.symm.trans hp)] at hlt
    omega
  · refine or_congr_right (and_congr_right fun _ => exists_congr fun p => and_congr_right fun _ => ?_)
    constructor
    · rintro ⟨hs, hp⟩
      exact ⟨(hh p hs).mp hp, hs⟩
    · rintro ⟨hn, hs⟩
      exact ⟨hs, (hh p hs).mpr hn⟩

/-- No point of the slot is hit, and what happens leaves zones and points. -/
theorem idle {e' : Part} {m : Nat} (h : Following next cause d (below d hit m) e) (g : Neutral e e')
    (hh : ∀ p, p.cfg.slot = m → ¬ hit p) : Following next cause d (fun i => below d hit m i ∨ inSlot d hit m i) e' :=
  (h.right g).of_iff fun _ => ⟨fun hi => hi.resolve_right fun ⟨_, p, _, hs, hp⟩ => hh p hs hp, .inl⟩

theorem pointsStale {m node : Nat} (h : Following (fun _ => (.fault, 0)) (fun _ => .stale) d (below d hit m) e)
    (hh : ∀ p, p.cfg.slot = m → (hit p ↔ p.cfg.node = node)) :
    Following (fun _ => (.fault, 0)) (fun _ => .stale) d (fun i => below d hit m i ∨ inSlot d hit m i)
      (pointsStale node m e) :=
  h.channel (c := fun _ => .stale) hh (fun _ _ _ => rfl) fun _ _ _ => rfl

theorem pointsUnseen {m node : Nat} (h : Following (fun _ => (.unseen, 0)) (fun _ => .stale) d (below d hit m) e)
    (hh : ∀ p, p.cfg.slot = m → (hit p ↔ p.cfg.node = node)) :
    Following (fun _ => (.unseen, 0)) (fun _ => .stale) d (fun i => below d hit m i ∨ inSlot d hit m i)
      (pointsUnseen node m e) :=
  h.channel (c := fun _ => .stale) hh (fun _ _ _ => rfl) fun _ _ _ => rfl

end Following

theorem handClass_stale (k n : Nat) (d : Part) : handClass k n .lkLevel .stale d = pointsStale n k d := rfl

theorem handClass_unseen (k n : Nat) (d : Part) : handClass k n .lkLevel .unseen d = pointsUnseen n k d := rfl

/-! ## The cycle end -/

/-- The channel of the point becomes STALE at this cycle end. -/
def stales (d : Part) (p : Point) : Prop := p.cfg.slot ∉ d.slc.satisfied ∧ ∃ limit x,
  entry d.slc.active p.cfg.slot = some (.input p.cfg.node .lkLevel limit) ∧
  entry d.tlf.channels p.cfg.slot = some x ∧ x.cls ≠ .unseen ∧ x.cls ≠ .stale ∧
  (paramsOf d .lkLevel limit).staleLimit ≤ satInc x.miss

/-- The notice of slot `m`: the points of an LK_LEVEL channel that becomes STALE enter FAULT. -/
theorem noticeSlot_points {d e : Part} {m : Nat} (h : Following (fun _ => (.fault, 0)) (fun _ => .stale) d
      (Following.below d (stales d) m) e) (ha : entry e.slc.active m = entry d.slc.active m)
    (hs : e.slc.satisfied = d.slc.satisfied) (hl : e.tlf.limits = d.tlf.limits)
    (hx : entry e.tlf.channels m = entry d.tlf.channels m) : Following (fun _ => (.fault, 0)) (fun _ => .stale) d
      (fun i => Following.below d (stales d) m i ∨ Following.inSlot d (stales d) m i) (noticeSlot m e) := by
  unfold noticeSlot
  rw [ha, hs]
  split
  · rename_i node kind limit he
    split
    · rename_i hsat
      exact h.idle (.refl e) fun p hm ⟨hn, _⟩ => hn (by rw [hm]; exact hsat)
    · rename_i hsat
      have hits (p : Point) (hm : p.cfg.slot = m) : stales d p ↔ ∃ x, kind = .lkLevel ∧ p.cfg.node = node ∧
          entry d.tlf.channels m = some x ∧ x.cls ≠ .unseen ∧ x.cls ≠ .stale ∧
          (paramsOf d kind limit).staleLimit ≤ satInc x.miss := by
        unfold stales
        rw [hm, he]
        constructor
        · rintro ⟨-, limit', x, heq, hrest⟩
          cases heq
          exact ⟨x, rfl, rfl, hrest⟩
        · rintro ⟨x, rfl, rfl, hrest⟩
          exact ⟨hsat, limit, x, rfl, hrest⟩
      rcases hc : entry d.tlf.channels m with _ | x
      · have hd : missNotice m node kind limit e = e := by
          unfold missNotice
          rw [hx, hc]
        rw [hd]
        refine h.idle (.refl e) fun p hm hp => ?_
        obtain ⟨x, -, -, hcx, -⟩ := (hits p hm).mp hp
        rw [hc] at hcx
        cases hcx
      · have hxe := hx.trans hc
        by_cases hst : x.cls ≠ .unseen ∧ x.cls ≠ .stale ∧ (paramsOf d kind limit).staleLimit ≤ satInc x.miss
        · rw [missNotice_stales hxe (by rw [paramsOf_of_limits hl]; exact hst)]
          have hput : Neutral e (postClass m node x.cls .stale (putChannel m x.staled e)) :=
            (Neutral.putChannel m x.staled e).trans (.postClass _ _ _ _ _)
          by_cases hk : kind = .lkLevel
          · subst hk
            rw [handClass_stale]
            refine (h.right hput).pointsStale fun p hm => ?_
            rw [hits p hm]
            exact ⟨fun ⟨_, _, hn, _⟩ => hn, fun hn => ⟨x, rfl, hn, hc, hst⟩⟩
          · refine h.idle (hput.trans (.handClass hk m node .stale _)) fun p hm hp => ?_
            obtain ⟨_, hkind, _⟩ := (hits p hm).mp hp
            exact hk hkind
        · rw [missNotice_counts hxe (by rw [paramsOf_of_limits hl]; exact hst)]
          refine h.idle (.putChannel m _ e) fun p hm hp => ?_
          obtain ⟨y, -, -, hcy, hy⟩ := (hits p hm).mp hp
          rw [Option.some.inj (hc.symm.trans hcy)] at hst
          exact hst hy
  · rename_i hne
    refine h.idle (.refl e) fun p hm ⟨_, limit, _, he, _⟩ => ?_
    rw [hm] at he
    exact hne _ _ _ he

/-- The first notices of a cycle end. -/
theorem notices_below (d : Part) (m : Nat) : LinkRests d ((List.range m).foldl (fun e k => noticeSlot k e) d) ∧
    ((List.range m).foldl (fun e k => noticeSlot k e) d).tlf.limits = d.tlf.limits ∧
    entry ((List.range m).foldl (fun e k => noticeSlot k e) d).tlf.channels m = entry d.tlf.channels m := by
  obtain ⟨⟨ho, hr⟩, hget⟩ := foldl_items (get := fun e n => entry e.tlf.channels n)
    (f := fun e k => noticeSlot k e) (P := fun e => Outer d e ∧ LinkRests d e) (φ := noticed d)
    (fun k e ⟨ho, hr⟩ => by
      obtain ⟨hr', _, hc⟩ := noticeSlot_link k e
      refine ⟨⟨ho.trans (noticeSlot_outer k e), hr.trans hr'⟩, fun n => ?_⟩
      rw [hc n, noticed_of hr ho.limits])
    ⟨.refl d, .refl d⟩ m
  exact ⟨hr, ho.limits, (hget m).trans (if_neg (Nat.lt_irrefl m))⟩

theorem testNode_neutral (i : Nat) (d : Part) : Neutral d (testNode (i + 1) d) := by
  rw [testNode_eq]
  split
  · exact Neutral.trans (b := silenced i d) (.of_eq rfl rfl rfl rfl) ((Neutral.post _ _ _ _).trans (.deriveModules _))
  · exact .refl d

theorem endCycle_points (d : Part) : Following (fun _ => (.fault, 0)) (fun _ => .stale) d
    (Following.below d (stales d) 96) (endCycle d) := by
  have hstart : Following (fun _ => (.fault, 0)) (fun _ => .stale) d (fun _ => False) d :=
    .start ⟨rfl, rfl⟩ rfl (Nat.le_refl _) fun _ h => h
  have hnotices := hstart.foldl (hit := stales d) (f := noticeSlot) 96 fun m _ h => by
    obtain ⟨hr, hl, hc⟩ := notices_below d m
    exact noticeSlot_points h (by rw [hr.active]) hr.satisfied hl hc
  rw [← forSlots_eq] at hnotices
  exact hnotices.right (.foldl (fun e i => testNode_neutral i e) _ _)

/-! ## The cycle start -/

/-- The slot of the point changes, and its channel ends or begins anew. -/
def restarts (d : Part) (p : Point) : Prop :=
  entry d.slc.written p.cfg.slot ≠ entry d.slc.active p.cfg.slot ∧
    ∃ limit, entry d.slc.active p.cfg.slot = some (.input p.cfg.node .lkLevel limit)

theorem changeSlot_points {d a e : Part} {m : Nat} (h : Following (fun _ => (.unseen, 0)) (fun _ => .stale) a
      (Following.below a (restarts d) m) e) : Following (fun _ => (.unseen, 0)) (fun _ => .stale) a
      (fun i => Following.below a (restarts d) m i ∨ Following.inSlot a (restarts d) m i)
      (changeSlot m (entry d.slc.active m) (entry d.slc.written m) e) := by
  unfold changeSlot
  split
  · rename_i heq
    exact h.idle (.refl e) fun p hm ⟨hne, _⟩ => hne (by rw [hm, heq])
  · rename_i hne
    have hset : Neutral e { e with
      tlf.channels := e.tlf.channels.set m (channelBegin (entry d.slc.written m))
      slc.out := e.slc.out.set m (outBegin (entry d.slc.written m)) } := .of_eq rfl rfl rfl rfl
    generalize ({ e with
      tlf.channels := e.tlf.channels.set m (channelBegin (entry d.slc.written m))
      slc.out := e.slc.out.set m (outBegin (entry d.slc.written m)) } : Part) = g at hset ⊢
    unfold endChannel
    split
    · rename_i node kind limit he
      have hits (p : Point) (hm : p.cfg.slot = m) : restarts d p ↔ kind = .lkLevel ∧ p.cfg.node = node := by
        unfold restarts
        rw [hm, he]
        constructor
        · rintro ⟨-, limit', heq⟩
          cases heq
          exact ⟨rfl, rfl⟩
        · rintro ⟨rfl, rfl⟩
          exact ⟨fun heq => hne (he.trans heq.symm), limit, rfl⟩
      split
      · exact h.idle (hset.trans (.setFreshness _ _ _)) fun p hm hp => by cases ((hits p hm).mp hp).1
      · refine (h.right hset).pointsUnseen fun p hm => ?_
        rw [hits p hm]
        exact and_iff_right rfl
      · rename_i hk
        exact h.idle hset fun p hm hp => hk ((hits p hm).mp hp).1
    · rename_i hno
      refine h.idle hset fun p hm ⟨_, limit, he⟩ => ?_
      rw [hm] at he
      exact hno _ _ _ he

theorem below_of_nothing {d a : Part} {hit : Point → Prop} (h : ∀ p, ¬ hit p) {m : Nat} {next : Point → PointState × Nat}
    {cause : Point → PointCause} (hf : Following next cause d (fun _ => False) a) :
    Following next cause d (Following.below d hit m) a :=
  hf.of_iff fun _ => ⟨fun ⟨_, p, _, _, hp⟩ => h p hp, False.elim⟩

theorem activate_points {d a : Part} (h : Following (fun _ => (.unseen, 0)) (fun _ => .stale) a (fun _ => False) d) :
    Following (fun _ => (.unseen, 0)) (fun _ => .stale) a (Following.below a (restarts d) 96) (activate d) := by
  unfold activate
  simp only
  split
  · rename_i heq
    exact below_of_nothing (fun p ⟨hne, _⟩ => hne (by rw [heq])) h
  · have hactive := h.right (e' := { d with slc := { d.slc with active := d.slc.written } }) (.of_eq rfl rfl rfl rfl)
    have hslots := hactive.foldl (hit := restarts d)
      (f := fun k => changeSlot k (entry d.slc.active k) (entry d.slc.written k)) 96
      fun m _ hm => changeSlot_points hm
    rw [← forSlots_eq (fun k => changeSlot k (entry d.slc.active k) (entry d.slc.written k))] at hslots
    exact hslots.right (.deriveModules _)

theorem treatments_neutral (d : Part) : Neutral d (forSlots treatOut d) := by
  obtain ⟨out, heq, -⟩ := treatments d
  rw [heq]
  exact .of_eq rfl rfl rfl rfl

theorem tick_cfgs (d : Part) :
    (tick d).bcu.branches.map (Option.map Branch.cfg) = d.bcu.branches.map (Option.map Branch.cfg) := by
  show (d.bcu.branches.map tickBranch).map _ = _
  rw [List.map_map]
  refine List.map_congr_left fun x _ => ?_
  rcases x with _ | x <;> rfl

theorem startCycle_points (d : Part) : Following (fun _ => (.unseen, 0)) (fun _ => .stale) d
    (Following.below d (restarts d) 96) (startCycle d) := by
  have hstart : Following (fun _ => (.unseen, 0)) (fun _ => .stale) d (fun _ => False) (cycleBegun d) :=
    .start ⟨rfl, rfl⟩ (tick_cfgs d) (Nat.le_refl _) fun _ h => h
  rw [startCycle_eq]
  exact (activate_points hstart).right (treatments_neutral _)

/-! ## A Limit Table record -/

/-- The channel of the point is restarted by a record of limit entry `n`. -/
def limitRestarts (d : Part) (n : Nat) (old new : Option LimitEntry) (p : Point) : Prop :=
  new.isSome ≠ old.isSome ∧ entry d.slc.active p.cfg.slot = some (.input p.cfg.node .lkLevel (some n))

theorem limitReaches_active (n : Nat) (old new : Option LimitEntry) (k : Nat) (d : Part) :
    (limitReaches n old new k d).slc.active = d.slc.active := by
  unfold limitReaches
  split
  · split
    · unfold limitChanged restartChannel
      repeat' split
      · rfl
      · rfl
      · exact (handClass_frame _ _ _ _ _).active
    · rfl
  · rfl

theorem limitReaches_points {d e : Part} {n m : Nat} {old new : Option LimitEntry}
    (h : Following (fun _ => (.unseen, 0)) (fun _ => .stale) d (Following.below d (limitRestarts d n old new) m) e)
    (ha : e.slc.active = d.slc.active) : Following (fun _ => (.unseen, 0)) (fun _ => .stale) d
      (fun i => Following.below d (limitRestarts d n old new) m i ∨ Following.inSlot d (limitRestarts d n old new) m i)
      (limitReaches n old new m e) := by
  unfold limitReaches
  rw [ha]
  split
  · rename_i node kind l he
    have hits (p : Point) (hm : p.cfg.slot = m) : limitRestarts d n old new p ↔
        new.isSome ≠ old.isSome ∧ kind = .lkLevel ∧ p.cfg.node = node ∧ l = n := by
      unfold limitRestarts
      rw [hm, he]
      constructor
      · rintro ⟨hne, heq⟩
        cases heq
        exact ⟨hne, rfl, rfl, rfl⟩
      · rintro ⟨hne, rfl, rfl, rfl⟩
        exact ⟨hne, rfl⟩
    split
    · rename_i hl
      unfold limitChanged
      split
      · rename_i hsome
        have hno (p : Point) (hm : p.cfg.slot = m) (hp : limitRestarts d n old new p) : False :=
          ((hits p hm).mp hp).1 hsome.symm
        split
        · exact h.idle (.putChannel _ _ e) hno
        · exact h.idle (.refl e) hno
      · rename_i hsome
        unfold restartChannel
        by_cases hk : kind = .lkLevel
        · subst hk
          rw [handClass_unseen]
          refine (h.right (.putChannel m .begin e)).pointsUnseen fun p hm => ?_
          rw [hits p hm]
          exact ⟨fun hp => hp.2.2.1, fun hn => ⟨fun hs => hsome hs.symm, rfl, hn, hl⟩⟩
        · exact h.idle ((Neutral.putChannel m .begin e).trans (.handClass hk m node .unseen _))
            fun p hm hp => hk ((hits p hm).mp hp).2.1
    · rename_i hl
      exact h.idle (.refl e) fun p hm hp => hl ((hits p hm).mp hp).2.2.2
  · rename_i hno
    refine h.idle (.refl e) fun p hm ⟨_, he⟩ => ?_
    rw [hm] at he
    exact hno _ _ _ he

/-- The part once a limit entry is stored. -/
def limitStored (n : Nat) (e : Option LimitEntry) (d : Part) : Part :=
  { d with tlf := { d.tlf with limits := d.tlf.limits.set n e } }

theorem writeLimit_same {d : Part} {n : Nat} {ws : List Word} (he : parseLimit ws = .ok (entry d.tlf.limits n)) :
    writeLimit n ws d = (d, .accepted) := by
  unfold writeLimit
  rw [he]
  exact if_pos rfl

theorem writeLimit_changes {d : Part} {n : Nat} {ws : List Word} {e : Option LimitEntry} (he : parseLimit ws = .ok e)
    (hne : e ≠ entry d.tlf.limits n) : writeLimit n ws d =
      (forSlots (limitReaches n (entry d.tlf.limits n) e) (limitStored n e d), .accepted) := by
  unfold writeLimit
  rw [he]
  exact if_neg hne

theorem writeLimit_part {d : Part} {n : Nat} {ws : List Word} {e : Option LimitEntry} (he : parseLimit ws = .ok e)
    (hne : e ≠ entry d.tlf.limits n) :
    (writeLimit n ws d).1 = forSlots (limitReaches n (entry d.tlf.limits n) e) (limitStored n e d) := by
  rw [writeLimit_changes he hne]

theorem writeLimit_points {d : Part} {n : Nat} {ws : List Word} {e : Option LimitEntry} (he : parseLimit ws = .ok e) :
    Following (fun _ => (.unseen, 0)) (fun _ => .stale) d
      (Following.below d (limitRestarts d n (entry d.tlf.limits n) e) 96) (writeLimit n ws d).1 := by
  have hstart : Following (fun _ => (.unseen, 0)) (fun _ => .stale) d (fun _ => False) d :=
    .start ⟨rfl, rfl⟩ rfl (Nat.le_refl _) fun _ h => h
  by_cases heq : e = entry d.tlf.limits n
  · rw [heq] at he
    rw [writeLimit_same he]
    exact below_of_nothing (fun p ⟨hne, _⟩ => hne (by rw [heq])) hstart
  · rw [writeLimit_part he heq]
    have hset := hstart.right (e' := limitStored n e d) (.of_eq rfl rfl rfl rfl)
    have hactive (m : Nat) : ((List.range m).foldl (fun g k => limitReaches n (entry d.tlf.limits n) e k g)
        (limitStored n e d)).slc.active = d.slc.active :=
      foldl_rel (R := fun a b : Part => b.slc.active = a.slc.active) (fun _ => rfl) (fun h g => g.trans h) _
        (fun g k => limitReaches_active n _ e k g) _ _
    have hslots := hset.foldl (hit := limitRestarts d n (entry d.tlf.limits n) e)
      (f := limitReaches n (entry d.tlf.limits n) e) 96 fun m _ hm => limitReaches_points hm (hactive m)
    rw [← forSlots_eq (limitReaches n (entry d.tlf.limits n) e)] at hslots
    exact hslots

/-- What is left to see of the moves by slots. -/
theorem Following.slots_follow {next : Point → PointState × Nat} {cause : Point → PointCause} {d e : Part}
    {hit hit' : Point → Prop} (h : Following next cause d (below d hit' 96) e)
    (hh : ∀ p, hit p ↔ p.cfg.slot < 96 ∧ hit' p) : PointsFollow hit next cause d e :=
  (h.of_iff fun _ => and_congr_right fun _ => exists_congr fun p => and_congr_right fun _ => hh p).pointsFollow

/-- What is left to see once the hand-offs are delivered. -/
theorem Following.completed {next : Point → PointState × Nat} {cause : Point → PointCause} {d e : Part}
    {S : Nat → Prop} (h : Following next cause d S e) (hd : ∀ n, d.rlp.phase ≠ .passing n)
    (he : e.rlp.phase = d.rlp.phase) : Following next cause d S (complete e) :=
  h.right (.complete fun n => by rw [he]; exact hd n)

/-! ## The statement -/

/-- Settles O37: the runs of one point, and for each command that moves points the points it reaches, one after the
other. -/
theorem pointDebounce : Obligations.PointDebounce := by
  unfold Obligations.PointDebounce
  refine ⟨fun p hd => ?_, fun s hcalm => ⟨fun slot node limit q c he hcrc hq hn hk => ?_, ?_, ?_⟩, fun d n ws e he => ?_⟩
  · intro run at'
    obtain ⟨hboth, hwet, hdry⟩ := point_debounces hd
    exact ⟨fun _ => rfl, rfl, hboth, hwet, hdry, fun hs => by simp only [movePoint, hs],
      fun hs => by simp only [movePoint, hs], fun _ => rfl, rfl, rfl⟩
  · have heff := receiveCell_accepts (d := s.part) he (cellFate_accepts (limit := limit) hcrc hq hn hk)
    have hexec : exec (.cellReceive slot c) s = .next { s with part := complete (receiveCell slot c s.part) } :=
      act_running (receiveCell slot c) s hcalm.1.1
    rw [heff] at hexec
    have hphase : (acceptCell slot node .lkLevel limit q c s.part).rlp.phase = s.part.rlp.phase :=
      (acceptCell_outer slot node .lkLevel limit q c s.part).phase
    exact ⟨_, hexec, rfl, Following.pointsFollow
      (((acceptCell_points slot node limit q c s.part).completed hcalm.2 hphase).of_iff fun _ => Iff.rfl)⟩
  · exact ⟨_, act_running endCycle s hcalm.1.1, rfl,
      ((endCycle_points s.part).completed hcalm.2 (endCycle_outer s.part).phase).slots_follow fun _ => Iff.rfl⟩
  · exact ⟨_, act_running startCycle s hcalm.1.1, rfl,
      ((startCycle_points s.part).completed hcalm.2 (startCycle_outer s.part).phase).slots_follow fun _ => Iff.rfl⟩
  · exact (writeLimit_points he).slots_follow fun _ => Iff.rfl

end Sys2Proof.Machine

/-! PROOFS. What an accepted Limit Table record does at once (R25). -/

namespace Sys2Proof.Machine

-- One proof after another: proofs that are checked side by side take a thread each.
set_option Elab.async false

/-! ## The telemetry -/

/-- A posted record leaves the telemetry: the transmitter, where it is idle, takes an event first (R167). -/
theorem post_tlf (k : EventKind) (s v : Option Nat) (d : Part) : (post k s v d).tlf = d.tlf := by
  unfold post
  split
  · unfold arbitrate
    split
    · rfl
    · split
      · rfl
      · rename_i h
        simp at h
  · rfl

theorem tlfStands_built : Built fun d d' => d'.tlf = d.tlf where
  trans h g := g.trans h
  still h := h.tlf
  post := post_tlf
  putBranch _ _ _ := rfl
  emptied _ _ := rfl
  bcu _ _ _ := rfl
  noteFaulted b x d := by
    unfold noteFaulted
    repeat' split
    all_goals rfl

theorem handClass_tlf (k n : Nat) (kind : ChannelKind) (c : ChanClass) (d : Part) :
    (handClass k n kind c d).tlf = d.tlf := tlfStands_built.handClass (fun _ _ _ => rfl) k n kind c d

/-! ## The channels that refer to the entry -/

/-- The active entry of slot `k` refers to limit entry `n`. -/
def refersTo (d : Part) (n k : Nat) : Prop :=
  ∃ node kind, entry d.slc.active k = some (.input node kind (some n))

/-- A channel after a record of its limit entry: restarted where the entry becomes valid or empty, and else without its
candidate (R25). -/
def ChannelState.relimited (same : Bool) (x : ChannelState) : ChannelState :=
  if same then { x with candidate := none, count := 0 } else .begin

/-- The channels after slot `k` was reached. -/
def reachedChannels (same : Bool) (k : Nat) (l : List (Option ChannelState)) : List (Option ChannelState) :=
  if same then
    match entry l k with
    | some x => l.set k (some (x.relimited true))
    | none => l
  else l.set k (some .begin)

/-- What a Limit Table record keeps, and what it may change. -/
structure Relimited (same : Bool) (d d' : Part) : Prop where
  active : d'.slc.active = d.slc.active
  limits : d'.tlf.limits = d.tlf.limits
  queue : d'.tlf.queue = d.tlf.queue
  alone : same = true → d' = { d with tlf := d'.tlf }

theorem Relimited.refl (same : Bool) (d : Part) : Relimited same d d := ⟨rfl, rfl, rfl, fun _ => rfl⟩

theorem Relimited.trans {same : Bool} {a b c : Part} (h : Relimited same a b) (g : Relimited same b c) :
    Relimited same a c :=
  ⟨g.active.trans h.active, g.limits.trans h.limits, g.queue.trans h.queue, fun hs => by
    rw [g.alone hs, h.alone hs]⟩

theorem limitChanged_same {old new : Option LimitEntry} (h : old.isSome = new.isSome) (k node : Nat)
    (kind : ChannelKind) (d : Part) : limitChanged old new k node kind d =
      { d with tlf := { d.tlf with channels := reachedChannels true k d.tlf.channels } } := by
  unfold limitChanged reachedChannels
  rw [if_pos h]
  rcases entry d.tlf.channels k with _ | x <;> rfl

theorem limitChanged_restarts {old new : Option LimitEntry} (h : old.isSome ≠ new.isSome) (k node : Nat)
    (kind : ChannelKind) (d : Part) : limitChanged old new k node kind d =
      handClass k node kind .unseen (putChannel k .begin d) := if_neg h

theorem limitChanged_relimited (old new : Option LimitEntry) (k node : Nat) (kind : ChannelKind) (d : Part) :
    Relimited (decide (old.isSome = new.isSome)) d (limitChanged old new k node kind d) ∧
      (limitChanged old new k node kind d).tlf.channels =
        reachedChannels (decide (old.isSome = new.isSome)) k d.tlf.channels := by
  by_cases h : old.isSome = new.isSome
  · rw [limitChanged_same h, decide_eq_true h]
    exact ⟨⟨rfl, rfl, rfl, fun _ => rfl⟩, rfl⟩
  · rw [limitChanged_restarts h, decide_eq_false h]
    have htlf := handClass_tlf k node kind .unseen (putChannel k .begin d)
    exact ⟨⟨(handClass_frame _ _ _ _ _).active, by rw [htlf]; rfl, by rw [htlf]; rfl, nofun⟩, by rw [htlf]; rfl⟩

theorem entry_reachedChannels {same : Bool} {k : Nat} {l : List (Option ChannelState)} (n : Nat) :
    entry (reachedChannels same k l) n = if n = k ∧ k < l.length then
      (if same then (entry l k).map (ChannelState.relimited true) else some .begin) else entry l n := by
  have outside (y : Option ChannelState) (h : ¬ (n = k ∧ k < l.length)) : entry (l.set k y) n = entry l n := by
    by_cases hn : n = k
    · rw [List.set_eq_of_length_le (by omega)]
    · exact entry_set_ne _ _ hn
  by_cases hn : n = k ∧ k < l.length
  · rw [if_pos hn]
    obtain ⟨rfl, hlt⟩ := hn
    cases same with
    | true =>
      unfold reachedChannels
      rcases hx : entry l n with _ | x
      · exact hx
      · exact entry_set_same hx
    | false => exact entry_set_lt _ hlt
  · rw [if_neg hn]
    unfold reachedChannels
    repeat' split
    · exact outside _ hn
    · rfl
    · exact outside _ hn

theorem length_reachedChannels (same : Bool) (k : Nat) (l : List (Option ChannelState)) :
    (reachedChannels same k l).length = l.length := by
  unfold reachedChannels
  repeat' split
  · exact List.length_set
  · rfl
  · exact List.length_set

/-- Slot `k` is reached where its active entry refers to entry `n`, and else stands. -/
theorem limitReaches_cases (n : Nat) (old new : Option LimitEntry) (k : Nat) (d : Part) :
    (¬ refersTo d n k ∧ limitReaches n old new k d = d) ∨
      (refersTo d n k ∧ ∃ node kind, limitReaches n old new k d = limitChanged old new k node kind d) := by
  unfold limitReaches refersTo
  split
  · rename_i node kind m he
    by_cases hm : m = n
    · rw [if_pos hm]
      subst hm
      exact .inr ⟨⟨node, kind, he⟩, node, kind, rfl⟩
    · rw [if_neg hm]
      refine .inl ⟨?_, rfl⟩
      rintro ⟨_, _, heq⟩
      rw [he] at heq
      cases heq
      exact hm rfl
  · rename_i hne
    exact .inl ⟨fun ⟨_, _, he⟩ => hne _ _ _ he, rfl⟩

open Classical in
/-- The channel of slot `k` after a record of limit entry `n`. -/
noncomputable def limitItem (d : Part) (n len : Nat) (same : Bool) (k : Nat) (c : Option ChannelState) :
    Option ChannelState :=
  if refersTo d n k ∧ k < len then (if same then c.map (ChannelState.relimited true) else some .begin) else c

theorem limitItem_of {d e : Part} (h : e.slc.active = d.slc.active) (n len : Nat) (same : Bool) :
    limitItem e n len same = limitItem d n len same := by
  unfold limitItem refersTo
  rw [h]

theorem limitReaches_item (n : Nat) (old new : Option LimitEntry) (k : Nat) (d : Part) :
    Relimited (decide (old.isSome = new.isSome)) d (limitReaches n old new k d) ∧
      (limitReaches n old new k d).tlf.channels.length = d.tlf.channels.length ∧
      ∀ m, entry (limitReaches n old new k d).tlf.channels m = if m = k then
        limitItem d n d.tlf.channels.length (decide (old.isSome = new.isSome)) k (entry d.tlf.channels k)
        else entry d.tlf.channels m := by
  unfold limitItem
  rcases limitReaches_cases n old new k d with ⟨hr, he⟩ | ⟨hr, node, kind, he⟩
  · rw [he]
    refine ⟨.refl _ d, rfl, fun m => ?_⟩
    have hout : ¬ (refersTo d n k ∧ k < d.tlf.channels.length) := fun h => hr h.1
    rw [if_neg hout]
    split
    · rename_i hm
      rw [hm]
    · rfl
  · rw [he]
    obtain ⟨hk, hc⟩ := limitChanged_relimited old new k node kind d
    refine ⟨hk, by rw [hc, length_reachedChannels], fun m => ?_⟩
    rw [hc, entry_reachedChannels]
    by_cases hm : m = k
    · subst hm
      simp only [true_and, hr, if_true]
    · have hout : ¬ (m = k ∧ k < d.tlf.channels.length) := fun h => hm h.1
      rw [if_neg hout, if_neg hm]

/-- The record has reached every slot. -/
theorem limitReaches_all (n : Nat) (old new : Option LimitEntry) (d : Part) :
    Relimited (decide (old.isSome = new.isSome)) d (forSlots (limitReaches n old new) d) ∧
      ∀ m, entry (forSlots (limitReaches n old new) d).tlf.channels m = if m < 96 then
        limitItem d n d.tlf.channels.length (decide (old.isSome = new.isSome)) m (entry d.tlf.channels m)
        else entry d.tlf.channels m := by
  obtain ⟨⟨hr, -⟩, hget⟩ := foldl_items (get := fun e m => entry e.tlf.channels m)
    (f := fun e k => limitReaches n old new k e)
    (P := fun e => Relimited (decide (old.isSome = new.isSome)) d e ∧
      e.tlf.channels.length = d.tlf.channels.length)
    (φ := limitItem d n d.tlf.channels.length (decide (old.isSome = new.isSome)))
    (fun k e ⟨hr, hl⟩ => by
      obtain ⟨hr', hl', hc⟩ := limitReaches_item n old new k e
      refine ⟨⟨hr.trans hr', hl'.trans hl⟩, fun m => ?_⟩
      rw [hc m, hl, limitItem_of hr.active])
    ⟨.refl _ d, rfl⟩ 96
  rw [← forSlots_eq (limitReaches n old new)] at hr hget
  exact ⟨hr, hget⟩

/-- The clause of O50 for a Limit Table record. -/
theorem writeLimit_live {d : Part} {n : Nat} {ws : List Word} {e : Option LimitEntry} (he : parseLimit ws = .ok e)
    (hne : e ≠ entry d.tlf.limits n) :
    (writeLimit n ws d).2 = .accepted ∧ (writeLimit n ws d).1.tlf.limits = d.tlf.limits.set n e ∧
      (∀ k, k < 96 → refersTo d n k → ∀ x, entry d.tlf.channels k = some x →
        entry (writeLimit n ws d).1.tlf.channels k = some (if e.isSome = (entry d.tlf.limits n).isSome then
          { x with candidate := none, count := 0 } else ⟨.unseen, none, none, none, 0, 0⟩)) ∧
      (∀ k, ¬ refersTo d n k → entry (writeLimit n ws d).1.tlf.channels k = entry d.tlf.channels k) ∧
      (e.isSome = (entry d.tlf.limits n).isSome →
        (writeLimit n ws d).1 = { d with tlf := (writeLimit n ws d).1.tlf }) ∧
      (writeLimit n ws d).1.tlf.queue = d.tlf.queue ∧ (writeLimit n ws d).1.slc.active = d.slc.active := by
  have hv : (writeLimit n ws d).2 = .accepted := by rw [writeLimit_changes he hne]
  rw [writeLimit_part he hne]
  obtain ⟨hr, hitem⟩ := limitReaches_all n (entry d.tlf.limits n) e (limitStored n e d)
  generalize forSlots (limitReaches n (entry d.tlf.limits n) e) (limitStored n e d) = o at hr hitem ⊢
  refine ⟨hv, hr.limits, fun k hk hrefs x hx => ?_, fun k hrefs => ?_, fun hs => ?_, hr.queue, hr.active⟩
  · rw [hitem k, if_pos hk]
    unfold limitItem
    rw [if_pos ⟨hrefs, entry_lt hx⟩, show entry (limitStored n e d).tlf.channels k = some x from hx]
    by_cases hs : e.isSome = (entry d.tlf.limits n).isSome
    · rw [if_pos (decide_eq_true hs.symm), if_pos hs]
      rfl
    · rw [if_neg (by simpa using fun h => hs (h.symm)), if_neg hs]
      rfl
  · rw [hitem k]
    unfold limitItem
    have hout : ¬ (refersTo (limitStored n e d) n k ∧ k < (limitStored n e d).tlf.channels.length) :=
      fun h => hrefs h.1
    rw [if_neg hout]
    split <;> rfl
  · exact hr.alone (decide_eq_true hs.symm)

end Sys2Proof.Machine

/-! PROOFS. What an accepted Branch Table record does at once (R46, R59). -/

namespace Sys2Proof.Machine

-- One proof after another: proofs that are checked side by side take a thread each.
set_option Elab.async false

theorem signalOnce_due (s : Signal) (d : Part) : s ∈ (signalOnce s d).agenda := by
  unfold signalOnce
  split
  · assumption
  · exact List.mem_append_right _ List.mem_cons_self

theorem Notes.due {d e : Part} (h : Notes d e) {s : Signal} (hs : s ∈ d.agenda) : s ∈ e.agenda := by
  obtain ⟨l, hl, -⟩ := h
  rw [hl]
  exact List.mem_append_left _ hs

/-- A change of a branch is handed to the SQE (R62). -/
theorem applyOutput_due {b : Nat} {x y : Branch} (h : x ≠ y) (d : Part) : .branches ∈ (applyOutput b x y d).agenda := by
  have hdue := signalOnce_due .branches (putBranch b y d)
  unfold applyOutput
  rw [if_neg h]
  simp only
  split
  · split
    · exact ((Touches.put (b := b) _ _).trans (.setQueue _ _)).notes.due hdue
    · exact (Touches.stopBranch (b := b) _).notes.due hdue
    · exact (Touches.stopBranch (b := b) _).notes.due hdue
    · exact hdue
  · exact (Touches.queueIfWanted (b := b) _).notes.due hdue

/-! ## A rewritten branch -/

/-- The branch with its new fields, LEAK and SHED as the new zone and tier have them. -/
def Branch.refielded (d : Part) (x : Branch) (c : BranchCfg) : Branch :=
  { x with cfg := c, holds := { x.holds with leak := leakHold d c.zone, shed := d.sru.shed.getLsbD c.tier } }

theorem rewritten_same {d : Part} {x : Branch} {c : BranchCfg} (h : c.node = x.cfg.node) :
    x.rewritten d c = x.refielded d c := if_pos h

theorem rewritten_moved {d : Part} {x : Branch} {c : BranchCfg} (h : c.node ≠ x.cfg.node) : x.rewritten d c =
    { x.refielded d c with state := .unknown, reading := none, fresh := false, moved := true } := if_neg h

section
variable {n : Nat} {x : Branch} {c : BranchCfg} {d : Part}

theorem rewriteBranch_eq (n : Nat) (x : Branch) (c : BranchCfg) (d : Part) : rewriteBranch n x c d =
    if c.ratedW < x.cfg.ratedW then
      signalOnce .attempt (applyOutput n x (x.rewritten d c) (forgetMoved n x c d))
    else applyOutput n x (x.rewritten d c) (forgetMoved n x c d) := by
  rw [← rewritten_forgetMoved n x c d]
  rfl

theorem rewriteBranch_becomes {z : Branch} {q : List Nat} {o : List (Option OutRecord)} {a : Part}
    (h : Becomes n z q o a (applyOutput n x (x.rewritten d c) (forgetMoved n x c d))) :
    Becomes n z q o a (rewriteBranch n x c d) := by
  rw [rewriteBranch_eq]
  split
  · exact h.signalOnce (.inl rfl)
  · exact h

theorem rewriteBranch_touches : Touches n (forgetMoved n x c d) (rewriteBranch n x c d) := by
  rw [rewriteBranch_eq]
  split
  · exact (Touches.applyOutput _ _ _).trans (.signalOnce (.inl rfl) _)
  · exact .applyOutput _ _ _

theorem rewriteBranch_due (hc : c ≠ x.cfg) : .branches ∈ (rewriteBranch n x c d).agenda := by
  have hne : x ≠ x.rewritten d c := fun he => hc (by rw [he, Branch.rewritten_cfg])
  have hdue := applyOutput_due (b := n) hne (forgetMoved n x c d)
  rw [rewriteBranch_eq]
  split
  · exact (signalOnce_notes (.inl rfl) _).due hdue
  · exact hdue

theorem rewriteBranch_attempts (h : c.ratedW < x.cfg.ratedW) : .attempt ∈ (rewriteBranch n x c d).agenda := by
  rw [rewriteBranch_eq, if_pos h]
  exact signalOnce_due _ _

theorem forget_eq (n : Nat) :
    OutRecord.forget n = fun r => if r.forBranch = some n then { r with forBranch := none } else r := by
  funext r
  unfold OutRecord.forget
  split <;> rfl

/-- A new switch node leaves the branch UNKNOWN, and what was staged for it is for no branch (R46, R59). -/
theorem rewriteBranch_moves (hx : d.branch n = some x) (hnode : c.node ≠ x.cfg.node) :
    Becomes n { x.refielded d c with state := .unknown, reading := none, fresh := false, moved := true } d.bcu.queue
      (d.slc.out.map (Option.map fun r => if r.forBranch = some n then { r with forBranch := none } else r))
      (forgetMoved n x c d) (rewriteBranch n x c d) := by
  have hx' : (forgetMoved n x c d).branch n = some x := (forgetMoved_branch n n x c d).trans hx
  have hqueue : (forgetMoved n x c d).bcu.queue = d.bcu.queue := by
    unfold forgetMoved
    split <;> rfl
  have hout : (forgetMoved n x c d).slc.out =
      d.slc.out.map (Option.map fun r => if r.forBranch = some n then { r with forBranch := none } else r) := by
    rw [← forget_eq]
    exact congrArg (fun e : Part => e.slc.out) (if_neg hnode)
  refine rewriteBranch_becomes ?_
  rw [rewritten_moved hnode, ← hqueue, ← hout]
  rcases hl : loses x { x.refielded d c with state := .unknown, reading := none, fresh := false, moved := true }
  · exact applyOutput_stands hx' hl fun h => by cases h.1
  · exact applyOutput_loses hx' hl ⟨nofun, nofun, nofun⟩

theorem rewriteBranch_stored {z : Branch} {q : List Nat} {o : List (Option OutRecord)}
    (hnode : c.node = x.cfg.node) (h : Becomes n z q o d (applyOutput n x (x.refielded d c) d)) : Becomes n z q o d (rewriteBranch n x c d) := by
  refine rewriteBranch_becomes ?_
  rw [rewritten_same hnode, show forgetMoved n x c d = d from if_pos hnode]
  exact h

section
variable (hx : d.branch n = some x) (hc : c ≠ x.cfg) (hnode : c.node = x.cfg.node)
include hx hc hnode

omit hc in
theorem rewriteBranch_queued (hfirst : x.holds.any = false) (hhold : (x.refielded d c).holds.any = true)
    (hs : x.state = .queued) : Becomes n { x.refielded d c with state := .off } (d.bcu.queue.filter (· != n))
      d.slc.out d (rewriteBranch n x c d) :=
  rewriteBranch_stored hnode (applyOutput_queued hx ((loses_iff _ _).mpr (.inl ⟨hfirst, hhold⟩)) hs)

omit hc in
theorem rewriteBranch_stops {k : Nat} {r : OutRecord} (hfirst : x.holds.any = false)
    (hhold : (x.refielded d c).holds.any = true) (hs : x.state = .admitting ∨ x.state = .on)
    (hk : d.outSlot c.node = some k) (hr : entry d.slc.out k = some r) :
    Becomes n { x.refielded d c with state := .stopping, timer := .running d.sru.profile.admitTimeoutMs } d.bcu.queue
      (d.slc.out.set k (some (r.ownStage n ctlOff))) d (rewriteBranch n x c d) :=
  rewriteBranch_stored hnode (applyOutput_stops hx ((loses_iff _ _).mpr (.inl ⟨hfirst, hhold⟩)) hs hk hr)

theorem rewriteBranch_wanted (hs : x.state = .off) (hhold : (x.refielded d c).holds.any = false)
    (hd : x.demands.any = true) : Becomes n { x.refielded d c with state := .queued } (d.bcu.queue ++ [n])
      d.slc.out d (rewriteBranch n x c d) := by
  have hl : loses x (x.refielded d c) = false := by
    rw [Bool.eq_false_iff, ne_eq, loses_iff]
    rintro (⟨-, h⟩ | ⟨-, -, h⟩)
    · rw [hhold] at h
      cases h
    · rw [show (x.refielded d c).demands = x.demands from rfl, hd] at h
      cases h
  have hw : (x.refielded d c).wanted = true := by
    unfold Branch.wanted
    rw [show (x.refielded d c).demands = x.demands from rfl, hd, hhold]
    rfl
  exact rewriteBranch_stored hnode (applyOutput_wanted hx hl (fun he => hc (congrArg Branch.cfg he).symm) hs hw)

omit hc in
theorem rewriteBranch_stands (h : ((x.holds.any = true ∨ (x.refielded d c).holds.any = false) ∧
      (x.state ≠ .off ∨ (x.refielded d c).holds.any = true ∨ x.demands.any = false)) ∨
      (x.state = .unknown ∨ x.state = .stopping ∨ x.state = .fault ∨
        (x.state = .off ∧ x.holds.any = false ∧ (x.refielded d c).holds.any = true))) :
    Becomes n (x.refielded d c) d.bcu.queue d.slc.out d (rewriteBranch n x c d) := by
  have hdem : (x.refielded d c).demands = x.demands := rfl
  have hstate : (x.refielded d c).state = x.state := rfl
  refine rewriteBranch_stored hnode ?_
  rcases hl : loses x (x.refielded d c)
  · refine applyOutput_stands hx hl fun ⟨hs, hw⟩ => ?_
    obtain ⟨hd, hh⟩ : x.demands.any = true ∧ (x.refielded d c).holds.any = false := by
      simpa [Branch.wanted, hdem] using hw
    rw [hstate] at hs
    simp [hs, hd, hh] at h
  · refine applyOutput_loses hx hl ?_
    rw [loses_iff, hdem] at hl
    rw [hstate]
    rcases hl with ⟨hfirst, hhold⟩ | ⟨-, h1, h2⟩
    · rcases h with ⟨h | h, -⟩ | h | h | h | h
      · rw [hfirst] at h
        cases h
      · rw [hhold] at h
        cases h
      · rw [h]
        decide
      · rw [h]
        decide
      · rw [h]
        decide
      · rw [h.1]
        decide
    · rw [h1] at h2
      cases h2

end
end

/-! ## The records -/

/-- A record that changes a valid branch and is free to do so. -/
theorem writeBranch_rewrites {d : Part} {n : Nat} {ws : List Word} {x : Branch} {c : BranchCfg}
    (hx : d.branch n = some x) (hp : parseBranch ws = .ok (some c)) (hc : c ≠ x.cfg)
    (hother : ∀ m y, m ≠ n → d.branch m = some y → y.cfg.node ≠ c.node)
    (hnode : c.node = x.cfg.node ∨ x.state = .off) (hzone : c.zone = x.cfg.zone ∨ x.holds.leak = false) :
    writeBranch n ws d = (rewriteBranch n x c d, .accepted) := by
  have hfree : ¬ nodeTaken d n c.node := fun ⟨m, y, hm, hy, hyn⟩ => hother m y hm hy hyn
  rw [writeBranch_valid hp hfree hx, if_neg, if_neg, if_neg hc]
  · rintro ⟨h, hl⟩
    rcases hzone with hz | hz
    · exact h hz
    · rw [hz] at hl
      cases hl
  · rintro ⟨h, hs⟩
    rcases hnode with hn | hn
    · exact h hn
    · exact hs hn

theorem writeBranch_empties {d : Part} {n : Nat} {ws : List Word} {x : Branch} (hx : d.branch n = some x)
    (hs : x.state = .off) (hp : parseBranch ws = .ok none) : writeBranch n ws d =
      (signalOnce .branches (forgetStages n { d with bcu.branches := d.bcu.branches.set n none }), .accepted) := by
  simp only [writeBranch, hp, hx, hs, ne_eq, not_true_eq_false, if_false]

theorem rewriteBranch_other {d : Part} {n m : Nat} {x : Branch} {c : BranchCfg} (hm : m ≠ n) :
    (rewriteBranch n x c d).branch m = d.branch m :=
  (rewriteBranch_touches.others m hm).trans (forgetMoved_branch n m x c d)

theorem Becomes.branch_queue {b : Nat} {y : Branch} {q : List Nat} {o : List (Option OutRecord)} {d e : Part}
    (h : Becomes b y q o d e) : (e.branch b = some y ∧ e.bcu.queue = q) ∧ e.slc.out = o :=
  ⟨⟨h.branch, h.queue⟩, h.out⟩

end Sys2Proof.Machine

/-! PROOFS. What an accepted Rectifier or Battery Table record does at once (R72, R74 to R77, R80). -/

namespace Sys2Proof.Machine

-- One proof after another: proofs that are checked side by side take a thread each.
set_option Elab.async false

/-! ## A rectifier derived afresh, C and the AC conditions -/

theorem deriveRect_rects {n : Nat} {r : Rectifier} {d : Part} (hr : entry d.sru.rects n = some r) :
    (deriveRect n d).sru.rects = d.sru.rects.set n (some (r.derived d)) := by
  by_cases hs : rectStateOf r.node d = r.state
  · rw [deriveRect_same hr hs]
    have hd : r.derived d = r := by
      unfold Rectifier.derived
      rw [hs]
    rw [hd, set_entry_same hr]
  · exact (deriveRect_held hr hs).rects

theorem deriveRect_posts {n : Nat} {r : Rectifier} {d : Part} (hr : entry d.sru.rects n = some r)
    (hs : rectStateOf r.node d ≠ r.state) (hroom : d.rlp.events.length < 64) : (deriveRect n d).holdsEvent
      ⟨.rectState, some r.node, some (rectStateOf r.node d).code, d.slc.cycle⟩ := by
  rw [deriveRect_changes hr hs]
  exact ((recomputeCapacity_sourced _).trans (examineAc_sourced _)).holds _
    (post_holds .rectState (some r.node) (some (rectStateOf r.node d).code) (rectDerived n r d) hroom)

theorem recomputeCapacity_waits (d : Part) : (recomputeCapacity d).sru.source = d.sru.source ∧
    (recomputeCapacity d).sru.qualTimer = d.sru.qualTimer := by
  have examined (e : Part) : (examineCapacity e).sru.source = e.sru.source ∧
      (examineCapacity e).sru.qualTimer = e.sru.qualTimer := by
    unfold examineCapacity
    repeat' split
    all_goals exact ⟨rfl, rfl⟩
  unfold recomputeCapacity
  simp only
  split
  · exact ⟨rfl, rfl⟩
  · rw [(examined _).1, (examined _).2, (signalOnce_settled _ _).sru]
    split
    · rw [capacityRelease_sru]
      exact ⟨rfl, rfl⟩
    · exact ⟨rfl, rfl⟩

theorem mem_validRects {d : Part} {n : Nat} {r : Rectifier} (h : entry d.sru.rects n = some r) : r ∈ validRects d := by
  unfold validRects
  exact List.mem_filterMap.mpr ⟨some r, List.mem_of_getElem? (Option.join_eq_some_iff.mp h), rfl⟩

/-- What follows a change of rectifier entry `n`: its state is the derived one, and C that of the rectifiers. -/
theorem rectChanged_held (n : Nat) (d : Part) : (rectChanged n d).sru.rects = (deriveRect n d).sru.rects ∧
    (rectChanged n d).sru.capacity = capacityOf (rectChanged n d) := by
  have hc := recomputeCapacity_held (deriveRect n d)
  have hm := (modulesHeld_examineAc (recomputeCapacity (deriveRect n d))).trans
    (modulesHeld_qualifyIfHeard (examineAc (recomputeCapacity (deriveRect n d))))
  have hrects : (rectChanged n d).sru.rects = (deriveRect n d).sru.rects := hm.rects.trans hc.rects
  have hprofile : (rectChanged n d).sru.profile = (deriveRect n d).sru.profile := hm.profile.trans hc.profile
  exact ⟨hrects, (hm.capacity.trans hc.capacity).trans (capacityOf_of hrects hprofile).symm⟩

theorem rectChanged_holds (n : Nat) (d : Part) {r : EventRecord} (h : (deriveRect n d).holdsEvent r) :
    (rectChanged n d).holdsEvent r :=
  (((recomputeCapacity_sourced _).trans (examineAc_sourced _)).trans (qualifyIfHeard_sourced _)).holds r h

/-- A rectifier that stays ABSENT leaves SOURCE_UNKNOWN waiting (R80). -/
theorem rectChanged_waits {n : Nat} {r : Rectifier} {d : Part} (hr : entry d.sru.rects n = some r)
    (ha : r.state = .absent) (hs : rectStateOf r.node d = .absent) (hu : d.sru.source = .unknown) :
    (rectChanged n d).sru.source = .unknown ∧ (rectChanged n d).sru.qualTimer = d.sru.qualTimer := by
  obtain ⟨hsource, htimer⟩ := recomputeCapacity_waits d
  have hrects : (recomputeCapacity d).sru.rects = d.sru.rects := (recomputeCapacity_held d).rects
  unfold rectChanged
  rw [deriveRect_same hr (hs.trans ha.symm), examineAc_unknown (hsource.trans hu)]
  have hwait : qualifyIfHeard (recomputeCapacity d) = recomputeCapacity d := by
    refine if_neg fun h => ?_
    have hall := List.all_eq_true.mp h.2.2 r (mem_validRects (by rw [hrects]; exact hr))
    rw [ha] at hall
    exact absurd hall (by decide)
  rw [hwait]
  exact ⟨hsource.trans hu, htimer⟩

/-! ## The Rectifier Table -/

/-- The part once a rectifier entry is stored. -/
def rectStored (n : Nat) (r : Option Rectifier) (d : Part) : Part :=
  { d with sru := { d.sru with rects := d.sru.rects.set n r } }

section
variable {d : Part} {n : Nat} {ws : List Word} {node w : Nat}

theorem writeRect_new (hp : parseRect ws = .ok (some (node, w))) (hfree : ¬ rectTaken d n node)
    (hn : entry d.sru.rects n = none) :
    (writeRect n ws d).1 = rectChanged n (requalify (rectStored n (some ⟨node, w, .absent⟩) d)) := by
  have hf := mt otherRect_iff.mp hfree
  simp only [writeRect, hp, if_neg hf, hn]
  rfl

theorem writeRect_changes {r : Rectifier} (hp : parseRect ws = .ok (some (node, w))) (hfree : ¬ rectTaken d n node)
    (hn : entry d.sru.rects n = some r) (hne : r.node ≠ node ∨ r.ratedW ≠ w) :
    (writeRect n ws d).1 = rectChanged n (rectStored n (some ⟨node, w, r.state⟩) d) := by
  have hf := mt otherRect_iff.mp hfree
  have hc : ¬ (r.node = node ∧ r.ratedW = w) := fun h => hne.elim (· h.1) (· h.2)
  simp only [writeRect, hp, if_neg hf, hn, if_neg hc]
  rfl

theorem writeRect_empties (hp : parseRect ws = .ok none) (hn : (entry d.sru.rects n).isSome = true) :
    (writeRect n ws d).1 = rectChanged n (rectStored n none d) := by
  have hc : ¬ (entry d.sru.rects n).isNone = true := by
    rw [Option.isNone_iff_eq_none]
    intro h
    rw [h] at hn
    cases hn
  simp only [writeRect, hp, if_neg hc]
  rfl

theorem requalify_rects (d : Part) : (requalify d).sru.rects = d.sru.rects := by
  unfold requalify
  split <;> rfl

theorem requalify_inputs (d : Part) : SameInputs d (requalify d) := by
  unfold requalify
  split
  · exact sameInputs_of_link rfl rfl rfl rfl
  · exact .refl d

theorem requalify_unlinked (d : Part) : (requalify d).rlp = d.rlp ∧ (requalify d).slc = d.slc := by
  unfold requalify
  split <;> exact ⟨rfl, rfl⟩

/-- A stored rectifier is derived from its node, with its record where its state differs from the one held. -/
theorem rectChanged_stored {e : Part} {s : RectState} (hlt : n < d.sru.rects.length)
    (hrects : e.sru.rects = d.sru.rects.set n (some ⟨node, w, s⟩)) (hin : SameInputs d e) (hrlp : e.rlp = d.rlp)
    (hslc : e.slc = d.slc) :
    (rectChanged n e).sru.rects = d.sru.rects.set n (some ⟨node, w, rectStateOf node d⟩) ∧
      (rectChanged n e).sru.capacity = capacityOf (rectChanged n e) ∧
      (rectStateOf node d ≠ s → d.rlp.events.length < 64 → (rectChanged n e).holdsEvent
        ⟨.rectState, some node, some (rectStateOf node d).code, d.slc.cycle⟩) := by
  have hent : entry e.sru.rects n = some ⟨node, w, s⟩ := by
    rw [hrects]
    exact entry_set_lt _ hlt
  obtain ⟨hheld, hcap⟩ := rectChanged_held n e
  have hstate : rectStateOf node e = rectStateOf node d := (hin node).1
  refine ⟨?_, hcap, fun hne hroom => rectChanged_holds n e ?_⟩
  · rw [hheld, deriveRect_rects hent, hrects, List.set_set]
    unfold Rectifier.derived
    rw [hstate]
  · rw [← hstate, ← hslc]
    exact deriveRect_posts hent (by rw [hstate]; exact hne) (by rw [hrlp]; exact hroom)

/-- The clause of O50 for a Rectifier Table record that stores fields. -/
theorem writeRect_live (hp : parseRect ws = .ok (some (node, w))) (hlt : n < d.sru.rects.length)
    (hfree : ∀ m r, m ≠ n → entry d.sru.rects m = some r → r.node ≠ node)
    (hne : ∀ r, entry d.sru.rects n = some r → r.node ≠ node ∨ r.ratedW ≠ w) :
    (writeRect n ws d).1.sru.rects = d.sru.rects.set n (some ⟨node, w, rectStateOf node d⟩) ∧
      (writeRect n ws d).1.sru.capacity = capacityOf (writeRect n ws d).1 ∧
      (rectStateOf node d ≠ ((entry d.sru.rects n).map Rectifier.state).getD .absent → d.rlp.events.length < 64 →
        (writeRect n ws d).1.holdsEvent ⟨.rectState, some node, some (rectStateOf node d).code, d.slc.cycle⟩) ∧
      (entry d.sru.rects n = none → d.sru.source = .unknown → d.sru.qualTimer = .stopped →
        rectStateOf node d = .absent → (writeRect n ws d).1.sru.source = .unknown ∧
          (writeRect n ws d).1.sru.qualTimer = .running d.sru.profile.qualMs) := by
  have hnot : ¬ rectTaken d n node := fun ⟨m, r, hm, hr, hn⟩ => hfree m r hm hr hn
  rcases hn : entry d.sru.rects n with _ | r
  · rw [writeRect_new hp hnot hn]
    obtain ⟨hrlp, hslc⟩ := requalify_unlinked (rectStored n (some ⟨node, w, .absent⟩) d)
    have hin : SameInputs d (requalify (rectStored n (some ⟨node, w, .absent⟩) d)) :=
      (sameInputs_of_link (d' := rectStored n (some ⟨node, w, .absent⟩) d) rfl rfl rfl rfl).trans (requalify_inputs _)
    have hrects : (requalify (rectStored n (some ⟨node, w, .absent⟩) d)).sru.rects =
        d.sru.rects.set n (some ⟨node, w, .absent⟩) := requalify_rects _
    obtain ⟨h1, h2, h3⟩ := rectChanged_stored hlt hrects hin hrlp hslc
    refine ⟨h1, h2, h3, fun _ hu hq hs => ?_⟩
    have heq : requalify (rectStored n (some ⟨node, w, .absent⟩) d) = { rectStored n (some ⟨node, w, .absent⟩) d with
        sru.qualTimer := .running d.sru.profile.qualMs } := if_pos ⟨hu, hq⟩
    have hent : entry (requalify (rectStored n (some ⟨node, w, .absent⟩) d)).sru.rects n = some ⟨node, w, .absent⟩ := by
      rw [hrects]
      exact entry_set_lt _ hlt
    obtain ⟨hsource, htimer⟩ := rectChanged_waits hent rfl ((hin node).1.trans hs) (by rw [heq]; exact hu)
    exact ⟨hsource, htimer.trans (by rw [heq])⟩
  · rw [writeRect_changes hp hnot hn (hne r hn)]
    obtain ⟨h1, h2, h3⟩ := rectChanged_stored (e := rectStored n (some ⟨node, w, r.state⟩) d) hlt rfl
      (sameInputs_of_link rfl rfl rfl rfl) rfl rfl
    exact ⟨h1, h2, h3, nofun⟩

/-- The clause of O50 for a Rectifier Table record that empties its entry. -/
theorem writeRect_emptied (hp : parseRect ws = .ok none) (hn : (entry d.sru.rects n).isSome = true) :
    (writeRect n ws d).1.sru.rects = d.sru.rects.set n none ∧
      (writeRect n ws d).1.sru.capacity = capacityOf (writeRect n ws d).1 := by
  rw [writeRect_empties hp hn]
  obtain ⟨r, hr⟩ := Option.isSome_iff_exists.mp hn
  have hent : entry (rectStored n none d).sru.rects n = none := entry_set_lt _ (entry_lt hr)
  obtain ⟨hheld, hcap⟩ := rectChanged_held n (rectStored n none d)
  refine ⟨?_, hcap⟩
  rw [hheld, deriveRect_none hent]
  rfl

/-! ## The Battery Table -/

/-- The part once a battery entry is stored. -/
def battStored (n : Nat) (b : Option Battery) (d : Part) : Part :=
  { d with sru := { d.sru with batts := d.sru.batts.set n b } }

theorem writeBatt_changes (hp : parseBatt ws = .ok (some node)) (hfree : ¬ battTaken d n node)
    (hne : ∀ b, entry d.sru.batts n = some b → b.node ≠ node) : (writeBatt n ws d).1 =
      deriveBatt n (battStored n (some ⟨node, ((entry d.sru.batts n).map Battery.state).getD .absent⟩) d) := by
  have hf := mt otherBatt_iff.mp hfree
  have hc : ¬ entry d.sru.batts n = some ⟨node, ((entry d.sru.batts n).map Battery.state).getD .absent⟩ :=
    fun h => hne _ h rfl
  simp only [writeBatt, hp, if_neg hf, if_neg hc]
  rfl

/-- The clause of O50 for a Battery Table record that stores a node. -/
theorem writeBatt_live (hp : parseBatt ws = .ok (some node)) (hlt : n < d.sru.batts.length)
    (hfree : ∀ m b, m ≠ n → entry d.sru.batts m = some b → b.node ≠ node)
    (hne : ∀ b, entry d.sru.batts n = some b → b.node ≠ node) :
    (writeBatt n ws d).1.sru = { d.sru with batts := d.sru.batts.set n (some ⟨node, battStateOf node d⟩) } ∧
      (battStateOf node d ≠ ((entry d.sru.batts n).map Battery.state).getD .absent → d.rlp.events.length < 64 →
        (writeBatt n ws d).1.holdsEvent
          ⟨.batteryState, some node, some (battStateOf node d).code, d.slc.cycle⟩) := by
  rw [writeBatt_changes hp (fun ⟨m, b, hm, hb, hn⟩ => hfree m b hm hb hn) hne]
  generalize ((entry d.sru.batts n).map Battery.state).getD .absent = s
  have hent : entry (battStored n (some ⟨node, s⟩) d).sru.batts n = some ⟨node, s⟩ := entry_set_lt _ hlt
  have hstate : battStateOf node (battStored n (some ⟨node, s⟩) d) = battStateOf node d :=
    (sameInputs_of_link (d' := battStored n (some ⟨node, s⟩) d) rfl rfl rfl rfl node).2
  by_cases hs : battStateOf node d = s
  · rw [deriveBatt_same hent (hstate.trans hs), hs]
    exact ⟨rfl, fun h => absurd rfl h⟩
  · rw [deriveBatt_changes hent (by rw [hstate]; exact hs)]
    refine ⟨?_, fun _ hroom => ?_⟩
    · rw [(post_uplinked _ _ _ _).sru, ← hstate]
      simp only [battDerived, battStored, List.set_set]
      rfl
    · rw [← hstate]
      exact post_holds .batteryState (some node) _ (battDerived n ⟨node, s⟩ (battStored n (some ⟨node, s⟩) d)) hroom

end

end Sys2Proof.Machine

/-! PROOFS. What a Power Profile record does at once (R93). -/

namespace Sys2Proof.Machine

-- One proof after another: proofs that are checked side by side take a thread each.
set_option Elab.async false

/-! ## What is due stays due -/

theorem staysDue (s : Signal) : Posting fun d d' => s ∈ d.agenda → s ∈ d'.agenda where
  trans h g := g ∘ h
  still _ due := due s
  post k t v d h := by
    rw [(post_uplinked k t v d).agenda]
    exact h
  changeBranch b f d _ := (Touches.changeBranch (b := b) f d).notes.due

theorem examineLine_keeps_due {s : Signal} {d : Part} (h : s ∈ d.agenda) : s ∈ (examineLine d).agenda :=
  (staysDue s).examineLine ((staysDue s).setCauses fun _ _ _ => id) d h

/-! ## The fields that act, each in its turn -/

/-- What a change of the redundancy makes of the part. -/
def redundancyActs (old new : Profile) (d : Part) : Part :=
  if new.redundancy = old.redundancy then d else recomputeCapacity d

/-- What a change of min_rect makes of the part. -/
def minRectActs (old new : Profile) (d : Part) : Part := if new.minRect = old.minRect then d else examineAc d

/-- What a change of the floor makes of the part. -/
def floorActs (old new : Profile) (d : Part) : Part := if new.floor = old.floor then d else deriveBatts d

/-- What a lowered overhead makes of the part. -/
def overheadActs (old new : Profile) (d : Part) : Part :=
  if new.overheadW < old.overheadW then signalOnce .attempt d else d

/-- What a change of leak_line_zone makes of the part. -/
def lineZoneActs (old new : Profile) (d : Part) : Part :=
  if new.leakLineZone = old.leakLineZone then d else examineLine d

theorem profileChanged_eq (old : Profile) (d : Part) : profileChanged old d =
    lineZoneActs old d.sru.profile (overheadActs old d.sru.profile (floorActs old d.sru.profile
      (minRectActs old d.sru.profile (redundancyActs old d.sru.profile d)))) := rfl

/-- Of the SRU the batteries alone may have changed. -/
def BattsOnly (d d' : Part) : Prop := d'.sru = { d.sru with batts := d'.sru.batts }

theorem BattsOnly.refl (d : Part) : BattsOnly d d := rfl

theorem BattsOnly.of_sru {d d' : Part} (h : d'.sru = d.sru) : BattsOnly d d' := by
  unfold BattsOnly
  rw [h]

theorem BattsOnly.trans {a b c : Part} (h : BattsOnly a b) (g : BattsOnly b c) : BattsOnly a c := by
  unfold BattsOnly at *
  rw [g, h]

theorem deriveBatt_battsOnly (i : Nat) (d : Part) : BattsOnly d (deriveBatt i d) := by
  unfold deriveBatt
  split
  · exact .refl d
  · simp only
    split
    · exact .refl d
    · exact BattsOnly.trans (by exact rfl) (.of_sru (post_uplinked _ _ _ _).sru)

section
variable (old new : Profile) (d : Part)

theorem redundancyActs_stands : Frame d (redundancyActs old new d) ∧
    (redundancyActs old new d).sru.rects = d.sru.rects ∧ (redundancyActs old new d).sru.batts = d.sru.batts ∧
    (redundancyActs old new d).sru.source = d.sru.source ∧
    (redundancyActs old new d).sru.profile = d.sru.profile := by
  unfold redundancyActs
  split
  · exact ⟨.refl d, rfl, rfl, rfl, rfl⟩
  · have h := recomputeCapacity_held d
    exact ⟨(recomputeCapacity_sourced d).toFrame, h.rects, h.batts, (recomputeCapacity_waits d).1, h.profile⟩

theorem minRectActs_stands : Frame d (minRectActs old new d) ∧ ModulesHeld d (minRectActs old new d) := by
  unfold minRectActs
  split
  · exact ⟨.refl d, .refl d⟩
  · exact ⟨(examineAc_sourced d).toFrame, modulesHeld_examineAc d⟩

theorem floorActs_stands : Frame d (floorActs old new d) ∧ BattsOnly d (floorActs old new d) := by
  unfold floorActs
  split
  · exact ⟨.refl d, .refl d⟩
  · exact ⟨(deriveBatts_sourced d).toFrame, foldl_rel BattsOnly.refl BattsOnly.trans _
      (fun d i => deriveBatt_battsOnly i d) _ d⟩

theorem overheadActs_stands : Frame d (overheadActs old new d) ∧ (overheadActs old new d).sru = d.sru := by
  unfold overheadActs
  split
  · exact ⟨(signalOnce_settled _ d).toFrame, (signalOnce_settled _ d).sru⟩
  · exact ⟨.refl d, rfl⟩

theorem lineZoneActs_stands : Frame d (lineZoneActs old new d) ∧ (lineZoneActs old new d).sru = d.sru := by
  unfold lineZoneActs
  split
  · exact ⟨.refl d, rfl⟩
  · exact ⟨(examineLine_leaked d).toFrame, (examineLine_leaked d).sru⟩

/-- The last two fields leave the SRU, and what the derivations read. -/
theorem lastActs_stands : Frame d (lineZoneActs old new (overheadActs old new d)) ∧
    (lineZoneActs old new (overheadActs old new d)).sru = d.sru := by
  obtain ⟨hf, hs⟩ := overheadActs_stands old new d
  obtain ⟨hf', hs'⟩ := lineZoneActs_stands old new (overheadActs old new d)
  exact ⟨hf.trans hf', hs'.trans hs⟩

end

/-- Once the floor has changed, every battery has the state that is derived for it. -/
theorem deriveBatts_entry (d : Part) {i : Nat} (hi : i < 6) :
    entry (deriveBatts d).sru.batts i = (entry d.sru.batts i).map (Battery.derived d) := by
  obtain ⟨-, h⟩ := foldl_items (get := fun d n => entry d.sru.batts n) (f := fun d i => deriveBatt i d)
    (P := SameInputs d) (φ := fun _ => Option.map (Battery.derived d)) (fun i e he =>
      ⟨he.trans (sameInputs_of_frame (deriveBatt_sourced i e).toFrame), fun n => by
        rw [deriveBatt_entry, Battery.derived_of he]⟩) (.refl d) 6
  have hn := h i
  rw [if_pos hi] at hn
  exact hn

/-! ## The clauses -/

section
variable {old new : Profile} {d : Part} (hnew : d.sru.profile = new)
include hnew

theorem profileChanged_capacity (h : new.redundancy ≠ old.redundancy) :
    (profileChanged old d).sru.capacity = capacityOf (profileChanged old d) := by
  rw [profileChanged_eq, hnew]
  have hr : redundancyActs old new d = recomputeCapacity d := if_neg h
  have hc := recomputeCapacity_held d
  rw [← hr] at hc
  generalize redundancyActs old new d = a at hc ⊢
  obtain ⟨-, hm⟩ := minRectActs_stands old new a
  generalize minRectActs old new a = b at hm ⊢
  obtain ⟨-, hb⟩ := floorActs_stands old new b
  generalize floorActs old new b = c at hb ⊢
  obtain ⟨-, hl⟩ := lastActs_stands old new c
  rw [capacityOf_of (d := d)]
  · rw [hl, hb]
    exact hm.capacity.trans hc.capacity
  · rw [hl, hb]
    exact hm.rects.trans hc.rects
  · rw [hl, hb]
    exact hm.profile.trans hc.profile

theorem profileChanged_relapses (h : new.minRect ≠ old.minRect) (hs : d.sru.source = .onAc) (hl : acLost d = true) :
    (profileChanged old d).sru.source = .onBattery := by
  rw [profileChanged_eq, hnew]
  obtain ⟨hf, hrects, -, hsource, -⟩ := redundancyActs_stands old new d
  generalize redundancyActs old new d = a at hf hrects hsource ⊢
  have hlost : acLost a = true := by
    unfold acLost validRects at *
    rw [hf.outputs, hrects]
    exact hl
  have hb : minRectActs old new a = beginEpisode .onAc a := by
    rw [show minRectActs old new a = examineAc a from if_neg h, examineAc_onAc (hsource.trans hs), if_pos hlost]
  rw [hb]
  obtain ⟨-, hc⟩ := floorActs_stands old new (beginEpisode .onAc a)
  obtain ⟨-, hl⟩ := lastActs_stands old new (floorActs old new (beginEpisode .onAc a))
  rw [hl, hc, beginEpisode_sru]

theorem profileChanged_batts (h : new.floor ≠ old.floor) {i : Nat} (hi : i < 6) {b : Battery}
    (hb : entry d.sru.batts i = some b) : entry (profileChanged old d).sru.batts i =
      some { b with state := battStateOf b.node (profileChanged old d) } := by
  rw [profileChanged_eq, hnew]
  obtain ⟨-, -, hbatts, -, -⟩ := redundancyActs_stands old new d
  generalize redundancyActs old new d = a at hbatts ⊢
  obtain ⟨-, hm⟩ := minRectActs_stands old new a
  generalize minRectActs old new a = c at hm ⊢
  have hd : floorActs old new c = deriveBatts c := if_neg h
  obtain ⟨hf, -⟩ := floorActs_stands old new c
  obtain ⟨hf', hl⟩ := lastActs_stands old new (floorActs old new c)
  have hin := sameInputs_of_frame (hf.trans hf')
  generalize lineZoneActs old new (overheadActs old new (floorActs old new c)) = t at hl hin ⊢
  rw [hl, hd, deriveBatts_entry c hi, hm.batts, hbatts, hb, ← Battery.derived_of hin]
  rfl

theorem profileChanged_attempts (h : new.overheadW < old.overheadW) :
    .attempt ∈ (profileChanged old d).agenda := by
  rw [profileChanged_eq, hnew]
  generalize floorActs old new _ = c
  have hdue : .attempt ∈ (overheadActs old new c).agenda := by
    rw [show overheadActs old new c = signalOnce .attempt c from if_pos h]
    exact signalOnce_due _ _
  unfold lineZoneActs
  split
  · exact hdue
  · exact examineLine_keeps_due hdue

theorem profileChanged_line (hr : new.redundancy = old.redundancy) (hm : new.minRect = old.minRect)
    (hf : new.floor = old.floor) (hw : old.overheadW ≤ new.overheadW) :
    profileChanged old d = lineZoneActs old new d := by
  rw [profileChanged_eq, hnew, show redundancyActs old new d = d from if_pos hr,
    show minRectActs old new d = d from if_pos hm, show floorActs old new d = d from if_pos hf,
    show overheadActs old new d = d from if_neg (Nat.not_lt.mpr hw)]

end

/-- A confirmation posts its record where one place is free. -/
theorem confirmZone_confirmed (z : Nat) (c : ZoneCfg) (k n : Nat) (d : Part) (hr : d.rlp.events.length < 64) :
    (confirmZone z c k n d).holdsEvent ⟨.leakConfirmed, some z, some (k * 256 + n), d.slc.cycle⟩ := by
  rw [confirmZone_eq]
  refine (handLatch_leaked _ (deriveLeak_leaked z) (confirmRecords z c k n d)).holds _ ?_
  have later (e : Part) (r : EventRecord) (h : e.holdsEvent r) : (if c.isolate then
      post .leakIsolated (some z) (some (zoneBranches z d).length) e else e).holdsEvent r := by
    split
    · exact (post_settled _ _ _ _).holds r h
    · exact h
  exact later _ _ (post_holds .leakConfirmed (some z) (some (k * 256 + n)) (putZone z { d.zone z with
    state := if c.isolate then .isolated else .confirmed, acked := false } d) hr)

/-- The clause of O50 for a Power Profile record. -/
theorem writeProfile_live (ws : List Word) (d : Part) :
    let old := d.sru.profile
    let t := (writeProfile ws d).1
    let new := t.sru.profile
    (new.redundancy ≠ old.redundancy → t.sru.capacity = capacityOf t) ∧
    (new.minRect ≠ old.minRect → d.sru.source = .onAc → acLost d = true → t.sru.source = .onBattery) ∧
    (new.floor ≠ old.floor → ∀ i b, i < 6 → entry d.sru.batts i = some b →
      entry t.sru.batts i = some { b with state := battStateOf b.node t }) ∧
    (new.overheadW < old.overheadW → .attempt ∈ t.agenda) ∧
    (new.redundancy = old.redundancy → new.minRect = old.minRect → new.floor = old.floor →
      old.overheadW ≤ new.overheadW →
      (new.leakLineZone = old.leakLineZone ∨ d.lines.leakIn = false →
        t = { d with sru := { d.sru with profile := new } }) ∧
      (new.leakLineZone ≠ old.leakLineZone → d.lines.leakIn = true → ∀ z c,
        new.leakLineZone = some z → (d.zone z).cfg = some c → (d.zone z).state.latched = false →
        z < d.lkm.zones.length → d.rlp.events.length < 64 →
        (t.zone z).state = (if c.isolate then .isolated else .confirmed) ∧ (t.zone z).acked = false ∧
          t.holdsEvent ⟨.leakConfirmed, some z, some 256, d.slc.cycle⟩)) := by
  have ht : (writeProfile ws d).1 =
      profileChanged d.sru.profile { d with sru.profile := (parseProfile ws).1 } := by
    unfold writeProfile
    generalize parseProfile ws = r
    obtain ⟨p, f⟩ := r
    cases f <;> rfl
  simp only
  rw [writeProfile_profile, ht]
  generalize (parseProfile ws).1 = new
  generalize he : ({ d with sru.profile := new } : Part) = e
  have hnew : e.sru.profile = new := by rw [← he]
  refine ⟨fun h => profileChanged_capacity hnew h, fun h hs hl => ?_, fun h i b hi hb => ?_,
    fun h => profileChanged_attempts hnew h, fun hr hm hf hw => ?_⟩
  · exact profileChanged_relapses hnew h (by rw [← he]; exact hs) (by rw [← he]; exact hl)
  · exact profileChanged_batts hnew h hi (by rw [← he]; exact hb)
  · rw [profileChanged_line hnew hr hm hf hw]
    refine ⟨fun h => ?_, fun h hl z c hz hc hs hlt hroom => ?_⟩
    · rw [← he]
      unfold lineZoneActs
      split
      · rfl
      · exact examineLine_silent (.inl (h.resolve_left ‹_›))
    · have hconf : lineZoneActs d.sru.profile new e = confirmZone z c byLine 0 e := by
        rw [show lineZoneActs d.sru.profile new e = examineLine e from if_neg h]
        exact examineLine_confirms (by rw [← he]; exact hl) (by rw [hnew]; exact hz) (by rw [← he]; exact hc)
          (by rw [← he]; exact hs)
      have hpost := confirmZone_confirmed z c byLine 0 e (by rw [← he]; exact hroom)
      rw [hconf, confirmZone_zone (by rw [← he]; exact hlt)]
      refine ⟨rfl, rfl, ?_⟩
      rw [← he] at hpost ⊢
      exact hpost

end Sys2Proof.Machine

/-! PROOFS. What an accepted Leak Point or Leak Zone record does at once (R137, R141). -/

namespace Sys2Proof.Machine

-- One proof after another: proofs that are checked side by side take a thread each.
set_option Elab.async false

/-! ## The Leak Point Table -/

/-- The part once a point entry is stored, with its begin values. -/
def pointStored (n : Nat) (e : Option PointCfg) (d : Part) : Part :=
  { d with lkm.points := d.lkm.points.set n (e.map fun c => ⟨c, .unseen, 0⟩) }

section
variable {d : Part} {n : Nat} {ws : List Word}

theorem not_zoneBusy {z : Nat} (h : (d.zone z).state = .clear) : zoneBusy d z = false := by
  simp [zoneBusy, h]

theorem writePoint_empties {p : Point} (hp : parsePoint ws = .ok none) (hn : entry d.lkm.points n = some p)
    (hold : (d.zone p.cfg.zone).state = .clear) :
    writePoint n ws d = (examineZone p.cfg.zone (pointStored n none d), .accepted) := by
  simp only [writePoint, hp, hn, not_zoneBusy hold, Bool.false_eq_true, if_false]
  rfl

section
variable {c : PointCfg} (hp : parsePoint ws = .ok (some c)) (hfree : ¬ pointTaken d n c)
  (hz : (d.zone c.zone).state = .clear)
include hp hfree hz

theorem writePoint_new (hn : entry d.lkm.points n = none) :
    writePoint n ws d = (examineZone c.zone (pointStored n (some c) d), .accepted) := by
  have hf := mt otherPoint_iff.mp hfree
  simp only [writePoint, hp, hn, if_neg hf, not_zoneBusy hz, Bool.or_false, Bool.false_eq_true, if_false,
    Option.map_none, reduceCtorEq]
  rfl

theorem writePoint_changes {p : Point} (hn : entry d.lkm.points n = some p)
    (hold : (d.zone p.cfg.zone).state = .clear) (hne : p.cfg ≠ c) : writePoint n ws d =
      (examineZone c.zone (examineZone p.cfg.zone (pointStored n (some c) d)), .accepted) := by
  have hf := mt otherPoint_iff.mp hfree
  have hc : ¬ (some p).map Point.cfg = some c := fun h => hne (Option.some.inj h)
  simp only [writePoint, hp, hn, if_neg hf, not_zoneBusy hz, not_zoneBusy hold, Bool.or_self, Bool.false_eq_true,
    if_false, if_neg hc]
  rfl

end

/-- The clause of O50 for a Leak Point record. -/
theorem writePoint_live {e : Option PointCfg} (he : parsePoint ws = .ok e)
    (hne : (entry d.lkm.points n).map Point.cfg ≠ e)
    (hnew : ∀ c, e = some c → (d.zone c.zone).state = .clear ∧
      ∀ m p, m ≠ n → entry d.lkm.points m = some p → p.cfg.node ≠ c.node ∨ p.cfg.slot ≠ c.slot)
    (hold : ∀ p, entry d.lkm.points n = some p → (d.zone p.cfg.zone).state = .clear) :
    (writePoint n ws d).2 = .accepted ∧
      (writePoint n ws d).1.lkm.points = d.lkm.points.set n (e.map fun c => ⟨c, .unseen, 0⟩) ∧
      ∀ z, (∀ c, e = some c → c.zone ≠ z) → (∀ p, entry d.lkm.points n = some p → p.cfg.zone ≠ z) →
        (writePoint n ws d).1.zone z = d.zone z := by
  have free (c : PointCfg) (hc : e = some c) : ¬ pointTaken d n c := fun ⟨m, p, hm, hp, hnode, hslot⟩ =>
    ((hnew c hc).2 m p hm hp).elim (· hnode) (· hslot)
  rcases hn : entry d.lkm.points n with _ | p <;> rcases e with _ | c
  · exact absurd (by rw [hn]; rfl) hne
  · rw [writePoint_new he (free c rfl) (hnew c rfl).1 hn]
    have h := Examined.of_examineZone c.zone (pointStored n (some c) d)
    exact ⟨rfl, h.points, fun z hz _ => h.zones z (hz c rfl).symm⟩
  · rw [writePoint_empties he hn (hold p hn)]
    have h := Examined.of_examineZone p.cfg.zone (pointStored n none d)
    exact ⟨rfl, h.points, fun z _ hz => h.zones z (hz p rfl).symm⟩
  · have hc : p.cfg ≠ c := fun h => hne (by rw [hn, Option.map_some, h])
    rw [writePoint_changes he (free c rfl) (hnew c rfl).1 hn (hold p hn) hc]
    have h := Examined.of_examineZone p.cfg.zone (pointStored n (some c) d)
    have g := Examined.of_examineZone c.zone (examineZone p.cfg.zone (pointStored n (some c) d))
    exact ⟨rfl, g.points.trans h.points, fun z hz hz' =>
      (g.zones z (hz c rfl).symm).trans (h.zones z (hz' p rfl).symm)⟩

end

/-! ## The Leak Zone Table -/

/-- The part once a zone takes new fields. -/
def zoneStored (n : Nat) (e : Option ZoneCfg) (d : Part) : Part :=
  putZone n { d.zone n with cfg := e, degraded := e.isSome && (d.zone n).degraded } d

theorem writeZone_changes {d : Part} {n : Nat} {ws : List Word} {e : Option ZoneCfg} (he : parseZone ws = .ok e)
    (hs : (d.zone n).state = .clear) (hne : e ≠ (d.zone n).cfg) :
    writeZone n ws d = (examineLine (examineZone n (zoneStored n e d)), .accepted) := by
  simp only [writeZone, he, not_zoneBusy hs, Bool.false_eq_true, if_false, if_neg hne]
  rfl

/-- What an examination of a CLEAR zone makes of it: it is unlatched, or confirmed anew. -/
theorem examineZone_fromClear {d : Part} {z : Nat} {c : ZoneCfg} (hz : z < d.lkm.zones.length)
    (hc : (d.zone z).cfg = some c) (hs : (d.zone z).state = .clear) :
    ((examineZone z d).zone z).cfg = some c ∧ (((examineZone z d).zone z).state.latched = false ∨
      ((examineZone z d).zone z).state = (if c.isolate then .isolated else .confirmed) ∧
        ((examineZone z d).zone z).acked = false) := by
  have hlen : z < (noteDegraded z d).lkm.zones.length := by
    rw [noteDegraded_zones hz, List.length_set]
    exact hz
  have hsame := noteDegraded_zone_same hz
  by_cases h : confirms z c d
  · rw [examineZone_confirms hc (.inl hs) h, confirmZone_zone hlen, hsame]
    exact ⟨hc, .inr ⟨rfl, rfl⟩⟩
  by_cases hw : wetCount z d = 0
  · rw [examineZone_clear hc hs h hw, hsame]
    exact ⟨hc, .inl (by rw [show (degradedZone z d).state = (d.zone z).state from rfl, hs]; rfl)⟩
  · rw [examineZone_alerts hc hs h (by omega), zone_of_zones (congrArg Lkm.zones (post_uplinked _ _ _ _).lkm),
      zone_putZone_same _ _ _ hlen, hsame]
    exact ⟨hc, .inl rfl⟩

/-- The line reaches its own zone alone. -/
theorem examineLine_others (d : Part) : (examineLine d).lkm.points = d.lkm.points ∧
    ∀ z, d.lines.leakIn = false ∨ d.sru.profile.leakLineZone ≠ some z → (examineLine d).zone z = d.zone z := by
  unfold examineLine
  split
  · rename_i z hl hz
    have confirmed (c : ZoneCfg) : (confirmZone z c byLine 0 d).lkm.points = d.lkm.points ∧
        ∀ m, d.lines.leakIn = false ∨ d.sru.profile.leakLineZone ≠ some m →
          (confirmZone z c byLine 0 d).zone m = d.zone m := by
      have h := Examined.confirmZone z c byLine 0 d
      refine ⟨h.points, fun m hm => h.zones m fun he => ?_⟩
      rw [hl, hz, he] at hm
      simp at hm
    split
    · exact confirmed _
    · exact confirmed _
    · exact ⟨rfl, fun _ _ => rfl⟩
  · exact ⟨rfl, fun _ _ => rfl⟩

/-- The line on a zone that an examination has left unlatched or confirmed anew. -/
theorem examineLine_fresh {d : Part} {z : Nat} {c : ZoneCfg} (hz : z < d.lkm.zones.length)
    (hc : (d.zone z).cfg = some c) (hs : (d.zone z).state.latched = false ∨
      (d.zone z).state = (if c.isolate then .isolated else .confirmed) ∧ (d.zone z).acked = false) :
    ((examineLine d).zone z).cfg = some c ∧ (d.lines.leakIn = true ∧ d.sru.profile.leakLineZone = some z →
      ((examineLine d).zone z).state = (if c.isolate then .isolated else .confirmed) ∧
        ((examineLine d).zone z).acked = false) := by
  by_cases hline : d.lines.leakIn = true ∧ d.sru.profile.leakLineZone = some z
  · rcases hl : (d.zone z).state.latched
    · rw [examineLine_confirms hline.1 hline.2 hc hl, confirmZone_zone hz]
      exact ⟨hc, fun _ => ⟨rfl, rfl⟩⟩
    · rw [examineLine_silent (.inr fun m c' ⟨hm, _, _, hu⟩ => by
        rw [← Option.some.inj (hline.2.symm.trans hm), hl] at hu
        cases hu)]
      exact ⟨hc, fun _ => hs.resolve_left (by rw [hl]; exact nofun)⟩
  · have hout : d.lines.leakIn = false ∨ d.sru.profile.leakLineZone ≠ some z := by
      by_cases hl : d.lines.leakIn = true
      · exact .inr fun h => hline ⟨hl, h⟩
      · exact .inl (by simpa using hl)
    rw [(examineLine_others d).2 z hout]
    exact ⟨hc, fun h => absurd h hline⟩

/-- An examination of a CLEAR zone without points leaves it CLEAR and undegraded. -/
theorem examineZone_pointless {d : Part} {z : Nat} {c : ZoneCfg} (hz : z < d.lkm.zones.length)
    (hc : (d.zone z).cfg = some c) (hs : (d.zone z).state = .clear)
    (hp : ∀ p ∈ d.lkm.points.filterMap id, p.cfg.zone ≠ z) :
    (examineZone z d).zone z = ⟨some c, .clear, (d.zone z).acked, false⟩ := by
  have hnone : zonePoints z d = [] := List.filter_eq_nil_iff.mpr fun p hm => by simpa using hp p hm
  have hwet : wetCount z d = 0 := by
    unfold wetCount
    rw [hnone]
    rfl
  have hfault : faultCount z d = 0 := by
    unfold faultCount
    rw [hnone]
    rfl
  have hconf : ¬ confirms z c d := fun h => by
    have hlen := h.1
    rw [hnone] at hlen
    exact absurd hlen (by decide)
  rw [examineZone_clear hc hs hconf hwet, noteDegraded_zone_same hz]
  simp [degradedZone, hfault, hc, hs]

section
variable {d : Part} {n : Nat} {ws : List Word} (hs : (d.zone n).state = .clear) (hlt : n < d.lkm.zones.length)
include hs hlt

theorem zoneStored_zone (e : Option ZoneCfg) : n < (zoneStored n e d).lkm.zones.length ∧
    (zoneStored n e d).zone n = ⟨e, .clear, (d.zone n).acked, e.isSome && (d.zone n).degraded⟩ := by
  have hlt' : n < (zoneStored n e d).lkm.zones.length := by
    unfold zoneStored putZone
    simpa using hlt
  rw [← hs]
  exact ⟨hlt', zone_putZone_same _ _ _ hlt⟩

/-- An emptied zone is inert. -/
theorem zoneStored_empty :
    (examineLine (examineZone n (zoneStored n none d))).zone n = ⟨none, .clear, (d.zone n).acked, false⟩ := by
  obtain ⟨-, hzone⟩ := zoneStored_zone hs hlt none
  have hcfg : ((zoneStored n none d).zone n).cfg = none := by rw [hzone]
  have hsame : examineZone n (zoneStored n none d) = zoneStored n none d := by
    unfold examineZone
    rw [hcfg]
  rw [hsame]
  by_cases h : (zoneStored n none d).sru.profile.leakLineZone = some n
  · rw [examineLine_silent (.inr fun z c ⟨hz, _, hc, _⟩ => by
      rw [← Option.some.inj (h.symm.trans hz), hcfg] at hc
      cases hc)]
    exact hzone
  · exact ((examineLine_others _).2 n (.inr h)).trans hzone

/-- The clause of O50 for a Leak Zone record. -/
theorem writeZone_live {e : Option ZoneCfg} (he : parseZone ws = .ok e) (hne : e ≠ (d.zone n).cfg) :
    let o := writeZone n ws d
    let line := d.lines.leakIn = true ∧ d.sru.profile.leakLineZone = some n
    o.2 = .accepted ∧ o.1.lkm.points = d.lkm.points ∧
    (e = none → o.1.zone n = ⟨none, .clear, (d.zone n).acked, false⟩) ∧
    (∀ c, e = some c → (o.1.zone n).cfg = some c ∧
      (line → (o.1.zone n).state = (if c.isolate then .isolated else .confirmed) ∧
        (o.1.zone n).acked = false) ∧
      (¬ line → (∀ p ∈ d.lkm.points.filterMap id, p.cfg.zone ≠ n) →
        o.1.zone n = ⟨some c, .clear, (d.zone n).acked, false⟩)) ∧
    (∀ z, z ≠ n → d.lines.leakIn = false ∨ d.sru.profile.leakLineZone ≠ some z → o.1.zone z = d.zone z) := by
  simp only
  rw [writeZone_changes he hs hne]
  obtain ⟨hlt', hzone⟩ := zoneStored_zone hs hlt e
  have hx := Examined.of_examineZone n (zoneStored n e d)
  have hleaked := examineZone_leaked n (zoneStored n e d)
  have hin : (examineZone n (zoneStored n e d)).lines.leakIn = d.lines.leakIn :=
    congrArg Lines.leakIn hleaked.outputs
  have hprofile : (examineZone n (zoneStored n e d)).sru.profile = d.sru.profile :=
    congrArg Sru.profile hleaked.sru
  obtain ⟨hpoints, hothers⟩ := examineLine_others (examineZone n (zoneStored n e d))
  rw [hin, hprofile] at hothers
  refine ⟨rfl, hpoints.trans hx.points, fun hnone => ?_, fun c hc => ?_, fun z hz hnot => ?_⟩
  · subst hnone
    exact zoneStored_empty hs hlt
  · subst hc
    have hcfg : ((zoneStored n (some c) d).zone n).cfg = some c := by rw [hzone]
    have hstate : ((zoneStored n (some c) d).zone n).state = .clear := by rw [hzone]
    obtain ⟨hcfg', hkept⟩ := examineZone_fromClear hlt' hcfg hstate
    have hfresh := examineLine_fresh (lt_of_zone_cfg hcfg') hcfg' hkept
    rw [hin, hprofile] at hfresh
    refine ⟨hfresh.1, hfresh.2, fun hnot hp => ?_⟩
    have hpointless := examineZone_pointless hlt' hcfg hstate hp
    rw [hzone] at hpointless
    exact (hothers n (not_and_or.mp hnot |>.imp_left (by simpa using ·))).trans hpointless
  · exact (hothers z hnot).trans ((hx.zones z hz).trans (zone_putZone _ _ _ _ hz))

end

/-! ## O50 -/

/-- The clause of O50 for a record that rewrites a branch. -/
theorem writeBranch_live {d : Part} {n : Nat} {ws : List Word} {x : Branch} {c : BranchCfg}
    (hx : d.branch n = some x) (hp : parseBranch ws = .ok (some c)) (hc : c ≠ x.cfg)
    (hother : ∀ m y, m ≠ n → d.branch m = some y → y.cfg.node ≠ c.node)
    (hnode : c.node = x.cfg.node ∨ x.state = .off) (hzone : c.zone = x.cfg.zone ∨ x.holds.leak = false) :
    let o := writeBranch n ws d
    let y := x.refielded d c
    let becomes := fun z q => o.1.branch n = some z ∧ o.1.bcu.queue = q
    o.2 = .accepted ∧ .branches ∈ o.1.agenda ∧
    (c.ratedW < x.cfg.ratedW → .attempt ∈ o.1.agenda) ∧
    (∀ m, m ≠ n → o.1.branch m = d.branch m) ∧
    (c.node ≠ x.cfg.node →
      becomes { y with state := .unknown, reading := none, fresh := false, moved := true } d.bcu.queue ∧
      o.1.slc.out = d.slc.out.map (Option.map fun r =>
        if r.forBranch = some n then { r with forBranch := none } else r)) ∧
    (c.node = x.cfg.node →
      (x.holds.any = false → y.holds.any = true → x.state = .queued →
        becomes { y with state := .off } (d.bcu.queue.filter (· != n)) ∧ o.1.slc.out = d.slc.out) ∧
      (x.holds.any = false → y.holds.any = true → x.state = .admitting ∨ x.state = .on →
        ∀ k r, d.outSlot c.node = some k → entry d.slc.out k = some r →
        becomes { y with state := .stopping, timer := .running d.sru.profile.admitTimeoutMs } d.bcu.queue ∧
        o.1.slc.out = d.slc.out.set k (some { r with
          staged := some 0, lastWriter := some .bcu, owed := true, forBranch := some n })) ∧
      (x.state = .off → y.holds.any = false → x.demands.any = true →
        becomes { y with state := .queued } (d.bcu.queue ++ [n]) ∧ o.1.slc.out = d.slc.out) ∧
      ((x.holds.any = true ∨ y.holds.any = false) →
        (x.state ≠ .off ∨ y.holds.any = true ∨ x.demands.any = false) →
        becomes y d.bcu.queue ∧ o.1.slc.out = d.slc.out) ∧
      (x.state = .unknown ∨ x.state = .stopping ∨ x.state = .fault ∨
          (x.state = .off ∧ x.holds.any = false ∧ y.holds.any = true) →
        becomes y d.bcu.queue ∧ o.1.slc.out = d.slc.out)) := by
  simp only
  rw [writeBranch_rewrites hx hp hc hother hnode hzone]
  exact ⟨rfl, rewriteBranch_due hc, rewriteBranch_attempts, fun m hm => rewriteBranch_other hm,
    fun hnode => (rewriteBranch_moves hx hnode).branch_queue,
    fun hnode => ⟨fun h1 h2 h3 => (rewriteBranch_queued hx hnode h1 h2 h3).branch_queue,
      fun h1 h2 h3 k r hk hr => (rewriteBranch_stops hx hnode h1 h2 h3 hk hr).branch_queue,
      fun h1 h2 h3 => (rewriteBranch_wanted hx hc hnode h1 h2 h3).branch_queue,
      fun h1 h2 => (rewriteBranch_stands hx hnode (.inl ⟨h1, h2⟩)).branch_queue,
      fun h => (rewriteBranch_stands hx hnode (.inr h)).branch_queue⟩⟩

/-- The clause of O50 for a record that empties a branch entry. -/
theorem writeBranch_emptied {d : Part} {n : Nat} {ws : List Word} {x : Branch} (hx : d.branch n = some x)
    (hs : x.state = .off) (hp : parseBranch ws = .ok none) :
    (writeBranch n ws d).2 = .accepted ∧ .branches ∈ (writeBranch n ws d).1.agenda ∧
      (writeBranch n ws d).1.bcu = { d.bcu with branches := d.bcu.branches.set n none } ∧
      (writeBranch n ws d).1.slc.out = d.slc.out.map (Option.map fun r =>
        if r.forBranch = some n then { r with forBranch := none } else r) := by
  rw [writeBranch_empties hx hs hp, ← forget_eq]
  refine ⟨rfl, signalOnce_due _ _, signalOnce_bcu _ _, (signalOnce_fixed _ _).out⟩

/-- Settles O50, table by table. -/
theorem recordsChangeLive : Obligations.RecordsChangeLive := by
  intro d n ws
  refine ⟨fun e he hne _ => writeLimit_live he hne,
    fun x c hx hp hc hother hnode hzone => writeBranch_live hx hp hc hother hnode hzone,
    fun x hx hs hp => writeBranch_emptied hx hs hp,
    fun node w hp hlt hfree hne => writeRect_live hp hlt hfree hne,
    fun hp hn => writeRect_emptied hp hn,
    fun node hp hlt hfree hne => writeBatt_live hp hlt hfree hne,
    fun hp => ?_, writeProfile_live ws d,
    fun e he hne _ hnew hold => writePoint_live he hne hnew hold,
    fun e he hs hne hlt => writeZone_live hs hlt he hne⟩
  simp only [writeBatt, hp]

end Sys2Proof.Machine
